-- ==== Sys2Proof/Word.lean ====
section
/-! DEFINITION. The word and byte types of the block, and the octet strings of network names.
Registers are 32 bits wide (R16); storage is bytes, little-endian (R12). -/

namespace Sys2Proof

/-- A 32-bit register word (R16). -/
abbrev Word := BitVec 32

/-- One byte of the Inkwell area or of the LPDDR4X (R12). -/
abbrev Byte := BitVec 8

/-- A name or identifier carried by a network frame, as its octets (R132, R143). -/
abbrev Octets := List Nat

/-- A sample instant in units of 1/1,152,000 s of DTC: the coarsest grid that holds every stream
rate of R131 (R35). -/
abbrev Instant := Nat

end Sys2Proof
end

