-- ==== Sys2Proof/Syntax.lean ====
section
/-! DEFINITION. The commands of the block: one constructor of Instr for each row of spec/opcode_table.json, in the
table's order, and the data that commands carry. What the module only observes (frames, voltages, levels, the
result of a code, signature or hash check) is an operand. -/

namespace Sys2Proof

/-- Who reads or writes a register (R57, R451): the PCIe or SPI port, or the supervisor core; or, of the endpoint's configuration space,
a configuration request over PCIe (R446). -/
inductive Requester | pcie | spi | sup | cfg
  deriving DecidableEq, Repr

/-- How a register write reaches the module: a direct write over a port (R451), a WRITE_REG of a session at a
level 0-2 (R468), or the JTAG COMMISSION path (R479). -/
inductive Access
  | direct (r : Requester)
  | cmd (sess : Fin 16) (level : Nat)
  | jtag
  deriving DecidableEq, Repr

/-- Where a memory word stands: its region (R490, R491) and its byte offset in the region. -/
structure MemLoc where
  region : Nat
  offset : Nat
  deriving DecidableEq, Repr

/-- What a read finds in a memory word (R489): no wrong bit, or so many wrong bits of the code word, under the Light code of one byte, and
so many in the word's shadow copy (R500). -/
inductive Ecc
  | ok
  | err (l : MemLoc) (bits shadow : Nat)
  deriving DecidableEq, Repr

/-- A command of a session whose reading of memory meets a word: the session, and what stands in that word (R499, R501). -/
structure SessRead where
  sess : Fin 16
  c : Ecc
  deriving DecidableEq, Repr

/-- The operand bits of a bit instruction (09 R293), and what the code check of the data word they name finds (R305). -/
structure BitInsn where
  x : BitVec 26
  c : Ecc
  deriving DecidableEq, Repr

/-- A read access: who reads, and how many bytes over PCIe, where a 64-bit read returns the word above too (R58) and any size but 4 and 8
is ill-formed (R450). -/
structure RegRead where
  who : Requester
  bytes : Nat
  deriving DecidableEq, Repr

/-- A completion of a read request of a pull (R465): 0 data, 1 UR or CA, 2 poisoned; offset in the pull of the first byte it is for. -/
structure ReadCpl where
  status : Nat
  off : Nat
  deriving DecidableEq, Repr

/-- A write to BAR2: offset and size in bytes (R450, R452). -/
structure ApertureWrite where
  off : Nat
  bytes : Nat
  deriving DecidableEq, Repr

/-- The signals of a port as they now stand (R119): LOS, PCS synchronism, completed auto-negotiation. -/
structure LinkSignals where
  los : Bool
  pcs : Bool
  an : Bool
  deriving DecidableEq, Repr

/-- The mesh queues of R21, in the order of its table. -/
inductive MeshQ
  | localConv | detFeed | wavefront | sampleSets | decisions | logicOut | gooseIn | goosePub | svPub
  | linkCmd | linkRx | eventIntake | recCapture | recWrite | hostMeas | hostReads | inkwell
  deriving DecidableEq, Repr

/-- The data set of an Announce that the IEEE 1588 comparison orders (R66). -/
structure Announce where
  priority1 : Nat
  clockClass : Nat
  accuracy : Nat
  variance : Nat
  priority2 : Nat
  identity : Nat
  steps : Nat
  sender : Nat
  deriving DecidableEq, Repr

/-- A received PTP message (R61). Times are ns; corrections are in units of 2^-16 ns (R63). `inacc` is the
grandmasterTimeInaccuracy of an IEEE_C37_238 TLV, in ns, where the message carries one (R55). -/
inductive PtpMsg
  | sync (dom seq : Nat) (twoStep : Bool) (origin : Int) (corr : Int) (logInt : Int) (inacc : Option Nat)
  | followUp (dom seq : Nat) (origin : Int) (corr : Int) (inacc : Option Nat)
  | announce (dom : Nat) (ds : Announce) (logInt : Int) (inacc : Option Nat)
  | pdelayReq (dom seq : Nat)
  /-- one-step: `corr` holds the responder's t3 - t2; two-step: `t2` is its requestReceiptTimestamp and a
  Pdelay_Resp_Follow_Up is to come -/
  | pdelayResp (dom seq : Nat) (twoStep : Bool) (t2 : Int) (corr : Int)
  /-- `t3` is the responseOriginTimestamp -/
  | pdelayRespFu (dom seq : Nat) (t3 : Int) (corr : Int)
  deriving DecidableEq, Repr

/-- One ASDU of a sampled-value frame (R131). -/
structure Asdu where
  svId : Octets
  smpCnt : Nat
  confRev : Nat
  smpSynch : Nat
  smpRate : Option Nat
  smpMod : Option Nat
  /-- one INT32 value and its 32-bit quality for each channel -/
  data : List (Int × Word)
  deriving DecidableEq, Repr

/-- A decoded savPdu (R131, R132). -/
structure SvPdu where
  appId : Nat
  noAsdu : Nat
  sim : Bool
  asdus : List Asdu
  deriving DecidableEq, Repr

/-- One flat dataset member of a GOOSE message (R144): kind 0 BOOLEAN, 1 BIT STRING, 2 INTEGER, 3 UNSIGNED,
4 FLOAT32, 5 UtcTime; `size` in bits. -/
structure GMember where
  kind : Nat
  size : Nat
  value : BitVec 64
  deriving DecidableEq, Repr

/-- A decoded GOOSE message (R143). `tal` is timeAllowedToLive in ms. -/
structure GooseMsg where
  appId : Nat
  gocbRef : Octets
  datSet : Octets
  goId : Octets
  confRev : Nat
  stNum : Nat
  sqNum : Nat
  tal : Nat
  ndsCom : Bool
  test : Bool
  sim : Bool
  edition2 : Bool
  numEntries : Nat
  members : List GMember
  deriving DecidableEq, Repr

/-- What a frame carries, as its EtherType says (R129). -/
inductive Body
  | sv (p : SvPdu)
  | goose (g : GooseMsg)
  | ptp (m : PtpMsg)
  | prpSup
  | other
  deriving DecidableEq, Repr

/-- The last six octets before the FCS read as a redundancy control trailer (R124): SeqNr, LanId, LSDUsize, suffix. -/
structure Rct where
  seq : Nat
  lanId : Nat
  lsduSize : Nat
  suffix : Nat
  deriving DecidableEq, Repr

/-- A frame at a network port (R120): length from the destination address through the FCS, tags, addresses as 48-bit numbers with
the first octet most significant, what its octets say, and the octets after the addresses themselves. -/
structure Frame where
  len : Nat
  fcsOk : Bool
  tags : Nat
  dst : Nat
  src : Nat
  rct : Option Rct
  /-- SeqNr of an HSR tag (R350) -/
  hsr : Option Nat
  /-- reception was cut by link loss (R119) -/
  cut : Bool
  body : Body
  octets : List Byte
  deriving DecidableEq, Repr

/-- A frame as the receiver of a Ductus link takes it off the line (R325, R329): whether the ordered sets delimit it, whether it is
free of code-group errors, and the bytes between the delimiters. -/
structure LineFrame where
  framed : Bool
  codeOk : Bool
  bytes : List Byte
  deriving DecidableEq, Repr

/-- A command block as it comes in over C37.94 (R346, R347): framing kept, yellow bit, and the bytes of its timeslots. -/
structure CBlock where
  framed : Bool
  yellow : Bool
  bytes : List Byte
  deriving DecidableEq, Repr

/-- A signal a Quill task reads or writes, by its class-0 number (R287): group and index. -/
structure Sig where
  group : Nat
  index : Nat
  deriving DecidableEq, Repr, Inhabited

/-- A signal in a task's output image (R288): BOOL or 32-bit word, its declared initial and safe values. -/
structure QOut where
  sig : Sig
  bool : Bool
  init : Word
  safe : Word
  deriving DecidableEq, Repr, Inhabited

/-- A word of a task's input image beyond the header: a signal's value, or its quality byte. -/
structure QIn where
  sig : Sig
  qual : Bool
  deriving DecidableEq, Repr, Inhabited

/-- A task as the program image declares it (R283, R288, R292, R293). Periods and phases in units of 62.5 us;
windows are half-open ranges of data words. -/
structure QTask where
  period : Nat
  phase : Nat
  maxInsn : Nat
  entry : Nat
  dataLo : Nat
  dataHi : Nat
  retLo : Nat
  retHi : Nat
  inBase : Nat
  outBase : Nat
  ins : List QIn
  outs : List QOut
  deriving DecidableEq, Repr, Inhabited

/-- The kinds of slot (R307, QIL_SLOT_STATE.TYPE): 1 TON, 2 TOF, 3 TP, 4 CTU, 5 CTD, 6 CTUD, 7 rising, 8 falling. -/
structure QSlot where
  slot : Nat
  kind : Nat
  task : Nat
  symId : Nat
  /-- declared initial CV of a counter, or initial memory of an edge or input memory -/
  init : Int
  retain : Bool
  /-- declared initial CUM and CDM of a counter (R316) -/
  cum : Bool
  cdm : Bool
  deriving DecidableEq, Repr, Inhabited

/-- A retained variable (R307, R317). -/
structure QRet where
  symId : Nat
  addr : Nat
  words : Nat
  dtype : Nat
  init : List Word
  deriving DecidableEq, Repr, Inhabited

/-- A Quill program image (R308). The byte layout of the image is not in the spec, so the model holds its
content, with the results of the checks the Seal unit makes on it (log entry 11). -/
structure QProg where
  id : Nat
  variant : Nat
  mapHash : Nat
  pertask : Bool
  predecessor : Nat
  tasks : List QTask
  timers : List QSlot
  counters : List QSlot
  edges : List QSlot
  retained : List QRet
  data : List (Nat × Word)
  code : List Word
  length : Nat
  sigOk : Bool
  hashOk : Bool
  deriving DecidableEq, Repr, Inhabited

/-- A GOOSE subscription's declaration beyond its registers (R143, R144): names, members, quality sources,
default values and Stroke GOOSE bits. -/
structure GsMember where
  kind : Nat
  size : Nat
  qualMember : Option Nat
  deflt : BitVec 64
  deriving DecidableEq, Repr, Inhabited

structure GsDecl where
  gocbRef : Octets
  datSet : Octets
  goId : Octets
  members : List GsMember
  deriving DecidableEq, Repr, Inhabited

/-- What the Folio supplies of a GOOSE publication beyond its registers (R353): destination, APPID, names, confRev, and the PCP and VID
of its VLAN tag, if it has one. -/
structure GpDecl where
  dst : Nat
  appId : Nat
  gocbRef : Octets
  datSet : Octets
  goId : Octets
  confRev : Nat
  vlan : Option (Nat × Nat)
  deriving DecidableEq, Repr, Inhabited

/-- What the Folio supplies of a sampled-value publication beyond its registers (R358): header, svID, confRev and VLAN tag. -/
structure SpDecl where
  dst : Nat
  appId : Nat
  svId : Octets
  confRev : Nat
  vlan : Option (Nat × Nat)
  deriving DecidableEq, Repr, Inhabited

/-- A Stroke GOOSE bit GBnn (R149): subscription, member, bit of a BIT STRING, fail value. -/
structure GbDecl where
  gs : Nat
  member : Nat
  bit : Nat
  failv : Bool
  deriving DecidableEq, Repr, Inhabited

/-- An analogue channel of a Vellum profile (R377). -/
structure VelChan where
  stream : Nat
  chan : Nat
  scale : Word
  deriving DecidableEq, Repr, Inhabited

/-- A Vellum profile's channel table (R377): analogue channels and binary codes. -/
structure VelTab where
  chans : List VelChan
  bins : List Nat
  deriving DecidableEq, Repr, Inhabited

/-- A string of bytes: its length, and those of its bytes that are not 0, by offset, rising. -/
structure Str where
  len : Nat
  cells : List (Nat × Byte)
  deriving DecidableEq, Repr, Inhabited

/-- What a verification by FIPS 204 finds (R475): the signature verifies under that public key, over that message, with that context
string, and under and over no other. -/
structure SigFact where
  sig : Str
  key : Str
  msg : Str
  ctx : Str
  deriving DecidableEq, Repr, Inhabited

/-- A host credential as segment 9 of the Folio lays it out (R483). -/
structure Cred where
  present : Bool
  maxLevel : Nat
  spiOk : Bool
  key : Str
  deriving DecidableEq, Repr, Inhabited

/-- What segments 1 to 8 of a Folio configure (R420). The layouts inside these segments are not in the spec, so
the model holds their content (log entry 11): the words of every register whose Reset column reads "Folio",
the element settings blocks, and the tables that no register shows. -/
structure FolioContent where
  regs : List (Nat × Word)
  nib : List (Nat × Word)
  ctxHa : List Nat
  svIds : List (Nat × Octets)
  gsDecls : List GsDecl
  gpDecls : List GpDecl
  spDecls : List SpDecl
  gbits : List GbDecl
  velTabs : List VelTab
  linkHash : List (List Nat)
  linkFed : List Nat
  funcHa : List (Nat × Nat)
  quill : QProg
  /-- stations' source MAC of each pair (R350) -/
  pairMac : List Nat
  /-- where subscribed traffic is expected (R133): stream context 0-191 or 192 + subscription, port, and of a subscription its
  expected bits a second -/
  expect : List (Nat × Nat × Nat)
  deriving DecidableEq, Repr, Inhabited

/-- A Folio image as a flash bank or the host bulk region holds it (R419 to R422): its bytes, those that are not 0 by offset; what FIPS
202 and FIPS 204 make of strings of them, SHA3-256 values as little-endian numbers and the signatures that verify; and what its
segments without a layout in the spec configure. -/
structure FolioImage where
  bytes : List (Nat × Byte)
  hashes : List (Str × Nat)
  sigs : List SigFact
  content : FolioContent
  deriving DecidableEq, Repr

/-- What a start meets while it loads a bank: whether flash can be read (R423), and the words of the Seal buffers that the verification
of each signature, and its repetition, find uncorrectable (R499). -/
structure LoadFacts where
  readOk : Bool
  ownerUe : List MemLoc
  vendorUe : List MemLoc
  deriving DecidableEq, Repr, Inhabited

/-- What the steps of a cold start find (R426): fuse load, repair map, BIST with the spares it gives to failing rows (repair bank, spare),
training, the load, DRAM, units. -/
structure ColdFacts where
  fuseOk : Bool
  mapOk : Bool
  bistOk : Bool
  repairs : List (Nat × Nat)
  failBank : Nat
  bistMs : Nat
  trainOk : Bool
  failStep : Nat
  trainMs : Nat
  load : LoadFacts
  dramOk : Bool
  unitsOk : Bool
  deriving DecidableEq, Repr

/-- The commands of the block, in the order of spec/opcode_table.json. -/
inductive Instr
  -- architecture and nib engines
  | paceWindowEnd (p : Nat)
  | creditReturn (q : MeshQ) (i : Fin 256)
  | sampleSetComplete (sc : Fin 224)
  | evaluationDispatch (e : Fin 16) (settings : Ecc) (state : Ecc)
  | evaluationComplete (e : Fin 16)
  | outputLogicFlit (e : Fin 16)
  | haResignal (ctx : Fin 256)
  | haFallback (ctx : Fin 256)
  | assertCmd (sess : Fin 16)
  | haWordApply (e : Fin 16)
  | twdetUnconfirmed (ctx : Fin 256)
  | twdetHoldEnd (ctx : Fin 256)
  | twlocStampDelivery (dl : Fin 4)
  | twlocUnlock (ctx : Fin 256)
  | contextSettingsSwitch (ctx : Fin 256)
  -- ruling unit
  | syncReceived
  | followUpReceived
  | domainRevert
  | announceReceived
  | announceReceiptTimeout (d : Fin 2)
  | syncMissingTimeout (d : Fin 2)
  | pdelayReqSend (port : Fin 28)
  | pdelayReqReceived
  | pdelayRespReceived
  | suspectHoldEnd (d : Fin 2)
  | hostServoTimeout (d : Fin 2)
  | rulDomHaPhaseWrite (a : Access) (d : Fin 2) (v : Word)
  | rulDomCfgWrite (a : Access) (d : Fin 2) (ports : Bool) (v : Word)
  | refLost
  | refRestored
  | timeStepAllow (sess : Fin 16)
  | stepGrantExpired (d : Fin 2)
  /-- `fmt` 0-7 for B000-B007, other formats above; the day of the year from 1 on, the second of the day in UTC, and the year
  carried (B004-B007) -/
  | irigbFrame (fmt : Nat) (day : Nat) (sec : Nat) (year : Nat)
  | ppsInEdge
  | ppsOutRise
  | ppsOutFall
  | tqChange
  | dtcSlewEnd
  | dtcSnapshotRead (r : RegRead)
  /-- of a register that is no low word the read latches nothing -/
  | lowWordRead (r : RegRead) (addr : Nat)
  | qilSlotSelWrite (a : Access) (v : Word)
  -- analogue front end
  | sampleTick
  | swtrig (a : Access) (n : Fin 16)
  | reload (a : Access) (n : Fin 16)
  | afeActWrite (a : Access) (n : Fin 16) (e : Fin 16) (w : Fin 2) (v : Word)
  | afeWdSrcWrite (a : Access) (n : Fin 16) (v : Word)
  /-- `vin` is the input voltage at the hold instant, in nV -/
  | conversionComplete (n : Fin 16) (vin : Int)
  | streamWindowClose (n : Fin 16)
  | comparatorCrossing (i : Fin 64) (above : Bool)
  | urgentConversionComplete (n : Fin 16) (vin : Int)
  | wavefrontEvent (n : Fin 16)
  -- process-bus ingress and ports (0-23 PB, 24-27 SB)
  | portLinkDown (p : Fin 28) (l : LinkSignals)
  | portLinkUp (p : Fin 28) (gigabit : Bool)
  | frameReceived (p : Fin 28) (f : Frame)
  | frameForward (p : Fin 28)
  | frameTxStart (p : Fin 28)
  | svDecode
  | svMissingDeadline (sc : Fin 224)
  | svWaitingDeadline (sc : Fin 224)
  | gooseDecode
  | gooseStale (gs : Fin 64)
  | gooseHostEntryTake (gs : Fin 64)
  | prpSupervisionSend (pair : Fin 14)
  | sfpXferStart (a : Access) (v : Word)
  | sfpXferDone (nack : Bool) (data : Byte)
  -- stroke
  | strokeUpdate (src : Fin 21)
  | stkTminEnd (n : Fin 16)
  | stkCurrentGone (n : Fin 16)
  | stkCgTimeout (n : Fin 16)
  | stkReset (a : Access) (v : Word)
  | feedbackLevelCount (n : Fin 16) (level : Bool)
  | stkFbNorise (n : Fin 16)
  | stkFbRest (n : Fin 16)
  | stkTest (sess : Fin 16)
  | testPulseEnd (n : Fin 16)
  /-- 0-31 GOOSE publications GP00-GP31, 32-35 links DL0-DL3 -/
  | publicationRequest (i : Fin 36)
  -- quill
  | taskRelease (t : Fin 8)
  | taskStart (t : Fin 8) (prog : Ecc)
  | nop (x : BitVec 26)
  | ldb (b : BitInsn)
  | andb (b : BitInsn)
  | orb (b : BitInsn)
  | xorb (b : BitInsn)
  | stb (b : BitInsn)
  | setb (b : BitInsn)
  | rstb (b : BitInsn)
  | notl (x : BitVec 26)
  | pushl (x : BitVec 26)
  | popa (x : BitVec 26)
  | popo (x : BitVec 26)
  | rtrg (x : BitVec 26)
  | ftrg (x : BitVec 26)
  | lrw (x : BitVec 26)
  | wlr (x : BitVec 26)
  | ldw (x : BitVec 26) (c : Ecc)
  | stw (x : BitVec 26) (c : Ecc)
  | ldi (x : BitVec 26)
  | lui (x : BitVec 26)
  | add (x : BitVec 26)
  | sub (x : BitVec 26)
  | mul (x : BitVec 26)
  | divs (x : BitVec 26)
  | rems (x : BitVec 26)
  | and (x : BitVec 26)
  | or (x : BitVec 26)
  | xor (x : BitVec 26)
  | shl (x : BitVec 26)
  | shr (x : BitVec 26)
  | asr (x : BitVec 26)
  | addi (x : BitVec 26)
  | andi (x : BitVec 26)
  | ori (x : BitVec 26)
  | fadd (x : BitVec 26)
  | fsub (x : BitVec 26)
  | fmul (x : BitVec 26)
  | fdiv (x : BitVec 26)
  | itof (x : BitVec 26)
  | ftoi (x : BitVec 26)
  | cmp (x : BitVec 26)
  | fcmp (x : BitVec 26)
  | jmp (x : BitVec 26)
  | jc (x : BitVec 26)
  | jnc (x : BitVec 26)
  | call (x : BitVec 26)
  | ret (x : BitVec 26)
  | endRun (x : BitVec 26)
  | ton (x : BitVec 26)
  | tof (x : BitVec 26)
  | tp (x : BitVec 26)
  | tet (x : BitVec 26)
  | ctu (x : BitVec 26)
  | ctd (x : BitVec 26)
  | crst (x : BitVec 26)
  | cld (x : BitVec 26)
  | cqu (x : BitVec 26)
  | cqd (x : BitVec 26)
  | ccv (x : BitVec 26)
  | emit (x : BitVec 26)
  | vtrg (x : BitVec 26)
  /-- the image that the host bulk region holds at OFFSET -/
  | qilLoad (r : SessRead) (img : QProg)
  | qilLoadDone
  | qilSwitch (sess : Fin 16)
  | qilSwitchInstant
  | forceSet (sess : Fin 16)
  | forceClear (sess : Fin 16)
  -- ductus and station bus
  | ductusFrameStart (dl : Fin 4)
  | ductusFrameReceived (dl : Fin 4) (f : LineFrame)
  | negotiationFrameReceived (dl : Fin 4) (f : LineFrame)
  | ducLinkLost (dl : Fin 4)
  | ductusRxSyncChange (dl : Fin 4) (sync : Bool) (los : Bool)
  | messageRetry (dl : Fin 4)
  | ducMsgLost (dl : Fin 4)
  | settingsCheckSend (dl : Fin 4)
  | c3794BlockStart (dl : Fin 4)
  | c3794BlockReceived (dl : Fin 4) (b : CBlock)
  | gooseNewState (gp : Fin 32)
  | gooseRepetition (gp : Fin 32)
  -- recording
  /-- `dump`: a supervisor diagnostic dump of that LEN and SEV (R365); none takes the oldest record offered -/
  | scriptLogOffer (dump : Option (Nat × Nat))
  | scriptLogCommit
  | suppressed (code : Fin 1024)
  | blot (sess : Fin 16)
  | unblot (sess : Fin 16)
  | blotTimeout
  | logRead (sess : Fin 16) (c : Ecc)
  | velList (r : SessRead)
  | velLock (sess : Fin 16)
  | velRelease (sess : Fin 16)
  | velExport (sess : Fin 16)
  | velExportDone (c : Ecc)
  | velTrig (a : Access) (v : Word)
  | vellumRowAssemble (pr : Fin 16)
  | velClose (pr : Fin 16)
  | velWriteTimeout (pr : Fin 16) (retrainings : Nat)
  -- field channels
  | diChangeCounted (fc : Fin 32) (level : Bool)
  | fioWireBreak (fc : Fin 32)
  | wireBreakClear (fc : Fin 32)
  | keepAliveFrame (fc : Fin 32)
  /-- `iload`: the load current in mA that the frame reports -/
  | statusFrame (fc : Fin 32) (iload : Nat)
  | fioLinkLost (fc : Fin 32)
  | watchdogExpiry (fc : Fin 32)
  | fioOverload (fc : Fin 32)
  | fioOvertemp (fc : Fin 32)
  | overtempClear (fc : Fin 32)
  | overloadRetry (fc : Fin 32)
  | fioOpenWire (fc : Fin 32)
  | fioShortLplus (fc : Fin 32)
  | fioPairImbal (fc : Fin 32)
  | retry (a : Access) (fc : Fin 32)
  | inhibit (a : Access) (fc : Fin 32) (on : Bool)
  /-- `mv`: L+ against M in mV as the field side measures it -/
  | fioGrpWarn (g : Fin 4) (mv : Nat)
  | fioGrpNormal (g : Fin 4) (mv : Nat)
  | fioGrpLockout (g : Fin 4) (mv : Nat)
  | fioGrpRecover (g : Fin 4) (mv : Nat)
  | fioGrpNosupply (g : Fin 4) (mv : Nat)
  | groupSupplyReturn (g : Fin 4) (mv : Nat)
  | ack (a : Access) (g : Fin 4)
  -- start, Folio and live settings
  | resetNAssert
  | resetNRelease
  | v3p3Loss
  | coldStart (f : ColdFacts)
  | warmStart (f : LoadFacts) (unitsOk : Bool)
  | supervisorWatchdogExpiry
  | brownOut
  | fatalFault
  | startWarm (sess : Fin 16)
  | startCold (sess : Fin 16)
  | wfailClear
  | sysCtrlTestWrite (a : Access) (v : Word)
  | testTimeout
  /-- `img`: what the bytes in host bulk memory hash to, verify as and configure; its own bytes are not looked at -/
  | flashProgramGo (a : Access) (v : Word) (img : FolioImage)
  | flashProgDone (ok : Bool)
  | setWrite (r : SessRead)
  | epochCommit (sess : Fin 16)
  | epochAbort (sess : Fin 16)
  | shadowResyncDone
  -- host interfaces and Inkwell
  | perstNFall
  | hstPcieLinkUp (speed : Nat) (width : Nat)
  | hstPcieLinkDown
  | pcieHotReset
  | registerWrite (r : Requester) (addr : Nat) (bytes : Nat) (v : BitVec 64)
  | bar2Read (off : Nat) (words : Nat) (c : Ecc)
  | bar2Write (w : ApertureWrite)
  | spiTransaction (cmd : Word) (data : List Word)
  | doorbell (r : Requester) (sess : Fin 16) (tail : Word)
  | completionDoorbell (r : Requester) (sess : Fin 16) (head : Word)
  | hello (sess : Fin 16)
  | sessionOpenPhase0 (sess : Fin 16)
  | sessionOpenPhase1 (sess : Fin 16) (v : SigFact)
  | sessionClose (sess : Fin 16)
  | readReg (sess : Fin 16)
  | writeReg (sess : Fin 16)
  | modeSet (sess : Fin 16)
  | sessionIdleTimeout (sess : Fin 16)
  | challengeTimeout (sess : Fin 16)
  | pullReadCompletion (sess : Fin 16) (c : ReadCpl) (data : List Byte)
  | cplTimeout (sess : Fin 16)
  | hstCmdTimeout (sess : Fin 16) (cid : Nat)
  | sealJobComplete
  | attest (sess : Fin 16)
  | debugUnlockPhase0 (sess : Fin 16)
  | debugUnlockPhase1 (sess : Fin 16) (v : SigFact)
  | debugUnlockExpiry
  | relock (a : Access)
  | ownerSlotWrite (a : Access) (v : Word)
  | ownerSlotRevoke (a : Access) (v : Word)
  | fuseWriteDone (ok : Bool)
  | vendorRootRevoke (a : Access) (v : Word)
  | seaRngFail
  | softRepairDone
  | memSweep (sess : Fin 16)
  | memSweepDone (found : List Ecc)
  | fuseCommit (sess : Fin 16)
  | fuseBurnDone (ok : Bool)
  -- package, debug and test
  | railFault (mask : BitVec 8)
  | railRestored (mask : BitVec 8)
  | analogueResume
  | tjHigh (tj : Int)
  | tjNormal (tj : Int)
  | grantWrite (a : Access) (v : Word)
  | selfCheck
  | extest
  | idcode
  | samplePreload
  | clamp
  | highz
  | extestPulse
  | extestTrain
  | commission (slot : Fin 4) (hash : List Word)
  | bypass
  | powerOn
  | pwrgdRelease
  | comparatorRearm (i : Fin 64)
  | driveHalfPeriodEnd (n : Fin 16)
  | allIdleTimeout
  | diagnosticClear (fc : Fin 32) (cond : Fin 7)
  | entropyHealthRestored
  deriving DecidableEq, Repr

end Sys2Proof
end

