-- ==== Sys2Proof/Config.lean ====
section
/-! DEFINITION. What the spec leaves open and the model leaves free: opaque constants with no body, so that
no proof can see a value of them. Each is applied to the model's own counter of State or to the operands it
depends on (log entry 1). -/

namespace Sys2Proof

/-- DESIGN CHOICE (entry 1). A fresh random byte: nonces of SESSION_OPEN and DEBUG_UNLOCK are drawn through
SHAKE256 from the entropy source (R475, R477), so no value is stated. -/
opaque Config.freeByte : Nat → Byte

/-- DESIGN CHOICE (entry 1). A fresh 32-bit value the spec does not state. -/
opaque Config.freeWord : Nat → Word

/-- DESIGN CHOICE (entry 7). The filter of meanPathDelay (R78, RUL_DOMx_DELAY): the spec names a filtered value
and not the filter. Arguments: the filtered value so far and the new measurement, ns. -/
opaque Config.delayFilter : Int → Int → Int

/-- DESIGN CHOICE (entry 8). SHA3-256 (FIPS 202, R475) of a byte string, as 32 bytes; the algorithm is outside
the spec. -/
opaque Config.sha3 : List Byte → List Byte

/-- DESIGN CHOICE (entry 8). The 2,420 bytes of an ML-DSA-44 signature made by the device key (R475, R484);
signing is hedged, so each signature is a fresh value of the counter. -/
opaque Config.deviceSignature : Nat → List Byte → List Byte

/-- DESIGN CHOICE (entry 8). The 1,312 bytes of the device public key, derived from the fused seed (R478). -/
opaque Config.devicePublicKey : List Byte

/-- DESIGN CHOICE (entry 9). The COMTRADE file text of IEEE C37.111 (R389): the standard fixes it, not the spec. Arguments: version,
format, header items, a and b of each analogue channel, and the rows (R390): timestamp, analogue values (none: the standard's
missing-data value), binaries. -/
opaque Config.comtrade : Nat → Nat → List Int → List (Nat × Nat) → List (Nat × List (Option Int) × List Bool) → List Byte

/-- DESIGN CHOICE (entry 9). A byte of a layout that the spec names and does not give, such as a record's copy of its
channel table (R382). Arguments: owner, byte offset. -/
opaque Config.layoutByte : Nat → Nat → Byte

/-- DESIGN CHOICE (entry 9). Octets of a frame under a standard outside the spec: kind (0 SV, 1 GOOSE, 2 supervision, 3 PTP, each as
the module forms it; 4 SV as subscribed) and what its length follows: lengths of the names, whether it carries a VLAN tag, the
edition, the types of the members, NCHAN and NASDU. It times the line and bounds its load (R353, R360). -/
opaque Config.frameOctets : Nat → List Nat → Nat

/-- DESIGN CHOICE (entry 10). The result of a detector coefficient or an arithmetic corner that the spec does not
state, by the operands. -/
opaque Config.unstated : Nat → Int → Int → Int

/-- DESIGN CHOICE (entry 13). The number by which a log record shows a cause, a failed check, an action or a source
that the spec names in words only (R548). Arguments: event code, place in the order in which the rule names them. -/
opaque Config.causeCode : Nat → Nat → Nat

/-- DESIGN CHOICE (entry 65). Offset in configuration space of a capability (R445): 0 PCI Express, 1 MSI-X, 2 Advanced Error Reporting. -/
opaque Config.capability : Nat → Nat

/-- DESIGN CHOICE (entry 65). The bits of a word of configuration space that no row of R445 gives. -/
opaque Config.endpointWord : Nat → Nat

/-- DESIGN CHOICE (entry 48). Whose a word of an SRAM region is: the spec names owners and gives no layout. For region 0 the
key of a settings word (a BAR0 address, or 2^24 + 128 c + w), for others the number of the task, context, port, publication,
record or ring entry. Arguments: region, byte offset. -/
opaque Config.memOwner : Nat → Nat → Nat

/-- DESIGN CHOICE (entry 66). Address in SRAM at which a region begins, for its repair banks (R493): the spec gives sizes only. -/
opaque Config.sramBase : Nat → Nat

/-- DESIGN CHOICE (entry 66). What a code makes of more wrong bits than R489 states, modulo 3: 0 finds nothing, 1 takes it for a correctable
error, 2 finds it uncorrectable. Arguments: region, byte offset, bits. -/
opaque Config.codeBeyond : Nat → Nat → Nat → Nat

end Sys2Proof
end

