-- ==== Sys2Proof/Machine/State.lean ====
section
/-! DEFINITION. The state of the block as plain data: the register file, the state behind the registers unit by unit,
and the queue of waiting commands. Indexed things are sparse tables in one canonical form (log entry 6): keys
strictly rising, no entry equal to the default, which an unlisted key reads as. -/

namespace Sys2Proof.Machine

/-- A sparse table: pairs of key and value, keys strictly rising, no default value listed. -/
abbrev Tab (α : Type) := List (Nat × α)

/-- A field of a register: BAR0 address, lowest bit, width. -/
structure Fld where
  addr : Nat
  lo : Nat
  width : Nat
  deriving DecidableEq, Repr

/-- A row of the register map (R13 to R15). -/
structure RegRow where
  base : Nat
  dims : List (Nat × Nat)
  rw : Nat
  rwp : Nat
  w1cBits : Nat
  w1cFields : List (Nat × Nat)
  loaded : Nat
  reset : Nat
  deriving DecidableEq, Repr

/-- An item of a log payload (R548): one 32-bit or one 64-bit quantity. -/
inductive Item
  | w (v : Nat)
  | q (v : Nat)
  deriving DecidableEq, Repr

/-- A Script log record (R363): header fields and payload in 32-bit words. -/
structure LogRec where
  seq : Nat
  len : Nat
  code : Nat
  sev : Nat
  flags : Nat
  epoch : Nat
  inst : Nat
  ltc : Nat
  stamp : Nat
  payload : List Nat
  deriving DecidableEq, Repr, Inhabited

/-- An event of the Script log: code and severity (R363). -/
structure Event where
  code : Nat
  sev : Nat
  deriving DecidableEq, Repr

/-! ### Ruling unit (spec/02) -/

/-- A two-step Sync that waits for its Follow_Up (R61, R67): sequenceId, port, ingress stamp on the copy in ns, the
correctionField in 2^-16 ns. -/
structure SyncWait where
  seq : Nat
  port : Nat
  t2 : Int
  corr : Int
  deriving DecidableEq, Repr, Inhabited

/-- The announce set of one port (R66): data set, LTC of reception, logAnnounceInterval, grandmasterTimeInaccuracy of its TLV
(R55). -/
structure AnnEntry where
  port : Nat
  ds : Announce
  ltc : Nat
  logInt : Int
  inacc : Option Nat
  deriving DecidableEq, Repr

/-- The hold of SUSPECT (R78): LTC at which it ends, sum and number of o_new, whether the other domain was usable at
every Sync so far. -/
structure Suspect where
  ends : Nat
  sum : Int
  n : Nat
  otherOk : Bool
  deriving DecidableEq, Repr, Inhabited

/-- Entry into HOLDOVER (R81): e0 in 2^-16 ns, LTC of entry, lock flag set for the hour before. -/
structure Holdover where
  e0 : Int
  ltc : Nat
  long : Bool
  deriving DecidableEq, Repr, Inhabited

/-- A domain and its copy (R65 to R83). Frequencies are in 2^-28 ppb, offsets in 2^-16 ns, the copy in units u of
2^-28 * 10^-9 ns. -/
structure DomState where
  copy : Int
  freq : Int
  integ : Int
  /-- offsets of the last 16 Syncs, newest first (R55) -/
  offs : List Int
  good : Nat
  bad : Nat
  logInt : Int
  lastSync : Nat
  gotSync : Bool
  wait : Option SyncWait
  anns : List AnnEntry
  /-- ports left out of the selection after a missing Sync (R66) -/
  barred : List Nat
  port : Option Nat
  gmInacc : Nat
  susp : Option Suspect
  /-- filtered delay before the run of far measurements, and before the last step detected (R78, R80) -/
  preStep : Int
  prevDelay : Int
  dstep : Nat
  agree : Nat
  hold : Option Holdover
  /-- spells in TRACKING, newest first: LTC length and correction in force (R81) -/
  hist : List (Nat × Int)
  since : Nat
  lockSince : Option Nat
  usableSince : Option Nat
  grant : Option Nat
  haLast : Nat
  deriving DecidableEq, Repr, Inhabited

/-- PTP state of a port (R61, R62): last measured and filtered meanPathDelay in 2^-16 ns, next sequenceId, LTC of the last
Pdelay_Req queued, outstanding Pdelay_Req (sequenceId, LTC t1), the two-step answer that waits for its follow-up (LTC t4, t2 in
ns, correctionField), residences of two-step Syncs awaiting their Follow_Up (R63): domain, sequenceId, residence in 2^-16 ns. -/
structure PtpPort where
  delay : Option Int
  filt : Int
  seq : Nat
  sentAt : Option Nat
  out : Option (Nat × Nat)
  resp : Option (Nat × Int × Int)
  resid : List (Nat × Nat × Int)
  deriving DecidableEq, Repr, Inhabited

/-- A received PTP message with its ingress stamps (R62): port, LTC, the copies of A and B in ns. -/
structure PtpRx where
  port : Nat
  ltc : Nat
  copyA : Int
  copyB : Int
  msg : PtpMsg
  deriving DecidableEq, Repr

/-- Time (R50 to R60, R69 to R75, R84, R85). DTC is in units u. -/
structure Clock where
  ltc : Nat
  dtc : Int
  epoch : Nat
  dtcSet : Bool
  /-- persistence hold (R72): Syncs left -/
  hold : Option Nat
  /-- a backward Δ is being slewed after STEP_PENDING (R73) -/
  stepPend : Bool
  /-- LTC since which TQ has been 3, and whether the copy error passed 50 us meanwhile (R74) -/
  tq3 : Option Nat
  tq3Err : Bool
  /-- windows of the 1 ms grid of LTC that have ended (R28) -/
  paceK : Nat
  /-- next sample tick, in 1/96,000 s of DTC (R60); `gridOff` while the grid is paused (R75) -/
  tick : Nat
  gridOff : Bool
  /-- DTC right after the last step, and right before it, in u (R75) -/
  lastStep : Option Int
  stepFrom : Int
  refLost : Option Nat
  /-- changes of TQ and steps of DTC, newest first: DTC epoch, DTC in u at the end and the TQ until then (R37, R54) -/
  tqHist : List (Nat × Int × Nat)
  /-- the last switch of domain left a Δ of its own (R69, R71) -/
  bySwitch : Bool
  ppsOut : Bool
  ppsSec : Nat
  ppsRise : Nat
  /-- last accepted IRIG-B second in TAI and its LTC, and the last frame received likewise (R84) -/
  irig : Option (Int × Nat)
  irigLast : Option (Int × Nat)
  /-- shadow words by requester and register (R57, R58) -/
  shadow : Tab Nat
  deriving DecidableEq, Repr, Inhabited

/-- The Ruling unit. -/
structure Rul where
  clk : Clock
  dom : Tab DomState
  ptp : Tab PtpPort
  ptpIn : List PtpRx
  deriving DecidableEq, Repr, Inhabited

/-! ### Script log (spec/11) -/

/-- A page of the log or of the margin (R366): descriptor fields and records in commit order, and whether the padding mark 0xFFFF
stands behind them (R367). STATE: 0 free, 1 open, 2 closed, 3 retired. -/
structure Page where
  pseq : Nat
  first : Nat
  last : Nat
  used : Nat
  maxSev : Nat
  state : Nat
  recs : List LogRec
  pad : Bool
  deriving DecidableEq, Repr, Inhabited

/-- A token bucket as its deficit, in 10^-9 tokens, at an LTC (R370): 0 is a full bucket. -/
structure Bucket where
  deficit : Nat
  ltc : Nat
  deriving DecidableEq, Repr, Inhabited

/-- A suppression episode of a code (R370): number and LTC of first and last suppression since the last summary,
highest SEV among them, LTC at which the episode began or was last summarised, LTC of the last suppression. -/
structure Supp where
  n : Nat
  first : Nat
  last : Nat
  sev : Nat
  mark : Nat
  lastAt : Nat
  deriving DecidableEq, Repr, Inhabited

/-- The Script log. -/
structure Scr where
  /-- LTC of the last commit (R524) -/
  commitAt : Option Nat
  /-- records offered by the sources and not yet checked (R369), oldest first -/
  offers : List LogRec
  intake : List LogRec
  pages : Tab Page
  openPage : Option Nat
  nextPseq : Nat
  margin : Tab Page
  /-- the margin page being written, 16 when the margin is full -/
  marginAt : Nat
  holding : List LogRec
  /-- session that froze the log and LTC at which the freeze ends (R373) -/
  freeze : Option (Nat × Nat)
  buckets : Tab Bucket
  supp : Tab (Option Supp)
  lossPend : Bool
  /-- records dropped in the present freeze (R374) -/
  frzDrops : Nat
  deriving DecidableEq, Repr, Inhabited

/-! ### Host interfaces and Inkwell (spec/14) -/

/-- A read request of a pull that is outstanding (R465): offset in the pull, bytes asked for, bytes that have come, LTC at which it was
issued last. -/
structure PullRead where
  off : Nat
  len : Nat
  got : Nat
  at' : Nat
  deriving DecidableEq, Repr, Inhabited

/-- A command taken from a session's queue (R460 to R464): its 64 bytes, the LTC at which its deadline ends, the head
after it was taken, retries made, whether it has started, whether its pull is still to come, bytes of it that reads have asked for, and
the reads outstanding, in the order of their offsets (R465). -/
structure Cmd where
  bytes : List Nat
  deadline : Nat
  sqHead : Nat
  tries : Nat
  started : Bool
  pull : Bool
  asked : Nat
  reads : List PullRead
  deriving DecidableEq, Repr, Inhabited

/-- A session slot behind HST_SESSn_STAT (R456 to R463). -/
structure Session where
  /-- the interface that rang the first doorbell: 0 PCIe, 1 SPI -/
  owner : Option Nat
  cmds : List Cmd
  /-- completions posted, modulo 128 -/
  cqTail : Nat
  challengeAt : Option Nat
  cred : Nat
  level : Nat
  fails : List Nat
  lastDb : Nat
  dbErr : Bool
  unlockNonce : Option Nat
  deriving DecidableEq, Repr, Inhabited

/-- A vector of the MSI-X table (R455): masked or not, messages sent, and its pending bit (R445). -/
structure Msix where
  addr : Nat
  data : Nat
  unmasked : Bool
  sent : Nat
  pend : Bool
  deriving DecidableEq, Repr, Inhabited

/-- What the endpoint's configuration space holds of the table of R445: base addresses, max payload and max read request size as PCI
Express codes them, function mask of MSI-X, error status of Advanced Error Reporting. -/
structure Endpoint where
  bar0 : Nat
  bar2 : Nat
  mps : Nat
  mrrs : Nat
  msixMask : Bool
  aer : Nat
  deriving DecidableEq, Repr, Inhabited

/-- The function after a reset: max read request size 512 bytes (PRESUMED, log entry 65). -/
def Endpoint.reset : Endpoint := { (default : Endpoint) with mrrs := 2 }

/-- The host interfaces. -/
structure Hst where
  perstN : Bool
  sess : Tab Session
  inkwell : Tab Byte
  dram : Tab Byte
  msix : Tab Msix
  /-- entries of the host frame ring written so far -/
  frameSeq : Nat
  /-- session whose turn it is to issue the next read request of a pull (R465) -/
  readTurn : Nat
  spiRefused : Bool
  badAcc : Bool
  directRej : Bool
  /-- a failed pull has been logged and none has gone well since (R474) -/
  pullErr : Bool
  cplValue : Nat
  ep : Endpoint
  haExport : Bool
  haAttest : Bool
  haField : Bool
  /-- what the last read of a snapshot or low word returned (R57, R58), what the last SPI transaction returned on HSPI_MISO, and
  the last BAR2 read with its poison mark -/
  rdOut : List Word
  spiOut : List Word
  bar2Out : List Word
  bar2Poison : Bool
  deriving DecidableEq, Repr, Inhabited

/-! ### Analogue front end (spec/03) -/

/-- A conversion as the detectors and lanes see it: index m = 64 * tick + j, code, SET, OVR. -/
structure Conv where
  m : Nat
  code : Int
  set : Bool
  ovr : Bool
  deriving DecidableEq, Repr, Inhabited

/-- A stream window of 64 conversions (R105): tick, input, codes newest first with SET and OVR, DTC epoch, word 1 of the entry in
force at its last conversion (R97), and whether it is one of the results to be marked SET (R103). -/
structure Window where
  tick : Nat
  input : Nat
  codes : List Conv
  epoch : Nat
  w1 : Nat
  set : Bool
  deriving DecidableEq, Repr, Inhabited

/-- A converter (R89 to R106). -/
structure CvState where
  /-- mode in force: 0 SEQ, 1 STREAM (R90) -/
  mode : Nat
  /-- a SEQ pass is running, the tick that started it -/
  busy : Bool
  tick : Nat
  entry : Nat
  done : Nat
  acc : Int
  ovr : Bool
  /-- an AVG write cut the result in progress (R104) -/
  avgCut : Bool
  /-- settings of each entry's previous result: word 0 and the filter corners of the four inputs; index 16 is STREAM mode -/
  prev : Tab (Option (Nat × Nat))
  /-- the two words of the entry in force for the running conversion (R97) -/
  w0 : Nat
  w1 : Nat
  /-- start of the pass and time since then, in AFE periods; first hold of the present result -/
  start : Nat
  per : Nat
  hold0 : Nat
  /-- results still to be marked SET of each entry -/
  setLeft : Tab Nat
  fresh : Bool
  reload : Bool
  /-- an urgent conversion of an input; the word of the entry whose range it takes -/
  urg : Option Nat
  urgW : Nat
  urgDone : Bool
  win : Option Window
  /-- full windows that wait for their close -/
  full : List Window
  /-- results of DTYPE 2 of the ring block being gathered, newest first: code, SET, OVR; its first hold and the DTC epoch of it -/
  seqBlk : List (Int × Bool × Bool)
  blkHold : Nat
  blkEpoch : Nat
  /-- a TICK_MISS episode is in progress -/
  miss : Bool
  /-- the rails cut the window of the next tick (R517) -/
  cut : Bool
  hist : List Conv
  /-- DTC epoch of the pass, or of the window and of `hist` (R75) -/
  epoch : Nat
  deriving DecidableEq, Repr, Inhabited

/-- A value of the detector at a conversion (R112). -/
structure WdPoint where
  m : Nat
  x : Int
  y : Int
  set : Bool
  ovr : Bool
  deriving DecidableEq, Repr, Inhabited

/-- A wavefront event (R116). -/
structure WdEvent where
  wd : Nat
  stamp : Nat
  ns : Nat
  peak : Int
  ampl : Int
  comp : Int
  flags : Nat
  epoch : Nat
  evseq : Nat
  k : Nat
  deriving DecidableEq, Repr, Inhabited

/-- A wavefront detector (R111 to R115). `held`: events emitted that wait for a credit, oldest first (R19, R21); `epoch`: DTC epoch
of the points and of the conversion numbers (R75). -/
structure WdState where
  /-- LTC at which the last event was emitted (R524) -/
  evAt : Option Nat
  pts : List WdPoint
  cond : Bool
  det : Option Nat
  deadTo : Nat
  evseq : Nat
  srcLogged : Bool
  held : List WdEvent
  epoch : Nat
  deriving DecidableEq, Repr, Inhabited

/-- One channel's result delivered to local stream assembly (R107): stream 0-31, tick, channel, value, quality byte, DTC epoch. -/
structure AsmItem where
  stream : Nat
  tick : Nat
  chan : Nat
  val : Int
  qual : Nat
  epoch : Nat
  deriving DecidableEq, Repr, Inhabited

/-- The front end. -/
structure Afe where
  cv : Tab CvState
  wd : Tab WdState
  asm : List AsmItem
  /-- LTC of the last assembly of each local stream (R524) -/
  asmAt : Tab (Option Nat)
  /-- results of each converter that local stream assembly has still to take (R21) -/
  convQ : Tab (List AsmItem)
  /-- the local streams' map as latched at the last ticks: DTC epoch, tick, stream and channel of each feed (R107) -/
  map : List (Nat × Nat × List (Nat × Nat))
  /-- comparators that have crossed and not re-armed: bit i for AIN(i) -/
  crossed : Nat
  /-- the analogue rails stop the front end (R517) -/
  stopped : Bool
  deriving DecidableEq, Repr, Inhabited

/-! ### Ports and process-bus ingress (spec/04, spec/10) -/

/-- A published GOOSE message (R353 to R357): header and names, edition, numbers, timeAllowedToLive in ms, test, ndsCom and
simulation, t as DTC seconds minus TAI_UTC and ns, its quality octet, and the member words. -/
structure GooseTx where
  gp : Nat
  hdr : GpDecl
  edition2 : Bool
  ndsCom : Bool
  sim : Bool
  stNum : Nat
  sqNum : Nat
  tal : Nat
  test : Bool
  tSec : Nat
  tNs : Nat
  tQual : Nat
  members : List Nat
  deriving DecidableEq, Repr

/-- A published SV frame (R358, R359). -/
structure SvTx where
  sp : Nat
  hdr : SpDecl
  smpCnt : Nat
  smpSynch : Nat
  data : List (Int × Nat)
  deriving DecidableEq, Repr

/-- What a port sends: a forwarded frame (with an inverted FCS or not, R64) or one of the module's own. -/
inductive TxBody
  | fwd (f : Frame) (badFcs : Bool)
  | ptp (m : PtpMsg)
  | sup
  | goose (g : GooseTx)
  | sv (v : SvTx)
  deriving DecidableEq, Repr

/-- A frame in an egress queue: class of R351, length, SeqNr of its trailer or tag, ingress port and LTC of a forwarded
frame (R63). -/
structure TxItem where
  prio : Nat
  len : Nat
  body : TxBody
  seq : Option Nat
  inPort : Nat
  inLtc : Nat
  deriving DecidableEq, Repr

/-- A port, 0-23 PB and 24-27 SB: bytes in the ingress buffer, frames waiting to be forwarded with their LTC, egress
queue, frame in transmission with the LTC at which the line is free again, WRONG_LAN episode. -/
structure PortState where
  inUsed : Nat
  fwd : List (Frame × Nat)
  egress : List TxItem
  tx : Option TxItem
  txFree : Nat
  wrongLan : Bool
  deriving DecidableEq, Repr, Inhabited

/-- A redundant pair, 0-11 process and 12-13 station: duplicate table (source MAC, SeqNr, LTC, newest first), next
SeqNr, LTC of the last supervision frame. -/
structure PairState where
  dup : List (Nat × Nat × Nat)
  seq : Nat
  supAt : Nat
  deriving DecidableEq, Repr, Inhabited

/-- A sample set (R33): instant, values, quality bytes, compact stamp with the TQ of the instant, epoch, and of a link
sample the far end's ASYM, local DTC (ns) at reception and AGE (R254, R339). -/
structure SampleSet where
  instant : Instant
  vals : List Int
  quals : List Nat
  stamp : Nat
  epoch : Nat
  asym : Bool
  rx : Nat
  age : Nat
  deriving DecidableEq, Repr, Inhabited

/-- A slot of a stream context (R24): the instant and the contexts that have still to start. -/
structure Slot where
  instant : Instant
  left : List Nat
  deriving DecidableEq, Repr, Inhabited

/-- A stream context behind its registers (R134 to R139, R24, R172). -/
structure ScState where
  /-- number of the last completed sample within the second, and its instant -/
  last : Option (Nat × Instant)
  ltcR : Nat
  /-- samples produced as missing since the last received one -/
  produced : Nat
  /-- latest instant that left the context, or the instant of entry into WAITING -/
  lastOut : Instant
  vals : List Int
  quals : List Nat
  /-- sets formed and not yet completed in the context (R38) -/
  out : List SampleSet
  /-- the stream ring, newest first (R172) -/
  ring : List SampleSet
  slots : List Slot
  format : Bool
  late : Bool
  deriving DecidableEq, Repr, Inhabited

/-- A classified SV frame that waits for decode: port, LTC and DTC (ns) of reception, length, context. -/
structure SvRx where
  port : Nat
  ltc : Nat
  dtcNs : Nat
  len : Nat
  sc : Nat
  pdu : SvPdu
  deriving DecidableEq, Repr

/-- A classified GOOSE frame that waits for decode. -/
structure GsRx where
  port : Nat
  ltc : Nat
  len : Nat
  gs : Nat
  msg : GooseMsg
  deriving DecidableEq, Repr

/-- The members of a GOOSE message as the signal space holds them: value and quality byte of each, and what their Quality members
contribute to that byte (R147). -/
structure GsImage where
  vals : List Nat
  quals : List Nat
  base : List Nat
  deriving DecidableEq, Repr, Inhabited

/-- A GOOSE subscription behind its registers (R145 to R151). -/
structure GsState where
  lastLtc : Nat
  tal : Nat
  /-- members of the last accepted message with what STALE did to them (R146) -/
  cur : GsImage
  /-- members as the global signal space holds them (R148) -/
  app : GsImage
  /-- what the next boundary applies, and whether a message is among it (R148) -/
  pend : Option GsImage
  pendMsg : Bool
  hostSeq : Nat
  deriving DecidableEq, Repr, Inhabited

/-- Ports and process-bus ingress. -/
structure Pbi where
  port : Tab PortState
  pair : Tab PairState
  /-- learnt source MAC, group, port and LTC, newest first (R127) -/
  learnt : List (Nat × Nat × Nat × Nat)
  sc : Tab ScState
  gs : Tab GsState
  svq : List SvRx
  gq : List GsRx
  hostOvf : Bool
  /-- SV frames decoded in the present 1 ms window (PBI_DEC_LOAD) -/
  decoded : Nat
  /-- Folio tables that no register shows (R132, R133, R143, R149, R350) -/
  svIds : List (Nat × Octets)
  gsDecls : List GsDecl
  gbits : List GbDecl
  pairMac : List Nat
  expect : List (Nat × Nat × Nat)
  /-- GOOSE bits GB00-GB63 as last formed (R149) -/
  gb : Nat
  /-- ports, as bits, whose auto-negotiation has completed, enabled or not (R119) -/
  anDone : Nat
  deriving DecidableEq, Repr, Inhabited

/-! ### Nib engines (spec/05 to spec/07) -/

/-- A released evaluation (R38): context, evaluated instant, LTC of queueing, wavefront event of a TWV context; `deliv`: it was
queued by the delivery of a stamp to a locked TWLOC (R247); DTC epoch of the instant. -/
structure Queued where
  ctx : Nat
  instant : Instant
  at' : Nat
  ev : Option WdEvent
  deliv : Bool
  epoch : Nat
  deriving DecidableEq, Repr, Inhabited

/-- One value of a binding: whether it exists (R172, R254), raw count or sum, value as binary32 bits, quality byte, epoch, instant,
TQ of its stamp; of a link sample also the far end's ASYM, local DTC (ns) at reception and AGE (R254). -/
structure Hist where
  ok : Bool
  raw : Int
  val : Nat
  qual : Nat
  epoch : Nat
  instant : Instant
  tq : Nat
  asym : Bool
  rx : Nat
  age : Nat
  deriving DecidableEq, Repr, Inhabited

/-- The running evaluation of an engine (R38, R56, R168). -/
structure Running where
  q : Queued
  /-- the newest value of each binding, or the window of a prefiltered one summed -/
  ins : List Hist
  /-- a binding was missing from its ring (R172) -/
  missed : Nat
  block : Bool
  /-- start sources of a BFP as they stood (R222) -/
  bfpStart : Bool
  start : Nat
  deriving DecidableEq, Repr, Inhabited

/-- A decision entry (R169): context, word, DTC ns of the instant that its hardware decision used, its stamp, TEST mark, and the
bits that rise in it against the word delivered before. -/
structure Decision where
  ctx : Nat
  word : Nat
  ns : Nat
  stamp : Nat
  test : Bool
  rise : Nat
  deriving DecidableEq, Repr, Inhabited

/-- An engine: queue, running evaluation, changes of the output logic fallen due (context and word, oldest first), LTC of its
last flit, time busy in the present window. -/
structure Engine where
  queue : List Queued
  run : Option Running
  due : List (Nat × Nat)
  lastFlit : Nat
  busyNs : Nat
  deriving DecidableEq, Repr, Inhabited

/-- An outstanding measurement record (R183): RSEQ, slot, LTC of issue, re-signals made, LTC at which its deadline expires, fixed at
the issue (R184). -/
structure MRec where
  rseq : Nat
  slot : Nat
  at' : Nat
  signals : Nat
  deadline : Nat
  deriving DecidableEq, Repr, Inhabited

/-- A remote stamp that TWLOC received (R246, R247): FLAGS, compact stamp, LTC of arrival. -/
structure TwStamp where
  flags : Nat
  stamp : Nat
  at' : Nat
  deriving DecidableEq, Repr, Inhabited

/-- A TWV context between evaluations. TWDET: event and LTC of a pending confirmation, LTC at which a held word
clears. TWLOC: the event that locked it, LTC at which the lock ends, whether a location was produced. -/
structure Wave where
  pend : Option (WdEvent × Nat)
  hold : Option Nat
  lock : Option (WdEvent × Nat)
  located : Bool
  deriving DecidableEq, Repr, Inhabited

/-- An element context (R156 to R188): service state 0 OUT_OF_SERVICE, 1 IN_SERVICE, 2 TEST, 3 HOST_ASSISTED. -/
structure NcState where
  svc : Nat
  hist : Tab (List Hist)
  /-- stored state of the element by slot: comparators, counts, timers, integrators (binary64 bits), memories -/
  est : Tab Int
  /-- hardware decision, DTC ns and stamp of its instant, word last delivered, applied word of HOST_ASSISTED, accepted word
  waiting with its RSEQ -/
  hw : Nat
  hwNs : Nat
  hwStamp : Nat
  delivered : Nat
  /-- DTC ns of the instant in the entry last delivered (R241) -/
  delivNs : Nat
  applied : Nat
  accept : Option Nat
  evals : Nat
  out : Option MRec
  /-- records resolved, by RSEQ: 0 by deadline, 1 answered, 2 cancelled -/
  resolved : List (Nat × Nat)
  /-- HA_LATE, FLT and ALIGN_MISS episodes in progress -/
  late : Bool
  fault : Bool
  missEp : Bool
  /-- remote stamps kept for TWLOC, oldest first (R247) -/
  tw : List TwStamp
  /-- TWDET and TWLOC between evaluations (R241 to R247) -/
  wave : Wave
  deriving DecidableEq, Repr, Inhabited

/-- The nib engines. `live` holds word w of the settings block of context c under 128 * c + w. -/
structure Nib where
  eng : Tab Engine
  nc : Tab NcState
  live : Tab Nat
  /-- remote stamps that a link has received for TWLOC contexts (R247): link, LINEID, stamp -/
  stamps : List (Nat × Nat × TwStamp)
  /-- decision flits on their way to Stroke, oldest first, by engine -/
  toStroke : List (Nat × List Decision)
  ctxHa : List Nat
  deriving DecidableEq, Repr, Inhabited

/-! ### Stroke (spec/08) -/

/-- A trip output behind its registers (R261 to R278). -/
structure SoState where
  /-- LTC of the assertion, and of the last release -/
  start : Nat
  released : Nat
  /-- a reset is remembered (R263) -/
  resetMem : Bool
  /-- LTC at which the running test pulse ends (R278) -/
  pulse : Option Nat
  /-- drive: 0 at rest, 1 SOnnP high, 2 SOnnN high; in the gap before that pin rises both are low; LTC at which the half period in
  progress began (R270) -/
  drive : Nat
  gap : Bool
  edge : Nat
  /-- LTC at which the counted feedback level began (R273) -/
  fbSince : Nat
  /-- the feedback has counted high in this assertion -/
  rose : Bool
  /-- no-rise and at-rest episodes in progress (R274) -/
  noRise : Bool
  atRest : Bool
  deriving DecidableEq, Repr, Inhabited

/-- The pending image of a publication or link (R280): values by slot, bits not yet sent, those among them behind which a later
change waits; DTC ns and TQ of the last matrix decision that changed the image, and of the last that is held back (R356). -/
structure PubImg where
  img : Nat
  dirty : Nat
  held : Nat
  at' : Nat
  tq : Nat
  heldAt : Nat
  heldTq : Nat
  deriving DecidableEq, Repr, Inhabited

/-- A publication request or command-bit update on its way (R281): values by slot, TEST mark, DTC ns of the decision, TQ, LTC at which it was sent. -/
structure PubReq where
  bits : Nat
  test : Bool
  ns : Nat
  tq : Nat
  at' : Nat
  deriving DecidableEq, Repr, Inhabited

/-- The Stroke unit. `vec` and `marks` are the 512 matrix inputs and their TEST marks (R258, R276), bit by bit; `fin` the field
inputs as passed over the logic-output queue (R260). -/
structure Stk where
  /-- LTC of the last matrix update (R524) -/
  updAt : Option Nat
  vec : Nat
  marks : Nat
  fin : Nat
  so : Tab SoState
  /-- logic-output flits (R260): code 0-511 a matrix input, 512 + c field input c; value; TEST mark -/
  logicQ : List (List (Nat × Bool × Bool))
  /-- flits that the signal space has formed and holds no credit for, oldest first (R19) -/
  logicHold : List (List (Nat × Bool × Bool))
  /-- received words of 16 command bits by link -/
  dlQ : Tab (List Nat)
  /-- source whose turn is next, 0-15 engines, 16 logic outputs, 17-20 links (R268) -/
  turn : Nat
  /-- LTC at which the updates that wait were sent, oldest first, by source (R532) -/
  sentAt : Tab (List Nat)
  /-- pending images and requests sent, 0-31 publications, 32-35 links -/
  pub : Tab PubImg
  pubOut : Tab (List PubReq)
  deriving DecidableEq, Repr, Inhabited

/-! ### Quill (spec/09) -/

/-- A timer slot (R298): START and EXP in ns of LTC, PT and ET in us. -/
structure QTm where
  run : Bool
  q : Bool
  inm : Bool
  fresh : Bool
  start : Nat
  exp : Nat
  pt : Nat
  et : Nat
  deriving DecidableEq, Repr, Inhabited

/-- A counter slot (R300), FRESH for each of its memories (R297). -/
structure QCt where
  cv : Int
  cum : Bool
  cdm : Bool
  freshU : Bool
  freshD : Bool
  deriving DecidableEq, Repr, Inhabited

/-- An edge slot (R301). -/
structure QEd where
  m : Bool
  fresh : Bool
  deriving DecidableEq, Repr, Inhabited

/-- A force entry (R312, R314): symbol ID, forced value, the value the program produced. -/
structure QForce where
  sym : Nat
  val : Word
  unforced : Word
  deriving DecidableEq, Repr, Inhabited

/-- A task behind its registers (R283 to R293, R319): release instant of its run (LTC ns, DTC epoch and stamp), program counter, working registers,
LR, bit stack and call stack (top first), cost units used; LTC of the next release; OVERRUN episode and wrapping count; a HOST
release that waits, release instant of the last image taken, SEQ last examined. -/
structure QRun where
  rel : Nat
  relEpoch : Nat
  relStamp : Nat
  pc : Nat
  w : Tab Word
  lr : Bool
  bits : List Bool
  calls : List Nat
  units : Nat
  next : Nat
  overEp : Bool
  overs : Nat
  due : Bool
  haAt : Nat
  deriving DecidableEq, Repr, Inhabited

/-- A QIL_SWITCH in progress (R309): session, head, MODE, LTC at which it was taken. -/
structure QSw where
  sess : Nat
  head : Nat
  mode : Nat
  at' : Nat
  deriving DecidableEq, Repr, Inhabited

/-- A QIL_LOAD in progress (R308). -/
structure QLoad where
  sess : Nat
  head : Nat
  img : QProg
  deriving DecidableEq, Repr, Inhabited

/-- The Quill engine and the part of the global signal space that it writes (R287): QB and field commands bit by bit, UG and PV
by index. Timers, counters and edges stand under their symbol IDs, retained variables at their data addresses. -/
structure Qil where
  /-- LTC of the last boundary action (R524) -/
  boundAt : Option Nat
  qb : Nat
  fcmd : Nat
  ug : Tab Word
  pv : Tab Word
  bank : Tab (Option QProg)
  data : Tab Word
  tm : Tab QTm
  ct : Tab QCt
  ed : Tab QEd
  force : Tab (Option QForce)
  /-- cleared forces whose program values return at the next boundary action (R313) -/
  restore : List (Nat × Word)
  run : Tab QRun
  sw : Option QSw
  load : Option QLoad
  /-- the retain directory (R317) -/
  retDir : List QRet
  /-- hash of the signal map of the Folio in force (R308) -/
  mapHash : Nat
  deriving DecidableEq, Repr, Inhabited


/-! ### Ductus links and GOOSE publication (spec/10) -/

/-- A message of a link's channel (R343): type, bytes, number once sent, LTC of first and last try, tries, due again. -/
structure LinkMsg where
  mtype : Nat
  data : List Nat
  seq : Nat
  first : Option Nat
  last : Nat
  tries : Nat
  due : Bool
  deriving DecidableEq, Repr, Inhabited

/-- A received frame that waits in the 4 KiB buffer of R23: frame, LTC, DTC (ns) and TQ at byte 0, and whether it is a command block
of C37.94. -/
structure LinkRx where
  f : LineFrame
  ltc : Nat
  dtcNs : Nat
  tq : Nat
  block : Bool
  deriving DecidableEq, Repr

/-- A character on a Ductus line (R325): a control character Kx.y, or a data character. -/
inductive LineChar
  | k (x y : Nat)
  | d (b : Byte)
  deriving DecidableEq, Repr

/-- A Ductus link behind its registers (R323 to R347). -/
structure DlState where
  rxSync : Bool
  los : Bool
  /-- versions and last FSEQ of the consecutive good frames in NEGOTIATE (R331) -/
  offers : List Nat
  offSeq : Nat
  /-- agreed version -/
  ver : Nat
  /-- LTC of the last good data frame, and whether supervision runs (R332) -/
  lastGood : Nat
  superv : Bool
  /-- episodes: DUC_ID_MISMATCH, DUC_LOOP, DUC_CMD_MISS, DUC_TEST_RX -/
  idEp : Bool
  loopEp : Bool
  missEp : Bool
  testEp : Bool
  /-- FSEQ of the last good data frame of this RUN; last received word; the last good frame carried TEST; the bits stand at their
  loss values until a good frame brings them back (R335) -/
  fseqRx : Option Nat
  raw : Nat
  rxTest : Bool
  lossy : Bool
  buf : List LinkRx
  /-- transmitter: FSEQ, CMD and the two before it, TEST mark, unsent sets of TXSC -/
  fseqTx : Nat
  cmd : Nat
  p1 : Nat
  p2 : Nat
  testTx : Bool
  unsent : Nat
  /-- TX_LTC of the last good frame received and local LTC at its byte 0 (R340) -/
  echo : Option (Nat × Nat)
  /-- accepted half values and the last half values of any kind, newest first, exclusions in a row, last D (R341) -/
  halves : List Nat
  recent : List Nat
  excl : Nat
  oldD : Option Nat
  /-- values of M gathered (R342) -/
  ms : List Int
  outQ : List LinkMsg
  nextSeq : Nat
  mack : Nat
  checkAt : Nat
  checkBad : Nat
  /-- bytes of the frame or of the timeslots last sent, the yellow bit with them; DTC epoch and number of the tick after the one
  that the last frame was for (R325); LTC at which the last block started (R347) -/
  sent : List Byte
  /-- characters of the line from the start of the last frame to the idle that follows it (R325) -/
  line : List LineChar
  yellow : Bool
  /-- LTC of the last frame start (R524) -/
  startAt : Option Nat
  tickTx : Option (Nat × Nat)
  blockAt : Option Nat
  deriving DecidableEq, Repr, Inhabited

/-- A GOOSE publication behind its registers (R354 to R357): slot values, TEST mark, t and quality of the state in force;
a change of publication values that waits (DTC ns, TQ), the pending image by PV index, its values not yet published, the time of the
last change held back behind them, and the values last published; LTC of the next repetition and its number; running. -/
structure GpState where
  bits : Nat
  test : Bool
  ns : Nat
  tq : Nat
  pv : Option (Nat × Nat)
  pvImg : Tab Word
  pvDirty : List Nat
  pvHeld : Option (Nat × Nat)
  pvSent : Tab Word
  next : Nat
  rep : Nat
  live : Bool
  deriving DecidableEq, Repr, Inhabited

/-- Links and publications. -/
structure Duc where
  dl : Tab DlState
  gp : Tab GpState
  /-- what the Folio supplies of the publications (R353, R358) -/
  gpDecls : List GpDecl
  spDecls : List SpDecl
  /-- first 16 bytes of the shared-settings hash of each link (R345), and the link-fed stream contexts (R338) -/
  hash : List (List Nat)
  fed : List Nat
  deriving DecidableEq, Repr, Inhabited

/-! ### Vellum (spec/11) and the TW pre-trigger ring (spec/03 R110) -/

/-- A block of a TW lane (R110): hold of its first conversion in 1/98,304,000 s of DTC and the DTC epoch of it, its place in the lane,
stamp, FLAGS, FIRST_OVR, INPUT, BLKSEQ, codes oldest first; none in a record's row for a block that was overwritten (R381). -/
structure TwBlock where
  hold : Nat
  epoch : Nat
  slot : Nat
  stamp : Nat
  flags : Nat
  firstOvr : Nat
  input : Nat
  seq : Nat
  codes : List Int
  deriving DecidableEq, Repr, Inhabited

/-- A row of a main group (R382): instant, epoch, counts, quality bytes, binaries. -/
structure VelRow where
  instant : Instant
  epoch : Nat
  stamp : Nat
  vals : List Int
  quals : List Nat
  bins : List Bool
  deriving DecidableEq, Repr, Inhabited

/-- A block of a record (R382): index in the record area, none where no block could be had (R384); group, index of its
first row, rows, lost or found unreadable. -/
structure VelBlock where
  index : Option Nat
  group : Nat
  first : Nat
  rows : List VelRow
  tw : List TwBlock
  bad : Bool
  deriving DecidableEq, Repr, Inhabited

/-- A record (R383): its descriptor, the end of its main group, the window and lanes of its TW group (DTC ns) and the blocks
copied. STATE 0 open, 1 closed. -/
structure VelRec where
  id : Nat
  profile : Nat
  state : Nat
  flags : Nat
  start : Nat
  trig : Nat
  fin : Nat
  epoch : Nat
  ntrig : Nat
  trigSrc : Nat
  mainRows : Nat
  twRows : Nat
  stepRow : Nat
  startNs : Nat
  endNs : Nat
  twFrom : Nat
  twTo : Nat
  /-- DTC epoch of the first trigger -/
  twEpoch : Nat
  lanes : Nat
  /-- instants between its main rows -/
  step : Nat
  head : Option Nat
  headBad : Bool
  blocks : List VelBlock
  tab : VelTab
  deriving DecidableEq, Repr, Inhabited

/-- A profile between records (R377, R380): pre-trigger ring, newest first; instant of the last row assembled; LTC at which
its last record closed; since when rows have been gathered. -/
structure VelProf where
  ring : List VelRow
  last : Option Instant
  closedAt : Option Nat
  deriving DecidableEq, Repr, Inhabited

/-- An export in progress (R389): session, head of the command, record, group, version, format, output offset. -/
structure VelExport where
  sess : Nat
  head : Nat
  id : Nat
  group : Nat
  version : Nat
  format : Nat
  off : Nat
  maxb : Nat
  deriving DecidableEq, Repr, Inhabited

/-- A write burst (R386): record, group, the record's rows of that group before it, and the LTC at which it was issued. -/
structure VelBurst where
  id : Nat
  group : Nat
  row : Nat
  at' : Option Nat
  deriving DecidableEq, Repr, Inhabited

/-- Vellum. -/
structure Vel where
  recs : List VelRec
  nextId : Nat
  prof : Tab VelProf
  tabs : Tab VelTab
  /-- TW lanes by converter, newest block first, the next block number of each and the place of that block -/
  lanes : Tab (List TwBlock)
  blkSeq : Tab Nat
  twSlot : Tab Nat
  /-- write bursts of the open records from staging to the record area, oldest first (R21, R386): the first 128 are in flight -/
  bursts : List VelBurst
  exporting : Option VelExport
  deriving DecidableEq, Repr, Inhabited

/-! ### Memory (spec/16) -/

/-- An entry of a repeat tracker (R494). -/
structure Track where
  row : Nat
  count : Nat
  first : Nat
  last : Nat
  deriving DecidableEq, Repr, Inhabited

/-- A soft repair in progress (R495). -/
structure Repair where
  dram : Bool
  bank : Nat
  row : Nat
  spare : Nat
  deriving DecidableEq, Repr, Inhabited

/-- A fuse commit (R498): session, head of the command, indices of MEM_REPk still to burn. -/
structure FuseJob where
  sess : Nat
  head : Nat
  left : List Nat
  deriving DecidableEq, Repr, Inhabited

/-- Memory control. Repair banks are numbered 0-95 in SRAM and 96 upward in LPDDR4X. -/
structure Mem where
  track : Tab (List Track)
  repairing : List Repair
  exhausted : List (Nat × Nat)
  /-- spares of the factory repairs, a mask by repair bank (R497) -/
  factory : Tab Nat
  /-- the factory repair map in fuse, in the same form, which step 1 of a cold start loads (R426) -/
  fuseMap : Tab Nat
  /-- words with wrong bits that owners without a command of their own will read, next first (R501; log entry 66) -/
  errors : List Ecc
  sweep : Option (Nat × Nat × Nat)
  fuse : Option FuseJob
  /-- Stroke outputs, links and converters taken out of service (R500), as masks -/
  oosSo : Nat
  oosDl : Nat
  oosCv : Nat
  deriving DecidableEq, Repr, Inhabited
/-! ### Field channels (spec/12) -/

/-- The field side of a channel, with what the logic side has still to take from it (R394 to R413): configuration word in force
and whether it has one; counted level and LTC at which it was first seen; last command; LTC of the last good keep-alive; safe
state in force, its value, and whether the watchdog brought it; protective trip, latch, an off-command seen since; LTC of the last
trip and trips in a row; live conditions; conditions detected, trips, re-enables and a latching not yet reported; a mode change in
progress and the LTC until which its input is INVALID; LTC of the last good status frame. Times are on the
present count of LTC, below 0 where it has restarted since. -/
structure FcState where
  cfg : Nat
  cfgd : Bool
  lvl : Bool
  seenAt : Int
  cmd : Bool
  ka : Int
  safe : Bool
  safeVal : Bool
  wdExp : Bool
  trip : Bool
  latched : Bool
  offSeen : Bool
  tripAt : Int
  cons : Nat
  live : Nat
  newDiag : Nat
  newTrips : Nat
  newRetries : Nat
  newLatch : Bool
  opening : Bool
  mute : Option Int
  stat : Int
  deriving DecidableEq, Repr, Inhabited

/-- The field side of a group (R413 to R416): state as FIO_Gg_STAT codes it, L+ in mV, configured, passed through NOSUPPLY
since its last configuration. -/
structure GrpState where
  state : Nat
  mv : Nat
  conf : Bool
  passed : Bool
  deriving DecidableEq, Repr, Inhabited

/-- Field channels. -/
structure Fio where
  fc : Tab FcState
  grp : Tab GrpState
  deriving DecidableEq, Repr, Inhabited


/-! ### Modes, start, Folio, live settings (spec/01 R46, spec/13) -/

/-- A mode change pending under R46: function and instance of R469, host-assisted or not, the session and head of the
command to complete. -/
structure ModePend where
  fn : Nat
  inst : Nat
  ha : Bool
  sess : Nat
  sqHead : Nat
  deriving DecidableEq, Repr, Inhabited

/-- The supervisor (spec/13). Staged and committing words are held by key: the BAR0 address of a register, or
2^24 + 128 * c + w for word w of the settings block of context c. -/
structure Sys where
  modePend : List ModePend
  staged : Tab (Option Nat)
  /-- committed words whose object has not switched yet (R440) -/
  committing : Tab (Option Nat)
  /-- the EPOCH_COMMIT to complete: session, head; and its LTC -/
  commit : Option (Nat × Nat × Nat)
  /-- level of RESET_N; V3P3 is below its limit; RESET_N has been released since V3P3 rose (R516) -/
  resetN : Bool
  v3p3Low : Bool
  released : Bool
  /-- trigger of the start in progress or last made, on the present count of LTC; below 0 where LTC has restarted since -/
  trigAt : Int
  /-- attempt 0-3 of the present order, and whether bank B comes first (R429) -/
  attempt : Nat
  bFirst : Bool
  /-- failed attempts not yet logged: attempt from 1, bank, CAUSE (R430) -/
  fails : List (Nat × Nat × Nat)
  /-- LTC at which IN_SERVICE was last entered, and whether a warm start led there -/
  svcAt : Option (Nat × Bool)
  /-- an epoch has been committed since the last start (R443) -/
  committed : Bool
  testEnd : Nat
  /-- a start that a command asked for: LTC at which it begins, cold, bank B first (R435) -/
  startDue : Option (Nat × Bool × Bool)
  /-- bank and image being programmed (R436) -/
  flash : Option (Nat × FolioImage)
  /-- GO has been written and the check of the image is still to come; the image whose signatures are being verified -/
  flashGo : Bool
  flashImg : Option FolioImage
  /-- the external flash (R418): image in bank A (0, from offset 0) and in bank B (1, from 0x0100_0000); none: erased, or what an end of
  programming has left there -/
  nor : Tab (Option FolioImage)
  /-- SHA3-256 anchors of the vendor roots in ROM, as little-endian numbers (R422) -/
  anchors : Tab Nat
  /-- an attempt that a brown-out has ended is followed once VCORE has been within its limits for 1 ms (R429) -/
  brown : Bool
  /-- host credentials of the Folio in force (R483), and its functions that start host-assisted -/
  creds : List Cred
  funcHa : List (Nat × Nat)
  deriving DecidableEq, Repr, Inhabited
/-! ### Seal unit (spec/15) -/

/-- A job of the signature engine (R476): 0 SESSION_OPEN answer, 1 DEBUG_UNLOCK answer, 2 ATTEST, 3 Quill image, 4 owner and 5 vendor
signature of a Folio image for flash (R436); session,
head of the command, its entry, and what the check of the signature finds. -/
structure SealJob where
  kind : Nat
  sess : Nat
  head : Nat
  cmd : Cmd
  ok : Bool
  deriving DecidableEq, Repr, Inhabited

/-- A fuse write of the Seal unit: slot or root; 0 owner hash written, 1 owner slot revoked, 2 vendor root revoked; over JTAG;
the hash to write. -/
structure SealFuse where
  slot : Nat
  op : Nat
  jtag : Bool
  hash : List Word
  deriving DecidableEq, Repr, Inhabited

/-- The Seal unit behind its registers. The last six describe the loaded image; the sealed hash stands in the always-on domain
(R426). -/
structure Sea where
  /-- jobs of the signature engine, oldest first -/
  jobs : List SealJob
  report : List Byte
  rseq : Nat
  unlockEnd : Option Nat
  fuse : Option SealFuse
  sealedHash : Nat
  keyIdx : Nat
  vkey : Nat
  fwVer : Nat
  fwHash : Nat
  folioLoaded : Bool
  /-- OWNERPK of the loaded Folio and VENDORPK of its firmware (R486) -/
  ownerPk : Str
  vendorPk : Str
  /-- jobs of the hash engine, oldest first (R476): 0 a Quill image, 1 a Folio image -/
  hashJobs : List Nat
  deriving DecidableEq, Repr, Inhabited

/-! ### Package, debug and test (spec/17, spec/18) -/

/-- Rails and temperature (R429, R515, R517, R519): since when the rails of PWRGD, the analogue rails, and VCORE have been within limits,
on the present count of LTC, the level of PWRGD, and TJ_HIGH logged without TJ_NORMAL since. -/
structure Pkg where
  goodAt : Option Int
  anaAt : Option Int
  vcoreAt : Option Int
  pwrgd : Bool
  tjHigh : Bool
  deriving DecidableEq, Repr, Inhabited

/-- What a TEST land remembers: the level of its signal when last looked at, and the LTC of its last rise (R525). -/
structure Land where
  high : Bool
  rise : Option Nat
  deriving DecidableEq, Repr, Inhabited

/-- Test port and HEALTH (R525, R528 to R533): instruction in force by code, none in Test-Logic-Reset; data register of IDCODE or
BYPASS; the 214 boundary cells as captured, in the order of the table of R530; the TEST lands; level of HEALTH, HEALTH_STOP logged
since the last HEALTH_RESUME, LTC of the last self-check. -/
structure Dbg where
  ir : Option Nat
  dr : Word
  cells : List Bool
  lands : Tab Land
  health : Bool
  stopped : Bool
  checkAt : Nat
  deriving DecidableEq, Repr, Inhabited


/-! ### The whole state -/

/-- The state of the block. -/
structure State where
  /-- commands waiting, first in first out -/
  pending : List Instr
  /-- the MODEL's own counter for free values (log entry 1) -/
  freeCtr : Nat
  /-- register words by BAR0 address; an unlisted register reads 0 -/
  regs : Tab Word
  rul : Rul
  scr : Scr
  hst : Hst
  pbi : Pbi
  vel : Vel
  mem : Mem
  afe : Afe
  nib : Nib
  stk : Stk
  duc : Duc
  qil : Qil
  fio : Fio
  sea : Sea
  pkg : Pkg
  dbg : Dbg
  sys : Sys
  deriving DecidableEq, Repr, Inhabited

/-- No command of the block ends in a fault: ill-formed accesses and refused commands are counters, log records and
completions, as the rules say. -/
inductive Fault
  deriving DecidableEq, Repr

/-- Why a command has no meaning. -/
inductive Refusal
  /-- raised by an arm of exec that has no meaning yet; safe -/
  | notModelled (mnemonic : String)
  deriving DecidableEq, Repr

/-- The reset words that are not 0 (R15), by address; `range` gives the indexed registers. -/
def resetRegs : Tab Word :=
  [(0x0, 0x81600041#32), (0x18, 0x07FF0000#32), (0x20, 0x3C#32), (0x40, 0x80000000#32), (0x10008, 0x3#32)] ++
  (List.range 256).map (fun n => (0x81000 + n * 0x80, 0x800#32)) ++
  (List.range 4).map (fun n => (0xE0020 + n * 0x100, 0x300#32)) ++
  [(0x100000, 0x4000#32)] ++
  (List.range 32).map (fun n => (0x121004 + n * 0x20, 0x100#32)) ++
  [(0x130010, 0x7C000000#32), (0x130014, 0x04000000#32), (0x130028, 0x5#32)]

/-- The machine in reset: every register at the number of its Reset column, 0 where that column gives none (log entries 3
and 4), every table empty, no command waiting; no rail is shown within its limits, so the front end is stopped. -/
def State.reset : State := { (default : State) with regs := resetRegs, afe := { (default : Afe) with stopped := true },
                                                     hst := { (default : Hst) with ep := Endpoint.reset } }

end Sys2Proof.Machine
end

