-- ==== Sys2Proof/Machine/Events.lean ====
section
/-! DEFINITION. The event codes of the Script log with their severities, from the event tables of every unit
(R30, R32, R86, R117, R152, R189, R257, R282, R322, R362, R393, R418, R444, R474, R488, R503, R519, R534). Each docstring gives what
the code carries, where its table says so. -/

namespace Sys2Proof.Machine.Ev

/-- code 0x000: start type, bank, time to IN_SERVICE. -/
def START_DONE : Event := ⟨0x000, 2⟩
/-- code 0x001: attempt, bank, CAUSE. -/
def FOLIO_LOAD_FAIL : Event := ⟨0x001, 4⟩
/-- code 0x002: bank used. -/
def BANK_FALLBACK : Event := ⟨0x002, 4⟩
/-- code 0x003. -/
def SERVICE_HOLD_ENTERED : Event := ⟨0x003, 6⟩
/-- code 0x004: failed step. -/
def FAULT_SAFE_ENTERED : Event := ⟨0x004, 6⟩
/-- code 0x005: old and new state. -/
def STATE_CHANGE : Event := ⟨0x005, 3⟩
/-- code 0x006: settings epoch, objects changed. -/
def EPOCH_COMMITTED : Event := ⟨0x006, 3⟩
/-- code 0x007: cause. -/
def EPOCH_ABORTED : Event := ⟨0x007, 2⟩
/-- code 0x008: record index, failed check. -/
def SETTINGS_REJECT : Event := ⟨0x008, 3⟩
/-- code 0x009: bank, FOLIO_ID. -/
def FLASH_PROG_DONE : Event := ⟨0x009, 3⟩
/-- code 0x00A: bank, RESULT, CAUSE. -/
def FLASH_PROG_FAIL : Event := ⟨0x00A, 4⟩
/-- code 0x00B: last settings epoch. -/
def LIVE_SETTINGS_LOST : Event := ⟨0x00B, 3⟩
/-- code 0x00C: WFAIL. -/
def WARM_FORCED_COLD : Event := ⟨0x00C, 4⟩
/-- code 0x00D: register written. -/
def SYS_REFUSED : Event := ⟨0x00D, 3⟩
/-- code 0x010: P. -/
def PACE_ALARM : Event := ⟨0x010, 4⟩
/-- code 0x011. -/
def PACE_NORMAL : Event := ⟨0x011, 2⟩
/-- code 0x012: mask of rails outside their limits, as in SYS_RAILS. -/
def RAIL_FAULT : Event := ⟨0x012, 4⟩
/-- code 0x013: mask of rails restored. -/
def RAIL_RESTORED : Event := ⟨0x013, 2⟩
/-- code 0x014: TJ; logged when TJ exceeds 105 °C for 1 s. -/
def TJ_HIGH : Event := ⟨0x014, 4⟩
/-- code 0x015: TJ; logged when TJ has been below 100 °C for 1 s after TJ_HIGH. -/
def TJ_NORMAL : Event := ⟨0x015, 2⟩
/-- code 0x040. -/
def TQ_LOCKED : Event := ⟨0x040, 2⟩
/-- code 0x041. -/
def TQ_DEGRADED : Event := ⟨0x041, 3⟩
/-- code 0x042. -/
def TQ_HOLDOVER : Event := ⟨0x042, 4⟩
/-- code 0x043. -/
def TQ_UNSYNC : Event := ⟨0x043, 4⟩
/-- code 0x044. -/
def DOMAIN_SWITCH : Event := ⟨0x044, 3⟩
/-- code 0x045. -/
def DELAY_SUSPECT : Event := ⟨0x045, 3⟩
/-- code 0x046. -/
def DELAY_ACCEPTED : Event := ⟨0x046, 2⟩
/-- code 0x047. -/
def ASYM_SET : Event := ⟨0x047, 4⟩
/-- code 0x048. -/
def ASYM_CLEAR : Event := ⟨0x048, 2⟩
/-- code 0x049. -/
def STEP_PENDING : Event := ⟨0x049, 3⟩
/-- code 0x04A. -/
def TIME_STEP : Event := ⟨0x04A, 4⟩
/-- code 0x04B. -/
def STEP_GRANT : Event := ⟨0x04B, 2⟩
/-- code 0x04C. -/
def STEP_GRANT_EXPIRED : Event := ⟨0x04C, 2⟩
/-- code 0x04D. -/
def REF_LOST : Event := ⟨0x04D, 4⟩
/-- code 0x04E. -/
def REF_RESTORED : Event := ⟨0x04E, 2⟩
/-- code 0x04F. -/
def HOST_SERVO_TIMEOUT : Event := ⟨0x04F, 4⟩
/-- code 0x050. -/
def LEGACY_ERROR : Event := ⟨0x050, 3⟩
/-- code 0x051. -/
def CONFIG_REJECT : Event := ⟨0x051, 3⟩
/-- code 0x080. -/
def SEQ_REJECT : Event := ⟨0x080, 3⟩
/-- code 0x081. -/
def TICK_MISS : Event := ⟨0x081, 3⟩
/-- code 0x082. -/
def WD_SRC_INVALID : Event := ⟨0x082, 3⟩
/-- code 0x083. -/
def CMP_CROSS : Event := ⟨0x083, 1⟩
/-- code 0x084. -/
def STREAM_MAP_REJECT : Event := ⟨0x084, 3⟩
/-- code 0x0C0. -/
def PORT_LINK_DOWN : Event := ⟨0x0C0, 3⟩
/-- code 0x0C1. -/
def PORT_LINK_UP : Event := ⟨0x0C1, 2⟩
/-- code 0x0C2. -/
def SV_INVALID : Event := ⟨0x0C2, 4⟩
/-- code 0x0C3. -/
def SV_VALID : Event := ⟨0x0C3, 2⟩
/-- code 0x0C4. -/
def SV_FORMAT : Event := ⟨0x0C4, 3⟩
/-- code 0x0C5. -/
def PRP_WRONG_LAN : Event := ⟨0x0C5, 3⟩
/-- code 0x0C6. -/
def GOOSE_STALE : Event := ⟨0x0C6, 4⟩
/-- code 0x0C7. -/
def GOOSE_RESTORED : Event := ⟨0x0C7, 2⟩
/-- code 0x0C8. -/
def GOOSE_CONFREV : Event := ⟨0x0C8, 3⟩
/-- code 0x0C9. -/
def GOOSE_CONFIG : Event := ⟨0x0C9, 3⟩
/-- code 0x0CA. -/
def GOOSE_NDSCOM : Event := ⟨0x0CA, 3⟩
/-- code 0x0CB. -/
def GOOSE_STNUM_GAP : Event := ⟨0x0CB, 2⟩
/-- code 0x0CC. -/
def HOSTQ_OVERFLOW : Event := ⟨0x0CC, 3⟩
/-- code 0x100. -/
def CTX_FAULT : Event := ⟨0x100, 4⟩
/-- code 0x101. -/
def CTX_STATE : Event := ⟨0x101, 2⟩
/-- code 0x102. -/
def CTX_MODE : Event := ⟨0x102, 2⟩
/-- code 0x103. -/
def HA_FALLBACK : Event := ⟨0x103, 4⟩
/-- code 0x104. -/
def HA_RESUMED : Event := ⟨0x104, 2⟩
/-- code 0x105. -/
def HA_LATE : Event := ⟨0x105, 3⟩
/-- code 0x106. -/
def ALIGN_MISS : Event := ⟨0x106, 3⟩
/-- code 0x107. -/
def CTX_STATE_RESET : Event := ⟨0x107, 4⟩
/-- code 0x108. -/
def CTX_MEM_OOS : Event := ⟨0x108, 6⟩
/-- code 0x110: context, mode, failed condition. -/
def DCDIFF_FALLBACK : Event := ⟨0x110, 4⟩
/-- code 0x111: context. -/
def DCDIFF_DTC : Event := ⟨0x111, 2⟩
/-- code 0x112: context, d, U, Δt, TQ at both ends, flags. -/
def TWLOC_RESULT : Event := ⟨0x112, 4⟩
/-- code 0x113: context, t_A. -/
def TWLOC_NOMATCH : Event := ⟨0x113, 2⟩
/-- code 0x114: context, failed condition, t_B. -/
def TWLOC_REFUSED : Event := ⟨0x114, 3⟩
/-- code 0x115: context, t_TW. -/
def TWDET_UNCONFIRMED : Event := ⟨0x115, 2⟩
/-- code 0x140: output, first input (0–511, or 0x3FF for a test pulse), TESTDRV. -/
def STK_ASSERT : Event := ⟨0x140, 5⟩
/-- code 0x141: output, cause: PRE/TMIN, reset, current gone. -/
def STK_RELEASE : Event := ⟨0x141, 2⟩
/-- code 0x142: output. -/
def STK_FB_NORISE : Event := ⟨0x142, 4⟩
/-- code 0x143: output. -/
def STK_FB_REST : Event := ⟨0x143, 4⟩
/-- code 0x144: output. -/
def STK_CG_TIMEOUT : Event := ⟨0x144, 4⟩
/-- code 0x145: output, WIDTH. -/
def STK_TEST_PULSE : Event := ⟨0x145, 2⟩
/-- code 0x146: output, reset source. -/
def STK_LATCH_RESET : Event := ⟨0x146, 2⟩
/-- code 0x147: mask of outputs released, new SYS_STATE. -/
def STK_STATE_RELEASE : Event := ⟨0x147, 4⟩
/-- code 0x180: task. -/
def QIL_OVERRUN : Event := ⟨0x180, 3⟩
/-- code 0x181: task, cause, program counter. -/
def QIL_TASK_FAULT : Event := ⟨0x181, 4⟩
/-- code 0x182: program IDs before and after, MODE. -/
def QIL_SWITCH_DONE : Event := ⟨0x182, 2⟩
/-- code 0x183: symbol ID. -/
def QIL_SYM_CANCEL : Event := ⟨0x183, 3⟩
/-- code 0x184: symbol ID. -/
def FORCE_DROPPED : Event := ⟨0x184, 3⟩
/-- code 0x185: symbol ID, value. -/
def QIL_FORCE_SET : Event := ⟨0x185, 3⟩
/-- code 0x186: symbol ID. -/
def QIL_FORCE_CLEAR : Event := ⟨0x186, 2⟩
/-- code 0x187: task. -/
def QIL_HA_TIMEOUT : Event := ⟨0x187, 4⟩
/-- code 0x188: task, SEQ. -/
def QIL_HA_RESUMED : Event := ⟨0x188, 2⟩
/-- code 0x189: program ID. -/
def QIL_LOAD_DONE : Event := ⟨0x189, 2⟩
/-- code 0x18A: failed check. -/
def QIL_LOAD_REJECT : Event := ⟨0x18A, 3⟩
/-- code 0x18B: task. -/
def QIL_MEM_HALT : Event := ⟨0x18B, 6⟩
/-- code 0x18C: count of variables initialised. -/
def QIL_RETAIN_INIT : Event := ⟨0x18C, 3⟩
/-- code 0x1C0. -/
def DUC_LINK_UP : Event := ⟨0x1C0, 2⟩
/-- code 0x1C1. -/
def DUC_LINK_LOST : Event := ⟨0x1C1, 4⟩
/-- code 0x1C2. -/
def DUC_ID_MISMATCH : Event := ⟨0x1C2, 3⟩
/-- code 0x1C3. -/
def DUC_LOOP : Event := ⟨0x1C3, 4⟩
/-- code 0x1C4. -/
def DUC_CMD_MISS : Event := ⟨0x1C4, 3⟩
/-- code 0x1C5. -/
def DUC_DELAY_STEP : Event := ⟨0x1C5, 3⟩
/-- code 0x1C6. -/
def DUC_DELAY_MISMATCH : Event := ⟨0x1C6, 3⟩
/-- code 0x1C7. -/
def DUC_DELAY_MATCH : Event := ⟨0x1C7, 2⟩
/-- code 0x1C8. -/
def DUC_MSG_LOST : Event := ⟨0x1C8, 3⟩
/-- code 0x1C9. -/
def DUC_SET_MISMATCH : Event := ⟨0x1C9, 4⟩
/-- code 0x1CA. -/
def DUC_SET_MATCH : Event := ⟨0x1CA, 2⟩
/-- code 0x1CB. -/
def DUC_TEST_RX : Event := ⟨0x1CB, 3⟩
/-- code 0x1D0. -/
def STN_LINK_DOWN : Event := ⟨0x1D0, 3⟩
/-- code 0x1D1. -/
def STN_LINK_UP : Event := ⟨0x1D1, 2⟩
/-- code 0x201: page, FIRST, LAST. -/
def LOG_PAGE_FAIL : Event := ⟨0x201, 6⟩
/-- code 0x202: records held. -/
def BLOT_TIMEOUT : Event := ⟨0x202, 2⟩
/-- code 0x203: records held, records dropped. -/
def BLOT_END_EARLY : Event := ⟨0x203, 3⟩
/-- code 0x210: ID, profile, TRIGSRC. -/
def VEL_OPEN : Event := ⟨0x210, 2⟩
/-- code 0x211: ID, NBLK, FLAGS. -/
def VEL_CLOSE : Event := ⟨0x211, 2⟩
/-- code 0x212: ID, retrainings. -/
def VEL_WRITE_TIMEOUT : Event := ⟨0x212, 4⟩
/-- code 0x213: ID. -/
def VEL_SPACE : Event := ⟨0x213, 4⟩
/-- code 0x214: ID, block. -/
def VEL_READ_ERR : Event := ⟨0x214, 3⟩
/-- code 0x215: ID, group, bytes. -/
def VEL_EXPORT_DONE : Event := ⟨0x215, 2⟩
/-- code 0x240. -/
def FIO_GRP_WARN : Event := ⟨0x240, 3⟩
/-- code 0x241. -/
def FIO_GRP_NORMAL : Event := ⟨0x241, 2⟩
/-- code 0x242. -/
def FIO_GRP_LOCKOUT : Event := ⟨0x242, 4⟩
/-- code 0x243. -/
def FIO_GRP_RECOVER : Event := ⟨0x243, 2⟩
/-- code 0x244. -/
def FIO_GRP_BLOCKED : Event := ⟨0x244, 4⟩
/-- code 0x245. -/
def FIO_GRP_ACK : Event := ⟨0x245, 2⟩
/-- code 0x246. -/
def FIO_GRP_NOSUPPLY : Event := ⟨0x246, 4⟩
/-- code 0x247. -/
def FIO_OVERLOAD : Event := ⟨0x247, 4⟩
/-- code 0x248. -/
def FIO_OVERTEMP : Event := ⟨0x248, 4⟩
/-- code 0x249. -/
def FIO_OPEN_WIRE : Event := ⟨0x249, 3⟩
/-- code 0x24A. -/
def FIO_SHORT_LPLUS : Event := ⟨0x24A, 4⟩
/-- code 0x24B. -/
def FIO_PAIR_IMBAL : Event := ⟨0x24B, 4⟩
/-- code 0x24C. -/
def FIO_WIRE_BREAK : Event := ⟨0x24C, 4⟩
/-- code 0x24D. -/
def FIO_WD_SAFE : Event := ⟨0x24D, 4⟩
/-- code 0x24E. -/
def FIO_LINK_LOST : Event := ⟨0x24E, 4⟩
/-- code 0x24F. -/
def FIO_LATCHED : Event := ⟨0x24F, 4⟩
/-- code 0x280: slot, level, credential, interface. -/
def HST_SESSION_OPEN : Event := ⟨0x280, 2⟩
/-- code 0x281: slot, cause. -/
def HST_SESSION_CLOSE : Event := ⟨0x281, 2⟩
/-- code 0x282: slot, credential. -/
def HST_AUTH_FAIL : Event := ⟨0x282, 4⟩
/-- code 0x283: slot, opcode, CID. -/
def HST_CMD_STATE : Event := ⟨0x283, 3⟩
/-- code 0x284: slot, opcode, CID, TRIES. -/
def HST_CMD_TIMEOUT : Event := ⟨0x284, 3⟩
/-- code 0x285: slot. -/
def HST_DB_ERR : Event := ⟨0x285, 3⟩
/-- code 0x286. -/
def HST_PCIE_LINK_DOWN : Event := ⟨0x286, 3⟩
/-- code 0x287: speed, width. -/
def HST_PCIE_LINK_UP : Event := ⟨0x287, 2⟩
/-- code 0x288: kind, address. -/
def HST_PCIE_ERR : Event := ⟨0x288, 3⟩
/-- code 0x289: address, requester. -/
def HST_DIRECT_REJ : Event := ⟨0x289, 3⟩
/-- code 0x2A0: slot, path (JTAG or session). -/
def SEA_OWNER_WRITTEN : Event := ⟨0x2A0, 4⟩
/-- code 0x2A1: slot. -/
def SEA_OWNER_REVOKED : Event := ⟨0x2A1, 4⟩
/-- code 0x2A2: root. -/
def SEA_VENDOR_REVOKED : Event := ⟨0x2A2, 4⟩
/-- code 0x2A3: RSEQ, session. -/
def SEA_ATTEST : Event := ⟨0x2A3, 2⟩
/-- code 0x2A4: SIGNER, SCOPE, DURATION, session. -/
def SEA_DEBUG_UNLOCK : Event := ⟨0x2A4, 4⟩
/-- code 0x2A5: cause. -/
def SEA_DEBUG_LOCK : Event := ⟨0x2A5, 2⟩
/-- code 0x2A6: SIGNER, session. -/
def SEA_DEBUG_FAIL : Event := ⟨0x2A6, 4⟩
/-- code 0x2A7. -/
def SEA_RNG_FAIL : Event := ⟨0x2A7, 6⟩
/-- code 0x2A8: slot or root. -/
def SEA_FUSE_ERR : Event := ⟨0x2A8, 6⟩
/-- code 0x2C0: region, address. -/
def MEM_CE : Event := ⟨0x2C0, 1⟩
/-- code 0x2C1: region, address, action. -/
def MEM_UE : Event := ⟨0x2C1, 4⟩
/-- code 0x2C2: memory, repair bank, row. -/
def MEM_SUSPECT : Event := ⟨0x2C2, 3⟩
/-- code 0x2C3: repair bank, row, spare, MEM_REP index. -/
def MEM_SOFT_REPAIR : Event := ⟨0x2C3, 3⟩
/-- code 0x2C4: repair bank, row. -/
def MEM_SPARE_EXHAUSTED : Event := ⟨0x2C4, 4⟩
/-- code 0x2C5: field entry, repair bank, row. -/
def MEM_FUSE_COMMIT : Event := ⟨0x2C5, 3⟩
/-- code 0x2C6: field entry. -/
def MEM_FUSE_ERR : Event := ⟨0x2C6, 6⟩
/-- code 0x2C7: CE, UE, MiB read. -/
def MEM_SWEEP_DONE : Event := ⟨0x2C7, 2⟩
/-- code 0x2C8: owner kind, instance. -/
def MEM_OWNER_OOS : Event := ⟨0x2C8, 6⟩
/-- code 0x2E0: SEL of TEST0–TEST3. -/
def DBG_STYLUS_ON : Event := ⟨0x2E0, 3⟩
/-- code 0x2E1: cause. -/
def DBG_STYLUS_OFF : Event := ⟨0x2E1, 2⟩
/-- code 0x2E2: session. -/
def DBG_GRANT_TAKEN : Event := ⟨0x2E2, 4⟩
/-- code 0x2E3: cause. -/
def DBG_GRANT_END : Event := ⟨0x2E3, 2⟩
/-- code 0x2E4: cause, as DBG_HEALTH. -/
def HEALTH_STOP : Event := ⟨0x2E4, 4⟩
/-- code 0x2E5. -/
def HEALTH_RESUME : Event := ⟨0x2E5, 2⟩

end Sys2Proof.Machine.Ev
end

