-- ==== Sys2Proof/Machine/RegMap.lean ====
section
/-! DEFINITION. The register map: the BAR0 address of every register of the spec, a field descriptor for every
field, and one row per register with what a write may change. Each docstring names the register and the rule above
its table. -/

namespace Sys2Proof.Machine.Reg

/-- RUL_LTC_LO: local tick counter, low word (R86). -/
abbrev RUL_LTC_LO : Nat := 0x10000
def RUL_LTC_LO_LTC_LO : Fld := ⟨RUL_LTC_LO, 0, 32⟩

/-- RUL_LTC_HI: local tick counter, high word (R86). -/
abbrev RUL_LTC_HI : Nat := 0x10004
def RUL_LTC_HI_LTC_HI : Fld := ⟨RUL_LTC_HI, 0, 32⟩

/-- RUL_TQ: time quality and DTC status (R86). -/
abbrev RUL_TQ : Nat := 0x10008
def RUL_TQ_TQ : Fld := ⟨RUL_TQ, 0, 2⟩
def RUL_TQ_ASYM : Fld := ⟨RUL_TQ, 2, 1⟩
def RUL_TQ_SLEWING : Fld := ⟨RUL_TQ, 3, 1⟩
def RUL_TQ_STEP_HOLD : Fld := ⟨RUL_TQ, 4, 1⟩
def RUL_TQ_GRANT_A : Fld := ⟨RUL_TQ, 5, 1⟩
def RUL_TQ_GRANT_B : Fld := ⟨RUL_TQ, 6, 1⟩
def RUL_TQ_SEL : Fld := ⟨RUL_TQ, 7, 1⟩
def RUL_TQ_REF : Fld := ⟨RUL_TQ, 8, 1⟩

/-- RUL_EPOCH: DTC epoch (R86). -/
abbrev RUL_EPOCH : Nat := 0x1000c
def RUL_EPOCH_EPOCH : Fld := ⟨RUL_EPOCH, 0, 16⟩

/-- RUL_DTC_NS: DTC nanoseconds and snapshot (R86). -/
abbrev RUL_DTC_NS : Nat := 0x10010
def RUL_DTC_NS_NS : Fld := ⟨RUL_DTC_NS, 0, 30⟩
def RUL_DTC_NS_TQ : Fld := ⟨RUL_DTC_NS, 30, 2⟩

/-- RUL_DTC_SEC_LO: DTC seconds, low word (R86). -/
abbrev RUL_DTC_SEC_LO : Nat := 0x10014
def RUL_DTC_SEC_LO_SEC_LO : Fld := ⟨RUL_DTC_SEC_LO, 0, 32⟩

/-- RUL_DTC_SEC_HI: DTC seconds, high word and epoch (R86). -/
abbrev RUL_DTC_SEC_HI : Nat := 0x10018
def RUL_DTC_SEC_HI_SEC_HI : Fld := ⟨RUL_DTC_SEC_HI, 0, 16⟩
def RUL_DTC_SEC_HI_EPOCH : Fld := ⟨RUL_DTC_SEC_HI, 16, 16⟩

/-- RUL_CTRL: selection and slew control (R86). -/
abbrev RUL_CTRL : Nat := 0x10020
def RUL_CTRL_PREF : Fld := ⟨RUL_CTRL, 0, 1⟩
def RUL_CTRL_REVERT : Fld := ⟨RUL_CTRL, 1, 1⟩
def RUL_CTRL_REF_SEL : Fld := ⟨RUL_CTRL, 2, 1⟩
def RUL_CTRL_SLEW : Fld := ⟨RUL_CTRL, 4, 6⟩

/-- RUL_ASYM_THR: delay step threshold (R86). -/
abbrev RUL_ASYM_THR : Nat := 0x10024
def RUL_ASYM_THR_THR : Fld := ⟨RUL_ASYM_THR, 0, 12⟩

/-- RUL_DOMx_CFG: domain configuration (R86). -/
abbrev RUL_DOM_CFG (d : Nat) : Nat := 0x10040 + d * 0x40
def RUL_DOM_CFG_DOMNUM (d : Nat) : Fld := ⟨RUL_DOM_CFG d, 0, 8⟩
def RUL_DOM_CFG_SOURCE (d : Nat) : Fld := ⟨RUL_DOM_CFG d, 8, 2⟩
def RUL_DOM_CFG_PROFILE (d : Nat) : Fld := ⟨RUL_DOM_CFG d, 10, 1⟩
def RUL_DOM_CFG_HA (d : Nat) : Fld := ⟨RUL_DOM_CFG d, 11, 1⟩

/-- RUL_DOMx_PORTS: domain port set (R86). -/
abbrev RUL_DOM_PORTS (d : Nat) : Nat := 0x10044 + d * 0x40
def RUL_DOM_PORTS_PB (d : Nat) : Fld := ⟨RUL_DOM_PORTS d, 0, 24⟩
def RUL_DOM_PORTS_SB (d : Nat) : Fld := ⟨RUL_DOM_PORTS d, 24, 4⟩

/-- RUL_DOMx_STATE: domain state (R86). -/
abbrev RUL_DOM_STATE (d : Nat) : Nat := 0x10048 + d * 0x40
def RUL_DOM_STATE_STATE (d : Nat) : Fld := ⟨RUL_DOM_STATE d, 0, 3⟩
def RUL_DOM_STATE_LOCK (d : Nat) : Fld := ⟨RUL_DOM_STATE d, 3, 1⟩
def RUL_DOM_STATE_ASYM (d : Nat) : Fld := ⟨RUL_DOM_STATE d, 4, 1⟩
def RUL_DOM_STATE_USABLE (d : Nat) : Fld := ⟨RUL_DOM_STATE d, 5, 1⟩
def RUL_DOM_STATE_PORT (d : Nat) : Fld := ⟨RUL_DOM_STATE d, 6, 5⟩
def RUL_DOM_STATE_GMCLASS (d : Nat) : Fld := ⟨RUL_DOM_STATE d, 16, 8⟩

/-- RUL_DOMx_OFFSET: last offset (R86). -/
abbrev RUL_DOM_OFFSET (d : Nat) : Nat := 0x1004c + d * 0x40
def RUL_DOM_OFFSET_OFFSET (d : Nat) : Fld := ⟨RUL_DOM_OFFSET d, 0, 32⟩

/-- RUL_DOMx_DELAY: mean path delay (R86). -/
abbrev RUL_DOM_DELAY (d : Nat) : Nat := 0x10050 + d * 0x40
def RUL_DOM_DELAY_DELAY (d : Nat) : Fld := ⟨RUL_DOM_DELAY d, 0, 32⟩

/-- RUL_DOMx_FREQ: frequency correction (R86). -/
abbrev RUL_DOM_FREQ (d : Nat) : Nat := 0x10054 + d * 0x40
def RUL_DOM_FREQ_FREQ (d : Nat) : Fld := ⟨RUL_DOM_FREQ d, 0, 32⟩

/-- RUL_DOMx_SERVO: servo gains (R86). -/
abbrev RUL_DOM_SERVO (d : Nat) : Nat := 0x10058 + d * 0x40
def RUL_DOM_SERVO_KP (d : Nat) : Fld := ⟨RUL_DOM_SERVO d, 0, 16⟩
def RUL_DOM_SERVO_KI (d : Nat) : Fld := ⟨RUL_DOM_SERVO d, 16, 16⟩

/-- RUL_DOMx_HA_FREQ: host frequency correction (R86). -/
abbrev RUL_DOM_HA_FREQ (d : Nat) : Nat := 0x1005c + d * 0x40
def RUL_DOM_HA_FREQ_HFREQ (d : Nat) : Fld := ⟨RUL_DOM_HA_FREQ d, 0, 32⟩

/-- RUL_DOMx_HA_PHASE: host phase correction (R86). -/
abbrev RUL_DOM_HA_PHASE (d : Nat) : Nat := 0x10060 + d * 0x40
def RUL_DOM_HA_PHASE_HPHASE (d : Nat) : Fld := ⟨RUL_DOM_HA_PHASE d, 0, 32⟩

/-- RUL_DOMx_CNT0: message counters (R86). -/
abbrev RUL_DOM_CNT0 (d : Nat) : Nat := 0x10064 + d * 0x40
def RUL_DOM_CNT0_SYNC_RX (d : Nat) : Fld := ⟨RUL_DOM_CNT0 d, 0, 16⟩
def RUL_DOM_CNT0_FU_MISS (d : Nat) : Fld := ⟨RUL_DOM_CNT0 d, 16, 16⟩

/-- RUL_DOMx_CNT1: event counters (R86). -/
abbrev RUL_DOM_CNT1 (d : Nat) : Nat := 0x10068 + d * 0x40
def RUL_DOM_CNT1_DSTEP (d : Nat) : Fld := ⟨RUL_DOM_CNT1 d, 0, 8⟩
def RUL_DOM_CNT1_ANN_TO (d : Nat) : Fld := ⟨RUL_DOM_CNT1 d, 8, 8⟩
def RUL_DOM_CNT1_COPY_STEP (d : Nat) : Fld := ⟨RUL_DOM_CNT1 d, 16, 8⟩
def RUL_DOM_CNT1_STAMP_OVR (d : Nat) : Fld := ⟨RUL_DOM_CNT1 d, 24, 8⟩

/-- RUL_LEG_CFG: legacy inputs (R86). -/
abbrev RUL_LEG_CFG : Nat := 0x100c0
def RUL_LEG_CFG_PPS_EN : Fld := ⟨RUL_LEG_CFG, 0, 1⟩
def RUL_LEG_CFG_IRIG_EN : Fld := ⟨RUL_LEG_CFG, 1, 1⟩
def RUL_LEG_CFG_TAI_UTC : Fld := ⟨RUL_LEG_CFG, 8, 8⟩
def RUL_LEG_CFG_YEAR : Fld := ⟨RUL_LEG_CFG, 16, 16⟩

/-- RUL_PPS_OUT: PPS output (R86). -/
abbrev RUL_PPS_OUT : Nat := 0x100c4
def RUL_PPS_OUT_WIDTH : Fld := ⟨RUL_PPS_OUT, 0, 9⟩
def RUL_PPS_OUT_GATE : Fld := ⟨RUL_PPS_OUT, 9, 1⟩
def RUL_PPS_OUT_EN : Fld := ⟨RUL_PPS_OUT, 10, 1⟩

/-- RUL_TC_CNT: transparent-clock counters (R86). -/
abbrev RUL_TC_CNT : Nat := 0x100c8
def RUL_TC_CNT_NO_DELAY : Fld := ⟨RUL_TC_CNT, 0, 16⟩
def RUL_TC_CNT_BAD_FCS : Fld := ⟨RUL_TC_CNT, 16, 16⟩

/-- AFE_CMP_LO: comparator crossings, AIN00–AIN31 (R117). -/
abbrev AFE_CMP_LO : Nat := 0x20000
def AFE_CMP_LO_CROSS : Fld := ⟨AFE_CMP_LO, 0, 32⟩

/-- AFE_CMP_HI: comparator crossings, AIN32–AIN63 (R117). -/
abbrev AFE_CMP_HI : Nat := 0x20004
def AFE_CMP_HI_CROSS : Fld := ⟨AFE_CMP_HI, 0, 32⟩

/-- AFE_CVn_CTRL: converter control (R117). -/
abbrev AFE_CV_CTRL (n : Nat) : Nat := 0x21000 + n * 0x200
def AFE_CV_CTRL_MODE (n : Nat) : Fld := ⟨AFE_CV_CTRL n, 0, 1⟩
def AFE_CV_CTRL_TRIG (n : Nat) : Fld := ⟨AFE_CV_CTRL n, 1, 2⟩
def AFE_CV_CTRL_SWTRIG (n : Nat) : Fld := ⟨AFE_CV_CTRL n, 3, 1⟩
def AFE_CV_CTRL_RELOAD (n : Nat) : Fld := ⟨AFE_CV_CTRL n, 4, 1⟩
def AFE_CV_CTRL_DIV (n : Nat) : Fld := ⟨AFE_CV_CTRL n, 16, 16⟩

/-- AFE_CVn_STAT: converter status (R117). -/
abbrev AFE_CV_STAT (n : Nat) : Nat := 0x21004 + n * 0x200
def AFE_CV_STAT_BUSY (n : Nat) : Fld := ⟨AFE_CV_STAT n, 0, 1⟩
def AFE_CV_STAT_RELOAD_PEND (n : Nat) : Fld := ⟨AFE_CV_STAT n, 1, 1⟩
def AFE_CV_STAT_ENTRY (n : Nat) : Fld := ⟨AFE_CV_STAT n, 2, 4⟩
def AFE_CV_STAT_URG_ACTIVE (n : Nat) : Fld := ⟨AFE_CV_STAT n, 6, 1⟩
def AFE_CV_STAT_URG_IN (n : Nat) : Fld := ⟨AFE_CV_STAT n, 8, 2⟩

/-- AFE_CVn_URG: urgent descriptor (R117). -/
abbrev AFE_CV_URG (n : Nat) : Nat := 0x21008 + n * 0x200
def AFE_CV_URG_EN (n : Nat) : Fld := ⟨AFE_CV_URG n, 0, 1⟩
def AFE_CV_URG_GAIN (n : Nat) : Fld := ⟨AFE_CV_URG n, 1, 3⟩
def AFE_CV_URG_ACQ_U (n : Nat) : Fld := ⟨AFE_CV_URG n, 4, 7⟩
def AFE_CV_URG_VTRIG (n : Nat) : Fld := ⟨AFE_CV_URG n, 11, 1⟩

/-- AFE_CVn_URGRES: last urgent result (R117). -/
abbrev AFE_CV_URGRES (n : Nat) : Nat := 0x2100c + n * 0x200
def AFE_CV_URGRES_RESULT (n : Nat) : Fld := ⟨AFE_CV_URGRES n, 0, 32⟩

/-- AFE_CVn_CNT: converter counters (R117). -/
abbrev AFE_CV_CNT (n : Nat) : Nat := 0x21010 + n * 0x200
def AFE_CV_CNT_TICK_MISS (n : Nat) : Fld := ⟨AFE_CV_CNT n, 0, 8⟩
def AFE_CV_CNT_SW_IGN (n : Nat) : Fld := ⟨AFE_CV_CNT n, 8, 8⟩
def AFE_CV_CNT_URG_MERGED (n : Nat) : Fld := ⟨AFE_CV_CNT n, 16, 8⟩
def AFE_CV_CNT_URG_DONE (n : Nat) : Fld := ⟨AFE_CV_CNT n, 24, 8⟩

/-- AFE_CVn_LAST: last sequence result (R117). -/
abbrev AFE_CV_LAST (n : Nat) : Nat := 0x21014 + n * 0x200
def AFE_CV_LAST_RESULT (n : Nat) : Fld := ⟨AFE_CV_LAST n, 0, 32⟩

/-- AFE_CVn_ACT: active sequence table (R117). -/
abbrev AFE_CV_ACT (n : Nat) (e : Nat) (w : Nat) : Nat := 0x21100 + n * 0x200 + e * 0x8 + w * 0x4
def AFE_CV_ACT_WORD (n : Nat) (e : Nat) (w : Nat) : Fld := ⟨AFE_CV_ACT n e w, 0, 32⟩

/-- AFE_CVn_SHD: shadow sequence table (R117). -/
abbrev AFE_CV_SHD (n : Nat) (e : Nat) (w : Nat) : Nat := 0x21180 + n * 0x200 + e * 0x8 + w * 0x4
def AFE_CV_SHD_WORD (n : Nat) (e : Nat) (w : Nat) : Fld := ⟨AFE_CV_SHD n e w, 0, 32⟩

/-- AFE_AINnn_CFG: input configuration (R117). -/
abbrev AFE_AIN_CFG (n : Nat) : Nat := 0x23000 + n * 0x8
def AFE_AIN_CFG_FILT (n : Nat) : Fld := ⟨AFE_AIN_CFG n, 0, 2⟩
def AFE_AIN_CFG_CMP_EN (n : Nat) : Fld := ⟨AFE_AIN_CFG n, 2, 1⟩
def AFE_AIN_CFG_CMP_URG (n : Nat) : Fld := ⟨AFE_AIN_CFG n, 3, 1⟩

/-- AFE_AINnn_THR: comparator thresholds (R117). -/
abbrev AFE_AIN_THR (n : Nat) : Nat := 0x23004 + n * 0x8
def AFE_AIN_THR_UPPER (n : Nat) : Fld := ⟨AFE_AIN_THR n, 0, 10⟩
def AFE_AIN_THR_LOWER (n : Nat) : Fld := ⟨AFE_AIN_THR n, 16, 10⟩

/-- AFE_WDn_SRC: detector sources (R117). -/
abbrev AFE_WD_SRC (n : Nat) : Nat := 0x24000 + n * 0x20
def AFE_WD_SRC_SRC (n : Nat) : Fld := ⟨AFE_WD_SRC n, 0, 16⟩
def AFE_WD_SRC_EN (n : Nat) : Fld := ⟨AFE_WD_SRC n, 16, 1⟩

/-- AFE_WDn_CFG: detector coefficients and rule (R117). -/
abbrev AFE_WD_CFG (n : Nat) : Nat := 0x24004 + n * 0x20
def AFE_WD_CFG_PCOEF (n : Nat) : Fld := ⟨AFE_WD_CFG n, 0, 12⟩
def AFE_WD_CFG_QCOEF (n : Nat) : Fld := ⟨AFE_WD_CFG n, 12, 12⟩
def AFE_WD_CFG_K (n : Nat) : Fld := ⟨AFE_WD_CFG n, 24, 4⟩
def AFE_WD_CFG_POL (n : Nat) : Fld := ⟨AFE_WD_CFG n, 28, 2⟩

/-- AFE_WDn_THR: slope threshold (R117). -/
abbrev AFE_WD_THR (n : Nat) : Nat := 0x24008 + n * 0x20
def AFE_WD_THR_THR (n : Nat) : Fld := ⟨AFE_WD_THR n, 0, 20⟩

/-- AFE_WDn_CNT: detector counters (R117). -/
abbrev AFE_WD_CNT (n : Nat) : Nat := 0x2400c + n * 0x20
def AFE_WD_CNT_EVENTS (n : Nat) : Fld := ⟨AFE_WD_CNT n, 0, 16⟩
def AFE_WD_CNT_DEAD_SUPP (n : Nat) : Fld := ⟨AFE_WD_CNT n, 16, 8⟩
def AFE_WD_CNT_MISMATCH (n : Nat) : Fld := ⟨AFE_WD_CNT n, 24, 8⟩

/-- PBI_PBnn_CFG: port configuration (R152). -/
abbrev PBI_PB_CFG (n : Nat) : Nat := 0x40000 + n * 0x40
def PBI_PB_CFG_EN (n : Nat) : Fld := ⟨PBI_PB_CFG n, 0, 1⟩
def PBI_PB_CFG_IF (n : Nat) : Fld := ⟨PBI_PB_CFG n, 1, 1⟩
def PBI_PB_CFG_AN (n : Nat) : Fld := ⟨PBI_PB_CFG n, 2, 1⟩
def PBI_PB_CFG_PRP (n : Nat) : Fld := ⟨PBI_PB_CFG n, 3, 1⟩
def PBI_PB_CFG_BG (n : Nat) : Fld := ⟨PBI_PB_CFG n, 4, 3⟩
def PBI_PB_CFG_HOSTSEL (n : Nat) : Fld := ⟨PBI_PB_CFG n, 7, 2⟩
def PBI_PB_CFG_SUP_TX (n : Nat) : Fld := ⟨PBI_PB_CFG n, 9, 1⟩

/-- PBI_PBnn_STAT: port status (R152). -/
abbrev PBI_PB_STAT (n : Nat) : Nat := 0x40004 + n * 0x40
def PBI_PB_STAT_LINK (n : Nat) : Fld := ⟨PBI_PB_STAT n, 0, 1⟩
def PBI_PB_STAT_LOS (n : Nat) : Fld := ⟨PBI_PB_STAT n, 1, 1⟩
def PBI_PB_STAT_PCS_SYNC (n : Nat) : Fld := ⟨PBI_PB_STAT n, 2, 1⟩
def PBI_PB_STAT_AN_DONE (n : Nat) : Fld := ⟨PBI_PB_STAT n, 3, 1⟩
def PBI_PB_STAT_LINK_REFUSED (n : Nat) : Fld := ⟨PBI_PB_STAT n, 4, 8⟩

/-- PBI_PBnn_CNT: port counters (R152). -/
abbrev PBI_PB_CNT (n : Nat) (k : Nat) : Nat := 0x40010 + n * 0x40 + k * 0x4
def PBI_PB_CNT_COUNT (n : Nat) (k : Nat) : Fld := ⟨PBI_PB_CNT n k, 0, 32⟩

/-- PBI_DEC_LOAD: SV decode load (R152). -/
abbrev PBI_DEC_LOAD : Nat := 0x40800
def PBI_DEC_LOAD_LOAD : Fld := ⟨PBI_DEC_LOAD, 0, 16⟩
def PBI_DEC_LOAD_PEAK : Fld := ⟨PBI_DEC_LOAD, 16, 16⟩

/-- PBI_SFP_XFER: SFP management transfer (R152). -/
abbrev PBI_SFP_XFER : Nat := 0x40810
def PBI_SFP_XFER_ADDR : Fld := ⟨PBI_SFP_XFER, 0, 7⟩
def PBI_SFP_XFER_RD : Fld := ⟨PBI_SFP_XFER, 7, 1⟩
def PBI_SFP_XFER_OFFSET : Fld := ⟨PBI_SFP_XFER, 8, 8⟩
def PBI_SFP_XFER_DATA : Fld := ⟨PBI_SFP_XFER, 16, 8⟩
def PBI_SFP_XFER_START : Fld := ⟨PBI_SFP_XFER, 24, 1⟩
def PBI_SFP_XFER_BUSY : Fld := ⟨PBI_SFP_XFER, 25, 1⟩
def PBI_SFP_XFER_NACK : Fld := ⟨PBI_SFP_XFER, 26, 1⟩
def PBI_SFP_XFER_NOOFS : Fld := ⟨PBI_SFP_XFER, 27, 1⟩

/-- PBI_SCnnn_CFG: stream context configuration (R152). -/
abbrev PBI_SC_CFG (n : Nat) : Nat := 0x42000 + n * 0x40
def PBI_SC_CFG_EN (n : Nat) : Fld := ⟨PBI_SC_CFG n, 0, 1⟩
def PBI_SC_CFG_RATE (n : Nat) : Fld := ⟨PBI_SC_CFG n, 1, 3⟩
def PBI_SC_CFG_NASDU (n : Nat) : Fld := ⟨PBI_SC_CFG n, 4, 4⟩
def PBI_SC_CFG_NCHAN (n : Nat) : Fld := ⟨PBI_SC_CFG n, 8, 5⟩
def PBI_SC_CFG_SIM (n : Nat) : Fld := ⟨PBI_SC_CFG n, 13, 1⟩
def PBI_SC_CFG_HA (n : Nat) : Fld := ⟨PBI_SC_CFG n, 14, 1⟩
def PBI_SC_CFG_LATE_LIM (n : Nat) : Fld := ⟨PBI_SC_CFG n, 16, 14⟩

/-- PBI_SCnnn_MATCH0: destination MAC, octets 3–6 (R152). -/
abbrev PBI_SC_MATCH0 (n : Nat) : Nat := 0x42004 + n * 0x40
def PBI_SC_MATCH0_MAC_LO (n : Nat) : Fld := ⟨PBI_SC_MATCH0 n, 0, 32⟩

/-- PBI_SCnnn_MATCH1: destination MAC octets 1–2 and APPID (R152). -/
abbrev PBI_SC_MATCH1 (n : Nat) : Nat := 0x42008 + n * 0x40
def PBI_SC_MATCH1_MAC_HI (n : Nat) : Fld := ⟨PBI_SC_MATCH1 n, 0, 16⟩
def PBI_SC_MATCH1_APPID (n : Nat) : Fld := ⟨PBI_SC_MATCH1 n, 16, 16⟩

/-- PBI_SCnnn_CONFREV: expected confRev (R152). -/
abbrev PBI_SC_CONFREV (n : Nat) : Nat := 0x4200c + n * 0x40
def PBI_SC_CONFREV_CONFREV (n : Nat) : Fld := ⟨PBI_SC_CONFREV n, 0, 32⟩

/-- PBI_SCnnn_STAT: stream context status (R152). -/
abbrev PBI_SC_STAT (n : Nat) : Nat := 0x42010 + n * 0x40
def PBI_SC_STAT_STATE (n : Nat) : Fld := ⟨PBI_SC_STAT n, 0, 2⟩
def PBI_SC_STAT_UNSYNC (n : Nat) : Fld := ⟨PBI_SC_STAT n, 2, 1⟩
def PBI_SC_STAT_TEST (n : Nat) : Fld := ⟨PBI_SC_STAT n, 3, 1⟩
def PBI_SC_STAT_GOOD_RUN (n : Nat) : Fld := ⟨PBI_SC_STAT n, 4, 3⟩
def PBI_SC_STAT_SMPCNT (n : Nat) : Fld := ⟨PBI_SC_STAT n, 16, 16⟩

/-- PBI_SCnnn_CNT0: substitution counters (R152). -/
abbrev PBI_SC_CNT0 (n : Nat) : Nat := 0x42014 + n * 0x40
def PBI_SC_CNT0_SUBST (n : Nat) : Fld := ⟨PBI_SC_CNT0 n, 0, 16⟩
def PBI_SC_CNT0_INV_EP (n : Nat) : Fld := ⟨PBI_SC_CNT0 n, 16, 16⟩

/-- PBI_SCnnn_CNT1: refusal counters (R152). -/
abbrev PBI_SC_CNT1 (n : Nat) : Nat := 0x42018 + n * 0x40
def PBI_SC_CNT1_LATE (n : Nat) : Fld := ⟨PBI_SC_CNT1 n, 0, 16⟩
def PBI_SC_CNT1_RULE (n : Nat) : Fld := ⟨PBI_SC_CNT1 n, 16, 16⟩

/-- PBI_GSnn_CFG: subscription configuration (R152). -/
abbrev PBI_GS_CFG (n : Nat) : Nat := 0x46000 + n * 0x40
def PBI_GS_CFG_EN (n : Nat) : Fld := ⟨PBI_GS_CFG n, 0, 1⟩
def PBI_GS_CFG_HA (n : Nat) : Fld := ⟨PBI_GS_CFG n, 1, 1⟩
def PBI_GS_CFG_STALE_ACT (n : Nat) : Fld := ⟨PBI_GS_CFG n, 2, 1⟩
def PBI_GS_CFG_EDITION (n : Nat) : Fld := ⟨PBI_GS_CFG n, 3, 1⟩
def PBI_GS_CFG_SIM (n : Nat) : Fld := ⟨PBI_GS_CFG n, 4, 1⟩
def PBI_GS_CFG_NMEMB (n : Nat) : Fld := ⟨PBI_GS_CFG n, 5, 7⟩

/-- PBI_GSnn_MATCH0: destination MAC, octets 3–6 (R152). -/
abbrev PBI_GS_MATCH0 (n : Nat) : Nat := 0x46004 + n * 0x40
def PBI_GS_MATCH0_MAC_LO (n : Nat) : Fld := ⟨PBI_GS_MATCH0 n, 0, 32⟩

/-- PBI_GSnn_MATCH1: destination MAC octets 1–2 and APPID (R152). -/
abbrev PBI_GS_MATCH1 (n : Nat) : Nat := 0x46008 + n * 0x40
def PBI_GS_MATCH1_MAC_HI (n : Nat) : Fld := ⟨PBI_GS_MATCH1 n, 0, 16⟩
def PBI_GS_MATCH1_APPID (n : Nat) : Fld := ⟨PBI_GS_MATCH1 n, 16, 16⟩

/-- PBI_GSnn_CONFREV: expected confRev (R152). -/
abbrev PBI_GS_CONFREV (n : Nat) : Nat := 0x4600c + n * 0x40
def PBI_GS_CONFREV_CONFREV (n : Nat) : Fld := ⟨PBI_GS_CONFREV n, 0, 32⟩

/-- PBI_GSnn_STAT: subscription status (R152). -/
abbrev PBI_GS_STAT (n : Nat) : Nat := 0x46010 + n * 0x40
def PBI_GS_STAT_STATE (n : Nat) : Fld := ⟨PBI_GS_STAT n, 0, 2⟩
def PBI_GS_STAT_TEST (n : Nat) : Fld := ⟨PBI_GS_STAT n, 2, 1⟩
def PBI_GS_STAT_NDSCOM (n : Nat) : Fld := ⟨PBI_GS_STAT n, 3, 1⟩
def PBI_GS_STAT_CONFIG_ERR (n : Nat) : Fld := ⟨PBI_GS_STAT n, 4, 1⟩

/-- PBI_GSnn_SQNUM: last sqNum (R152). -/
abbrev PBI_GS_SQNUM (n : Nat) : Nat := 0x46018 + n * 0x40
def PBI_GS_SQNUM_SQNUM (n : Nat) : Fld := ⟨PBI_GS_SQNUM n, 0, 32⟩

/-- PBI_GSnn_STNUM: last stNum (R152). -/
abbrev PBI_GS_STNUM (n : Nat) : Nat := 0x4601c + n * 0x40
def PBI_GS_STNUM_STNUM (n : Nat) : Fld := ⟨PBI_GS_STNUM n, 0, 32⟩

/-- PBI_GSnn_CNT: subscription counters (R152). -/
abbrev PBI_GS_CNT (n : Nat) : Nat := 0x46020 + n * 0x40
def PBI_GS_CNT_STNUM_GAP (n : Nat) : Fld := ⟨PBI_GS_CNT n, 0, 8⟩
def PBI_GS_CNT_SQ_ERR (n : Nat) : Fld := ⟨PBI_GS_CNT n, 8, 8⟩
def PBI_GS_CNT_RULE (n : Nat) : Fld := ⟨PBI_GS_CNT n, 16, 8⟩
def PBI_GS_CNT_REPLACED (n : Nat) : Fld := ⟨PBI_GS_CNT n, 24, 8⟩

/-- NIB_NEe_STAT: engine status (R189). -/
abbrev NIB_NE_STAT (e : Nat) : Nat := 0x80000 + e * 0x40
def NIB_NE_STAT_BUSY (e : Nat) : Fld := ⟨NIB_NE_STAT e, 0, 1⟩
def NIB_NE_STAT_UTIL (e : Nat) : Fld := ⟨NIB_NE_STAT e, 1, 10⟩
def NIB_NE_STAT_QPEAK (e : Nat) : Fld := ⟨NIB_NE_STAT e, 16, 9⟩

/-- NIB_NEe_EVAL: evaluation count (R189). -/
abbrev NIB_NE_EVAL (e : Nat) : Nat := 0x80004 + e * 0x40
def NIB_NE_EVAL_EVAL (e : Nat) : Fld := ⟨NIB_NE_EVAL e, 0, 32⟩

/-- NIB_NEe_TMAX: longest engine term (R189). -/
abbrev NIB_NE_TMAX (e : Nat) : Nat := 0x80008 + e * 0x40
def NIB_NE_TMAX_TMAX (e : Nat) : Fld := ⟨NIB_NE_TMAX e, 0, 16⟩
def NIB_NE_TMAX_CLASS (e : Nat) : Fld := ⟨NIB_NE_TMAX e, 16, 3⟩

/-- NIB_NCnnn_CTRL: context state (R189). -/
abbrev NIB_NC_CTRL (n : Nat) : Nat := 0x81000 + n * 0x80
def NIB_NC_CTRL_TYPE (n : Nat) : Fld := ⟨NIB_NC_CTRL n, 0, 8⟩
def NIB_NC_CTRL_SVC (n : Nat) : Fld := ⟨NIB_NC_CTRL n, 8, 2⟩
def NIB_NC_CTRL_HA (n : Nat) : Fld := ⟨NIB_NC_CTRL n, 10, 1⟩
def NIB_NC_CTRL_FILLING (n : Nat) : Fld := ⟨NIB_NC_CTRL n, 11, 1⟩
def NIB_NC_CTRL_FB (n : Nat) : Fld := ⟨NIB_NC_CTRL n, 12, 1⟩
def NIB_NC_CTRL_FALLBACK (n : Nat) : Fld := ⟨NIB_NC_CTRL n, 13, 2⟩

/-- NIB_NCnnn_OUT: output words (R189). -/
abbrev NIB_NC_OUT (n : Nat) : Nat := 0x81004 + n * 0x80
def NIB_NC_OUT_OUT (n : Nat) : Fld := ⟨NIB_NC_OUT n, 0, 8⟩
def NIB_NC_OUT_HWOUT (n : Nat) : Fld := ⟨NIB_NC_OUT n, 8, 8⟩
def NIB_NC_OUT_QSUM (n : Nat) : Fld := ⟨NIB_NC_OUT n, 16, 8⟩

/-- NIB_NCnnn_CNT0: input and fault counters (R189). -/
abbrev NIB_NC_CNT0 (n : Nat) : Nat := 0x81008 + n * 0x80
def NIB_NC_CNT0_ALIGN_MISS (n : Nat) : Fld := ⟨NIB_NC_CNT0 n, 0, 16⟩
def NIB_NC_CNT0_FLT_CNT (n : Nat) : Fld := ⟨NIB_NC_CNT0 n, 16, 16⟩

/-- NIB_NCnnn_CNT1: host-assisted counters (R189). -/
abbrev NIB_NC_CNT1 (n : Nat) : Nat := 0x8100c + n * 0x80
def NIB_NC_CNT1_HA_LATE (n : Nat) : Fld := ⟨NIB_NC_CNT1 n, 0, 16⟩
def NIB_NC_CNT1_HA_FB (n : Nat) : Fld := ⟨NIB_NC_CNT1 n, 16, 8⟩
def NIB_NC_CNT1_HA_SKIP (n : Nat) : Fld := ⟨NIB_NC_CNT1 n, 24, 8⟩

/-- NIB_NCnnn_RSEQ: record number (R189). -/
abbrev NIB_NC_RSEQ (n : Nat) : Nat := 0x81010 + n * 0x80
def NIB_NC_RSEQ_RSEQ (n : Nat) : Fld := ⟨NIB_NC_RSEQ n, 0, 32⟩

/-- NIB_NCnnn_MEAS: measurement block (R189). -/
abbrev NIB_NC_MEAS (n : Nat) (w : Nat) : Nat := 0x81040 + n * 0x80 + w * 0x4
def NIB_NC_MEAS_WORD (n : Nat) (w : Nat) : Fld := ⟨NIB_NC_MEAS n w, 0, 32⟩

/-- STK_STAT: output summary (R282). -/
abbrev STK_STAT : Nat := 0xc0000
def STK_STAT_ASSERTED : Fld := ⟨STK_STAT, 0, 16⟩
def STK_STAT_PRE : Fld := ⟨STK_STAT, 16, 16⟩

/-- STK_FLT: feedback faults (R282). -/
abbrev STK_FLT : Nat := 0xc0004
def STK_FLT_FB_NORISE : Fld := ⟨STK_FLT, 0, 16⟩
def STK_FLT_FB_REST : Fld := ⟨STK_FLT, 16, 16⟩

/-- STK_RESET: latch reset (R282). -/
abbrev STK_RESET : Nat := 0xc0008
def STK_RESET_RST : Fld := ⟨STK_RESET, 0, 16⟩

/-- STK_TESTST: test status (R282). -/
abbrev STK_TESTST : Nat := 0xc000c
def STK_TESTST_TPULSE : Fld := ⟨STK_TESTST, 0, 16⟩
def STK_TESTST_TESTDRV : Fld := ⟨STK_TESTST, 16, 16⟩

/-- STK_UPD: matrix updates (R282). -/
abbrev STK_UPD : Nat := 0xc0010
def STK_UPD_UPD : Fld := ⟨STK_UPD, 0, 32⟩

/-- STK_PUBCNT: publication counter (R282). -/
abbrev STK_PUBCNT : Nat := 0xc0014
def STK_PUBCNT_PUB_STRETCH : Fld := ⟨STK_PUBCNT, 0, 16⟩

/-- STK_SOnn_CFG: output configuration (R282). -/
abbrev STK_SO_CFG (n : Nat) : Nat := 0xc1000 + n * 0x80
def STK_SO_CFG_EN (n : Nat) : Fld := ⟨STK_SO_CFG n, 0, 1⟩
def STK_SO_CFG_ARMSRC (n : Nat) : Fld := ⟨STK_SO_CFG n, 1, 2⟩
def STK_SO_CFG_ARMIDX (n : Nat) : Fld := ⟨STK_SO_CFG n, 3, 7⟩
def STK_SO_CFG_SUPSRC (n : Nat) : Fld := ⟨STK_SO_CFG n, 10, 2⟩
def STK_SO_CFG_SUPIDX (n : Nat) : Fld := ⟨STK_SO_CFG n, 12, 7⟩
def STK_SO_CFG_LATCH (n : Nat) : Fld := ⟨STK_SO_CFG n, 19, 2⟩
def STK_SO_CFG_TACC (n : Nat) : Fld := ⟨STK_SO_CFG n, 21, 1⟩
def STK_SO_CFG_FBEN (n : Nat) : Fld := ⟨STK_SO_CFG n, 22, 1⟩
def STK_SO_CFG_RSTEN (n : Nat) : Fld := ⟨STK_SO_CFG n, 23, 1⟩
def STK_SO_CFG_RSTIDX (n : Nat) : Fld := ⟨STK_SO_CFG n, 24, 7⟩

/-- STK_SOnn_TMIN: seal-in times (R282). -/
abbrev STK_SO_TMIN (n : Nat) : Nat := 0xc1004 + n * 0x80
def STK_SO_TMIN_TMIN (n : Nat) : Fld := ⟨STK_SO_TMIN n, 0, 11⟩
def STK_SO_TMIN_CGMAX (n : Nat) : Fld := ⟨STK_SO_TMIN n, 16, 14⟩

/-- STK_SOnn_STAT: output status (R282). -/
abbrev STK_SO_STAT (n : Nat) : Nat := 0xc1008 + n * 0x80
def STK_SO_STAT_ASSERTED (n : Nat) : Fld := ⟨STK_SO_STAT n, 0, 1⟩
def STK_SO_STAT_PRE (n : Nat) : Fld := ⟨STK_SO_STAT n, 1, 1⟩
def STK_SO_STAT_ARM (n : Nat) : Fld := ⟨STK_SO_STAT n, 2, 1⟩
def STK_SO_STAT_SUP (n : Nat) : Fld := ⟨STK_SO_STAT n, 3, 1⟩
def STK_SO_STAT_LATCHED (n : Nat) : Fld := ⟨STK_SO_STAT n, 4, 1⟩
def STK_SO_STAT_FB (n : Nat) : Fld := ⟨STK_SO_STAT n, 5, 1⟩
def STK_SO_STAT_TESTDRV (n : Nat) : Fld := ⟨STK_SO_STAT n, 6, 1⟩
def STK_SO_STAT_TPULSE (n : Nat) : Fld := ⟨STK_SO_STAT n, 7, 1⟩
def STK_SO_STAT_FIRST (n : Nat) : Fld := ⟨STK_SO_STAT n, 16, 10⟩

/-- STK_SOnn_CNT: output counters (R282). -/
abbrev STK_SO_CNT (n : Nat) : Nat := 0xc100c + n * 0x80
def STK_SO_CNT_ASSERTS (n : Nat) : Fld := ⟨STK_SO_CNT n, 0, 16⟩
def STK_SO_CNT_FB_FLT (n : Nat) : Fld := ⟨STK_SO_CNT n, 16, 8⟩
def STK_SO_CNT_CGTO (n : Nat) : Fld := ⟨STK_SO_CNT n, 24, 8⟩

/-- STK_SOnn_TSTART_LO: assertion start, low word (R282). -/
abbrev STK_SO_TSTART_LO (n : Nat) : Nat := 0xc1010 + n * 0x80
def STK_SO_TSTART_LO_TS_LO (n : Nat) : Fld := ⟨STK_SO_TSTART_LO n, 0, 32⟩

/-- STK_SOnn_TSTART_HI: assertion start, high word (R282). -/
abbrev STK_SO_TSTART_HI (n : Nat) : Nat := 0xc1014 + n * 0x80
def STK_SO_TSTART_HI_TS_HI (n : Nat) : Fld := ⟨STK_SO_TSTART_HI n, 0, 32⟩

/-- STK_SOnn_MASKw: matrix mask (R282). -/
abbrev STK_SO_MASK (n : Nat) (w : Nat) : Nat := 0xc1040 + n * 0x80 + w * 0x4
def STK_SO_MASK_MASK (n : Nat) (w : Nat) : Fld := ⟨STK_SO_MASK n w, 0, 32⟩

/-- STK_DLTX: Ductus transmit sources (R282). -/
abbrev STK_DLTX (i : Nat) : Nat := 0xc2000 + i * 0x4
def STK_DLTX_SRC (i : Nat) : Fld := ⟨STK_DLTX i, 0, 10⟩

/-- STK_PSsss: publish slot sources (R282). -/
abbrev STK_PS (i : Nat) : Nat := 0xc2100 + i * 0x4
def STK_PS_SRC (i : Nat) : Fld := ⟨STK_PS i, 0, 10⟩

/-- QIL_STAT: engine status (R322). -/
abbrev QIL_STAT : Nat := 0xd0000
def QIL_STAT_BANK : Fld := ⟨QIL_STAT, 0, 1⟩
def QIL_STAT_LOAD_VALID : Fld := ⟨QIL_STAT, 1, 1⟩
def QIL_STAT_PERTASK : Fld := ⟨QIL_STAT, 2, 1⟩
def QIL_STAT_SW_PEND : Fld := ⟨QIL_STAT, 3, 1⟩
def QIL_STAT_LOAD_BUSY : Fld := ⟨QIL_STAT, 4, 1⟩
def QIL_STAT_NFORCE : Fld := ⟨QIL_STAT, 5, 9⟩

/-- QIL_PROG_ACT: active program ID (R322). -/
abbrev QIL_PROG_ACT : Nat := 0xd0004
def QIL_PROG_ACT_ID : Fld := ⟨QIL_PROG_ACT, 0, 32⟩

/-- QIL_PROG_INACT: inactive program ID (R322). -/
abbrev QIL_PROG_INACT : Nat := 0xd0008
def QIL_PROG_INACT_ID : Fld := ⟨QIL_PROG_INACT, 0, 32⟩

/-- QIL_Tn_CFG: task configuration (R322). -/
abbrev QIL_T_CFG (t : Nat) : Nat := 0xd0100 + t * 0x20
def QIL_T_CFG_PERIOD (t : Nat) : Fld := ⟨QIL_T_CFG t, 0, 18⟩
def QIL_T_CFG_HA (t : Nat) : Fld := ⟨QIL_T_CFG t, 18, 1⟩

/-- QIL_Tn_PHASE: task phase (R322). -/
abbrev QIL_T_PHASE (t : Nat) : Nat := 0xd0104 + t * 0x20
def QIL_T_PHASE_PHASE (t : Nat) : Fld := ⟨QIL_T_PHASE t, 0, 18⟩

/-- QIL_Tn_STAT: task status (R322). -/
abbrev QIL_T_STAT (t : Nat) : Nat := 0xd0108 + t * 0x20
def QIL_T_STAT_STATE (t : Nat) : Fld := ⟨QIL_T_STAT t, 0, 3⟩
def QIL_T_STAT_BANK (t : Nat) : Fld := ⟨QIL_T_STAT t, 3, 1⟩
def QIL_T_STAT_SW_PEND (t : Nat) : Fld := ⟨QIL_T_STAT t, 4, 1⟩
def QIL_T_STAT_HA_TO (t : Nat) : Fld := ⟨QIL_T_STAT t, 5, 1⟩

/-- QIL_Tn_CNT: task counters (R322). -/
abbrev QIL_T_CNT (t : Nat) : Nat := 0xd010c + t * 0x20
def QIL_T_CNT_RUNS (t : Nat) : Fld := ⟨QIL_T_CNT t, 0, 16⟩
def QIL_T_CNT_OVERRUN (t : Nat) : Fld := ⟨QIL_T_CNT t, 16, 8⟩
def QIL_T_CNT_HA_REJ (t : Nat) : Fld := ⟨QIL_T_CNT t, 24, 8⟩

/-- QIL_Tn_RESP: longest response (R322). -/
abbrev QIL_T_RESP (t : Nat) : Nat := 0xd0110 + t * 0x20
def QIL_T_RESP_RESPMAX (t : Nat) : Fld := ⟨QIL_T_RESP t, 0, 32⟩

/-- QIL_Tn_FAULT: last fault (R322). -/
abbrev QIL_T_FAULT (t : Nat) : Nat := 0xd0114 + t * 0x20
def QIL_T_FAULT_CAUSE (t : Nat) : Fld := ⟨QIL_T_FAULT t, 0, 4⟩
def QIL_T_FAULT_PC (t : Nat) : Fld := ⟨QIL_T_FAULT t, 4, 18⟩

/-- QIL_Tn_HASEQ: host image sequence (R322). -/
abbrev QIL_T_HASEQ (t : Nat) : Nat := 0xd0118 + t * 0x20
def QIL_T_HASEQ_SEQ (t : Nat) : Fld := ⟨QIL_T_HASEQ t, 0, 32⟩

/-- QIL_SLOT_SEL: slot snapshot select (R322). -/
abbrev QIL_SLOT_SEL : Nat := 0xd0400
def QIL_SLOT_SEL_INDEX : Fld := ⟨QIL_SLOT_SEL, 0, 13⟩
def QIL_SLOT_SEL_KIND : Fld := ⟨QIL_SLOT_SEL, 13, 2⟩

/-- QIL_SLOT_ID: snapshot symbol (R322). -/
abbrev QIL_SLOT_ID : Nat := 0xd0404
def QIL_SLOT_ID_SYMID : Fld := ⟨QIL_SLOT_ID, 0, 32⟩

/-- QIL_SLOT_STATE: snapshot state (R322). -/
abbrev QIL_SLOT_STATE : Nat := 0xd0408
def QIL_SLOT_STATE_TYPE : Fld := ⟨QIL_SLOT_STATE, 0, 4⟩
def QIL_SLOT_STATE_RUN : Fld := ⟨QIL_SLOT_STATE, 4, 1⟩
def QIL_SLOT_STATE_Q : Fld := ⟨QIL_SLOT_STATE, 5, 1⟩
def QIL_SLOT_STATE_MEM : Fld := ⟨QIL_SLOT_STATE, 6, 1⟩
def QIL_SLOT_STATE_FRESH : Fld := ⟨QIL_SLOT_STATE, 7, 1⟩
def QIL_SLOT_STATE_CUM : Fld := ⟨QIL_SLOT_STATE, 8, 1⟩
def QIL_SLOT_STATE_CDM : Fld := ⟨QIL_SLOT_STATE, 9, 1⟩
def QIL_SLOT_STATE_TASK : Fld := ⟨QIL_SLOT_STATE, 10, 3⟩

/-- QIL_SLOT_Dk: snapshot data (R322). -/
abbrev QIL_SLOT_D (k : Nat) : Nat := 0xd040c + k * 0x4
def QIL_SLOT_D_DATA (k : Nat) : Fld := ⟨QIL_SLOT_D k, 0, 32⟩

/-- DUC_DLn_CFG: link configuration (R362). -/
abbrev DUC_DL_CFG (n : Nat) : Nat := 0xe0000 + n * 0x100
def DUC_DL_CFG_EN (n : Nat) : Fld := ⟨DUC_DL_CFG n, 0, 1⟩
def DUC_DL_CFG_MODE (n : Nat) : Fld := ⟨DUC_DL_CFG n, 1, 2⟩
def DUC_DL_CFG_MAXVER (n : Nat) : Fld := ⟨DUC_DL_CFG n, 3, 2⟩
def DUC_DL_CFG_END (n : Nat) : Fld := ⟨DUC_DL_CFG n, 5, 1⟩
def DUC_DL_CFG_N (n : Nat) : Fld := ⟨DUC_DL_CFG n, 6, 4⟩
def DUC_DL_CFG_LINKID (n : Nat) : Fld := ⟨DUC_DL_CFG n, 16, 16⟩

/-- DUC_DLn_TX: transmitted stream (R362). -/
abbrev DUC_DL_TX (n : Nat) : Nat := 0xe0004 + n * 0x100
def DUC_DL_TX_TXSC (n : Nat) : Fld := ⟨DUC_DL_TX n, 0, 8⟩
def DUC_DL_TX_NCH (n : Nat) : Fld := ⟨DUC_DL_TX n, 8, 4⟩
def DUC_DL_TX_TXEN (n : Nat) : Fld := ⟨DUC_DL_TX n, 12, 1⟩

/-- DUC_DLn_TXMAPk: channel map (R362). -/
abbrev DUC_DL_TXMAP (n : Nat) (k : Nat) : Nat := 0xe0008 + n * 0x100 + k * 0x4
def DUC_DL_TXMAP_CH0 (n : Nat) (k : Nat) : Fld := ⟨DUC_DL_TXMAP n k, 0, 5⟩
def DUC_DL_TXMAP_CH1 (n : Nat) (k : Nat) : Fld := ⟨DUC_DL_TXMAP n k, 8, 5⟩
def DUC_DL_TXMAP_CH2 (n : Nat) (k : Nat) : Fld := ⟨DUC_DL_TXMAP n k, 16, 5⟩
def DUC_DL_TXMAP_CH3 (n : Nat) (k : Nat) : Fld := ⟨DUC_DL_TXMAP n k, 24, 5⟩

/-- DUC_DLn_RX: link stream (R362). -/
abbrev DUC_DL_RX (n : Nat) : Nat := 0xe0010 + n * 0x100
def DUC_DL_RX_RXSC (n : Nat) : Fld := ⟨DUC_DL_RX n, 0, 8⟩
def DUC_DL_RX_RXEN (n : Nat) : Fld := ⟨DUC_DL_RX n, 8, 1⟩

/-- DUC_DLn_LOSS: loss values (R362). -/
abbrev DUC_DL_LOSS (n : Nat) : Nat := 0xe0014 + n * 0x100
def DUC_DL_LOSS_LOSSV (n : Nat) : Fld := ⟨DUC_DL_LOSS n, 0, 16⟩
def DUC_DL_LOSS_HOLD (n : Nat) : Fld := ⟨DUC_DL_LOSS n, 16, 16⟩

/-- DUC_DLn_DLY: delay settings (R362). -/
abbrev DUC_DL_DLY (n : Nat) : Nat := 0xe0018 + n * 0x100
def DUC_DL_DLY_DSTEP (n : Nat) : Fld := ⟨DUC_DL_DLY n, 0, 16⟩
def DUC_DL_DLY_DMTHR (n : Nat) : Fld := ⟨DUC_DL_DLY n, 16, 16⟩

/-- DUC_DLn_STAT: link status (R362). -/
abbrev DUC_DL_STAT (n : Nat) : Nat := 0xe0020 + n * 0x100
def DUC_DL_STAT_STATE (n : Nat) : Fld := ⟨DUC_DL_STAT n, 0, 3⟩
def DUC_DL_STAT_VER (n : Nat) : Fld := ⟨DUC_DL_STAT n, 3, 2⟩
def DUC_DL_STAT_DVALID (n : Nat) : Fld := ⟨DUC_DL_STAT n, 5, 1⟩
def DUC_DL_STAT_DMIS (n : Nat) : Fld := ⟨DUC_DL_STAT n, 6, 1⟩
def DUC_DL_STAT_REM_ASYM (n : Nat) : Fld := ⟨DUC_DL_STAT n, 7, 1⟩
def DUC_DL_STAT_REM_TQ (n : Nat) : Fld := ⟨DUC_DL_STAT n, 8, 2⟩
def DUC_DL_STAT_SETMIS (n : Nat) : Fld := ⟨DUC_DL_STAT n, 10, 1⟩
def DUC_DL_STAT_REM_YELLOW (n : Nat) : Fld := ⟨DUC_DL_STAT n, 11, 1⟩
def DUC_DL_STAT_NOSVC (n : Nat) : Fld := ⟨DUC_DL_STAT n, 12, 1⟩
def DUC_DL_STAT_RXCMD (n : Nat) : Fld := ⟨DUC_DL_STAT n, 16, 16⟩

/-- DUC_DLn_D: one-way delay (R362). -/
abbrev DUC_DL_D (n : Nat) : Nat := 0xe0024 + n * 0x100
def DUC_DL_D_D (n : Nat) : Fld := ⟨DUC_DL_D n, 0, 32⟩

/-- DUC_DLn_MIS: delay mismatch (R362). -/
abbrev DUC_DL_MIS (n : Nat) : Nat := 0xe0028 + n * 0x100
def DUC_DL_MIS_M (n : Nat) : Fld := ⟨DUC_DL_MIS n, 0, 32⟩

/-- DUC_DLn_CNT0: frame counters (R362). -/
abbrev DUC_DL_CNT0 (n : Nat) : Nat := 0xe0030 + n * 0x100
def DUC_DL_CNT0_CRC_ERR (n : Nat) : Fld := ⟨DUC_DL_CNT0 n, 0, 16⟩
def DUC_DL_CNT0_ID_ERR (n : Nat) : Fld := ⟨DUC_DL_CNT0 n, 16, 8⟩
def DUC_DL_CNT0_FMT_ERR (n : Nat) : Fld := ⟨DUC_DL_CNT0 n, 24, 8⟩

/-- DUC_DLn_CNT1: command and message counters (R362). -/
abbrev DUC_DL_CNT1 (n : Nat) : Nat := 0xe0034 + n * 0x100
def DUC_DL_CNT1_CMD_GAP (n : Nat) : Fld := ⟨DUC_DL_CNT1 n, 0, 8⟩
def DUC_DL_CNT1_CMD_MISS (n : Nat) : Fld := ⟨DUC_DL_CNT1 n, 8, 8⟩
def DUC_DL_CNT1_ARQ_TRIES (n : Nat) : Fld := ⟨DUC_DL_CNT1 n, 16, 8⟩
def DUC_DL_CNT1_MSG_LOST (n : Nat) : Fld := ⟨DUC_DL_CNT1 n, 24, 8⟩

/-- DUC_DLn_CNT2: link counters (R362). -/
abbrev DUC_DL_CNT2 (n : Nat) : Nat := 0xe0038 + n * 0x100
def DUC_DL_CNT2_LOST (n : Nat) : Fld := ⟨DUC_DL_CNT2 n, 0, 8⟩
def DUC_DL_CNT2_DEXCL (n : Nat) : Fld := ⟨DUC_DL_CNT2 n, 8, 8⟩
def DUC_DL_CNT2_RX_FULL (n : Nat) : Fld := ⟨DUC_DL_CNT2 n, 16, 8⟩
def DUC_DL_CNT2_TX_SKIP (n : Nat) : Fld := ⟨DUC_DL_CNT2 n, 24, 8⟩

/-- STN_PAIRp_CFG: pair configuration (R362). -/
abbrev STN_PAIR_CFG (p : Nat) : Nat := 0xf0000 + p * 0x10
def STN_PAIR_CFG_MODE (p : Nat) : Fld := ⟨STN_PAIR_CFG p, 0, 2⟩
def STN_PAIR_CFG_SUP_TX (p : Nat) : Fld := ⟨STN_PAIR_CFG p, 2, 1⟩
def STN_PAIR_CFG_HOSTSEL (p : Nat) : Fld := ⟨STN_PAIR_CFG p, 3, 2⟩

/-- STN_SBn_CFG: port configuration (R362). -/
abbrev STN_SB_CFG (n : Nat) : Nat := 0xf0100 + n * 0x40
def STN_SB_CFG_EN (n : Nat) : Fld := ⟨STN_SB_CFG n, 0, 1⟩
def STN_SB_CFG_IF (n : Nat) : Fld := ⟨STN_SB_CFG n, 1, 1⟩
def STN_SB_CFG_AN (n : Nat) : Fld := ⟨STN_SB_CFG n, 2, 1⟩

/-- STN_SBn_STAT: port status (R362). -/
abbrev STN_SB_STAT (n : Nat) : Nat := 0xf0104 + n * 0x40
def STN_SB_STAT_LINK (n : Nat) : Fld := ⟨STN_SB_STAT n, 0, 1⟩
def STN_SB_STAT_LOS (n : Nat) : Fld := ⟨STN_SB_STAT n, 1, 1⟩
def STN_SB_STAT_PCS_SYNC (n : Nat) : Fld := ⟨STN_SB_STAT n, 2, 1⟩
def STN_SB_STAT_AN_DONE (n : Nat) : Fld := ⟨STN_SB_STAT n, 3, 1⟩
def STN_SB_STAT_LINK_REFUSED (n : Nat) : Fld := ⟨STN_SB_STAT n, 4, 8⟩

/-- STN_SBn_CNT: port counters (R362). -/
abbrev STN_SB_CNT (n : Nat) (k : Nat) : Nat := 0xf0110 + n * 0x40 + k * 0x4
def STN_SB_CNT_COUNT (n : Nat) (k : Nat) : Fld := ⟨STN_SB_CNT n k, 0, 32⟩

/-- STN_GPgg_CFG: GOOSE publication (R362). -/
abbrev STN_GP_CFG (g : Nat) : Nat := 0xf1000 + g * 0x20
def STN_GP_CFG_EN (g : Nat) : Fld := ⟨STN_GP_CFG g, 0, 1⟩
def STN_GP_CFG_EDITION (g : Nat) : Fld := ⟨STN_GP_CFG g, 1, 1⟩
def STN_GP_CFG_PAIRS (g : Nat) : Fld := ⟨STN_GP_CFG g, 2, 2⟩
def STN_GP_CFG_NMEMB (g : Nat) : Fld := ⟨STN_GP_CFG g, 4, 7⟩
def STN_GP_CFG_TAGGED (g : Nat) : Fld := ⟨STN_GP_CFG g, 11, 1⟩
def STN_GP_CFG_PCP (g : Nat) : Fld := ⟨STN_GP_CFG g, 12, 3⟩
def STN_GP_CFG_VID (g : Nat) : Fld := ⟨STN_GP_CFG g, 16, 12⟩
def STN_GP_CFG_TALMULT (g : Nat) : Fld := ⟨STN_GP_CFG g, 28, 2⟩

/-- STN_GPgg_TIME: repetition (R362). -/
abbrev STN_GP_TIME (g : Nat) : Nat := 0xf1004 + g * 0x20
def STN_GP_TIME_TMIN (g : Nat) : Fld := ⟨STN_GP_TIME g, 0, 16⟩
def STN_GP_TIME_TMAX (g : Nat) : Fld := ⟨STN_GP_TIME g, 16, 16⟩

/-- STN_GPgg_SQNUM: last sqNum (R362). -/
abbrev STN_GP_SQNUM (g : Nat) : Nat := 0xf1008 + g * 0x20
def STN_GP_SQNUM_SQNUM (g : Nat) : Fld := ⟨STN_GP_SQNUM g, 0, 32⟩

/-- STN_GPgg_STNUM: last stNum (R362). -/
abbrev STN_GP_STNUM (g : Nat) : Nat := 0xf100c + g * 0x20
def STN_GP_STNUM_STNUM (g : Nat) : Fld := ⟨STN_GP_STNUM g, 0, 32⟩

/-- STN_GPgg_STAT: publication status (R362). -/
abbrev STN_GP_STAT (g : Nat) : Nat := 0xf1010 + g * 0x20
def STN_GP_STAT_PEND (g : Nat) : Fld := ⟨STN_GP_STAT g, 0, 1⟩
def STN_GP_STAT_TEST (g : Nat) : Fld := ⟨STN_GP_STAT g, 1, 1⟩
def STN_GP_STAT_STATES (g : Nat) : Fld := ⟨STN_GP_STAT g, 16, 16⟩

/-- STN_GPgg_MEMm: member map (R362). -/
abbrev STN_GP_MEM (g : Nat) (m : Nat) : Nat := 0xf2000 + g * 0x100 + m * 0x4
def STN_GP_MEM_KIND (g : Nat) (m : Nat) : Fld := ⟨STN_GP_MEM g m, 0, 2⟩
def STN_GP_MEM_INDEX (g : Nat) (m : Nat) : Fld := ⟨STN_GP_MEM g m, 2, 8⟩
def STN_GP_MEM_TYPE (g : Nat) (m : Nat) : Fld := ⟨STN_GP_MEM g m, 10, 3⟩
def STN_GP_MEM_NBITS (g : Nat) (m : Nat) : Fld := ⟨STN_GP_MEM g m, 13, 5⟩

/-- STN_SPs_CFG: SV publication (R362). -/
abbrev STN_SP_CFG (s : Nat) : Nat := 0xf4000 + s * 0x80
def STN_SP_CFG_EN (s : Nat) : Fld := ⟨STN_SP_CFG s, 0, 1⟩
def STN_SP_CFG_SRC (s : Nat) : Fld := ⟨STN_SP_CFG s, 1, 5⟩
def STN_SP_CFG_PAIRS (s : Nat) : Fld := ⟨STN_SP_CFG s, 6, 2⟩
def STN_SP_CFG_TAGGED (s : Nat) : Fld := ⟨STN_SP_CFG s, 8, 1⟩
def STN_SP_CFG_PCP (s : Nat) : Fld := ⟨STN_SP_CFG s, 9, 3⟩
def STN_SP_CFG_VID (s : Nat) : Fld := ⟨STN_SP_CFG s, 16, 12⟩

/-- STN_SPs_CNT: frames sent (R362). -/
abbrev STN_SP_CNT (s : Nat) : Nat := 0xf4004 + s * 0x80
def STN_SP_CNT_SENT (s : Nat) : Fld := ⟨STN_SP_CNT s, 0, 32⟩

/-- STN_SPs_KPUBc: channel scale (R362). -/
abbrev STN_SP_KPUB (s : Nat) (c : Nat) : Nat := 0xf4020 + s * 0x80 + c * 0x4
def STN_SP_KPUB_KPUB (s : Nat) (c : Nat) : Fld := ⟨STN_SP_KPUB s c, 0, 32⟩

/-- SCR_STAT: log status (R393). -/
abbrev SCR_STAT : Nat := 0x100000
def SCR_STAT_BLOTTED : Fld := ⟨SCR_STAT, 0, 1⟩
def SCR_STAT_BLOT_EARLY : Fld := ⟨SCR_STAT, 1, 1⟩
def SCR_STAT_MARGIN_FULL : Fld := ⟨SCR_STAT, 2, 1⟩
def SCR_STAT_MARGIN_FAIL : Fld := ⟨SCR_STAT, 3, 1⟩
def SCR_STAT_FREE : Fld := ⟨SCR_STAT, 4, 11⟩
def SCR_STAT_RETIRED : Fld := ⟨SCR_STAT, 15, 11⟩

/-- SCR_CFG: Blot time-out (R393). -/
abbrev SCR_CFG : Nat := 0x100004
def SCR_CFG_BLOT_TO : Fld := ⟨SCR_CFG, 0, 10⟩

/-- SCR_SEQ: last commit (R393). -/
abbrev SCR_SEQ : Nat := 0x100008
def SCR_SEQ_SEQ : Fld := ⟨SCR_SEQ, 0, 32⟩

/-- SCR_OLDEST: oldest kept record (R393). -/
abbrev SCR_OLDEST : Nat := 0x10000c
def SCR_OLDEST_SEQ : Fld := ⟨SCR_OLDEST, 0, 32⟩

/-- SCR_INTAKE: intake occupancy (R393). -/
abbrev SCR_INTAKE : Nat := 0x100010
def SCR_INTAKE_USED : Fld := ⟨SCR_INTAKE, 0, 9⟩
def SCR_INTAKE_PEAK : Fld := ⟨SCR_INTAKE, 9, 9⟩

/-- SCR_HOLD: holding area (R393). -/
abbrev SCR_HOLD : Nat := 0x100014
def SCR_HOLD_BYTES : Fld := ⟨SCR_HOLD, 0, 20⟩

/-- SCR_DROPs: drops by severity (R393). -/
abbrev SCR_DROP (k : Nat) : Nat := 0x100020 + k * 0x4
def SCR_DROP_DROP (k : Nat) : Fld := ⟨SCR_DROP k, 0, 32⟩

/-- SCR_REJ: refusals and start losses (R393). -/
abbrev SCR_REJ : Nat := 0x10003c
def SCR_REJ_LEN_REJ : Fld := ⟨SCR_REJ, 0, 16⟩
def SCR_REJ_LOST_START : Fld := ⟨SCR_REJ, 16, 16⟩

/-- SCR_RLccc: rate limit of code ccc (R393). -/
abbrev SCR_RL (c : Nat) : Nat := 0x101000 + c * 0x4
def SCR_RL_RATE (c : Nat) : Fld := ⟨SCR_RL c, 0, 16⟩
def SCR_RL_BURST (c : Nat) : Fld := ⟨SCR_RL c, 16, 8⟩
def SCR_RL_OFF (c : Nat) : Fld := ⟨SCR_RL c, 24, 1⟩

/-- SCR_SUPccc: suppressions of code ccc (R393). -/
abbrev SCR_SUP (c : Nat) : Nat := 0x102000 + c * 0x4
def SCR_SUP_SUPP (c : Nat) : Fld := ⟨SCR_SUP c, 0, 32⟩

/-- VEL_STAT: recorder status (R393). -/
abbrev VEL_STAT : Nat := 0x110000
def VEL_STAT_OPEN : Fld := ⟨VEL_STAT, 0, 16⟩
def VEL_STAT_EXPORT_BUSY : Fld := ⟨VEL_STAT, 16, 1⟩

/-- VEL_CFG: write time-out (R393). -/
abbrev VEL_CFG : Nat := 0x110004
def VEL_CFG_WTO : Fld := ⟨VEL_CFG, 0, 7⟩

/-- VEL_TRIG: host trigger (R393). -/
abbrev VEL_TRIG : Nat := 0x110008
def VEL_TRIG_FIRE : Fld := ⟨VEL_TRIG, 0, 16⟩

/-- VEL_LAST_ID: newest record (R393). -/
abbrev VEL_LAST_ID : Nat := 0x11000c
def VEL_LAST_ID_ID : Fld := ⟨VEL_LAST_ID, 0, 32⟩

/-- VEL_OLDEST_ID: oldest record (R393). -/
abbrev VEL_OLDEST_ID : Nat := 0x110010
def VEL_OLDEST_ID_ID : Fld := ⟨VEL_OLDEST_ID, 0, 32⟩

/-- VEL_SPACE: block usage (R393). -/
abbrev VEL_SPACE : Nat := 0x110014
def VEL_SPACE_FREE : Fld := ⟨VEL_SPACE, 0, 16⟩
def VEL_SPACE_LOCKED : Fld := ⟨VEL_SPACE, 16, 16⟩

/-- VEL_CNT: recorder counters (R393). -/
abbrev VEL_CNT : Nat := 0x110018
def VEL_CNT_WTO : Fld := ⟨VEL_CNT, 0, 8⟩
def VEL_CNT_SPACE : Fld := ⟨VEL_CNT, 8, 8⟩
def VEL_CNT_READ_ERR : Fld := ⟨VEL_CNT, 16, 8⟩
def VEL_CNT_TW_LATE : Fld := ⟨VEL_CNT, 24, 8⟩

/-- VEL_PRn_CFG: profile configuration (R393). -/
abbrev VEL_PR_CFG (n : Nat) : Nat := 0x111000 + n * 0x80
def VEL_PR_CFG_EN (n : Nat) : Fld := ⟨VEL_PR_CFG n, 0, 1⟩
def VEL_PR_CFG_RATE (n : Nat) : Fld := ⟨VEL_PR_CFG n, 1, 2⟩
def VEL_PR_CFG_RETRIG (n : Nat) : Fld := ⟨VEL_PR_CFG n, 3, 1⟩
def VEL_PR_CFG_NA (n : Nat) : Fld := ⟨VEL_PR_CFG n, 4, 9⟩
def VEL_PR_CFG_NB (n : Nat) : Fld := ⟨VEL_PR_CFG n, 13, 10⟩
def VEL_PR_CFG_NTRIG (n : Nat) : Fld := ⟨VEL_PR_CFG n, 23, 5⟩

/-- VEL_PRn_PRE: pre-trigger and hold-off (R393). -/
abbrev VEL_PR_PRE (n : Nat) : Nat := 0x111004 + n * 0x80
def VEL_PR_PRE_PRE (n : Nat) : Fld := ⟨VEL_PR_PRE n, 0, 16⟩
def VEL_PR_PRE_HOLDOFF (n : Nat) : Fld := ⟨VEL_PR_PRE n, 16, 16⟩

/-- VEL_PRn_POST: post-trigger and length limit (R393). -/
abbrev VEL_PR_POST (n : Nat) : Nat := 0x111008 + n * 0x80
def VEL_PR_POST_POST (n : Nat) : Fld := ⟨VEL_PR_POST n, 0, 16⟩
def VEL_PR_POST_MAXLEN (n : Nat) : Fld := ⟨VEL_PR_POST n, 16, 16⟩

/-- VEL_PRn_TW: TW windows (R393). -/
abbrev VEL_PR_TW (n : Nat) : Nat := 0x11100c + n * 0x80
def VEL_PR_TW_TWPRE (n : Nat) : Fld := ⟨VEL_PR_TW n, 0, 16⟩
def VEL_PR_TW_TWPOST (n : Nat) : Fld := ⟨VEL_PR_TW n, 16, 16⟩

/-- VEL_PRn_LANES: TW lanes (R393). -/
abbrev VEL_PR_LANES (n : Nat) : Nat := 0x111010 + n * 0x80
def VEL_PR_LANES_LANES (n : Nat) : Fld := ⟨VEL_PR_LANES n, 0, 16⟩

/-- VEL_PRn_STAT: profile status (R393). -/
abbrev VEL_PR_STAT (n : Nat) : Nat := 0x111014 + n * 0x80
def VEL_PR_STAT_CUR_ID (n : Nat) : Fld := ⟨VEL_PR_STAT n, 0, 32⟩

/-- VEL_PRn_CNT: profile counters (R393). -/
abbrev VEL_PR_CNT (n : Nat) : Nat := 0x111018 + n * 0x80
def VEL_PR_CNT_RECORDS (n : Nat) : Fld := ⟨VEL_PR_CNT n, 0, 16⟩
def VEL_PR_CNT_IGNORED (n : Nat) : Fld := ⟨VEL_PR_CNT n, 16, 8⟩

/-- VEL_PRn_TRIGk: trigger term (R393). -/
abbrev VEL_PR_TRIG (n : Nat) (k : Nat) : Nat := 0x111040 + n * 0x80 + k * 0x4
def VEL_PR_TRIG_KIND (n : Nat) (k : Nat) : Fld := ⟨VEL_PR_TRIG n k, 0, 4⟩
def VEL_PR_TRIG_INDEX (n : Nat) (k : Nat) : Fld := ⟨VEL_PR_TRIG n k, 4, 8⟩

/-- FIO_STAT: group summary (R417). -/
abbrev FIO_STAT : Nat := 0x120000
def FIO_STAT_SUPPLY : Fld := ⟨FIO_STAT, 0, 4⟩
def FIO_STAT_LOCKOUT : Fld := ⟨FIO_STAT, 4, 4⟩
def FIO_STAT_BLOCKED : Fld := ⟨FIO_STAT, 8, 4⟩
def FIO_STAT_WARN : Fld := ⟨FIO_STAT, 12, 4⟩
def FIO_STAT_KA : Fld := ⟨FIO_STAT, 16, 1⟩

/-- FIO_IN: input values (R417). -/
abbrev FIO_IN : Nat := 0x120004
def FIO_IN_IN : Fld := ⟨FIO_IN, 0, 32⟩

/-- FIO_INVAL: input validity (R417). -/
abbrev FIO_INVAL : Nat := 0x120008
def FIO_INVAL_INVALID : Fld := ⟨FIO_INVAL, 0, 32⟩

/-- FIO_OUT: commanded outputs (R417). -/
abbrev FIO_OUT : Nat := 0x12000c
def FIO_OUT_CMD : Fld := ⟨FIO_OUT, 0, 32⟩

/-- FIO_SAFE: safe states in force (R417). -/
abbrev FIO_SAFE : Nat := 0x120010
def FIO_SAFE_SAFE : Fld := ⟨FIO_SAFE, 0, 32⟩

/-- FIO_DIAGSUM: diagnostics summary (R417). -/
abbrev FIO_DIAGSUM : Nat := 0x120014
def FIO_DIAGSUM_ANY : Fld := ⟨FIO_DIAGSUM, 0, 32⟩

/-- FIO_Gg_CFG: group configuration (R417). -/
abbrev FIO_G_CFG (g : Nat) : Nat := 0x120100 + g * 0x20
def FIO_G_CFG_RSTBLK (g : Nat) : Fld := ⟨FIO_G_CFG g, 0, 1⟩
def FIO_G_CFG_ACKEN (g : Nat) : Fld := ⟨FIO_G_CFG g, 1, 1⟩
def FIO_G_CFG_ACKIDX (g : Nat) : Fld := ⟨FIO_G_CFG g, 2, 7⟩

/-- FIO_Gg_STAT: group status (R417). -/
abbrev FIO_G_STAT (g : Nat) : Nat := 0x120104 + g * 0x20
def FIO_G_STAT_STATE (g : Nat) : Fld := ⟨FIO_G_STAT g, 0, 3⟩
def FIO_G_STAT_FRESH (g : Nat) : Fld := ⟨FIO_G_STAT g, 3, 1⟩
def FIO_G_STAT_VSUP (g : Nat) : Fld := ⟨FIO_G_STAT g, 16, 16⟩

/-- FIO_Gg_ACK: acknowledge (R417). -/
abbrev FIO_G_ACK (g : Nat) : Nat := 0x120108 + g * 0x20
def FIO_G_ACK_ACK (g : Nat) : Fld := ⟨FIO_G_ACK g, 0, 1⟩

/-- FIO_Gg_CNT: group counters (R417). -/
abbrev FIO_G_CNT (g : Nat) : Nat := 0x12010c + g * 0x20
def FIO_G_CNT_WARN (g : Nat) : Fld := ⟨FIO_G_CNT g, 0, 8⟩
def FIO_G_CNT_LOCKOUT (g : Nat) : Fld := ⟨FIO_G_CNT g, 8, 8⟩
def FIO_G_CNT_NOSUPPLY (g : Nat) : Fld := ⟨FIO_G_CNT g, 16, 8⟩

/-- FIO_FCnn_CFG: channel configuration (R417). -/
abbrev FIO_FC_CFG (n : Nat) : Nat := 0x121000 + n * 0x20
def FIO_FC_CFG_MODE (n : Nat) : Fld := ⟨FIO_FC_CFG n, 0, 3⟩
def FIO_FC_CFG_SAFE (n : Nat) : Fld := ⟨FIO_FC_CFG n, 3, 2⟩
def FIO_FC_CFG_OLMODE (n : Nat) : Fld := ⟨FIO_FC_CFG n, 5, 1⟩
def FIO_FC_CFG_OWOFF (n : Nat) : Fld := ⟨FIO_FC_CFG n, 6, 1⟩
def FIO_FC_CFG_FILT (n : Nat) : Fld := ⟨FIO_FC_CFG n, 8, 8⟩
def FIO_FC_CFG_WDT (n : Nat) : Fld := ⟨FIO_FC_CFG n, 16, 8⟩

/-- FIO_FCnn_STAT: channel status (R417). -/
abbrev FIO_FC_STAT (n : Nat) : Nat := 0x121004 + n * 0x20
def FIO_FC_STAT_IN (n : Nat) : Fld := ⟨FIO_FC_STAT n, 0, 1⟩
def FIO_FC_STAT_CMD (n : Nat) : Fld := ⟨FIO_FC_STAT n, 1, 1⟩
def FIO_FC_STAT_SW (n : Nat) : Fld := ⟨FIO_FC_STAT n, 2, 1⟩
def FIO_FC_STAT_SAFE (n : Nat) : Fld := ⟨FIO_FC_STAT n, 3, 1⟩
def FIO_FC_STAT_TRIP (n : Nat) : Fld := ⟨FIO_FC_STAT n, 4, 1⟩
def FIO_FC_STAT_LATCHED (n : Nat) : Fld := ⟨FIO_FC_STAT n, 5, 1⟩
def FIO_FC_STAT_LINK (n : Nat) : Fld := ⟨FIO_FC_STAT n, 6, 1⟩
def FIO_FC_STAT_INHIBIT (n : Nat) : Fld := ⟨FIO_FC_STAT n, 7, 1⟩
def FIO_FC_STAT_QUAL (n : Nat) : Fld := ⟨FIO_FC_STAT n, 8, 8⟩
def FIO_FC_STAT_ILOAD (n : Nat) : Fld := ⟨FIO_FC_STAT n, 16, 16⟩

/-- FIO_FCnn_DIAG: channel diagnostics (R417). -/
abbrev FIO_FC_DIAG (n : Nat) : Nat := 0x121008 + n * 0x20
def FIO_FC_DIAG_STICKY (n : Nat) : Fld := ⟨FIO_FC_DIAG n, 0, 9⟩
def FIO_FC_DIAG_LIVE (n : Nat) : Fld := ⟨FIO_FC_DIAG n, 16, 7⟩

/-- FIO_FCnn_CTRL: host diagnostics control (R417). -/
abbrev FIO_FC_CTRL (n : Nat) : Nat := 0x12100c + n * 0x20
def FIO_FC_CTRL_RETRY (n : Nat) : Fld := ⟨FIO_FC_CTRL n, 0, 1⟩
def FIO_FC_CTRL_INHIBIT (n : Nat) : Fld := ⟨FIO_FC_CTRL n, 1, 1⟩

/-- FIO_FCnn_CNT: channel counters (R417). -/
abbrev FIO_FC_CNT (n : Nat) : Nat := 0x121010 + n * 0x20
def FIO_FC_CNT_TRIPS (n : Nat) : Fld := ⟨FIO_FC_CNT n, 0, 8⟩
def FIO_FC_CNT_RETRIES (n : Nat) : Fld := ⟨FIO_FC_CNT n, 8, 8⟩
def FIO_FC_CNT_WB (n : Nat) : Fld := ⟨FIO_FC_CNT n, 16, 8⟩
def FIO_FC_CNT_LINK_LOST (n : Nat) : Fld := ⟨FIO_FC_CNT n, 24, 8⟩

/-- SYS_ID: identity (R444). -/
abbrev SYS_ID : Nat := 0x0
def SYS_ID_STEP : Fld := ⟨SYS_ID, 0, 8⟩
def SYS_ID_VARIANT : Fld := ⟨SYS_ID, 8, 4⟩
def SYS_ID_PART : Fld := ⟨SYS_ID, 16, 16⟩

/-- SYS_UID_LO: device ID, low word (R444). -/
abbrev SYS_UID_LO : Nat := 0x4
def SYS_UID_LO_UID_LO : Fld := ⟨SYS_UID_LO, 0, 32⟩

/-- SYS_UID_HI: device ID, high word (R444). -/
abbrev SYS_UID_HI : Nat := 0x8
def SYS_UID_HI_UID_HI : Fld := ⟨SYS_UID_HI, 0, 32⟩

/-- SYS_STATE: operating state (R444). -/
abbrev SYS_STATE : Nat := 0xc
def SYS_STATE_STATE : Fld := ⟨SYS_STATE, 0, 3⟩
def SYS_STATE_STAGED : Fld := ⟨SYS_STATE, 3, 1⟩
def SYS_STATE_COMMIT_PEND : Fld := ⟨SYS_STATE, 4, 1⟩
def SYS_STATE_RESYNC : Fld := ⟨SYS_STATE, 5, 1⟩
def SYS_STATE_STG_SESS : Fld := ⟨SYS_STATE, 6, 4⟩
def SYS_STATE_TEST_SESS : Fld := ⟨SYS_STATE, 10, 4⟩

/-- SYS_START: last start (R444). -/
abbrev SYS_START : Nat := 0x10
def SYS_START_TYPE : Fld := ⟨SYS_START, 0, 3⟩
def SYS_START_BANK : Fld := ⟨SYS_START, 3, 1⟩
def SYS_START_CFAIL : Fld := ⟨SYS_START, 4, 3⟩
def SYS_START_WFAIL : Fld := ⟨SYS_START, 7, 3⟩
def SYS_START_CAUSE : Fld := ⟨SYS_START, 10, 4⟩
def SYS_START_VERIFY_SKIPPED : Fld := ⟨SYS_START, 14, 1⟩
def SYS_START_INTEG_KEPT : Fld := ⟨SYS_START, 15, 1⟩
def SYS_START_LIVE_LOST : Fld := ⟨SYS_START, 16, 1⟩

/-- SYS_HEALTH: sticky health bits (R444). -/
abbrev SYS_HEALTH : Nat := 0x14
def SYS_HEALTH_PACE : Fld := ⟨SYS_HEALTH, 0, 1⟩
def SYS_HEALTH_LOG : Fld := ⟨SYS_HEALTH, 1, 1⟩
def SYS_HEALTH_MEM_UE : Fld := ⟨SYS_HEALTH, 2, 1⟩
def SYS_HEALTH_OOS : Fld := ⟨SYS_HEALTH, 3, 1⟩
def SYS_HEALTH_WARM_WD : Fld := ⟨SYS_HEALTH, 4, 1⟩
def SYS_HEALTH_FALLBACK : Fld := ⟨SYS_HEALTH, 5, 1⟩
def SYS_HEALTH_LIVE_LOST : Fld := ⟨SYS_HEALTH, 6, 1⟩

/-- SYS_PACE: pace index (R444). -/
abbrev SYS_PACE : Nat := 0x18
def SYS_PACE_P : Fld := ⟨SYS_PACE, 0, 11⟩
def SYS_PACE_PMIN : Fld := ⟨SYS_PACE, 16, 11⟩

/-- SYS_PACE_ALARM: pace alarm (R444). -/
abbrev SYS_PACE_ALARM : Nat := 0x1c
def SYS_PACE_ALARM_ALARM : Fld := ⟨SYS_PACE_ALARM, 0, 1⟩
def SYS_PACE_ALARM_GOOD : Fld := ⟨SYS_PACE_ALARM, 8, 7⟩
def SYS_PACE_ALARM_ENTRIES : Fld := ⟨SYS_PACE_ALARM, 16, 16⟩

/-- SYS_CTRL: test control (R444). -/
abbrev SYS_CTRL : Nat := 0x20
def SYS_CTRL_TEST : Fld := ⟨SYS_CTRL, 0, 1⟩
def SYS_CTRL_TEST_TMO : Fld := ⟨SYS_CTRL, 1, 8⟩

/-- SYS_EPOCH: settings epoch (R444). -/
abbrev SYS_EPOCH : Nat := 0x24
def SYS_EPOCH_EPOCH : Fld := ⟨SYS_EPOCH, 0, 32⟩

/-- SYS_FOLIO_ID: loaded image (R444). -/
abbrev SYS_FOLIO_ID : Nat := 0x28
def SYS_FOLIO_ID_FOLIO_ID : Fld := ⟨SYS_FOLIO_ID, 0, 32⟩

/-- SYS_FLASH_SRC: image offset (R444). -/
abbrev SYS_FLASH_SRC : Nat := 0x30
def SYS_FLASH_SRC_SRC : Fld := ⟨SYS_FLASH_SRC, 0, 32⟩

/-- SYS_FLASH_LEN: image length (R444). -/
abbrev SYS_FLASH_LEN : Nat := 0x34
def SYS_FLASH_LEN_LEN : Fld := ⟨SYS_FLASH_LEN, 0, 25⟩

/-- SYS_FLASH_CTRL: bank programming (R444). -/
abbrev SYS_FLASH_CTRL : Nat := 0x38
def SYS_FLASH_CTRL_BANK : Fld := ⟨SYS_FLASH_CTRL, 0, 1⟩
def SYS_FLASH_CTRL_GO : Fld := ⟨SYS_FLASH_CTRL, 1, 1⟩
def SYS_FLASH_CTRL_BUSY : Fld := ⟨SYS_FLASH_CTRL, 2, 1⟩
def SYS_FLASH_CTRL_RESULT : Fld := ⟨SYS_FLASH_CTRL, 3, 3⟩
def SYS_FLASH_CTRL_CAUSE : Fld := ⟨SYS_FLASH_CTRL, 6, 4⟩

/-- SYS_RAILS: rail and temperature monitor (R519). -/
abbrev SYS_RAILS : Nat := 0x40
def SYS_RAILS_VDDIO_OK : Fld := ⟨SYS_RAILS, 0, 1⟩
def SYS_RAILS_VCORE_OK : Fld := ⟨SYS_RAILS, 1, 1⟩
def SYS_RAILS_VSER_OK : Fld := ⟨SYS_RAILS, 2, 1⟩
def SYS_RAILS_VLP_OK : Fld := ⟨SYS_RAILS, 3, 1⟩
def SYS_RAILS_VLPQ_OK : Fld := ⟨SYS_RAILS, 4, 1⟩
def SYS_RAILS_VAFE_OK : Fld := ⟨SYS_RAILS, 5, 1⟩
def SYS_RAILS_VAP_OK : Fld := ⟨SYS_RAILS, 6, 1⟩
def SYS_RAILS_VAN_OK : Fld := ⟨SYS_RAILS, 7, 1⟩
def SYS_RAILS_TJ : Fld := ⟨SYS_RAILS, 16, 8⟩
def SYS_RAILS_TJMAX : Fld := ⟨SYS_RAILS, 24, 8⟩

/-- HST_CFG: host configuration (R474). -/
abbrev HST_CFG : Nat := 0x130000
def HST_CFG_DIRECT_WR : Fld := ⟨HST_CFG, 0, 1⟩
def HST_CFG_SESS_TMO : Fld := ⟨HST_CFG, 8, 8⟩

/-- HST_STAT: interface status (R474). -/
abbrev HST_STAT : Nat := 0x130004
def HST_STAT_LINK : Fld := ⟨HST_STAT, 0, 1⟩
def HST_STAT_SPEED : Fld := ⟨HST_STAT, 1, 2⟩
def HST_STAT_WIDTH : Fld := ⟨HST_STAT, 3, 2⟩
def HST_STAT_MSIX : Fld := ⟨HST_STAT, 5, 1⟩
def HST_STAT_OPEN : Fld := ⟨HST_STAT, 6, 5⟩

/-- HST_BAR2_WIN: aperture base (R474). -/
abbrev HST_BAR2_WIN : Nat := 0x130008
def HST_BAR2_WIN_BASE : Fld := ⟨HST_BAR2_WIN, 20, 11⟩

/-- HST_RECBASE: record area base (R474). -/
abbrev HST_RECBASE : Nat := 0x13000c
def HST_RECBASE_ADDR : Fld := ⟨HST_RECBASE, 0, 32⟩

/-- HST_BULKBASE: host bulk region base (R474). -/
abbrev HST_BULKBASE : Nat := 0x130010
def HST_BULKBASE_ADDR : Fld := ⟨HST_BULKBASE, 0, 32⟩

/-- HST_BULKSIZE: host bulk region size (R474). -/
abbrev HST_BULKSIZE : Nat := 0x130014
def HST_BULKSIZE_SIZE : Fld := ⟨HST_BULKSIZE, 0, 32⟩

/-- HST_IRQ_PEND: pending causes (R474). -/
abbrev HST_IRQ_PEND : Nat := 0x130020
def HST_IRQ_PEND_PEND : Fld := ⟨HST_IRQ_PEND, 0, 32⟩

/-- HST_IRQ_EN: INT_N enables (R474). -/
abbrev HST_IRQ_EN : Nat := 0x130024
def HST_IRQ_EN_EN : Fld := ⟨HST_IRQ_EN, 0, 32⟩

/-- HST_LOGSEV: log interrupt level (R474). -/
abbrev HST_LOGSEV : Nat := 0x130028
def HST_LOGSEV_SEV : Fld := ⟨HST_LOGSEV, 0, 3⟩

/-- HST_FRING: frame ring indices (R474). -/
abbrev HST_FRING : Nat := 0x130030
def HST_FRING_PI : Fld := ⟨HST_FRING, 0, 16⟩
def HST_FRING_CI : Fld := ⟨HST_FRING, 16, 16⟩

/-- HST_STAMP_PI: stamp ring index (R474). -/
abbrev HST_STAMP_PI : Nat := 0x130034
def HST_STAMP_PI_PI : Fld := ⟨HST_STAMP_PI, 0, 16⟩

/-- HST_MRECe: outstanding measurement records (R474). -/
abbrev HST_MREC (e : Nat) : Nat := 0x130040 + e * 0x4
def HST_MREC_OUT (e : Nat) : Fld := ⟨HST_MREC e, 0, 16⟩

/-- HST_CNT: access counters (R474). -/
abbrev HST_CNT : Nat := 0x130080
def HST_CNT_BADACC : Fld := ⟨HST_CNT, 0, 8⟩
def HST_CNT_DIRECT_REJ : Fld := ⟨HST_CNT, 8, 8⟩
def HST_CNT_BAR2_WR : Fld := ⟨HST_CNT, 16, 8⟩
def HST_CNT_DB_ERR : Fld := ⟨HST_CNT, 24, 8⟩

/-- HST_PCIE_CNT: PCIe read counters (R474). -/
abbrev HST_PCIE_CNT : Nat := 0x130084
def HST_PCIE_CNT_CPL_TO : Fld := ⟨HST_PCIE_CNT, 0, 16⟩
def HST_PCIE_CNT_CPL_ERR : Fld := ⟨HST_PCIE_CNT, 16, 8⟩
def HST_PCIE_CNT_POISON : Fld := ⟨HST_PCIE_CNT, 24, 8⟩

/-- HST_SESSn_DB: command doorbell (R474). -/
abbrev HST_SESS_DB (n : Nat) : Nat := 0x131000 + n * 0x10
def HST_SESS_DB_TAIL (n : Nat) : Fld := ⟨HST_SESS_DB n, 0, 7⟩

/-- HST_SESSn_CQDB: completion doorbell (R474). -/
abbrev HST_SESS_CQDB (n : Nat) : Nat := 0x131004 + n * 0x10
def HST_SESS_CQDB_HEAD (n : Nat) : Fld := ⟨HST_SESS_CQDB n, 0, 7⟩

/-- HST_SESSn_STAT: session status (R474). -/
abbrev HST_SESS_STAT (n : Nat) : Nat := 0x131008 + n * 0x10
def HST_SESS_STAT_STATE (n : Nat) : Fld := ⟨HST_SESS_STAT n, 0, 2⟩
def HST_SESS_STAT_LEVEL (n : Nat) : Fld := ⟨HST_SESS_STAT n, 2, 2⟩
def HST_SESS_STAT_VER (n : Nat) : Fld := ⟨HST_SESS_STAT n, 4, 2⟩
def HST_SESS_STAT_IF (n : Nat) : Fld := ⟨HST_SESS_STAT n, 6, 1⟩
def HST_SESS_STAT_SQHEAD (n : Nat) : Fld := ⟨HST_SESS_STAT n, 7, 7⟩
def HST_SESS_STAT_INFLIGHT (n : Nat) : Fld := ⟨HST_SESS_STAT n, 14, 7⟩
def HST_SESS_STAT_CRED (n : Nat) : Fld := ⟨HST_SESS_STAT n, 21, 4⟩

/-- HST_SESSn_CNT: session counters (R474). -/
abbrev HST_SESS_CNT (n : Nat) : Nat := 0x13100c + n * 0x10
def HST_SESS_CNT_CMDS (n : Nat) : Fld := ⟨HST_SESS_CNT n, 0, 16⟩
def HST_SESS_CNT_TIMEOUTS (n : Nat) : Fld := ⟨HST_SESS_CNT n, 16, 8⟩
def HST_SESS_CNT_AUTH_FAIL (n : Nat) : Fld := ⟨HST_SESS_CNT n, 24, 8⟩

/-- SEA_STAT: Seal status (R488). -/
abbrev SEA_STAT : Nat := 0x140000
def SEA_STAT_OWN_WR : Fld := ⟨SEA_STAT, 0, 4⟩
def SEA_STAT_OWN_REV : Fld := ⟨SEA_STAT, 4, 4⟩
def SEA_STAT_VREV : Fld := ⟨SEA_STAT, 8, 2⟩
def SEA_STAT_UNOWNED : Fld := ⟨SEA_STAT, 10, 1⟩
def SEA_STAT_DBG : Fld := ⟨SEA_STAT, 11, 1⟩
def SEA_STAT_SIGN_BUSY : Fld := ⟨SEA_STAT, 12, 1⟩
def SEA_STAT_SIGQ : Fld := ⟨SEA_STAT, 13, 3⟩
def SEA_STAT_RNG_FAIL : Fld := ⟨SEA_STAT, 16, 1⟩

/-- SEA_ROMVER: ROM version (R488). -/
abbrev SEA_ROMVER : Nat := 0x140004
def SEA_ROMVER_ROMVER : Fld := ⟨SEA_ROMVER, 0, 32⟩

/-- SEA_OWNk_HASHw: owner key hash (R488). -/
abbrev SEA_OWN_HASH (k : Nat) (w : Nat) : Nat := 0x140100 + k * 0x20 + w * 0x4
def SEA_OWN_HASH_HASH (k : Nat) (w : Nat) : Fld := ⟨SEA_OWN_HASH k w, 0, 32⟩

/-- SEA_OWN_NEWw: hash to write (R488). -/
abbrev SEA_OWN_NEW (w : Nat) : Nat := 0x140200 + w * 0x4
def SEA_OWN_NEW_HASH (w : Nat) : Fld := ⟨SEA_OWN_NEW w, 0, 32⟩

/-- SEA_OWN_CTRL: owner slot programming (R488). -/
abbrev SEA_OWN_CTRL : Nat := 0x140220
def SEA_OWN_CTRL_SLOT : Fld := ⟨SEA_OWN_CTRL, 0, 2⟩
def SEA_OWN_CTRL_GO : Fld := ⟨SEA_OWN_CTRL, 2, 1⟩
def SEA_OWN_CTRL_REVOKE : Fld := ⟨SEA_OWN_CTRL, 3, 1⟩
def SEA_OWN_CTRL_BUSY : Fld := ⟨SEA_OWN_CTRL, 4, 1⟩
def SEA_OWN_CTRL_RESULT : Fld := ⟨SEA_OWN_CTRL, 5, 3⟩

/-- SEA_VREV: vendor root revocation (R488). -/
abbrev SEA_VREV : Nat := 0x140230
def SEA_VREV_REV0 : Fld := ⟨SEA_VREV, 0, 1⟩
def SEA_VREV_REV1 : Fld := ⟨SEA_VREV, 1, 1⟩

/-- SEA_RPT_INFO: report status (R488). -/
abbrev SEA_RPT_INFO : Nat := 0x140240
def SEA_RPT_INFO_LEN : Fld := ⟨SEA_RPT_INFO, 0, 16⟩
def SEA_RPT_INFO_RSEQ : Fld := ⟨SEA_RPT_INFO, 16, 16⟩

/-- SEA_DBG: debug unlock (R488). -/
abbrev SEA_DBG : Nat := 0x140250
def SEA_DBG_UNLOCKED : Fld := ⟨SEA_DBG, 0, 1⟩
def SEA_DBG_SIGNER : Fld := ⟨SEA_DBG, 1, 1⟩
def SEA_DBG_SCOPE : Fld := ⟨SEA_DBG, 2, 8⟩
def SEA_DBG_RELOCK : Fld := ⟨SEA_DBG, 10, 1⟩
def SEA_DBG_LEFT : Fld := ⟨SEA_DBG, 16, 11⟩

/-- SEA_CNT: Seal counters (R488). -/
abbrev SEA_CNT : Nat := 0x140260
def SEA_CNT_VFY_FAIL : Fld := ⟨SEA_CNT, 0, 8⟩
def SEA_CNT_BUSY_REJ : Fld := ⟨SEA_CNT, 8, 8⟩
def SEA_CNT_SIGNS : Fld := ⟨SEA_CNT, 16, 16⟩

/-- SEA_DEVPKw: device public key (R488). -/
abbrev SEA_DEVPK (w : Nat) : Nat := 0x141000 + w * 0x4
def SEA_DEVPK_PK (w : Nat) : Fld := ⟨SEA_DEVPK w, 0, 32⟩

/-- SEA_RPTw: attestation report (R488). -/
abbrev SEA_RPT (w : Nat) : Nat := 0x142000 + w * 0x4
def SEA_RPT_RPT (w : Nat) : Fld := ⟨SEA_RPT w, 0, 32⟩

/-- MEM_STAT: memory status (R503). -/
abbrev MEM_STAT : Nat := 0x150000
def MEM_STAT_SWEEP : Fld := ⟨MEM_STAT, 0, 1⟩
def MEM_STAT_SREGION : Fld := ⟨MEM_STAT, 1, 5⟩
def MEM_STAT_RPSOFT : Fld := ⟨MEM_STAT, 6, 7⟩
def MEM_STAT_RPFIELD : Fld := ⟨MEM_STAT, 13, 6⟩
def MEM_STAT_FUSE_BUSY : Fld := ⟨MEM_STAT, 19, 1⟩

/-- MEM_UE_INFO: last uncorrectable error (R503). -/
abbrev MEM_UE_INFO : Nat := 0x150004
def MEM_UE_INFO_REGION : Fld := ⟨MEM_UE_INFO, 0, 5⟩
def MEM_UE_INFO_CODE : Fld := ⟨MEM_UE_INFO, 5, 3⟩

/-- MEM_UE_ADDR: last uncorrectable address (R503). -/
abbrev MEM_UE_ADDR : Nat := 0x150008
def MEM_UE_ADDR_OFFSET : Fld := ⟨MEM_UE_ADDR, 0, 32⟩

/-- MEM_REGr_CNT: region counters (R503). -/
abbrev MEM_REG_CNT (r : Nat) : Nat := 0x150100 + r * 0x4
def MEM_REG_CNT_CE (r : Nat) : Fld := ⟨MEM_REG_CNT r, 0, 16⟩
def MEM_REG_CNT_UE (r : Nat) : Fld := ⟨MEM_REG_CNT r, 16, 8⟩

/-- MEM_REPk: soft repair (R503). -/
abbrev MEM_REP (k : Nat) : Nat := 0x150200 + k * 0x4
def MEM_REP_VALID (k : Nat) : Fld := ⟨MEM_REP k, 0, 1⟩
def MEM_REP_DRAM (k : Nat) : Fld := ⟨MEM_REP k, 1, 1⟩
def MEM_REP_BANK (k : Nat) : Fld := ⟨MEM_REP k, 2, 12⟩
def MEM_REP_ROW (k : Nat) : Fld := ⟨MEM_REP k, 14, 10⟩
def MEM_REP_SPARE (k : Nat) : Fld := ⟨MEM_REP k, 24, 3⟩

/-- MEM_FUSEk: field repair entry (R503). -/
abbrev MEM_FUSE (k : Nat) : Nat := 0x150300 + k * 0x4
def MEM_FUSE_USED (k : Nat) : Fld := ⟨MEM_FUSE k, 0, 1⟩
def MEM_FUSE_DRAM (k : Nat) : Fld := ⟨MEM_FUSE k, 1, 1⟩
def MEM_FUSE_BANK (k : Nat) : Fld := ⟨MEM_FUSE k, 2, 12⟩
def MEM_FUSE_ROW (k : Nat) : Fld := ⟨MEM_FUSE k, 14, 10⟩
def MEM_FUSE_SPARE (k : Nat) : Fld := ⟨MEM_FUSE k, 24, 3⟩
def MEM_FUSE_BAD (k : Nat) : Fld := ⟨MEM_FUSE k, 27, 1⟩

/-- DBG_STAT: Stylus status (R534). -/
abbrev DBG_STAT : Nat := 0x160000
def DBG_STAT_ACTIVE : Fld := ⟨DBG_STAT, 0, 1⟩
def DBG_STAT_UNLOCK : Fld := ⟨DBG_STAT, 1, 1⟩

/-- DBG_GRANT: in-service grant (R534). -/
abbrev DBG_GRANT : Nat := 0x160004
def DBG_GRANT_GRANT : Fld := ⟨DBG_GRANT, 0, 1⟩
def DBG_GRANT_SESS : Fld := ⟨DBG_GRANT, 1, 4⟩

/-- DBG_SELn: TEST pin selection (R534). -/
abbrev DBG_SEL (n : Nat) : Nat := 0x160010 + n * 0x4
def DBG_SEL_SEL (n : Nat) : Fld := ⟨DBG_SEL n, 0, 8⟩

/-- DBG_HCFG: extra health conditions (R534). -/
abbrev DBG_HCFG : Nat := 0x160020
def DBG_HCFG_PACE : Fld := ⟨DBG_HCFG, 0, 1⟩
def DBG_HCFG_OOS : Fld := ⟨DBG_HCFG, 1, 1⟩
def DBG_HCFG_MEM_UE : Fld := ⟨DBG_HCFG, 2, 1⟩

/-- DBG_HEALTH: HEALTH status (R534). -/
abbrev DBG_HEALTH : Nat := 0x160024
def DBG_HEALTH_TOGGLING : Fld := ⟨DBG_HEALTH, 0, 1⟩
def DBG_HEALTH_CAUSE : Fld := ⟨DBG_HEALTH, 1, 5⟩
def DBG_HEALTH_STOPS : Fld := ⟨DBG_HEALTH, 16, 16⟩

/-- DBG_BIST: SRAM self-test result (R534). -/
abbrev DBG_BIST : Nat := 0x160030
def DBG_BIST_DONE : Fld := ⟨DBG_BIST, 0, 1⟩
def DBG_BIST_PASS : Fld := ⟨DBG_BIST, 1, 1⟩
def DBG_BIST_REPAIRED : Fld := ⟨DBG_BIST, 2, 10⟩
def DBG_BIST_FAILBANK : Fld := ⟨DBG_BIST, 12, 7⟩

/-- DBG_BIST_TIME: step durations (R534). -/
abbrev DBG_BIST_TIME : Nat := 0x160034
def DBG_BIST_TIME_BIST : Fld := ⟨DBG_BIST_TIME, 0, 16⟩
def DBG_BIST_TIME_TRAIN : Fld := ⟨DBG_BIST_TIME, 16, 16⟩

/-- DBG_TRAIN: LPDDR4X training (R534). -/
abbrev DBG_TRAIN : Nat := 0x160038
def DBG_TRAIN_OK : Fld := ⟨DBG_TRAIN, 0, 1⟩
def DBG_TRAIN_FAILSTEP : Fld := ⟨DBG_TRAIN, 1, 3⟩

end Sys2Proof.Machine.Reg

namespace Sys2Proof.Machine

/-- Rows of block RUL: base, (stride, count) of each index, RW mask, RWP mask, RW1C mask cleared bit by bit, RW1C
fields cleared whole, mask of the fields a Folio or program image loads, reset word (R13, R15). -/
def regRowsRUL : List RegRow := [
  ⟨0x10000, [], 0x0, 0x0, 0x0, [], 0x0, 0x0⟩,
  ⟨0x10004, [], 0x0, 0x0, 0x0, [], 0x0, 0x0⟩,
  ⟨0x10008, [], 0x0, 0x0, 0x0, [], 0x0, 0x3⟩,
  ⟨0x1000c, [], 0x0, 0x0, 0x0, [], 0x0, 0x0⟩,
  ⟨0x10010, [], 0x0, 0x0, 0x0, [], 0x0, 0xc0000000⟩,
  ⟨0x10014, [], 0x0, 0x0, 0x0, [], 0x0, 0x0⟩,
  ⟨0x10018, [], 0x0, 0x0, 0x0, [], 0x0, 0x0⟩,
  ⟨0x10020, [], 0x0, 0x3f7, 0x0, [], 0x3f7, 0x0⟩,
  ⟨0x10024, [], 0x0, 0xfff, 0x0, [], 0xfff, 0x0⟩,
  ⟨0x10040, [(0x40, 2)], 0x0, 0x7ff, 0x0, [], 0xfff, 0x0⟩,
  ⟨0x10044, [(0x40, 2)], 0x0, 0xfffffff, 0x0, [], 0xfffffff, 0x0⟩,
  ⟨0x10048, [(0x40, 2)], 0x0, 0x0, 0x0, [], 0x0, 0x0⟩,
  ⟨0x1004c, [(0x40, 2)], 0x0, 0x0, 0x0, [], 0x0, 0x0⟩,
  ⟨0x10050, [(0x40, 2)], 0x0, 0x0, 0x0, [], 0x0, 0x0⟩,
  ⟨0x10054, [(0x40, 2)], 0x0, 0x0, 0x0, [], 0x0, 0x0⟩,
  ⟨0x10058, [(0x40, 2)], 0x0, 0xffffffff, 0x0, [], 0xffffffff, 0x0⟩,
  ⟨0x1005c, [(0x40, 2)], 0x0, 0xffffffff, 0x0, [], 0x0, 0x0⟩,
  ⟨0x10060, [(0x40, 2)], 0x0, 0xffffffff, 0x0, [], 0x0, 0x0⟩,
  ⟨0x10064, [(0x40, 2)], 0x0, 0x0, 0x0, [], 0x0, 0x0⟩,
  ⟨0x10068, [(0x40, 2)], 0x0, 0x0, 0x0, [(0, 8), (8, 8), (16, 8), (24, 8)], 0x0, 0x0⟩,
  ⟨0x100c0, [], 0x0, 0xffffff03, 0x0, [], 0xffffff03, 0x0⟩,
  ⟨0x100c4, [], 0x0, 0x7ff, 0x0, [], 0x7ff, 0x0⟩,
  ⟨0x100c8, [], 0x0, 0x0, 0x0, [], 0x0, 0x0⟩]

/-- Rows of block AFE: base, (stride, count) of each index, RW mask, RWP mask, RW1C mask cleared bit by bit, RW1C
fields cleared whole, mask of the fields a Folio or program image loads, reset word (R13, R15). -/
def regRowsAFE : List RegRow := [
  ⟨0x20000, [], 0x0, 0x0, 0xffffffff, [], 0x0, 0x0⟩,
  ⟨0x20004, [], 0x0, 0x0, 0xffffffff, [], 0x0, 0x0⟩,
  ⟨0x21000, [(0x200, 16)], 0x0, 0xffff0007, 0x0, [], 0xffff0007, 0x0⟩,
  ⟨0x21004, [(0x200, 16)], 0x0, 0x0, 0x0, [], 0x0, 0x0⟩,
  ⟨0x21008, [(0x200, 16)], 0x0, 0xfff, 0x0, [], 0xfff, 0x0⟩,
  ⟨0x2100c, [(0x200, 16)], 0x0, 0x0, 0x0, [], 0x0, 0x0⟩,
  ⟨0x21010, [(0x200, 16)], 0x0, 0x0, 0x0, [(0, 8), (8, 8), (16, 8)], 0x0, 0x0⟩,
  ⟨0x21014, [(0x200, 16)], 0x0, 0x0, 0x0, [], 0x0, 0x0⟩,
  ⟨0x21100, [(0x200, 16), (0x8, 16), (0x4, 2)], 0x0, 0xffffffff, 0x0, [], 0xffffffff, 0x0⟩,
  ⟨0x21180, [(0x200, 16), (0x8, 16), (0x4, 2)], 0x0, 0xffffffff, 0x0, [], 0xffffffff, 0x0⟩,
  ⟨0x23000, [(0x8, 64)], 0x0, 0xf, 0x0, [], 0xf, 0x0⟩,
  ⟨0x23004, [(0x8, 64)], 0x0, 0x3ff03ff, 0x0, [], 0x3ff03ff, 0x0⟩,
  ⟨0x24000, [(0x20, 16)], 0x0, 0x1ffff, 0x0, [], 0x1ffff, 0x0⟩,
  ⟨0x24004, [(0x20, 16)], 0x0, 0x3fffffff, 0x0, [], 0x3fffffff, 0x0⟩,
  ⟨0x24008, [(0x20, 16)], 0x0, 0xfffff, 0x0, [], 0xfffff, 0x0⟩,
  ⟨0x2400c, [(0x20, 16)], 0x0, 0x0, 0x0, [(16, 8), (24, 8)], 0x0, 0x0⟩]

/-- Rows of block PBI: base, (stride, count) of each index, RW mask, RWP mask, RW1C mask cleared bit by bit, RW1C
fields cleared whole, mask of the fields a Folio or program image loads, reset word (R13, R15). -/
def regRowsPBI : List RegRow := [
  ⟨0x40000, [(0x40, 24)], 0x0, 0x0, 0x0, [], 0x3ff, 0x0⟩,
  ⟨0x40004, [(0x40, 24)], 0x0, 0x0, 0x0, [(4, 8)], 0x0, 0x0⟩,
  ⟨0x40010, [(0x40, 24), (0x4, 12)], 0x0, 0x0, 0x0, [], 0x0, 0x0⟩,
  ⟨0x40800, [], 0x0, 0x0, 0x0, [(16, 16)], 0x0, 0x0⟩,
  ⟨0x40810, [], 0x8ffffff, 0x0, 0x0, [], 0x0, 0x0⟩,
  ⟨0x42000, [(0x40, 224)], 0x0, 0x0, 0x0, [], 0x3fff7fff, 0x0⟩,
  ⟨0x42004, [(0x40, 224)], 0x0, 0x0, 0x0, [], 0xffffffff, 0x0⟩,
  ⟨0x42008, [(0x40, 224)], 0x0, 0x0, 0x0, [], 0xffffffff, 0x0⟩,
  ⟨0x4200c, [(0x40, 224)], 0x0, 0x0, 0x0, [], 0xffffffff, 0x0⟩,
  ⟨0x42010, [(0x40, 224)], 0x0, 0x0, 0x0, [], 0x0, 0x0⟩,
  ⟨0x42014, [(0x40, 224)], 0x0, 0x0, 0x0, [], 0x0, 0x0⟩,
  ⟨0x42018, [(0x40, 224)], 0x0, 0x0, 0x0, [], 0x0, 0x0⟩,
  ⟨0x46000, [(0x40, 64)], 0x0, 0x0, 0x0, [], 0xfff, 0x0⟩,
  ⟨0x46004, [(0x40, 64)], 0x0, 0x0, 0x0, [], 0xffffffff, 0x0⟩,
  ⟨0x46008, [(0x40, 64)], 0x0, 0x0, 0x0, [], 0xffffffff, 0x0⟩,
  ⟨0x4600c, [(0x40, 64)], 0x0, 0x0, 0x0, [], 0xffffffff, 0x0⟩,
  ⟨0x46010, [(0x40, 64)], 0x0, 0x0, 0x0, [], 0x0, 0x0⟩,
  ⟨0x46018, [(0x40, 64)], 0x0, 0x0, 0x0, [], 0x0, 0x0⟩,
  ⟨0x4601c, [(0x40, 64)], 0x0, 0x0, 0x0, [], 0x0, 0x0⟩,
  ⟨0x46020, [(0x40, 64)], 0x0, 0x0, 0x0, [(0, 8), (8, 8), (16, 8), (24, 8)], 0x0, 0x0⟩]

/-- Rows of block NIB: base, (stride, count) of each index, RW mask, RWP mask, RW1C mask cleared bit by bit, RW1C
fields cleared whole, mask of the fields a Folio or program image loads, reset word (R13, R15). -/
def regRowsNIB : List RegRow := [
  ⟨0x80000, [(0x40, 16)], 0x0, 0x0, 0x0, [(16, 9)], 0x0, 0x0⟩,
  ⟨0x80004, [(0x40, 16)], 0x0, 0x0, 0x0, [], 0x0, 0x0⟩,
  ⟨0x80008, [(0x40, 16)], 0x0, 0x0, 0x0, [(0, 16), (16, 3)], 0x0, 0x0⟩,
  ⟨0x81000, [(0x80, 256)], 0x0, 0x0, 0x0, [], 0x67ff, 0x800⟩,
  ⟨0x81004, [(0x80, 256)], 0x0, 0x0, 0x0, [], 0x0, 0x0⟩,
  ⟨0x81008, [(0x80, 256)], 0x0, 0x0, 0x0, [(0, 16), (16, 16)], 0x0, 0x0⟩,
  ⟨0x8100c, [(0x80, 256)], 0x0, 0x0, 0x0, [(0, 16), (16, 8), (24, 8)], 0x0, 0x0⟩,
  ⟨0x81010, [(0x80, 256)], 0x0, 0x0, 0x0, [], 0x0, 0x0⟩,
  ⟨0x81040, [(0x80, 256), (0x4, 16)], 0x0, 0x0, 0x0, [], 0x0, 0x0⟩]

/-- Rows of block STK: base, (stride, count) of each index, RW mask, RWP mask, RW1C mask cleared bit by bit, RW1C
fields cleared whole, mask of the fields a Folio or program image loads, reset word (R13, R15). -/
def regRowsSTK : List RegRow := [
  ⟨0xc0000, [], 0x0, 0x0, 0x0, [], 0x0, 0x0⟩,
  ⟨0xc0004, [], 0x0, 0x0, 0xffffffff, [], 0x0, 0x0⟩,
  ⟨0xc0008, [], 0x0, 0x0, 0x0, [], 0x0, 0x0⟩,
  ⟨0xc000c, [], 0x0, 0x0, 0x0, [], 0x0, 0x0⟩,
  ⟨0xc0010, [], 0x0, 0x0, 0x0, [], 0x0, 0x0⟩,
  ⟨0xc0014, [], 0x0, 0x0, 0x0, [(0, 16)], 0x0, 0x0⟩,
  ⟨0xc1000, [(0x80, 16)], 0x0, 0x0, 0x0, [], 0x7fffffff, 0x0⟩,
  ⟨0xc1004, [(0x80, 16)], 0x0, 0x0, 0x0, [], 0x3fff07ff, 0x0⟩,
  ⟨0xc1008, [(0x80, 16)], 0x0, 0x0, 0x0, [], 0x0, 0x0⟩,
  ⟨0xc100c, [(0x80, 16)], 0x0, 0x0, 0x0, [(16, 8), (24, 8)], 0x0, 0x0⟩,
  ⟨0xc1010, [(0x80, 16)], 0x0, 0x0, 0x0, [], 0x0, 0x0⟩,
  ⟨0xc1014, [(0x80, 16)], 0x0, 0x0, 0x0, [], 0x0, 0x0⟩,
  ⟨0xc1040, [(0x80, 16), (0x4, 16)], 0x0, 0x0, 0x0, [], 0xffffffff, 0x0⟩,
  ⟨0xc2000, [(0x4, 64)], 0x0, 0x0, 0x0, [], 0x3ff, 0x0⟩,
  ⟨0xc2100, [(0x4, 256)], 0x0, 0x0, 0x0, [], 0x3ff, 0x0⟩]

/-- Rows of block QIL: base, (stride, count) of each index, RW mask, RWP mask, RW1C mask cleared bit by bit, RW1C
fields cleared whole, mask of the fields a Folio or program image loads, reset word (R13, R15). -/
def regRowsQIL : List RegRow := [
  ⟨0xd0000, [], 0x0, 0x0, 0x0, [], 0x0, 0x0⟩,
  ⟨0xd0004, [], 0x0, 0x0, 0x0, [], 0xffffffff, 0x0⟩,
  ⟨0xd0008, [], 0x0, 0x0, 0x0, [], 0x0, 0x0⟩,
  ⟨0xd0100, [(0x20, 8)], 0x0, 0x0, 0x0, [], 0x7ffff, 0x0⟩,
  ⟨0xd0104, [(0x20, 8)], 0x0, 0x0, 0x0, [], 0x3ffff, 0x0⟩,
  ⟨0xd0108, [(0x20, 8)], 0x0, 0x0, 0x0, [], 0x0, 0x0⟩,
  ⟨0xd010c, [(0x20, 8)], 0x0, 0x0, 0x0, [(16, 8), (24, 8)], 0x0, 0x0⟩,
  ⟨0xd0110, [(0x20, 8)], 0x0, 0x0, 0x0, [(0, 32)], 0x0, 0x0⟩,
  ⟨0xd0114, [(0x20, 8)], 0x0, 0x0, 0x0, [], 0x0, 0x0⟩,
  ⟨0xd0118, [(0x20, 8)], 0x0, 0x0, 0x0, [], 0x0, 0x0⟩,
  ⟨0xd0400, [], 0x7fff, 0x0, 0x0, [], 0x0, 0x0⟩,
  ⟨0xd0404, [], 0x0, 0x0, 0x0, [], 0x0, 0x0⟩,
  ⟨0xd0408, [], 0x0, 0x0, 0x0, [], 0x0, 0x0⟩,
  ⟨0xd040c, [(0x4, 6)], 0x0, 0x0, 0x0, [], 0x0, 0x0⟩]

/-- Rows of block DUC: base, (stride, count) of each index, RW mask, RWP mask, RW1C mask cleared bit by bit, RW1C
fields cleared whole, mask of the fields a Folio or program image loads, reset word (R13, R15). -/
def regRowsDUC : List RegRow := [
  ⟨0xe0000, [(0x100, 4)], 0x0, 0x0, 0x0, [], 0xffff03ff, 0x0⟩,
  ⟨0xe0004, [(0x100, 4)], 0x0, 0x0, 0x0, [], 0x1fff, 0x0⟩,
  ⟨0xe0008, [(0x100, 4), (0x4, 2)], 0x0, 0x0, 0x0, [], 0x1f1f1f1f, 0x0⟩,
  ⟨0xe0010, [(0x100, 4)], 0x0, 0x0, 0x0, [], 0x1ff, 0x0⟩,
  ⟨0xe0014, [(0x100, 4)], 0x0, 0x0, 0x0, [], 0xffffffff, 0x0⟩,
  ⟨0xe0018, [(0x100, 4)], 0x0, 0x0, 0x0, [], 0xffffffff, 0x0⟩,
  ⟨0xe0020, [(0x100, 4)], 0x0, 0x0, 0x0, [], 0x0, 0x300⟩,
  ⟨0xe0024, [(0x100, 4)], 0x0, 0x0, 0x0, [], 0x0, 0x0⟩,
  ⟨0xe0028, [(0x100, 4)], 0x0, 0x0, 0x0, [], 0x0, 0x0⟩,
  ⟨0xe0030, [(0x100, 4)], 0x0, 0x0, 0x0, [(16, 8), (24, 8)], 0x0, 0x0⟩,
  ⟨0xe0034, [(0x100, 4)], 0x0, 0x0, 0x0, [(0, 8), (8, 8), (16, 8), (24, 8)], 0x0, 0x0⟩,
  ⟨0xe0038, [(0x100, 4)], 0x0, 0x0, 0x0, [(0, 8), (8, 8), (16, 8), (24, 8)], 0x0, 0x0⟩]

/-- Rows of block STN: base, (stride, count) of each index, RW mask, RWP mask, RW1C mask cleared bit by bit, RW1C
fields cleared whole, mask of the fields a Folio or program image loads, reset word (R13, R15). -/
def regRowsSTN : List RegRow := [
  ⟨0xf0000, [(0x10, 2)], 0x0, 0x0, 0x0, [], 0x1f, 0x0⟩,
  ⟨0xf0100, [(0x40, 4)], 0x0, 0x0, 0x0, [], 0x7, 0x0⟩,
  ⟨0xf0104, [(0x40, 4)], 0x0, 0x0, 0x0, [(4, 8)], 0x0, 0x0⟩,
  ⟨0xf0110, [(0x40, 4), (0x4, 11)], 0x0, 0x0, 0x0, [], 0x0, 0x0⟩,
  ⟨0xf1000, [(0x20, 32)], 0x0, 0x0, 0x0, [], 0x3fff7fff, 0x0⟩,
  ⟨0xf1004, [(0x20, 32)], 0x0, 0x0, 0x0, [], 0xffffffff, 0x0⟩,
  ⟨0xf1008, [(0x20, 32)], 0x0, 0x0, 0x0, [], 0x0, 0x0⟩,
  ⟨0xf100c, [(0x20, 32)], 0x0, 0x0, 0x0, [], 0x0, 0x0⟩,
  ⟨0xf1010, [(0x20, 32)], 0x0, 0x0, 0x0, [], 0x0, 0x0⟩,
  ⟨0xf2000, [(0x100, 32), (0x4, 64)], 0x0, 0x0, 0x0, [], 0x3ffff, 0x0⟩,
  ⟨0xf4000, [(0x80, 8)], 0x0, 0x0, 0x0, [], 0xfff0fff, 0x0⟩,
  ⟨0xf4004, [(0x80, 8)], 0x0, 0x0, 0x0, [], 0x0, 0x0⟩,
  ⟨0xf4020, [(0x80, 8), (0x4, 24)], 0x0, 0x0, 0x0, [], 0xffffffff, 0x0⟩]

/-- Rows of block SCR: base, (stride, count) of each index, RW mask, RWP mask, RW1C mask cleared bit by bit, RW1C
fields cleared whole, mask of the fields a Folio or program image loads, reset word (R13, R15). -/
def regRowsSCR : List RegRow := [
  ⟨0x100000, [], 0x0, 0x0, 0x6, [], 0x0, 0x4000⟩,
  ⟨0x100004, [], 0x0, 0x3ff, 0x0, [], 0x3ff, 0x0⟩,
  ⟨0x100008, [], 0x0, 0x0, 0x0, [], 0x0, 0x0⟩,
  ⟨0x10000c, [], 0x0, 0x0, 0x0, [], 0x0, 0x0⟩,
  ⟨0x100010, [], 0x0, 0x0, 0x0, [(9, 9)], 0x0, 0x0⟩,
  ⟨0x100014, [], 0x0, 0x0, 0x0, [], 0x0, 0x0⟩,
  ⟨0x100020, [(0x4, 7)], 0x0, 0x0, 0x0, [], 0x0, 0x0⟩,
  ⟨0x10003c, [], 0x0, 0x0, 0x0, [(0, 16), (16, 16)], 0x0, 0x0⟩,
  ⟨0x101000, [(0x4, 1024)], 0x0, 0x0, 0x0, [], 0x1ffffff, 0x0⟩,
  ⟨0x102000, [(0x4, 1024)], 0x0, 0x0, 0x0, [], 0x0, 0x0⟩]

/-- Rows of block VEL: base, (stride, count) of each index, RW mask, RWP mask, RW1C mask cleared bit by bit, RW1C
fields cleared whole, mask of the fields a Folio or program image loads, reset word (R13, R15). -/
def regRowsVEL : List RegRow := [
  ⟨0x110000, [], 0x0, 0x0, 0x0, [], 0x0, 0x0⟩,
  ⟨0x110004, [], 0x0, 0x7f, 0x0, [], 0x7f, 0x0⟩,
  ⟨0x110008, [], 0x0, 0x0, 0x0, [], 0x0, 0x0⟩,
  ⟨0x11000c, [], 0x0, 0x0, 0x0, [], 0x0, 0x0⟩,
  ⟨0x110010, [], 0x0, 0x0, 0x0, [], 0x0, 0x0⟩,
  ⟨0x110014, [], 0x0, 0x0, 0x0, [], 0x0, 0x0⟩,
  ⟨0x110018, [], 0x0, 0x0, 0x0, [(0, 8), (8, 8), (16, 8), (24, 8)], 0x0, 0x0⟩,
  ⟨0x111000, [(0x80, 16)], 0x0, 0x0, 0x0, [], 0xfffffff, 0x0⟩,
  ⟨0x111004, [(0x80, 16)], 0x0, 0x0, 0x0, [], 0xffffffff, 0x0⟩,
  ⟨0x111008, [(0x80, 16)], 0x0, 0x0, 0x0, [], 0xffffffff, 0x0⟩,
  ⟨0x11100c, [(0x80, 16)], 0x0, 0x0, 0x0, [], 0xffffffff, 0x0⟩,
  ⟨0x111010, [(0x80, 16)], 0x0, 0x0, 0x0, [], 0xffff, 0x0⟩,
  ⟨0x111014, [(0x80, 16)], 0x0, 0x0, 0x0, [], 0x0, 0x0⟩,
  ⟨0x111018, [(0x80, 16)], 0x0, 0x0, 0x0, [(16, 8)], 0x0, 0x0⟩,
  ⟨0x111040, [(0x80, 16), (0x4, 16)], 0x0, 0x0, 0x0, [], 0xfff, 0x0⟩]

/-- Rows of block FIO: base, (stride, count) of each index, RW mask, RWP mask, RW1C mask cleared bit by bit, RW1C
fields cleared whole, mask of the fields a Folio or program image loads, reset word (R13, R15). -/
def regRowsFIO : List RegRow := [
  ⟨0x120000, [], 0x0, 0x0, 0x0, [], 0x0, 0x0⟩,
  ⟨0x120004, [], 0x0, 0x0, 0x0, [], 0x0, 0x0⟩,
  ⟨0x120008, [], 0x0, 0x0, 0x0, [], 0x0, 0xffffffff⟩,
  ⟨0x12000c, [], 0x0, 0x0, 0x0, [], 0x0, 0x0⟩,
  ⟨0x120010, [], 0x0, 0x0, 0x0, [], 0x0, 0x0⟩,
  ⟨0x120014, [], 0x0, 0x0, 0x0, [], 0x0, 0x0⟩,
  ⟨0x120100, [(0x20, 4)], 0x0, 0x0, 0x0, [], 0x1ff, 0x0⟩,
  ⟨0x120104, [(0x20, 4)], 0x0, 0x0, 0x0, [], 0x0, 0x0⟩,
  ⟨0x120108, [(0x20, 4)], 0x0, 0x1, 0x0, [], 0x0, 0x0⟩,
  ⟨0x12010c, [(0x20, 4)], 0x0, 0x0, 0x0, [(0, 8), (8, 8), (16, 8)], 0x0, 0x0⟩,
  ⟨0x121000, [(0x20, 32)], 0x0, 0x0, 0x0, [], 0xffff7f, 0x0⟩,
  ⟨0x121004, [(0x20, 32)], 0x0, 0x0, 0x0, [], 0x0, 0x100⟩,
  ⟨0x121008, [(0x20, 32)], 0x0, 0x0, 0x1ff, [], 0x0, 0x0⟩,
  ⟨0x12100c, [(0x20, 32)], 0x0, 0x2, 0x0, [], 0x0, 0x0⟩,
  ⟨0x121010, [(0x20, 32)], 0x0, 0x0, 0x0, [(0, 8), (8, 8), (16, 8), (24, 8)], 0x0, 0x0⟩]

/-- Rows of block SYS: base, (stride, count) of each index, RW mask, RWP mask, RW1C mask cleared bit by bit, RW1C
fields cleared whole, mask of the fields a Folio or program image loads, reset word (R13, R15). -/
def regRowsSYS : List RegRow := [
  ⟨0x0, [], 0x0, 0x0, 0x0, [], 0x0, 0x41⟩,
  ⟨0x4, [], 0x0, 0x0, 0x0, [], 0x0, 0x0⟩,
  ⟨0x8, [], 0x0, 0x0, 0x0, [], 0x0, 0x0⟩,
  ⟨0xc, [], 0x0, 0x0, 0x0, [], 0x0, 0x0⟩,
  ⟨0x10, [], 0x0, 0x0, 0x0, [], 0x0, 0x0⟩,
  ⟨0x14, [], 0x0, 0x0, 0x5d, [], 0x0, 0x0⟩,
  ⟨0x18, [], 0x0, 0x0, 0x0, [(16, 11)], 0x0, 0x7ff0000⟩,
  ⟨0x1c, [], 0x0, 0x0, 0x0, [(16, 16)], 0x0, 0x0⟩,
  ⟨0x20, [], 0x0, 0x1ff, 0x0, [], 0x0, 0x3c⟩,
  ⟨0x24, [], 0x0, 0x0, 0x0, [], 0x0, 0x0⟩,
  ⟨0x28, [], 0x0, 0x0, 0x0, [], 0xffffffff, 0x0⟩,
  ⟨0x30, [], 0x0, 0xffffffff, 0x0, [], 0x0, 0x0⟩,
  ⟨0x34, [], 0x0, 0x1ffffff, 0x0, [], 0x0, 0x0⟩,
  ⟨0x38, [], 0x0, 0x1, 0x0, [], 0x0, 0x0⟩,
  ⟨0x40, [], 0x0, 0x0, 0x0, [(24, 8)], 0x0, 0x80000000⟩]

/-- Rows of block HST: base, (stride, count) of each index, RW mask, RWP mask, RW1C mask cleared bit by bit, RW1C
fields cleared whole, mask of the fields a Folio or program image loads, reset word (R13, R15). -/
def regRowsHST : List RegRow := [
  ⟨0x130000, [], 0x0, 0x0, 0x0, [], 0xff01, 0x0⟩,
  ⟨0x130004, [], 0x0, 0x0, 0x0, [], 0x0, 0x0⟩,
  ⟨0x130008, [], 0x7ff00000, 0x0, 0x0, [], 0x0, 0x0⟩,
  ⟨0x13000c, [], 0x0, 0x0, 0x0, [], 0x0, 0x0⟩,
  ⟨0x130010, [], 0x0, 0x0, 0x0, [], 0x0, 0x0⟩,
  ⟨0x130014, [], 0x0, 0x0, 0x0, [], 0x0, 0x0⟩,
  ⟨0x130020, [], 0x0, 0x0, 0xffffffff, [], 0x0, 0x0⟩,
  ⟨0x130024, [], 0xffffffff, 0x0, 0x0, [], 0x0, 0x0⟩,
  ⟨0x130028, [], 0x7, 0x0, 0x0, [], 0x0, 0x5⟩,
  ⟨0x130030, [], 0xffff0000, 0x0, 0x0, [], 0x0, 0x0⟩,
  ⟨0x130034, [], 0x0, 0x0, 0x0, [], 0x0, 0x0⟩,
  ⟨0x130040, [(0x4, 16)], 0x0, 0x0, 0x0, [], 0x0, 0x0⟩,
  ⟨0x130080, [], 0x0, 0x0, 0x0, [(0, 8), (8, 8), (16, 8), (24, 8)], 0x0, 0x0⟩,
  ⟨0x130084, [], 0x0, 0x0, 0x0, [(16, 8), (24, 8)], 0x0, 0x0⟩,
  ⟨0x131000, [(0x10, 16)], 0x7f, 0x0, 0x0, [], 0x0, 0x0⟩,
  ⟨0x131004, [(0x10, 16)], 0x7f, 0x0, 0x0, [], 0x0, 0x0⟩,
  ⟨0x131008, [(0x10, 16)], 0x0, 0x0, 0x0, [], 0x0, 0x0⟩,
  ⟨0x13100c, [(0x10, 16)], 0x0, 0x0, 0x0, [(16, 8), (24, 8)], 0x0, 0x0⟩]

/-- Rows of block SEA: base, (stride, count) of each index, RW mask, RWP mask, RW1C mask cleared bit by bit, RW1C
fields cleared whole, mask of the fields a Folio or program image loads, reset word (R13, R15). -/
def regRowsSEA : List RegRow := [
  ⟨0x140000, [], 0x0, 0x0, 0x0, [], 0x0, 0x0⟩,
  ⟨0x140004, [], 0x0, 0x0, 0x0, [], 0x0, 0x0⟩,
  ⟨0x140100, [(0x20, 4), (0x4, 8)], 0x0, 0x0, 0x0, [], 0x0, 0x0⟩,
  ⟨0x140200, [(0x4, 8)], 0x0, 0xffffffff, 0x0, [], 0x0, 0x0⟩,
  ⟨0x140220, [], 0x0, 0x3, 0x0, [], 0x0, 0x0⟩,
  ⟨0x140230, [], 0x0, 0x0, 0x0, [], 0x0, 0x0⟩,
  ⟨0x140240, [], 0x0, 0x0, 0x0, [], 0x0, 0x0⟩,
  ⟨0x140250, [], 0x0, 0x0, 0x0, [], 0x0, 0x0⟩,
  ⟨0x140260, [], 0x0, 0x0, 0x0, [(0, 8), (8, 8)], 0x0, 0x0⟩,
  ⟨0x141000, [(0x4, 328)], 0x0, 0x0, 0x0, [], 0x0, 0x0⟩,
  ⟨0x142000, [(0x4, 973)], 0x0, 0x0, 0x0, [], 0x0, 0x0⟩]

/-- Rows of block MEM: base, (stride, count) of each index, RW mask, RWP mask, RW1C mask cleared bit by bit, RW1C
fields cleared whole, mask of the fields a Folio or program image loads, reset word (R13, R15). -/
def regRowsMEM : List RegRow := [
  ⟨0x150000, [], 0x0, 0x0, 0x0, [], 0x0, 0x0⟩,
  ⟨0x150004, [], 0x0, 0x0, 0x0, [], 0x0, 0x0⟩,
  ⟨0x150008, [], 0x0, 0x0, 0x0, [], 0x0, 0x0⟩,
  ⟨0x150100, [(0x4, 20)], 0x0, 0x0, 0x0, [(16, 8)], 0x0, 0x0⟩,
  ⟨0x150200, [(0x4, 64)], 0x0, 0x0, 0x0, [], 0x0, 0x0⟩,
  ⟨0x150300, [(0x4, 32)], 0x0, 0x0, 0x0, [], 0x0, 0x0⟩]

/-- Rows of block DBG: base, (stride, count) of each index, RW mask, RWP mask, RW1C mask cleared bit by bit, RW1C
fields cleared whole, mask of the fields a Folio or program image loads, reset word (R13, R15). -/
def regRowsDBG : List RegRow := [
  ⟨0x160000, [], 0x0, 0x0, 0x0, [], 0x0, 0x0⟩,
  ⟨0x160004, [], 0x0, 0x1, 0x0, [], 0x0, 0x0⟩,
  ⟨0x160010, [(0x4, 4)], 0x0, 0xff, 0x0, [], 0x0, 0x0⟩,
  ⟨0x160020, [], 0x0, 0x0, 0x0, [], 0x7, 0x0⟩,
  ⟨0x160024, [], 0x0, 0x0, 0x0, [], 0x0, 0x0⟩,
  ⟨0x160030, [], 0x0, 0x0, 0x0, [], 0x0, 0x0⟩,
  ⟨0x160034, [], 0x0, 0x0, 0x0, [], 0x0, 0x0⟩,
  ⟨0x160038, [], 0x0, 0x0, 0x0, [], 0x0, 0x0⟩]

/-- Every register of the spec. -/
def regRows : List RegRow :=
  regRowsRUL ++ regRowsAFE ++ regRowsPBI ++ regRowsNIB ++ regRowsSTK ++ regRowsQIL ++ regRowsDUC ++ regRowsSTN ++ regRowsSCR ++ regRowsVEL ++ regRowsFIO ++ regRowsSYS ++ regRowsHST ++ regRowsSEA ++ regRowsMEM ++ regRowsDBG

end Sys2Proof.Machine
end

