-- ==== Sys2Proof/Machine/Ops.lean ====
section
/-! DEFINITION. The operations every unit shares: sparse tables, register words and fields, free values, stamps,
event records, interrupts, byte memories. -/

namespace Sys2Proof.Machine

/-! ### Sparse tables -/

/-- The value under a key: the default where nothing is listed. -/
def Tab.look {α : Type} (d : α) : Tab α → Nat → α
  | [], _ => d
  | (k, v) :: t, i => if k = i then v else Tab.look d t i

/-- Every entry of a key taken out. -/
def Tab.drop {α : Type} : Tab α → Nat → Tab α
  | [], _ => []
  | (k, v) :: t, i => if k = i then Tab.drop t i else (k, v) :: Tab.drop t i

/-- An entry put before the first greater key. -/
def Tab.place {α : Type} : Tab α → Nat → α → Tab α
  | [], i, x => [(i, x)]
  | (k, v) :: t, i, x => if i < k then (i, x) :: (k, v) :: t else (k, v) :: Tab.place t i x

/-- Read with the type's default. -/
def Tab.get {α : Type} [Inhabited α] (t : Tab α) (i : Nat) : α := Tab.look default t i

/-- Write keeping the canonical form: the default value is not listed. -/
def Tab.set {α : Type} [Inhabited α] [DecidableEq α] (t : Tab α) (i : Nat) (x : α) : Tab α :=
  if x = default then Tab.drop t i else Tab.place (Tab.drop t i) i x

def Tab.upd {α : Type} [Inhabited α] [DecidableEq α] (t : Tab α) (i : Nat) (f : α → α) : Tab α :=
  t.set i (f (t.get i))

/-- Every key is above `lo`, keys rise, no value is the default. -/
def Tab.above {α : Type} [Inhabited α] [DecidableEq α] : Option Nat → Tab α → Bool
  | _, [] => true
  | lo, (k, v) :: t => (match lo with | none => true | some l => decide (l < k)) && decide (v ≠ default) && Tab.above (some k) t

/-- The canonical form of a sparse table (log entry 6). -/
def Tab.wf {α : Type} [Inhabited α] [DecidableEq α] (t : Tab α) : Bool := Tab.above none t

/-- The first free key from 0 below `n`: one that reads as the default. -/
def Tab.firstFree {α : Type} [Inhabited α] [DecidableEq α] (t : Tab α) (n : Nat) : Option Nat :=
  (List.range n).find? (fun i => t.get i = default)

/-! ### Numbers -/

/-- Two's complement value of the low `w` bits. -/
def sext (w v : Nat) : Int :=
  let m := v % 2 ^ w
  if 2 * m < 2 ^ w then (m : Int) else (m : Int) - (2 ^ w : Nat)

/-- The low `w` bits of an integer's two's complement. -/
def tc (w : Nat) (v : Int) : Nat := (v % ((2 ^ w : Nat) : Int)).toNat

/-- Division rounded to the nearest integer, a tie upward. -/
def ndiv (a : Int) (b : Nat) : Int := (2 * a + b) / (2 * b)

/-- Saturation of a signed value to `w` bits. -/
def ssat (w : Nat) (v : Int) : Int := max (-((2 ^ (w - 1) : Nat) : Int)) (min v ((2 ^ (w - 1) : Nat) - 1))

def b2n (b : Bool) : Nat := if b then 1 else 0

/-- Bit `i` of a number with value `b`. -/
def setBitOf (n i : Nat) (b : Bool) : Nat :=
  if n.testBit i = b then n else if b then n + 2 ^ i else n - 2 ^ i

/-- The numbers `i < n` whose bit is set in `m`. -/
def bitsOf (n m : Nat) : List Nat := (List.range n).filter (fun i => m.testBit i)

/-- One bit for each listed index. -/
def maskOf (is : List Nat) : Nat := is.foldl (fun m i => m ||| 2 ^ i) 0

/-! ### Registers (R16) -/

namespace State

/-- The stored word of a register. -/
def word (s : State) (a : Nat) : Word := s.regs.get a

def rd (s : State) (a : Nat) : Nat := (s.word a).toNat

def setWord (s : State) (a : Nat) (w : Word) : State := { s with regs := s.regs.set a w }

def wr (s : State) (a v : Nat) : State := s.setWord a (BitVec.ofNat 32 v)

/-- The value of a field. -/
def f (s : State) (x : Fld) : Nat := ((s.word x.addr).extractLsb' x.lo x.width).toNat

/-- A field is set. -/
def on (s : State) (x : Fld) : Bool := s.f x != 0

end State

/-- The bits of a field in a word. -/
def fieldMask (lo width : Nat) : Word := ((BitVec.allOnes width).setWidth 32) <<< lo

/-- A word with one field replaced, the value cut to the field's width. -/
def insertField (w : Word) (lo width v : Nat) : Word :=
  (w &&& ~~~(fieldMask lo width)) ||| (((BitVec.ofNat width v).setWidth 32) <<< lo)

namespace State

/-- Write one field; a value wider than the field wraps. -/
def setF (s : State) (x : Fld) (v : Nat) : State :=
  s.setWord x.addr (insertField (s.word x.addr) x.lo x.width v)

/-- Write a one-bit field. -/
def setB (s : State) (x : Fld) (b : Bool) : State := s.setF x (b2n b)

/-- Write several fields, left to right. -/
def setFs (s : State) : List (Fld × Nat) → State
  | [] => s
  | (x, v) :: t => (s.setF x v).setFs t

/-- A wrapping counter goes up by `n`. -/
def incW (s : State) (x : Fld) (n : Nat := 1) : State := s.setF x (s.f x + n)

/-- A saturating counter goes up by `n`. -/
def incS (s : State) (x : Fld) (n : Nat := 1) : State := s.setF x (min (s.f x + n) (2 ^ x.width - 1))

/-- A highest-value register. -/
def maxF (s : State) (x : Fld) (v : Nat) : State := if s.f x < v then s.setF x (min v (2 ^ x.width - 1)) else s

/-! ### Free values (log entry 1) -/

/-- The next `n` free bytes, and the state after drawing them. -/
def drawBytes (s : State) (n : Nat) : List Byte × State :=
  ((List.range n).map (fun i => Config.freeByte (s.freeCtr + i)), { s with freeCtr := s.freeCtr + n })

/-! ### Time and stamps (R50 to R55) -/

def ltc (s : State) : Nat := s.rul.clk.ltc

/-- The variant of SYS_ID: 1 for the SPT-8120 (R1). -/
def is8120 (s : State) : Bool := s.f Reg.SYS_ID_VARIANT = 1

end State

/-- Units u in 1 ns: 2^28 * 10^9, so that a correction of 2^-28 ppb is 1 u per ns. -/
def uPerNs : Nat := 268435456000000000

/-- Nearest ns of a time in u. -/
def nsOfU (t : Int) : Nat := (ndiv t uPerNs).toNat

/-- Compact stamp (R54) of a DTC in ns with a TQ. -/
def stampNs (ns tq : Nat) : Nat :=
  (ns / 1000000000 % 2 ^ 32) * 2 ^ 32 + (ns % 1000000000) * 4 + tq % 4

/-- DTC ns of a sample instant in 1/1,152,000 s, nearest (DEDUCED, log entry 12). -/
def nsOfInstant (i : Instant) : Nat := (2 * i * 1000000000 + 1152000) / 2304000

namespace State

/-- TQ in force. -/
def tq (s : State) : Nat := s.f Reg.RUL_TQ_TQ

/-- DTC in ns. -/
def dtcNs (s : State) : Nat := nsOfU s.rul.clk.dtc

/-- Compact stamp of now. -/
def stampNow (s : State) : Nat := stampNs s.dtcNs s.tq

/-- TQ in force at a DTC in u, from the changes of its epoch newest first and the TQ after them (R37, R54). -/
def tqBefore (x : Int) : Nat → List (Nat × Int × Nat) → Nat
  | q, [] => q
  | q, (_, at', old) :: t => if x < at' then tqBefore x old t else q

/-- TQ that was in force at a DTC in ns of a DTC epoch (R37, R54). -/
def tqIn (s : State) (epoch ns : Nat) : Nat :=
  match s.rul.clk.tqHist.filter (fun p => p.1 = epoch) with
  | [] => s.tq
  | (e, at', old) :: t => tqBefore ((ns : Int) * uPerNs) (if epoch = s.rul.clk.epoch then s.tq else old) ((e, at', old) :: t)

/-- TQ that was in force at a DTC in ns of the present epoch. -/
def tqAt (s : State) (ns : Nat) : Nat := s.tqIn s.rul.clk.epoch ns

/-- Compact stamp of a sample instant, with the TQ in force at it. -/
def stampAt (s : State) (i : Instant) : Nat := stampNs (nsOfInstant i) (s.tqAt (nsOfInstant i))

end State

/-! ### Interrupts (R454, R455) -/

namespace State

/-- A message of vector `v` where MSI-X is enabled: sent, or pending while the vector or the function is masked (R445). -/
def msixSend (s : State) (v : Nat) : State :=
  let m := s.hst.msix.get v
  if !s.on Reg.HST_STAT_MSIX then s
  else
    let m1 := if m.unmasked && !s.hst.ep.msixMask then { m with sent := m.sent + 1, pend := false } else { m with pend := true }
    { s with hst := { s.hst with msix := s.hst.msix.set v m1 } }

/-- A cause of vector `v`: its bit in HST_IRQ_PEND, and its MSI-X message. -/
def irq (s : State) (v : Nat) : State := msixSend (s.setF Reg.HST_IRQ_PEND_PEND (setBitOf (s.f Reg.HST_IRQ_PEND_PEND) v true)) v

/-- INT_N is low (R454): a pending cause is enabled and the module is not in RESET. -/
def intN (s : State) : Bool :=
  s.f Reg.SYS_STATE_STATE = 0 ||
    (s.f Reg.HST_IRQ_PEND_PEND &&& s.f Reg.HST_IRQ_EN_EN) = 0

end State

/-! ### Script log offers (R363, R548) -/

/-- Payload words of the items, 64-bit items aligned to 8 bytes (R548); `n` words stand already. -/
def packItems : Nat → List Item → List Nat
  | _, [] => []
  | n, .w v :: t => v % 2 ^ 32 :: packItems (n + 1) t
  | n, .q v :: t =>
    let body := [v % 2 ^ 32, v / 2 ^ 32 % 2 ^ 32]
    if n % 2 = 0 then body ++ packItems (n + 2) t else 0 :: body ++ packItems (n + 3) t

/-- LEN of a record with that many payload words: 32 plus the payload, up to a multiple of 32, at least 64 (R548). -/
def recLen (words : Nat) : Nat := max 64 ((32 + 4 * words + 31) / 32 * 32)

/-- A signed item. -/
def Item.i (v : Int) : Item := .w (tc 32 v)

/-- A record of an event (R363, R548), SEQ still 0. -/
def mkRec (ev : Event) (flags epoch inst ltc stamp : Nat) (items : List Item) : LogRec :=
  let ws := packItems 0 items
  let len := recLen ws.length
  { seq := 0, len := len, code := ev.code, sev := ev.sev, flags := flags, epoch := epoch, inst := inst, ltc := ltc,
    stamp := stamp, payload := ws ++ List.replicate (len / 4 - 8 - ws.length) 0 }

/-- INST of a source without instances (R363). -/
def noInst : Nat := 0xFFFF

namespace State

/-- A source offers a record and never waits (R20, R371). -/
def offer (s : State) (r : LogRec) : State := { s with scr := { s.scr with offers := s.scr.offers ++ [r] } }

/-- An event occurs now: its record is offered (R548). -/
def log (s : State) (ev : Event) (inst : Nat := noInst) (items : List Item := []) : State :=
  s.offer (mkRec ev 0 s.rul.clk.epoch inst s.ltc s.stampNow items)

/-! ### SYS state and health (R431, R533) -/

/-- A bit of SYS_HEALTH is set, with its interrupt cause (R455). -/
def health (s : State) (x : Fld) : State := (s.setB x true).irq 6

/-- SYS_STATE.STATE codes: 0 RESET, 1 COLD_START, 2 WARM_START, 3 IN_SERVICE, 4 TEST, 5 SERVICE_HOLD, 6 FAULT_SAFE. -/
def sysState (s : State) : Nat := s.f Reg.SYS_STATE_STATE

/-- IN_SERVICE or TEST. -/
def running (s : State) : Bool := s.sysState = 3 || s.sysState = 4

end State

/-! ### Byte memories (R12, R449, R491) -/

/-- `n` bytes from an address. -/
def readBytes (m : Tab Byte) (a : Nat) : Nat → List Byte
  | 0 => []
  | n + 1 => m.get a :: readBytes m (a + 1) n

/-- Bytes stored from an address upward. -/
def writeBytes (m : Tab Byte) (a : Nat) : List Byte → Tab Byte
  | [] => m
  | b :: t => writeBytes (m.set a b) (a + 1) t

/-- Little-endian value of bytes (R12). -/
def leNat : List Byte → Nat
  | [] => 0
  | b :: t => b.toNat + 256 * leNat t

/-- `n` little-endian bytes of a value. -/
def leBytes : Nat → Nat → List Byte
  | 0, _ => []
  | n + 1, v => BitVec.ofNat 8 v :: leBytes n (v / 256)

namespace State

def inkRead (s : State) (a n : Nat) : List Byte := readBytes s.hst.inkwell a n

def inkWrite (s : State) (a : Nat) (bs : List Byte) : State :=
  { s with hst := { s.hst with inkwell := writeBytes s.hst.inkwell a bs } }

def dramRead (s : State) (a n : Nat) : List Byte := readBytes s.hst.dram a n

def dramWrite (s : State) (a : Nat) (bs : List Byte) : State :=
  { s with hst := { s.hst with dram := writeBytes s.hst.dram a bs } }

/-- Little-endian number in the Inkwell area, at an offset from 0x0080_0000. -/
def inkNat (s : State) (a n : Nat) : Nat := leNat (s.inkRead a n)

end State

/-- DTC at a tick of the 96 kS/s grid, in u (R60). -/
def tickTime (t : Nat) : Int := (t : Int) * ((uPerNs * 1000000000 : Nat) : Int) / 96000

end Sys2Proof.Machine
end

