-- ==== Sys2Proof/Machine/Inkwell.lean ====
section
/-! DEFINITION. The Inkwell command protocol as every unit meets it (spec/14 R456 to R469): the fields of a command
entry, starting the next command of a session, posting its completion; mode changes pending under R46; a frame put in
an egress queue. -/

namespace Sys2Proof.Machine

/-! ### Entry fields (R460) -/

/-- `n` little-endian bytes of an entry from byte `o`. -/
def Cmd.le (c : Cmd) (o : Nat) : Nat → Nat
  | 0 => 0
  | n + 1 => c.bytes.getD o 0 + 256 * Cmd.le c (o + 1) n

def Cmd.op (c : Cmd) : Nat := c.le 0 1
def Cmd.flags (c : Cmd) : Nat := c.le 1 1
def Cmd.cid (c : Cmd) : Nat := c.le 2 2

/-- `n` bytes of ARGS from its byte `o`. -/
def Cmd.arg (c : Cmd) (o n : Nat) : Nat := c.le (16 + o) n

/-- Bytes `a` to `b - 1` of ARGS are 0. -/
def Cmd.zero (c : Cmd) (a b : Nat) : Bool := c.arg a (b - a) = 0

/-- Completion status codes (R467). -/
def stOK : Nat := 0
def stBUSY : Nat := 1
def stSTATE : Nat := 2
def stPRIV : Nat := 3
def stARG : Nat := 4
def stVERSION : Nat := 5
def stINTEGRITY : Nat := 6
def stTIMEOUT : Nat := 7
def stUNSUPPORTED : Nat := 8

namespace State

def sess (s : State) (n : Nat) : Session := s.hst.sess.get n

def setSess (s : State) (n : Nat) (x : Session) : State := { s with hst := { s.hst with sess := s.hst.sess.set n x } }

/-- Completions posted and not consumed (R461, R463). -/
def unconsumed (s : State) (n : Nat) : Nat := ((s.sess n).cqTail + 128 - s.f (Reg.HST_SESS_CQDB_HEAD n)) % 128

/-- INFLIGHT shows the commands in progress or not consumed (R461). -/
def noteInflight (s : State) (n : Nat) : State :=
  s.setF (Reg.HST_SESS_STAT_INFLIGHT n) ((s.sess n).cmds.length + s.unconsumed n)

/-- Level of a session: 0 P0, 1 P1, 2 P2. -/
def level (s : State) (n : Nat) : Nat := s.f (Reg.HST_SESS_STAT_LEVEL n)

end State

/-- The 32 bytes of a completion entry (R463). -/
def completionBytes (c : Cmd) (status phase : Nat) (res : List Nat) (ltc : Nat) : List Byte :=
  leBytes 2 c.cid ++ leBytes 1 status ++ leBytes 1 phase ++ leBytes 1 c.op ++ leBytes 1 (min c.tries 255) ++ leBytes 2 c.sqHead ++
    leBytes 4 (res.getD 0 0) ++ leBytes 4 (res.getD 1 0) ++ leBytes 4 (res.getD 2 0) ++ leBytes 4 (res.getD 3 0) ++ leBytes 8 ltc

/-- Posting the completion of a command of session `n` (R463). A command that the session no longer holds was cut off by
a close: its completion is discarded (R459). -/
def postOne (s : State) (n : Nat) (c : Cmd) (status : Nat) (res : List Nat) : State :=
  let x := s.sess n
  if x.cmds.any (fun d => d.sqHead = c.sqHead) then
    let phase := 1 - x.cqTail / 64 % 2
    let s1 := s.inkWrite (n * 0x4000 + 0x1000 + (x.cqTail % 64) * 32) (completionBytes c status phase res s.ltc)
    let s2 := s1.setSess n { x with cmds := x.cmds.filter (fun d => d.sqHead ≠ c.sqHead), cqTail := (x.cqTail + 1) % 128 }
    let s3 := (s2.noteInflight n).incW (Reg.HST_SESS_CNT_CMDS n)
    let s4 := if status = stTIMEOUT then s3.incS (Reg.HST_SESS_CNT_TIMEOUTS n) else s3
    let s5 := if status = stSTATE then s4.log Ev.HST_CMD_STATE n [.w c.op, .w c.cid] else s4
    if c.flags.testBit 2 then s5 else s5.irq (n % 4)
  else s

/-! ### Header checks (R467) -/

/-- The opcodes of R467 with their default deadlines in us. -/
def opDeadlines : List (Nat × Nat) :=
  [(0x01, 10000), (0x02, 50000), (0x03, 10000), (0x04, 10000), (0x05, 10000), (0x06, 10000), (0x10, 1000000), (0x11, 10000),
   (0x12, 10000), (0x13, 10000), (0x14, 10000), (0x20, 10000), (0x21, 10000), (0x22, 10000), (0x30, 5000000), (0x31, 200000),
   (0x32, 10000), (0x33, 10000), (0x40, 10000), (0x41, 10000)] ++
  [(0x42, 1000000), (0x43, 1000000), (0x44, 10000), (0x45, 10000), (0x46, 600000000), (0x50, 50000), (0x51, 50000),
   (0x60, 600000000), (0x61, 1000000)]

def opKnown (op : Nat) : Bool := opDeadlines.any (fun p => p.1 = op)

/-- Commands that name the host bulk region (R467). -/
def opBulk (op : Nat) : Bool := [0x10, 0x30, 0x42, 0x43, 0x46].contains op

def Cmd.deadlineUs (c : Cmd) : Nat := c.le 4 4
def Cmd.paddr (c : Cmd) : Nat := c.le 48 8
def Cmd.pdst (c : Cmd) : Nat := c.le 56 4
def Cmd.plen (c : Cmd) : Nat := c.le 60 4

/-- DEADLINE is 0 or within its range (R460). -/
def Cmd.deadlineOk (c : Cmd) : Bool := c.deadlineUs = 0 || (100 ≤ c.deadlineUs && c.deadlineUs ≤ 600000000)

/-- A field is used that the agreed version does not have (R457); before HELLO no version rules any out but the bits that none
has (DEDUCED, log entry 41). -/
def versionFails (ver : Nat) (c : Cmd) : Bool :=
  decide (8 ≤ c.flags) ||
    (ver = 1 && (c.flags ≠ 0 || c.le 4 12 ≠ 0 || c.le 48 16 ≠ 0)) ||
    (ver = 2 && (c.flags.testBit 2 || c.deadlineUs ≠ 0))

/-- The pull descriptor is consistent and within the host bulk region (R460). -/
def pullOk (s : State) (c : Cmd) : Bool :=
  if c.flags.testBit 1 then
    c.paddr % 4 = 0 && c.pdst % 4 = 0 && c.plen % 4 = 0 && 4 ≤ c.plen && c.plen ≤ 16777216 &&
      decide (c.pdst + c.plen ≤ s.rd Reg.HST_BULKSIZE)
  else c.plen = 0

/-- The status of the first header check that an entry of session `n` fails. -/
def headerStatus (s : State) (n : Nat) (c : Cmd) : Option Nat :=
  let spi := s.on (Reg.HST_SESS_STAT_IF n)
  if !opKnown c.op || (spi && (c.flags.testBit 1 || opBulk c.op)) then some stUNSUPPORTED
  else if versionFails (s.f (Reg.HST_SESS_STAT_VER n)) c then some stVERSION
  else if s.f (Reg.HST_SESS_STAT_STATE n) ≠ 3 && !([0x01, 0x02, 0x03].contains c.op) then some stPRIV
  else if !c.deadlineOk || c.le 8 8 ≠ 0 || !pullOk s c then some stARG
  else none

/-- The first command of session `n` that has not started, unless it is fenced and an earlier one has not completed (R462). -/
def frontCmd (s : State) (n : Nat) : Option Cmd :=
  match (s.sess n).cmds.find? (fun c => !c.started) with
  | some c =>
    let fenced := c.flags.testBit 0 || c.op = 0x03
    let first := match (s.sess n).cmds with | d :: _ => d.sqHead = c.sqHead | [] => false
    if fenced && !first then none else some c
  | none => none

/-- Commands at the front that fail a header check and have no row of their own to start them, or whose pull will not begin,
complete. -/
def settleHeads (n : Nat) : Nat → State → State
  | 0, s => s
  | k + 1, s =>
    match frontCmd s n with
    | some c =>
      match headerStatus s n c with
      | some st => if c.pull || !opKnown c.op then settleHeads n k (postOne s n c st []) else s
      | none => s
    | none => s

/-- A completion is posted, and the front of the queue settles. -/
def post (s : State) (n : Nat) (c : Cmd) (status : Nat) (res : List Nat) : State := settleHeads n 64 (postOne s n c status res)

/-- What the meaning of a command answers: the state after its effect, its status and result words; `done` is false
where the command goes on and completes later. -/
structure CmdOut where
  s : State
  status : Nat
  res : List Nat
  done : Bool

/-- Refused without side effect. -/
def refuse (s : State) (status : Nat) : CmdOut := ⟨s, status, [], true⟩

/-- Completed with OK and result words. -/
def okay (s : State) (res : List Nat := []) : CmdOut := ⟨s, stOK, res, true⟩

/-- The command goes on. -/
def goesOn (s : State) : CmdOut := ⟨s, stOK, [], false⟩

/-- Commands served in SERVICE_HOLD (R433); WRITE_REG only of the SYS block. -/
def holdServed (c : Cmd) : Bool :=
  [0x01, 0x02, 0x03, 0x04, 0x42, 0x50, 0x14].contains c.op || (c.op = 0x05 && c.arg 0 4 < 0x10000)

/-- The command of session `n` that starts next, if it is ready (R462, R464, R465): its pull is done and its deadline has not
passed. -/
def nextCmd (s : State) (n : Nat) : Option Cmd :=
  match frontCmd s n with
  | some c => if c.pull || c.deadline ≤ s.ltc then none else some c
  | none => none

/-- The module's state lets commands run at all: IN_SERVICE, TEST, SERVICE_HOLD (R431). -/
def inkServed (s : State) : Bool := s.running || s.sysState = 5

/-- The command marked as started. -/
def markStarted (s : State) (n : Nat) (c : Cmd) : State :=
  let x := s.sess n
  s.setSess n { x with cmds := x.cmds.map (fun d => if d.sqHead = c.sqHead then { d with started := true } else d) }

/-- A command starts: it fails a header check, or SERVICE_HOLD does not serve it, or `body` gives its effect and status, and
the completion is posted. -/
def startCmd (s : State) (n : Nat) (c : Cmd) (body : State → Cmd → CmdOut) : State :=
  let s1 := markStarted s n c
  match headerStatus s n c with
  | some st => post s1 n c st []
  | none =>
    if s.sysState = 5 && !holdServed c then post s1 n c stSTATE []
    else
      let r := body s1 c
      if r.done then post r.s n c r.status r.res else settleHeads n 64 r.s

/-- Session `n`'s next command has opcode `op` and meets `p`. -/
def runWhen (s : State) (n op : Nat) (p : Cmd → Bool) (body : State → Cmd → CmdOut) : State :=
  match nextCmd s n with
  | some c => if c.op = op && p c && inkServed s then startCmd s n c body else s
  | none => s

/-- Session `n`'s next command has opcode `op`. -/
def runCmd (s : State) (n op : Nat) (body : State → Cmd → CmdOut) : State := runWhen s n op (fun _ => true) body

/-- The command of a session taken with that head, if the session still holds it. -/
def findCmd (s : State) (n head : Nat) : Option Cmd := (s.sess n).cmds.find? (fun c => c.sqHead = head)

/-- A later step completes a command of a session. -/
def postHead (s : State) (n head status : Nat) (res : List Nat) : State :=
  match findCmd s n head with
  | some c => post s n c status res
  | none => s

/-! ### Pulls (R465) -/

/-- The command of a session whose pull runs: the first that pulls, passes the header checks and has time left. -/
def pulling (s : State) (n : Nat) : Option Cmd :=
  (s.sess n).cmds.find? (fun c => c.pull && (headerStatus s n c).isNone && decide (s.ltc < c.deadline))

/-- The entry of a command as it goes on. -/
def putCmd (s : State) (n : Nat) (c : Cmd) : State :=
  s.setSess n { s.sess n with cmds := (s.sess n).cmds.map (fun d => if d.sqHead = c.sqHead then c else d) }

/-- Bytes of one read request: the max read request size in force, of which up to 512 bytes are honoured (R445). -/
def readReqBytes (s : State) : Nat := min 512 (128 * 2 ^ s.hst.ep.mrrs)

/-- Read tags in use (R21, R465): a command whose deadline has passed has given its own back. -/
def tagsUsed (s : State) : Nat :=
  ((List.range 16).map (fun n => ((s.sess n).cmds.map (fun c => if s.ltc < c.deadline then c.reads.length else 0)).sum)).sum

/-- The session that issues the next read, round-robin among those that pull (R465). -/
def nextPuller (s : State) : Option (Nat × Cmd) :=
  ((List.range 16).map (fun i => (s.hst.readTurn + i) % 16)).findSome? (fun n =>
    match pulling s n with
    | some c => if c.asked < c.plen then some (n, c) else none
    | none => none)

/-- Read requests go out while there are tags. -/
def issueReads : Nat → State → State
  | 0, s => s
  | k + 1, s =>
    if 32 ≤ tagsUsed s then s
    else match nextPuller s with
      | some (n, c) =>
        let len := min (readReqBytes s) (c.plen - c.asked)
        let t := putCmd s n { c with asked := c.asked + len, reads := c.reads ++ [⟨c.asked, len, 0, s.ltc⟩] }
        issueReads k { t with hst := { t.hst with readTurn := (n + 1) % 16 } }
      | none => s

/-! ### Mode changes (R46, R469) -/

/-- The mode that a pending change brings to an instance of a function. -/
def modePending (s : State) (fn inst : Nat) : Option Bool :=
  match s.sys.modePend.find? (fun m => m.fn = fn && m.inst = inst) with
  | some m => some m.ha
  | none => none

/-- The change has taken effect: it is no longer pending and its command completes with OK (R469). -/
def modeTaken (s : State) (fn inst : Nat) : State :=
  match s.sys.modePend.find? (fun m => m.fn = fn && m.inst = inst) with
  | some m =>
    let s1 := { s with sys := { s.sys with modePend := s.sys.modePend.filter (fun x => !(x.fn = fn && x.inst = inst)) } }
    postHead s1 m.sess m.sqHead stOK []
  | none => s

/-! ### Egress queues (R128, R351) -/

/-- An item joins the egress queue of a port behind every item of its class or a better one; a started frame is not in
the queue. Station ports whose link is down do not send (R351). -/
def insertEgress (i : TxItem) : List TxItem → List TxItem
  | [] => [i]
  | h :: t => if i.prio < h.prio then i :: h :: t else h :: insertEgress i t

namespace State

def port (s : State) (p : Nat) : PortState := s.pbi.port.get p

def setPort (s : State) (p : Nat) (x : PortState) : State := { s with pbi := { s.pbi with port := s.pbi.port.set p x } }

/-- Link state of port `p` (0-23 PB, 24-27 SB). -/
def linkFld (p : Nat) : Fld := if p < 24 then Reg.PBI_PB_STAT_LINK p else Reg.STN_SB_STAT_LINK (p - 24)

def linkUp (s : State) (p : Nat) : Bool := s.on (linkFld p)

/-- Counter `k` of a port, by the numbering of a process port (R152) or of a station port (R362). -/
def portCnt (s : State) (p kPb kSb : Nat) : State :=
  if p < 24 then s.incW (Reg.PBI_PB_CNT_COUNT p kPb) else s.incW (Reg.STN_SB_CNT_COUNT (p - 24) kSb)

/-- RULE of a process port (R152); a station port has no such counter (R362). -/
def portRule (s : State) (p : Nat) : State := if p < 24 then s.incW (Reg.PBI_PB_CNT_COUNT p 4) else s

/-- Octets waiting in an egress queue. -/
def egressLen (s : State) (p : Nat) : Nat := ((s.port p).egress.map (·.len)).sum

/-- A frame of the module's own joins a port's egress queue; on a station port whose link is down it is not sent and
counts in TX_DOWN (R351). Where the 32 KiB queue of a process port has no room for it, it is not formed (DESIGN CHOICE, log
entry 63). -/
def enqueue (s : State) (p : Nat) (i : TxItem) : State :=
  if 24 ≤ p && !s.linkUp p then s.incW (Reg.STN_SB_CNT_COUNT (p - 24) 10)
  else if decide (p < 24) && decide (32768 < s.egressLen p + i.len) then s
  else
    let x := s.port p
    s.setPort p { x with egress := insertEgress i x.egress }

end State

/-- The next SeqNr of a pair, 12 and 13 for the station pairs. -/
def takeSeq (s : State) (pair : Nat) : State × Nat :=
  let x := s.pbi.pair.get pair
  ({ s with pbi := { s.pbi with pair := s.pbi.pair.set pair { x with seq := (x.seq + 1) % 65536 } } }, x.seq)

/-- The module queues a PTP frame of its own (R128: ahead of forwarded frames); `at'` is the LTC of what it answers. On a station
pair in PRP it goes out on both ports with one SeqNr (R349). -/
def sendPtp (s : State) (p : Nat) (m : PtpMsg) (at' : Nat) : State :=
  let len := Config.frameOctets 3 []
  if 24 ≤ p && s.f (Reg.STN_PAIR_CFG_MODE ((p - 24) / 2)) = 1 then
    let t := takeSeq s (12 + (p - 24) / 2)
    [p / 2 * 2, p / 2 * 2 + 1].foldl (fun x q => if x.on (Reg.STN_SB_CFG_EN (q - 24)) then x.enqueue q ⟨4, len, .ptp m, some t.2, p, at'⟩ else x) t.1
  else s.enqueue p ⟨4, len, .ptp m, none, p, at'⟩

end Sys2Proof.Machine
end

