-- ==== Sys2Proof/Machine/Access.lean ====
section
/-! DEFINITION. Who may write a register (spec/00 R13, spec/14 R451). -/

namespace Sys2Proof.Machine

/-- An ignored direct write is counted, and logged once per episode (R451); an accepted one ends the episode. -/
def directRejected (s : State) (addr : Nat) (r : Requester) : State :=
  let s1 := s.incS Reg.HST_CNT_DIRECT_REJ
  if s1.hst.directRej then s1
  else ({ s1 with hst := { s1.hst with directRej := true } }).log Ev.HST_DIRECT_REJ noInst [.w addr, .w (b2n (decide (r = Requester.spi)))]

def directAccepted (s : State) : State := { s with hst := { s.hst with directRej := false } }

/-- A register of the HST block (R434). -/
def inHst (addr : Nat) : Bool := 0x130000 ≤ addr && addr < 0x140000

/-- A direct write of a field that is not RWP is accepted (R451). -/
def directOpen (s : State) (addr : Nat) : Bool := inHst addr || s.on Reg.HST_CFG_DIRECT_WR

/-- The write `k` of a register of one kind of field takes place where its access code lets this access write it
(R13, R451): RWP from WRITE_REG of a P0 session only, other fields also from P1 and from direct writes. In RESET, during
starts and in FAULT_SAFE every write is ignored (R434, R447). A configuration request reaches no register. -/
def gate (s : State) (a : Access) (addr : Nat) (rwp : Bool) (k : State → State) : State :=
  if !inkServed s then s
  else
    match a with
    | .direct r => if r = .cfg then s else if !rwp && directOpen s addr then k (directAccepted s) else directRejected s addr r
    | .cmd _ level => if rwp && level ≠ 0 then s else k s
    | .jtag => s

end Sys2Proof.Machine
end

