-- ==== Sys2Proof/Machine/NibBase.lean ====
section
/-! DEFINITION. Element contexts as every unit sees them (spec/05 R153 to R172): settings fields, engines' queues, the
completion of a sample set. -/

namespace Sys2Proof.Machine

namespace State

def nc (s : State) (c : Nat) : NcState := s.nib.nc.get c

def setNc (s : State) (c : Nat) (x : NcState) : State := { s with nib := { s.nib with nc := s.nib.nc.set c x } }

def eng (s : State) (e : Nat) : Engine := s.nib.eng.get e

def setEng (s : State) (e : Nat) (x : Engine) : State := { s with nib := { s.nib with eng := s.nib.eng.set e x } }

/-- Word `w` of the live settings block of context `c` (R160). -/
def live (s : State) (c w : Nat) : Nat := s.nib.live.get (128 * c + w)

/-- `n` bits from bit `lo` of a word of the block. -/
def liveF (s : State) (c w lo n : Nat) : Nat := s.live c w / 2 ^ lo % 2 ^ n

end State

/-! ### Header fields (R160) -/

def ncType (s : State) (c : Nat) : Nat := s.liveF c 0 0 8
def ncSvcField (s : State) (c : Nat) : Nat := s.liveF c 0 8 2
def ncFnom (s : State) (c : Nat) : Nat := s.liveF c 0 10 1
def ncNbind (s : State) (c : Nat) : Nat := s.liveF c 0 11 4
def ncNmeas (s : State) (c : Nat) : Nat := s.liveF c 0 15 4
def ncLag (s : State) (c : Nat) : Nat := s.liveF c 0 19 4
def ncM (s : State) (c : Nat) : Nat := s.liveF c 1 0 16
def ncFallback (s : State) (c : Nat) : Nat := s.liveF c 1 16 2
def ncDeadline (s : State) (c : Nat) : Nat := s.live c 2
def ncQblk (s : State) (c : Nat) : Nat := s.liveF c 3 0 8
def ncBlkSrc (s : State) (c : Nat) : Nat := s.liveF c 3 8 7
def ncBlkEn (s : State) (c : Nat) : Bool := s.liveF c 3 15 1 = 1
def bindStream (s : State) (c i : Nat) : Nat := s.liveF c (8 + i) 0 8
def bindChan (s : State) (c i : Nat) : Nat := s.liveF c (8 + i) 8 5
def bindScale (s : State) (c i : Nat) : Nat := s.live c (16 + i)
/-- The detector of binding 0 of a TWV context. -/
def bindWd (s : State) (c : Nat) : Nat := s.liveF c 8 0 4

/-- Class of a type code (R161): 1 AC, 2 DCF, 3 TWV, 0 unused. -/
def classOf (t : Nat) : Nat :=
  if 1 ≤ t && t ≤ 9 then 1 else if [0x20, 0x21, 0x22, 0x23, 0x26].contains t then 2 else if t = 0x24 || t = 0x25 then 3 else 0

def ncClass (s : State) (c : Nat) : Nat := classOf (ncType s c)

/-- An engine evaluates the context (R154). -/
def ncServed (s : State) (c : Nat) : Bool := (s.nc c).svc ≠ 0

/-- Instants in one lag step of a class: 1/4,800 s or 1/96,000 s (R171). -/
def lagStep (cls : Nat) : Nat := if cls = 1 then 240 else if cls = 2 then 12 else 0

/-! ### Queueing (R38, R170) -/

/-- A released evaluation joins its engine's queue. -/
def enqueueEval (s : State) (q : Queued) : State :=
  let e := q.ctx / 16
  let x := s.eng e
  let s1 := s.setEng e { x with queue := x.queue ++ [q] }
  s1.maxF (Reg.NIB_NE_STAT_QPEAK e) (x.queue.length + 1)

/-- Engines present: 16, or 8 on the SPT-8120 (R1). -/
def contexts (s : State) : Nat := if s.is8120 then 128 else 256

/-- A wavefront event goes to every TWV context bound to its detector (R116, R170); a locked TWLOC is not queued (R245). -/
def twvRelease (s : State) (ev : WdEvent) : State :=
  ((List.range (contexts s)).filter (fun c => ncClass s c = 3 && ncServed s c && bindWd s c = ev.wd && (s.nc c).wave.lock.isNone)).foldl
    (fun t c => enqueueEval t ⟨c, 0, t.ltc, some ev, false, ev.epoch⟩) s

/-- Events of detector `k` that a context has still to start on (R21: 8 credits): their numbers. -/
def wavefrontOut (s : State) (k : Nat) : List Nat :=
  (((List.range 16).map (fun e => (s.eng e).queue)).flatten.filterMap (fun q =>
    match q.ev with | some ev => if ev.wd = k && !q.deliv then some ev.evseq else none | none => none)).eraseDups

/-- The events that detector `k` holds go out while it has credits (R18, R19, R21). -/
def wavefrontSend (s : State) (k : Nat) : State :=
  (s.afe.wd.get k).held.foldl (fun t ev =>
    if (wavefrontOut t k).length < 8 then
      let x := t.afe.wd.get k
      twvRelease { t with afe := { t.afe with wd := t.afe.wd.set k { x with held := x.held.drop 1, evAt := some t.rul.clk.ltc } } } ev
    else t) s

/-- The contexts that a completed set of a stream queues (R24, R170). -/
def queuedBy (s : State) (sc : Nat) (inst : Instant) : List Nat :=
  (List.range (contexts s)).filter (fun c =>
    let k := ncClass s c
    ncServed s c && bindStream s c 0 = sc && ((k = 1 && inst % 240 = 0) || (k = 2 && inst % 12 = 0)))

namespace State

def sc (s : State) (n : Nat) : ScState := s.pbi.sc.get n

def setSc (s : State) (n : Nat) (x : ScState) : State := { s with pbi := { s.pbi with sc := s.pbi.sc.set n x } }

end State

/-- A completed set waits to be sent on every link that transmits its stream; the ring keeps 128 (R337). -/
def linkUnsent (s : State) (sc : Nat) : State :=
  (List.range 4).foldl (fun t n =>
    if t.on (Reg.DUC_DL_CFG_EN n) && t.on (Reg.DUC_DL_TX_TXEN n) && t.f (Reg.DUC_DL_TX_TXSC n) = sc then
      let x := t.duc.dl.get n
      let t1 := if 128 ≤ x.unsent then t.incS (Reg.DUC_DL_CNT2_TX_SKIP n) else t
      { t1 with duc := { t1.duc with dl := t1.duc.dl.set n { x with unsent := min 128 (x.unsent + 1) } } }
    else t) s

/-- SAMPLE_SET_COMPLETE (R38, R170, R172, R24): the oldest formed set of a context enters its ring and queues its contexts. A
context whose 16 slots are occupied stalls (R25). -/
def sampleSetComplete (s : State) (sc : Nat) : State :=
  let x := s.sc sc
  match x.out with
  | set :: rest =>
    if 16 ≤ x.slots.length then s
    else
      let cs := queuedBy s sc set.instant
      let s1 := (linkUnsent s sc).setSc sc { x with out := rest, ring := (set :: x.ring).take 128,
                                                    slots := if cs = [] then x.slots else x.slots ++ [⟨set.instant, cs⟩] }
      cs.foldl (fun t c => enqueueEval t ⟨c, set.instant - ncLag t c * lagStep (ncClass t c), t.ltc, none, false, set.epoch⟩) s1
  | [] => s

/-- A context has started the evaluation that a set released: the set's credit returns with the last of them (R24). -/
def creditStart (s : State) (sc c : Nat) (inst : Instant) : State :=
  let x := s.sc sc
  s.setSc sc { x with slots := (x.slots.map (fun z => if z.instant = inst then { z with left := z.left.erase c } else z)).filter
                                 (fun z => z.left ≠ []) }

/-! ### Output words -/

/-- A change of an output word that needs no evaluation waits for a flit of its engine (R169). -/
def outputDue (s : State) (c w : Nat) : State :=
  let x := s.eng (c / 16)
  s.setEng (c / 16) { x with due := x.due ++ [(c, w)] }

/-- A context's service state is entered (R157): CTX_STATE carries the new state. -/
def svcEntered (s : State) (c svc : Nat) : State :=
  (s.setNc c { s.nc c with svc := svc }).log Ev.CTX_STATE c [.w svc]

def execSampleSetComplete (sc : Fin 224) (s : State) : Host.Outcome State Fault Refusal := .next (sampleSetComplete s sc)

end Sys2Proof.Machine
end

