-- ==== Sys2Proof/Machine/Commit.lean ====
section
/-! DEFINITION. How a committed settings epoch reaches each object (spec/13 R440, R442). -/

namespace Sys2Proof.Machine

/-- Key of word w of the settings block of context c. -/
def nibKey (c w : Nat) : Nat := 16777216 + 128 * c + w

/-- A committed word becomes live. -/
def liveWord (s : State) (key v : Nat) : State :=
  if 16777216 ≤ key then { s with nib := { s.nib with live := s.nib.live.set (key - 16777216) v } } else s.wr key v

/-- Keys of the Vellum profiles, whose switch the completion does not wait for (R440). -/
def velKey (k : Nat) : Bool := 0x111000 ≤ k && k < 0x112000

/-- The last object outside Vellum has switched: the command completes, and the shadow is resynchronised (R440, R442). -/
def commitSettled (s : State) : State :=
  match s.sys.commit with
  | some (n, head, _) =>
    if s.sys.committing.all (fun p => velKey p.1) then
      let s1 := { s with sys := { s.sys with commit := none } }
      postHead ((s1.setB Reg.SYS_STATE_COMMIT_PEND false).setB Reg.SYS_STATE_RESYNC true) n head stOK []
    else s
  | none => s

/-- The committed words with keys from `lo` below `lo + n` become live, all together. -/
def takeCommit (s : State) (lo n : Nat) : State :=
  let mine := s.sys.committing.filter (fun p => lo ≤ p.1 && p.1 < lo + n)
  if mine = [] then s
  else
    let s1 := { s with sys := { s.sys with committing := s.sys.committing.filter (fun p => !(lo ≤ p.1 && p.1 < lo + n)) } }
    commitSettled (mine.foldl (fun t p => match p.2 with | some v => liveWord t p.1 v | none => t) s1)

/-- Some committed word of that range waits. -/
def commitWaits (s : State) (lo n : Nat) : Bool := s.sys.committing.any (fun p => lo ≤ p.1 && p.1 < lo + n)

end Sys2Proof.Machine
end

