-- ==== Sys2Proof/Machine/Float.lean ====
section
/-! DEFINITION. IEEE 754 binary32 and binary64 as the engines use them (spec/05 R176, spec/09 R295): round to nearest even,
subnormal operands and results replaced by zero of the same sign, every operation rounded separately. Values are bit
patterns. -/

namespace Sys2Proof.Machine

/-- A format: precision in bits and exponent width. -/
structure Fmt where
  p : Nat
  ew : Nat
  deriving DecidableEq, Repr

def f32 : Fmt := ⟨24, 8⟩
def f64 : Fmt := ⟨53, 11⟩

namespace Fmt

def bias (m : Fmt) : Nat := 2 ^ (m.ew - 1) - 1

/-- Least exponent of a normal value. -/
def emin (m : Fmt) : Int := 1 - (m.bias : Int)

def expOnes (m : Fmt) : Nat := 2 ^ m.ew - 1

def signBit (m : Fmt) (neg : Bool) : Nat := if neg then 2 ^ (m.p - 1 + m.ew) else 0

/-- The quiet NaN that an invalid operation gives. -/
def nan (m : Fmt) : Nat := m.expOnes * 2 ^ (m.p - 1) + 2 ^ (m.p - 2)

def inf (m : Fmt) (neg : Bool) : Nat := m.signBit neg + m.expOnes * 2 ^ (m.p - 1)

def zero (m : Fmt) (neg : Bool) : Nat := m.signBit neg

end Fmt

/-- A value: NaN, infinity, or ±m · 2^e. -/
inductive Fl
  | nan
  | inf (neg : Bool)
  | fin (neg : Bool) (m : Nat) (e : Int)
  deriving DecidableEq, Repr

/-- A bit pattern read with subnormals replaced by zero. -/
def Fmt.read (m : Fmt) (x : Nat) : Fl :=
  let neg := x.testBit (m.p - 1 + m.ew)
  let ex := x / 2 ^ (m.p - 1) % 2 ^ m.ew
  let fr := x % 2 ^ (m.p - 1)
  if ex = m.expOnes then (if fr = 0 then .inf neg else .nan)
  else if ex = 0 then .fin neg 0 0
  else .fin neg (fr + 2 ^ (m.p - 1)) ((ex : Int) - m.bias - (m.p - 1 : Nat))

/-- Nearest integer to a / b, a tie to the even one. -/
def rdivEven (a b : Nat) : Nat :=
  let q := a / b
  let r := a % b
  if 2 * r < b then q else if 2 * r > b then q + 1 else q + q % 2

/-- Nearest integer to a / b for a signed a, a tie to the even one. -/
def rdivEvenI (a : Int) (b : Nat) : Int := if 0 ≤ a then (rdivEven a.toNat b : Int) else -(rdivEven (-a).toNat b : Int)

/-- floor(log2(n / d)) for positive n and d. -/
def log2q (n d : Nat) : Int :=
  let g : Int := (Nat.log2 n : Int) - (Nat.log2 d : Int)
  let ge : Bool := if 0 ≤ g then decide (d * 2 ^ g.toNat ≤ n) else decide (d ≤ n * 2 ^ (-g).toNat)
  if ge then g else g - 1

/-- ±n/d rounded to the format; a subnormal result is zero of its sign. -/
def Fmt.round (m : Fmt) (neg : Bool) (n d : Nat) : Nat :=
  if n = 0 then m.zero neg
  else
    let e := max (log2q n d) m.emin
    let sh := e - ((m.p - 1 : Nat) : Int)
    let k := if 0 ≤ sh then rdivEven n (d * 2 ^ sh.toNat) else rdivEven (n * 2 ^ (-sh).toNat) d
    let c := if 2 ^ m.p ≤ k then (k / 2, e + 1) else (k, e)
    if c.1 < 2 ^ (m.p - 1) then m.zero neg
    else if (m.bias : Int) < c.2 then m.inf neg
    else m.signBit neg + (c.2 + m.bias).toNat * 2 ^ (m.p - 1) + (c.1 - 2 ^ (m.p - 1))

/-- ±m·2^e rounded. -/
def Fmt.roundBin (f : Fmt) (neg : Bool) (m : Nat) (e : Int) : Nat :=
  if 0 ≤ e then f.round neg (m * 2 ^ e.toNat) 1 else f.round neg m (2 ^ (-e).toNat)

/-- An integer rounded to the format. -/
def Fmt.ofInt (f : Fmt) (v : Int) : Nat := f.round (decide (v < 0)) v.natAbs 1

/-- A rational rounded to the format. -/
def Fmt.ofRat (f : Fmt) (v : Int) (d : Nat) : Nat := f.round (decide (v < 0)) v.natAbs d

def Fmt.neg (f : Fmt) (x : Nat) : Nat := if x.testBit (f.p - 1 + f.ew) then x - f.signBit true else x + f.signBit true

def Fmt.abs (f : Fmt) (x : Nat) : Nat := x % 2 ^ (f.p - 1 + f.ew)

/-- Signed mantissa at a common exponent. -/
def Fl.signed (neg : Bool) (m : Nat) : Int := if neg then -(m : Int) else m

def Fmt.add (f : Fmt) (x y : Nat) : Nat :=
  match f.read x, f.read y with
  | .nan, _ => f.nan
  | _, .nan => f.nan
  | .inf a, .inf b => if a = b then f.inf a else f.nan
  | .inf a, _ => f.inf a
  | _, .inf b => f.inf b
  | .fin sx mx ex, .fin sy my ey =>
    if mx = 0 && my = 0 then f.zero (sx && sy)
    else
      let e := if mx = 0 then ey else if my = 0 then ex else min ex ey
      let a := Fl.signed sx (if mx = 0 then 0 else mx * 2 ^ (ex - e).toNat)
      let b := Fl.signed sy (if my = 0 then 0 else my * 2 ^ (ey - e).toNat)
      let s := a + b
      f.roundBin (decide (s < 0)) s.natAbs e

def Fmt.sub (f : Fmt) (x y : Nat) : Nat :=
  match f.read y with
  | .nan => f.nan
  | _ => f.add x (f.neg y)

def Fmt.mul (f : Fmt) (x y : Nat) : Nat :=
  match f.read x, f.read y with
  | .nan, _ => f.nan
  | _, .nan => f.nan
  | .inf a, .inf b => f.inf (a != b)
  | .inf a, .fin sy my _ => if my = 0 then f.nan else f.inf (a != sy)
  | .fin sx mx _, .inf b => if mx = 0 then f.nan else f.inf (sx != b)
  | .fin sx mx ex, .fin sy my ey => if mx = 0 || my = 0 then f.zero (sx != sy) else f.roundBin (sx != sy) (mx * my) (ex + ey)

def Fmt.div (f : Fmt) (x y : Nat) : Nat :=
  match f.read x, f.read y with
  | .nan, _ => f.nan
  | _, .nan => f.nan
  | .inf _, .inf _ => f.nan
  | .inf a, .fin sy _ _ => f.inf (a != sy)
  | .fin sx _ _, .inf b => f.zero (sx != b)
  | .fin sx mx ex, .fin sy my ey =>
    if my = 0 then (if mx = 0 then f.nan else f.inf (sx != sy))
    else
      let e := ex - ey
      if 0 ≤ e then f.round (sx != sy) (mx * 2 ^ e.toNat) my else f.round (sx != sy) mx (my * 2 ^ (-e).toNat)

/-- Integer square root of n, bit by bit from bit k downward. -/
def isqrtGo (n : Nat) : Nat → Nat → Nat
  | 0, r => r
  | k + 1, r => let t := r + 2 ^ k; if t * t ≤ n then isqrtGo n k t else isqrtGo n k r

def isqrt (n : Nat) : Nat := isqrtGo n (Nat.log2 n / 2 + 1) 0

def Fmt.sqrt (f : Fmt) (x : Nat) : Nat :=
  match f.read x with
  | .nan => f.nan
  | .inf a => if a then f.nan else f.inf false
  | .fin s m e =>
    if m = 0 then f.zero s
    else if s then f.nan
    else
      -- m · 2^e = t · 2^(2h) with t of at least 2p + 4 bits
      let up : Nat := 2 * f.p + 4 + (e % 2).toNat
      let t := m * 2 ^ up
      let h := (e - up) / 2
      let r := isqrt t
      if r * r = t then f.roundBin false r h else f.roundBin false (2 * r + 1) (h - 1)

/-- The sign of x − y, none where one of them is a NaN. -/
def Fmt.cmp (f : Fmt) (x y : Nat) : Option Ordering :=
  match f.read x, f.read y with
  | .nan, _ => none
  | _, .nan => none
  | .inf a, .inf b => some (if a = b then .eq else if a then .lt else .gt)
  | .inf a, _ => some (if a then .lt else .gt)
  | _, .inf b => some (if b then .gt else .lt)
  | .fin sx mx ex, .fin sy my ey =>
    let e := if mx = 0 then ey else if my = 0 then ex else min ex ey
    let a := Fl.signed sx (if mx = 0 then 0 else mx * 2 ^ (ex - e).toNat)
    let b := Fl.signed sy (if my = 0 then 0 else my * 2 ^ (ey - e).toNat)
    some (compare a b)

/-- Comparisons; false where an operand is a NaN. -/
def Fmt.lt (f : Fmt) (x y : Nat) : Bool := f.cmp x y = some .lt
def Fmt.le (f : Fmt) (x y : Nat) : Bool := f.cmp x y = some .lt || f.cmp x y = some .eq
def Fmt.gt (f : Fmt) (x y : Nat) : Bool := f.cmp x y = some .gt
def Fmt.ge (f : Fmt) (x y : Nat) : Bool := f.cmp x y = some .gt || f.cmp x y = some .eq
def Fmt.eqv (f : Fmt) (x y : Nat) : Bool := f.cmp x y = some .eq

def Fmt.max (f : Fmt) (x y : Nat) : Nat := if f.lt x y then y else x
def Fmt.min (f : Fmt) (x y : Nat) : Nat := if f.lt y x then y else x

/-- Neither NaN nor infinity. -/
def Fmt.finite (f : Fmt) (x : Nat) : Bool :=
  match f.read x with
  | .fin _ _ _ => true
  | _ => false

/-- The nearest integer of a finite value, a tie to the even one. -/
def Fmt.toIntEven (f : Fmt) (x : Nat) : Option Int :=
  match f.read x with
  | .fin s m e =>
    let v := if 0 ≤ e then m * 2 ^ e.toNat else rdivEven m (2 ^ (-e).toNat)
    some (Fl.signed s v)
  | _ => none

/-- The integer part of a finite value, toward zero. -/
def Fmt.toIntZero (f : Fmt) (x : Nat) : Option Int :=
  match f.read x with
  | .fin s m e => some (Fl.signed s (if 0 ≤ e then m * 2 ^ e.toNat else m / 2 ^ (-e).toNat))
  | _ => none

/-- A finite value as numerator and denominator; a NaN or an infinity reads as 0. -/
def Fmt.ratio (f : Fmt) (x : Nat) : Int × Nat :=
  match f.read x with
  | .fin s m e => if 0 ≤ e then (Fl.signed s (m * 2 ^ e.toNat), 1) else (Fl.signed s m, 2 ^ (-e).toNat)
  | _ => (0, 1)

/-- Between the formats. -/
def Fmt.convert (f g : Fmt) (x : Nat) : Nat :=
  match f.read x with
  | .nan => g.nan
  | .inf a => g.inf a
  | .fin s m e => g.roundBin s m e

/-! ### Short names for binary32 -/

def fadd32 (x y : Nat) : Nat := f32.add x y
def fsub32 (x y : Nat) : Nat := f32.sub x y
def fmul32 (x y : Nat) : Nat := f32.mul x y
def fdiv32 (x y : Nat) : Nat := f32.div x y

end Sys2Proof.Machine
end

