-- ==== Sys2Proof/Machine/Publish.lean ====
section
/-! DEFINITION. Frames that the module forms and sends on station pairs (spec/10 R349 to R360), and sampled-value
publication. -/

namespace Sys2Proof.Machine

/-- Ports of station pair 0 or 1 (R348), as port numbers 24-27. -/
def pairPorts (p : Nat) : List Nat := [24 + 2 * p, 25 + 2 * p]

/-- A frame of the module's own goes out on both ports of a pair with one SeqNr (R349, R350). -/
def sendPair (s : State) (p prio len : Nat) (b : TxBody) : State :=
  if s.f (Reg.STN_PAIR_CFG_MODE p) = 0 then s
  else
    let t := takeSeq s (12 + p)
    (pairPorts p).foldl (fun x q => if x.on (Reg.STN_SB_CFG_EN (q - 24)) then x.enqueue q ⟨prio, len, b, some t.2, q, s.ltc⟩ else x) t.1

/-- On the pairs of a two-bit mask. -/
def sendPairs (s : State) (mask prio len : Nat) (b : TxBody) : State :=
  (bitsOf 2 mask).foldl (fun t p => sendPair t p prio len b) s

/-! ### SV publication (R358, R359) -/

/-- VALUE of a channel, and whether it saturated (R359). -/
def svValue (count : Int) (kpub : Nat) : Int × Bool :=
  match f32.toIntEven (fmul32 (f32.ofInt count) kpub) with
  | some v => (ssat 32 v, decide (ssat 32 v ≠ v))
  | none => (if (fmul32 (f32.ofInt count) kpub).testBit 31 then -2147483648 else 2147483647, true)

/-- The SV quality of a channel (R359). -/
def svQuality (q : Nat) (sat : Bool) : Nat :=
  let v := if q.testBit 0 || q.testBit 5 then 1 else if q.testBit 1 || sat then 3 else 0
  v + (if q.testBit 4 || sat then 12 else 0) + (if q.testBit 6 then 2048 else 0)

/-- Octets of a frame of publication `sp` with `n` channels (R358). -/
def spOctets (s : State) (sp n : Nat) : Nat :=
  let d := s.duc.spDecls.getD sp default
  Config.frameOctets 0 [d.svId.length, b2n d.vlan.isSome, n]

/-- One publication of a completed set of local stream `st` at tick `tick` (R358). -/
def svFrame (s : State) (sp tick : Nat) (x : SampleSet) : SvTx :=
  let tq := x.stamp % 4
  { sp := sp, hdr := s.duc.spDecls.getD sp default, smpCnt := tick % 96000 % 48000, smpSynch := if tq ≤ 1 then 2 else if tq = 2 then 1 else 0,
    data := ((List.range x.vals.length).zip (x.vals.zip x.quals)).map (fun p =>
      let v := svValue p.2.1 (s.rd (Reg.STN_SP_KPUB sp p.1))
      (v.1, svQuality p.2.2 v.2)) }

/-- Sets of publication `sp` that station ports have still to send (R21: 16 credits). -/
def svPubOut (s : State) (sp : Nat) : Nat :=
  ((List.range 4).map (fun q =>
    let x := s.port (24 + q)
    ((x.egress ++ x.tx.toList).filter (fun i => match i.body with | .sv v => decide (v.sp = sp) | _ => false)).length)).foldl max 0

/-- A completed local set forms a frame of every publication of its stream (R358). Publication runs only in IN_SERVICE or
TEST (R352). -/
def publishSv (s : State) (st tick : Nat) (x : SampleSet) : State :=
  if s.running then
    (List.range 8).foldl (fun t0 sp =>
      let t := takeCommit t0 (Reg.STN_SP_CFG sp) 0x80
      if t.on (Reg.STN_SP_CFG_EN sp) && t.f (Reg.STN_SP_CFG_SRC sp) = st then
        let u := sendPairs t (t.f (Reg.STN_SP_CFG_PAIRS sp)) 1 (spOctets t sp x.vals.length) (.sv (svFrame t sp tick x))
        u.incW (Reg.STN_SP_CNT_SENT sp)
      else t) s
  else s

/-- Octets of the encoded frame of publication `g` (R353): names, tag, edition and the types of its members fix its length. -/
def gpOctets (s : State) (g : Nat) : Nat :=
  let d := s.duc.gpDecls.getD g default
  Config.frameOctets 1 ([d.gocbRef.length, d.datSet.length, d.goId.length, b2n d.vlan.isSome, b2n (s.on (Reg.STN_GP_CFG_EDITION g))] ++
    (List.range (s.f (Reg.STN_GP_CFG_NMEMB g))).map (fun m =>
      s.f (Reg.STN_GP_MEM_KIND g m) + 4 * s.f (Reg.STN_GP_MEM_TYPE g m) + 32 * s.f (Reg.STN_GP_MEM_NBITS g m)))

end Sys2Proof.Machine
end

