-- ==== Sys2Proof/Machine/Sequence.lean ====
section
/-! DEFINITION. Converter sequences and the map of local streams (spec/03 R95 to R98, R105, R106, R108). -/

namespace Sys2Proof.Machine

/-- Converters present (R1). -/
def State.converters (s : State) : Nat := if s.is8120 then 8 else 16

/-! ### Sequence entries (R95, R96) -/

def eInput (w : Nat) : Nat := w % 4
def eRange (w : Nat) : Nat := w / 4 % 4
def eGain (w : Nat) : Nat := w / 16 % 8
def eAcq (w : Nat) : Nat := w / 256 % 128
def eAvg (w : Nat) : Nat := w / 65536 % 16
def eShift (w : Nat) : Nat := w / 1048576 % 16
def eLast (w : Nat) : Bool := w.testBit 24
def eType (w : Nat) : Nat := w % 4
def eStream (w : Nat) : Nat := w / 4 % 32
def eChan (w : Nat) : Nat := w / 128 % 32

/-- An entry holds no reserved or out-of-range value (R96). -/
def entryOk (e : Nat × Nat) : Bool :=
  eRange e.1 ≠ 3 && eGain e.1 ≤ 4 && 4 ≤ eAcq e.1 && eAvg e.1 ≤ 8 && eShift e.1 ≤ 8 && eType e.2 ≠ 3 && eChan e.2 ≤ 23

/-- The active table, and the shadow table. -/
def actTable (s : State) (n : Nat) : List (Nat × Nat) :=
  (List.range 16).map (fun e => (s.rd (Reg.AFE_CV_ACT n e 0), s.rd (Reg.AFE_CV_ACT n e 1)))

def shdTable (s : State) (n : Nat) : List (Nat × Nat) :=
  (List.range 16).map (fun e => (s.rd (Reg.AFE_CV_SHD n e 0), s.rd (Reg.AFE_CV_SHD n e 1)))

/-- The entries a pass runs: up to the first LAST (R92). -/
def passEntries : List (Nat × Nat) → List (Nat × Nat)
  | [] => []
  | e :: t => if eLast e.1 then [e] else e :: passEntries t

/-- The check of R98 on a table of converter `n`: any of its 16 entries counts but for the pass length. -/
def seqFits (s : State) (n : Nat) (tbl : List (Nat × Nat)) : Bool :=
  if tbl.any (fun e => eType e.2 = 1) then
    let pass := ((passEntries tbl).map (fun e => 2 ^ eAvg e.1 * (eAcq e.1 + 12))).sum
    let allow := s.f (Reg.AFE_CV_URG_ACQ_U n) + 12 + 8 + tbl.foldl (fun m e => max m (eAcq e.1 + 12)) 0
    s.f (Reg.AFE_CV_CTRL_TRIG n) = 1 && s.f (Reg.AFE_CV_CTRL_DIV n) = 1 && decide (pass + allow ≤ 512)
  else true

/-- Stream and channel that a converter feeds with a table (R105, R106). -/
def feedsOf (mode : Nat) (tbl : List (Nat × Nat)) : List (Nat × Nat) :=
  ((if mode = 1 then tbl.take 1 else passEntries tbl).filter (fun e => eType e.2 = 1)).map (fun e => (eStream e.2, eChan e.2))

/-- Every feed of the local stream map. -/
def feeds (s : State) : List (Nat × Nat) :=
  ((List.range s.converters).map (fun n => feedsOf (s.f (Reg.AFE_CV_CTRL_MODE n)) (actTable s n))).flatten

/-- No feed twice; channels from 0 up (R108). -/
def mapValid (l : List (Nat × Nat)) : Bool :=
  decide l.Nodup && l.all (fun p => p.2 = 0 || l.contains (p.1, p.2 - 1))

/-- Channels fed of a local stream. -/
def fedChans (s : State) (st : Nat) : Nat := ((feeds s).filter (fun p => p.1 = st)).length

/-- The local streams' map at a tick, as latched there (R107; DESIGN CHOICE, log entry 53); the present one where none was latched. -/
def mapAt (s : State) (epoch tick : Nat) : List (Nat × Nat) :=
  match s.afe.map.find? (fun m => m.1 = epoch && m.2.1 = tick) with
  | some m => m.2.2
  | none => feeds s

/-- The map of a tick is latched, in place of one latched before. -/
def latchMap (s : State) (tick : Nat) : State :=
  let e := s.rul.clk.epoch
  { s with afe := { s.afe with map := ((e, tick, feeds s) :: s.afe.map.filter (fun m => !(m.1 = e && m.2.1 = tick))).take 64 } }

end Sys2Proof.Machine
end

