-- ==== Sys2Proof/WellFormed.lean ====
section
/-! DEFINITION. Which commands can stand on the wire: the operand ranges that the spec gives and that the types of
Syntax do not already say. -/

namespace Sys2Proof

/-- Octet strings hold octets. -/
def octetsOk (o : Octets) : Bool := o.all (fun b => decide (b < 256))

/-- A session level is 0, 1 or 2 (R457). -/
def Access.wf : Access → Bool
  | .direct _ => true
  | .cmd _ level => decide (level ≤ 2)
  | .jtag => true

/-- KiB of each region of the SPT-8160 (R490, R491); no region has number 15. -/
def regionKiB : List Nat :=
  [4096, 4096, 2048, 1024, 1024, 12288, 4160, 2048, 2048, 2048, 512, 64, 8192, 1024, 512, 0, 1835008, 65536, 131072, 65536]

/-- A memory word stands in a region (R490, R491). -/
def MemLoc.wf (l : MemLoc) : Bool := decide (l.offset < regionKiB.getD l.region 0 * 1024)

def Ecc.wf : Ecc → Bool
  | .ok => true
  | .err l _ _ => l.wf

/-- The identifiers of a sampled-value or GOOSE message hold octets (R131, R143). -/
def Body.wf : Body → Bool
  | .sv p => p.asdus.all (fun a => octetsOk a.svId)
  | .goose g => octetsOk g.gocbRef && octetsOk g.datSet && octetsOk g.goId
  | .ptp _ => true
  | .prpSup => true
  | .other => true

/-- A MAC address has 48 bits; the octets after the two addresses make up the length (R120). -/
def Frame.wf (f : Frame) : Bool :=
  decide (f.dst < 2 ^ 48) && decide (f.src < 2 ^ 48) && decide (f.octets.length + 12 = f.len) && f.body.wf

/-- The receive buffer of a link holds 4 KiB, so no longer frame can be taken off its line (R23). -/
def LineFrame.wf (f : LineFrame) : Bool := decide (f.bytes.length ≤ 4096)

/-- A command block fills whole C37.94 frames of at most 12 slots, 11 bytes at least (R346, R347). -/
def CBlock.wf (b : CBlock) : Bool := decide (11 ≤ b.bytes.length) && decide (b.bytes.length ≤ 22)

/-- A well-formed command. -/
def Instr.wf : Instr → Bool
  | .evaluationDispatch _ a b => a.wf && b.wf
  | .rulDomHaPhaseWrite a _ _ => a.wf
  | .rulDomCfgWrite a _ _ _ => a.wf
  | .irigbFrame _ day sec _ => decide (1 ≤ day) && decide (day ≤ 366) && decide (sec ≤ 86400)
  | .lowWordRead _ addr => decide (addr % 4 = 0)
  | .qilSlotSelWrite a _ => a.wf
  | .swtrig a _ => a.wf
  | .reload a _ => a.wf
  | .afeActWrite a _ _ _ _ => a.wf
  | .afeWdSrcWrite a _ _ => a.wf
  | .frameReceived _ f => f.wf
  | .sfpXferStart a _ => a.wf
  | .stkReset a _ => a.wf
  | .taskStart _ e => e.wf
  | .ldb b => b.c.wf
  | .andb b => b.c.wf
  | .orb b => b.c.wf
  | .xorb b => b.c.wf
  | .stb b => b.c.wf
  | .setb b => b.c.wf
  | .rstb b => b.c.wf
  | .ldw _ e => e.wf
  | .stw _ e => e.wf
  | .ductusFrameReceived _ f => f.wf
  | .negotiationFrameReceived _ f => f.wf
  | .c3794BlockReceived _ b => b.wf
  | .scriptLogOffer (some (_, sev)) => decide (sev ≤ 6)
  | .logRead _ e => e.wf
  | .velExportDone e => e.wf
  | .velTrig a _ => a.wf
  | .retry a _ => a.wf
  | .inhibit a _ _ => a.wf
  | .ack a _ => a.wf
  | .sysCtrlTestWrite a _ => a.wf
  | .flashProgramGo a _ _ => a.wf
  | .bar2Read _ _ e => e.wf
  | .pullReadCompletion _ c data => decide (c.status ≤ 2) && decide (data.length ≤ 4096)
  | .setWrite r => r.c.wf
  | .qilLoad r _ => r.c.wf
  | .velList r => r.c.wf
  | .relock a => a.wf
  | .ownerSlotWrite a _ => a.wf
  | .ownerSlotRevoke a _ => a.wf
  | .vendorRootRevoke a _ => a.wf
  | .memSweepDone es => es.all Ecc.wf
  | .hstPcieLinkUp speed width => decide (1 ≤ speed) && decide (speed ≤ 3) && decide (1 ≤ width) && decide (width ≤ 2)
  | .tjHigh tj => decide (-128 ≤ tj) && decide (tj ≤ 127)
  | .tjNormal tj => decide (-128 ≤ tj) && decide (tj ≤ 127)
  | .grantWrite a _ => a.wf
  | .commission _ hash => decide (hash.length = 8)
  | _ => true

end Sys2Proof
end

