-- ==== Sys2Proof/Machine/MemBase.lean ====
section
/-! DEFINITION. What a code check of a memory word does before its region's own action (spec/16 R489 to R499): counters,
records, the repeat tracker and soft repair. -/

namespace Sys2Proof.Machine

/-- Code of a region: 1 Heavy, 2 Standard, 3 Light (R490, R491, MEM_UE_INFO). -/
def regionCode (r : Nat) : Nat :=
  if [0, 1, 2, 8, 11].contains r then 1 else if [5, 12, 17].contains r then 3 else 2

def State.setMem (s : State) (m : Mem) : State := { s with mem := m }

/-! ### Words and their codes (R489 to R491) -/

/-- Bytes of a region (R490, R491). -/
def regionBytes (s : State) (r : Nat) : Nat := regionKiB.getD r 0 * 1024 / (if s.is8120 && decide (16 ≤ r) then 2 else 1)

/-- First address of a DRAM region 16 to 19 (R491; log entry 4), and the end of DRAM at 20. -/
def dramBase (s : State) (r : Nat) : Nat := ((List.range (r - 16)).map (fun i => regionBytes s (16 + i))).sum

/-- What the code of a word finds in `bits` wrong bits: 0 nothing, 1 a correctable error, 2 an uncorrectable one (R489). -/
def codeFinds (l : MemLoc) (bits : Nat) : Nat :=
  let beyond := Config.codeBeyond l.region l.offset bits % 3
  if bits = 0 then 0
  else if regionCode l.region = 1 then (if bits ≤ 2 then 1 else if bits = 3 then 2 else beyond)
  else if regionCode l.region = 2 then (if bits = 1 then 1 else if bits = 2 then 2 else beyond)
  else if bits % 2 = 1 then 2 else 0

/-- What a code check reports: nothing, a correctable error, an uncorrectable one, or one in the word and in its shadow copy. -/
inductive Check
  | ok
  | ce (l : MemLoc)
  | ue (l : MemLoc)
  | ueBoth (l : MemLoc)
  deriving DecidableEq, Repr

/-- The check of a word that is read; the active copies of settings and programs have a shadow. -/
def State.check (s : State) : Ecc → Check
  | .ok => .ok
  | .err l bits shadow =>
    if regionBytes s l.region ≤ l.offset then .ok
    else if codeFinds l bits = 0 then .ok
    else if codeFinds l bits = 1 then .ce l
    else if (l.region = 0 || l.region = 2) && codeFinds l shadow = 2 then .ueBoth l
    else .ue l

/-- The check finds an uncorrectable error. -/
def State.lost (s : State) (e : Ecc) : Bool :=
  match s.check e with
  | .ok => false
  | .ce _ => false
  | .ue _ => true
  | .ueBoth _ => true

/-! ### Repair banks (R493) -/

/-- A word of LPDDR4X. -/
def inDram (l : MemLoc) : Bool := decide (16 ≤ l.region)

/-- Address of a word in its memory. -/
def locAddr (s : State) (l : MemLoc) : Nat :=
  if inDram l then dramBase s l.region + l.offset else (Config.sramBase l.region + l.offset) % 50331648

/-- Repair bank of 512 KiB, and row of 512 bytes in SRAM, of 2 KiB in LPDDR4X. -/
def locBank (s : State) (l : MemLoc) : Nat := locAddr s l / 524288
def locRow (s : State) (l : MemLoc) : Nat := locAddr s l % 524288 / (if inDram l then 2048 else 512)

/-- Repair bank key: SRAM 0-95, LPDDR4X from 96 (R493). -/
def bankKey (dram : Bool) (bank : Nat) : Nat := if dram then 96 + bank else bank

/-- Spares of a repair bank in use (R493): factory, field entries burnt and not BAD, soft repairs, repairs running. -/
def sparesUsed (s : State) (dram : Bool) (bank : Nat) : Nat :=
  let fuse := (List.range 32).filter (fun k => s.on (Reg.MEM_FUSE_USED k) && !s.on (Reg.MEM_FUSE_BAD k) &&
    s.f (Reg.MEM_FUSE_DRAM k) = b2n dram && s.f (Reg.MEM_FUSE_BANK k) = bank)
  let soft := (List.range 64).filter (fun k => s.on (Reg.MEM_REP_VALID k) && s.f (Reg.MEM_REP_DRAM k) = b2n dram && s.f (Reg.MEM_REP_BANK k) = bank)
  let run := s.mem.repairing.filter (fun r => r.dram = dram && r.bank = bank)
  s.mem.factory.get (bankKey dram bank) ||| maskOf (fuse.map (fun k => s.f (Reg.MEM_FUSE_SPARE k))) |||
    maskOf (soft.map (fun k => s.f (Reg.MEM_REP_SPARE k))) ||| maskOf (run.map (·.spare))

/-- A suspect row is soft-repaired where its bank has a spare and fewer than 64 soft repairs stand (R494, R495). -/
def suspectRow (s : State) (dram : Bool) (bank row : Nat) : State :=
  let s1 := s.log Ev.MEM_SUSPECT noInst [.w (b2n dram), .w bank, .w row]
  let used := sparesUsed s1 dram bank
  let running := s1.mem.repairing.any (fun r => r.dram = dram && r.bank = bank && r.row = row)
  match (List.range 8).find? (fun i => !used.testBit i), running with
  | _, true => s1
  | some sp, false =>
    if s1.f Reg.MEM_STAT_RPSOFT + s1.mem.repairing.length < 64 then
      s1.setMem { s1.mem with repairing := s1.mem.repairing ++ [⟨dram, bank, row, sp⟩] }
    else if s1.mem.exhausted.contains (bankKey dram bank, row) then s1
    else (s1.setMem { s1.mem with exhausted := (bankKey dram bank, row) :: s1.mem.exhausted }).log Ev.MEM_SPARE_EXHAUSTED noInst [.w bank, .w row]
  | none, false =>
    if s1.mem.exhausted.contains (bankKey dram bank, row) then s1
    else (s1.setMem { s1.mem with exhausted := (bankKey dram bank, row) :: s1.mem.exhausted }).log Ev.MEM_SPARE_EXHAUSTED noInst [.w bank, .w row]

/-- One correction in a tracker of 16 entries (R494). -/
def trackRow (t : List Track) (row now : Nat) : List Track × Nat :=
  match t.find? (fun e => e.row = row) with
  | some e =>
    let e' : Track := if e.first + 1000000000 < now then ⟨row, 1, now, now⟩ else ⟨row, e.count + 1, e.first, now⟩
    (e' :: t.filter (fun x => x.row ≠ row), e'.count)
  | none =>
    if t.length < 16 then (⟨row, 1, now, now⟩ :: t, 1)
    else
      let old := t.foldl (fun m e => min m e.last) now
      let keep := match t.find? (fun e => e.last = old) with | some v => t.erase v | none => t
      (⟨row, 1, now, now⟩ :: keep, 1)

/-- A correctable error (R492, R494). -/
def memCe (s : State) (l : MemLoc) : State :=
  let s1 := (s.incW (Reg.MEM_REG_CNT_CE l.region)).log Ev.MEM_CE noInst [.w l.region, .w l.offset]
  if regionCode l.region = 3 then s1
  else
    let k := bankKey (inDram l) (locBank s l)
    let r := trackRow (s1.mem.track.get k) (locRow s l) s1.ltc
    let s2 := s1.setMem { s1.mem with track := s1.mem.track.set k r.1 }
    if r.2 = 3 then suspectRow s2 (inDram l) (locBank s l) (locRow s l) else s2

/-- An uncorrectable error as every region reports it (R499). -/
def memUe (s : State) (l : MemLoc) : State :=
  let s1 := (s.health Reg.SYS_HEALTH_MEM_UE).incS (Reg.MEM_REG_CNT_UE l.region)
  let s2 := s1.setFs [(Reg.MEM_UE_INFO_REGION, l.region), (Reg.MEM_UE_INFO_CODE, regionCode l.region), (Reg.MEM_UE_ADDR_OFFSET, l.offset)]
  s2.log Ev.MEM_UE noInst [.w l.region, .w l.offset, .w (Config.causeCode 0x2C1 l.region)]

/-- What a check found is counted and recorded (R492, R499). -/
def memNote (s : State) (e : Ecc) : State :=
  match s.check e with
  | .ok => s
  | .ce l => memCe s l
  | .ue l => memUe s l
  | .ueBoth l => memUe s l

/-- SOFT_REPAIR_DONE (R495): the oldest running repair enters the first free MEM_REPk. -/
def softRepairDone (s : State) : State :=
  match s.mem.repairing, (List.range 64).find? (fun k => !s.on (Reg.MEM_REP_VALID k)) with
  | r :: t, some k =>
    let s1 := s.setMem { s.mem with repairing := t }
    let s2 := s1.setFs [(Reg.MEM_REP_VALID k, 1), (Reg.MEM_REP_DRAM k, b2n r.dram), (Reg.MEM_REP_BANK k, r.bank),
      (Reg.MEM_REP_ROW k, r.row), (Reg.MEM_REP_SPARE k, r.spare), (Reg.MEM_STAT_RPSOFT, s1.f Reg.MEM_STAT_RPSOFT + 1)]
    s2.log Ev.MEM_SOFT_REPAIR noInst [.w r.bank, .w r.row, .w r.spare, .w k]
  | _, _ => s

/-- A unit or owner is taken out of service for memory (R500): OOS in SYS_HEALTH. -/
def oosHealth (s : State) : State := s.health Reg.SYS_HEALTH_OOS

/-- A staged word of the object whose live words have keys from `base` below `base + n` (R442). -/
def State.stagedIn (s : State) (base n : Nat) : Bool := s.sys.staged.any (fun p => base ≤ p.1 && p.1 < base + n)

/-- Whether an uncorrectable word of the active Heavy copy costs its owner (R500): the shadow is bad too, either half of the 64-bit word is
staged, or the resynchronisation has not copied it yet (while it runs no word counts as copied, log entry 14). `base`: the key of the
object's first word, of which it has `n`. -/
def ownerLost (s : State) (e : Ecc) (base n : Nat) : Bool :=
  match s.check e with
  | .ok => false
  | .ce _ => false
  | .ueBoth _ => true
  | .ue l => s.stagedIn (base + l.offset / 8 * 2 % n) 2 || s.on Reg.SYS_STATE_RESYNC

def execSoftRepairDone (s : State) : Host.Outcome State Fault Refusal := .next (softRepairDone s)

end Sys2Proof.Machine
end

