-- ==== Sys2Proof/Machine/Script.lean ====
section
/-! DEFINITION. The Script log (spec/11, R363 to R376): the intake checks, pages and margin, the freeze, reading. -/

namespace Sys2Proof.Machine

namespace State

def setScr (s : State) (x : Scr) : State := { s with scr := x }

end State

/-- Entries of 128 bytes that a record occupies in the intake (R369). -/
def LogRec.entries (r : LogRec) : Nat := (r.len + 127) / 128

def entriesOf (l : List LogRec) : Nat := (l.map LogRec.entries).sum

/-- SCR_INTAKE shows the occupancy. -/
def noteIntake (s : State) : State :=
  let u := entriesOf s.scr.intake
  (s.setF Reg.SCR_INTAKE_USED u).maxF Reg.SCR_INTAKE_PEAK u

/-- A record is dropped and counted by severity; the next commit carries LOSS (R371, R367, R374). -/
def dropRec (s : State) (r : LogRec) : State :=
  let s1 := s.incW (Reg.SCR_DROP_DROP (min r.sev 6))
  s1.setScr { s1.scr with lossPend := true }

/-- The limits of a code (R370): a code without an entry takes RATE 100, BURST 20, OFF 0. -/
def rateOf (s : State) (code : Nat) : Nat × Nat × Bool :=
  if s.rd (Reg.SCR_RL code) = 0 then (100, 20, false)
  else (s.f (Reg.SCR_RL_RATE code), s.f (Reg.SCR_RL_BURST code), s.on (Reg.SCR_RL_OFF code))

/-- The deficit of a bucket now, in 10^-9 tokens: RATE tokens per second come back (R370). -/
def bucketNow (s : State) (code : Nat) : Nat :=
  let b := s.scr.buckets.get code
  b.deficit - (rateOf s code).1 * (s.ltc - b.ltc)

/-- The rate limit passes a record (R370): SEV 6 and SUPPRESSED summaries are exempt, OFF suppresses all. -/
def ratePasses (s : State) (r : LogRec) : Bool :=
  r.sev = 6 || r.flags.testBit 0 ||
    (!(rateOf s r.code).2.2 && decide (bucketNow s r.code + 1000000000 ≤ (rateOf s r.code).2.1 * 1000000000))

/-- The token that a passing record takes. -/
def takeToken (s : State) (r : LogRec) : State :=
  if r.sev = 6 || r.flags.testBit 0 then s
  else s.setScr { s.scr with buckets := s.scr.buckets.set r.code ⟨bucketNow s r.code + 1000000000, s.ltc⟩ }

/-- A suppressed record: counted, and part of the code's episode (R370). -/
def suppress (s : State) (r : LogRec) : State :=
  let s1 := s.incW (Reg.SCR_SUP_SUPP r.code)
  let e : Supp := match s1.scr.supp.get r.code with
    | some e => { e with n := e.n + 1, first := if e.n = 0 then r.ltc else e.first, last := r.ltc, sev := max e.sev r.sev, lastAt := s.ltc }
    | none => ⟨1, r.ltc, r.ltc, r.sev, s.ltc, s.ltc⟩
  s1.setScr { s1.scr with supp := s1.scr.supp.set r.code (some e), lossPend := true }

/-- A record fits the intake (R369). -/
def intakeFits (l : List LogRec) (r : LogRec) : Bool :=
  let used := entriesOf l
  let low := entriesOf (l.filter (fun x => x.sev ≤ 4))
  used + r.entries ≤ 256 && (5 ≤ r.sev || low + r.entries ≤ 224)

/-- Lowest severity present. -/
def lowestSev (l : List LogRec) : Nat := l.foldl (fun m x => min m x.sev) 7

/-- The list without its last element of a severity, and that element. -/
def dropYoungest (sev : Nat) : List LogRec → Option (LogRec × List LogRec)
  | [] => none
  | x :: t =>
    match dropYoungest sev t with
    | some (y, t') => some (y, x :: t')
    | none => if x.sev = sev then some (x, t) else none

/-- Room is made for a record by dropping the youngest of the lowest severity, while it is lower (R371). -/
def makeRoom (r : LogRec) : Nat → State → State
  | 0, s => s
  | n + 1, s =>
    if intakeFits s.scr.intake r then s
    else
      let lo := lowestSev s.scr.intake
      if lo < r.sev then
        match dropYoungest lo s.scr.intake with
        | some (y, t) => makeRoom r n (dropRec (s.setScr { s.scr with intake := t }) y)
        | none => s
      else s

/-- The intake takes a record, or drops it (R369, R371). -/
def enterIntake (s : State) (r : LogRec) : State :=
  let s1 := makeRoom r s.scr.intake.length s
  if intakeFits s1.scr.intake r then noteIntake (s1.setScr { s1.scr with intake := s1.scr.intake ++ [r] })
  else noteIntake (dropRec s1 r)

/-- The LEN check of R365. -/
def lenOk (n : Nat) : Bool := 32 ≤ n && n ≤ 4096 && n % 4 = 0

/-- A record passes the checks of R369 in order. -/
def offerChecks (s : State) (r : LogRec) : State :=
  if !lenOk r.len then s.incS Reg.SCR_REJ_LEN_REJ
  else if ratePasses s r then enterIntake (takeToken s r) r
  else suppress s r

/-- SCRIPT_LOG_OFFER: the oldest record offered, or a diagnostic dump of the supervisor (R365), whose code and content
the spec does not state (free values). -/
def scriptOffer (s : State) (dump : Option (Nat × Nat)) : State :=
  match dump with
  | some (len, sev) =>
    let words := len / 4 - 8
    let body := if lenOk len then (List.range words).map (fun i => (Config.freeWord (s.freeCtr + 1 + i)).toNat) else []
    let r : LogRec := ⟨0, len, (Config.freeWord s.freeCtr).toNat % 1024, sev % 7, 0, s.rul.clk.epoch, noInst, s.ltc, s.stampNow, body⟩
    offerChecks { s with freeCtr := s.freeCtr + 1 + words } r
  | none =>
    match s.scr.offers with
    | r :: t => offerChecks (s.setScr { s.scr with offers := t }) r
    | [] => s

/-- SUPPRESSED (R370): a summary falls due for a code. -/
def suppressedDue (s : State) (code : Nat) : State :=
  match s.scr.supp.get code with
  | some e =>
    let ends := decide (e.lastAt + 1000000000 ≤ s.ltc)
    let due := ends || decide (e.mark + 60000000000 ≤ s.ltc)
    if due then
      let s1 := if e.n = 0 then s else
        s.offer (mkRec ⟨0x200, e.sev⟩ 1 s.rul.clk.epoch noInst s.ltc s.stampNow [.w code, .w e.n, .q e.first, .q e.last])
      s1.setScr { s1.scr with supp := s1.scr.supp.set code (if ends then none else some { e with n := 0, sev := 0, mark := s.ltc }) }
    else s
  | none => s

/-! ### Pages (R366 to R368) -/

/-- SCR_OLDEST: the lowest SEQ still in a log page. -/
def noteOldest (s : State) : State :=
  let ps := s.scr.pages.filter (fun p => (p.2.state = 1 || p.2.state = 2) && p.2.used ≠ 0)
  match ps with
  | [] => s.setF Reg.SCR_OLDEST_SEQ 0
  | p :: t => s.setF Reg.SCR_OLDEST_SEQ (t.foldl (fun m q => if q.2.pseq < m.pseq then q.2 else m) p.2).first

/-- The next SEQ (R364). -/
def nextSeq (s : State) : Nat := (s.f Reg.SCR_SEQ_SEQ + 1) % 2 ^ 32

/-- The record as committed: SEQ, LOSS where records were lost since the last commit. -/
def committed (s : State) (r : LogRec) (flags : Nat) : LogRec :=
  { r with seq := nextSeq s, flags := r.flags ||| flags ||| (if s.scr.lossPend then 32 else 0) }

/-- After a commit: SEQ, LOSS spent, vector 7 for a severity at LOGSEV or above (R455). -/
def afterCommit (s : State) (r : LogRec) : State :=
  let s1 := s.setF Reg.SCR_SEQ_SEQ r.seq
  let s2 := s1.setScr { s1.scr with lossPend := false }
  let s3 := noteOldest s2
  if s.f Reg.HST_LOGSEV_SEV ≤ 6 && s.f Reg.HST_LOGSEV_SEV ≤ r.sev then s3.irq 7 else s3

/-- A record appended to a page. -/
def Page.add (p : Page) (r : LogRec) : Page :=
  { p with first := if p.used = 0 then r.seq else p.first, last := r.seq, used := p.used + r.len, maxSev := max p.maxSev r.sev,
           recs := p.recs ++ [r] }

/-- The writer closes a page: where 4 bytes or more remain, the padding mark takes the position of the next LEN (R367). -/
def Page.close (p : Page) : Page := { p with state := 2, pad := decide (p.used + 4 ≤ 4096) }

/-- A page as it is opened, with a PSEQ of its own (R366). -/
def Page.opened (pseq : Nat) : Page := { pseq := pseq, first := 0, last := 0, used := 0, maxSev := 0, state := 1, recs := [], pad := false }

/-- A record goes to the margin, or is dropped as SEV 6 when that is full (R368). -/
def toMargin (s : State) (r : LogRec) (flags : Nat) : State :=
  let c := s.scr
  let r1 := committed s r (flags ||| 8)
  let fits (i : Nat) : Bool := decide (i < 16) && decide ((c.margin.get i).used + r.len ≤ 4096)
  let at' := if fits c.marginAt then c.marginAt else c.marginAt + 1
  let m := if at' = c.marginAt || !decide (c.marginAt < 16) then c.margin else c.margin.upd c.marginAt Page.close
  if fits at' then
    let new := decide ((c.margin.get at').state = 0)
    let p := if new then Page.opened c.nextPseq else c.margin.get at'
    afterCommit (s.setScr { c with margin := m.set at' (p.add r1), marginAt := at', nextPseq := c.nextPseq + b2n new }) r1
  else dropRec ((s.setB Reg.SCR_STAT_MARGIN_FULL true).setScr { c with margin := m, marginAt := 16 }) { r with sev := 6 }

/-- The closed page that a record may reclaim: lowest PSEQ among those whose MAXSEV is at most its SEV (R367). -/
def reclaimable (t : Tab Page) (sev : Nat) : Option Nat :=
  let c := t.filter (fun p => p.2.state = 2 && p.2.maxSev ≤ sev)
  match c with
  | [] => none
  | p :: r => some (r.foldl (fun m q => if q.2.pseq < m.2.pseq then q else m) p).1

/-- A page is opened for a record: a new PSEQ, its first record. -/
def openPageFor (s : State) (i : Nat) (r : LogRec) (flags : Nat) : State :=
  let r1 := committed s r flags
  afterCommit (s.setScr { s.scr with pages := s.scr.pages.set i ((Page.opened s.scr.nextPseq).add r1), openPage := some i, nextPseq := s.scr.nextPseq + 1 }) r1

/-- A record is placed (R367), or goes to the margin (R368). -/
def place (s : State) (r : LogRec) (flags : Nat) : State :=
  if r.code = 0x201 then toMargin s r flags
  else
    let fit := match s.scr.openPage with
      | some i => decide ((s.scr.pages.get i).used + r.len ≤ 4096)
      | none => false
    match s.scr.openPage, fit with
    | some i, true =>
      let r1 := committed s r flags
      afterCommit (s.setScr { s.scr with pages := s.scr.pages.upd i (fun p => p.add r1) }) r1
    | o, _ =>
      let s1 := match o with
        | some i => s.setScr { s.scr with pages := s.scr.pages.upd i Page.close, openPage := none }
        | none => s
      match s1.scr.pages.firstFree 1024 with
      | some i => openPageFor (s1.setF Reg.SCR_STAT_FREE (s1.f Reg.SCR_STAT_FREE - 1)) i r flags
      | none =>
        match reclaimable s1.scr.pages r.sev with
        | some i => openPageFor s1 i r flags
        | none => if r.sev = 6 then toMargin s1 r flags else dropRec s1 r

/-! ### Freeze (R373, R374) -/

/-- SCR_HOLD shows the bytes held. -/
def noteHold (s : State) : State := s.setF Reg.SCR_HOLD_BYTES ((s.scr.holding.map (·.len)).sum)

/-- A freeze ends: the held records commit in order, each with HELD. -/
def endFreeze (s : State) : State :=
  let held := s.scr.holding
  let s1 := (s.setScr { s.scr with holding := [], freeze := none, frzDrops := 0 }).setB Reg.SCR_STAT_BLOTTED false
  noteHold (held.foldl (fun t r => place t r 2) s1)

/-- SCRIPT_LOG_COMMIT (R372): the writer takes the record at the intake head. -/
def scriptCommit (s : State) : State :=
  match s.scr.intake with
  | r :: t =>
    let s1 := noteIntake (s.setScr { s.scr with intake := t, commitAt := some s.ltc })
    if s1.scr.freeze.isSome then
      if s1.f Reg.SCR_HOLD_BYTES + r.len ≤ 524288 then
        noteHold (s1.setScr { s1.scr with holding := s1.scr.holding ++ [r] })
      else if r.sev ≤ 2 then
        let s2 := dropRec s1 r
        s2.setScr { s2.scr with frzDrops := s2.scr.frzDrops + 1 }
      else
        let n := s1.scr.holding.length
        let d := s1.scr.frzDrops
        let s2 := place (endFreeze s1) r 4
        (s2.setB Reg.SCR_STAT_BLOT_EARLY true).log Ev.BLOT_END_EARLY noInst [.w n, .w d]
    else place s1 r 0
  | [] => s

/-- BLOT_TIMEOUT (R373). -/
def blotTimeout (s : State) : State :=
  match s.scr.freeze with
  | some (_, t) => if t ≤ s.ltc then endFreeze (s.log Ev.BLOT_TIMEOUT noInst [.w s.scr.holding.length]) else s
  | none => s

/-- The close of the session that froze the log ends the freeze (R373). -/
def freezeSessionClosed (s : State) (n : Nat) : State :=
  match s.scr.freeze with
  | some (m, _) => if m = n then endFreeze s else s
  | none => s

/-- A start discards intake, holding area and offers, and counts them (R372); buckets are full again (R370). -/
def scriptStart (s : State) : State :=
  let n := s.scr.offers.length + s.scr.intake.length + s.scr.holding.length
  let s1 := s.incS Reg.SCR_REJ_LOST_START n
  let s2 := s1.setScr { s1.scr with offers := [], intake := [], holding := [], freeze := none, frzDrops := 0, buckets := [], supp := [],
                                    lossPend := s1.scr.lossPend || decide (n ≠ 0) }
  noteHold (noteIntake (s2.setB Reg.SCR_STAT_BLOTTED false))

/-! ### Reading (R375, R376) -/

/-- Bytes of a committed record (R363). -/
def recBytes (r : LogRec) : List Byte :=
  leBytes 2 r.len ++ leBytes 2 r.code ++ leBytes 2 (r.sev + 16 * r.flags) ++ leBytes 2 r.epoch ++ leBytes 4 r.seq ++ leBytes 2 r.inst ++
    leBytes 2 0 ++ leBytes 8 r.ltc ++ leBytes 8 r.stamp ++ (r.payload.map (fun w => leBytes 4 w)).flatten

/-- Pages with records, in order of PSEQ. -/
def insertPage (p : Page) : List Page → List Page
  | [] => [p]
  | q :: t => if p.pseq < q.pseq then p :: q :: t else q :: insertPage p t

def pagesInOrder (t : Tab Page) : List Page :=
  ((t.map (·.2)).filter (fun p => p.state = 1 || p.state = 2)).foldl (fun l p => insertPage p l) []

/-- Every record of the log pages, or of the margin, in SEQ order. -/
def allRecs (s : State) (margin : Bool) : List LogRec :=
  if margin then (s.scr.margin.map (fun p => p.2.recs)).flatten else ((pagesInOrder s.scr.pages).map (fun p => p.recs)).flatten

/-- Whole records that fit in a number of bytes. -/
def takeFitting : Nat → List LogRec → List LogRec
  | _, [] => []
  | n, r :: t => if r.len ≤ n then r :: takeFitting (n - r.len) t else []

/-- An uncorrectable error in a log page or margin page (R376), by its byte offset in region 6. -/
def logPageFail (s : State) (offset : Nat) : State :=
  let i := offset / 4096
  if i < 1024 then
    let p := s.scr.pages.get i
    let s0 := if p.state = 0 then s.setF Reg.SCR_STAT_FREE (s.f Reg.SCR_STAT_FREE - 1) else s
    let s1 := if p.state = 3 then s0 else s0.incW Reg.SCR_STAT_RETIRED
    let s2 := s1.setScr { s1.scr with pages := s1.scr.pages.set i { p with state := 3, recs := [] },
                                      openPage := if s1.scr.openPage = some i then none else s1.scr.openPage }
    (noteOldest s2).log Ev.LOG_PAGE_FAIL noInst [.w i, .w p.first, .w p.last]
  else (s.setB Reg.SCR_STAT_MARGIN_FAIL true).health Reg.SYS_HEALTH_LOG

/-- Byte offset and size lie in the host bulk region (R392). -/
def inBulk (s : State) (off size : Nat) : Bool := decide (off + size ≤ s.rd Reg.HST_BULKSIZE)

/-- DRAM address of a byte offset in the host bulk region (R452). -/
def bulkAddr (s : State) (off : Nat) : Nat := s.rd Reg.HST_BULKBASE + off

/-- BLOT (R373, R392). -/
def blot (s : State) (n : Nat) : State :=
  runCmd s n 0x40 (fun s c =>
    let tmo := c.arg 0 2
    if s.level n = 2 then refuse s stPRIV
    else if 1000 < tmo || !c.zero 2 32 then refuse s stARG
    else if s.scr.freeze.isSome then refuse s stSTATE
    else
      let ms := if tmo = 0 then s.f Reg.SCR_CFG_BLOT_TO else tmo
      okay ((s.setScr { s.scr with freeze := some (n, s.ltc + ms * 1000000), frzDrops := 0 }).setB Reg.SCR_STAT_BLOTTED true))

/-- UNBLOT (R373, R392). -/
def unblot (s : State) (n : Nat) : State :=
  runCmd s n 0x41 (fun s c =>
    if s.level n = 2 then refuse s stPRIV
    else if !c.zero 0 32 then refuse s stARG
    else match s.scr.freeze with
      | some (m, _) => if m ≠ n && s.level n ≠ 0 then refuse s stSTATE else okay (endFreeze s)
      | none => refuse s stSTATE)

/-- LOG_READ (R375, R392), after the records are read. -/
def logReadBody (s : State) (c : Cmd) : CmdOut :=
  let src := c.arg 4 1
  let off := c.arg 8 8
  let maxb := c.arg 16 4
  if 1 < src || maxb < 4096 || !inBulk s off maxb || !c.zero 5 8 || !c.zero 20 32 then refuse s stARG
  else
    let rs := takeFitting maxb ((allRecs s (src = 1)).filter (fun r => c.arg 0 4 ≤ r.seq))
    let bs := (rs.map recBytes).flatten
    okay (s.dramWrite (bulkAddr s off) bs) [(rs.head?.map (·.seq)).getD 0, (rs.getLast?.map (·.seq)).getD 0, bs.length]

/-- LOG_READ with what the code check found in the pages read: a page found uncorrectable retires first (R376). -/
def logRead (s : State) (n : Nat) (e : Ecc) : State :=
  runCmd s n 0x42 (fun t c =>
    let t1 := memNote t e
    match t.check e with
    | .ue l => logReadBody (logPageFail t1 l.offset) c
    | _ => logReadBody t1 c)

/-! ### Meanings -/

def execScriptLogOffer (dump : Option (Nat × Nat)) (s : State) : Host.Outcome State Fault Refusal := .next (scriptOffer s dump)

def execScriptLogCommit (s : State) : Host.Outcome State Fault Refusal := .next (scriptCommit s)

def execSuppressed (code : Fin 1024) (s : State) : Host.Outcome State Fault Refusal := .next (suppressedDue s code)

def execBlot (sess : Fin 16) (s : State) : Host.Outcome State Fault Refusal := .next (blot s sess)

def execUnblot (sess : Fin 16) (s : State) : Host.Outcome State Fault Refusal := .next (unblot s sess)

def execBlotTimeout (s : State) : Host.Outcome State Fault Refusal := .next (blotTimeout s)

def execLogRead (sess : Fin 16) (c : Ecc) (s : State) : Host.Outcome State Fault Refusal := .next (logRead s sess c)

end Sys2Proof.Machine
end

