-- ==== Sys2Proof/Machine/Vellum.lean ====
section
/-! DEFINITION. Vellum, the disturbance recorder (spec/11 R377 to R392): profiles, records, blocks, export. Instants are in
1/1,152,000 s of DTC, other times in ns. -/

namespace Sys2Proof.Machine

namespace State

def setVel (s : State) (v : Vel) : State := { s with vel := v }

def prof (s : State) (p : Nat) : VelProf := s.vel.prof.get p

def setProf (s : State) (p : Nat) (x : VelProf) : State := s.setVel { s.vel with prof := s.vel.prof.set p x }

/-- The open record of a profile. -/
def openRec (s : State) (p : Nat) : Option VelRec := s.vel.recs.find? (fun r => r.state = 0 && r.profile = p)

end State

/-! ### Blocks and registers (R382, R384) -/

/-- Blocks of the record area (R382). -/
def velBlocks (s : State) : Nat := if s.is8120 then 14336 else 28672

/-- Indices of a record's blocks, the first block among them. -/
def VelRec.indices (r : VelRec) : List Nat := r.head.toList ++ r.blocks.filterMap (·.index)

def VelRec.nblk (r : VelRec) : Nat := 1 + r.blocks.length

/-- Bits set in the integrity map (R383). -/
def VelRec.badblk (r : VelRec) : Nat := b2n r.headBad + (r.blocks.filter (·.bad)).length

/-- Bit of FLAGS. -/
def VelRec.flag (r : VelRec) (i : Nat) : Bool := r.flags.testBit i

def VelRec.setFlag (r : VelRec) (i : Nat) (b : Bool) : VelRec := { r with flags := setBitOf r.flags i b }

/-- [8] follows the integrity map. -/
def VelRec.noteMap (r : VelRec) : VelRec := r.setFlag 8 (r.badblk ≠ 0)

/-- VEL_SPACE, VEL_LAST_ID and VEL_OLDEST_ID show what the record area holds. -/
def noteVel (s : State) : State :=
  let used := (s.vel.recs.map (fun r => r.indices.length)).sum
  let locked := ((s.vel.recs.filter (fun r => r.flag 0)).map (fun r => r.indices.length)).sum
  s.setFs [(Reg.VEL_SPACE_FREE, velBlocks s - used), (Reg.VEL_SPACE_LOCKED, locked),
    (Reg.VEL_OLDEST_ID_ID, (s.vel.recs.head?.map (·.id)).getD 0), (Reg.VEL_LAST_ID_ID, (s.vel.recs.getLast?.map (·.id)).getD 0)]

/-- A record is replaced by a changed one. -/
def putRec (s : State) (r : VelRec) : State :=
  noteVel (s.setVel { s.vel with recs := s.vel.recs.map (fun x => if x.id = r.id then r else x) })

/-- The lowest index from `i` that is not in use. -/
def lowestFree (used : List Nat) : Nat → Nat → Option Nat
  | 0, _ => none
  | n + 1, i => if used.contains i then lowestFree used n (i + 1) else some i

def usedIndices (s : State) : List Nat := (s.vel.recs.map VelRec.indices).flatten

/-- The oldest closed record that carries neither LOCKED nor EXPORTING is dropped (R384). -/
def freeOldest (s : State) : Option State :=
  match s.vel.recs.find? (fun r => r.state = 1 && !r.flag 0 && !r.flag 1) with
  | some r => some (noteVel (s.setVel { s.vel with recs := s.vel.recs.filter (fun x => x.id ≠ r.id) }))
  | none => none

/-- A block for a record that has the blocks `own`: a free one, or one of the record that is freed for it. -/
def takeBlock (s : State) (own : List Nat) : State × Option Nat :=
  match lowestFree (own ++ usedIndices s) (velBlocks s) 0 with
  | some i => (s, some i)
  | none =>
    match freeOldest s with
    | some t => (t, lowestFree (own ++ usedIndices t) (velBlocks t) 0)
    | none => (s, none)

/-- The record loses a block (R384): SPACE, counted and logged once for the record. -/
def spaceLost (s : State) (r : VelRec) : State × VelRec :=
  if r.flag 4 then (s, r)
  else ((s.incS Reg.VEL_CNT_SPACE).log Ev.VEL_SPACE noInst [.w r.id], r.setFlag 4 true)

/-! ### Rows -/

/-- Bytes of a main row (R382). -/
def rowBytes (na nb : Nat) : Nat := (5 * na + (nb + 7) / 8 + 3) / 4 * 4

/-- Rows of a main block: 65,504 bytes hold them. -/
def rowsPerBlock (na nb : Nat) : Nat := if rowBytes na nb = 0 then 65504 else 65504 / rowBytes na nb

/-- Ring blocks of a TW block. -/
def twPerBlock : Nat := 454

def VelBlock.count (b : VelBlock) : Nat := b.rows.length + b.tw.length

/-- The last block of a group, if the record has one. -/
def lastOf (g : Nat) (r : VelRec) : Option VelBlock := (r.blocks.filter (fun b => b.group = g)).getLast?

/-! ### Write bursts (R21, R386): one for each row (DESIGN CHOICE, log entry 52) -/

/-- The 128 credits are given to the oldest bursts, each with the LTC of its issue. -/
def issueBursts (ltc : Nat) (l : List VelBurst) : List VelBurst :=
  (l.take 128).map (fun b => { b with at' := some (b.at'.getD ltc) }) ++ l.drop 128

def State.setBursts (s : State) (l : List VelBurst) : State := s.setVel { s.vel with bursts := issueBursts s.ltc l }

/-- A row of a record goes to the record area. -/
def addBurst (s : State) (r : VelRec) (g row : Nat) : State := s.setBursts (s.vel.bursts ++ [⟨r.id, g, row, none⟩])

/-- The oldest burst has completed, and its credit is free (R18). -/
def burstDone (s : State) : State := s.setBursts (s.vel.bursts.drop 1)

/-- Bursts of a record that have not completed. -/
def burstsOf (s : State) (r : VelRec) : List VelBurst := s.vel.bursts.filter (fun b => b.id = r.id)

/-- A block is added to the record's chain. -/
def addBlock (s : State) (r : VelRec) (g first : Nat) : State × VelRec :=
  let t := takeBlock s r.indices
  match t.2 with
  | some i => (t.1, { r with blocks := r.blocks ++ [⟨some i, g, first, [], [], false⟩] })
  | none =>
    let l := spaceLost t.1 { r with blocks := r.blocks ++ [⟨none, g, first, [], [], true⟩] }
    (l.1, l.2.noteMap)

/-- The last block of a group is changed. -/
def onLast (g : Nat) (f : VelBlock → VelBlock) : List VelBlock → List VelBlock
  | [] => []
  | b :: t => if b.group = g && !t.any (fun c => c.group = g) then f b :: t else b :: onLast g f t

/-- A row joins the record (R381): the last main block, or a new one. A row that spans a DTC step sets TIME_STEP (R388). -/
def addRow (s : State) (r : VelRec) (row : VelRow) : State × VelRec :=
  let na := row.vals.length
  let cap := rowsPerBlock na row.bins.length
  let n := ((r.blocks.filter (fun b => b.group = 0)).map VelBlock.count).sum
  let full : Bool := match lastOf 0 r with | some b => decide (cap ≤ b.count) | none => true
  let a := if full then addBlock s r 0 n else (s, r)
  let lost : Bool := match lastOf 0 a.2 with | some b => b.index.isNone | none => true
  let step : Bool := decide (n ≠ 0) && decide (row.epoch ≠ a.2.epoch) && !a.2.flag 5
  let r1 : VelRec := { a.2 with blocks := onLast 0 (fun b => { b with rows := b.rows ++ [row] }) a.2.blocks,
                                mainRows := a.2.mainRows + b2n (!lost), start := if n = 0 then row.stamp else a.2.start,
                                epoch := if n = 0 then row.epoch else a.2.epoch, fin := row.stamp,
                                stepRow := if step then n else a.2.stepRow }
  (if lost then a.1 else addBurst a.1 r 0 n, if step then r1.setFlag 5 true else r1)

/-- TW rows of a record, by hold and converter. -/
def insertTw (b : TwBlock) : List TwBlock → List TwBlock
  | [] => [b]
  | c :: t => if b.hold < c.hold || (b.hold = c.hold && b.input / 4 < c.input / 4) then b :: c :: t else c :: insertTw b t

/-- The rows laid out again over the TW blocks of the chain, 454 to a block. -/
def spreadTw : List VelBlock → List TwBlock → List VelBlock
  | [], _ => []
  | b :: t, rows => if b.group = 1 then { b with tw := rows.take twPerBlock } :: spreadTw t (rows.drop twPerBlock) else b :: spreadTw t rows

/-- TW rows recorded: not those that stand for an overwritten block. -/
def twGot (r : VelRec) : Nat :=
  ((r.blocks.filter (fun b => b.index.isSome)).map (fun b => (b.tw.filter (fun x => x.codes ≠ [])).length)).sum

/-- A ring block is copied into the record (R381), in ascending converter order within a window (R382). -/
def addTw (s : State) (r : VelRec) (b : TwBlock) : State × VelRec :=
  let old := (r.blocks.map (·.tw)).flatten
  let room := twPerBlock * (r.blocks.filter (fun b => b.group = 1)).length
  let a := if room ≤ old.length then addBlock s r 1 old.length else (s, r)
  let r1 : VelRec := { a.2 with blocks := spreadTw a.2.blocks (insertTw b old) }
  (if r1.blocks.getLast?.elim true (·.index.isNone) then a.1 else addBurst a.1 r 1 old.length, ({ r1 with twRows := twGot r1 }).setFlag 7 true)

/-- DTC ns of the first hold of a ring block. -/
def twNs (b : TwBlock) : Nat := b.hold * 1000000000 / 98304000

/-- A ring block lies in a record's TW window by its first hold, on the time of the trigger: 96 blocks a lane and ms, as in the worked
example of spec/11. -/
def twInside (r : VelRec) (b : TwBlock) : Bool :=
  b.epoch = r.twEpoch && decide (r.twFrom ≤ twNs b) && decide (twNs b < r.twTo) && r.lanes.testBit (b.input / 4)

/-- Blocks of a record's TW window that lane `c` has overwritten, as rows without codes (R381). -/
def twGone (s : State) (r : VelRec) (c : Nat) : List TwBlock :=
  match (s.vel.lanes.get c).getLast? with
  | some o =>
    if 29127 ≤ max (s.vel.lanes.get c).length (s.vel.blkSeq.get c) && o.epoch = r.twEpoch && !o.flags.testBit 2 then
      let last := (o.hold + 504) / 1024
      let n := min 29127 ((min (twNs o) r.twTo - r.twFrom) * 96 / 1000000 + 2)
      ((List.range n).map (fun i => ({ hold := 1024 * (last - 1 - i) - 504, epoch := o.epoch, slot := 0,
                                       stamp := stampNs ((1024 * (last - 1 - i) - 504) * 1000000000 / 98304000) (s.tqIn o.epoch ((1024 * (last - 1 - i) - 504) * 1000000000 / 98304000)),
                                       flags := 0, firstOvr := 255, input := 4 * c, seq := 0, codes := [] } : TwBlock))).filter
        (fun b => twInside r b && decide (b.hold < o.hold))
    else []
  | none => []

/-- Every open record copies a ring block written to lane `c` (R381). -/
def velTwBlock (s : State) (b : TwBlock) : State :=
  s.vel.recs.foldl (fun t r =>
    if r.state = 0 && r.twFrom < r.twTo && twInside r b then
      let a := addTw t r b
      putRec a.1 a.2
    else t) s

/-! ### Firing (R379, R380) -/

/-- Instants between rows of a profile: 96 kS/s, 4.8 kS/s, or the rate of its first channel's stream (R377, PBI_SCnnn_CFG). -/
def rateStep (code : Nat) : Nat :=
  if code = 0 then 288 else if code = 1 then 240 else if code = 2 then 90 else if code = 3 then 80 else if code = 4 then 75 else 12

def velStep (s : State) (p : Nat) : Nat :=
  let k := s.f (Reg.VEL_PR_CFG_RATE p)
  if k = 0 then 12 else if k = 1 then 240
  else match (s.vel.tabs.get p).chans with
    | c :: _ => rateStep (s.f (Reg.PBI_SC_CFG_RATE c.stream))
    | [] => 240

/-- Instant of a DTC in ns, taken down to a grid. -/
def gridDown (ns step : Nat) : Nat := ns * 1152000 / 1000000000 / step * step

def instantsOfMs (ms : Nat) : Nat := ms * 1152

/-- TRIGSRC (R383). -/
def trigSrc (kind idx : Nat) : Nat := kind + 16 * idx

/-- The pre-trigger rows of a record from instant `lo`, oldest first: those of the present epoch by their instant, and behind a DTC step
as many older ones as PRE still takes, `n` rows in all (log entry 61). -/
def preRows (s : State) (p lo n : Nat) : List VelRow :=
  let ring := (s.prof p).ring
  let now := ring.filter (fun r => r.epoch = s.rul.clk.epoch)
  let mine := now.filter (fun r => lo ≤ r.instant)
  (if mine.length < now.length then mine else mine ++ (ring.drop now.length).take (n - now.length)).reverse

/-- The channels and binaries that profile `p` records: NA and NB of its table (R377). -/
def velTab (s : State) (p : Nat) : VelTab :=
  let t := s.vel.tabs.get p
  { t with chans := t.chans.take (s.f (Reg.VEL_PR_CFG_NA p)), bins := t.bins.take (s.f (Reg.VEL_PR_CFG_NB p)) }

/-- A record opens (R380). -/
def openRecord (s : State) (p kind idx t1 stamp : Nat) : State :=
  let step := velStep s p
  let pre := instantsOfMs (s.f (Reg.VEL_PR_PRE_PRE p))
  let from' := (t1 * 1152000 / 1000000000 - pre) / step * step
  let rows := preRows s p from' (pre / step)
  let short := match rows.head? with | some r => decide (r.epoch = s.rul.clk.epoch && from' < r.instant) | none => true
  let startI := match rows.head? with | some r => (if r.epoch = s.rul.clk.epoch then r.instant else from') | none => from'
  let postEnd := t1 + s.f (Reg.VEL_PR_POST_POST p) * 1000000
  let capEnd := nsOfInstant startI + s.f (Reg.VEL_PR_POST_MAXLEN p) * 1000000
  let twPre := s.f (Reg.VEL_PR_TW_TWPRE p) * 10000
  let twPost := s.f (Reg.VEL_PR_TW_TWPOST p) * 10000
  let lanes := s.f (Reg.VEL_PR_LANES_LANES p)
  let id := s.vel.nextId + 1
  let b := takeBlock s []
  let r0 : VelRec := { id := id, profile := p, state := 0, flags := if short then 1024 else 0, start := s.stampAt startI,
                       trig := stamp, fin := 0, epoch := s.rul.clk.epoch, ntrig := 1, trigSrc := trigSrc kind idx, mainRows := 0, twRows := 0,
                       stepRow := 0xFFFFFFFF, startNs := nsOfInstant startI, endNs := min postEnd capEnd, twFrom := t1 - twPre, twEpoch := s.rul.clk.epoch,
                       twTo := if lanes = 0 then t1 - twPre else t1 + twPost, lanes := lanes, step := step, head := b.2, headBad := b.2.isNone,
                       blocks := [], tab := velTab s p }
  let l := if b.2.isNone then spaceLost b.1 r0 else (b.1, r0)
  let s1 := l.1.setVel { l.1.vel with recs := l.1.vel.recs ++ [l.2], nextId := id }
  let s2 := s1.setFs [(Reg.VEL_PR_STAT_CUR_ID p, id), (Reg.VEL_STAT_OPEN, setBitOf (s1.f Reg.VEL_STAT_OPEN) p true)]
  let s3 := (s2.incW (Reg.VEL_PR_CNT_RECORDS p)).log Ev.VEL_OPEN noInst [.w id, .w p, .w (trigSrc kind idx)]
  let inEnd (row : VelRow) : Bool := decide (nsOfInstant row.instant ≤ l.2.endNs)
  let a := (rows.filter inEnd).foldl (fun x row => addRow x.1 x.2 row) (s3, l.2)
  let on := twPre + twPost ≠ 0
  let held := if on then ((bitsOf 16 lanes).map (fun c => (s.vel.lanes.get c).filter (twInside l.2))).flatten else []
  let lost := if on then ((bitsOf 16 lanes).map (twGone s l.2)).flatten else []
  let gone := (bitsOf 16 lanes).any (fun c => decide (29127 ≤ max (s.vel.lanes.get c).length (s.vel.blkSeq.get c)) &&
    (match (s.vel.lanes.get c).getLast? with | some o => decide (l.2.twFrom < twNs o) | none => false))
  let b2 := (lost ++ held).foldl (fun x blk => addTw x.1 x.2 blk) a
  let late := gone && decide on
  let r3 := if late then b2.2.setFlag 9 true else b2.2
  noteVel (putRec (if late then b2.1.incS Reg.VEL_CNT_TW_LATE else b2.1) r3.noteMap)

/-- A profile fires at an instant given in DTC ns and as a stamp (R380). -/
def velFire (s : State) (p kind idx t1 stamp : Nat) : State :=
  if !s.on (Reg.VEL_PR_CFG_EN p) || !s.running then s
  else
    match s.openRec p with
    | some r =>
      if s.on (Reg.VEL_PR_CFG_RETRIG p) then
        let want := t1 + s.f (Reg.VEL_PR_POST_POST p) * 1000000
        let cap := r.startNs + s.f (Reg.VEL_PR_POST_MAXLEN p) * 1000000
        let r1 : VelRec := { r with endNs := max r.endNs (min want cap), ntrig := min (r.ntrig + 1) 65535 }
        putRec s r1
      else s.incS (Reg.VEL_PR_CNT_IGNORED p)
    | none =>
      match (s.prof p).closedAt with
      | some t => if s.ltc < t + s.f (Reg.VEL_PR_PRE_HOLDOFF p) * 1000000 then s.incS (Reg.VEL_PR_CNT_IGNORED p) else openRecord s p kind idx t1 stamp
      | none => openRecord s p kind idx t1 stamp

/-- Every profile with a term of that kind and index fires (R379), profile by profile. -/
def velTerm (s : State) (kind idx t1 stamp : Nat) : State :=
  (List.range 16).foldl (fun t p =>
    if (List.range (min 16 (t.f (Reg.VEL_PR_CFG_NTRIG p)))).any (fun k => t.f (Reg.VEL_PR_TRIG_KIND p k) = kind && t.f (Reg.VEL_PR_TRIG_INDEX p k) = idx)
    then velFire t p kind idx t1 stamp else t) s

/-- A term fires now. -/
def velTermNow (s : State) (kind idx : Nat) : State := velTerm s kind idx s.dtcNs s.stampNow

/-- A write of VEL_TRIG (R379): the host fires each profile whose bit is 1 (kind 15). -/
def velTrigWrite (s : State) (v : Nat) : State :=
  (bitsOf 16 v).foldl (fun t p => velFire t p 15 0 t.dtcNs t.stampNow) s

/-- A Quill VTRG fires a profile (kind 14). -/
def velTrigQuill (s : State) (p task : Nat) : State := velFire s p 14 task s.dtcNs s.stampNow

/-! ### Row assembly (R381) -/

/-- The set of a stream for an instant of the present time is in its ring. -/
def setOf (s : State) (sc inst : Nat) : Option SampleSet :=
  (s.pbi.sc.get sc).ring.find? (fun x => x.instant = inst && x.epoch = s.rul.clk.epoch)

/-- It will not come any more: a later one is there, the context of a received stream is not VALID, or a local stream has no channel
(R381; DEDUCED, log entry 16). -/
def setMissing (s : State) (sc inst : Nat) : Bool :=
  (s.pbi.sc.get sc).ring.any (fun x => inst < x.instant && x.epoch = s.rul.clk.epoch) ||
    (if 192 ≤ sc then decide (fedChans s (sc - 192) = 0) else s.f (Reg.PBI_SC_STAT_STATE sc) ≠ 2 || !s.on (Reg.PBI_SC_CFG_EN sc))

/-- A binary of a profile (R377): class and index. -/
def velBinary (s : State) (code : Nat) : Bool :=
  let cls := code / 4096
  let i := code % 4096
  if cls = 0 then s.stk.vec.testBit i
  else if cls = 1 then s.on (Reg.STK_SO_STAT_ASSERTED i)
  else if cls = 2 then s.qil.qb.testBit i
  else if cls = 3 then s.on (Reg.FIO_FC_STAT_IN i)
  else if cls = 4 then s.afe.crossed.testBit i
  else if cls = 5 then (s.f (Reg.NIB_NC_OUT_OUT (i / 8))).testBit (i % 8)
  else false

/-- The instant of the next row: a step after the last, or the last grid instant at the start and after a DTC step. -/
def nextRow (s : State) (p : Nat) : Nat :=
  let step := velStep s p
  match (s.prof p).last, (s.prof p).ring.head? with
  | some t, some r => if r.epoch = s.rul.clk.epoch then t + step else gridDown s.dtcNs step
  | some t, none => t + step
  | none, _ => gridDown s.dtcNs step

/-- Flits of sample sets of profile `p` that wait in the stream rings for their row, 8 channels to a flit; no more than the 32 credits of
the capture queue are in flight (R21). -/
def captureOut (s : State) (p : Nat) : Nat :=
  if s.on (Reg.VEL_PR_CFG_EN p) && s.running then
    let n := nextRow s p
    min 32 (((velTab s p).chans.map (·.stream)).eraseDups.map (fun sc =>
      (((s.pbi.sc.get sc).ring.filter (fun x => decide (n ≤ x.instant) && x.epoch = s.rul.clk.epoch && (x.instant - n) % velStep s p = 0)).map
        (fun x => (x.vals.length + 7) / 8)).sum)).sum
  else 0

/-- VELLUM_ROW_ASSEMBLE (R381): the next row of an enabled profile whose channels are all present or missing. -/
def rowAssemble (s : State) (p : Nat) : State :=
  let tab := velTab s p
  let n := nextRow s p
  let ready := tab.chans.all (fun c => (setOf s c.stream n).isSome || setMissing s c.stream n)
  if s.on (Reg.VEL_PR_CFG_EN p) && s.running && nsOfInstant n ≤ s.dtcNs && ready then
    let got := tab.chans.map (fun c => match setOf s c.stream n with
      | some x => (x.vals.getD c.chan 0, x.quals.getD c.chan 1)
      | none => (0, 1))
    let row : VelRow := { instant := n, epoch := s.rul.clk.epoch, stamp := s.stampAt n, vals := got.map (·.1), quals := got.map (·.2),
                          bins := tab.bins.map (velBinary s) }
    let keep := instantsOfMs (s.f (Reg.VEL_PR_PRE_PRE p) + 100)
    let pr := s.prof p
    let ring := (row :: pr.ring).take (keep / velStep s p + 1)
    let s1 := s.setProf p { pr with ring := ring, last := some n }
    match s1.openRec p with
    | some r =>
      if r.startNs ≤ nsOfInstant n && nsOfInstant n ≤ r.endNs then
        let a := addRow s1 r row
        putRec a.1 a.2
      else s1
    | none => s1
  else s

/-! ### Closing (R380, R386, R387) -/

/-- A record closes, and a committed epoch reaches its profile (R440); `hold`: HOLDOFF runs from here. -/
def closeRecord (s : State) (r : VelRec) (hold : Bool) : State :=
  let r1 : VelRec := ({ r with state := 1 }).noteMap
  let s1 := (putRec s r1).setBursts (s.vel.bursts.filter (fun b => b.id ≠ r.id))
  let s2 := s1.setFs [(Reg.VEL_PR_STAT_CUR_ID r.profile, 0), (Reg.VEL_STAT_OPEN, setBitOf (s1.f Reg.VEL_STAT_OPEN) r.profile false)]
  let s3 := s2.setProf r.profile { s2.prof r.profile with closedAt := if hold then some s.ltc else none }
  takeCommit (s3.log Ev.VEL_CLOSE noInst [.w r.id, .w r1.nblk, .w r1.flags]) (0x111000 + r.profile * 0x80) 0x80

/-- VEL_CLOSE: the rows up to the end and the TW window are in, and the last burst is written (R380). A record whose main group has
reached MAXLEN carries the flag. -/
def velClose (s : State) (p : Nat) : State :=
  match s.openRec p with
  | some r =>
    let rowsIn := match (s.prof p).last with | some t => decide (r.endNs < nsOfInstant (t + velStep s p)) | none => false
    if rowsIn && r.twTo ≤ s.dtcNs && burstsOf s r = [] then
      closeRecord s (if r.startNs + s.f (Reg.VEL_PR_POST_MAXLEN p) * 1000000 ≤ r.endNs then r.setFlag 2 true else r) true
    else s
  | none => s

/-- The rows of a group from row `n` on are not in the record; `mark`: the blocks meant for them count as missing. -/
def VelBlock.cut (n : Nat) (mark : Bool) (b : VelBlock) : VelBlock :=
  { b with rows := b.rows.take (n - b.first), tw := b.tw.take (n - b.first), bad := b.bad || (mark && decide (n < b.first + b.count)) }

/-- A record ends at its last good burst (R386, R387): in each group nothing stays from the first row on whose burst has not completed. -/
def cutTail (s : State) (r : VelRec) (mark : Bool) : VelRec :=
  let firstOut (g : Nat) : Option Nat := (((burstsOf s r).filter (fun b => b.group = g)).map (·.row)).min?
  let bs := r.blocks.map (fun b => match firstOut b.group with | some n => b.cut n mark | none => b)
  let kept := if mark then bs else bs.filter (fun b => b.count ≠ 0 || b.bad)
  let rows := ((kept.filter (fun b => b.group = 0 && b.index.isSome)).map (·.rows)).flatten
  let r1 : VelRec := { r with blocks := kept, mainRows := rows.length, fin := (rows.getLast?.map (·.stamp)).getD 0 }
  if burstsOf s r = [] then r else { r1 with twRows := twGot r1 }

/-- VEL_WRITE_TIMEOUT (R386): the oldest burst of the profile's open record has not completed within WTO. -/
def velWriteTimeout (s : State) (p retrain : Nat) : State :=
  match s.openRec p with
  | some r =>
    let late := (burstsOf s r).any (fun b => match b.at' with | some t => decide (t + s.f Reg.VEL_CFG_WTO * 1000000 ≤ s.ltc) | none => false)
    if late then
      let s1 := (s.incS Reg.VEL_CNT_WTO).log Ev.VEL_WRITE_TIMEOUT noInst [.w r.id, .w retrain]
      closeRecord s1 ((cutTail s r true).setFlag 3 true) false
    else s
  | none => s

/-- A warm start closes each open record at its last good burst with START set; pre-trigger rings restart empty (R387). -/
def velWarm (s : State) : State :=
  let opens := s.vel.recs.filter (fun r => r.state = 0)
  let s1 := opens.foldl (fun t r => closeRecord t ((cutTail t r false).setFlag 6 true) true) s
  let un := s1.vel.recs.map (fun r => r.setFlag 1 false)
  noteVel (s1.setVel { s1.vel with recs := un, exporting := none,
                                   prof := s1.vel.prof.map (fun q => (q.1, { q.2 with ring := [], last := none })) })

/-- A cold start empties the record area (R387). -/
def velCold (s : State) : State :=
  noteVel (s.setVel { s.vel with recs := [], nextId := 0, prof := [], lanes := [], blkSeq := [], twSlot := [], bursts := [], exporting := none })

/-! ### Block bytes (R382, R383) -/

/-- The 64 bytes of a descriptor. -/
def descBytes (r : VelRec) : List Byte :=
  leBytes 4 r.id ++ leBytes 1 r.profile ++ leBytes 1 r.state ++ leBytes 2 r.flags ++ leBytes 8 r.start ++ leBytes 8 r.trig ++ leBytes 8 r.fin ++
    leBytes 2 r.epoch ++ leBytes 2 r.ntrig ++ leBytes 4 (r.head.getD 0xFFFFFFFF) ++ leBytes 4 r.nblk ++ leBytes 4 r.badblk ++ leBytes 2 r.trigSrc ++
    leBytes 2 0 ++ leBytes 4 r.mainRows ++ leBytes 4 r.twRows ++ leBytes 4 r.stepRow

/-- The integrity map: bit k for block k of the record, 8,192 blocks. -/
def mapBytes (r : VelRec) : List Byte :=
  let bad := maskOf (((List.range r.nblk).zip (r.headBad :: r.blocks.map (·.bad))).filterMap (fun p => if p.2 then some p.1 else none))
  leBytes 1024 bad

/-- Bytes of a main row. -/
def mainRowBytes (row : VelRow) : List Byte :=
  let bs := (row.vals.map (fun v => leBytes 4 (tc 32 v))).flatten ++ row.quals.map (BitVec.ofNat 8) ++
    leBytes ((row.bins.length + 7) / 8) (maskOf (((List.range row.bins.length).zip row.bins).filterMap (fun p => if p.2 then some p.1 else none)))
  bs ++ List.replicate (rowBytes row.vals.length row.bins.length - bs.length) 0#8

/-- Bytes of a ring block (R110). -/
def twBytes (b : TwBlock) : List Byte :=
  leBytes 8 b.stamp ++ leBytes 1 b.flags ++ leBytes 1 b.firstOvr ++ leBytes 1 b.input ++ leBytes 1 0 ++ leBytes 4 b.seq ++
    (b.codes.map (fun c => leBytes 2 (tc 16 c))).flatten

/-- Bytes of a block with the index of the next (R382). -/
def blockBytes (r : VelRec) (b : VelBlock) (next : Nat) : List Byte :=
  let stamp := match b.rows.head?, b.tw.head? with | some x, _ => x.stamp | none, some y => y.stamp | none, none => 0
  let ep := match b.rows.head?, b.tw.head? with | some x, _ => x.epoch | none, some y => y.epoch | none, none => r.epoch
  leBytes 4 r.id ++ leBytes 4 next ++ leBytes 8 stamp ++ leBytes 4 b.count ++ leBytes 1 b.group ++ leBytes 1 0 ++ leBytes 2 ep ++ leBytes 4 b.first ++
    leBytes 4 0 ++ (b.rows.map mainRowBytes).flatten ++ (b.tw.map twBytes).flatten

/-- A byte of the first block: descriptor, integrity map, then the channel table, whose layout the spec does not give. -/
def headByte (r : VelRec) (off : Nat) : Byte :=
  if off < 64 then (descBytes r).getD off 0 else if off < 1088 then (mapBytes r).getD (off - 64) 0 else Config.layoutByte r.profile (off - 1088)

/-- Blocks of a record with the index that follows each. -/
def withNext : List VelBlock → List (VelBlock × Nat)
  | [] => []
  | [b] => [(b, 0xFFFFFFFF)]
  | b :: c :: t => (b, c.index.getD 0xFFFFFFFF) :: withNext (c :: t)

/-- A byte of the record area at an offset from HST_RECBASE (R382, R452). -/
def velByte (s : State) (off : Nat) : Byte :=
  let i := off / 65536
  let o := off % 65536
  match s.vel.recs.find? (fun r => r.indices.contains i) with
  | some r =>
    if r.head = some i then headByte r o
    else match (withNext r.blocks).find? (fun b => b.1.index = some i) with
      | some b => (blockBytes r b.1 b.2).getD o 0
      | none => 0
  | none => 0

/-- A byte of the TW ring, lane c at c × 4 MiB, a block at its place in the lane (R110). -/
def twRingByte (s : State) (off : Nat) : Byte :=
  let c := off / 4194304
  let k := off % 4194304 / 144
  match (s.vel.lanes.get c).find? (fun b => b.slot = k) with
  | some b => (twBytes b).getD (off % 4194304 % 144) 0
  | none => 0

/-- An unreadable block (R388): its bit in the map, counted and logged. -/
def velReadErr (s : State) (index : Nat) : State :=
  match s.vel.recs.find? (fun r => r.indices.contains index) with
  | some r =>
    let bad := (r.head = some index && r.headBad) || r.blocks.any (fun b => b.index = some index && b.bad)
    if bad then s
    else
      let r1 : VelRec := { r with headBad := r.headBad || decide (r.head = some index),
                                  blocks := r.blocks.map (fun b => if b.index = some index then { b with bad := true } else b) }
      ((putRec s r1.noteMap).incS Reg.VEL_CNT_READ_ERR).log Ev.VEL_READ_ERR noInst [.w r.id, .w index]
  | none => s

/-! ### Commands (R385, R389 to R392) -/

def recById (s : State) (id : Nat) : Option VelRec := s.vel.recs.find? (fun r => r.id = id)

/-- VEL_LIST: descriptors in ID order, as many as fit. -/
def velListBody (s : State) (c : Cmd) : CmdOut :=
  let off := c.arg 8 8
  let maxb := c.arg 16 4
  if maxb = 0 || maxb % 64 ≠ 0 || !inBulk s off maxb || !c.zero 4 8 || !c.zero 20 32 then refuse s stARG
  else
    let rs := (s.vel.recs.filter (fun r => c.arg 0 4 ≤ r.id)).take (maxb / 64)
    okay (s.dramWrite (bulkAddr s off) (rs.map descBytes).flatten) []

/-- The limits of R385 allow another record to be locked: 64 records, 16,384 blocks (8,192 on the SPT-8120). -/
def lockAllowed (s : State) (r : VelRec) : Bool :=
  let locked := s.vel.recs.filter (fun x => x.flag 0)
  decide (locked.length < 64) && decide ((locked.map VelRec.nblk).sum + r.nblk ≤ (if s.is8120 then 8192 else 16384))

def velLockBody (n : Nat) (lock : Bool) (s : State) (c : Cmd) : CmdOut :=
  if s.level n = 2 then refuse s stPRIV
  else
    match recById s (c.arg 0 4) with
    | none => refuse s stARG
    | some r =>
      if !c.zero 4 32 then refuse s stARG
      else if lock then
        if r.flag 0 || !lockAllowed s r then refuse s stSTATE else okay (putRec s (r.setFlag 0 true))
      else if r.flag 0 then okay (putRec s (r.setFlag 0 false)) else refuse s stSTATE

/-- A row of an export: its counts, none where the block is missing or unreadable or the sample INVALID, and its binaries. -/
abbrev CtRow := List (Option Int) × List Bool

/-- The rows of the main group. -/
def mainCt (r : VelRec) : List CtRow :=
  (r.blocks.filter (fun b => b.group = 0)).flatMap (fun b => b.rows.map (fun row =>
    ((row.vals.zip row.quals).map (fun p => if b.bad || p.2.testBit 0 then none else some p.1), row.bins)))

/-- The rows of the TW group: 64 for each window, a column for each lane. -/
def twCt (r : VelRec) : List CtRow :=
  let got := (r.blocks.filter (fun b => b.group = 1)).flatMap (fun b => b.tw.map (fun x => (x, b.bad)))
  (got.map (·.1.hold)).eraseDups.flatMap (fun h => (List.range 64).map (fun k =>
    ((bitsOf 16 r.lanes).map (fun c => match got.find? (fun q => q.1.hold = h && q.1.input / 4 = c) with
      | some (x, bad) => if bad then none else x.codes[k]?
      | none => none), [])))

/-- The value that a format writes (R390): the count, the count scaled into ±32,767 by the largest |count| `m`, or the primary value. The
rounding of the scaled count is the model's (log entry 9). -/
def ctValue (format scale m : Nat) (v : Option Int) : Option Int :=
  if format = 1 then some (match v with | some c => (if m = 0 then 0 else ndiv (c * 32767) m) | none => -32768)
  else if format = 2 then some (v.getD (-2147483648))
  else if format = 3 then v.map (fun c => (fmul32 (f32.ofInt c) scale : Nat))
  else v

/-- The a of a channel, as binary32 (R390). -/
def ctA (format scale m : Nat) : Nat :=
  if format = 1 then fdiv32 (fmul32 scale (f32.ofInt m)) (f32.ofInt 32767) else if format = 3 then f32.ofInt 1 else scale

/-- A stamp as UTC in ns: DTC seconds minus TAI_UTC (R84). -/
def utcOf (s : State) (stamp : Nat) : Int :=
  ((stamp / 2 ^ 32 : Nat) : Int) * 1000000000 + (stamp % 2 ^ 32 / 4 : Nat) - (s.f Reg.RUL_LEG_CFG_TAI_UTC : Int) * 1000000000

/-- tmq_code of a TQ. -/
def tmqCode (tq : Nat) : Int := if tq = 0 then 3 else if tq = 1 then 4 else if tq = 2 then 6 else 15

/-- What an export writes (R389, R390): nrates 1, samp, endsamp, ns in a timestamp count, START and TRIG as UTC, in version 2013
time_code, local_code, tmq_code and leapsec; then a and b of the channels and the rows, binary16 scaled by the largest |count| of the
group. The SCALE of a TW lane is stated nowhere (log entry 9). -/
def exportBytes (s : State) (r : VelRec) (group version format : Nat) : List Byte :=
  let rows := if group = 1 then twCt r else mainCt r
  let scales : List Nat :=
    if group = 1 then (bitsOf 16 r.lanes).map (fun c : Nat => (Config.unstated 0x390 (c : Int) 0).toNat) else r.tab.chans.map (fun c => c.scale.toNat)
  let top := (rows.map (fun x => (x.1.map (fun v => (v.getD 0).natAbs)).foldl max 0)).foldl max 0
  let cols := scales.map (fun c => (c, top))
  let samp : Nat := if group = 1 then 6144000 else 1152000 / r.step
  let unit : Nat := if group = 1 then 1 else 1000
  let head := ([1, (samp : Int), (rows.length : Int), (unit : Int), utcOf s r.start, utcOf s r.trig] : List Int) ++
    (if version = 1 then ([0, 0, tmqCode (r.start % 4), 0] : List Int) else [])
  Config.comtrade version format head (cols.map (fun p => (ctA format p.1 p.2, f32.ofInt 0)))
    (rows.zipIdx.map (fun p => (p.2 * 1000000000 / samp / unit, (p.1.1.zip cols).map (fun q => ctValue format q.2.1 q.2.2 q.1), p.1.2)))

/-- A change of mode of the export takes effect at the next request (R46, R469). -/
def exportMode (s : State) : State :=
  match modePending s 6 0 with
  | some ha => modeTaken { s with hst := { s.hst with haExport := ha } } 6 0
  | none => s

def velExportBody (n : Nat) (s : State) (c : Cmd) : CmdOut :=
  let version := c.arg 4 1
  let format := c.arg 5 1
  let group := c.arg 6 1
  let off := c.arg 8 8
  let maxb := c.arg 16 4
  match recById s (c.arg 0 4) with
  | none => refuse s stARG
  | some r =>
    if 1 < version || 3 < format || 1 < group || !c.zero 7 8 || !c.zero 20 32 || !inBulk s off maxb || (version = 0 && 1 < format) ||
        (group = 1 && !r.flag 7) then refuse s stARG
    else if maxb < (exportBytes s r group version format).length then ⟨s, stARG, [(exportBytes s r group version format).length], true⟩
    else if r.state = 0 || (exportMode s).hst.haExport then refuse (exportMode s) stSTATE
    else if s.vel.exporting.isSome then refuse (exportMode s) stBUSY
    else
      let s0 := exportMode s
      let s1 := putRec s0 (r.setFlag 1 true)
      goesOn ((s1.setVel { s1.vel with exporting := some ⟨n, c.sqHead, r.id, group, version, format, off, maxb⟩ }).setB Reg.VEL_STAT_EXPORT_BUSY true)

/-- A word of the record area that a reader meets (R388, R501). -/
def velSeen (s : State) (e : Ecc) : State :=
  match s.check e with
  | .ue l => velReadErr (memNote s e) (l.offset / 65536)
  | _ => memNote s e

/-- VEL_EXPORT_DONE (R391): the files stand in the bulk region, EXPORTING clears, the command completes. An unreadable block
met on the way is marked, and the export carries on (R388). -/
def velExportDone (s : State) (e : Ecc) : State :=
  match s.vel.exporting with
  | some x =>
    let s1 := velSeen s e
    match recById s1 x.id with
    | some r =>
      let bs := exportBytes s1 r x.group x.version x.format
      let s2 := s1.dramWrite (bulkAddr s1 x.off) bs
      let s3 := putRec s2 (r.setFlag 1 false)
      let s4 := (s3.setVel { s3.vel with exporting := none }).setB Reg.VEL_STAT_EXPORT_BUSY false
      let s5 := s4.log Ev.VEL_EXPORT_DONE noInst [.w x.id, .w x.group, .w bs.length]
      postHead s5 x.sess x.head stOK []
    | none => s1
  | none => s

/-! ### Meanings -/

def execVelList (r : SessRead) (s : State) : Host.Outcome State Fault Refusal :=
  .next (runCmd s r.sess 0x43 (fun t c => velListBody (velSeen t r.c) c))

def execVelLock (sess : Fin 16) (s : State) : Host.Outcome State Fault Refusal := .next (runCmd s sess 0x44 (velLockBody sess true))

def execVelRelease (sess : Fin 16) (s : State) : Host.Outcome State Fault Refusal := .next (runCmd s sess 0x45 (velLockBody sess false))

def execVelExport (sess : Fin 16) (s : State) : Host.Outcome State Fault Refusal := .next (runCmd s sess 0x46 (velExportBody sess))

def execVelExportDone (c : Ecc) (s : State) : Host.Outcome State Fault Refusal := .next (velExportDone s c)

/-- VEL_TRIG: the write of a WO register (R379). -/
def execVelTrig (a : Access) (v : Word) (s : State) : Host.Outcome State Fault Refusal :=
  .next (gate s a Reg.VEL_TRIG false (fun t => velTrigWrite t v.toNat))

def execVellumRowAssemble (pr : Fin 16) (s : State) : Host.Outcome State Fault Refusal := .next (rowAssemble s pr)

def execVelClose (pr : Fin 16) (s : State) : Host.Outcome State Fault Refusal := .next (velClose s pr)

def execVelWriteTimeout (pr : Fin 16) (retrainings : Nat) (s : State) : Host.Outcome State Fault Refusal :=
  .next (velWriteTimeout s pr retrainings)

end Sys2Proof.Machine
end

