-- ==== Sys2Proof/Machine/Afe.lean ====
section
/-! DEFINITION. The analogue front end (spec/03): converters and their tables, urgent conversions, stream windows, local
stream assembly, the TW ring, wavefront detectors. AFE times are in periods of 1/98,304,000 s of DTC, 1,024 to a tick;
the hold of STREAM conversion m is 16 m − 504 (R105). -/

namespace Sys2Proof.Machine

namespace State

def cv (s : State) (n : Nat) : CvState := s.afe.cv.get n

def setCv (s : State) (n : Nat) (x : CvState) : State := { s with afe := { s.afe with cv := s.afe.cv.set n x } }

def wd (s : State) (n : Nat) : WdState := s.afe.wd.get n

def setWd (s : State) (n : Nat) (x : WdState) : State := { s with afe := { s.afe with wd := s.afe.wd.set n x } }

/-- The front end runs (R545, R517). -/
def afeRuns (s : State) : Bool := s.running && !s.afe.stopped

/-- Converter `n` converts: the front end runs, and memory has not taken it out of service (R500). -/
def cvRuns (s : State) (n : Nat) : Bool := s.afeRuns && !s.mem.oosCv.testBit n

end State

/-! ### Refusals -/

/-- The event of a refused write: SEQ_REJECT for R96, R98 and the tables of R117, STREAM_MAP_REJECT for R108. `t` is the state
with the write made. -/
def tableRefusal (t : State) (n : Nat) (tbl : List (Nat × Nat)) (map : List (Nat × Nat)) : Option Event :=
  if !tbl.all entryOk || !seqFits t n tbl then some Ev.SEQ_REJECT else if mapValid map then none else some Ev.STREAM_MAP_REJECT

/-! ### Codes (R87, R94) -/

/-- Range in nV. -/
def rangeNv (r : Nat) : Nat := if r = 0 then 10000000000 else if r = 1 then 5000000000 else 2500000000

/-- The code of an input voltage in nV, and over-range. -/
def convert (vin : Int) (range gain : Nat) : Int × Bool :=
  let g : Int := (2 ^ gain : Nat)
  (max (-32768) (min 32767 (rdivEvenI (32768 * vin * g) (rangeNv range))), decide ((vin.natAbs : Int) * g * 16 > 17 * rangeNv range))

/-- A result word (R93). -/
def resultWord (ovr set urg : Bool) (entry : Nat) (v : Int) : Nat :=
  b2n ovr * 2147483648 + b2n set * 1073741824 + b2n urg * 536870912 + entry % 16 * 16777216 + tc 24 v

/-- The value after averaging and shift (R92). -/
def shiftValue (sum : Int) (sh : Nat) : Int := if sh = 0 then sum else (sum + (2 ^ (sh - 1) : Nat)) / (2 ^ sh : Nat)

/-- Filter corners of the four inputs of converter `n`, two bits each. -/
def filtsOf (s : State) (n : Nat) : Nat :=
  ((List.range 4).map (fun i => s.f (Reg.AFE_AIN_CFG_FILT (4 * n + i)) % 4 * 4 ^ i)).sum

/-- Corner of the input that an entry converts. -/
def cornerOf (w filts : Nat) : Nat := filts / 4 ^ eInput w % 4

/-- Results to mark SET after a change of settings, word 0 and corners (R103). -/
def setCount (stream : Bool) (old new : Nat × Nat) : Nat :=
  let a := if eInput old.1 ≠ eInput new.1 then (if stream || eAcq new.1 < 50 then 2 else 1) else 0
  let b := if eGain old.1 ≠ eGain new.1 then 3 else 0
  let c := if eRange old.1 ≠ eRange new.1 then 8 else 0
  let d := if cornerOf new.1 old.2 ≠ cornerOf new.1 new.2 then 64 else 0
  max (max a b) (max c d)

/-- The settings in force at index `k` (an entry, 16 for STREAM mode) are compared with the previous ones. -/
def noteSettings (x : CvState) (k : Nat) (stream : Bool) (new : Nat × Nat) : CvState :=
  let n := match x.prev.get k with | some old => setCount stream old new | none => 0
  { x with setLeft := x.setLeft.set k (max (x.setLeft.get k) n), prev := x.prev.set k (some new) }

/-! ### Local stream assembly (R107, R109) -/

/-- The quality byte of a local sample, UNSYNC by the TQ in force at the instant (R37, R109). -/
def localQual (s : State) (inst : Instant) (invalid ovr set : Bool) : Nat :=
  let near := match s.rul.clk.lastStep with
    | some t => decide (nsOfU t ≤ nsOfInstant inst + 1) && decide (nsOfInstant inst ≤ nsOfU t + 208300)
    | none => false
  b2n invalid + 2 * b2n near + 8 * b2n (s.tqAt (nsOfInstant inst) = 3) + 16 * b2n ovr + 32 * b2n set

/-- A local stream has no room for another set: its 16 slots are taken, or a publication that sends it holds no credit (R19, R21). -/
def localStalled (s : State) (st : Nat) : Bool :=
  let c := s.sc (192 + st)
  decide (16 ≤ c.slots.length + c.out.length) ||
    (List.range 8).any (fun sp => s.on (Reg.STN_SP_CFG_EN sp) && s.f (Reg.STN_SP_CFG_SRC sp) = st && decide (16 ≤ svPubOut s sp))

/-- A set is formed once every channel of the tick's map has delivered, and none while the stream is stalled (R107, R19). A channel
that is no longer fed counts as delivered, INVALID and 0 (DESIGN CHOICE, log entry 53). Results of an earlier epoch form no set (R75). -/
def releaseLocal (s : State) (st tick : Nat) : State :=
  let ep := s.rul.clk.epoch
  let items := s.afe.asm.filter (fun a => a.stream = st && a.tick = tick && a.epoch = ep)
  let n := ((mapAt s ep tick).filter (fun p => p.1 = st)).length
  let got (ch : Nat) : Option AsmItem :=
    match items.find? (fun a => a.chan = ch) with
    | some a => some a
    | none => if (feeds s).contains (st, ch) then none else some ⟨st, tick, ch, 0, 1, ep⟩
  if n ≠ 0 && items ≠ [] && !localStalled s st && (List.range n).all (fun ch => (got ch).isSome) then
    let vals := (List.range n).map (fun ch => ((got ch).map (·.val)).getD 0)
    let quals := (List.range n).map (fun ch => ((got ch).map (·.qual)).getD 1)
    let inst := tick * 12
    let x : SampleSet := ⟨inst, vals, quals, s.stampAt inst, ep, false, 0, 0⟩
    let s1 := { s with afe := { s.afe with asm := s.afe.asm.filter (fun a => !(a.stream = st && (a.tick ≤ tick || a.epoch ≠ ep))), asmAt := s.afe.asmAt.set st (some s.ltc) } }
    let c := s1.sc (192 + st)
    publishSv (s1.setSc (192 + st) { c with out := c.out ++ [x] }) st tick x
  else s

/-- Every tick of a stream whose results wait, the oldest first. -/
def releaseStream (s : State) (st : Nat) : State :=
  ((s.afe.asm.filter (fun a => a.stream = st)).map (·.tick)).eraseDups.foldl (fun t k => releaseLocal t st k) s

/-- Assembly takes the results that wait in a converter's queue in order, up to one whose stream is stalled (R18, R19). -/
def drainConv : Nat → State → Nat → State
  | 0, s, _ => s
  | k + 1, s, n =>
    match s.afe.convQ.get n with
    | a :: rest =>
      if localStalled s a.stream then s
      else drainConv k (releaseStream { s with afe := { s.afe with convQ := s.afe.convQ.set n rest, asm := s.afe.asm ++ [a] } } a.stream) n
    | [] => s

/-- Converter `n` holds no credit towards local stream assembly (R21). -/
def convStalled (s : State) (n : Nat) : Bool := decide (8 ≤ (s.afe.convQ.get n).length)

/-- A channel delivers its result for a tick, over the queue of its converter (R18, R21). -/
def deliver (s : State) (n st ch tick : Nat) (v : Int) (q : Nat) : State :=
  drainConv 8 { s with afe := { s.afe with convQ := s.afe.convQ.set n (s.afe.convQ.get n ++ [⟨st, tick, ch, v, q, s.rul.clk.epoch⟩]) } } n

/-- Assembly itself marks a channel whose result does not come (R107). -/
def deliverInvalid (s : State) (st ch tick : Nat) (q : Nat) : State :=
  releaseLocal { s with afe := { s.afe with asm := s.afe.asm ++ [⟨st, tick, ch, 0, q, s.rul.clk.epoch⟩] } } st tick

/-- What waits for room in the local streams goes on: the sets assembled, then the results in the queues of the converters. -/
def localResume (s : State) : State :=
  let s1 := (s.afe.asm.map (·.stream)).eraseDups.foldl releaseStream s
  (List.range s1.converters).foldl (drainConv 8) s1

/-- Every stream channel that a missed pass or window would have fed, from entry `k` on, is INVALID for the tick (R91, R517). -/
def deliverMissedFrom (s : State) (n tick k : Nat) : State :=
  let mode := s.f (Reg.AFE_CV_CTRL_MODE n)
  (feedsOf mode (if mode = 1 then actTable s n else (passEntries (actTable s n)).drop k)).foldl
    (fun t p => deliverInvalid t p.1 p.2 tick (localQual t (tick * 12) true false false)) s

def deliverMissed (s : State) (n tick : Nat) : State := deliverMissedFrom s n tick 0

/-! ### TW ring (R110) -/

/-- DTC ns of a hold in periods. -/
def nsOfHold (h : Nat) : Nat := (ndiv ((h : Int) * 1000000000) 98304000).toNat

/-- A ring block of 64 codes, its first hold in DTC epoch `epoch`, is written to the lane's next place, and copied by the open
records. -/
def writeLane (s : State) (n epoch hold input : Nat) (seq : Bool) (codes : List (Int × Bool × Bool)) : State :=
  let k := s.vel.blkSeq.get n
  let slot := s.vel.twSlot.get n
  let set := codes.any (fun c => c.2.1)
  let ovr := codes.any (fun c => c.2.2)
  let b : TwBlock := { hold := hold, epoch := epoch, slot := slot, stamp := stampNs (nsOfHold hold) (s.tqIn epoch (nsOfHold hold)), flags := b2n set + 2 * b2n ovr + 4 * b2n seq,
                       firstOvr := if ovr then codes.findIdx (fun c => c.2.2) else 255, input := input + 4 * n, seq := k, codes := codes.map (·.1) }
  let lane := (b :: (s.vel.lanes.get n).filter (fun c => c.slot ≠ slot)).take 29127
  velTwBlock (s.setVel { s.vel with lanes := s.vel.lanes.set n lane, blkSeq := s.vel.blkSeq.set n ((k + 1) % 4294967296),
                                    twSlot := s.vel.twSlot.set n ((slot + 1) % 29127) }) b

/-! ### Passes (R91 to R97) -/

/-- The stream map with table `tbl` in converter `n`. -/
def mapWith (s : State) (n : Nat) (tbl : List (Nat × Nat)) : List (Nat × Nat) :=
  ((List.range s.converters).map (fun k => feedsOf (s.f (Reg.AFE_CV_CTRL_MODE k)) (if k = n then tbl else actTable s k))).flatten

/-- The shadow table becomes active (R97). It is checked again at this moment, since entries and other tables may have changed
after the RELOAD was accepted: a table that fails is not copied, and the event of the check is logged (DESIGN CHOICE, log
entry 53). -/
def copyShadow (s : State) (n : Nat) : State :=
  let no := (s.setCv n { s.cv n with reload := false }).setB (Reg.AFE_CV_STAT_RELOAD_PEND n) false
  match tableRefusal s n (shdTable s n) (mapWith s n (shdTable s n)) with
  | some ev => no.log ev n
  | none =>
  let t := (List.range 16).foldl (fun t e => (t.setWord (Reg.AFE_CV_ACT n e 0) (t.word (Reg.AFE_CV_SHD n e 0))).setWord
    (Reg.AFE_CV_ACT n e 1) (t.word (Reg.AFE_CV_SHD n e 1))) s
  let x := t.cv n
  (t.setCv n { x with reload := false, fresh := true }).setB (Reg.AFE_CV_STAT_RELOAD_PEND n) false

/-- After a reload, mode change or stop the first pass of every entry is marked SET (R103). -/
def takeFresh (x : CvState) (stream : Bool) : CvState :=
  if x.fresh then
    { x with fresh := false, setLeft := (if stream then [16] else List.range 16).foldl (fun t k => t.set k (max (t.get k) 1)) x.setLeft }
  else x

/-- An entry starts: its words come into force. -/
def startEntry (s : State) (n e : Nat) : State :=
  let w0 := s.rd (Reg.AFE_CV_ACT n e 0)
  let x := noteSettings (s.cv n) e false (w0, filtsOf s n)
  (s.setCv n { x with entry := e, done := 0, acc := 0, ovr := false, avgCut := false, w0 := w0, w1 := s.rd (Reg.AFE_CV_ACT n e 1),
                      hold0 := x.start + x.per + eAcq w0 }).setF (Reg.AFE_CV_STAT_ENTRY n) e

/-- A pass starts (R91, R97), at a time in periods. -/
def startPass (s : State) (n tick start : Nat) : State :=
  let s1 := if (s.cv n).reload then latchMap (copyShadow s n) tick else s
  let x := takeFresh (s1.cv n) false
  let s2 := s1.setCv n { x with busy := true, tick := tick, start := start, per := 0, epoch := s1.rul.clk.epoch }
  (startEntry s2 n 0).setB (Reg.AFE_CV_STAT_BUSY n) true

/-- A tick not taken, its results due from entry `k` on (R91). -/
def tickMissedFrom (s : State) (n tick k : Nat) : State :=
  let s1 := s.incS (Reg.AFE_CV_CNT_TICK_MISS n)
  let x := s1.cv n
  let s2 := if x.miss then s1 else (s1.setCv n { x with miss := true }).log Ev.TICK_MISS n
  deliverMissedFrom s2 n tick k

def tickMissed (s : State) (n tick : Nat) : State := tickMissedFrom s n tick 0

/-- The result of the present entry is delivered (R92, R93, R103, R106); to stream assembly only within the DTC epoch in which its
pass began (R75). A ring block whose results come from different inputs shows that of the last (DESIGN CHOICE, log entry 53). -/
def entryResult (s : State) (n : Nat) : State :=
  let x := s.cv n
  let v := shiftValue x.acc (eShift x.w0)
  let set := x.setLeft.get x.entry ≠ 0 || x.avgCut
  let s1 := s.setF (Reg.AFE_CV_LAST_RESULT n) (resultWord x.ovr set false x.entry v)
  let s2 := s1.setCv n { x with setLeft := x.setLeft.set x.entry (x.setLeft.get x.entry - 1) }
  let s3 :=
    if eType x.w1 = 1 then if x.epoch ≠ s2.rul.clk.epoch then s2 else deliver s2 n (eStream x.w1) (eChan x.w1) x.tick v (localQual s2 (x.tick * 12) false x.ovr set)
    else if eType x.w1 = 2 then
      let y := s2.cv n
      let sv := ssat 16 v
      let blk := (sv, set, x.ovr || decide (sv ≠ v)) :: y.seqBlk
      let h := if y.seqBlk = [] then (x.hold0, x.epoch) else (y.blkHold, y.blkEpoch)
      if blk.length = 64 then writeLane (s2.setCv n { y with seqBlk := [], blkHold := 0 }) n h.2 h.1 (eInput x.w0) true blk.reverse
      else s2.setCv n { y with seqBlk := blk, blkHold := h.1, blkEpoch := h.2 }
    else s2
  if eLast x.w0 || x.entry = 15 then
    (s3.setCv n { s3.cv n with busy := false }).setB (Reg.AFE_CV_STAT_BUSY n) false
  else startEntry s3 n (x.entry + 1)

/-- The next conversion of the present entry starts: its words come into force; with conversions enough it ends at once (R97,
R104). -/
def nextConversion (s : State) (n : Nat) : State :=
  let x := s.cv n
  let w := s.rd (Reg.AFE_CV_ACT n x.entry 0)
  let x2 := noteSettings x x.entry false (w, filtsOf s n)
  let x3 := { x2 with w0 := w, w1 := s.rd (Reg.AFE_CV_ACT n x.entry 1), avgCut := x2.avgCut || (decide (eAvg w ≠ eAvg x.w0) && decide (x.done ≠ 0)) }
  if 2 ^ eAvg w ≤ x3.done then entryResult (s.setCv n x3) n else s.setCv n x3

/-- A conversion of a SEQ pass ends (R92, R97, R104). -/
def seqConversion (s : State) (n : Nat) (vin : Int) : State :=
  let x := s.cv n
  let c := convert vin (eRange x.w0) (eGain x.w0)
  let x1 := { x with acc := x.acc + c.1, ovr := x.ovr || c.2, done := x.done + 1, per := x.per + eAcq x.w0 + 12 }
  let s1 := s.setCv n x1
  if 2 ^ eAvg x.w0 ≤ x1.done then entryResult s1 n else nextConversion s1 n

/-! ### Detectors (R111 to R116) -/

/-- A coefficient in halves: twice the value of its code. -/
def coefOf (code : Nat) : Int := if code = 1 then 1 else if code = 2 then 2 else if code = 5 then -1 else if code = 6 then -2 else 0

def wdSrc (s : State) (k i : Nat) : Nat := s.f (Reg.AFE_WD_SRC_SRC k) / 16 ^ i % 16
def wdP (s : State) (k i : Nat) : Int := coefOf (s.f (Reg.AFE_WD_CFG_PCOEF k) / 8 ^ i % 8)
def wdQ (s : State) (k i : Nat) : Int := coefOf (s.f (Reg.AFE_WD_CFG_QCOEF k) / 8 ^ i % 8)

/-- The sources fail R111: one is not in STREAM mode, or those with a coefficient differ in range or gain. -/
def wdMismatch (s : State) (k : Nat) : Bool :=
  let used := [0, 1, 2, 3].filter (fun i => wdP s k i ≠ 0 || wdQ s k i ≠ 0)
  let rg (i : Nat) : Nat × Nat := let w := (s.cv (wdSrc s k i)).w0; (eRange w, eGain w)
  [0, 1, 2, 3].any (fun i => (s.cv (wdSrc s k i)).mode ≠ 1) ||
    (match used with | [] => false | a :: t => t.any (fun b => rg a ≠ rg b))

/-- Conversion `m` of a source, on the present time (R75). -/
def convAt (s : State) (n m : Nat) : Option Conv :=
  if (s.cv n).epoch = s.rul.clk.epoch then (s.cv n).hist.find? (fun c => c.m = m) else none

def WdState.at (x : WdState) (m : Nat) : Option WdPoint := x.pts.find? (fun p => p.m = m)

/-- d[m] (R112), 0 where a value is not there. -/
def WdState.d (x : WdState) (k m : Nat) : Int :=
  match x.at m, x.at (m - k) with
  | some a, some b => a.x - b.x
  | _, _ => 0

/-- Conversion `m` is tested: every one from m − K to m is there and not SET. -/
def WdState.tested (x : WdState) (k m : Nat) : Bool :=
  decide (k ≤ m) && (List.range (k + 1)).all (fun i => match x.at (m - i) with | some p => !p.set | none => false)

/-- The condition of R112. -/
def wdCond (s : State) (k m : Nat) : Bool :=
  let x := s.wd k
  let kk := s.f (Reg.AFE_WD_CFG_K k)
  let d := x.d kk m
  let pol := s.f (Reg.AFE_WD_CFG_POL k)
  x.tested kk m && decide ((s.f (Reg.AFE_WD_THR_THR k) : Int) ≤ d.natAbs) && (pol = 0 || (pol = 1 && d > 0) || (pol = 2 && d < 0))

/-- A detector on the present time (R75): conversions from before a step are gone, so no window that reaches back across the pause is
tested and a search that they cut ends; the dead time left is counted from conversion `m`, the first one after the step. -/
def WdState.onEpoch (x : WdState) (epoch m : Nat) : WdState :=
  if x.epoch = epoch then x
  else { x with pts := [], cond := false, det := none, epoch := epoch,
                deadTo := match x.pts with | p :: _ => m + (x.deadTo - (p.m + 1)) | [] => 0 }

/-- A detector with an event that waits for a credit takes no conversion (R19). -/
def wdBlocked (s : State) (k : Nat) : Bool := (s.wd k).held ≠ []

/-- A detector takes conversion `m` once every source in STREAM mode has it. A source out of service is SET (R500) and its code a
free value (log entry 10). -/
def wdStep (s : State) (k m : Nat) : State :=
  let x := (s.wd k).onEpoch s.rul.clk.epoch m
  let srcs := [0, 1, 2, 3].map (wdSrc s k)
  let lost (i : Nat) : Bool := s.mem.oosCv.testBit (wdSrc s k i)
  let ready := srcs.all (fun n => (s.cv n).mode ≠ 1 || (convAt s n m).isSome || s.mem.oosCv.testBit n)
  let fresh := match x.pts with | p :: _ => decide (p.m < m) | [] => true
  if s.on (Reg.AFE_WD_SRC_EN k) && ready && fresh && !wdBlocked s k then
    let mis := wdMismatch s k
    let code (i : Nat) : Int := if lost i then Config.unstated 0x2C8 (wdSrc s k i) m else ((convAt s (wdSrc s k i) m).map (·.code)).getD 0
    let used := [0, 1, 2, 3].filter (fun i => wdP s k i ≠ 0 || wdQ s k i ≠ 0)
    let has (g : Conv → Bool) : Bool := used.any (fun i => match convAt s (wdSrc s k i) m with | some c => g c | none => false)
    let p : WdPoint := { m := m, x := ([0, 1, 2, 3].map (fun i => wdP s k i * code i)).sum, y := ([0, 1, 2, 3].map (fun i => wdQ s k i * code i)).sum,
                         set := mis || has (·.set) || used.any lost, ovr := has (·.ovr) }
    let held := x.cond && (match x.pts with | q :: _ => decide (q.m + 1 = m) | [] => false)
    let s1 := s.setWd k { x with pts := (p :: x.pts).take 40 }
    let c := wdCond s1 k m
    let s2 := s1.setWd k { s1.wd k with cond := c }
    if c && !held then
      if x.deadTo ≤ m then s2.setWd k { s2.wd k with det := some m, deadTo := m + 123 } else s2.incS (Reg.AFE_WD_CNT_DEAD_SUPP k)
    else s2
  else s

/-- A detector that can go on takes the conversions that waited for it, at most the 4 credits of a source (R19, R21). -/
def wdCatchUp (s : State) (k : Nat) : State :=
  match (s.wd k).pts with
  | p :: _ => (List.range 4).foldl (fun t i => wdStep t k (p.m + 1 + i)) s
  | [] => s

/-- Conversions of converter `n` that wait for its detectors: those after the last that a blocked detector has taken. -/
def feedLag (s : State) (n : Nat) : Nat :=
  let lag (k : Nat) : Nat :=
    match (s.wd k).pts with
    | p :: _ => if (s.wd k).epoch = (s.cv n).epoch then ((s.cv n).hist.filter (fun c => decide (p.m < c.m))).length else 0
    | [] => 0
  ((List.range 16).filter (fun k => wdBlocked s k && s.on (Reg.AFE_WD_SRC_EN k) && [0, 1, 2, 3].any (fun i => wdSrc s k i = n))).foldl
    (fun a k => max a (lag k)) 0

/-- The search of R113 for the peak, from j upward. -/
def peakJ (x : WdState) (k m0 : Nat) : Nat → Nat → Nat
  | 0, j => j
  | n + 1, j => if (x.d k (m0 + j + 1)).natAbs < (x.d k (m0 + j)).natAbs then j else peakJ x k m0 n (j + 1)

/-- delta_q in eighths, and CLAMP (R114). -/
def deltaQ (a b c : Int) : Int × Bool :=
  let den := a - 2 * b + c
  if 0 ≤ den then (0, false)
  else if (a - c).natAbs > den.natAbs then (if a - c > 0 then (-4, true) else (4, true))
  else (rdivEvenI (-(4 * (a - c))) den.natAbs, false)

/-- The detector's events go out while it holds credits, and it goes on with the conversions that waited (R18, R19). -/
def wavefrontResume (s : State) (k : Nat) : State :=
  let t := wavefrontSend s k
  if wdBlocked t k then t else wdCatchUp t k

/-- WAVEFRONT_EVENT (R113, R114, R116): stamp and epoch are those of the detector's conversions, with the TQ of the stamp's instant; the
event waits for a credit where the detector has none (R19, R21). -/
def wavefrontEvent (s : State) (k : Nat) : State :=
  let x := s.wd k
  let kk := s.f (Reg.AFE_WD_CFG_K k)
  match x.det with
  | some m0 =>
    if (x.at (m0 + 7)).isSome && s.afeRuns then
      let mp := m0 + peakJ x kk m0 6 0
      let q := deltaQ (x.d kk (mp - 1)).natAbs (x.d kk mp).natAbs (x.d kk (mp + 1)).natAbs
      let at2 : Int := 16 * mp - 504 + 2 * q.1 - 8 * kk
      let ns := (rdivEvenI (at2 * 1000000000) 98304000).toNat
      let X (m : Nat) : Int := ((x.at m).map (·.x)).getD 0
      let Y (m : Nat) : Int := ((x.at m).map (·.y)).getD 0
      let ovr := (List.range (kk + 8)).any (fun i => ((x.at (m0 - kk + i)).map (·.ovr)).getD false)
      let d := x.d kk mp
      let ev : WdEvent := { wd := k, stamp := stampNs ns (s.tqIn x.epoch ns), ns := ns, peak := d, ampl := X (m0 + 7) - X (m0 - kk), comp := Y (m0 + 7) - Y (m0 - kk),
                            flags := b2n (decide (d < 0)) + 2 * b2n ovr + 4 * b2n q.2 + 8 * b2n (s.on Reg.RUL_TQ_ASYM),
                            epoch := x.epoch, evseq := x.evseq, k := kk }
      let s1 := (s.setWd k { x with det := none, evseq := (x.evseq + 1) % 4294967296, held := x.held ++ [ev] }).incW (Reg.AFE_WD_CNT_EVENTS k)
      velTerm (wavefrontSend s1 k) 3 k ns ev.stamp
    else s
  | none => s

/-! ### STREAM mode (R105) -/

/-- The window of a tick before its first conversion. -/
def newWindow (tick epoch : Nat) : Window := ⟨tick, 0, [], epoch, 0, false⟩

/-- A window opens: the words of entry 0 come into force, a SET span takes one sample (R103). -/
def openWindow (s : State) (n : Nat) : State :=
  let w0 := s.rd (Reg.AFE_CV_ACT n 0 0)
  let x := noteSettings (takeFresh (s.cv n) true) 16 true (w0, filtsOf s n)
  s.setCv n { x with w0 := w0, w1 := s.rd (Reg.AFE_CV_ACT n 0 1), avgCut := x.setLeft.get 16 ≠ 0,
                     setLeft := x.setLeft.set 16 (x.setLeft.get 16 - 1) }

/-- Windows that deliver no sample give back the SET results they were to be (R103). -/
def giveBack (x : CvState) (ws : List Window) : CvState :=
  { x with setLeft := x.setLeft.set 16 (x.setLeft.get 16 + (ws.filter (·.set)).length) }

/-- A conversion in STREAM mode; `avgCut` says whether the window is SET. A window left over from before a step of DTC gives way. -/
def streamConversion (s : State) (n : Nat) (w : Window) (vin : Int) : State :=
  let old := (s.cv n).win.toList.filter (fun o => o.epoch ≠ w.epoch)
  let s0 := if w.codes = [] then openWindow (if old = [] then s else s.setCv n (giveBack (s.cv n) old)) n else s
  let x := s0.cv n
  let c := convert vin (eRange x.w0) (eGain x.w0)
  let m := 64 * w.tick + w.codes.length
  let v : Conv := ⟨m, c.1, x.avgCut, c.2⟩
  let w1 : Window := { w with input := eInput x.w0, codes := v :: w.codes, w1 := x.w1, set := x.avgCut }
  let x1 := { x with hist := (v :: (if x.epoch = w.epoch then x.hist else [])).take 40, epoch := w.epoch }
  let s1 := s0.setCv n (if w1.codes.length = 64 then { x1 with win := some (newWindow (w.tick + 1) w.epoch), full := x1.full ++ [w1] } else { x1 with win := some w1 })
  (List.range 16).foldl (fun t k => if [0, 1, 2, 3].any (fun i => wdSrc t k i = n) then wdStep t k m else t) s1

/-- DTC in u at a number of AFE periods. -/
def periodTime (h : Nat) : Int := (h : Int) * ((uPerNs * 1000000000 : Nat) : Int) / 98304000

/-- The window in which a converter in STREAM mode converts. In the pause after a step it is that of the first new instant, once its
first conversion can be complete (R75). -/
def windowOf (s : State) (x : CvState) : Option Window :=
  let c := s.rul.clk
  let begun := decide (periodTime (1024 * c.tick - 492) ≤ c.dtc)
  match x.win with
  | some w =>
    if w.epoch = c.epoch then (if c.gridOff && w.codes = [] && !begun then none else some w)
    else if c.gridOff && begun then some (newWindow c.tick c.epoch) else none
  | none => if c.gridOff && decide (x.epoch ≠ c.epoch) && begun then some (newWindow c.tick c.epoch) else none

/-- CONVERSION_COMPLETE (R92, R93, R105, R112). In the pause after a step no STREAM conversion is made (R75). A converter without a
credit towards assembly or towards a detector stalls (R19). -/
def conversionComplete (s : State) (n : Nat) (vin : Int) : State :=
  let x := s.cv n
  if !s.cvRuns n || s.converters ≤ n || convStalled s n || decide (4 ≤ feedLag s n) then s
  else if x.mode = 1 then
    match windowOf s x with
    | some w => streamConversion s n w vin
    | none => s
  else if x.busy && x.urg.isNone then seqConversion s n vin
  else s

/-- STREAM_WINDOW_CLOSE (R105, R110), by the words in force at the window's last conversion (R97). A window from before a step delivers
no sample (R75). -/
def streamWindowClose (s : State) (n : Nat) : State :=
  let x := s.cv n
  match x.full with
  | w :: t =>
    if s.cvRuns n && !convStalled s n then
      let v := shiftValue ((w.codes.map (·.code)).sum) 6
      let ovr := w.codes.any (·.ovr)
      let set := w.codes.any (·.set)
      let now := decide (w.epoch = s.rul.clk.epoch)
      let s1 := (s.setCv n (if now then { x with full := t } else giveBack { x with full := t } [w])).setF (Reg.AFE_CV_LAST_RESULT n) (resultWord ovr set false 0 v)
      let s2 := writeLane s1 n w.epoch (1024 * w.tick - 504) w.input false (w.codes.reverse.map (fun c => (c.code, c.set, c.ovr)))
      if eType w.w1 = 1 && now then deliver s2 n (eStream w.w1) (eChan w.w1) w.tick v (localQual s2 (w.tick * 12) false ovr set) else s2
    else s
  | [] => s

/-! ### Ticks and triggers (R60, R90, R91) -/

/-- A change of MODE takes effect at the tick (R90). -/
def takeMode (s : State) (n : Nat) : State :=
  let x := s.cv n
  let m := s.f (Reg.AFE_CV_CTRL_MODE n)
  if x.mode = m then s
  else (s.setCv n { giveBack x (x.full ++ x.win.toList) with mode := m, fresh := true, busy := false, win := none, full := [], urg := none, hist := [] }).setFs
    [(Reg.AFE_CV_STAT_BUSY n, 0), (Reg.AFE_CV_STAT_URG_ACTIVE n, 0)]

/-- A tick of a converter in STREAM mode is taken: its window is whole, or in progress. -/
def windowHas (x : CvState) (tick ep : Nat) : Bool :=
  (x.full ++ x.win.toList).any (fun w => w.tick = tick && w.epoch = ep && w.codes ≠ [])

/-- A converter in STREAM mode at a common tick. A RELOAD copies the shadow table here, since the mode has no pass (DESIGN CHOICE, log
entry 53). A tick whose window was cut by the rails (R517), or by a stall, is not taken (R91). -/
def streamTick (s : State) (n tick : Nat) : State :=
  let s1 := if (s.cv n).reload then latchMap (copyShadow s n) tick else s
  let x := s1.cv n
  let ep := s1.rul.clk.epoch
  let have' := windowHas x tick ep
  let cut := x.cut || (match x.win with | some w => decide (w.epoch = ep) && decide (w.tick + 1 < tick) | none => false)
  let stale := match x.win with | some w => decide (w.epoch ≠ ep) || decide (w.tick + 1 < tick) || decide (tick + 1 < w.tick) | none => true
  let x1 : CvState := { x with miss := x.miss && !have', cut := false }
  let x2 := if stale then { giveBack x1 x1.win.toList with win := some (newWindow (tick + 1) ep), hist := if x.epoch = ep then x.hist else [], epoch := ep } else x1
  let s2 := s1.setCv n x2
  if cut && !have' then tickMissed s2 n tick else s2

/-- A converter at a common tick. The first window after a change from SEQ is that of the next tick; a tick that finds an urgent
conversion running in an idle converter starts a pass, whose entry 0 is then the interrupted one (DESIGN CHOICE, log entry 53). -/
def tickOne (tick : Nat) (s : State) (n : Nat) : State :=
  let due := s.f (Reg.AFE_CV_CTRL_TRIG n) = 1 && decide (0 < s.f (Reg.AFE_CV_CTRL_DIV n)) && tick % 96000 % s.f (Reg.AFE_CV_CTRL_DIV n) = 0
  if !s.afeRuns then
    (if s.running && (due || s.f (Reg.AFE_CV_CTRL_MODE n) = 1) then tickMissed s n tick else s)
  else if !s.cvRuns n then
    (if due || s.f (Reg.AFE_CV_CTRL_MODE n) = 1 then deliverMissed s n tick else s)
  else
    let s1 := takeMode s n
    let x : CvState := { s1.cv n with urgDone := false }
    if x.mode = 1 then streamTick (s1.setCv n x) n tick
    else if due then
      if x.busy then tickMissed (s1.setCv n x) n tick
      else startPass (s1.setCv n { x with miss := false }) n tick (1024 * tick)
    else s1.setCv n x

/-- A detector whose sources fail R111 loses the stream window of the tick (MISMATCH); one with a source in SEQ mode logs
WD_SRC_INVALID once. -/
def wdSources (s0 : State) (k : Nat) : State :=
  let s := if s0.on (Reg.AFE_WD_SRC_EN k) && wdMismatch s0 k then s0.incS (Reg.AFE_WD_CNT_MISMATCH k) else s0
  let x := s.wd k
  let bad := s.on (Reg.AFE_WD_SRC_EN k) && [0, 1, 2, 3].any (fun i => (s.cv (wdSrc s k i)).mode ≠ 1)
  if bad && !x.srcLogged then (s.setWd k { x with srcLogged := true }).log Ev.WD_SRC_INVALID k
  else if !bad && x.srcLogged then s.setWd k { x with srcLogged := false } else s

/-- SAMPLE_TICK (R60): the tick that DTC has reached. -/
def sampleTick (s : State) : State :=
  let c := s.rul.clk
  if tickTime c.tick ≤ c.dtc then
    let n := max c.tick (c.dtc * 96000 / ((uPerNs * 1000000000 : Nat) : Int)).toNat
    let s1 := { s with rul := { s.rul with clk := { c with tick := n + 1, gridOff := false } } }
    let s2 := (List.range s.converters).foldl (tickOne n) (if s.running then latchMap s1 n else s1)
    if s.afeRuns then (List.range 16).foldl wdSources s2 else s2
  else s

/-- DTC in AFE periods. -/
def State.period (s : State) : Nat := (s.rul.clk.dtc * 98304000 / ((uPerNs * 1000000000 : Nat) : Int)).toNat

/-- A software trigger (R91). In the pause after a step it starts no pass, and is not counted (R75; the latter DESIGN CHOICE, log entry
53). -/
def swTrigger (s : State) (n : Nat) : State :=
  let x := s.cv n
  if s.cvRuns n && x.mode = 0 && s.f (Reg.AFE_CV_CTRL_TRIG n) = 2 && decide (n < s.converters) then
    if x.busy then s.incS (Reg.AFE_CV_CNT_SW_IGN n)
    else if s.rul.clk.gridOff then s
    else startPass s n (s.period / 1024) s.period
  else s

/-- A write of 1 to RELOAD (R96 to R98, R108). -/
def reloadWrite (s : State) (n : Nat) : State :=
  match tableRefusal s n (shdTable s n) (mapWith s n (shdTable s n)) with
  | some e => s.log e n
  | none => (s.setCv n { s.cv n with reload := true }).setB (Reg.AFE_CV_STAT_RELOAD_PEND n) true

/-! ### Urgent conversions (R99 to R102) -/

/-- Periods since the start of the pass at which an urgent request is taken: the next period boundary, within the conversion in
progress (R101). -/
def requestPer (s : State) (x : CvState) : Nat :=
  let now := (s.rul.clk.dtc * 98304000 / ((uPerNs * 1000000000 : Nat) : Int)).toNat + 1 - x.start
  max x.per (min now (x.per + eAcq x.w0 + 12))

/-- An urgent request of an input (R100); the conversion in progress is abandoned (R101). -/
def urgentRequest (s : State) (n input : Nat) : State :=
  let x := s.cv n
  if x.mode = 0 && s.on (Reg.AFE_CV_URG_EN n) && s.cvRuns n then
    if x.urg.isSome || x.urgDone then s.incS (Reg.AFE_CV_CNT_URG_MERGED n)
    else (s.setCv n { x with urg := some input, urgW := if x.busy then x.w0 else s.rd (Reg.AFE_CV_ACT n 0 0), per := if x.busy then requestPer s x else x.per }).setFs [(Reg.AFE_CV_STAT_URG_ACTIVE n, 1), (Reg.AFE_CV_STAT_URG_IN n, input)]
  else s

/-- COMPARATOR_CROSSING (R99, R100). -/
def comparatorCrossing (s : State) (i : Nat) : State :=
  if s.afeRuns && s.on (Reg.AFE_AIN_CFG_CMP_EN i) && !s.afe.crossed.testBit i && decide (i / 4 < s.converters) then
    let s1 := { s with afe := { s.afe with crossed := setBitOf s.afe.crossed i true } }
    let r := if i < 32 then Reg.AFE_CMP_LO_CROSS else Reg.AFE_CMP_HI_CROSS
    let s2 := (s1.setF r (setBitOf (s1.f r) (i % 32) true)).log Ev.CMP_CROSS i
    let s3 := velTermNow s2 7 i
    if s.on (Reg.AFE_AIN_CFG_CMP_URG i) then urgentRequest s3 (i / 4) (i % 4) else s3
  else s

/-- COMPARATOR_REARM (R99). -/
def comparatorRearm (s : State) (i : Nat) : State :=
  { s with afe := { s.afe with crossed := setBitOf s.afe.crossed i false } }

/-- URGENT_CONVERSION_COMPLETE (R101), in the range in force at its start (R97): the interrupted entry resumes with a new start of the abandoned conversion (R97), its
acquisition 8 periods longer where the gains differ. -/
def urgentComplete (s : State) (n : Nat) (vin : Int) : State :=
  let x := s.cv n
  match x.urg with
  | some input =>
    if s.cvRuns n then
      let gain := s.f (Reg.AFE_CV_URG_GAIN n)
      let c := convert vin (eRange x.urgW) gain
      let w' := s.rd (Reg.AFE_CV_ACT n x.entry 0)
      let per := x.per + s.f (Reg.AFE_CV_URG_ACQ_U n) + 12 + (if gain ≠ eGain w' then 8 else 0)
      let s1 := s.setF (Reg.AFE_CV_URGRES_RESULT n) (resultWord c.2 false true (if x.busy then x.entry else 0) c.1)
      let s2 := s1.setCv n { x with urg := none, urgDone := true, per := if x.busy then per else x.per,
                                    hold0 := if x.busy && x.done = 0 then x.start + per + eAcq w' else x.hold0 }
      let s3 := (s2.incW (Reg.AFE_CV_CNT_URG_DONE n)).setFs [(Reg.AFE_CV_STAT_URG_ACTIVE n, 0), (Reg.AFE_CV_STAT_URG_IN n, input)]
      let s4 := if s.on (Reg.AFE_CV_URG_VTRIG n) then velTermNow s3 6 n else s3
      if x.busy then nextConversion s4 n else s4
    else s
  | none => s

/-! ### Starts, stops and register writes -/

/-- The first tick whose window begins from now on (R105, R517). -/
def firstWindow (s : State) : Nat :=
  let c := s.rul.clk
  if c.dtc ≤ periodTime (1024 * c.tick - 504) then c.tick else c.tick + 1

/-- A converter as a start or a resumption of the front end leaves it: every conversion starts afresh, with the first whole window in
STREAM mode, and a ring block partly gathered is dropped (DESIGN CHOICE, log entry 53). A TICK_MISS episode ends at a start or the next
tick taken (R91); at a resumption the tick whose window cannot be whole is not taken (R517). -/
def cvStart (ev : Bool) (s : State) (n : Nat) : State :=
  let x := s.cv n
  let m := s.f (Reg.AFE_CV_CTRL_MODE n)
  let k := firstWindow s
  (s.setCv n { (default : CvState) with mode := m, fresh := true, prev := x.prev, setLeft := (giveBack x (x.full ++ x.win.toList)).setLeft,
                                        reload := x.reload, miss := x.miss && !ev, epoch := s.rul.clk.epoch,
                                        win := if m = 1 then some (newWindow k s.rul.clk.epoch) else none,
                                        cut := m = 1 && !ev && k ≠ s.rul.clk.tick }).setFs
    [(Reg.AFE_CV_STAT_BUSY n, 0), (Reg.AFE_CV_STAT_URG_ACTIVE n, 0)]

/-- A detector likewise; `ev`: its event numbers begin again. -/
def wdStart (ev : Bool) (s : State) (k : Nat) : State :=
  let x := s.wd k
  s.setWd k { (default : WdState) with evseq := if ev then 0 else x.evseq, srcLogged := x.srcLogged && !ev,
                                       held := if ev then [] else x.held }

/-- The front end starts, or resumes, with the configuration in force (R545, R517). -/
def afeStart (s : State) (ev : Bool) : State :=
  let s1 := (List.range 16).foldl (cvStart ev) s
  let s2 := (List.range 16).foldl (wdStart ev) s1
  { s2 with afe := { s2.afe with asm := [], convQ := [], map := [] } }

/-- A converter is taken out of service (R500). -/
def cvLost (s : State) (n : Nat) : State :=
  let x := s.cv n
  let s1 := { s with mem := { s.mem with oosCv := setBitOf s.mem.oosCv n true } }
  (s1.setCv n { x with busy := false, win := none, full := [], urg := none, hist := [] }).setFs
    [(Reg.AFE_CV_STAT_BUSY n, 0), (Reg.AFE_CV_STAT_URG_ACTIVE n, 0)]

/-- The front end stops (R545): nothing in progress is delivered. -/
def afeStop (s : State) : State := afeStart s false

/-- What converter `n` has in progress when the rails fail counts as ticks not taken: the rest of a pass, and the windows whose tick
has come (R517). -/
def cutWork (s : State) (n : Nat) : State :=
  let x := s.cv n
  if x.epoch ≠ s.rul.clk.epoch then s
  else if x.mode = 1 then
    ((x.full ++ x.win.toList).filter (fun w => decide (w.tick < s.rul.clk.tick) && decide (w.epoch = x.epoch))).foldl (fun t w => tickMissed t n w.tick) s
  else if x.busy && s.f (Reg.AFE_CV_CTRL_TRIG n) = 1 then tickMissedFrom s n x.tick x.entry
  else s

/-- The rails of the front end fail (R517). -/
def railStop (s : State) : State := afeStop (if s.running then (List.range s.converters).foldl cutWork s else s)

/-- A write of an AFE register that R96, R98, R108, R111 or the register tables refuse, with the event it logs; `v` is the
word the write would give. -/
def afeRefusal (s : State) (addr v : Nat) : Option Event :=
  let t := s.wr addr v
  if 0x21000 ≤ addr && addr < 0x23000 then
    let n := (addr - 0x21000) / 0x200
    let o := (addr - 0x21000) % 0x200
    if o = 0 then
      if v / 2 % 4 = 3 || v / 65536 = 0 then some Ev.SEQ_REJECT
      else if !seqFits t n (actTable t n) then some Ev.SEQ_REJECT else if mapValid (feeds t) then none else some Ev.STREAM_MAP_REJECT
    else if o = 8 then (if 4 < v / 2 % 8 || v / 16 % 128 < 4 then some Ev.SEQ_REJECT else none)
    else if 0x100 ≤ o && o < 0x180 then
      let e := (o - 0x100) / 8
      let tbl := actTable t n
      if !entryOk (tbl.getD e (0, 0)) || !seqFits t n tbl then some Ev.SEQ_REJECT
      else if mapValid (feeds t) then none else some Ev.STREAM_MAP_REJECT
    else none
  else if 0x23000 ≤ addr && addr < 0x23200 then (if addr % 8 = 0 && v % 4 = 3 then some Ev.SEQ_REJECT else none)
  else if 0x24000 ≤ addr && addr < 0x24200 then
    let o := addr % 0x20
    if o = 0 then (if s.is8120 && [0, 1, 2, 3].any (fun i => 8 ≤ v / 16 ^ i % 16) then some Ev.SEQ_REJECT else none)
    else if o = 4 then
      let codes := (List.range 8).map (fun i => v / 8 ^ i % 8)
      let k := v / 16777216 % 16
      if codes.any (fun c => !([0, 1, 2, 5, 6].contains c)) || k = 0 || 8 < k || v / 268435456 % 4 = 3 then some Ev.SEQ_REJECT else none
    else if o = 8 then (if v % 1048576 = 0 then some Ev.SEQ_REJECT else none)
    else none
  else none

/-- Bits of an entry word that a write may set: the others are reserved (R95, R14). -/
def entryMask (w : Nat) : Nat := if w = 0 then 0x01FF7F7F else 0xFFF

/-- A write of a word of the active table (R96 to R98). -/
def actWrite (s : State) (n e w v : Nat) : State :=
  let a := Reg.AFE_CV_ACT n e w
  match afeRefusal s a (v &&& entryMask w) with
  | some ev => s.log ev n
  | none => s.wr a (v &&& entryMask w)

/-- A write of AFE_WDn_SRC (R111). -/
def wdSrcWrite (s : State) (n v : Nat) : State :=
  match afeRefusal s (Reg.AFE_WD_SRC n) (v % 131072) with
  | some ev => s.log ev n
  | none => s.wr (Reg.AFE_WD_SRC n) (v % 131072)

/-! ### Meanings -/

def execSampleTick (s : State) : Host.Outcome State Fault Refusal := .next (sampleTick s)

/-- A write of 1 to SWTRIG, a WO field (R91). -/
def execSwtrig (a : Access) (n : Fin 16) (s : State) : Host.Outcome State Fault Refusal :=
  .next (gate s a (Reg.AFE_CV_CTRL n) false (fun t => swTrigger t n))

/-- A write of 1 to RELOAD, a WO field (R97). -/
def execReload (a : Access) (n : Fin 16) (s : State) : Host.Outcome State Fault Refusal :=
  .next (gate s a (Reg.AFE_CV_CTRL n) false (fun t => if n.val < t.converters then reloadWrite t n else t))

def execAfeActWrite (a : Access) (n : Fin 16) (e : Fin 16) (w : Fin 2) (v : Word) (s : State) : Host.Outcome State Fault Refusal :=
  .next (gate s a (Reg.AFE_CV_ACT n e w) true (fun t => if n.val < t.converters then actWrite t n e w v.toNat else t))

def execAfeWdSrcWrite (a : Access) (n : Fin 16) (v : Word) (s : State) : Host.Outcome State Fault Refusal :=
  .next (gate s a (Reg.AFE_WD_SRC n) true (fun t => wdSrcWrite t n v.toNat))

def execConversionComplete (n : Fin 16) (vin : Int) (s : State) : Host.Outcome State Fault Refusal := .next (conversionComplete s n vin)

def execStreamWindowClose (n : Fin 16) (s : State) : Host.Outcome State Fault Refusal := .next (streamWindowClose s n)

def execComparatorCrossing (i : Fin 64) (_above : Bool) (s : State) : Host.Outcome State Fault Refusal := .next (comparatorCrossing s i)

def execUrgentConversionComplete (n : Fin 16) (vin : Int) (s : State) : Host.Outcome State Fault Refusal := .next (urgentComplete s n vin)

def execWavefrontEvent (n : Fin 16) (s : State) : Host.Outcome State Fault Refusal := .next (wavefrontEvent s n)

def execComparatorRearm (i : Fin 64) (s : State) : Host.Outcome State Fault Refusal := .next (comparatorRearm s i)

end Sys2Proof.Machine
end

