-- ==== Sys2Proof/Machine/Real.lean ====
section
/-! DEFINITION. Correctly rounded elementary functions (spec/05 R178, R179, spec/06 R194 to R196, R210, R225): fixed-point
values with 256 fraction bits, rounded once. Every result that the rules round lies far further from a rounding boundary than
the error of these sums, except where it is exact. -/

namespace Sys2Proof.Machine

/-- Fraction bits. -/
def fixP : Nat := 256

def fixOne : Int := ((2 ^ fixP : Nat) : Int)

def fixMul (a b : Int) : Int := a * b / fixOne

def fixDiv (a b : Int) : Int := if b = 0 then 0 else a * fixOne / b

/-- A ratio as a fixed-point value. -/
def fixOf (n : Int) (d : Nat) : Int := if d = 0 then 0 else n * fixOne / d

/-- Sum of z^(2i+1)/(2i+1) with the given sign of z^2, from the term `t`. -/
def oddSeries (z2 : Int) : Nat → Nat → Int → Int → Int
  | 0, _, _, acc => acc
  | f + 1, k, t, acc => oddSeries z2 f (k + 2) (fixMul t z2) (acc + t / (k : Int))

/-- atanh of |z| ≤ 1/3. -/
def fixAtanh (z : Int) : Int := oddSeries (fixMul z z) 90 1 z 0

/-- atan of |z| ≤ 1/4. -/
def fixAtanSmall (z : Int) : Int := oddSeries (-(fixMul z z)) 70 1 z 0

def fixLn2 : Int := 2 * fixAtanh (fixOf 1 3)

/-- pi by 16 atan(1/5) - 4 atan(1/239). -/
def fixPi : Int := 16 * fixAtanSmall (fixOf 1 5) - 4 * fixAtanSmall (fixOf 1 239)

/-- ln of a positive ratio. -/
def fixLn (n d : Nat) : Int :=
  let e := log2q n d
  let m : Int := if 0 ≤ e then fixOf n (d * 2 ^ e.toNat) else fixOf ((n * 2 ^ (-e).toNat : Nat) : Int) d
  e * fixLn2 + 2 * fixAtanh (fixDiv (m - fixOne) (m + fixOne))

/-- Sum of x^k/k! from k. -/
def expSeries (x : Int) : Nat → Nat → Int → Int → Int
  | 0, _, _, acc => acc
  | f + 1, k, t, acc => expSeries x f (k + 1) (fixMul t x / ((k + 1 : Nat) : Int)) (acc + t)

/-- exp as a fixed-point mantissa and a power of 2. -/
def fixExp (x : Int) : Int × Int :=
  let k := x / fixLn2
  (expSeries (x - k * fixLn2) 80 0 fixOne 0, k)

/-- Sum of the sine or cosine series: every second term of exp with alternating sign. -/
def trigSeries (x2 : Int) : Nat → Nat → Int → Int → Int
  | 0, _, _, acc => acc
  | f + 1, k, t, acc => trigSeries x2 f (k + 2) (-(fixMul t x2) / (((k + 1) * (k + 2) : Nat) : Int)) (acc + t)

/-- Values whose size is that of the sums' own error are 0. -/
def fixClean (v : Int) : Int := if v.natAbs < 2 ^ 40 then 0 else v

def fixSin (x : Int) : Int := fixClean (trigSeries (fixMul x x) 60 1 x 0)
def fixCos (x : Int) : Int := fixClean (trigSeries (fixMul x x) 60 0 fixOne 0)

def fixSqrt (x : Int) : Int := (isqrt (x.toNat * 2 ^ fixP) : Int)

/-- atan of z ≥ 0 by halving the angle three times; beyond 1 by its complement. -/
def fixAtanPos (z : Int) : Int :=
  let h := fun (v : Int) => fixDiv v (fixOne + fixSqrt (fixOne + fixMul v v))
  let small := fun (v : Int) => 8 * fixAtanSmall (h (h (h v)))
  if z ≤ fixOne then small z else fixPi / 2 - small (fixDiv fixOne z)

/-- Rounding a fixed-point value. -/
def Fmt.ofFix (f : Fmt) (v : Int) : Nat := f.ofRat v (2 ^ fixP)

/-! ### cos and sin of multiples of 2 pi / N -/

def cosTurn (k n : Nat) : Int := fixCos (2 * fixPi * ((k % n : Nat) : Int) / n)
def sinTurn (k n : Nat) : Int := fixSin (2 * fixPi * ((k % n : Nat) : Int) / n)

/-- cos and sin of an angle in degrees given as a ratio. -/
def cosDeg (v : Int × Nat) : Int := fixCos (fixPi * v.1 / ((180 * v.2 : Nat) : Int))
def sinDeg (v : Int × Nat) : Int := fixSin (fixPi * v.1 / ((180 * v.2 : Nat) : Int))

/-! ### binary64 functions -/

/-- RNE64(ln x) of a finite positive binary64. -/
def ln64 (x : Nat) : Nat :=
  let r := f64.ratio x
  if r.1 ≤ 0 then f64.nan else f64.ofFix (fixLn r.1.toNat r.2)

/-- RNE64(exp x). -/
def exp64 (x : Nat) : Nat :=
  if !f64.finite x then (if f64.lt x (f64.zero false) then f64.zero false else x)
  else
    let r := f64.ratio x
    let e := fixExp (fixOf r.1 r.2)
    if 0 ≤ e.2 then f64.ofRat (e.1 * ((2 ^ (min e.2.toNat 2000) : Nat) : Int)) (2 ^ fixP)
    else f64.ofRat e.1 (2 ^ fixP * 2 ^ (min (-e.2).toNat 2000))

/-- The angle of a binary32 phasor, correctly rounded to binary64; arguments are ratios. -/
def atan2Fix (y x : Int × Nat) : Int :=
  let num := y.1.natAbs * x.2
  let den := x.1.natAbs * y.2
  let a := if num = 0 then (0 : Int) else if den = 0 then fixPi / 2 else fixAtanPos (fixOf num den)
  let b := if x.1 < 0 then fixPi - a else a
  if y.1 < 0 then -b else b

end Sys2Proof.Machine
end

