-- ==== Sys2Proof/Machine/Elem.lean ====
section
/-! DEFINITION. What the elements share (spec/05 R173 to R179, spec/06 R190 to R200): inputs, phasors, comparators, definite
and inverse stages. Settings and measurements are binary32, integrators binary64, both as their bits. -/

namespace Sys2Proof.Machine

/-! ### Numbers -/

def zero32 : Nat := 0
def one64 : Nat := f64.ofInt 1

/-- binary32 to binary64, exact. -/
def to64 (x : Nat) : Nat := f32.convert f64 x

/-- binary64 rounded to binary32. -/
def to32 (x : Nat) : Nat := f64.convert f32 x

/-- A binary32 times n/d, rounded once. -/
def scale32 (x : Nat) (n : Int) (d : Nat) : Nat :=
  if f32.finite x then
    let r := f32.ratio x
    f32.ofRat (r.1 * n) (r.2 * d)
  else x

/-- Smallest natural number not below a finite binary64. -/
def ceil64 (x : Nat) : Nat :=
  let r := f64.ratio x
  ((r.1 + r.2 - 1) / r.2).toNat

/-- ceil(RNE64(t * rate)) of a time in s (R193, R229). -/
def timeCount (t32 : Nat) (rate : Int) : Nat := ceil64 (f64.mul (to64 t32) (f64.ofInt rate))

/-- Δt = RNE64(1/4,800) s (R190). -/
def dtAc : Nat := f64.ofRat 1 4800

/-! ### Complex numbers (R191) -/

structure Cx where
  re : Nat
  im : Nat
  deriving DecidableEq, Repr, Inhabited

def Cx.add (a b : Cx) : Cx := ⟨fadd32 a.re b.re, fadd32 a.im b.im⟩
def Cx.sub (a b : Cx) : Cx := ⟨fsub32 a.re b.re, fsub32 a.im b.im⟩
def Cx.neg (a : Cx) : Cx := ⟨f32.neg a.re, f32.neg a.im⟩
def Cx.conj (a : Cx) : Cx := ⟨a.re, f32.neg a.im⟩
def Cx.mul (a b : Cx) : Cx := ⟨fsub32 (fmul32 a.re b.re) (fmul32 a.im b.im), fadd32 (fmul32 a.re b.im) (fmul32 a.im b.re)⟩
/-- A real factor times a phasor. -/
def Cx.scale (k : Nat) (a : Cx) : Cx := ⟨fmul32 k a.re, fmul32 k a.im⟩
/-- Magnitude as in R179. -/
def Cx.mag (a : Cx) : Nat := f32.sqrt (fadd32 (fmul32 a.re a.re) (fmul32 a.im a.im))

/-- a of R191, or its conjugate for the rotation ACB. -/
def rotA (acb : Bool) : Cx :=
  let h := f32.ofFix (fixSqrt (fixOf 3 4))
  ⟨f32.ofRat (-1) 2, if acb then f32.neg h else h⟩

def seqZero (a b c : Cx) : Cx := (a.add b).add c
def seqPos (acb : Bool) (a b c : Cx) : Cx := ((a.add ((rotA acb).mul b)).add ((rotA acb).conj.mul c)).scale (f32.ofRat 1 3)
def seqNeg (acb : Bool) (a b c : Cx) : Cx := ((a.add ((rotA acb).conj.mul b)).add ((rotA acb).mul c)).scale (f32.ofRat 1 3)

/-! ### Inputs (R172 to R178) -/

/-- Samples per second of a stream. -/
def streamRate (s : State) (sc : Nat) : Nat := if 192 ≤ sc then 96000 else [4000, 4800, 12800, 14400, 15360, 96000].getD (s.f (Reg.PBI_SC_CFG_RATE sc)) 4000

/-- Samples of the boxcar of an AC binding: 20, 3, or 1 without a prefilter (R178). -/
def boxR (s : State) (c i : Nat) : Nat :=
  if ncClass s c = 1 then
    let r := streamRate s (bindStream s c i)
    if r = 96000 then 20 else if r = 14400 then 3 else 1
  else 1

/-- A quality byte passes R173. -/
def qualOk (s : State) (c q : Nat) : Bool :=
  (q &&& 0x21) = 0 && (q &&& ncQblk s c &&& 0x9E) = 0 && (!q.testBit 6 || (s.nc c).svc = 2)

/-- A binding of DIFF on several streams takes UNSYNC as unusable (R221). -/
def strictSync (s : State) (c : Nat) : Bool :=
  ncType s c = 6 && (List.range (ncNbind s c)).any (fun i => bindStream s c i ≠ bindStream s c 0)

/-- The set of a stream for an instant. -/
def ringSet (s : State) (sc inst : Nat) : Option SampleSet := (s.sc sc).ring.find? (fun z => z.instant = inst)

/-- SR = RNE32(SCALE/R), in binary64 (R178). -/
def boxScale (s : State) (c i : Nat) : Nat :=
  let r := boxR s c i
  if r = 1 then bindScale s c i else to32 (f64.div (to64 (bindScale s c i)) (f64.ofInt r))

/-- A value is usable in an evaluation that judges it now (R173, R221). -/
def usableNow (s : State) (c : Nat) (h : Hist) : Bool := h.ok && qualOk s c h.qual && !(strictSync s c && h.qual.testBit 3)

/-- The value of a binding for an instant: the count, or the sum of the boxcar; none where a set is not in the ring (R172). A
value that does not exist is free (log entry 10); it is unusable. -/
def readBinding (s : State) (c i : Nat) (inst : Instant) : Hist × Bool :=
  let sc := bindStream s c i
  let step := 1152000 / streamRate s sc
  let sets := (List.range (boxR s c i)).map (fun k => if inst < k * step then none else ringSet s sc (inst - k * step))
  if sets.all (·.isSome) then
    let l := sets.filterMap id
    let ch := bindChan s c i
    let raw := l.foldl (fun a z => a + z.vals.getD ch 0) 0
    let q := l.foldl (fun a z => a ||| z.quals.getD ch 1) 0
    let z := l.headD default
    (⟨true, raw, fmul32 (f32.ofInt raw) (boxScale s c i), q, z.epoch, inst, z.stamp % 4, z.asym, z.rx, z.age⟩, true)
  else (⟨false, 0, f32.ofInt (Config.unstated 1 c inst), 0, s.rul.clk.epoch, inst, 3, false, 0, 0⟩, false)

/-- Window of binding i, newest first, as `n` entries; what was never read is free and unusable. -/
def window (x : NcState) (c i n : Nat) : List Hist :=
  let h := (x.hist.get i).take n
  h ++ (List.range (n - h.length)).map (fun k => { (default : Hist) with val := f32.ofInt (Config.unstated 2 c k) })

/-- A window holds samples only that are usable in this evaluation, whenever they were read (R173, R190). -/
def windowOk (s : State) (x : NcState) (c i n : Nat) : Bool := (window x c i n).all (usableNow s c)

/-- Its samples are consecutive, `step` apart (R159). -/
def consecutive (step : Nat) : List Hist → Bool
  | a :: b :: t => a.instant = b.instant + step && consecutive step (b :: t)
  | _ => true

/-- A window holds instants of two epochs (R175). -/
def epochMix (x : NcState) (i n : Nat) : Bool :=
  match (x.hist.get i).take n with
  | a :: t => t.any (fun b => b.epoch ≠ a.epoch)
  | [] => false

/-! ### Phasors (R179) -/

/-- Samples per cycle. -/
def cycleN (s : State) (c : Nat) : Nat := if ncFnom s c = 0 then 96 else 80
def nomHz (s : State) (c : Nat) : Nat := if ncFnom s c = 0 then 50 else 60

def cosTab96 : List Nat := (List.range 96).map (fun k => f32.ofFix (cosTurn k 96))
def sinTab96 : List Nat := (List.range 96).map (fun k => f32.ofFix (sinTurn k 96))
def cosTab80 : List Nat := (List.range 80).map (fun k => f32.ofFix (cosTurn k 80))
def sinTab80 : List Nat := (List.range 80).map (fun k => f32.ofFix (sinTurn k 80))

def cosTab (n : Nat) : List Nat := if n = 96 then cosTab96 else cosTab80
def sinTab (n : Nat) : List Nat := if n = 96 then sinTab96 else sinTab80

/-- One accumulation over a window, oldest sample first; harmonic h takes every h-th constant. -/
def correlate (h n : Nat) (tab : List Nat) (win : List Nat) : Nat :=
  ((List.range n).zip win).reverse.foldl (fun acc p => fadd32 acc (fmul32 p.2 (tab.getD (h * p.1 % n) 0))) 0

/-- KN = RNE32(√2/N). -/
def normK (n : Nat) : Nat := f32.ofFix (fixSqrt (fixOf 2 (n * n)))

/-- The compensation (CR, CI) of a prefiltered input at frequency f (R179). -/
def compen (f r fsrc : Nat) : Cx :=
  let ang := fixPi * ((f * (r - 1) : Nat) : Int) / fsrc
  let g := fixDiv (fixSin (fixPi * ((f * r : Nat) : Int) / fsrc)) (r * fixSin (fixPi * (f : Int) / fsrc))
  ⟨f32.ofFix (fixDiv (fixCos ang) g), f32.ofFix (fixDiv (fixSin ang) g)⟩

/-- The phasor of binding i at harmonic h. -/
def phasorH (s : State) (c : Nat) (x : NcState) (h i : Nat) : Cx :=
  let n := cycleN s c
  let win := (window x c i n).map (·.val)
  let re := fmul32 (correlate h n (cosTab n) win) (normK n)
  let im := fmul32 (correlate h n (sinTab n) win) (normK n)
  let r := boxR s c i
  if r = 1 then ⟨re, im⟩ else (⟨re, im⟩ : Cx).mul (compen (h * nomHz s c) r (streamRate s (bindStream s c i)))

def phasor (s : State) (c : Nat) (x : NcState) (i : Nat) : Cx := phasorH s c x 1 i

/-! ### Comparators (R192) -/

/-- Over-comparator: Q ≥ S, drops out when Q < RNE32(0.95 S). -/
def overComp (was : Bool) (q lvl : Nat) : Bool := if was then !f32.lt q (scale32 lvl 95 100) else f32.ge q lvl

/-- Under-comparator: Q < S, drops out when Q ≥ RNE32(S/0.95). -/
def underComp (was : Bool) (q lvl : Nat) : Bool := if was then !f32.ge q (scale32 lvl 100 95) else f32.lt q lvl

/-! ### Stages (R193 to R197) -/

/-- A stage: its comparator as timed, count, integrator, reset timer (0 stopped, else r + 1), operated while picked up. -/
structure Stage where
  pick : Bool
  c : Nat
  h : Nat
  r : Nat
  op : Bool
  deriving DecidableEq, Repr, Inhabited

def estGet (e : Tab Int) (k : Nat) : Nat := (e.get k).toNat
def estSet (e : Tab Int) (k v : Nat) : Tab Int := e.set k (v : Int)

/-- The stage kept from slot b of the stored state. -/
def stageAt (e : Tab Int) (b : Nat) : Stage :=
  ⟨estGet e b = 1, estGet e (b + 1), estGet e (b + 2), estGet e (b + 3), estGet e (b + 4) = 1⟩

def stagePut (e : Tab Int) (b : Nat) (g : Stage) : Tab Int :=
  estSet (estSet (estSet (estSet (estSet e b (b2n g.pick)) (b + 1) g.c) (b + 2) g.h) (b + 3) g.r) (b + 4) (b2n g.op)

/-- What a stage does while its comparator is dropped out, by the RESET now in force (R197, R199). A count or integrator that another
RESET left over when the setting changed starts its reset timer now (DEDUCED, log entry 23). -/
def stageReset (reset nTR : Nat) (disk : Nat → Nat) (g : Stage) : Stage :=
  let cleared : Stage := ⟨false, 0, 0, 0, false⟩
  if reset = 0 then cleared
  else if reset = 2 then { g with pick := false, h := disk g.h, op := false }
  else if g.pick then (if nTR = 0 then cleared else { g with pick := false, r := 1, op := false })
  else if 0 < g.r then (if nTR ≤ g.r then cleared else { g with r := g.r + 1 })
  else if g.c = 0 && g.h = 0 then g
  else if nTR = 0 then cleared
  else { g with r := 1 }

/-- Definite time (R193). -/
def defStage (reset nTD nTR : Nat) (g : Stage) (p : Bool) : Stage :=
  if p then
    let c := if g.pick then g.c + 1 else g.c
    { g with pick := true, c := c, r := 0, op := (g.pick && g.op) || decide (nTD ≤ c) }
  else stageReset reset nTR id g

/-- Inverse time (R194): `grow` integrates, `disk` resets. -/
def invStage (reset nTR : Nat) (grow disk : Nat → Nat) (g : Stage) (p : Bool) : Stage :=
  if p then
    let h := grow g.h
    { g with pick := true, h := h, r := 0, op := (g.pick && g.op) || f64.ge h one64 }
  else stageReset reset nTR disk g

/-- H after one evaluation with an operate time (R194). -/
def integrate (tmin : Nat) (t : Nat) (h : Nat) : Nat :=
  let teff := f64.max t tmin
  f64.min one64 (f64.add h (f64.div dtAc teff))

/-- What one evaluation of an element gives: output word without BLK and FLT, stored state, measurements, measurement FLAGS
beyond bit 3, a NaN or infinity in a result used for a decision, history still short. -/
structure ElemOut where
  word : Nat
  est : Tab Int
  meas : List Nat
  flags : Nat
  bad : Bool
  short : Bool

/-- Some binary32 of a list is a NaN or an infinity. -/
def anyBad (l : List Nat) : Bool := l.any (fun v => !f32.finite v)

/-- The word of R166 from pickup, operate, the three phase bits and direction. -/
def outWord (pu op a b c dir : Bool) : Nat := b2n pu + 2 * b2n op + 4 * b2n a + 8 * b2n b + 16 * b2n c + 32 * b2n dir

end Sys2Proof.Machine
end

