-- ==== Sys2Proof/Machine/Ac.lean ====
section
/-! DEFINITION. The AC elements (spec/06 R190 to R226). Stored state of comparator j from slot 16 j: the stage in 16 j to
16 j + 4, the comparator of R192 in 16 j + 8 (a second one in 16 j + 9), the DIROC memory in 16 j + 10 to 16 j + 14; slot 999
counts the evaluations; FREQ histories from slot 1000. -/

namespace Sys2Proof.Machine

def slotComp (j : Nat) : Nat := 16 * j + 8

def compAt (e : Tab Int) (j : Nat) : Bool := estGet e (slotComp j) = 1

/-- Evaluations since the state block was initialised. -/
def evalNo (x : NcState) : Nat := estGet x.est 999

/-! ### Curves (R195, R196) -/

/-- k (A), alpha (p), c (B) and tr of a standard curve, as decimals over 10,000. -/
def curveRow (cv : Nat) : Int × Int × Int × Int :=
  [(0, 0, 0, 0), (1400, 200, 0, 135000), (135000, 10000, 0, 473000), (800000, 20000, 0, 800000), (1200000, 10000, 0, 1200000),
   (515, 200, 1140, 48500), (196100, 20000, 4910, 216000), (282000, 20000, 1217, 291000)].getD cv (0, 0, 0, 0)

def dec4 (v : Int) : Nat := f64.ofRat v 10000

/-- P = Mc^alpha (R194). -/
def curvePow (alpha : Int) (mc : Nat) : Nat :=
  if alpha = 20000 then f64.mul mc mc else if alpha = 10000 then mc else exp64 (f64.mul (dec4 alpha) (ln64 mc))

/-- t of a standard curve at Mc. -/
def stdTime (cv tms mc : Nat) : Nat :=
  let r := curveRow cv
  f64.mul tms (f64.add (f64.div (dec4 r.1) (f64.sub (curvePow r.2.1 mc) one64)) (dec4 r.2.2.1))

/-- Point i of the user curve: M and t in binary64. -/
def userPoint (s : State) (c i : Nat) : Nat × Nat := (to64 (s.live c (96 + 2 * i)), to64 (s.live c (97 + 2 * i)))

/-- t of the user curve at Mc; none below the first point, where t is infinite (R196). -/
def userTime (s : State) (c tms mc : Nat) : Option Nat :=
  let n := s.liveF c 32 6 5
  if f64.lt mc (userPoint s c 0).1 then none
  else if f64.ge mc (userPoint s c (n - 1)).1 then some (f64.mul tms (userPoint s c (n - 1)).2)
  else
    let i := ((List.range (n - 1)).filter (fun k => f64.ge mc (userPoint s c k).1)).length - 1
    let a := ln64 (userPoint s c i).1
    let b := ln64 (userPoint s c (i + 1)).1
    let p := ln64 (userPoint s c i).2
    let q := ln64 (userPoint s c (i + 1)).2
    let f := f64.div (f64.sub (ln64 mc) a) (f64.sub b a)
    some (f64.mul tms (exp64 (f64.add p (f64.mul (f64.sub q p) f))))

/-- The words of the overcurrent stage (R205). -/
def ocCurve (s : State) (c : Nat) : Nat := s.liveF c 32 0 4
def ocReset (s : State) (c : Nat) : Nat := s.liveF c 32 4 2
def ocIs (s : State) (c : Nat) : Nat := s.live c 33
def ocTr (s : State) (c : Nat) : Nat := if ocCurve s c = 8 then to64 (s.live c 39) else dec4 (curveRow (ocCurve s c)).2.2.2

/-- H after an evaluation with the comparator picked up at Q (R194). -/
def ocGrow (s : State) (c q h : Nat) : Nat :=
  let m := f64.div (to64 q) (to64 (ocIs s c))
  if f64.gt m one64 then
    let mc := f64.min m (to64 (s.live c 38))
    let tms := to64 (s.live c 34)
    match if ocCurve s c = 8 then userTime s c tms mc else some (stdTime (ocCurve s c) tms mc) with
    | some t => integrate (to64 (s.live c 36)) t h
    | none => h
  else h

/-- H under disk emulation (R197). -/
def ocDisk (s : State) (c q h : Nat) : Nat :=
  let m := f64.div (to64 q) (to64 (ocIs s c))
  if f64.lt m one64 then
    let tr := f64.mul (to64 (s.live c 34)) (f64.div (ocTr s c) (f64.sub one64 (f64.mul m m)))
    f64.max (f64.zero false) (f64.sub h (f64.div dtAc tr))
  else h

/-- The stage of R205 for one comparator: picked up as timed, quantity Q. -/
def ocStage (s : State) (c : Nat) (g : Stage) (pick : Bool) (q : Nat) : Stage :=
  let nTR := timeCount (s.live c 37) 4800
  if ocCurve s c = 0 then defStage (ocReset s c) (timeCount (s.live c 35) 4800) nTR g pick
  else invStage (ocReset s c) nTR (ocGrow s c q) (ocDisk s c q) g pick

/-- One comparator timed: its raw state and its stage stored. -/
def ocStep (s : State) (c j : Nat) (comp timed : Bool) (q : Nat) (e : Tab Int) : Tab Int :=
  stagePut (estSet e (slotComp j) (b2n comp)) (16 * j) (ocStage s c (stageAt e (16 * j)) timed q)

def maxH (e : Tab Int) (n : Nat) : Nat := to32 ((List.range n).foldl (fun m j => f64.max m (stageAt e (16 * j)).h) (f64.zero false))

/-- The measurements of an evaluation whose result is discarded (BLK, FLT): the integrator as it stands stored, and no elapsed start
time (R202). -/
def heldMeas (t : Nat) (e : Tab Int) (m : List Nat) : List Nat :=
  if t = 1 || t = 4 || t = 5 then m.set 3 (maxH e 3) else if t = 2 then m.set 1 (maxH e 3) else if t = 9 then m.set 2 (maxH e 3)
  else if t = 3 then m.set 5 (maxH e 3) else if t = 7 then m.set 3 0 else m

/-- Any stage operated. -/
def anyOp (e : Tab Int) (n : Nat) : Bool := (List.range n).any (fun j => (stageAt e (16 * j)).op)

/-! ### PHOC, EFOC, NSOC (R206 to R208) -/

/-- One comparator per quantity, stages on each. -/
def phocEval (s : State) (c : Nat) (x : NcState) : ElemOut :=
  let n := min 3 (ncNbind s c)
  let qs := (List.range n).map (fun i => (phasor s c x i).mag)
  let ps := (List.range n).map (fun i => overComp (compAt x.est i) (qs.getD i 0) (ocIs s c))
  let e := (List.range n).foldl (fun e i => ocStep s c i (ps.getD i false) (ps.getD i false) (qs.getD i 0) e) x.est
  ⟨outWord (ps.any id) (anyOp e n) (ps.getD 0 false) (ps.getD 1 false) (ps.getD 2 false) false, e,
    [qs.getD 0 0, qs.getD 1 0, qs.getD 2 0, maxH e n], 0, anyBad qs, false⟩

/-- One comparator on one quantity with no phase bits. -/
def singleOut (s : State) (c : Nat) (x : NcState) (comp : Bool) (q : Nat) (meas : Nat → List Nat) (used : List Nat) : ElemOut :=
  let e := ocStep s c 0 comp comp q x.est
  ⟨outWord comp (anyOp e 1) false false false false, e, meas (maxH e 1), 0, anyBad used, false⟩

def efocEval (s : State) (c : Nat) (x : NcState) : ElemOut :=
  let q := if s.liveF c 40 0 1 = 0 then (phasor s c x 0).mag else (seqZero (phasor s c x 0) (phasor s c x 1) (phasor s c x 2)).mag
  singleOut s c x (overComp (compAt x.est 0) q (ocIs s c)) q (fun h => [q, h]) [q]

def nsocEval (s : State) (c : Nat) (x : NcState) : ElemOut :=
  let acb := decide (s.liveF c 40 1 1 = 1)
  let i2 := (seqNeg acb (phasor s c x 0) (phasor s c x 1) (phasor s c x 2)).mag
  let i1 := (seqPos acb (phasor s c x 0) (phasor s c x 1) (phasor s c x 2)).mag
  let k2 := s.live c 41
  let was := compAt x.est 0
  let k := f32.ratio k2
  let i := f32.ratio i1
  let ratioOk := if k.1 = 0 then true
    else if was then !f32.lt i2 (f32.ofRat (k.1 * i.1 * 95) (k.2 * i.2 * 100)) else f32.ge i2 (fmul32 k2 i1)
  singleOut s c x (overComp was i2 (ocIs s c) && ratioOk) i2 (fun h => [i2, i1, h]) (if k.1 = 0 then [i2] else [i2, i1])

/-! ### DIROC (R209 to R212) -/

/-- RNE32 of a cosine or sine in degrees, computed in binary64. -/
def cos32 (v : Nat) : Nat := to32 (f64.ofFix (cosDeg (f32.ratio v)))
def sin32 (v : Nat) : Nat := to32 (f64.ofFix (sinDeg (f32.ratio v)))

/-- The operating and polarising quantities of each comparator (R209). -/
def dirocPairs (s : State) (c : Nat) (x : NcState) : List (Cx × Cx) :=
  let p := fun i => phasor s c x i
  let acb := decide (s.liveF c 40 2 1 = 1)
  let t := s.liveF c 40 0 2
  if t = 0 then
    let v := fun a b => if acb then (p b).sub (p a) else (p a).sub (p b)
    [(p 0, v 4 5), (p 1, v 5 3), (p 2, v 3 4)]
  else if t = 1 then [(seqZero (p 0) (p 1) (p 2), (seqZero (p 3) (p 4) (p 5)).neg)]
  else [(seqNeg acb (p 0) (p 1) (p 2), (seqNeg acb (p 3) (p 4) (p 5)).neg)]

/-- What the direction of one comparator rests on: the quantity used, none where the direction is lost. -/
def dirocPol (s : State) (c : Nat) (x : NcState) (j : Nat) (v : Cx) : Option Cx :=
  let b := 16 * j
  let n := evalNo x
  if f32.ge v.mag (s.live c 43) then some v
  else
    let first := if estGet x.est (b + 14) = 0 then n else estGet x.est (b + 14) - 1
    if estGet x.est (b + 12) = 1 && decide (n - first + 1 ≤ timeCount (s.live c 44) 4800) then
      let d := n - estGet x.est (b + 13)
      let k := cycleN s c
      some ((⟨(cosTab k).getD (d % k) 0, (sinTab k).getD (d % k) 0⟩ : Cx).mul ⟨estGet x.est (b + 10), estGet x.est (b + 11)⟩)
    else none

/-- D' of R210. -/
def dirocD (s : State) (c : Nat) (iop v : Cx) : Cx := (iop.mul v.conj).mul ⟨cos32 (s.live c 41), f32.neg (sin32 (s.live c 41))⟩

/-- Forward 1, reverse 2, undetermined 0. -/
def dirocDir (s : State) (c : Nat) (d : Cx) : Nat :=
  let z := fmul32 (cos32 (s.live c 42)) d.mag
  if f32.gt d.re z then 1 else if f32.lt d.re (f32.neg z) then 2 else 0

/-- The memory of a comparator after an evaluation (R211). -/
def dirocMem (s : State) (c : Nat) (x : NcState) (j : Nat) (v : Cx) (comp : Bool) (e : Tab Int) : Tab Int :=
  let b := 16 * j
  if f32.ge v.mag (s.live c 43) then
    let e1 := estSet e (b + 14) 0
    if comp then e1 else estSet (estSet (estSet (estSet e1 (b + 10) v.re) (b + 11) v.im) (b + 12) 1) (b + 13) (evalNo x)
  else if estGet e (b + 14) = 0 then estSet e (b + 14) (evalNo x + 1) else e

/-- One comparator of DIROC: quantity, picked up, direction (3 lost), qualified, angle D'. -/
structure DirocComp where
  j : Nat
  q : Nat
  vm : Nat
  comp : Bool
  dir : Nat
  qual : Bool
  d : Option Cx

def dirocComp (s : State) (c : Nat) (x : NcState) (p : Nat × Cx × Cx) : DirocComp :=
  let q := p.2.1.mag
  let comp := overComp (compAt x.est p.1) q (ocIs s c)
  let d := (dirocPol s c x p.1 p.2.2).map (dirocD s c p.2.1)
  let dir := match d with | some z => dirocDir s c z | none => 3
  let mode := s.liveF c 40 3 2
  let ok := if dir = 3 then s.liveF c 40 5 1 = 1 else mode = 2 || (mode = 0 && dir = 1) || (mode = 1 && dir = 2)
  ⟨p.1, q, p.2.2.mag, comp, dir, comp && ok, d⟩

/-- The comparator with the largest |Iop|, ties to the lower binding (R202). -/
def dirocLead (l : List DirocComp) : Option DirocComp :=
  let t := if l.any (·.qual) then l.filter (·.qual) else l
  t.foldl (fun b k => match b with | none => some k | some m => if f32.gt k.q m.q then some k else b) none

/-- An angle in degrees, of a phasor. -/
def angleDeg (z : Cx) : Nat :=
  if f32.finite z.re && f32.finite z.im then f32.ofFix (fixDiv (180 * atan2Fix (f32.ratio z.im) (f32.ratio z.re)) fixPi) else f32.nan

def dirocEval (s : State) (c : Nat) (x : NcState) : ElemOut :=
  let pairs := dirocPairs s c x
  let l := ((List.range pairs.length).zip pairs).map (dirocComp s c x)
  let e := (((List.range pairs.length).zip pairs).zip l).foldl (fun e p =>
    dirocMem s c x p.2.j p.1.2.2 p.2.comp (ocStep s c p.2.j p.2.comp p.2.qual p.2.q e)) x.est
  let ph := decide (l.length = 3)
  let qual := fun i => ph && (l.map (·.qual)).getD i false
  let lead := dirocLead l
  let bad := anyBad (l.map (·.q)) || l.any (fun k => match k.d with | some z => anyBad [z.re, z.im, z.mag] | none => false) || anyBad (l.map (·.vm))
  ⟨outWord (l.any (·.qual)) (anyOp e l.length) (qual 0) (qual 1) (qual 2) (l.any (fun k => k.comp && k.dir = 1)), e,
    [(l.map (·.q)).getD 0 0, (l.map (·.q)).getD 1 0, (l.map (·.q)).getD 2 0, (lead.map (·.vm)).getD 0,
     match lead with | some k => (match k.d with | some z => angleDeg z | none => 0) | none => 0, maxH e l.length], 0, bad, false⟩

/-! ### UV and OV (R213 to R215) -/

def voltQuantities (s : State) (c : Nat) (x : NcState) (ov : Bool) : List Nat :=
  let p := fun i => phasor s c x i
  let acb := decide (s.liveF c 32 4 1 = 1)
  let m := s.liveF c 32 1 2
  if m = 0 then (List.range (min 3 (ncNbind s c))).map (fun i => (p i).mag)
  else if m = 1 then [((p 0).sub (p 1)).mag, ((p 1).sub (p 2)).mag, ((p 2).sub (p 0)).mag]
  else if m = 2 then [if ov then (seqZero (p 0) (p 1) (p 2)).mag else (seqPos acb (p 0) (p 1) (p 2)).mag]
  else [(seqNeg acb (p 0) (p 1) (p 2)).mag]

/-- The comparator of a quantity (R213, R214). -/
def voltComp (s : State) (c : Nat) (ov : Bool) (was : Bool) (q : Nat) : Bool :=
  if ov then overComp was q (s.live c 33)
  else
    let vblk := s.live c 38
    underComp was q (s.live c 33) && ((f32.ratio vblk).1 = 0 || !f32.lt q vblk)

/-- H of a voltage stage (R215). -/
def voltGrow (s : State) (c : Nat) (ov : Bool) (q h : Nat) : Nat :=
  let r := f64.div (to64 q) (to64 (s.live c 33))
  let d := if ov then f64.sub r one64 else f64.sub one64 r
  if (if ov then f32.gt q (s.live c 33) else f32.lt q (s.live c 33)) then
    integrate (to64 (s.live c 36)) (f64.div (to64 (s.live c 35)) d) h
  else h

def voltStage (s : State) (c : Nat) (ov : Bool) (g : Stage) (p : Bool) (q : Nat) : Stage :=
  let reset := s.liveF c 32 5 2
  let nTR := timeCount (s.live c 37) 4800
  if s.liveF c 32 0 1 = 0 then defStage reset (timeCount (s.live c 34) 4800) nTR g p
  else invStage reset nTR (voltGrow s c ov q) id g p

def voltEval (s : State) (c : Nat) (x : NcState) (ov : Bool) : ElemOut :=
  let qs := voltQuantities s c x ov
  let n := qs.length
  let ps := (List.range n).map (fun i => voltComp s c ov (compAt x.est i) (qs.getD i 0))
  let all := decide (s.liveF c 32 3 1 = 1)
  let pick := if all then ps.all id else ps.any id
  let e := (List.range n).foldl (fun e i =>
    let p := if all then pick else ps.getD i false
    stagePut (estSet e (slotComp i) (b2n (ps.getD i false))) (16 * i) (voltStage s c ov (stageAt e (16 * i)) p (qs.getD i 0))) x.est
  let ph := decide (s.liveF c 32 1 2 ≤ 1)
  ⟨outWord pick (pick && anyOp e n) (ph && ps.getD 0 false) (ph && ps.getD 1 false) (ph && ps.getD 2 false) false, e,
    [qs.getD 0 0, qs.getD 1 0, qs.getD 2 0, maxH e n], 0, anyBad qs, false⟩

/-! ### DIFF (R216 to R221) -/

/-- Element of M(θ) for an angle in degrees (R217). -/
def clockCoef (deg : Int) : Nat := to32 (f64.ofFix (2 * cosDeg (deg, 1) / 3))

/-- One row of M(θ) times a phasor vector, left to right. -/
def clockRow (a b d : Int) (v : List Cx) : Cx :=
  (((v.getD 0 default).scale (clockCoef a)).add ((v.getD 1 default).scale (clockCoef b))).add ((v.getD 2 default).scale (clockCoef d))

def clockMul (t : Int) (v : List Cx) : List Cx :=
  [clockRow t (t + 120) (t - 120) v, clockRow (t - 120) t (t + 120) v, clockRow (t + 120) (t - 120) t v]

/-- The matched phasors at a harmonic, by phase: one per terminal (R217). -/
def diffMatched (s : State) (c : Nat) (x : NcState) (h : Nat) : List (List Cx) :=
  let p := fun i => phasorH s c x h i
  if s.liveF c 32 0 1 = 0 then
    let ck := s.liveF c 32 3 4
    let v1 := [p 0, p 1, p 2]
    let v2 := [p 3, p 4, p 5]
    let m1 := if s.liveF c 32 7 1 = 1 then clockMul 0 v1 else v1
    let m2 := if ck ≠ 0 then clockMul (30 * ck) v2 else if s.liveF c 32 8 1 = 1 then clockMul 0 v2 else v2
    (List.range 3).map (fun k => [(m1.getD k default).scale (s.live c 33), (m2.getD k default).scale (s.live c 34)])
  else [(List.range (s.liveF c 32 1 2)).map (fun t => (p t).scale (s.live c (33 + t)))]

def diffSum (l : List Cx) : Nat := (((l.getD 0 default).add (l.getD 1 default)).add (l.getD 2 default)).mag

def diffBias (l : List Cx) : Nat :=
  fmul32 (f32.ofRat 1 2) (fadd32 (fadd32 (l.getD 0 default).mag (l.getD 1 default).mag) (l.getD 2 default).mag)

/-- Ith of R218. -/
def diffThr (s : State) (c ir : Nat) : Nat :=
  if f32.le ir (s.live c 38) then f32.max (s.live c 36) (fmul32 (s.live c 37) ir)
  else f32.max (s.live c 36) (fadd32 (fmul32 (s.live c 37) (s.live c 38)) (fmul32 (s.live c 39) (fsub32 ir (s.live c 38))))

/-- A differential comparator: above, and out below 95 %. -/
def diffComp (was : Bool) (q lvl : Nat) : Bool := if was then !f32.lt q (scale32 lvl 95 100) else f32.gt q lvl

/-- Harmonic h blocks the phase (R219). -/
def diffHarm (ratio idh id1 : Nat) : Bool := (f32.ratio ratio).1 ≠ 0 && f32.gt idh (fmul32 ratio id1)

def diffEval (s : State) (c : Nat) (x : NcState) : ElemOut :=
  let ph := diffMatched s c x 1
  let n := ph.length
  let ids := ph.map diffSum
  let irs := ph.map diffBias
  let id2 := (diffMatched s c x 2).map diffSum
  let id5 := (diffMatched s c x 5).map diffSum
  let at' := fun (l : List Nat) i => l.getD i 0
  let ths := irs.map (diffThr s c)
  let rest := (List.range n).map (fun i => diffComp (compAt x.est i) (at' ids i) (at' ths i))
  let unre := (List.range n).map (fun i => diffComp (estGet x.est (16 * i + 9) = 1) (at' ids i) (s.live c 40))
  let own := (List.range n).map (fun i => diffHarm (s.live c 41) (at' id2 i) (at' ids i) || diffHarm (s.live c 42) (at' id5 i) (at' ids i))
  let cross := decide (s.liveF c 32 9 1 = 1) && decide (n = 3)
  let blk := own.map (fun b => if cross then own.any id else b)
  let hold := (List.range n).map (fun i => (rest.getD i false && !blk.getD i false) || unre.getD i false)
  let cnt := (List.range n).map (fun i => if hold.getD i false then estGet x.est (16 * i + 1) + 1 else 0)
  let e := (List.range n).foldl (fun e i =>
    estSet (estSet (estSet e (slotComp i) (b2n (rest.getD i false))) (16 * i + 9) (b2n (unre.getD i false))) (16 * i + 1) (at' cnt i)) x.est
  let pu := fun i => rest.getD i false || unre.getD i false
  let conf := s.liveF c 32 10 2
  let used := ids ++ irs ++ ths ++ (if (f32.ratio (s.live c 41)).1 = 0 then [] else id2) ++ (if (f32.ratio (s.live c 42)).1 = 0 then [] else id5)
  let big := fun (l : List Nat) => (List.range n).foldl (fun m i => f32.max m (fdiv32 (at' l i) (at' ids i))) 0
  ⟨outWord (pu 0 || pu 1 || pu 2) (cnt.any (fun k => decide (0 < k) && decide (conf ≤ k))) (pu 0) (pu 1) (pu 2) false, e,
    [at' ids 0, at' ids 1, at' ids 2, at' irs 0, at' irs 1, at' irs 2, big id2, big id5], 0, anyBad used, false⟩

/-! ### BFP (R222 to R224) -/

/-- A start source as it stands (R222): a Quill output bit, or the OP bit that a context last delivered. -/
def bfpSources (s : State) (c : Nat) : Bool :=
  (List.range (s.liveF c 32 3 3)).any (fun j =>
    let k := s.liveF c (36 + j) 0 8
    if s.liveF c (36 + j) 8 1 = 0 then s.qil.qb.testBit k else (s.nc k).delivered.testBit 1)

/-- Current is present (R223): picked up, and a sample of the last half cycle reaches the crest level. -/
def bfpPresent (comp : Bool) (half : List Nat) (lvl : Nat) : Bool :=
  comp && half.any (fun v => f32.ge (f32.abs v) (scale32 lvl 7071068 10000000))

def bfpEval (s : State) (c : Nat) (x : NcState) (start : Bool) : ElemOut :=
  let half := cycleN s c / 2
  let win := fun i => (window x c i half).map (·.val)
  let qs := (List.range 3).map (fun i => (phasor s c x i).mag)
  let ps := (List.range 3).map (fun i => overComp (compAt x.est i) (qs.getD i 0) (s.live c 33))
  let pres := (List.range 3).map (fun i => bfpPresent (ps.getD i false) (win i) (s.live c 33))
  let res := decide (s.liveF c 32 1 1 = 1)
  let four := decide (ncNbind s c = 4)
  let rq := if four then (phasor s c x 3).mag else (seqZero (phasor s c x 0) (phasor s c x 1) (phasor s c x 2)).mag
  let rwin := if four then win 3 else ((win 0).zip ((win 1).zip (win 2))).map (fun p => fadd32 (fadd32 p.1 p.2.1) p.2.2)
  let rp := res && overComp (compAt x.est 3) rq (s.live c 34)
  let any := pres.any id || (res && bfpPresent rp rwin (s.live c 34))
  let st := start || (decide (s.liveF c 32 2 1 = 1) && decide (estGet x.est 100 = 1) && any)
  let pu := st && any
  let g := defStage 0 (timeCount (s.live c 35) 4800) 0 (stageAt x.est 0) pu
  let e0 := (List.range 3).foldl (fun e i => estSet e (slotComp i) (b2n (ps.getD i false))) (stagePut x.est 0 g)
  let e := estSet (estSet e0 (slotComp 3) (b2n rp)) 100 (b2n st)
  let d := f64.ratio dtAc
  ⟨outWord pu (g.op && pu) (pres.getD 0 false) (pres.getD 1 false) (pres.getD 2 false) false, e,
    [qs.getD 0 0, qs.getD 1 0, qs.getD 2 0, if pu then f32.ofRat (d.1 * g.c) d.2 else 0], 0,
    anyBad (qs ++ (List.range 3).flatMap win ++ (if res then rq :: rwin else [])), false⟩

/-! ### FREQ (R225, R226) -/

/-- A history slot: value slots from `b`, the number of the evaluation of each plus 1 in the slots 100,000 above. -/
def freqPut (e : Tab Int) (b len g v : Nat) : Tab Int := estSet (estSet e (b + g % len) v) (100000 + b + g % len) (g + 1)

def freqAt (e : Tab Int) (b len g : Nat) : Option Nat :=
  if estGet e (100000 + b + g % len) = g + 1 then some (estGet e (b + g % len)) else none

/-- fe[n] from z (R225). -/
def freqOf (f0 : Nat) (z : Cx) : Nat :=
  let phi := f32.ofRat (f64.ratio (f64.ofFix (atan2Fix (f32.ratio z.im) (f32.ratio z.re)))).1 (f64.ratio (f64.ofFix (atan2Fix (f32.ratio z.im) (f32.ratio z.re)))).2
  f64.mul (f64.ofInt f0) (f64.add one64 (f64.div (to64 phi) (f64.ofFix (2 * fixPi))))

/-- The comparator of R226. -/
def freqComp (fmode rmode : Nat) (was : Bool) (f ro fs fhys : Nat) : Bool :=
  let band := f64.sub fs fhys
  if fmode = 0 then (if was then f64.lt f (f64.add fs fhys) else f64.lt f fs)
  else if fmode = 1 then (if was then f64.gt f band else f64.gt f fs)
  else if rmode = 0 then (if was then f64.gt (f64.abs ro) band else f64.gt (f64.abs ro) fs)
  else if rmode = 1 then (if was then f64.gt ro band else f64.gt ro fs)
  else (if was then f64.lt ro (f64.neg band) else f64.lt ro (f64.neg fs))

/-- FREQ (R225): n counts the context's evaluations, so the histories stand across a DTC step (R175). -/
def freqEval (s : State) (c : Nat) (x : NcState) : ElemOut :=
  let n := cycleN s c
  let g := evalNo x
  let w := s.liveF c 32 6 6 * n
  let v := if s.liveF c 32 4 1 = 0 then seqPos (decide (s.liveF c 32 5 1 = 1)) (phasor s c x 0) (phasor s c x 1) (phasor s c x 2) else phasor s c x 0
  let old : Option Cx := match freqAt x.est 1000 128 (g - n), freqAt x.est 1200 128 (g - n) with
    | some a, some b => if n ≤ g then some ⟨a, b⟩ else none
    | _, _ => none
  let z := old.map (fun o => v.mul o.conj)
  let e1 := freqPut (freqPut x.est 1000 128 g v.re) 1200 128 g v.im
  let e2 := match z with | some y => freqPut e1 1400 128 g (freqOf (nomHz s c) y) | none => e1
  let fes := (List.range n).reverse.map (fun k => if k ≤ g then freqAt e2 1400 128 (g - k) else none)
  let f : Option Nat := if fes.all (·.isSome) then
      some (f64.mul ((fes.filterMap id).foldl f64.add (f64.zero false)) (f64.ofRat 1 n)) else none
  let e3 := match f with | some y => freqPut e2 2000 8192 g y | none => e2
  let fmode := s.liveF c 32 0 2
  let fw := if fmode = 2 && decide (w ≤ g) then freqAt e3 2000 8192 (g - w) else none
  let ro := match f, fw with
    | some a, some b => f64.mul (f64.sub a b) (f64.ofRat 4800 w)
    | _, _ => f64.zero false
  let fv := f.getD (f64.zero false)
  let f0 : Int := nomHz s c
  let ready := f.isSome && (fmode ≠ 2 || fw.isSome)
  let vm := s.live c 36
  let valid := ready && f32.ge v.mag vm && f32.ge ((old.map Cx.mag).getD 0) vm && f64.ge fv (f64.ofInt (f0 - 10)) && f64.le fv (f64.ofInt (f0 + 10))
  let comp := valid && freqComp fmode (s.liveF c 32 2 2) (compAt x.est 0) fv ro (to64 (s.live c 33)) (to64 (s.live c 34))
  let st := if valid then defStage 0 (timeCount (s.live c 35) 4800) 0 (stageAt x.est 0) comp else ⟨false, 0, 0, 0, false⟩
  let e := estSet (stagePut e3 0 st) (slotComp 0) (b2n comp)
  ⟨outWord comp (comp && st.op) false false false false, e, [to32 fv, to32 ro, v.mag], if valid then 0 else 16,
    anyBad [v.re, v.im, v.mag] || (match z with | some y => anyBad [y.re, y.im] | none => false), !ready⟩

end Sys2Proof.Machine
end

