-- ==== Sys2Proof/Machine/Dc.lean ====
section
/-! DEFINITION. The DCF elements (spec/07 R227 to R237, R252 to R255). Pole p stores its stage from slot 16 p and its comparator
in slot 16 p + 8 (DIDT: 1 forward, 2 reverse). DCDIFF stores its alignment in slots 990 to 992: in fallback, LTC + 1 since
which every condition has held, fallback caused by ASYM. -/

namespace Sys2Proof.Machine

/-! ### Poles (R227 to R229) -/

def poles (s : State) (c : Nat) : Nat := min 2 (ncNbind s c)

/-- s_p times a value. -/
def poleSign (s : State) (c p v : Nat) : Nat := if s.liveF c 32 p 1 = 1 then f32.neg v else v

def poleNow (s : State) (c : Nat) (x : NcState) (p : Nat) : Nat := poleSign s c p (((window x c p 1).headD default).val)

def rateK (s : State) (c : Nat) : Nat := s.liveF c 32 2 6

/-- r' of R228. -/
def poleRate (s : State) (c : Nat) (x : NcState) (p : Nat) : Nat :=
  let k := rateK s c
  let w := (window x c p (k + 1)).map (·.val)
  poleSign s c p (fmul32 (fsub32 (w.getD 0 0) (w.getD k 0)) (f32.ofRat 96000 k))

/-- One pole's comparator timed (R229). -/
def poleStep (s : State) (c tdWord p comp : Nat) (timed : Bool) (e : Tab Int) : Tab Int :=
  stagePut (estSet e (slotComp p) comp) (16 * p) (defStage 0 (timeCount (s.live c tdWord) 96000) 0 (stageAt e (16 * p)) timed)

/-- The common output of R229 from the picked-up poles. -/
def poleOut (s : State) (c : Nat) (x : NcState) (tdWord : Nat) (comp : List Nat) (timed : List Bool) (dir : Bool) (meas used : List Nat) : ElemOut :=
  let n := poles s c
  let e := (List.range n).foldl (fun e p => poleStep s c tdWord p (comp.getD p 0) (timed.getD p false) e) x.est
  ⟨outWord (timed.any id) (anyOp e n) (timed.getD 0 false) (timed.getD 1 false) false dir, e, meas, 0, anyBad used, false⟩

/-- A value of pole 2 where it is bound. -/
def second (s : State) (c v : Nat) : Nat := if poles s c = 2 then v else 0

/-- ROCOV (R234). -/
def rocovEval (s : State) (c : Nat) (x : NcState) : ElemOut :=
  let ps := List.range (poles s c)
  let v := ps.map (poleNow s c x)
  let r := ps.map (poleRate s c x)
  let rth := s.live c 33
  let lvl := s.live c 35
  let comp := ps.map (fun p =>
    if estGet x.est (slotComp p) = 1 then
      !(f32.ge (r.getD p 0) (fsub32 (s.live c 34) rth) || f32.ge (v.getD p 0) (fadd32 lvl (s.live c 36)))
    else f32.lt (r.getD p 0) (f32.neg rth) && f32.lt (v.getD p 0) lvl)
  poleOut s c x 37 (comp.map b2n) comp false [v.getD 0 0, v.getD 1 0, r.getD 0 0, r.getD 1 0] (v ++ r)

/-- The sense in which a DIDT comparator is picked up (R235). -/
def didtSense (mode was r dth dhys : Nat) : Nat :=
  let band := fsub32 dth dhys
  if was = 1 && mode ≠ 1 then (if f32.le r band then 0 else 1)
  else if was = 2 && mode ≠ 0 then (if f32.ge r (fsub32 dhys dth) then 0 else 2)
  else if mode ≠ 1 && f32.gt r dth then 1
  else if mode ≠ 0 && f32.lt r (f32.neg dth) then 2
  else 0

/-- DIDT (R235). -/
def didtEval (s : State) (c : Nat) (x : NcState) : ElemOut :=
  let ps := List.range (poles s c)
  let v := ps.map (poleNow s c x)
  let r := ps.map (poleRate s c x)
  let sense := ps.map (fun p => didtSense (s.liveF c 32 8 2) (estGet x.est (slotComp p)) (r.getD p 0) (s.live c 33) (s.live c 34))
  poleOut s c x 35 sense (sense.map (fun k => decide (k ≠ 0))) (sense.contains 1) [v.getD 0 0, v.getD 1 0, r.getD 0 0, r.getD 1 0] (v ++ r)

/-- DCOC (R236). -/
def dcocEval (s : State) (c : Nat) (x : NcState) : ElemOut :=
  let ps := List.range (poles s c)
  let v := ps.map (poleNow s c x)
  let mode := s.liveF c 32 2 2
  let q := v.map (fun i => if mode = 0 then f32.abs i else if mode = 1 then i else f32.neg i)
  let lvl := s.live c 33
  let comp := ps.map (fun p => if estGet x.est (slotComp p) = 1 then !f32.lt (q.getD p 0) (fsub32 lvl (s.live c 34)) else f32.ge (q.getD p 0) lvl)
  poleOut s c x 35 (comp.map b2n) comp (ps.any (fun p => comp.getD p false && f32.gt (v.getD p 0) 0)) [v.getD 0 0, v.getD 1 0] v

/-- DCUV (R237). -/
def dcuvEval (s : State) (c : Nat) (x : NcState) : ElemOut :=
  let ps := List.range (poles s c)
  let v := ps.map (poleNow s c x)
  let lvl := s.live c 33
  let comp := ps.map (fun p => if estGet x.est (slotComp p) = 1 then !f32.ge (v.getD p 0) (fadd32 lvl (s.live c 34)) else f32.lt (v.getD p 0) lvl)
  let timed := if s.liveF c 32 4 1 = 1 then comp.map (fun _ => comp.all id) else comp
  poleOut s c x 35 (comp.map b2n) timed false [v.getD 0 0, v.getD 1 0] v

/-! ### DCDIFF (R252 to R255) -/

def ddLink (s : State) (c : Nat) : Nat := s.liveF c 32 6 2
def ddFallback (x : NcState) : Bool := decide (estGet x.est 990 = 1)

/-- The first DTC condition that fails (R253): 0 TQ_L, 1 TQ_R, 2 local ASYM, 3 remote ASYM. A sample that is not in its ring shows
neither its TQ nor its ASYM. -/
def ddFailed (s : State) (rem loc : Hist) : Option Nat :=
  if loc.ok && decide (1 < loc.tq) then some 0 else if rem.ok && decide (1 < rem.tq) then some 1 else if s.on Reg.RUL_TQ_ASYM then some 2
  else if rem.ok && rem.asym then some 3 else none

/-- A change of mode drops the comparator and clears the count (R253). -/
def ddEnter (e : Tab Int) (fallback asym : Bool) : Tab Int :=
  estSet (estSet (estSet (estSet (estSet e (slotComp 0) 0) 1 0) 990 (b2n fallback)) 991 0) 992 (b2n asym)

/-- The alignment mode at an evaluation (R253). An evaluation without one of its samples enters no fallback for that, and does not
count as one at which every condition holds (DESIGN CHOICE, log entry 55). -/
def ddMode (s : State) (c : Nat) (rem loc : Hist) : State :=
  let x := s.nc c
  match ddFailed s rem loc with
  | some k =>
    if ddFallback x then s.setNc c { x with est := estSet x.est 991 0 }
    else (s.setNc c { x with est := ddEnter x.est true (decide (2 ≤ k)) }).log Ev.DCDIFF_FALLBACK c [.w (s.liveF c 32 5 1), .w (Config.causeCode 0x110 k)]
  | none =>
    if ddFallback x then
      let since := estGet x.est 991
      if !rem.ok || !loc.ok then s.setNc c { x with est := estSet x.est 991 0 }
      else if since = 0 then s.setNc c { x with est := estSet x.est 991 (s.ltc + 1) }
      else if since - 1 + 1000000000 ≤ s.ltc then (s.setNc c { x with est := ddEnter x.est false false }).log Ev.DCDIFF_DTC c
      else s
    else s

/-- The local instant nearest t_e, ties to the earlier one (R254). -/
def ddNearest (te : Nat) : Instant := (2 * te * 96000 + 999999999) / 2000000000 * 12

/-- The local value that PING-PONG pairs (R254): none usable without a valid D or where it is not in the ring. -/
def ddPair (s : State) (c : Nat) (rem : Hist) : Hist × Bool :=
  let n := ddLink s c
  let te := rem.rx - rem.age - s.f (Reg.DUC_DL_D_D n)
  let r := readBinding s c 1 (ddNearest te)
  ({ r.1 with ok := r.1.ok && s.on (Reg.DUC_DL_STAT_DVALID n) }, r.2)

/-- What a DCDIFF evaluation reads: mode first, then the pair; the count of bindings missing. -/
def ddRead (s : State) (c : Nat) (inst : Instant) : State × List Hist × Nat :=
  let rem := readBinding s c 0 inst
  let loc := readBinding s c 1 inst
  let s1 := ddMode s c rem.1 loc.1
  if ddFallback (s1.nc c) then
    if s1.liveF c 32 5 1 = 1 then (s1, [rem.1, { loc.1 with ok := false }], b2n (!rem.2) + b2n (!loc.2))
    else
      let p := ddPair s1 c rem.1
      (s1, [rem.1, p.1], b2n (!rem.2) + b2n (!p.2))
  else (s1, [rem.1, loc.1], b2n (!rem.2) + b2n (!loc.2))

/-- The differential comparator (R255); OP stays while it remains picked up. -/
def ddEval (s : State) (c : Nat) (x : NcState) : ElemOut :=
  let ir := ((window x c 0 1).headD default).val
  let il := ((window x c 1 1).headD default).val
  let fb := ddFallback x
  let floor := if fb && s.liveF c 32 5 1 = 0 then fmul32 (f32.ofInt 2) (s.live c 33) else s.live c 33
  let sum := fadd32 (f32.abs ir) (f32.abs il)
  let sa := f32.abs (fadd32 ir il)
  let th := f32.max floor (fmul32 (s.live c 34) sum)
  let comp := if compAt x.est 0 then !f32.lt sa (fsub32 th (s.live c 35)) else f32.gt sa th
  let cnt := if comp then estGet x.est 1 + 1 else 0
  let op := comp && (decide (s.liveF c 32 0 5 ≤ cnt) || (compAt x.est 0 && estGet x.est 3 = 1))
  let e := estSet (estSet (estSet x.est (slotComp 0) (b2n comp)) 1 cnt) 3 (b2n op)
  let p2 := decide (s.liveF c 32 8 1 = 1)
  ⟨outWord comp op (comp && !p2) (comp && p2) false false, e,
    [ir, il, sa, th, f32.ofRat (s.f (Reg.DUC_DL_D_D (ddLink s c))) 1000],
    16 * b2n (fb && decide (estGet x.est 992 = 1)) + 128 * b2n fb, anyBad [sa, sum, th], false⟩

/-! ### Which element (R161) -/

/-- Samples of each binding's window (R159, R230). -/
def windowLen (s : State) (c : Nat) : Nat :=
  let t := ncType s c
  if ncClass s c = 1 then cycleN s c else if t = 0x20 || t = 0x21 then rateK s c + 1 else 1

/-- One evaluation of an AC or DCF element. -/
def elemEval (s : State) (c : Nat) (x : NcState) (r : Running) : ElemOut :=
  let t := ncType s c
  if t = 1 then phocEval s c x
  else if t = 2 then efocEval s c x
  else if t = 3 then dirocEval s c x
  else if t = 4 then voltEval s c x false
  else if t = 5 then voltEval s c x true
  else if t = 6 then diffEval s c x
  else if t = 7 then bfpEval s c x r.bfpStart
  else if t = 8 then freqEval s c x
  else if t = 9 then nsocEval s c x
  else if t = 0x20 then rocovEval s c x
  else if t = 0x21 then didtEval s c x
  else if t = 0x22 then dcocEval s c x
  else if t = 0x23 then dcuvEval s c x
  else ddEval s c x

end Sys2Proof.Machine
end

