-- ==== Sys2Proof/Machine/Stroke.lean ====
section
/-! DEFINITION. The Stroke unit (spec/08): input vector, gating, seal-in and latches, drive, feedback supervision, test pulses,
publication images. -/

namespace Sys2Proof.Machine

namespace State

def setStk (s : State) (x : Stk) : State := { s with stk := x }

def so (s : State) (n : Nat) : SoState := s.stk.so.get n

def setSo (s : State) (n : Nat) (x : SoState) : State := s.setStk { s.stk with so := s.stk.so.set n x }

def asserted (s : State) (n : Nat) : Bool := s.on (Reg.STK_SO_STAT_ASSERTED n)

/-- MSC (R261). -/
def msc (s : State) : Bool := s.running

/-- The output is enabled and in service (R266, R500). -/
def soEnabled (s : State) (n : Nat) : Bool := s.on (Reg.STK_SO_CFG_EN n) && !s.mem.oosSo.testBit n

end State

/-! ### Queues toward Stroke (R260) -/

/-- One bit of an update enters the vector: a matrix input with its TEST mark, or a field input. -/
def vecBit (x : Stk) (p : Nat × Bool × Bool) : Stk :=
  if p.1 < 512 then { x with vec := setBitOf x.vec p.1 p.2.1, marks := setBitOf x.marks p.1 p.2.2 }
  else { x with fin := setBitOf x.fin (p.1 - 512) p.2.1 }

/-- The logic-output queue holds its 16 flits, or flits wait for it (R21). -/
def logicFull (s : State) : Bool := decide (16 ≤ s.stk.logicQ.length) || decide (s.stk.logicHold ≠ [])

/-- What the flits formed so far make of the vector. -/
def logicSent (s : State) : Stk := (s.stk.logicQ ++ s.stk.logicHold).flatten.foldl vecBit s.stk

/-- The values among `l` that no flit has carried to Stroke yet. -/
def logicNew (s : State) (l : List (Nat × Bool × Bool)) : List (Nat × Bool × Bool) :=
  let x := logicSent s
  l.filter (fun p => if p.1 < 512 then x.vec.testBit p.1 != p.2.1 || x.marks.testBit p.1 != p.2.2 else x.fin.testBit (p.1 - 512) != p.2.1)

/-- The update that source `src` sends now waits from now (R532). -/
def waitsFrom (s : State) (src : Nat) : State := s.setStk { s.stk with sentAt := s.stk.sentAt.upd src (fun l => l ++ [s.ltc]) }

/-- The flits that wait go out in order while the producer holds credits (R18, R21). -/
def logicMove : Nat → State → State
  | 0, s => s
  | k + 1, s =>
    match s.stk.logicHold with
    | l :: t => if 16 ≤ s.stk.logicQ.length then s else logicMove k (waitsFrom (s.setStk { s.stk with logicQ := s.stk.logicQ ++ [l], logicHold := t }) 16)
    | [] => s

/-- A flit toward Stroke: each change goes as it occurs, behind those before it, and waits where there is no credit (R19, R260; log entry
52). -/
def logicFlit (s : State) (l : List (Nat × Bool × Bool)) : State := logicMove 16 (s.setStk { s.stk with logicHold := s.stk.logicHold ++ [l] })

/-- The signal space passes what changed to Stroke in one flit (R260). -/
def logicSend (s : State) (l : List (Nat × Bool × Bool)) : State :=
  match logicNew s l with
  | [] => s
  | c => logicFlit s c

/-- A Ductus change: the 16 received bits of link n as delivered. -/
def dlChange (s : State) (n w : Nat) : State :=
  waitsFrom (s.setStk { s.stk with dlQ := s.stk.dlQ.set n (s.stk.dlQ.get n ++ [w]) }) (17 + n)

/-- A decision flit of engine `e` (R169). -/
def decisionSend (s : State) (e : Nat) (l : List Decision) : State :=
  waitsFrom { s with nib := { s.nib with toStroke := s.nib.toStroke ++ [(e, l)] } } e

/-! ### Gating (R261) -/

/-- A condition from its source: constant 1, a Quill bit, a field input. -/
def gateSrc (s : State) (src idx : Nat) : Bool :=
  if src = 0 then true else if src = 1 then s.stk.vec.testBit (256 + idx) else if src = 2 then s.stk.fin.testBit idx else false

def soArm (s : State) (n : Nat) : Bool := gateSrc s (s.f (Reg.STK_SO_CFG_ARMSRC n)) (s.f (Reg.STK_SO_CFG_ARMIDX n))
def soSup (s : State) (n : Nat) : Bool := gateSrc s (s.f (Reg.STK_SO_CFG_SUPSRC n)) (s.f (Reg.STK_SO_CFG_SUPIDX n))

/-- The 512-bit mask of an output. -/
def soMask (s : State) (n : Nat) : Nat := (List.range 16).foldl (fun m w => m + s.rd (Reg.STK_SO_MASK n w) * 2 ^ (32 * w)) 0

/-- The inputs that count in an output's OR (R261, R275). -/
def soCounted (s : State) (n : Nat) : Nat :=
  let m := soMask s n &&& s.stk.vec
  if s.on (Reg.STK_SO_CFG_TACC n) then m else m &&& ((2 ^ 512 - 1) ^^^ s.stk.marks)

def soOr (s : State) (n : Nat) : Bool := soCounted s n ≠ 0 || (s.so n).pulse.isSome

/-- PRE (R261); an output that is not enabled has none (R266). -/
def soPre (s : State) (n : Nat) : Bool := s.soEnabled n && soOr s n && soArm s n && soSup s n && s.msc

/-- The lowest bit set below `k + n`, from k upward. -/
def lowestBit (m : Nat) : Nat → Nat → Nat
  | 0, _ => 0x3FF
  | n + 1, k => if m.testBit k then k else lowestBit m n (k + 1)

/-! ### Assertion and release (R262 to R264) -/

/-- An assertion starts. -/
def assertSo (s : State) (n : Nat) : State :=
  let c := soCounted s n
  let first := lowestBit c 512 0
  let td := (c &&& ((2 ^ 512 - 1) ^^^ s.stk.marks)) = 0
  let s1 := s.setFs [(Reg.STK_SO_STAT_ASSERTED n, 1), (Reg.STK_SO_STAT_TESTDRV n, b2n td), (Reg.STK_SO_STAT_FIRST n, first),
    (Reg.STK_SO_STAT_LATCHED n, 0), (Reg.STK_SO_TSTART_LO_TS_LO n, s.ltc), (Reg.STK_SO_TSTART_HI_TS_HI n, s.ltc / 2 ^ 32)]
  let s2 := (s1.incW (Reg.STK_SO_CNT_ASSERTS n)).setSo n { s1.so n with start := s.ltc, resetMem := false, drive := 1, gap := false, edge := s.ltc, rose := s1.on (Reg.STK_SO_STAT_FB n), noRise := false }
  velTermNow (s2.log Ev.STK_ASSERT n [.w first, .w (b2n td)]) 8 n

/-- A release: the drive ends with the half period in progress (R271). -/
def releaseSo (s : State) (n : Nat) : State :=
  let s1 := s.setFs [(Reg.STK_SO_STAT_ASSERTED n, 0), (Reg.STK_SO_STAT_TESTDRV n, 0), (Reg.STK_SO_STAT_LATCHED n, 0)]
  s1.setSo n { s1.so n with resetMem := false, released := s.ltc, noRise := false }

/-- A release with its cause (STK_RELEASE): 0 PRE/TMIN, 1 reset, 2 current gone. -/
def releaseFor (s : State) (n cause : Nat) : State := (releaseSo s n).log Ev.STK_RELEASE n [.w (Config.causeCode 0x141 cause)]

/-- TMIN has elapsed. -/
def tminOver (s : State) (n : Nat) : Bool := (s.so n).start + s.f (Reg.STK_SO_TMIN_TMIN n) * 1000000 ≤ s.ltc

/-- The feedback has been low for 1 ms (R263). -/
def currentGone (s : State) (n : Nat) : Bool := !s.on (Reg.STK_SO_STAT_FB n) && decide ((s.so n).fbSince + 1000000 ≤ s.ltc)

def cgOver (s : State) (n : Nat) : Bool := (s.so n).start + s.f (Reg.STK_SO_TMIN_CGMAX n) * 1000000 ≤ s.ltc

/-- The seal-in of an asserted output whose PRE is 0 (R262, R263). -/
def sealCheck (s : State) (n : Nat) : State :=
  if s.asserted n && !s.on (Reg.STK_SO_STAT_PRE n) then
    if !s.soEnabled n then releaseFor s n 0
    else if tminOver s n then
      let l := s.f (Reg.STK_SO_CFG_LATCH n)
      if l = 1 then (if (s.so n).resetMem then releaseFor s n 1 else s.setB (Reg.STK_SO_STAT_LATCHED n) true)
      else if l = 2 then
        if currentGone s n then releaseFor s n 2
        else if cgOver s n then ((releaseFor s n 2).incS (Reg.STK_SO_CNT_CGTO n)).log Ev.STK_CG_TIMEOUT n
        else s.setB (Reg.STK_SO_STAT_LATCHED n) true
      else releaseFor s n 0
    else s
  else if s.asserted n then s.setB (Reg.STK_SO_STAT_LATCHED n) false
  else s

/-- One output against the vector (R262, R267). -/
def evalSo (s : State) (n : Nat) : State :=
  let pre := soPre s n
  let rises := pre && !s.on (Reg.STK_SO_STAT_PRE n)
  let s1 := s.setFs [(Reg.STK_SO_STAT_PRE n, b2n pre), (Reg.STK_SO_STAT_ARM n, b2n (soArm s n)), (Reg.STK_SO_STAT_SUP n, b2n (soSup s n)),
    (Reg.STK_SO_STAT_TPULSE n, b2n (s.so n).pulse.isSome)]
  if rises && !s1.asserted n then assertSo s1 n else sealCheck s1 n

/-! ### Publication (R279 to R281) -/

/-- The value of a source (R279). -/
def pubSrc (s : State) (src : Nat) : Bool :=
  if src < 512 then s.stk.vec.testBit src
  else if src < 528 then s.asserted (src - 512)
  else if src < 544 then s.on (Reg.STK_SO_STAT_PRE (src - 528))
  else if src < 560 then s.rd Reg.STK_FLT / 2 ^ (src - 544) % 2 = 1 || s.rd Reg.STK_FLT / 2 ^ (src - 544 + 16) % 2 = 1
  else false

/-- The slots of a publication or link with their sources: PSsss of its members of KIND 0, or the 16 bits of a link. -/
def pubSlots (s : State) (i : Nat) : List (Nat × Nat) :=
  if i < 32 then
    if s.on (Reg.STN_GP_CFG_EN i) then
      ((List.range (s.f (Reg.STN_GP_CFG_NMEMB i))).filter (fun m => s.f (Reg.STN_GP_MEM_KIND i m) = 0)).map (fun m =>
        let k := s.f (Reg.STN_GP_MEM_INDEX i m)
        (k, s.f (Reg.STK_PS_SRC k)))
    else []
  else if s.on (Reg.DUC_DL_CFG_EN (i - 32)) then (List.range 16).map (fun b => (b, s.f (Reg.STK_DLTX_SRC (16 * (i - 32) + b))))
  else []

/-- The request carries the TEST mark (R276). -/
def pubTest (s : State) (i : Nat) : Bool :=
  (pubSlots s i).any (fun p =>
    (512 ≤ p.2 && p.2 < 528 && s.asserted (p.2 - 512) && s.on (Reg.STK_SO_STAT_TESTDRV (p.2 - 512))) ||
    (p.2 < 512 && s.stk.vec.testBit p.2 && s.stk.marks.testBit p.2))

/-- A changed source enters the pending image, or waits behind a value not yet sent: a stretch, counted once (R280). What has waited goes
out in a request of its own even where the source has returned meanwhile. -/
def pubSlot (i : Nat) (s : State) (p : Nat × Nat) : State :=
  let v := pubSrc s p.2
  let x := s.stk.pub.get i
  let put := fun (t : State) (y : PubImg) => t.setStk { t.stk with pub := t.stk.pub.set i y }
  if x.img.testBit p.1 = v || x.held.testBit p.1 then s
  else if x.dirty.testBit p.1 then
    put (s.incS Reg.STK_PUBCNT_PUB_STRETCH) { x with held := setBitOf x.held p.1 true, heldAt := s.dtcNs, heldTq := s.tq }
  else put s { x with img := setBitOf x.img p.1 v, dirty := setBitOf x.dirty p.1 true, at' := s.dtcNs, tq := s.tq }

def pubNote (s : State) (i : Nat) : State := (pubSlots s i).foldl (pubSlot i) s

/-- Every publication and link looks at its sources. -/
def pubAll (s : State) : State := (List.range 36).foldl pubNote s

/-- Credits of a request queue (R21): 2 for a publication, 4 for a link. -/
def pubCredits (i : Nat) : Nat := if i < 32 then 2 else 4

/-- The image after a request: the changes held back are in it, with the time of their decision (R280, R356). -/
def PubImg.sent (x : PubImg) : PubImg :=
  { x with img := x.img ^^^ x.held, dirty := x.held, held := 0, at' := if x.held = 0 then x.at' else x.heldAt, tq := if x.held = 0 then x.tq else x.heldTq }

/-- PUBLICATION_REQUEST (R280, R281): the pending image goes out as its queue holds a credit; values held back follow. GOOSE requests go
out in IN_SERVICE and TEST alone (R352); links send in every state that they run in (R336). -/
def publicationRequest (s : State) (i : Nat) : State :=
  let x := s.stk.pub.get i
  let q := s.stk.pubOut.get i
  if x.dirty ≠ 0 && decide (q.length < pubCredits i) && (s.running || decide (32 ≤ i)) then
    let r : PubReq := ⟨x.img, pubTest s i, x.at', x.tq, s.ltc⟩
    let s1 := s.setStk { s.stk with pub := s.stk.pub.set i x.sent, pubOut := s.stk.pubOut.set i (q ++ [r]) }
    pubNote s1 i
  else s

/-! ### Updates (R266 to R268) -/

/-- All outputs against the vector. -/
def evalSos (s : State) : State := (List.range 16).foldl evalSo s

/-- All outputs against the vector, then the images. -/
def evalAll (s : State) : State := pubAll (evalSos s)

/-- A reset reaches an output (R263): accepted by an asserted one whose LATCH is 1. Sources: 0 STK_RESET, 1 the Quill bit. -/
def latchReset (src : Nat) (s : State) (n : Nat) : State :=
  if s.asserted n && s.f (Reg.STK_SO_CFG_LATCH n) = 1 then
    sealCheck ((s.setSo n { s.so n with resetMem := true }).log Ev.STK_LATCH_RESET n [.w (Config.causeCode 0x146 src)]) n
  else s

/-- A committed epoch takes effect at the update (R266): outputs, transmit and publish sources. -/
def strokeCommit (s : State) : State := takeCommit s 0xC1000 0x2000

/-- The Quill bits that reset latches and rose against the vector `old` (R263). -/
def quillResets (old : Nat) (s : State) : State :=
  (List.range 16).foldl (fun t n =>
    let i := 256 + t.f (Reg.STK_SO_CFG_RSTIDX n)
    if t.on (Reg.STK_SO_CFG_RSTEN n) && t.stk.vec.testBit i && !old.testBit i then latchReset 1 t n else t) s

/-- One update (R267): vector, outputs, resets by Quill bits, images. -/
def applyUpdate (s : State) (l : List (Nat × Bool × Bool)) : State :=
  let s0 := strokeCommit s
  let s1 := (s0.setStk (l.foldl vecBit s0.stk)).incW Reg.STK_UPD_UPD
  pubAll (quillResets s0.stk.vec (evalSos s1))

/-- What a decision flit brings (R258): the OP bits, TEST-marked where the entry is. -/
def flitBits (ds : List Decision) : List (Nat × Bool × Bool) := ds.map (fun d => (d.ctx, d.word.testBit 1, d.test))

/-- The source has an update waiting. -/
def srcWaits (s : State) (src : Nat) : Bool :=
  if src < 16 then s.nib.toStroke.any (fun p => p.1 = src)
  else if src = 16 then s.stk.logicQ ≠ [] else s.stk.dlQ.get (src - 17) ≠ []

/-- No update has waited longer than 10 us (R532). -/
def strokeMoves (s : State) : Bool :=
  (List.range 21).all (fun k => !srcWaits s k || (match s.stk.sentAt.get k with | t :: _ => decide (s.ltc ≤ t + 10000) | [] => true))

/-- The source served next, round-robin over the 21 (R268). -/
def strokeNext (s : State) : Option Nat := ((List.range 21).map (fun d => (s.stk.turn + d) % 21)).find? (srcWaits s)

/-- The update of a source leaves its queue and is applied. Vellum sees every decision flit as it arrives (R379). -/
def serveSource (s : State) (src : Nat) : State :=
  if src < 16 then
    match s.nib.toStroke.find? (fun p => p.1 = src) with
    | some p =>
      let s1 := applyUpdate { s with nib := { s.nib with toStroke := s.nib.toStroke.erase p } } (flitBits p.2)
      p.2.foldl (fun t d =>
        let u := if d.rise.testBit 0 then velTerm t 1 d.ctx d.ns d.stamp else t
        if d.rise.testBit 1 then velTerm u 2 d.ctx d.ns d.stamp else u) s1
    | none => s
  else if src = 16 then
    match s.stk.logicQ with
    | l :: t => applyUpdate (s.setStk { s.stk with logicQ := t }) l
    | [] => s
  else
    match s.stk.dlQ.get (src - 17) with
    | c :: t => applyUpdate (s.setStk { s.stk with dlQ := s.stk.dlQ.set (src - 17) t }) ((List.range 16).map (fun b => (448 + 16 * (src - 17) + b, c.testBit b, false)))
    | [] => s

/-- STROKE_UPDATE (R267, R268): the next update of a source whose turn it is. -/
def strokeUpdate (s : State) (src : Nat) : State :=
  if strokeNext s = some src then
    serveSource (s.setStk { s.stk with turn := (src + 1) % 21, updAt := some s.ltc, sentAt := s.stk.sentAt.upd src (fun l => l.drop 1) }) src
  else s

/-! ### Time-driven releases (R267) -/

/-- After a release decided on time the images follow. -/
def sealThen (s : State) (n : Nat) : State := pubAll (sealCheck s n)

/-- STK_TMIN_END (R262, R263). -/
def tminEnd (s : State) (n : Nat) : State := if tminOver s n then sealThen s n else s

/-- STK_CURRENT_GONE (R263). -/
def currentGoneEnd (s : State) (n : Nat) : State :=
  if s.f (Reg.STK_SO_CFG_LATCH n) = 2 && currentGone s n then sealThen s n else s

/-- STK_CG_TIMEOUT (R263). -/
def cgTimeout (s : State) (n : Nat) : State := if s.f (Reg.STK_SO_CFG_LATCH n) = 2 && cgOver s n then sealThen s n else s

/-- A write of STK_RESET (R263). -/
def stkResetWrite (s : State) (v : Nat) : State := pubAll ((bitsOf 16 v).foldl (latchReset 0) s)

/-- A fall of MSC (R264), carrying the new SYS_STATE. -/
def mscFall (s : State) (new : Nat) : State :=
  let mask := maskOf ((List.range 16).filter s.asserted)
  let s1 := (List.range 16).foldl (fun t n =>
    let u := if t.asserted n then releaseSo t n else t
    (u.setSo n { u.so n with pulse := none, resetMem := false }).setFs [(Reg.STK_SO_STAT_PRE n, 0), (Reg.STK_SO_STAT_TPULSE n, 0)]) s
  pubAll (s1.log Ev.STK_STATE_RELEASE noInst [.w mask, .w new])

/-! ### Drive and feedback (R270 to R274) -/

/-- DRIVE_HALF_PERIOD_END (R270, R271): 2.000 us after the half period began its pin falls, and both are low; the command ends the gap
too, from 20 ns on, and the other pin rises. After a release both stay low. -/
def driveHalf (s : State) (n : Nat) : State :=
  let x := s.so n
  if x.drive = 0 then s
  else if x.gap then
    if s.ltc < x.edge + 20 then s
    else s.setSo n { x with drive := if s.asserted n then x.drive else 0, gap := false }
  else if s.ltc < x.edge + 2000 then s
  else s.setSo n { x with drive := if s.asserted n then 3 - x.drive else 0, gap := s.asserted n, edge := x.edge + 2000 }

/-- The level of SOnnP (pin 1) or SOnnN (pin 2). -/
def soPin (s : State) (n pin : Nat) : Bool := (s.so n).drive = pin && !(s.so n).gap

/-- FEEDBACK_LEVEL_COUNT (R273): a level that has been stable for 1 us counts; in RESET the input is ignored (R522). -/
def feedbackLevel (s : State) (n : Nat) (level : Bool) : State :=
  if s.sysState = 0 then s else
  let x := s.so n
  let x1 := if s.on (Reg.STK_SO_STAT_FB n) = level then x else { x with fbSince := s.ltc - 1000 }
  (s.setSo n { x1 with rose := x1.rose || (level && s.asserted n), noRise := x1.noRise && !level, atRest := x1.atRest && level }).setB
    (Reg.STK_SO_STAT_FB n) level

/-- A feedback fault (R274): sticky bit, counted and logged once for each episode. -/
def feedbackFault (s : State) (n : Nat) (bit : Nat) (first : Bool) (e : Event) : State :=
  let s1 := s.wr Reg.STK_FLT (setBitOf (s.rd Reg.STK_FLT) bit true)
  let s2 := if first then (s1.incS (Reg.STK_SO_CNT_FB_FLT n)).log e n else s1
  pubAll s2

/-- STK_FB_NORISE (R273): no counted high within 200 us of the first edge. -/
def fbNoRise (s : State) (n : Nat) : State :=
  let x := s.so n
  if s.on (Reg.STK_SO_CFG_FBEN n) && s.asserted n && !x.rose && decide (x.start + 200000 ≤ s.ltc) then
    feedbackFault (s.setSo n { x with noRise := true }) n n (!x.noRise) Ev.STK_FB_NORISE
  else s

/-- STK_FB_REST (R273): high for 200 us at rest, from 200 us after a release. -/
def fbRest (s : State) (n : Nat) : State :=
  let x := s.so n
  if s.on (Reg.STK_SO_CFG_FBEN n) && !s.asserted n && s.on (Reg.STK_SO_STAT_FB n) &&
      decide (max x.fbSince (if x.released = 0 then 0 else x.released + 200000) + 200000 ≤ s.ltc) then
    feedbackFault (s.setSo n { x with atRest := true }) n (16 + n) (!x.atRest) Ev.STK_FB_REST
  else s

/-! ### Test pulses (R277, R278) -/

/-- STK_TEST, its checks in order. -/
def stkTestBody (n : Nat) (s : State) (c : Cmd) : CmdOut :=
  let mask := c.arg 0 2
  let width := c.arg 2 2
  let outs := bitsOf 16 mask
  if s.level n ≠ 0 then refuse s stPRIV
  else if mask = 0 || width < 2 || 2000 < width || !c.zero 4 32 || outs.any (fun k => !s.on (Reg.STK_SO_CFG_EN k)) then refuse s stARG
  else if s.sysState ≠ 4 || outs.any (fun k => (s.so k).pulse.isSome || !soArm s k || !soSup s k) then refuse s stSTATE
  else
    let s1 := outs.foldl (fun t k => (t.setSo k { t.so k with pulse := some (s.ltc + width * 1000000) }).log Ev.STK_TEST_PULSE k [.w width]) s
    okay (evalAll s1)

/-- TEST_PULSE_END (R278). -/
def testPulseEnd (s : State) (n : Nat) : State :=
  match (s.so n).pulse with
  | some t => if t ≤ s.ltc then evalAll (s.setSo n { s.so n with pulse := none }) else s
  | none => s

/-- The module leaves TEST: test pulses end (R278). -/
def pulsesEnd (s : State) : State :=
  if (List.range 16).any (fun n => (s.so n).pulse.isSome) then
    evalAll ((List.range 16).foldl (fun t n => if (t.so n).pulse.isSome then t.setSo n { t.so n with pulse := none } else t) s)
  else s

/-- After a start every output begins at rest (R265). -/
def strokeStart (s : State) : State :=
  let s1 := s.setStk { (default : Stk) with so := [] }
  (List.range 16).foldl (fun t n => (t.wr (Reg.STK_SO_STAT n) (s.rd (Reg.STK_SO_STAT n) % 64 / 32 * 32)).wr (Reg.STK_SO_CNT n) 0) s1

/-! ### Meanings -/

def execStrokeUpdate (src : Fin 21) (s : State) : Host.Outcome State Fault Refusal := .next (strokeUpdate s src)

def execStkTminEnd (n : Fin 16) (s : State) : Host.Outcome State Fault Refusal := .next (tminEnd s n)

def execStkCurrentGone (n : Fin 16) (s : State) : Host.Outcome State Fault Refusal := .next (currentGoneEnd s n)

def execStkCgTimeout (n : Fin 16) (s : State) : Host.Outcome State Fault Refusal := .next (cgTimeout s n)

def execStkReset (a : Access) (v : Word) (s : State) : Host.Outcome State Fault Refusal :=
  .next (gate s a Reg.STK_RESET false (fun t => stkResetWrite t v.toNat))

def execFeedbackLevelCount (n : Fin 16) (level : Bool) (s : State) : Host.Outcome State Fault Refusal := .next (feedbackLevel s n level)

def execStkFbNorise (n : Fin 16) (s : State) : Host.Outcome State Fault Refusal := .next (fbNoRise s n)

def execStkFbRest (n : Fin 16) (s : State) : Host.Outcome State Fault Refusal := .next (fbRest s n)

def execStkTest (sess : Fin 16) (s : State) : Host.Outcome State Fault Refusal := .next (runCmd s sess 0x22 (stkTestBody sess))

def execTestPulseEnd (n : Fin 16) (s : State) : Host.Outcome State Fault Refusal := .next (testPulseEnd s n)

def execPublicationRequest (i : Fin 36) (s : State) : Host.Outcome State Fault Refusal := .next (publicationRequest s i)

def execDriveHalfPeriodEnd (n : Fin 16) (s : State) : Host.Outcome State Fault Refusal := .next (driveHalf s n)

end Sys2Proof.Machine
end

