-- ==== Sys2Proof/Machine/Sv.lean ====
section
/-! DEFINITION. Sampled-value decode (spec/04 R131 to R142, R546): the checks of a frame, sample numbers and instants,
missing samples, stream states, quality bytes. -/

namespace Sys2Proof.Machine

/-! ### A context's rate (PBI_SCnnn_CFG) -/

/-- Samples per second by the RATE code. -/
def svRate (s : State) (c : Nat) : Nat := [4000, 4800, 12800, 14400, 15360, 96000].getD (s.f (Reg.PBI_SC_CFG_RATE c)) 4000

/-- One sample period in 1/1,152,000 s. -/
def svStep (s : State) (c : Nat) : Nat := 1152000 / svRate s c

/-- The wrap value of the sample number (R134). -/
def svWrap (s : State) (c : Nat) : Nat := if svRate s c = 96000 then 48000 else svRate s c

def svState (s : State) (c : Nat) : Nat := s.f (Reg.PBI_SC_STAT_STATE c)

/-- smpRate agrees with the context's rate under smpMod (R546). -/
def smpAgrees (rate : Nat) (a : Asdu) : Bool :=
  match a.smpRate, a.smpMod with
  | none, none => true
  | none, some _ => false
  | some r, m =>
    match m.getD 0 with
    | 0 => r * 50 = rate || r * 60 = rate
    | 1 => rate ≠ 96000 && r = rate
    | _ => false

/-! ### Checks of a matched frame (R132) -/

def svFrameOk (s : State) (c : Nat) (p : SvPdu) : Bool :=
  let id := (p.asdus.head?.map (·.svId)).getD []
  p.noAsdu = s.f (Reg.PBI_SC_CFG_NASDU c) && p.noAsdu ≤ 8 && p.asdus.length = p.noAsdu &&
  !(p.sim && !s.on (Reg.PBI_SC_CFG_SIM c)) &&
  p.asdus.all (fun a => a.svId = id && a.data.length = s.f (Reg.PBI_SC_CFG_NCHAN c) && a.confRev = s.rd (Reg.PBI_SC_CONFREV c) &&
    smpAgrees (svRate s c) a && decide (a.smpCnt < svWrap s c))

/-! ### Quality (R141) -/

/-- Contribution of an IEC 61850 quality value. -/
def qualOf61850 (q : Nat) : Nat :=
  let v := q % 4
  let b := fun i => q.testBit i
  b2n (v = 1 || v = 2 || b 6) + 2 * b2n (v = 3 || b 4 || b 5 || b 7 || b 8 || b 9 || b 12 || decide (2 ^ 14 ≤ q)) +
    4 * b2n (b 10) + 16 * b2n (b 2 || b 3) + 64 * b2n (b 11)

/-- A channel of an ASDU, before the stream's own contributions. -/
def svQual (sim : Bool) (synch : Nat) (q : Word) : Nat :=
  qualOf61850 q.toNat ||| (if synch = 0 then 8 else 0) ||| (if sim then 64 else 0)

/-! ### Sample sets leaving a context -/

/-- A sample on its way into a stream context: number, set as received, whether its source reported no synchronism. -/
structure Smp where
  n : Nat
  set : SampleSet
  unsync : Bool

/-- A set leaves the context in order of instant (R135); its credits are SAMPLE_SET_COMPLETE's. -/
def svPutSet (s : State) (c : Nat) (z : SampleSet) : State :=
  let x := s.sc c
  s.setSc c { x with out := x.out ++ [z], lastOut := z.instant }

def svPut (s : State) (c : Nat) (inst : Instant) (vals : List Int) (quals : List Nat) : State :=
  svPutSet s c ⟨inst, vals, quals, s.stampAt inst, s.rul.clk.epoch, false, 0, 0⟩

/-- Values held, 0 before a good one came. -/
def svHeld (s : State) (c : Nat) : List Int × List Nat :=
  let n := s.f (Reg.PBI_SC_CFG_NCHAN c)
  let x := s.sc c
  if x.vals = [] then (List.replicate n 0, List.replicate n 0) else (x.vals, x.quals)

/-- One set of the last good values with more quality bits. -/
def svHold (s : State) (c : Nat) (inst : Instant) (q : Nat) : State :=
  let h := svHeld s c
  svPut s c inst h.1 (h.2.map (fun b => b ||| q))

/-- INVALID while the stream is not VALID (R137). -/
def svInv (s : State) (c : Nat) : Nat := if svState s c = 2 then 0 else 1

/-- WAITING is entered (R137, R139, R142): the grid counts from now. -/
def svWaiting (s : State) (c : Nat) : State :=
  let x := s.sc c
  let s1 := s.setSc c { x with last := none, ltcR := s.ltc, produced := 0, lastOut := (s.rul.clk.dtc * 1152000 / ((uPerNs : Int) * 1000000000)).toNat,
                               vals := [], quals := [] }
  s1.setFs [(Reg.PBI_SC_STAT_STATE c, 1), (Reg.PBI_SC_STAT_GOOD_RUN c, 0)]

/-- The stream goes INVALID at the third member of a run of missing samples (R137). -/
def svInvalid (s : State) (c : Nat) : State :=
  if svState s c = 3 then s
  else ((s.setF (Reg.PBI_SC_STAT_STATE c) 3).incW (Reg.PBI_SC_CNT0_INV_EP c)).log Ev.SV_INVALID c

/-- The next member of a run of missing samples is produced at an instant (R136). -/
def svMissing (s : State) (c : Nat) (inst : Instant) : State :=
  let x := s.sc c
  let s1 := (s.setSc c { x with produced := x.produced + 1 }).setF (Reg.PBI_SC_STAT_GOOD_RUN c) 0
  if x.produced < 2 then (svHold s1 c inst (4 ||| svInv s1 c)).incW (Reg.PBI_SC_CNT0_SUBST c)
  else svHold (svInvalid s1 c) c inst 1

/-- `n` missing samples produced on the arrival of a later one, the first at `inst` (R136): the third and later members of the
run collapse into one set. -/
def svMissingRun (c step : Nat) : Nat → Instant → State → State
  | 0, _, s => s
  | n + 1, inst, s =>
    if (s.sc c).produced < 2 then svMissingRun c step n (inst + step) (svMissing s c inst)
    else
      let s1 := svMissing s c (inst + n * step)
      s1.setSc c { s1.sc c with produced := (s1.sc c).produced + n }

/-- The instant of sample number `n` received at a DTC in ns (R35, R134): the one nearest, a tie to the earlier. -/
def svInstant (wrap step dtcNs n : Nat) : Instant :=
  let sec := dtcNs / 1000000000
  let secs := (if sec = 0 then [] else [sec - 1]) ++ [sec, sec + 1]
  let cands := (secs.map (fun t => if wrap = 48000 && step = 12 then [t * 1152000 + n * step, t * 1152000 + (n + 48000) * step]
                                   else [t * 1152000 + n * step])).flatten
  let dist := fun (i : Nat) => ((i : Int) * 1000000000 - (dtcNs : Int) * 1152000).natAbs
  match cands with
  | [] => 0
  | a :: r => r.foldl (fun b i => if dist i < dist b then i else b) a

/-- A good sample is completed (R135, R137). -/
def svComplete (s : State) (c : Nat) (m : Smp) : State :=
  let run := s.f (Reg.PBI_SC_STAT_GOOD_RUN c) + 1
  let s1 :=
    if svState s c = 2 then s
    else if run = 4 then (s.setFs [(Reg.PBI_SC_STAT_STATE c, 2), (Reg.PBI_SC_STAT_GOOD_RUN c, 0)]).log Ev.SV_VALID c
    else s.setF (Reg.PBI_SC_STAT_GOOD_RUN c) run
  let s2 := s1.setFs [(Reg.PBI_SC_STAT_UNSYNC c, b2n m.unsync), (Reg.PBI_SC_STAT_TEST c, b2n (m.set.quals.any (fun q => q.testBit 6))),
    (Reg.PBI_SC_STAT_SMPCNT c, m.n)]
  let s3 := svPutSet s2 c { m.set with quals := m.set.quals.map (fun q => q ||| svInv s2 c) }
  s3.setSc c { s3.sc c with last := some (m.n, m.set.instant), ltcR := s.ltc, produced := 0, vals := m.set.vals, quals := m.set.quals }

/-- A sample against the expected number (R135, R139); `late` counts one that comes after its place has been filled. A context in
WAITING that has produced no set takes one at or before its entry for such a one (DESIGN CHOICE, log entry 63). -/
def svSample (c : Nat) (late : State → State) (s : State) (m : Smp) : State :=
  let step := svStep s c
  let wrap := svWrap s c
  let inst := m.set.instant
  let x := s.sc c
  match x.last with
  | none =>
    if inst ≤ x.lastOut then late s
    else svComplete (if x.lastOut < inst - step then svHold s c (inst - step) 1 else s) c m
  | some (n, i0) =>
    let d := (m.n + 2 * wrap - (n + 1 + x.produced) % wrap) % wrap
    if d = 0 then svComplete s c m
    else if 2 * d < wrap then svComplete (svMissingRun c step d (i0 + (x.produced + 1) * step) s) c m
    else late s

/-- An ASDU after its place has been filled (R135, R139). -/
def svLate (c port : Nat) (s : State) : State := (s.incW (Reg.PBI_SC_CNT1_LATE c)).portRule port

/-- One ASDU of a received frame. -/
def svAsdu (c : Nat) (r : SvRx) (s : State) (a : Asdu) : State :=
  let inst := svInstant (svWrap s c) (svStep s c) r.dtcNs a.smpCnt
  let quals := a.data.map (fun d => svQual r.pdu.sim a.smpSynch d.2)
  svSample c (svLate c r.port) s ⟨a.smpCnt, ⟨inst, a.data.map (·.1), quals, s.stampAt inst, s.rul.clk.epoch, false, 0, 0⟩, a.smpSynch = 0⟩

/-- The decoder stalls for a stream whose 16 slots are occupied (R25). -/
def svStalled (s : State) (c : Nat) : Bool := decide (16 ≤ (s.sc c).slots.length)

/-- A committed epoch reaches a stream context between frames (R440); EN set enters WAITING, EN clear DISABLED. -/
def svCommit (s : State) (c : Nat) : State :=
  let was := s.on (Reg.PBI_SC_CFG_EN c)
  let s1 := takeCommit s (Reg.PBI_SC_CFG c) 0x40
  if s1.on (Reg.PBI_SC_CFG_EN c) then (if was then s1 else svWaiting s1 c)
  else if was then s1.setF (Reg.PBI_SC_STAT_STATE c) 0 else s1

/-- The mode change that the next received frame brings (R46, R142). -/
def svTakeMode (s : State) (c : Nat) : State :=
  match modePending s 1 c with
  | some ha =>
    let back := s.on (Reg.PBI_SC_CFG_HA c) && !ha
    let s1 := s.setB (Reg.PBI_SC_CFG_HA c) ha
    modeTaken (if back then svWaiting s1 c else s1) 1 c
  | none => s

/-- Space in the ingress buffer given back (R23). -/
def freeIngress (s : State) (p len : Nat) : State := s.setPort p { s.port p with inUsed := (s.port p).inUsed - len }

/-- SV_DECODE (R131 to R137): the oldest classified frame whose stream does not stall. A frame taken in before its context became
host-assisted is decoded; one whose context is DISABLED by now matches none (R20). -/
def svDecode (s : State) : State :=
  match s.pbi.svq.find? (fun r => !svStalled s r.sc) with
  | some r =>
    let c := r.sc
    let s0 := freeIngress { s with pbi := { s.pbi with svq := s.pbi.svq.erase r, decoded := s.pbi.decoded + 1 } } r.port r.len
    let s1 :=
      if svState s0 c = 0 then s0.portCnt r.port 3 3
      else if svFrameOk s0 c r.pdu then r.pdu.asdus.foldl (svAsdu c r) (s0.setSc c { s0.sc c with format := false })
      else
        let t := (s0.incW (Reg.PBI_SC_CNT1_RULE c)).portRule r.port
        if (t.sc c).format then t else (t.setSc c { t.sc c with format := true }).log Ev.SV_FORMAT c
    svCommit s1 c
  | none => s

/-- SV_MISSING_DEADLINE (R136): sample k after the last received one falls due at LTC_r + k/rate + LATE_LIM. -/
def svMissingDeadline (s : State) (c : Nat) : State :=
  let x := s.sc c
  match x.last with
  | some (_, i0) =>
    let k := x.produced + 1
    if svState s c ≠ 0 && decide (k * 1000000000 + (x.ltcR + s.f (Reg.PBI_SC_CFG_LATE_LIM c) * 1000) * svRate s c ≤ s.ltc * svRate s c) then
      svMissing s c (i0 + k * svStep s c)
    else s
  | none => s

/-- The next instant of the grid that a waiting context produces (R139). A DTC step moves `lastOut` to the new time. -/
def svNextGrid (s : State) (c : Nat) : Instant := ((s.sc c).lastOut / svStep s c + 1) * svStep s c

/-- SV_WAITING_DEADLINE (R139). -/
def svWaitingDeadline (s : State) (c : Nat) : State :=
  let x := s.sc c
  let t := svNextGrid s c
  if svState s c = 1 && x.last = none && nsOfInstant t + s.f (Reg.PBI_SC_CFG_LATE_LIM c) * 1000 ≤ s.dtcNs then svHold s c t 1 else s

/-! ### Meanings -/

def execSvDecode (s : State) : Host.Outcome State Fault Refusal := .next (svDecode s)

def execSvMissingDeadline (sc : Fin 224) (s : State) : Host.Outcome State Fault Refusal := .next (svMissingDeadline s sc)

def execSvWaitingDeadline (sc : Fin 224) (s : State) : Host.Outcome State Fault Refusal := .next (svWaitingDeadline s sc)

end Sys2Proof.Machine
end

