-- ==== Sys2Proof/Machine/Goose.lean ====
section
/-! DEFINITION. GOOSE subscription (spec/04 R143 to R151): checks, numbers, supervision, qualities, the GOOSE bits of
Stroke, host-supplied images. -/

namespace Sys2Proof.Machine

namespace State

def gs (s : State) (g : Nat) : GsState := s.pbi.gs.get g

def setGs (s : State) (g : Nat) (x : GsState) : State := { s with pbi := { s.pbi with gs := s.pbi.gs.set g x } }

/-- Names, members and defaults of a subscription (R143, R144). -/
def gsDecl (s : State) (g : Nat) : GsDecl := s.pbi.gsDecls.getD g default

end State

def gsState (s : State) (g : Nat) : Nat := s.f (Reg.PBI_GS_STAT_STATE g)

/-! ### Stroke GOOSE bits (R149) -/

/-- The value of a bit and whether its member carries TEST. -/
def gbValue (s : State) (d : GbDecl) : Bool × Bool :=
  let img := (s.gs d.gs).cur
  let q := img.quals.getD d.member 1
  let v := img.vals.getD d.member 0
  let kind := ((s.gsDecl d.gs).members.getD d.member default).kind
  let test := q.testBit 6
  if q.testBit 0 || q.testBit 7 || (test && s.sysState ≠ 4) then (d.failv, false)
  else (if kind = 0 then v ≠ 0 else v.testBit d.bit, test)

/-- What Stroke is to hold of the GOOSE bits: values and TEST marks (R149, R275). -/
def gbFlits (s : State) : List (Nat × Bool × Bool) :=
  ((List.range s.pbi.gbits.length).zip s.pbi.gbits).map (fun p => let v := gbValue s p.2; (384 + p.1, v.1, v.2))

/-- The signal space passes every change to Stroke at once (R149); Vellum sees rising (4) and falling (5) bits (R379). -/
def gbUpdate (s : State) : State :=
  let l := gbFlits s
  l.foldl (fun t p =>
    let k := p.1 - 384
    if t.pbi.gb.testBit k = p.2.1 then t
    else velTermNow { t with pbi := { t.pbi with gb := setBitOf t.pbi.gb k p.2.1 } } (if p.2.1 then 4 else 5) k) (logicSend s l)

/-- The producer stalls: the queue is full, and what `t` holds has still to be sent (R19). -/
def gooseStalls (s t : State) : Bool := logicFull s && logicNew s (gbFlits t) ≠ []

/-! ### Messages -/

/-- Every member has its declared type and size, and no more are there (R143, R144). -/
def gsMembersOk (s : State) (g : Nat) (m : GooseMsg) : Bool :=
  let n := s.f (Reg.PBI_GS_CFG_NMEMB g)
  let d := (s.gsDecl g).members
  m.numEntries = n && m.members.length = n &&
    (List.range n).all (fun i =>
      let a := m.members.getD i ⟨0, 0, 0⟩
      let b := d.getD i default
      a.kind = b.kind && a.size = b.size)

def gsFrameOk (s : State) (g : Nat) (m : GooseMsg) : Bool :=
  m.confRev = s.rd (Reg.PBI_GS_CONFREV g) && gsMembersOk s g m && m.tal ≠ 0 && !(m.sim && !s.on (Reg.PBI_GS_CFG_SIM g))

/-- What its Quality member contributes to the quality byte of member i (R147). -/
def gsBase (s : State) (g : Nat) (m : GooseMsg) (i : Nat) : Nat :=
  match ((s.gsDecl g).members.getD i default).qualMember with
  | some k => qualOf61850 ((m.members.getD k ⟨0, 0, 0⟩).value.toNat)
  | none => 0

/-- What a message's flags contribute to every member's byte (R147): its test flag or simulation bit, and ndsCom. -/
def gsFlags (test nds : Bool) : Nat := (if test then 64 else 0) ||| (if nds then 1 else 0)

/-- Members with the flags of a message. -/
def GsImage.flagged (x : GsImage) (test nds : Bool) : GsImage := { x with quals := x.base.map (fun b => b ||| gsFlags test nds) }

def gsImage (s : State) (g : Nat) (m : GooseMsg) : GsImage :=
  (⟨m.members.map (fun x => x.value.toNat), [], (List.range m.members.length).map (gsBase s g m)⟩ : GsImage).flagged (m.test || m.sim) m.ndsCom

/-- The next number after `n` (R145): after 0xFFFFFFFF it is 1 in Edition 2.1 and 0 in Edition 1. -/
def gsNext (s : State) (g n : Nat) : Nat :=
  if n + 1 < 2 ^ 32 then n + 1 else if s.on (Reg.PBI_GS_CFG_EDITION g) then 1 else 0

/-- A message received at `ltc` is applied as a new state (R145, R146, R148): it becomes the one pending message. -/
def gsApply (s : State) (g : Nat) (img : GsImage) (tal : Nat) (test nds : Bool) (ltc : Nat) : State :=
  let x := s.gs g
  let s1 := if x.pend.isSome && x.pendMsg then s.incS (Reg.PBI_GS_CNT_REPLACED g) else s
  let s2 := if gsState s g = 3 then s1.log Ev.GOOSE_RESTORED g else s1
  let s3 := if nds && !s2.on (Reg.PBI_GS_STAT_NDSCOM g) then s2.log Ev.GOOSE_NDSCOM g else s2
  let s4 := s3.setFs [(Reg.PBI_GS_STAT_STATE g, 2), (Reg.PBI_GS_STAT_TEST g, b2n test), (Reg.PBI_GS_STAT_NDSCOM g, b2n nds)]
  gbUpdate (s4.setGs g { x with cur := img, pend := some img, pendMsg := true, lastLtc := ltc, tal := tal })

/-- A repetition received at `ltc` restarts supervision (R145, R146). Its values are not applied; its flags are in force, and where
they change the qualities, the members wait to be applied with them (R147, R148). -/
def gsRepeat (s : State) (g : Nat) (m : GooseMsg) (ltc : Nat) : State :=
  let x := s.gs g
  let img := x.cur.flagged (m.test || m.sim) m.ndsCom
  let y : GsState := { x with lastLtc := ltc, tal := m.tal }
  let s1 := if (gsImage s g m).vals = x.cur.vals then s else s.incS (Reg.PBI_GS_CNT_SQ_ERR g)
  let s2 := if m.ndsCom && !s1.on (Reg.PBI_GS_STAT_NDSCOM g) then s1.log Ev.GOOSE_NDSCOM g else s1
  let s3 := s2.setFs [(Reg.PBI_GS_STAT_TEST g, b2n (m.test || m.sim)), (Reg.PBI_GS_STAT_NDSCOM g, b2n m.ndsCom)]
  if img = x.cur then s3.setGs g y else gbUpdate (s3.setGs g { y with cur := img, pend := some img })

/-- An accepted message, received at `ltc`, against the last one's numbers (R145). -/
def gsAccept (s : State) (g : Nat) (m : GooseMsg) (ltc : Nat) : State :=
  let st := s.rd (Reg.PBI_GS_STNUM g)
  let sq := s.rd (Reg.PBI_GS_SQNUM g)
  let num := fun (t : State) => (t.wr (Reg.PBI_GS_SQNUM g) m.sqNum).wr (Reg.PBI_GS_STNUM g) m.stNum
  let new := fun (t : State) => num (gsApply t g (gsImage t g m) m.tal (m.test || m.sim) m.ndsCom ltc)
  if gsState s g = 1 || gsState s g = 3 then new s
  else if m.stNum = st then
    let d := (m.sqNum + 2 ^ 32 - sq) % 2 ^ 32
    if 0 < d && d < 2 ^ 31 then num (gsRepeat s g m ltc) else s.incS (Reg.PBI_GS_CNT_SQ_ERR g)
  else if m.stNum = gsNext s g st then new s
  else new ((s.incS (Reg.PBI_GS_CNT_STNUM_GAP g)).log Ev.GOOSE_STNUM_GAP g)

/-- A subscription enters WAITING: nothing received, members INVALID. -/
def gsWaiting (s : State) (g : Nat) : State :=
  let n := s.f (Reg.PBI_GS_CFG_NMEMB g)
  let img : GsImage := ⟨List.replicate n 0, List.replicate n 1, List.replicate n 1⟩
  gbUpdate ((s.setGs g { s.gs g with cur := img, app := img, pend := none, pendMsg := false }).setF (Reg.PBI_GS_STAT_STATE g) 1)

/-- A committed epoch reaches a subscription between frames (R440). One whose EN it clears goes to DISABLED, where its members and
GOOSE bits keep their last values, without supervision (DESIGN CHOICE, log entry 63). -/
def gsCommit (s : State) (g : Nat) : State :=
  let was := s.on (Reg.PBI_GS_CFG_EN g)
  let s1 := takeCommit s (Reg.PBI_GS_CFG g) 0x40
  if s1.on (Reg.PBI_GS_CFG_EN g) then (if was then s1 else gsWaiting s1 g)
  else if was then s1.setF (Reg.PBI_GS_STAT_STATE g) 0 else s1

/-- The mode change that the next received frame brings (R46). -/
def gsTakeMode (s : State) (g : Nat) : State :=
  match modePending s 2 g with
  | some ha => modeTaken (s.setB (Reg.PBI_GS_CFG_HA g) ha) 2 g
  | none => s

/-- A matched message is decoded. One taken in before its subscription became host-assisted is used; one whose subscription is
DISABLED by now matches none (R20). -/
def gooseTake (s : State) (r : GsRx) (rest : List GsRx) : State :=
    let g := r.gs
    let s0 := freeIngress { s with pbi := { s.pbi with gq := rest } } r.port r.len
    let s1 :=
      if gsState s0 g = 0 then s0.portCnt r.port 3 3
      else if gsFrameOk s0 g r.msg then gsAccept (s0.setB (Reg.PBI_GS_STAT_CONFIG_ERR g) false) g r.msg r.ltc
      else
        let t := (s0.incS (Reg.PBI_GS_CNT_RULE g)).portRule r.port
        let t1 := if r.msg.confRev = s.rd (Reg.PBI_GS_CONFREV g) then t else t.log Ev.GOOSE_CONFREV g
        if t1.on (Reg.PBI_GS_STAT_CONFIG_ERR g) then t1 else (t1.setB (Reg.PBI_GS_STAT_CONFIG_ERR g) true).log Ev.GOOSE_CONFIG g
    gsCommit s1 g

/-- GOOSE_DECODE (R143, R145): the oldest matched message; it waits while its change could not be sent to Stroke (R19). -/
def gooseDecode (s : State) : State :=
  match s.pbi.gq with
  | r :: rest =>
    let t := gooseTake s r rest
    if gooseStalls s t then s else t
  | [] => s

/-- GOOSE_STALE (R146): timeAllowedToLive has passed. -/
def gooseStale (s : State) (g : Nat) : State :=
  let x := s.gs g
  if gsState s g = 2 && decide (x.lastLtc + x.tal * 1000000 < s.ltc) then
    let d := (s.gsDecl g).members
    let vals := if s.on (Reg.PBI_GS_CFG_STALE_ACT g) then (List.range x.cur.vals.length).map (fun i => (d.getD i default).deflt.toNat) else x.cur.vals
    let img : GsImage := { x.cur with vals := vals, quals := x.cur.quals.map (fun q => q ||| 128) }
    gbUpdate (((s.setGs g { x with cur := img, pend := some img }).setF (Reg.PBI_GS_STAT_STATE g) 3).log Ev.GOOSE_STALE g)
  else s

/-! ### Host-supplied images (R151) -/

/-- The entry of a host-assisted subscription whose SEQ changed (R151, R472). -/
def hostEntryTaken (s : State) (g : Nat) : State :=
  let base := 0x48000 + g * 528
  let seq := s.inkNat base 4
  let x := s.gs g
  if s.on (Reg.PBI_GS_CFG_EN g) && s.on (Reg.PBI_GS_CFG_HA g) && s.running && seq ≠ x.hostSeq then
    let n := s.f (Reg.PBI_GS_CFG_NMEMB g)
    let s0 := s.setGs g { x with hostSeq := seq }
    let tal := s.inkNat (base + 4) 4
    let flags := s.inkNat (base + 8) 4
    let extra := (List.range 64).any (fun i => n ≤ i && (s.inkNat (base + 16 + 8 * i) 4 ≠ 0 || s.inkNat (base + 20 + 8 * i) 1 ≠ 0))
    if extra || tal = 0 || 65535 < tal then s0.incS (Reg.PBI_GS_CNT_RULE g)
    else
      let test := flags.testBit 0
      let nds := flags.testBit 1
      let img : GsImage := ⟨(List.range n).map (fun i => s.inkNat (base + 16 + 8 * i) 4), [],
        (List.range n).map (fun i => s.inkNat (base + 20 + 8 * i) 1)⟩
      gsApply s0 g (img.flagged test nds) tal test nds s.ltc
  else s

/-- GOOSE_HOST_ENTRY_TAKE (R151): it waits while its change could not be sent to Stroke (R19). -/
def gooseHostEntry (s : State) (g : Nat) : State :=
  let t := hostEntryTaken s g
  if gooseStalls s t then s else t

/-- Every pending message enters the global signal space, all members at once (R148). -/
def gsApplyPending (s : State) : State :=
  (List.range 64).foldl (fun t g =>
    match (t.gs g).pend with
    | some img => t.setGs g { t.gs g with app := img, pend := none, pendMsg := false }
    | none => t) s

/-! ### Meanings -/

def execGooseDecode (s : State) : Host.Outcome State Fault Refusal := .next (gooseDecode s)

def execGooseStale (gs : Fin 64) (s : State) : Host.Outcome State Fault Refusal := .next (gooseStale s gs)

def execGooseHostEntryTake (gs : Fin 64) (s : State) : Host.Outcome State Fault Refusal := .next (gooseHostEntry s gs)

end Sys2Proof.Machine
end

