-- ==== Sys2Proof/Machine/Ruling.lean ====
section
/-! DEFINITION. The Ruling unit (spec/02): the two copies and their servos, DTC with its steps and slews, time quality,
the domains' states, legacy inputs and the PPS output. Offsets and delays are in 2^-16 ns, frequencies in 2^-28 ppb. -/

namespace Sys2Proof.Machine

/-! ### Access -/

/-- Domain states of RUL_DOMx_STATE (R68). -/
def domDisabled : Nat := 0
def domListening : Nat := 1
def domTracking : Nat := 2
def domSuspect : Nat := 3
def domHoldover : Nat := 4

/-- 1 ns in 2^-16 ns. -/
def q16 : Int := 65536

/-- u in one 2^-16 ns. -/
def uPerQ16 : Nat := 4096000000000

namespace State

def dom (s : State) (d : Nat) : DomState := s.rul.dom.get d

def setDom (s : State) (d : Nat) (x : DomState) : State := { s with rul := { s.rul with dom := s.rul.dom.set d x } }

def setClk (s : State) (c : Clock) : State := { s with rul := { s.rul with clk := c } }

def ptpPort (s : State) (p : Nat) : PtpPort := s.rul.ptp.get p

def setPtpPort (s : State) (p : Nat) (x : PtpPort) : State := { s with rul := { s.rul with ptp := s.rul.ptp.set p x } }

def domSt (s : State) (d : Nat) : Nat := s.f (Reg.RUL_DOM_STATE_STATE d)

/-- The selected domain (RUL_TQ.SEL). -/
def sel (s : State) : Nat := s.f Reg.RUL_TQ_SEL

/-- A domain is usable (R70): TRACKING, lock flag set, without ASYM. -/
def usable (s : State) (d : Nat) : Bool :=
  s.domSt d = domTracking && s.on (Reg.RUL_DOM_STATE_LOCK d) && !s.on (Reg.RUL_DOM_STATE_ASYM d)

/-- The ports of a domain (R65): bit 0-23 PB, 24-27 SB. -/
def domPorts (s : State) (d : Nat) : Nat := s.rd (Reg.RUL_DOM_PORTS d) % 2 ^ 28

/-- Δ of DTC against a domain's copy (R69), in u. -/
def deltaTo (s : State) (d : Nat) : Int := s.rul.clk.dtc - (s.dom d).copy

/-- Δ: DTC minus the selected copy (R55). -/
def delta (s : State) : Int := s.deltaTo s.sel

end State

/-- The Sync interval in ns (R66): 2^logInt s of the last Sync, 1 s until the selected port has received one. -/
def DomState.interval (x : DomState) : Nat :=
  if x.gotSync then (if x.logInt ≤ 0 then 1000000000 / 2 ^ (-x.logInt).toNat else 1000000000) else 1000000000

/-- Largest |offset| of the last 16 Syncs. -/
def maxAbs (l : List Int) : Int := l.foldl (fun m o => max m (o.natAbs : Int)) 0

/-! ### Time quality (R55) -/

/-- The copy error estimate of a domain, in 2^-16 ns (table of R55; holdover by R81). The table has no row for SUSPECT: the row of
TRACKING stands for it (DESIGN CHOICE, log entry 51). A copy that is DISABLED or LISTENING has no estimate in the spec: a free
value (log entry 10). -/
def copyErr (s : State) (d : Nat) : Int :=
  let x := s.dom d
  let st := s.domSt d
  let legacyAlone := s.f (Reg.RUL_DOM_CFG_SOURCE d) = 2 && !s.on Reg.RUL_LEG_CFG_PPS_EN
  if st = domTracking || st = domSuspect then
    let e := maxAbs x.offs + (if s.on (Reg.RUL_DOM_CFG_PROFILE d) then (x.gmInacc : Int) * q16 else 0)
    if legacyAlone then max e (1000 * q16) else e
  else if st = domHoldover then
    match x.hold with
    | some h =>
      let dt : Int := (s.ltc - h.ltc : Nat)
      h.e0 + (if h.long then dt * 1000 * q16 / 60000000000 else dt * 500 * q16 / 1000000000)
    | none => Config.unstated 1 st d
  else Config.unstated 1 st d

/-- The TQ that R55 gives now. -/
def tqOf (s : State) : Nat :=
  let d := s.sel
  let absD : Int := s.delta.natAbs
  let legacyAlone := s.f (Reg.RUL_DOM_CFG_SOURCE d) = 2 && !s.on Reg.RUL_LEG_CFG_PPS_EN
  let e := absD / uPerQ16 + copyErr s d
  if s.rul.clk.dtcSet && s.domSt d = domTracking && s.on (Reg.RUL_DOM_STATE_LOCK d) && absD ≤ 100 * uPerNs && !legacyAlone then 0
  else if !s.rul.clk.dtcSet then 3
  else if e ≤ 1000 * q16 then 1
  else if e ≤ 50000 * q16 then 2
  else 3

/-- The stretch of TQ 3 that R74 asks about: since when, and whether the copy error passed 50 us in it. -/
def noteTq3 (s : State) : State :=
  let c := s.rul.clk
  if tqOf s = 3 then
    s.setClk { c with tq3 := some (c.tq3.getD c.ltc), tq3Err := c.tq3Err || decide (copyErr s s.sel > 50000 * q16) }
  else s.setClk { c with tq3 := none, tq3Err := false }

/-! ### Domain bookkeeping -/

/-- USABLE of a domain, and since when (R70). -/
def noteUsable (s : State) (d : Nat) : State :=
  let u := s.usable d
  let s1 := s.setB (Reg.RUL_DOM_STATE_USABLE d) u
  let x := s1.dom d
  s1.setDom d { x with usableSince := if u then some (x.usableSince.getD s.ltc) else none }

/-- A new frequency correction takes over; a spell in TRACKING enters the history of R81, newest first, 64 s long. -/
def trimHist : Nat → List (Nat × Int) → List (Nat × Int)
  | _, [] => []
  | left, (t, f) :: r => if t < left then (t, f) :: trimHist (left - t) r else if left = 0 then [] else [(left, f)]

def closeSpell (s : State) (d : Nat) : State :=
  let x := s.dom d
  if s.domSt d = domTracking then
    s.setDom d { x with hist := trimHist 64000000000 ((s.ltc - x.since, x.freq) :: x.hist), since := s.ltc }
  else s.setDom d { x with since := s.ltc }

/-- RUL_DOMx_FREQ shows the correction in 2^-10 ppb. -/
def showFreq (s : State) (d : Nat) : State := s.setF (Reg.RUL_DOM_FREQ_FREQ d) (tc 32 (ndiv (s.dom d).freq 262144))

def setFreq (s : State) (d : Nat) (f : Int) : State :=
  let s1 := closeSpell s d
  showFreq (s1.setDom d { s1.dom d with freq := f }) d

/-- The time-weighted average of R81; a copy that never tracked runs at its correction in force. -/
def holdFreq (x : DomState) : Int :=
  let t : Nat := (x.hist.map (·.1)).sum
  if t = 0 then x.freq else x.hist.foldl (fun a p => a + (p.1 : Int) * p.2) 0 / (t : Int)

def setDomSt (s : State) (d st : Nat) : State := s.setF (Reg.RUL_DOM_STATE_STATE d) st

/-- Entry into HOLDOVER (R68, R81): e0 is the estimate at entry. -/
def enterHoldover (s : State) (d : Nat) : State :=
  let e0 := copyErr s d
  let s1 := closeSpell s d
  let x := s1.dom d
  let long := s.on (Reg.RUL_DOM_STATE_LOCK d) && (match x.lockSince with | some t => decide (t + 3600000000000 ≤ s.ltc) | none => false)
  let s2 := setDomSt s1 d domHoldover
  let s3 := s2.setDom d { x with hold := some ⟨e0, s.ltc, long⟩, susp := none }
  noteUsable (setFreq s3 d (holdFreq x)) d

/-- Entry into TRACKING (R67, R68): S is set to -F in force; from HOLDOVER the lock flag is clear. -/
def enterTracking (s : State) (d : Nat) : State :=
  let x := s.dom d
  let fromHold := decide (s.domSt d = domHoldover)
  let s1 := (setDomSt s d domTracking).setDom d
    { x with integ := -x.freq, hold := none, susp := none, since := s.ltc,
             good := if fromHold then 0 else x.good, bad := if fromHold then 0 else x.bad,
             lockSince := if fromHold then none else x.lockSince }
  let s2 := if fromHold then s1.setB (Reg.RUL_DOM_STATE_LOCK d) false else s1
  noteUsable s2 d

/-- DTC ASYM: the selected domain carries ASYM (R56, R80). -/
def noteAsym (s : State) : State := s.setB Reg.RUL_TQ_ASYM (s.on (Reg.RUL_DOM_STATE_ASYM s.sel))

/-- SLEWING: Δ differs from 0 and is being slewed (R69, R72). -/
def noteSlew (s : State) : State := s.setB Reg.RUL_TQ_SLEWING (decide (s.delta ≠ 0) && s.rul.clk.hold.isNone)

/-! ### Steps of DTC (R72 to R75) -/

/-- The first 1/4,800 s boundary at least 5.21 us after a DTC, as a tick number of 1/96,000 s (R75). -/
def firstTickAfter (dtc : Int) : Nat :=
  let t := (dtc + 5210 * (uPerNs : Int)).toNat
  let den := uPerNs * 1000000000
  ((t * 4800 + den - 1) / den) * 20

/-- The whole second of a DTC in u. -/
def secondOf (dtc : Int) : Nat := (dtc / ((uPerNs : Int) * 1000000000)).toNat

/-- Vellum's open records and row grids keep their distance in time across a step of DTC by `d` ns (R380; DEDUCED, log entry 61). -/
def velShift (d : Int) (v : Vel) : Vel :=
  let go := fun (n : Nat) => ((n : Int) + d).toNat
  { v with recs := v.recs.map (fun r => if r.state = 0
             then { r with startNs := go r.startNs, endNs := go r.endNs, twFrom := go r.twFrom, twTo := go r.twTo } else r),
           prof := v.prof.map (fun p => (p.1, { p.2 with last := p.2.last.map (fun t => ((t : Int) + d * 1152000 / 1000000000).toNat) })) }

/-- The first instant a stream may produce after a DTC step, in 1/1,152,000 s: that of the first tick of the new grid (R75). -/
def firstInstant (firstTick : Nat) : Nat := 12 * firstTick

/-- A context in WAITING takes its deadlines from the grid of the new time, none of whose instants lies in the pause (R75, R139). -/
def ScState.rebase (x : ScState) (firstTick : Nat) : ScState :=
  if x.last = none then { x with lastOut := firstInstant firstTick - 1 } else x

/-- A step of DTC to the selected copy (R75). The next PPS_OUT rise is that of the next second of the new time (R85). -/
def dtcStep (s : State) (useGrant : Bool) : State :=
  let d := s.sel
  let before := s.stampNow
  let c := s.rul.clk
  let target := (s.dom d).copy
  let s1 := s.setClk { c with dtc := target, epoch := (c.epoch + 1) % 65536, dtcSet := true, hold := none, stepPend := false, bySwitch := false,
                              lastStep := some target, stepFrom := c.dtc, gridOff := true, tick := firstTickAfter target,
                              tqHist := (c.epoch, c.dtc, s.tq) :: c.tqHist, ppsSec := secondOf target }
  let s2 := if useGrant then
      (s1.setDom d { s1.dom d with grant := none }).setB (if d = 0 then Reg.RUL_TQ_GRANT_A else Reg.RUL_TQ_GRANT_B) false
    else s1
  let s3 := (({ s2 with vel := velShift ((target - c.dtc) / uPerNs) s2.vel }).setB Reg.RUL_TQ_STEP_HOLD false).setF Reg.RUL_EPOCH_EPOCH s2.rul.clk.epoch
  let s4 : State := { s3 with pbi := { s3.pbi with sc := s3.pbi.sc.map (fun e => (e.1, e.2.rebase (firstTickAfter target))) } }
  noteSlew (s4.log Ev.TIME_STEP noInst [.q before, .q s4.stampNow, .w s4.rul.clk.epoch])

/-- The free step of R74: DTC not set, or TQ 3 since before the lock with a copy error beyond 50 us. -/
def freeStep (s : State) : State :=
  let d := s.sel
  let c := s.rul.clk
  let locked := s.domSt d = domTracking && s.on (Reg.RUL_DOM_STATE_LOCK d)
  let old := match c.tq3, (s.dom d).lockSince with | some t, some l => decide (t < l) && c.tq3Err | _, _ => false
  if locked && (!c.dtcSet || old) then
    if s.delta = 0 then s.setClk { c with dtcSet := true, tq3 := none, tq3Err := false }
    else
      let s1 := dtcStep s false
      s1.setClk { s1.rul.clk with tq3 := none, tq3Err := false }
  else s

/-- |Δ| in ns exceeds 1 ms. -/
def deltaOverMs (s : State) : Bool := decide ((s.delta.natAbs : Int) > 1000000 * (uPerNs : Int))

/-- The hold of R72 ends without persisting. -/
def endHold (s : State) : State := noteSlew ((s.setClk { s.rul.clk with hold := none }).setB Reg.RUL_TQ_STEP_HOLD false)

/-- DTC begins to hold Δ for the next 8 Syncs that the selected domain uses (R72). -/
def startHold (s : State) : State :=
  noteSlew ((s.setClk { s.rul.clk with hold := some 8, stepPend := false, bySwitch := false }).setB Reg.RUL_TQ_STEP_HOLD true)

/-- A Δ beyond 1 ms that a switch created is in force: it is slewed, and a step of the copy meanwhile is part of it and starts no hold
(R69, R71; the last clause DEDUCED, log entry 51). -/
def switchDelta (s : State) : Bool := s.rul.clk.bySwitch && deltaOverMs s

def grantReg (d : Nat) : Fld := if d = 0 then Reg.RUL_TQ_GRANT_A else Reg.RUL_TQ_GRANT_B

/-- One used Sync of the selected domain seen by DTC (R72, R73). `stepped`: this Sync stepped the copy. R72 and R73 act on a DTC
that has not been set as on one that has, until R74 applies (DESIGN CHOICE, log entry 51). -/
def dtcSync (s : State) (stepped : Bool) : State :=
  let d := s.sel
  let c := s.rul.clk
  match c.hold with
  | some left =>
    if !deltaOverMs s then endHold s
    else if left ≤ 1 then
      let s1 := endHold s
      if s1.delta > 0 then
        if (s1.dom d).grant.isSome then dtcStep s1 true
        else
          let s2 := s1.setClk { s1.rul.clk with stepPend := true }
          noteSlew (s2.log Ev.STEP_PENDING d)
      else dtcStep s1 false
    else s.setClk { c with hold := some (left - 1) }
  | none =>
    if stepped && deltaOverMs s then startHold s
    else if c.stepPend && s.delta > 0 && deltaOverMs s then
      if (s.dom d).grant.isSome then dtcStep s true else s
    else s

/-! ### Domain selection (R70, R71) -/

/-- A switch of DTC to the other domain (R71). -/
def switchTo (s : State) (d : Nat) : State :=
  let diff : Int := (s.dom s.sel).copy - (s.dom d).copy
  let s1 := s.setF Reg.RUL_TQ_SEL d
  let s2 := (s1.setClk { s1.rul.clk with hold := none, stepPend := false, bySwitch := true }).setB Reg.RUL_TQ_STEP_HOLD false
  let s3 := s2.log Ev.DOMAIN_SWITCH d [.i (ssat 32 (ndiv diff uPerNs))]
  noteSlew (noteAsym (freeStep s3))

/-- The switch that happens at once (R70). -/
def autoSwitch (s : State) : State :=
  let d := s.sel
  if !s.usable d && s.usable (1 - d) then switchTo s (1 - d) else s

/-- After any change of the domains: usability, hold of R72, switch, the step of R74 as soon as it applies, flags, the stretch of
TQ 3. -/
def rulSettle (s : State) : State :=
  let s1 := noteUsable (noteUsable s 0) 1
  let st := s1.domSt s1.sel
  let s2 := if s1.rul.clk.hold.isSome && st ≠ domTracking && st ≠ domSuspect then endHold s1 else s1
  noteTq3 (noteSlew (noteAsym (freeStep (autoSwitch s2))))

/-- RUL_CTRL has been written (R59, R70): REF_SEL takes REF_IN while it is not declared lost, or the TCXO; a domain newly preferred is
selected unless it is not usable and the other one is. -/
def ctrlWritten (pref : Nat) (s : State) : State :=
  let s1 := s.setB Reg.RUL_TQ_REF (s.on Reg.RUL_CTRL_REF_SEL && s.rul.clk.refLost.isNone)
  let p := s1.f Reg.RUL_CTRL_PREF
  rulSettle (if p ≠ pref && s1.sel ≠ p && (s1.usable p || !s1.usable (1 - p)) then switchTo s1 p else s1)

/-! ### Port selection (R66) -/

/-- The attributes of the grandmaster that the IEEE 1588 comparison takes in order. -/
def announceKey (e : AnnEntry) : List Nat :=
  [e.ds.priority1, e.ds.clockClass, e.ds.accuracy, e.ds.variance, e.ds.priority2, e.ds.identity]

/-- What it compares where both sets name one grandmaster: steps removed, sender, then the port (R66). -/
def announcePath (e : AnnEntry) : List Nat := [e.ds.steps, e.ds.sender, e.port]

def lexLt : List Nat → List Nat → Bool
  | a :: r, b :: t => if a < b then true else if b < a then false else lexLt r t
  | [], _ :: _ => true
  | _, [] => false

/-- Data set `a` is better than `b` by the IEEE 1588 comparison, ties by the port index (R66). -/
def announceBetter (a b : AnnEntry) : Bool :=
  if a.ds.identity = b.ds.identity then lexLt (announcePath a) (announcePath b) else lexLt (announceKey a) (announceKey b)

def bestAnnounce : List AnnEntry → Option AnnEntry
  | [] => none
  | e :: r =>
    match bestAnnounce r with
    | none => some e
    | some b => if announceBetter b e then some b else some e

/-- ns of 3 announce intervals (announceReceiptTimeout 3, R61). -/
def announceLife (e : AnnEntry) : Nat := 3000000000 * (if e.logInt = 1 then 2 else 1)

/-- The domain reselects its port among those whose Announce has not timed out; a domain left without a usable port enters HOLDOVER
(R66, R68). -/
def reselect (s : State) (d : Nat) : State :=
  let x := s.dom d
  let cands := x.anns.filter (fun e => (s.domPorts d).testBit e.port && !x.barred.contains e.port && decide (s.ltc < e.ltc + announceLife e))
  match bestAnnounce cands with
  | some e =>
    let s1 := s.setF (Reg.RUL_DOM_STATE_GMCLASS d) e.ds.clockClass
    if x.port = some e.port then s1
    else
      let s2 := s1.setDom d { x with port := some e.port, gotSync := false, lastSync := s.ltc, wait := none, dstep := 0,
                                     gmInacc := e.inacc.getD 0 }
      let s3 := s2.setF (Reg.RUL_DOM_STATE_PORT d) e.port
      match (s3.ptpPort e.port).delay with
      | some _ => s3.setF (Reg.RUL_DOM_DELAY_DELAY d) (tc 32 (ndiv (s3.ptpPort e.port).filt 65536))
      | none => s3
  | none =>
    let s1 := s.setDom d { x with port := none, wait := none, gotSync := false }
    let st := s.domSt d
    if st = domTracking || st = domSuspect then enterHoldover s1 d else s1

/-! ### The servo (R67, R68, R80) -/

/-- 100 ppm in 2^-28 ppb. -/
def maxCorr : Int := 100000 * 268435456

/-- The lock flag after one offset (R68). -/
def lockCount (s : State) (d : Nat) (o : Int) : State :=
  let x := s.dom d
  if (o.natAbs : Int) ≤ 100 * q16 then
    let g := min (x.good + 1) 16
    let s1 := s.setDom d { x with good := g, bad := 0, lockSince := if g = 16 then some (x.lockSince.getD s.ltc) else x.lockSince }
    if g = 16 then s1.setB (Reg.RUL_DOM_STATE_LOCK d) true else s1
  else
    let b := min (x.bad + 1) 4
    let s1 := s.setDom d { x with good := 0, bad := b, lockSince := if b = 4 then none else x.lockSince }
    if b = 4 then s1.setB (Reg.RUL_DOM_STATE_LOCK d) false else s1

/-- ASYM of a domain clears (R80). -/
def clearAsym (s : State) (d : Nat) : State :=
  ((s.setB (Reg.RUL_DOM_STATE_ASYM d) false).setDom d { s.dom d with agree := 0 }).log Ev.ASYM_CLEAR d

/-- The agreement of the copies, counted once per Sync interval of the domain (R80). -/
def asymAgree (s : State) (d : Nat) : State :=
  if s.on (Reg.RUL_DOM_STATE_ASYM d) then
    let x := s.dom d
    let near := decide ((((s.dom 0).copy - (s.dom 1).copy).natAbs : Int) ≤ 100 * (uPerNs : Int)) && s.usable (1 - d)
    let n := if near then x.agree + 1 else 0
    let s1 := s.setDom d { x with agree := n }
    if 16 ≤ n then clearAsym s1 d else s1
  else s

/-- The servo's action on an offset in TRACKING (R67): a step of the copy beyond 10 us, else the PI law. -/
def servo (s : State) (d : Nat) (o : Int) : State × Bool :=
  let x := s.dom d
  if (o.natAbs : Int) > 10000 * q16 then
    let s1 := s.setDom d { x with copy := x.copy - o * (uPerQ16 : Int) }
    (s1.incS (Reg.RUL_DOM_CNT1_COPY_STEP d), true)
  else
    let kp : Int := s.f (Reg.RUL_DOM_SERVO_KP d)
    let ki : Int := s.f (Reg.RUL_DOM_SERVO_KI d)
    let s' := x.integ + ki * o
    let f := -(kp * o + s')
    if (f.natAbs : Int) > maxCorr then (setFreq s d (if f > 0 then maxCorr else -maxCorr), false)
    else
      let s1 := setFreq s d f
      (s1.setDom d { s1.dom d with integ := s' }, false)

/-- A Sync gives the offset `o` to domain `d` (R67 to R74). -/
def useOffset (s : State) (d : Nat) (o : Int) : State :=
  let s0 := (s.incW (Reg.RUL_DOM_CNT0_SYNC_RX d)).setF (Reg.RUL_DOM_OFFSET_OFFSET d) (tc 32 (ssat 32 (ndiv o 65536)))
  let st := s0.domSt d
  let s1 := if st = domListening || st = domHoldover then enterTracking s0 d else s0
  let other := s1.usable (1 - d)
  let s2 := match (s1.dom d).susp with
    | some h => s1.setDom d { s1.dom d with susp := some { h with sum := h.sum + o, n := h.n + 1, otherOk := h.otherOk && other } }
    | none => s1
  let ha := s.on (Reg.RUL_DOM_CFG_HA d)
  let r := if s2.domSt d = domTracking && !ha then servo s2 d o else (s2, false)
  let x := r.1.dom d
  let s3 := lockCount (r.1.setDom d { x with offs := (o :: x.offs).take 16 }) d o
  let s4 := noteUsable (asymAgree s3 d) d
  let s5 := if s4.sel = d then freeStep s4 else s4
  let s6 := if s5.sel = d then dtcSync s5 (r.2 && !switchDelta s) else s5
  rulSettle s6

/-! ### Stamp records (R82, R471) -/

/-- The 32 bytes of a stamp record. ORIGIN holds 6 bytes of seconds and 4 of nanoseconds, each little-endian (R12; DEDUCED, log entry
51). -/
def stampRecord (seq msg d port : Nat) (t : Int) (corr origin : Int) : List Byte :=
  let ns := t.toNat
  leBytes 2 seq ++ leBytes 1 msg ++ leBytes 1 (d + 2 * port) ++ leBytes 4 (ns / 1000000000) ++ leBytes 4 (ns % 1000000000) ++
    leBytes 8 (tc 64 corr) ++ leBytes 6 (origin.toNat / 1000000000) ++ leBytes 4 (origin.toNat % 1000000000) ++ leBytes 2 0

/-- A host-assisted domain writes a record into the ring of 256 and raises vector 5. -/
def stampRing (s : State) (seq msg d port : Nat) (t : Int) (corr origin : Int) : State :=
  if s.on (Reg.RUL_DOM_CFG_HA d) then
    let pi := s.f Reg.HST_STAMP_PI_PI
    let slot := 0x40000 + (pi % 256) * 32
    let full := s.inkNat slot 32 ≠ 0
    let s1 := s.inkWrite slot (stampRecord seq msg d port t corr origin)
    let s2 := s1.setF Reg.HST_STAMP_PI_PI (pi + 1)
    (if full then s2.incS (Reg.RUL_DOM_CNT1_STAMP_OVR d) else s2).irq 5
  else s

/-! ### Messages -/

/-- The domains that a message of a domainNumber on a port belongs to: source PTP, number and port match (R61, R65). -/
def domsFor (s : State) (num port : Nat) : List Nat :=
  [0, 1].filter (fun d => s.f (Reg.RUL_DOM_CFG_SOURCE d) = 1 && s.f (Reg.RUL_DOM_CFG_DOMNUM d) = num && (s.domPorts d).testBit port)

def PtpRx.copyOf (r : PtpRx) (d : Nat) : Int := if d = 0 then r.copyA else r.copyB

/-- A pending mode change of the PTP servo takes effect at the domain's next Sync (R46). -/
def servoModeBoundary (s : State) (d : Nat) : State :=
  match modePending s 3 d with
  | some ha => modeTaken ((s.setB (Reg.RUL_DOM_CFG_HA d) ha).setDom d { s.dom d with haLast := s.ltc }) 3 d
  | none => s

/-- The grandmasterTimeInaccuracy of a TLV on the selected port (R55). -/
def takeInacc (s : State) (d : Nat) (inacc : Option Nat) : State :=
  match inacc with
  | some v => s.setDom d { s.dom d with gmInacc := v }
  | none => s

/-- One domain takes a Sync (R67): with a follow-up to come it waits; a Sync still waiting is discarded and counted. Every Sync of
the domain has its stamp record (R82). A port barred for missing Syncs is eligible again from its next Sync on; a Sync on a port that
has not measured a meanPathDelay gives no offset and is not used (both DESIGN CHOICE, log entry 51). -/
def domSync (r : PtpRx) (seq : Nat) (twoStep : Bool) (origin corr logInt : Int) (inacc : Option Nat) (s : State) (d : Nat) : State :=
  let x0 := s.dom d
  let s0 := if x0.barred.contains r.port then reselect (s.setDom d { x0 with barred := x0.barred.erase r.port }) d else s
  let x := s0.dom d
  if x.port = some r.port then
    let s1 := takeInacc (servoModeBoundary s0 d) d inacc
    let s2 := stampRing s1 seq 0 d r.port (r.copyOf d) corr origin
    let s3 := if (s2.dom d).wait.isSome then s2.incW (Reg.RUL_DOM_CNT0_FU_MISS d) else s2
    let y := s3.dom d
    if twoStep then
      s3.setDom d { y with wait := some ⟨seq, r.port, r.copyOf d, corr⟩, logInt := logInt, gotSync := true }
    else
      let s4 := s3.setDom d { y with wait := none, lastSync := s.ltc, logInt := logInt, gotSync := true }
      match (s4.ptpPort r.port).delay with
      | some mpd => useOffset s4 d ((r.copyOf d - origin) * q16 - corr - mpd)
      | none => s4
  else stampRing s0 seq 0 d r.port (r.copyOf d) corr origin

/-- One domain takes a Follow_Up (R67); each has its stamp record (R82). -/
def domFollowUp (r : PtpRx) (seq : Nat) (origin corr : Int) (inacc : Option Nat) (s : State) (d : Nat) : State :=
  let x := s.dom d
  let s0 := stampRing (if x.port = some r.port then takeInacc s d inacc else s) seq 1 d r.port (r.copyOf d) corr origin
  match x.wait with
  | some w =>
    if w.seq = seq && w.port = r.port && x.port = some r.port then
      let s1 := s0.setDom d { s0.dom d with wait := none, lastSync := s.ltc }
      match (s1.ptpPort r.port).delay with
      | some mpd => useOffset s1 d ((w.t2 - origin) * q16 - w.corr - corr - mpd)
      | none => s1
    else s0
  | none => s0

/-- The oldest received message leaves the queue. -/
def popPtp (s : State) : State := { s with rul := { s.rul with ptpIn := s.rul.ptpIn.drop 1 } }

/-- SYNC_RECEIVED (R67): the oldest received message is a Sync of an accepted interval (R61). -/
def syncReceived (s : State) : State :=
  match s.rul.ptpIn with
  | r :: _ =>
    match r.msg with
    | .sync num seq twoStep origin corr logInt inacc =>
      if -4 ≤ logInt && logInt ≤ 0 then (domsFor s num r.port).foldl (domSync r seq twoStep origin corr logInt inacc) (popPtp s)
      else popPtp s
    | _ => s
  | [] => s

/-- FOLLOW_UP_RECEIVED (R67). -/
def followUpReceived (s : State) : State :=
  match s.rul.ptpIn with
  | r :: _ =>
    match r.msg with
    | .followUp num seq origin corr inacc => (domsFor s num r.port).foldl (domFollowUp r seq origin corr inacc) (popPtp s)
    | _ => s
  | [] => s

/-- One domain takes an Announce (R66). -/
def domAnnounce (r : PtpRx) (ds : Announce) (logInt : Int) (inacc : Option Nat) (s : State) (d : Nat) : State :=
  let x := s.dom d
  let s1 := s.setDom d { x with anns := ⟨r.port, ds, s.ltc, logInt, inacc⟩ :: x.anns.filter (fun e => e.port ≠ r.port) }
  reselect (if x.port = some r.port then takeInacc s1 d inacc else s1) d

/-- ANNOUNCE_RECEIVED (R66), with logAnnounceInterval 0 or 1 (R61). -/
def announceReceived (s : State) : State :=
  match s.rul.ptpIn with
  | r :: _ =>
    match r.msg with
    | .announce num ds logInt inacc =>
      if logInt = 0 || logInt = 1 then rulSettle ((domsFor s num r.port).foldl (domAnnounce r ds logInt inacc) (popPtp s))
      else popPtp s
    | _ => s
  | [] => s

/-- ANNOUNCE_RECEIPT_TIMEOUT (R66): the selected port's Announce is older than 3 intervals. -/
def announceTimeout (s : State) (d : Nat) : State :=
  let x := s.dom d
  match x.port, x.anns.find? (fun e => some e.port = x.port) with
  | some p, some e =>
    if e.ltc + announceLife e ≤ s.ltc then
      let s1 := (s.setDom d { x with anns := x.anns.filter (fun e => e.port ≠ p) }).incS (Reg.RUL_DOM_CNT1_ANN_TO d)
      rulSettle (reselect s1 d)
    else s
  | _, _ => s

/-- SYNC_MISSING_TIMEOUT (R66): 3 Sync intervals without a Sync or matching Follow_Up on the selected port: the port is barred until
its next Sync. A legacy source counts as one Sync each second, so 3 s without an edge lead to HOLDOVER. Both are DESIGN CHOICE, log
entry 51. -/
def syncMissing (s : State) (d : Nat) : State :=
  let x := s.dom d
  if s.ltc < x.lastSync + 3 * x.interval then s
  else if s.f (Reg.RUL_DOM_CFG_SOURCE d) = 2 then
    let st := s.domSt d
    if st = domTracking || st = domSuspect then rulSettle (enterHoldover s d) else s
  else
    match x.port with
    | some p =>
      let s0 := if x.wait.isSome then s.incW (Reg.RUL_DOM_CNT0_FU_MISS d) else s
      rulSettle (reselect (s0.setDom d { x with barred := p :: x.barred, wait := none }) d)
    | none => s

/-- The new delay of a domain's port becomes its filtered delay (R79). -/
def acceptDelay (s : State) (d : Nat) : State :=
  match (s.dom d).port with
  | some p =>
    match (s.ptpPort p).delay with
    | some mpd => ((s.setPtpPort p { s.ptpPort p with filt := mpd }).setF (Reg.RUL_DOM_DELAY_DELAY d) (tc 32 (ndiv mpd 65536))).setDom d
        { s.dom d with dstep := 0 }
    | none => s
  | none => s

/-- SUSPECT_HOLD_END (R79). A hold without any Sync has no mean and confirms nothing. -/
def suspectEnd (s : State) (d : Nat) : State :=
  let x := s.dom d
  match x.susp with
  | some h =>
    if s.domSt d = domSuspect && h.ends ≤ s.ltc then
      let thr : Int := (s.f Reg.RUL_ASYM_THR_THR : Int) * q16
      let ok := h.otherOk && decide (h.n ≠ 0) && decide (((h.sum.natAbs : Int) * 4) ≤ thr * h.n)
      let s1 := acceptDelay (enterTracking s d) d
      let s2 := if ok then s1.log Ev.DELAY_ACCEPTED d else (s1.setB (Reg.RUL_DOM_STATE_ASYM d) true).log Ev.ASYM_SET d
      rulSettle s2
    else s
  | none => s

/-- A measured meanPathDelay reaches a domain whose selected port measured it (R78, R80). `filt` is the filtered value before it. -/
def domDelay (p : Nat) (mpd filt : Int) (s : State) (d : Nat) : State :=
  let x := s.dom d
  if x.port = some p && s.domSt d ≠ domDisabled then
    let thr : Int := (s.f Reg.RUL_ASYM_THR_THR : Int) * q16
    let s0 := s.setF (Reg.RUL_DOM_DELAY_DELAY d) (tc 32 (ndiv filt 65536))
    let far := decide (((mpd - filt).natAbs : Int) > thr)
    let n := if far then x.dstep + 1 else 0
    let base := if far && x.dstep = 0 then filt else x.preStep
    let s1 := s0.setDom d { x with dstep := n, preStep := base }
    if 2 ≤ n && s.domSt d = domTracking then
      let s2 := (setDomSt (closeSpell s1 d) d domSuspect).incS (Reg.RUL_DOM_CNT1_DSTEP d)
      let y := s2.dom d
      let s3 := s2.setDom d { y with susp := some ⟨s.ltc + 16 * y.interval, 0, 0, true⟩, prevDelay := base, dstep := 0 }
      s3.log Ev.DELAY_SUSPECT d
    else if s1.on (Reg.RUL_DOM_STATE_ASYM d) && decide (((mpd - x.prevDelay).natAbs : Int) ≤ thr) then clearAsym s1 d
    else s1
  else s

/-- A completed Pdelay exchange of a port gives its meanPathDelay (R62): half of the round trip, t4 - t1, without the responder's
turn-round, all in 2^-16 ns. -/
def delayMeasured (s : State) (p : Nat) (trip turn : Int) : State :=
  let pp := s.ptpPort p
  let mpd := (trip - turn) / 2
  let old := match pp.delay with | some _ => pp.filt | none => mpd
  let filt := match pp.delay with | some _ => Config.delayFilter pp.filt mpd | none => mpd
  let s1 := s.setPtpPort p { pp with delay := some mpd, filt := filt, out := none, resp := none }
  let s2 := [0, 1].foldl (domDelay p mpd old) s1
  let s3 := [0, 1].foldl (fun t d => if (t.dom d).port = some p then
      t.setF (Reg.RUL_DOM_DELAY_DELAY d) (tc 32 (ndiv filt 65536)) else t) s2
  rulSettle s3

/-- Each domain that has the port writes the stamp record of a Pdelay message (R82). ORIGIN is the timestamp that the message carries
(DEDUCED, log entry 51). -/
def pdelayRecord (r : PtpRx) (seq msg : Nat) (corr origin : Int) (s : State) : State :=
  [0, 1].foldl (fun t d => if (t.domPorts d).testBit r.port then stampRing t seq msg d r.port (r.copyOf d) corr origin else t) s

/-- PDELAY_RESP_RECEIVED (R62): a one-step Pdelay_Resp completes the exchange; a two-step one keeps t4 and t2 until its
Pdelay_Resp_Follow_Up brings t3. -/
def pdelayRespReceived (s : State) : State :=
  match s.rul.ptpIn with
  | r :: _ =>
    match r.msg with
    | .pdelayResp _ seq twoStep t2 corr =>
      let s1 := pdelayRecord r seq 3 corr t2 (popPtp s)
      let pp := s1.ptpPort r.port
      match pp.out with
      | some (q, t1) =>
        if q ≠ seq then s1
        else if twoStep then s1.setPtpPort r.port { pp with resp := some (r.ltc, t2, corr) }
        else delayMeasured s1 r.port (((r.ltc : Int) - t1) * q16) corr
      | none => s1
    | .pdelayRespFu _ seq t3 corr =>
      let s1 := pdelayRecord r seq 4 corr t3 (popPtp s)
      let pp := s1.ptpPort r.port
      match pp.out, pp.resp with
      | some (q, t1), some (t4, t2, c) =>
        if q = seq then delayMeasured s1 r.port (((t4 : Int) - t1) * q16) ((t3 - t2) * q16 + c + corr) else s1
      | _, _ => s1
    | _ => s
  | [] => s

/-- 1 s has passed since the port's last request. -/
def pdelayDue (s : State) (p : Nat) : Bool :=
  match (s.ptpPort p).sentAt with
  | some t => decide (t + 1000000000 ≤ s.ltc)
  | none => true

/-- PDELAY_REQ_SEND (R61): a PTP-enabled port (one in a domain's set) queues its next request, every 1 s. -/
def pdelayReqSend (s : State) (p : Nat) : State :=
  if [0, 1].any (fun d => (s.domPorts d).testBit p && s.f (Reg.RUL_DOM_CFG_SOURCE d) = 1) && pdelayDue s p then
    let pp := s.ptpPort p
    let s1 := s.setPtpPort p { pp with out := some (pp.seq, s.ltc), resp := none, sentAt := some s.ltc, seq := (pp.seq + 1) % 65536 }
    let d := if (s.domPorts 0).testBit p && s.f (Reg.RUL_DOM_CFG_SOURCE 0) = 1 then 0 else 1
    sendPtp s1 p (.pdelayReq (s.f (Reg.RUL_DOM_CFG_DOMNUM d)) pp.seq) s.ltc
  else s

/-- The first bit of a Pdelay_Req of the module's own leaves port p (R62): t1. -/
def pdelayReqSent (s : State) (p seq : Nat) : State :=
  let pp := s.ptpPort p
  let s1 := match pp.out with
    | some (q, _) => if q = seq then s.setPtpPort p { pp with out := some (seq, s.ltc) } else s
    | none => s
  [0, 1].foldl (fun t d => if (t.domPorts d).testBit p then
    stampRing t seq 2 d p (ndiv (t.dom d).copy uPerNs) 0 0 else t) s1

/-- PDELAY_REQ_RECEIVED (R62): the request leaves the queue and the one-step answer goes out on its port. -/
def pdelayReqReceived (s : State) : State :=
  match s.rul.ptpIn with
  | r :: _ =>
    match r.msg with
    | .pdelayReq num seq => sendPtp (popPtp s) r.port (.pdelayResp num seq false 0 0) r.ltc
    | _ => s
  | [] => s

/-- DOMAIN_REVERT (R70). -/
def domainRevert (s : State) : State :=
  let pref := s.f Reg.RUL_CTRL_PREF
  match (s.dom pref).usableSince with
  | some t =>
    if s.on Reg.RUL_CTRL_REVERT && s.sel ≠ pref && s.usable pref && t + 60000000000 ≤ s.ltc then noteTq3 (switchTo s pref) else s
  | none => s

/-- HOST_SERVO_TIMEOUT (R83). -/
def hostServoTimeout (s : State) (d : Nat) : State :=
  let st := s.domSt d
  if s.on (Reg.RUL_DOM_CFG_HA d) && (st = domTracking || st = domSuspect) && (s.dom d).haLast + 4000000000 ≤ s.ltc then
    rulSettle ((enterHoldover s d).log Ev.HOST_SERVO_TIMEOUT d)
  else s

/-- A write of RUL_DOMx_HA_PHASE applies phase and frequency together (R83); ignored unless HA = 1. A host correction
brings a domain in HOLDOVER back to TRACKING (R68). One that leaves DTC more than 1 ms from the selected copy counts as a copy step
of R72, with the domain's next 8 Syncs as its hold, and one that brings the copy back within 1 ms ends a hold (DESIGN CHOICE, log
entry 51). -/
def haPhase (s : State) (d v : Nat) : State :=
  if s.on (Reg.RUL_DOM_CFG_HA d) then
    let s0 := s.setF (Reg.RUL_DOM_HA_PHASE_HPHASE d) v
    let s1 := if s0.domSt d = domHoldover then enterTracking s0 d else s0
    let f := max (-maxCorr) (min maxCorr (sext 32 (s1.f (Reg.RUL_DOM_HA_FREQ_HFREQ d)) * 262144))
    let s2 := setFreq s1 d f
    let x := s2.dom d
    let s3 := s2.setDom d { x with copy := x.copy + sext 32 v * (uPerNs : Int), haLast := s.ltc }
    rulSettle (if s3.sel = d && s3.rul.clk.hold.isSome && !deltaOverMs s3 then endHold s3
      else if s3.sel = d && sext 32 v ≠ 0 && deltaOverMs s3 && s3.rul.clk.hold.isNone && !switchDelta s then startHold s3 else s3)
  else s

/-- A write of RUL_DOMx_HA_FREQ is held for the next phase write; ignored unless HA = 1. -/
def haFreq (s : State) (d v : Nat) : State :=
  if s.on (Reg.RUL_DOM_CFG_HA d) then s.setF (Reg.RUL_DOM_HA_FREQ_HFREQ d) v else s

/-- Two domains of one domainNumber share a port (R65). -/
def portOverlap (s : State) : Bool :=
  s.f (Reg.RUL_DOM_CFG_DOMNUM 0) = s.f (Reg.RUL_DOM_CFG_DOMNUM 1) && (s.domPorts 0 &&& s.domPorts 1) ≠ 0

/-- The state of a domain follows its source (R68): off disables it, a source takes it out of DISABLED. -/
def sourceChanged (s : State) (d : Nat) : State :=
  let src := s.f (Reg.RUL_DOM_CFG_SOURCE d)
  if src = 0 then
    if s.domSt d = domDisabled then s
    else
      let s1 := closeSpell s d
      let s2 := (setDomSt s1 d domDisabled).setFs [(Reg.RUL_DOM_STATE_LOCK d, 0), (Reg.RUL_DOM_STATE_ASYM d, 0)]
      rulSettle (s2.setDom d { s2.dom d with susp := none, hold := none, good := 0, bad := 0, lockSince := none, port := none, anns := [],
                                             wait := none, offs := [], integ := 0, freq := 0 })
  else if s.domSt d = domDisabled then
    rulSettle ((setDomSt s d domListening).setDom d { s.dom d with lastSync := s.ltc, gotSync := false })
  else rulSettle (if src = 1 then reselect s d else s)

/-! ### Legacy inputs (R84) -/

/-- Days from 1970-01-01 to 1 January of a year, below 0 before 1970. -/
def daysToYear (y : Nat) : Int :=
  let z : Int := (y : Int) - 1
  ((y : Int) - 1970) * 365 + (z / 4 - z / 100 + z / 400) - 477

/-- A legacy domain takes an on-time edge that names a TAI second. -/
def legacyEdge (tai : Int) (s : State) (d : Nat) : State :=
  if s.f (Reg.RUL_DOM_CFG_SOURCE d) = 2 then
    let s1 := servoModeBoundary s d
    let s2 := s1.setDom d { s1.dom d with lastSync := s.ltc, logInt := 0, gotSync := true }
    useOffset s2 d ((s2.dom d).copy / uPerQ16 - tai * 1000000000 * q16)
  else s

/-- A frame's TAI second follows the last frame's by the seconds of LTC between them, to the nearest second; the last frame may be one
that was refused (R84; DESIGN CHOICE, log entry 51). -/
def irigFollows (s : State) (tai : Int) : Bool :=
  match s.rul.clk.irigLast with
  | some (t, at') => decide (tai = t + ((s.ltc : Int) - at' + 500000000) / 1000000000)
  | none => true

/-- IRIGB_FRAME (R84), at the frame's on-time edge, by its second of the year. B000 to B003 need a YEAR; a frame inconsistent with the one before is not
accepted. -/
def irigbFrame (s : State) (fmt secOfYear year : Nat) : State :=
  if !s.on Reg.RUL_LEG_CFG_IRIG_EN then s
  else
    let y := if 4 ≤ fmt then year else s.f Reg.RUL_LEG_CFG_YEAR
    if 7 < fmt || (fmt < 4 && y = 0) then s.log Ev.LEGACY_ERROR
    else
      let tai : Int := daysToYear y * 86400 + secOfYear + s.f Reg.RUL_LEG_CFG_TAI_UTC
      let s1 := s.setClk { s.rul.clk with irigLast := some (tai, s.ltc) }
      if irigFollows s tai then
        let s2 := s1.setClk { s1.rul.clk with irig := some (tai, s.ltc) }
        if s2.on Reg.RUL_LEG_CFG_PPS_EN then s2 else [0, 1].foldl (legacyEdge tai) s2
      else s1.log Ev.LEGACY_ERROR

/-- PPS_IN_EDGE (R84): the phase of a legacy domain while PPS_EN is set; the second is the IRIG-B second carried on. -/
def ppsInEdge (s : State) : State :=
  if s.on Reg.RUL_LEG_CFG_PPS_EN then
    match s.rul.clk.irig with
    | some (tai, at') => [0, 1].foldl (legacyEdge (tai + ((s.ltc : Int) - at' + 500000000) / 1000000000)) s
    | none => s
  else s

/-! ### PPS output, reference, TQ, slewing (R59, R69, R85, R86) -/

/-- The whole DTC second. -/
def dtcSecond (s : State) : Nat := secondOf s.rul.clk.dtc

/-- PPS_OUT may be high: the module is not in RESET (R522), DTC is set, EN is set, and GATE lets it (R85). -/
def ppsMay (s : State) : Bool := s.sysState ≠ 0 && s.rul.clk.dtcSet && s.on Reg.RUL_PPS_OUT_EN && !(s.on Reg.RUL_PPS_OUT_GATE && decide (1 < s.tq))

/-- PPS_OUT is low as soon as it may not be high (R85). -/
def ppsGate (s : State) : State := if s.rul.clk.ppsOut && !ppsMay s then s.setClk { s.rul.clk with ppsOut := false } else s

/-- PPS_OUT_RISE (R85): a DTC second boundary has passed since the last one seen. -/
def ppsRise (s : State) : State :=
  let c := s.rul.clk
  let sec := dtcSecond s
  if c.ppsSec < sec then
    let go := ppsMay s
    s.setClk { c with ppsSec := sec, ppsOut := go || c.ppsOut, ppsRise := if go then c.ltc else c.ppsRise }
  else s

/-- PPS_OUT_FALL (R85): WIDTH ms after the rise. -/
def ppsFall (s : State) : State :=
  let c := s.rul.clk
  if c.ppsOut && c.ppsRise + s.f Reg.RUL_PPS_OUT_WIDTH * 1000000 ≤ c.ltc then s.setClk { c with ppsOut := false } else s

/-- REF_LOST (R59). -/
def refLost (s : State) : State :=
  if s.on Reg.RUL_TQ_REF then
    ((s.setB Reg.RUL_TQ_REF false).setClk { s.rul.clk with refLost := some s.ltc }).log Ev.REF_LOST
  else s

/-- REF_RESTORED (R59): 10 s of valid input. -/
def refRestored (s : State) : State :=
  match s.rul.clk.refLost with
  | some t =>
    if s.on Reg.RUL_CTRL_REF_SEL && !s.on Reg.RUL_TQ_REF && t + 10000000000 ≤ s.ltc then
      ((s.setB Reg.RUL_TQ_REF true).setClk { s.rul.clk with refLost := none }).log Ev.REF_RESTORED
    else s
  | none => s

def tqEvent : Nat → Event
  | 0 => Ev.TQ_LOCKED
  | 1 => Ev.TQ_DEGRADED
  | 2 => Ev.TQ_HOLDOVER
  | _ => Ev.TQ_UNSYNC

/-- TQ_CHANGE (R55, R86): RUL_TQ takes the TQ of R55 and one event names it; the TQ before is kept for instants before now (R37). -/
def tqChange (s : State) : State :=
  let q := tqOf s
  if q = s.tq then s
  else
    let s1 := s.setClk { s.rul.clk with tqHist := (s.rul.clk.epoch, s.rul.clk.dtc, s.tq) :: s.rul.clk.tqHist }
    ppsGate (noteTq3 ((s1.setF Reg.RUL_TQ_TQ q).log (tqEvent q)))

/-- DTC_SLEW_END (R69): Δ has reached 0. -/
def slewEnd (s : State) : State :=
  if s.on Reg.RUL_TQ_SLEWING && s.delta = 0 then
    (s.setB Reg.RUL_TQ_SLEWING false).setClk { s.rul.clk with stepPend := false }
  else s

/-- The slew of DTC in one ns of LTC, in u: RUL_SLEW ppm toward the copy, no further than Δ. -/
def slewStep (s : State) : Int :=
  if s.on Reg.RUL_TQ_SLEWING then
    let r : Int := (s.f Reg.RUL_CTRL_SLEW : Int) * 268435456 * 1000
    let dl := s.delta
    if dl > 0 then -(min dl r) else min (-dl) r
  else 0

/-- One ns of LTC passes (R50, R51, R67, R69): the copies run at their corrections, DTC at the rate of the selected
copy and slewing. -/
def tickNs (s : State) : State :=
  let c := s.rul.clk
  let fSel := (s.dom s.sel).freq
  let sl := slewStep s
  let s1 := s.setClk { c with ltc := (c.ltc + 1) % 2 ^ 64, dtc := c.dtc + uPerNs + fSel + sl }
  let s2 := s1.setDom 0 { s1.dom 0 with copy := (s1.dom 0).copy + uPerNs + (s1.dom 0).freq }
  noteTq3 (s2.setDom 1 { s2.dom 1 with copy := (s2.dom 1).copy + uPerNs + (s2.dom 1).freq })

/-! ### Reads with shadows (R57, R58) -/

def Requester.code : Requester → Nat
  | .pcie => 0
  | .spi => 1
  | .sup => 2
  | .cfg => 3

def shadowKey (r : Requester) (a : Nat) : Nat := Requester.code r * 2 ^ 24 + a

def State.setShadow (s : State) (r : Requester) (a v : Nat) : State :=
  s.setClk { s.rul.clk with shadow := s.rul.clk.shadow.set (shadowKey r a) v }

def State.shadowOf (s : State) (r : Requester) (a : Nat) : Nat := s.rul.clk.shadow.get (shadowKey r a)

/-- DTC_SNAPSHOT_READ (R58): RUL_DTC_NS is read; seconds and epoch are latched for this requester. -/
def dtcSnapshot (s : State) (r : Requester) : State :=
  let ns := s.dtcNs
  let sec := ns / 1000000000
  let s1 := s.setShadow r Reg.RUL_DTC_NS (ns % 1000000000 + s.tq * 2 ^ 30)
  let s2 := s1.setShadow r Reg.RUL_DTC_SEC_LO (sec % 2 ^ 32)
  s2.setShadow r Reg.RUL_DTC_SEC_HI (sec / 2 ^ 32 % 65536 + s.rul.clk.epoch * 65536)

/-- The registers that are the low word of a 64-bit value and the high word that a read latches (R57): LTC, the
device ID, TSTART of a Stroke output, SQNUM and STNUM of a GOOSE subscription or publication. -/
def lowWordHigh (s : State) (a : Nat) : Option (Nat × Nat) :=
  if a = Reg.RUL_LTC_LO then some (Reg.RUL_LTC_HI, s.ltc / 2 ^ 32 % 2 ^ 32)
  else if a = Reg.SYS_UID_LO then some (Reg.SYS_UID_HI, s.rd Reg.SYS_UID_HI)
  else if (List.range 16).any (fun n => a = Reg.STK_SO_TSTART_LO n) || (List.range 64).any (fun n => a = Reg.PBI_GS_SQNUM n) ||
      (List.range 32).any (fun n => a = Reg.STN_GP_SQNUM n) then some (a + 4, s.rd (a + 4))
  else none

/-- LOW_WORD_READ (R57): the high word is latched into the requester's shadow. -/
def lowWordRead (s : State) (r : Requester) (a : Nat) : State :=
  match lowWordHigh s a with
  | some (h, v) => s.setShadow r h v
  | none => s

/-! ### Grants (R76, R77) -/

/-- TIME_STEP_ALLOW, its checks in the order of R77. -/
def timeStepAllowBody (n : Nat) (s : State) (c : Cmd) : CmdOut :=
  let mask := c.arg 0 1
  let named := bitsOf 2 mask
  if s.level n ≠ 0 then refuse s stPRIV
  else if mask = 0 || 4 ≤ mask || !c.zero 1 32 || named.any (fun d => s.domSt d = domDisabled) then refuse s stARG
  else if named.any (fun d => (s.dom d).grant.isSome) then refuse s stSTATE
  else okay (named.foldl (fun t d =>
    ((t.setDom d { t.dom d with grant := some t.ltc }).setB (grantReg d) true).log Ev.STEP_GRANT d) s)

/-- STEP_GRANT_EXPIRED (R76): 600 s after the grant. -/
def stepGrantExpired (s : State) (d : Nat) : State :=
  match (s.dom d).grant with
  | some t =>
    if t + 600000000000 ≤ s.ltc then ((s.setDom d { s.dom d with grant := none }).setB (grantReg d) false).log Ev.STEP_GRANT_EXPIRED d else s
  | none => s

/-! ### Configuration (R65) -/

/-- The new word of RUL_DOMx_CFG or RUL_DOMx_PORTS: SOURCE 3 is not taken, HA belongs to MODE_SET. -/
def domWord (s : State) (d : Nat) (ports : Bool) (v : Nat) : State :=
  if ports then s.wr (Reg.RUL_DOM_PORTS d) (v % 2 ^ 28)
  else
    let src := v / 256 % 4
    s.setFs [(Reg.RUL_DOM_CFG_DOMNUM d, v), (Reg.RUL_DOM_CFG_SOURCE d, if src = 3 then s.f (Reg.RUL_DOM_CFG_SOURCE d) else src),
      (Reg.RUL_DOM_CFG_PROFILE d, v / 1024)]

/-- A new domainNumber: what the domain has heard belongs to another one (R65, R66). -/
def numberChanged (s : State) (d : Nat) : State :=
  s.setDom d { s.dom d with anns := [], barred := [], wait := none }

/-- RUL_DOM_CFG_WRITE (R65): a write that would make two domains of one number share a port is ignored. -/
def domCfgWrite (s : State) (d : Nat) (ports : Bool) (v : Nat) : State :=
  let s1 := domWord s d ports v
  if portOverlap s1 then s.log Ev.CONFIG_REJECT d
  else sourceChanged (if s1.f (Reg.RUL_DOM_CFG_DOMNUM d) = s.f (Reg.RUL_DOM_CFG_DOMNUM d) then s1 else numberChanged s1 d) d

/-! ### Meanings -/

def execSyncReceived (s : State) : Host.Outcome State Fault Refusal := .next (syncReceived s)

def execFollowUpReceived (s : State) : Host.Outcome State Fault Refusal := .next (followUpReceived s)

def execDomainRevert (s : State) : Host.Outcome State Fault Refusal := .next (domainRevert s)

def execAnnounceReceived (s : State) : Host.Outcome State Fault Refusal := .next (announceReceived s)

def execAnnounceReceiptTimeout (d : Fin 2) (s : State) : Host.Outcome State Fault Refusal := .next (announceTimeout s d)

def execSyncMissingTimeout (d : Fin 2) (s : State) : Host.Outcome State Fault Refusal := .next (syncMissing s d)

def execPdelayReqSend (port : Fin 28) (s : State) : Host.Outcome State Fault Refusal := .next (pdelayReqSend s port)

def execPdelayReqReceived (s : State) : Host.Outcome State Fault Refusal := .next (pdelayReqReceived s)

def execPdelayRespReceived (s : State) : Host.Outcome State Fault Refusal := .next (pdelayRespReceived s)

def execSuspectHoldEnd (d : Fin 2) (s : State) : Host.Outcome State Fault Refusal := .next (suspectEnd s d)

def execHostServoTimeout (d : Fin 2) (s : State) : Host.Outcome State Fault Refusal := .next (hostServoTimeout s d)

def execRulDomHaPhaseWrite (a : Access) (d : Fin 2) (v : Word) (s : State) : Host.Outcome State Fault Refusal :=
  .next (gate s a (Reg.RUL_DOM_HA_PHASE d) true (fun t => haPhase t d v.toNat))

def execRulDomCfgWrite (a : Access) (d : Fin 2) (ports : Bool) (v : Word) (s : State) : Host.Outcome State Fault Refusal :=
  .next (gate s a (Reg.RUL_DOM_CFG d) true (fun t => domCfgWrite t d ports v.toNat))

def execRefLost (s : State) : Host.Outcome State Fault Refusal := .next (refLost s)

def execRefRestored (s : State) : Host.Outcome State Fault Refusal := .next (refRestored s)

def execTimeStepAllow (sess : Fin 16) (s : State) : Host.Outcome State Fault Refusal := .next (runCmd s sess 0x21 (timeStepAllowBody sess))

def execStepGrantExpired (d : Fin 2) (s : State) : Host.Outcome State Fault Refusal := .next (stepGrantExpired s d)

def execIrigbFrame (fmt day sec year : Nat) (s : State) : Host.Outcome State Fault Refusal :=
  .next (irigbFrame s fmt ((day - 1) * 86400 + sec) year)

def execPpsInEdge (s : State) : Host.Outcome State Fault Refusal := .next (ppsInEdge s)

def execPpsOutRise (s : State) : Host.Outcome State Fault Refusal := .next (ppsRise s)

def execPpsOutFall (s : State) : Host.Outcome State Fault Refusal := .next (ppsFall s)

def execTqChange (s : State) : Host.Outcome State Fault Refusal := .next (tqChange s)

def execDtcSlewEnd (s : State) : Host.Outcome State Fault Refusal := .next (slewEnd s)

end Sys2Proof.Machine
end

