-- ==== Sys2Proof/Machine/Ductus.lean ====
section
/-! DEFINITION. Ductus and C37.94 links (spec/10 R323 to R347): states and versions, the bytes of frames and their checks, frames in
both directions, command bits, samples, delay, the message channel. -/

namespace Sys2Proof.Machine

namespace State

def dl (s : State) (n : Nat) : DlState := s.duc.dl.get n

def setDl (s : State) (n : Nat) (x : DlState) : State := { s with duc := { s.duc with dl := s.duc.dl.set n x } }

end State

/-! ### Characters of the line (R325) -/

/-- The idle ordered set /I2/ of 1000BASE-X: K28.5 D16.2 (PRESUMED, log entry 59). -/
def idleSet : List LineChar := [.k 28 5, .d 0x50]

/-- A frame between its delimiters, and the idle after it, which lasts until the next frame. -/
def lineOf (b : List Byte) : List LineChar := [.k 28 5, .k 27 7] ++ b.map .d ++ [.k 29 7, .k 29 7] ++ idleSet

/-- A frame goes out on the line. -/
def putLine (s : State) (n : Nat) (b : List Byte) : State := s.setDl n { s.dl n with sent := b, line := lineOf b }

/-! ### Check sequences (R327) -/

/-- One bit of the CRC-32, reflected: 0xEDB88320 is 0x04C11DB7 with its bits in reverse. -/
def crc32Bit (c : BitVec 32) : BitVec 32 := if c.getLsbD 0 then (c >>> 1) ^^^ 0xEDB88320#32 else c >>> 1

def crc32Byte (c : BitVec 32) (b : Byte) : BitVec 32 := (List.range 8).foldl (fun x _ => crc32Bit x) (c ^^^ b.setWidth 32)

/-- The IEEE 802.3 frame check sequence. -/
def crc32 (l : List Byte) : Nat := (~~~(l.foldl crc32Byte 0xFFFFFFFF#32)).toNat

def crc16Bit (c : BitVec 16) : BitVec 16 := if c.getMsbD 0 then (c <<< 1) ^^^ 0x1021#16 else c <<< 1

def crc16Byte (c : BitVec 16) (b : Byte) : BitVec 16 := (List.range 8).foldl (fun x _ => crc16Bit x) (c ^^^ (b.setWidth 16 <<< 8))

/-- CRC-16/CCITT. -/
def crc16 (l : List Byte) : Nat := (l.foldl crc16Byte 0xFFFF#16).toNat

/-! ### The bytes of frames (R325, R326, R328, R347) -/

/-- The fields of a data frame of version 1 or 2. -/
structure DlFrame where
  ver : Nat
  fseq : Nat
  cmd : Nat
  cmdP1 : Nat
  cmdP2 : Nat
  asym : Bool
  test : Bool
  nosvc : Bool
  nosmp : Bool
  ageInv : Bool
  rxLost : Bool
  nch : Nat
  endBit : Nat
  linkId : Nat
  txEpoch : Nat
  smpEpoch : Nat
  txLtc : Nat
  echo : Nat
  hold : Nat
  txDtc : Nat
  smpStamp : Nat
  age : Nat
  qual : List Nat
  value : List Int
  mseq : Nat
  mack : Nat
  mlen : Nat
  mtype : Nat
  mdata : List Nat
  deriving DecidableEq, Repr, Inhabited

/-- The first `n` items, followed by zeros. -/
def padZero (n : Nat) (l : List Nat) : List Nat := (l ++ List.replicate n 0).take n

/-- One byte for each number. -/
def octets (l : List Nat) : List Byte := l.map (BitVec.ofNat 8)

/-- Little-endian number of the `n` bytes at `o`. -/
def fieldAt (b : List Byte) (o n : Nat) : Nat := leNat ((b.drop o).take n)

/-- Bytes 0 to 7 of a data frame of either version. -/
def headBytes (f : DlFrame) : List Byte := leBytes 1 (f.ver % 16) ++ leBytes 1 f.fseq ++ leBytes 2 f.cmd ++ leBytes 2 f.cmdP1 ++ leBytes 2 f.cmdP2

def valueBytes (f : DlFrame) : List Byte := ((padZero 8 (f.value.map (tc 32))).map (leBytes 4)).flatten

/-- Bytes 0 to 123 of a v2 data frame. -/
def bodyV2 (f : DlFrame) : List Byte :=
  headBytes f ++
    leBytes 1 (b2n f.asym + 2 * b2n f.test + 4 * b2n f.nosvc + 8 * b2n f.nosmp + 16 * b2n f.ageInv + 32 * b2n f.rxLost) ++
    leBytes 1 (f.nch % 16 + 16 * (f.endBit % 2)) ++ leBytes 2 f.linkId ++ leBytes 2 f.txEpoch ++ leBytes 2 f.smpEpoch ++
    leBytes 4 f.txLtc ++ leBytes 4 f.echo ++ leBytes 4 f.hold ++ leBytes 8 f.txDtc ++ leBytes 8 f.smpStamp ++ leBytes 4 f.age ++
    octets (padZero 8 f.qual) ++ valueBytes f ++
    leBytes 1 f.mseq ++ leBytes 1 f.mack ++ leBytes 1 f.mlen ++ leBytes 1 f.mtype ++ octets (padZero 32 f.mdata)

/-- Bytes 0 to 57 of a v1 data frame. -/
def bodyV1 (f : DlFrame) : List Byte :=
  headBytes f ++ leBytes 1 (2 * b2n f.test + 4 * b2n f.nosvc + 8 * b2n f.nosmp) ++ leBytes 1 (f.nch % 16 + 16 * (f.endBit % 2)) ++
    leBytes 8 f.smpStamp ++ octets (padZero 8 f.qual) ++ valueBytes f

/-- A data frame with its CRC. -/
def dataBytes (f : DlFrame) : List Byte :=
  if f.ver = 1 then bodyV1 f ++ leBytes 2 (crc16 (bodyV1 f)) else bodyV2 f ++ leBytes 4 (crc32 (bodyV2 f))

/-- A negotiation frame. -/
def negBytes (ver fseq linkId endBit : Nat) : List Byte :=
  let b := leBytes 1 (ver % 16 + 16) ++ leBytes 1 fseq ++ leBytes 2 linkId ++ leBytes 1 (endBit % 2) ++ List.replicate 3 0
  b ++ leBytes 4 (crc32 b)

/-- A command block of C37.94. -/
def cmdBlock (bseq cmd p1 p2 : Nat) (test nosvc : Bool) : List Byte :=
  let b := leBytes 1 0xD5 ++ leBytes 1 bseq ++ leBytes 1 (b2n test + 2 * b2n nosvc) ++ leBytes 2 cmd ++ leBytes 2 p1 ++ leBytes 2 p2
  b ++ leBytes 2 (crc16 b)

/-- VER and TYPE of a frame. -/
def lineVer (b : List Byte) : Nat := fieldAt b 0 1 % 16
def lineType (b : List Byte) : Nat := fieldAt b 0 1 / 16

/-- A data frame as read; a v1 frame has no more than its table names. -/
def dataOf (b : List Byte) : DlFrame :=
  let v1 := lineVer b = 1
  let st := fieldAt b 8 1
  let o := if v1 then 10 else 36
  let q := if v1 then 18 else 48
  let head : DlFrame := { (default : DlFrame) with
    ver := lineVer b, fseq := fieldAt b 1 1, cmd := fieldAt b 2 2, cmdP1 := fieldAt b 4 2, cmdP2 := fieldAt b 6 2,
    test := st.testBit 1, nosvc := st.testBit 2, nosmp := st.testBit 3, nch := fieldAt b 9 1 % 16, endBit := fieldAt b 9 1 / 16 % 2,
    smpStamp := fieldAt b o 8, qual := (List.range 8).map (fun i => fieldAt b (q + i) 1),
    value := (List.range 8).map (fun i => sext 32 (fieldAt b (q + 8 + 4 * i) 4)) }
  if v1 then head
  else { head with
    asym := st.testBit 0, ageInv := st.testBit 4, rxLost := st.testBit 5, linkId := fieldAt b 10 2, txEpoch := fieldAt b 12 2,
    smpEpoch := fieldAt b 14 2, txLtc := fieldAt b 16 4, echo := fieldAt b 20 4, hold := fieldAt b 24 4, txDtc := fieldAt b 28 8,
    age := fieldAt b 44 4, mseq := fieldAt b 88 1, mack := fieldAt b 89 1, mlen := fieldAt b 90 1, mtype := fieldAt b 91 1,
    mdata := (List.range 32).map (fun i => fieldAt b (92 + i) 1) }

/-- The CRC is correct: CRC-16 where the frame has the length of a v1 data frame, else CRC-32 (DEDUCED, log entry 59). -/
def lineCrcOk (b : List Byte) : Bool :=
  let n := b.length
  if n = 60 then fieldAt b 58 2 = crc16 (b.take 58) else decide (4 < n) && fieldAt b (n - 4) 4 = crc32 (b.take (n - 4))

/-! ### States (R323, R330) -/

def dlOff : Nat := 0
def dlDown : Nat := 1
def dlNegotiate : Nat := 2
def dlRun : Nat := 3

def dlSt (s : State) (n : Nat) : Nat := s.f (Reg.DUC_DL_STAT_STATE n)

/-- The mode in force: 0 off, 1 Ductus, 2 C37.94; off while not enabled, absent or out of service (R1, R500). -/
def dlMode (s : State) (n : Nat) : Nat :=
  if s.on (Reg.DUC_DL_CFG_EN n) && !s.mem.oosDl.testBit n && !(s.is8120 && decide (2 ≤ n)) then s.f (Reg.DUC_DL_CFG_MODE n) else 0

/-- The block period of C37.94 in ns (R347). -/
def blockPeriod (s : State) (n : Nat) : Nat :=
  let k := max 1 (s.f (Reg.DUC_DL_CFG_N n))
  (11 + k - 1) / k * 125000

/-- Supervision time in ns (R332, R347). -/
def dlSuperv (s : State) (n : Nat) : Nat := if dlMode s n = 2 then max 2000000 (3 * blockPeriod s n) else 2000000

/-! ### Received command bits (R334, R335) -/

/-- The loss value of each bit, or the last received value where HOLD is set. -/
def lossWord (s : State) (n : Nat) : Nat :=
  let hold := s.f (Reg.DUC_DL_LOSS_HOLD n)
  (hold &&& (s.dl n).raw) ||| (s.f (Reg.DUC_DL_LOSS_LOSSV n) &&& (hold ^^^ 0xFFFF))

/-- A condition of R335 holds. -/
def dlLossy (s : State) (n : Nat) : Bool :=
  dlSt s n ≠ dlRun || s.on (Reg.DUC_DL_STAT_NOSVC n) || ((s.dl n).rxTest && s.sysState ≠ 4)

/-- The word as delivered; a change of it is one Ductus change for Stroke. -/
def deliverRx (s : State) (n : Nat) : State :=
  let w := if (s.dl n).lossy then lossWord s n else (s.dl n).raw
  if w = s.f (Reg.DUC_DL_STAT_RXCMD n) then s else dlChange (s.setF (Reg.DUC_DL_STAT_RXCMD n) w) n w

/-- A condition of R335 brings the loss values, which stand until a good frame meets none. -/
def showRx (s : State) (n : Nat) : State :=
  deliverRx (if dlLossy s n && !(s.dl n).lossy then s.setDl n { s.dl n with lossy := true } else s) n

/-- One received word is applied. -/
def applyCmd (n : Nat) (s : State) (w : Nat) : State := deliverRx (s.setDl n { s.dl n with raw := w % 65536 }) n

/-! ### Entering and leaving RUN (R331, R332) -/

/-- Tries made for messages not acknowledged. -/
def arqTries (x : DlState) : Nat := ((x.outQ.filter (fun m => m.first.isSome)).map (·.tries)).sum

/-- ARQ_TRIES counts the tries of a message that was not acknowledged before its second try fell due (R343). -/
def countTries (s : State) (n : Nat) (m : LinkMsg) : State :=
  match m.first with
  | some t => if t + 100000 ≤ s.ltc then s.incS (Reg.DUC_DL_CNT1_ARQ_TRIES n) m.tries else s
  | none => s

/-- RUN is left: the bits take their loss values. Messages stay outstanding until supervision expires (R332, R48). -/
def leaveRun (s : State) (n st : Nat) : State :=
  let s1 := s.setFs [(Reg.DUC_DL_STAT_STATE n, st), (Reg.DUC_DL_STAT_VER n, 0)]
  showRx (s1.setDl n { s1.dl n with offers := [], ver := 0, echo := none, fseqRx := none }) n

/-- The link is declared lost (R332): its delay is invalid and its messages go back undelivered. -/
def cancelMsgs (s : State) (n : Nat) : State :=
  let x := s.dl n
  let s1 := (x.outQ.foldl (fun t m => countTries t n m) s).incS (Reg.DUC_DL_CNT1_MSG_LOST n) x.outQ.length
  (s1.setDl n { s1.dl n with outQ := [], halves := [], recent := [], excl := 0, ms := [] }).setB (Reg.DUC_DL_STAT_DVALID n) false

/-- RUN is entered (R331): numbering and delay start anew; a message still outstanding is the first of the new numbering (DEDUCED,
log entry 59). -/
def enterRun (s : State) (n ver : Nat) : State :=
  let x := s.dl n
  let s1 := s.setFs [(Reg.DUC_DL_STAT_STATE n, dlRun), (Reg.DUC_DL_STAT_VER n, ver), (Reg.DUC_DL_STAT_DVALID n, 0)]
  let q := match x.outQ with
    | m :: rest => if m.first.isSome then ({ m with seq := 1 } :: rest, 2) else (x.outQ, 1)
    | [] => ([], 1)
  let s2 := s1.setDl n { x with ver := ver, offers := [], lastGood := s.ltc, superv := true, fseqRx := none, halves := [], recent := [], excl := 0,
                                ms := [], echo := none, outQ := q.1, nextSeq := q.2, mack := 0, checkAt := s.ltc, checkBad := 0 }
  s2.log Ev.DUC_LINK_UP n [.w ver]

/-- The receiver has synchronism and light. -/
def dlHears (s : State) (n : Nat) : Bool := (s.dl n).rxSync && !(s.dl n).los

/-- The state that mode and receiver call for (R330). -/
def dlSettle (s : State) (n : Nat) : State :=
  let st := dlSt s n
  if dlMode s n = 0 || dlMode s n = 3 then
    (if st = dlOff then s else if st = dlRun then leaveRun s n dlOff else s.setF (Reg.DUC_DL_STAT_STATE n) dlOff)
  else if !dlHears s n then (if st = dlRun then leaveRun s n dlDown else (s.setDl n { s.dl n with offers := [] }).setF (Reg.DUC_DL_STAT_STATE n) dlDown)
  else if st = dlOff || st = dlDown then (s.setDl n { s.dl n with offers := [] }).setF (Reg.DUC_DL_STAT_STATE n) dlNegotiate
  else s

/-- A committed epoch reaches the link (R440). -/
def dlCommit (s : State) (n : Nat) : State := showRx (dlSettle (takeCommit s (Reg.DUC_DL_CFG n) 0x100) n) n

/-- DUCTUS_RX_SYNC_CHANGE (R330). -/
def rxSyncChange (s : State) (n : Nat) (sync los : Bool) : State :=
  dlSettle (s.setDl n { s.dl n with rxSync := sync, los := los }) n

/-- DUC_LINK_LOST (R332): supervision expires; the event carries the tries made for the messages it cancels. -/
def linkLost (s : State) (n : Nat) : State :=
  let x := s.dl n
  if x.superv && decide (x.lastGood + dlSuperv s n ≤ s.ltc) then
    let tries := arqTries x
    let s1 := s.setDl n { x with superv := false }
    let s2 := cancelMsgs (if dlSt s n = dlRun then leaveRun s1 n dlNegotiate else s1) n
    (s2.incS (Reg.DUC_DL_CNT2_LOST n)).log Ev.DUC_LINK_LOST n [.w tries]
  else s

/-! ### Good frames (R329) -/

/-- Every field of a data frame lies within its range (R326, R328, R329): reserved bits and channels above NCH are 0, stamps hold less
than a second of ns, MSEQ and MLEN agree. -/
def dataRangeOk (b : List Byte) (f : DlFrame) : Bool :=
  let nsOk := fun (st : Nat) => decide (st / 4 % 2 ^ 30 < 1000000000)
  (fieldAt b 8 1 &&& (if f.ver = 1 then 0xF1 else 0xC0)) = 0 && decide (fieldAt b 9 1 < 32) && decide (f.nch ≤ 8) &&
    (f.qual.drop f.nch).all (· = 0) && (f.value.drop f.nch).all (· = 0) && nsOk f.smpStamp &&
    (f.ver = 1 || (nsOk f.txDtc && ((f.mseq = 0 && f.mlen = 0) || (f.mseq ≠ 0 && decide (1 ≤ f.mlen) && decide (f.mlen ≤ 32))) &&
      (f.mdata.drop f.mlen).all (· = 0)))

def frameLen (ver : Nat) : Nat := if ver = 1 then 60 else 128

/-- Why a data frame is not good (R329), judged with a version in place: 0 it is good, 1 code or CRC, 2 LINKID or END, 3 anything
else. A v1 frame has no LINKID (R328). -/
def dataKind (s : State) (n ver : Nat) (f : LineFrame) : Nat :=
  let d := dataOf f.bytes
  if !f.codeOk || !lineCrcOk f.bytes then 1
  else if !f.framed || lineType f.bytes ≠ 0 || f.bytes.length ≠ frameLen d.ver then 3
  else if (d.ver ≠ 1 && d.linkId ≠ s.f (Reg.DUC_DL_CFG_LINKID n)) || d.endBit = s.f (Reg.DUC_DL_CFG_END n) then 2
  else if d.ver ≠ ver || !dataRangeOk f.bytes d then 3
  else 0

/-- Why a negotiation frame is not good. -/
def negKind (s : State) (n : Nat) (f : LineFrame) : Nat :=
  let b := f.bytes
  if !f.codeOk || !lineCrcOk b then 1
  else if !f.framed || b.length ≠ 12 then 3
  else if fieldAt b 2 2 ≠ s.f (Reg.DUC_DL_CFG_LINKID n) || fieldAt b 4 1 % 2 = s.f (Reg.DUC_DL_CFG_END n) then 2
  else if (lineVer b ≠ 1 && lineVer b ≠ 2) || decide (1 < fieldAt b 4 1) || fieldAt b 5 3 ≠ 0 then 3
  else 0

/-- A frame that is not good is counted and used for nothing. -/
def countBad (s : State) (n kind endBit : Nat) : State :=
  let x := s.dl n
  if kind = 1 then s.incW (Reg.DUC_DL_CNT0_CRC_ERR n)
  else if kind = 2 then
    let s1 := s.incS (Reg.DUC_DL_CNT0_ID_ERR n)
    if endBit = s.f (Reg.DUC_DL_CFG_END n) then
      (if x.loopEp then s1 else (s1.setDl n { x with loopEp := true }).log Ev.DUC_LOOP n)
    else (if x.idEp then s1 else (s1.setDl n { x with idEp := true }).log Ev.DUC_ID_MISMATCH n)
  else s.incS (Reg.DUC_DL_CNT0_FMT_ERR n)

/-- A good frame ends the episodes of DUC_ID_MISMATCH and DUC_LOOP. -/
def endEpisodes (s : State) (n : Nat) : State := s.setDl n { s.dl n with idEp := false, loopEp := false }

/-! ### Negotiation (R331) -/

/-- A good frame offers a version; the third with consecutive FSEQ brings RUN. -/
def offer (s : State) (n ver fseq need : Nat) : State :=
  let x := s.dl n
  let next := x.offers ≠ [] && fseq = (x.offSeq + 1) % 256
  let os := if next then ver :: x.offers else [ver]
  if need ≤ os.length then
    let agreed := os.foldl min (s.f (Reg.DUC_DL_CFG_MAXVER n))
    enterRun (s.setDl n { x with offSeq := fseq }) n (if dlMode s n = 2 then 0 else agreed)
  else s.setDl n { x with offers := os, offSeq := fseq }

/-- A frame of TYPE 1. -/
def useNeg (s : State) (n : Nat) (f : LineFrame) : State :=
  let k := negKind s n f
  if k ≠ 0 then countBad s n k (fieldAt f.bytes 4 1 % 2)
  else
    let s1 := endEpisodes s n
    if dlSt s1 n = dlNegotiate then offer s1 n (lineVer f.bytes) (fieldAt f.bytes 1 1) 3 else s1

/-! ### Timing (R340 to R342) -/

def meanNear (l : List Nat) : Nat := if l = [] then 0 else (2 * l.sum + l.length) / (2 * l.length)

def within (a b d : Nat) : Bool := decide (a ≤ b + d) && decide (b ≤ a + d)

/-- A half value (R341). -/
def takeHalf (s : State) (n h : Nat) : State :=
  let x := s.dl n
  let dstep := s.f (Reg.DUC_DL_DLY_DSTEP n)
  let recent := (h :: x.recent).take 16
  if s.on (Reg.DUC_DL_STAT_DVALID n) then
    if within h (s.rd (Reg.DUC_DL_D n)) dstep then
      let hs := (h :: x.halves).take 16
      (s.setDl n { x with halves := hs, recent := recent, excl := 0, oldD := some (meanNear hs) }).setF (Reg.DUC_DL_D_D n) (meanNear hs)
    else
      let s1 := (s.setDl n { x with recent := recent, excl := x.excl + 1 }).incS (Reg.DUC_DL_CNT2_DEXCL n)
      if x.excl + 1 = 2 then s1.setB (Reg.DUC_DL_STAT_DVALID n) false else s1
  else
    let m := meanNear recent
    if recent.length = 16 && recent.all (fun v => within v m dstep) then
      let s1 := (s.setDl n { x with recent := recent, halves := recent, excl := 0, oldD := some m }).setFs
        [(Reg.DUC_DL_D_D n, m), (Reg.DUC_DL_STAT_DVALID n, 1)]
      match x.oldD with
      | some d => s1.log Ev.DUC_DELAY_STEP n [.w d, .w m]
      | none => s1
    else s.setDl n { x with recent := recent }

/-- ns of a compact stamp, its seconds within 2^32. -/
def stampSec (st : Nat) : Nat := st / 2 ^ 32 % 2 ^ 32
def stampFrac (st : Nat) : Nat := st / 4 % 2 ^ 30

/-- A stamp's ns against a local DTC in ns: seconds are taken modulo 2^32. -/
def sinceStamp (dtcNs st : Nat) : Int :=
  sext 32 (dtcNs / 1000000000 % 2 ^ 32 + 2 ^ 32 - stampSec st) * 1000000000 + ((dtcNs % 1000000000 : Nat) : Int) - (stampFrac st : Int)

/-- The ping-pong delay against PTP (R342), by means of 96 values; `tq` is the local TQ at RX. -/
def takeM (s : State) (n : Nat) (f : DlFrame) (rxNs tq : Nat) : State :=
  if f.txDtc % 4 = 0 && tq = 0 && f.txEpoch = s.rul.clk.epoch && s.on (Reg.DUC_DL_STAT_DVALID n) then
    let x := s.dl n
    let ms := (sinceStamp rxNs f.txDtc - (s.rd (Reg.DUC_DL_D n) : Int)) :: x.ms
    if ms.length < 96 then s.setDl n { x with ms := ms }
    else
      let m := ndiv (ms.foldl (· + ·) 0) 96
      let s1 := (s.setDl n { x with ms := [] }).setF (Reg.DUC_DL_MIS_M n) (tc 32 (ssat 32 m))
      let thr := s.f (Reg.DUC_DL_DLY_DMTHR n)
      if !s.on (Reg.DUC_DL_STAT_DMIS n) && thr < m.natAbs then (s1.setB (Reg.DUC_DL_STAT_DMIS n) true).log Ev.DUC_DELAY_MISMATCH n [.i m]
      else if s.on (Reg.DUC_DL_STAT_DMIS n) && 2 * m.natAbs ≤ thr then (s1.setB (Reg.DUC_DL_STAT_DMIS n) false).log Ev.DUC_DELAY_MATCH n
      else s1
  else s

/-- Round trip and mismatch of a good v2 frame (R340). -/
def takeTiming (s : State) (n : Nat) (f : DlFrame) (rx rxNs tq : Nat) : State :=
  let rt := (rx + 2 * 2 ^ 32 - f.echo % 2 ^ 32 - f.hold % 2 ^ 32) % 2 ^ 32
  let s1 := if f.hold ≠ 0xFFFFFFFF && rt < 20000000 then takeHalf s n ((rt + 1) / 2) else s
  takeM s1 n f rxNs tq

/-! ### Messages (R343 to R345) -/

/-- A context that takes stamps of a link and line (R247). -/
def twlocFor (s : State) (n line : Nat) : List Nat :=
  (List.range (contexts s)).filter (fun c => ncType s c = 0x25 && s.liveF c 32 0 2 = n && s.liveF c 32 4 8 = line)

/-- Little-endian number in a byte list. -/
def msgNat (d : List Nat) (o : Nat) : Nat → Nat
  | 0 => 0
  | k + 1 => d.getD o 0 % 256 + 256 * msgNat d (o + 1) k

/-- A message is accepted. -/
def takeMessage (s : State) (n : Nat) (f : DlFrame) : State :=
  if f.mtype = 1 then
    let line := f.mdata.getD 0 0
    if twlocFor s n line = [] then
      let x := s.dl n
      let s1 := s.incS (Reg.DUC_DL_CNT0_FMT_ERR n)
      if x.idEp then s1 else (s1.setDl n { x with idEp := true }).log Ev.DUC_ID_MISMATCH n
    else { s with nib := { s.nib with stamps := s.nib.stamps ++ [(n, line, ⟨f.mdata.getD 1 0, msgNat f.mdata 4 8, s.ltc⟩)] } }
  else if f.mtype = 2 then
    let x := s.dl n
    if f.mdata.take 16 = s.duc.hash.getD n [] then
      let s1 := s.setDl n { x with checkBad := 0 }
      if s.on (Reg.DUC_DL_STAT_SETMIS n) then (s1.setB (Reg.DUC_DL_STAT_SETMIS n) false).log Ev.DUC_SET_MATCH n else s1
    else
      let s1 := s.setDl n { x with checkBad := x.checkBad + 1 }
      if x.checkBad + 1 = 3 && !s.on (Reg.DUC_DL_STAT_SETMIS n) then (s1.setB (Reg.DUC_DL_STAT_SETMIS n) true).log Ev.DUC_SET_MISMATCH n else s1
  else s.incS (Reg.DUC_DL_CNT0_FMT_ERR n)

def nextMseq (m : Nat) : Nat := if m = 255 then 1 else m + 1

/-- Message and acknowledgement of a good v2 frame. -/
def takeChannel (s : State) (n : Nat) (f : DlFrame) : State :=
  let x := s.dl n
  let s1 := match x.outQ with
    | m :: rest => if f.mack ≠ 0 && m.first.isSome && m.seq = f.mack then countTries (s.setDl n { x with outQ := rest }) n m else s
    | [] => s
  let y := s1.dl n
  if f.mseq ≠ 0 && f.mseq = nextMseq y.mack then takeMessage (s1.setDl n { y with mack := f.mseq }) n f else s1

/-- A message joins the transmit queue of 16 (R343). -/
def queueMsg (s : State) (n mtype : Nat) (data : List Nat) : State :=
  let x := s.dl n
  if x.outQ.length < 16 then s.setDl n { x with outQ := x.outQ ++ [⟨mtype, data, 0, none, 0, 0, false⟩] } else s

/-! ### Samples (R338, R339) -/

/-- The rate a version carries. -/
def verRate (ver : Nat) : Nat := if ver = 1 then 4800 else 96000

def takeSample (s : State) (n : Nat) (f : DlFrame) (rxNs : Nat) : State :=
  let c := s.f (Reg.DUC_DL_RX_RXSC n)
  if s.on (Reg.DUC_DL_RX_RXEN n) && !f.nosmp && svState s c ≠ 0 && svRate s c = verRate f.ver then
    let rate := svRate s c
    let frac := stampFrac f.smpStamp
    let k := (2 * frac * rate + 1000000000) / 2000000000
    let off := ((frac * rate : Nat) : Int) - ((k * 1000000000 : Nat) : Int)
    if 100 * rate < off.natAbs || f.nch ≠ s.f (Reg.PBI_SC_CFG_NCHAN c) then s.incW (Reg.PBI_SC_CNT1_RULE c)
    else
      let sec := rxNs / 1000000000 / 2 ^ 32 * 2 ^ 32 + stampSec f.smpStamp
      let more := (if f.smpStamp % 4 = 3 then 8 else 0) ||| (if f.ageInv then 2 else 0)
      let epoch := if f.ver = 1 then s.rul.clk.epoch else f.smpEpoch
      let quals := (f.qual.take f.nch).map (fun q => (q &&& 0x7F) ||| more)
      svSample c (fun t => t.incW (Reg.PBI_SC_CNT1_LATE c)) s
        ⟨k % svWrap s c, ⟨sec * 1152000 + k * svStep s c, f.value.take f.nch, quals, f.smpStamp, epoch, f.asym, rxNs, f.age⟩, f.smpStamp % 4 = 3⟩
  else s

/-! ### Reception -/

/-- The words that a good frame applies, by its gap (R334). -/
def gapWords (last : Option Nat) (fseq cmd p1 p2 : Nat) : List Nat :=
  match last with
  | none => [cmd]
  | some l => let g := (fseq + 256 - l) % 256; if g = 2 then [p1, cmd] else if g = 3 then [p2, p1, cmd] else [cmd]

/-- Each good data frame: its gap is computed and counted (R334). -/
def takeGap (s : State) (n fseq : Nat) : State :=
  let x := s.dl n
  let s0 := s.setDl n { x with fseqRx := some fseq }
  match x.fseqRx with
  | none => s0
  | some last =>
    let g := (fseq + 256 - last) % 256
    if 1 ≤ g && g ≤ 3 then
      let s1 := s0.setDl n { s0.dl n with missEp := false }
      if g = 1 then s1 else s1.incS (Reg.DUC_DL_CNT1_CMD_GAP n)
    else
      let s1 := s0.incS (Reg.DUC_DL_CNT1_CMD_MISS n)
      if x.missEp then s1 else (s1.setDl n { s1.dl n with missEp := true }).log Ev.DUC_CMD_MISS n

/-- NOSVC and TEST of a good frame (R335). -/
def takeStatus (s : State) (n : Nat) (nosvc test : Bool) : State :=
  let x := s.dl n
  let bad := test && s.sysState ≠ 4
  let s1 := (s.setDl n { x with rxTest := test, testEp := bad }).setB (Reg.DUC_DL_STAT_NOSVC n) nosvc
  if bad && !x.testEp then s1.log Ev.DUC_TEST_RX n else s1

/-- The gap is counted; the words are applied, or the bits go to their loss values (R334, R335). -/
def takeBits (s : State) (n fseq cmd p1 p2 : Nat) : State :=
  let words := gapWords (s.dl n).fseqRx fseq cmd p1 p2
  let s1 := takeGap s n fseq
  if dlLossy s1 n then showRx s1 n else words.foldl (applyCmd n) (s1.setDl n { s1.dl n with lossy := false })

/-- A good data frame in RUN. -/
def goodFrame (s : State) (n : Nat) (r : LinkRx) : State :=
  let f := dataOf r.f.bytes
  let s1 := takeBits (takeStatus (endEpisodes s n) n f.nosvc f.test) n f.fseq f.cmd f.cmdP1 f.cmdP2
  let s2 := takeSample s1 n f r.dtcNs
  if f.ver = 2 then
    let s3 := s2.setFs [(Reg.DUC_DL_STAT_REM_ASYM n, b2n f.asym), (Reg.DUC_DL_STAT_REM_TQ n, f.txDtc)]
    let s4 := s3.setDl n { s3.dl n with echo := some (f.txLtc, r.ltc) }
    takeChannel (takeTiming s4 n f r.ltc r.dtcNs r.tq) n f
  else s2

/-- Why a command block is not good (R347): 0 it is good, 1 CRC, 3 anything else. -/
def blockKind (f : LineFrame) : Nat :=
  if fieldAt f.bytes 9 2 ≠ crc16 (f.bytes.take 9) then 1 else if !f.framed || fieldAt f.bytes 0 1 ≠ 0xD5 then 3 else 0

/-- A good command block in RUN. -/
def goodBlock (s : State) (n : Nat) (b : List Byte) : State :=
  takeBits (takeStatus (endEpisodes s n) n ((fieldAt b 2 1).testBit 1) ((fieldAt b 2 1).testBit 0)) n (fieldAt b 1 1) (fieldAt b 3 2) (fieldAt b 5 2)
    (fieldAt b 7 2)

/-- A received command block acts by the link's state (R331, R347). -/
def useBlock (s : State) (n : Nat) (f : LineFrame) : State :=
  let k := blockKind f
  if k ≠ 0 then countBad s n k 0
  else if dlSt s n = dlRun then goodBlock s n f.bytes
  else if dlSt s n = dlNegotiate then offer s n 1 (fieldAt f.bytes 1 1) 3
  else s

/-- A received data frame acts by the link's state (R329 to R331). -/
def useData (s : State) (n : Nat) (r : LinkRx) : State :=
  let st := dlSt s n
  if st = dlRun then
    let k := dataKind s n (s.dl n).ver r.f
    if k = 0 then goodFrame s n r else countBad s n k (dataOf r.f.bytes).endBit
  else if st = dlNegotiate then
    let d := dataOf r.f.bytes
    let k := dataKind s n (if d.ver = 1 then 1 else 2) r.f
    if k = 0 then offer (endEpisodes s n) n d.ver d.fseq 3 else countBad s n k d.endBit
  else s

/-- A frame from the buffer, by its TYPE (R326, R328, R347). -/
def useFrame (s : State) (n : Nat) (r : LinkRx) : State :=
  if r.block then useBlock s n r.f else if lineType r.f.bytes = 1 then useNeg s n r.f else useData s n r

/-- The frame waits in RUN while Stroke still holds the bits of 16 frames, or while its stream's 16 slots are occupied (R21, R25). -/
def frameStalls (s : State) (n : Nat) (r : LinkRx) : Bool :=
  dlSt s n = dlRun && (r.block || lineType r.f.bytes ≠ 1) && (decide (16 ≤ (s.stk.dlQ.get n).length) ||
    (!r.block && s.on (Reg.DUC_DL_RX_RXEN n) && !(dataOf r.f.bytes).nosmp && svStalled s (s.f (Reg.DUC_DL_RX_RXSC n))))

/-- Frames leave the receive buffer in order. -/
def drainLink (n : Nat) : Nat → State → State
  | 0, s => s
  | k + 1, s =>
    match (s.dl n).buf with
    | r :: rest => if frameStalls s n r then s else drainLink n k (useFrame (s.setDl n { s.dl n with buf := rest }) n r)
    | [] => s

/-- What a frame that ends now took from its byte 0 on, in ns: its bytes and the closing set, 8 ns each (R325). -/
def frameNs (f : LineFrame) : Nat := 8 * (f.bytes.length + 2)

/-- A frame that ends now as the buffer holds it. -/
def State.linkRx (s : State) (f : LineFrame) (block : Bool) : LinkRx :=
  ⟨f, (s.ltc + 2 ^ 32 - frameNs f) % 2 ^ 32, s.dtcNs - frameNs f, s.tqAt (s.dtcNs - frameNs f), block⟩

/-- A frame that counts for supervision (R332, R347): a good data frame, or a good command block, in RUN. -/
def frameCounts (s : State) (n : Nat) (f : LineFrame) (block : Bool) : Bool :=
  dlSt s n = dlRun && (if block then decide (blockKind f = 0) else decide (lineType f.bytes ≠ 1 ∧ dataKind s n (s.dl n).ver f = 0))

/-- A frame has arrived, its last character now (R329, R332): where the 4 KiB buffer has no room for it, it counts in RX_FULL. -/
def intoBuffer (s : State) (n : Nat) (f : LineFrame) (block : Bool) : State :=
  let x := s.dl n
  if 4096 < (x.buf.map (fun r => r.f.bytes.length)).sum + f.bytes.length then s.incS (Reg.DUC_DL_CNT2_RX_FULL n)
  else
    let s1 := s.setDl n { x with buf := x.buf ++ [s.linkRx f block], lastGood := if frameCounts s n f block then s.ltc else x.lastGood }
    dlCommit (drainLink n (x.buf.length + 1) s1) n

/-- A frame from the line. -/
def lineReceived (s : State) (n : Nat) (f : LineFrame) : State :=
  if dlMode s n = 1 && dlHears s n then intoBuffer s n f false else s

/-! ### Transmission (R325, R326, R333, R336, R337, R340, R343) -/

/-- At most one update enters a frame, and only one that came at least 0.20 us before (R333). -/
def takeUpdate (s : State) (n : Nat) : State :=
  let x := s.dl n
  match s.stk.pubOut.get (32 + n) with
  | q :: rest =>
    if q.at' + 200 ≤ s.ltc then
      (s.setStk { s.stk with pubOut := s.stk.pubOut.set (32 + n) rest }).setDl n { x with p2 := x.p1, p1 := x.cmd, cmd := q.bits, testTx := q.test }
    else s.setDl n { x with p2 := x.p1, p1 := x.cmd }
  | [] => s.setDl n { x with p2 := x.p1, p1 := x.cmd }

/-- The message that a frame carries: the head of the queue at its first try, or when it is due again. -/
def carryMsg (s : State) (n : Nat) : State × Option LinkMsg :=
  let x := s.dl n
  match x.outQ with
  | m :: rest =>
    match m.first with
    | none =>
      let m' : LinkMsg := { m with seq := x.nextSeq, first := some s.ltc, last := s.ltc, tries := 1, due := false }
      (s.setDl n { x with outQ := m' :: rest, nextSeq := nextMseq x.nextSeq }, some m')
    | some _ =>
      if m.due then
        let m' : LinkMsg := { m with last := s.ltc, tries := m.tries + 1, due := false }
        (s.setDl n { x with outQ := m' :: rest }, some m')
      else (s, none)
  | [] => (s, none)

/-- The source set that a frame carries, if one waits. -/
def carrySet (s : State) (n : Nat) : State × Option SampleSet :=
  let x := s.dl n
  if s.on (Reg.DUC_DL_TX_TXEN n) && 0 < x.unsent then
    (s.setDl n { x with unsent := x.unsent - 1 }, (s.sc (s.f (Reg.DUC_DL_TX_TXSC n))).ring[x.unsent - 1]?)
  else (s, none)

/-- Source channel of frame channel i (DUC_DLn_TXMAPk). -/
def txChan (s : State) (n i : Nat) : Nat := s.rd (Reg.DUC_DL_TXMAP n (i / 4)) / 256 ^ (i % 4) % 32

/-- A data frame of the agreed version, its byte 0 after the opening set, 16 ns from now (R325). -/
def dataFrame (s : State) (n : Nat) (set : Option SampleSet) (msg : Option LinkMsg) : DlFrame :=
  let x := s.dl n
  let nch := s.f (Reg.DUC_DL_TX_NCH n)
  let chans := if set.isSome then (List.range nch).map (txChan s n) else []
  let z := set.getD default
  let at' := s.ltc + 16
  { ver := x.ver, linkId := s.f (Reg.DUC_DL_CFG_LINKID n),
    endBit := s.f (Reg.DUC_DL_CFG_END n), fseq := x.fseqTx, cmd := x.cmd, cmdP1 := x.p1, cmdP2 := x.p2, asym := s.on Reg.RUL_TQ_ASYM,
    test := x.testTx, nosvc := !s.running, nosmp := set.isNone, ageInv := set.isSome && decide (z.epoch ≠ s.rul.clk.epoch),
    rxLost := decide (x.lastGood + 1000000 ≤ s.ltc), nch := nch, txEpoch := s.rul.clk.epoch, smpEpoch := z.epoch,
    txLtc := at' % 2 ^ 32, echo := (x.echo.map (·.1)).getD 0,
    hold := match x.echo with | some e => (at' + 2 ^ 32 - e.2 % 2 ^ 32) % 2 ^ 32 | none => 0xFFFFFFFF,
    txDtc := stampNs (s.dtcNs + 16) s.tq, smpStamp := z.stamp, age := if set.isSome then tc 32 (sinceStamp (s.dtcNs + 16) z.stamp) else 0,
    qual := chans.map (fun c => z.quals.getD c 1), value := chans.map (fun c => z.vals.getD c 0),
    mseq := (msg.map (·.seq)).getD 0, mack := x.mack, mlen := (msg.map (·.data.length)).getD 0, mtype := (msg.map (·.mtype)).getD 0,
    mdata := (msg.map (·.data)).getD [] }

/-- What DTC gains in one ns of LTC, in u (R50, R69). -/
def dtcRate (s : State) : Int := uPerNs + (s.dom s.sel).freq + slewStep s

/-- A frame may start (R325): none has been sent for the tick that has come, and LTC stands on the first 8 ns character boundary at or
after it. -/
def tickDue (s : State) (n : Nat) : Bool :=
  let c := s.rul.clk
  !c.gridOff && decide (0 < c.tick) && (s.dl n).tickTx ≠ some (c.epoch, c.tick) && s.ltc % 8 = 0 &&
    decide (tickTime (c.tick - 1) ≤ c.dtc) && decide (c.dtc - 8 * dtcRate s < tickTime (c.tick - 1))

/-- DUCTUS_FRAME_START (R325): the frame of the present tick. -/
def dlStart (s0 : State) (n : Nat) : State :=
  let s := dlCommit s0 n
  let st := dlSt s n
  if dlMode s n = 1 && tickDue s n && st ≠ dlOff then
    let s1 := s.setDl n { s.dl n with fseqTx := ((s.dl n).fseqTx + 1) % 256, tickTx := some (s.rul.clk.epoch, s.rul.clk.tick), startAt := some s.ltc }
    if st = dlRun then
      let s2 := takeUpdate s1 n
      let a := carrySet s2 n
      let b := if (a.1.dl n).ver = 2 then carryMsg a.1 n else (a.1, none)
      putLine b.1 n (dataBytes (dataFrame b.1 n a.2 b.2))
    else
      putLine s1 n (negBytes (s.f (Reg.DUC_DL_CFG_MAXVER n)) (s1.dl n).fseqTx (s.f (Reg.DUC_DL_CFG_LINKID n)) (s.f (Reg.DUC_DL_CFG_END n)))
  else s

/-- MESSAGE_RETRY (R343): 100 us after an unacknowledged try, up to 3 tries. -/
def messageRetry (s : State) (n : Nat) : State :=
  let x := s.dl n
  match x.outQ with
  | m :: rest =>
    if m.first.isSome && m.tries < 3 && !m.due && decide (m.last + 100000 ≤ s.ltc) then s.setDl n { x with outQ := { m with due := true } :: rest } else s
  | [] => s

/-- DUC_MSG_LOST (R343): 2 ms after the first try; a loss of the link at the same LTC governs (R332). -/
def msgLost (s : State) (n : Nat) : State :=
  let x := s.dl n
  match x.outQ with
  | m :: rest =>
    match m.first with
    | some t =>
      if t + 2000000 ≤ s.ltc && !(x.superv && decide (x.lastGood + dlSuperv s n ≤ s.ltc)) then
        ((countTries (s.setDl n { x with outQ := rest }) n m).incS (Reg.DUC_DL_CNT1_MSG_LOST n)).log Ev.DUC_MSG_LOST n [.w m.mtype, .w m.tries]
      else s
    | none => s
  | [] => s

/-- SETTINGS_CHECK_SEND (R345): once per second in RUN. -/
def settingsCheck (s : State) (n : Nat) : State :=
  let x := s.dl n
  if dlSt s n = dlRun && x.ver = 2 && decide (x.checkAt + 1000000000 ≤ s.ltc) then
    queueMsg (s.setDl n { x with checkAt := s.ltc }) n 2 (s.duc.hash.getD n [])
  else s

/-! ### C37.94 (R346, R347) -/

/-- The slots that a block fills: 11 bytes, the rest 0, in whole frames of N slots (R347). -/
def slotBytes (s : State) (n : Nat) (b : List Byte) : List Byte :=
  let k := max 1 (s.f (Reg.DUC_DL_CFG_N n))
  b ++ List.replicate ((11 + k - 1) / k * k - b.length) 0

/-- C3794_BLOCK_START: the block period has passed since the last one. -/
def blockStart (s0 : State) (n : Nat) : State :=
  let s := dlCommit s0 n
  let due := match (s.dl n).blockAt with | some t => decide (t + blockPeriod s n ≤ s.ltc) | none => true
  if dlMode s n = 2 && dlSt s n ≠ dlOff && due then
    let s1 := takeUpdate (s.setDl n { s.dl n with fseqTx := ((s.dl n).fseqTx + 1) % 256, blockAt := some s.ltc }) n
    let x := s1.dl n
    s1.setDl n { x with sent := slotBytes s1 n (cmdBlock x.fseqTx x.cmd x.p1 x.p2 x.testTx (!s.running)), yellow := dlSt s1 n ≠ dlRun }
  else s

/-- A command block is received; the yellow bit of its frames shows at once (R346). -/
def blockReceived (s : State) (n : Nat) (b : CBlock) : State :=
  if dlMode s n = 2 && dlHears s n then intoBuffer (s.setB (Reg.DUC_DL_STAT_REM_YELLOW n) b.yellow) n ⟨b.framed, true, b.bytes⟩ true else s

/-! ### Starts -/

/-- Links at a start (R335): every received bit of a link that exists at its loss value (R259); links go on from DOWN. -/
def linksStart (s : State) : State :=
  let s1 := (List.range 4).foldl (fun t n => t.setDl n { (default : DlState) with rxSync := (s.dl n).rxSync, los := (s.dl n).los, line := idleSet }) s
  (List.range (if s.is8120 then 2 else 4)).foldl (fun t n =>
    let w := t.f (Reg.DUC_DL_LOSS_LOSSV n)
    let u := (t.setDl n { t.dl n with raw := w, lossy := true }).setFs [(Reg.DUC_DL_STAT_RXCMD n, w), (Reg.DUC_DL_STAT_REM_TQ n, 3)]
    dlSettle (if w = 0 then u else dlChange u n w) n) s1

/-! ### Meanings -/

def execDuctusFrameStart (dl : Fin 4) (s : State) : Host.Outcome State Fault Refusal := .next (dlStart s dl)

def execDuctusFrameReceived (dl : Fin 4) (f : LineFrame) (s : State) : Host.Outcome State Fault Refusal := .next (lineReceived s dl f)

def execNegotiationFrameReceived (dl : Fin 4) (f : LineFrame) (s : State) : Host.Outcome State Fault Refusal := .next (lineReceived s dl f)

def execDucLinkLost (dl : Fin 4) (s : State) : Host.Outcome State Fault Refusal := .next (linkLost s dl)

def execDuctusRxSyncChange (dl : Fin 4) (sync los : Bool) (s : State) : Host.Outcome State Fault Refusal := .next (rxSyncChange s dl sync los)

def execMessageRetry (dl : Fin 4) (s : State) : Host.Outcome State Fault Refusal := .next (messageRetry s dl)

def execDucMsgLost (dl : Fin 4) (s : State) : Host.Outcome State Fault Refusal := .next (msgLost s dl)

def execSettingsCheckSend (dl : Fin 4) (s : State) : Host.Outcome State Fault Refusal := .next (settingsCheck s dl)

def execC3794BlockStart (dl : Fin 4) (s : State) : Host.Outcome State Fault Refusal := .next (blockStart s dl)

def execC3794BlockReceived (dl : Fin 4) (b : CBlock) (s : State) : Host.Outcome State Fault Refusal := .next (blockReceived s dl b)

end Sys2Proof.Machine
end

