-- ==== Sys2Proof/Machine/Nib.lean ====
section
/-! DEFINITION. The engines (spec/05 R153 to R189): service states, settings switches, dispatch, completion, decision flits,
host-assisted contexts; TWDET and TWLOC (spec/07 R238 to R251). -/

namespace Sys2Proof.Machine

/-! ### Words and flits (R166, R169, R186) -/

def inFallback (s : State) (c : Nat) : Bool := s.on (Reg.NIB_NC_CTRL_FB c)

/-- The word that stands last: the youngest change waiting, else the word delivered. -/
def pendingWord (s : State) (c : Nat) : Nat :=
  match (s.eng (c / 16)).due.reverse.find? (fun p => p.1 = c) with
  | some p => p.2
  | none => (s.nc c).delivered

/-- A word becomes due where it differs from the one that stands (R169). -/
def wantWord (s : State) (c w : Nat) : State := if pendingWord s c = w then s else outputDue s c w

/-- The output word of a context's state (R156): hardware decision, or the applied word in HOST_ASSISTED. -/
def shownWord (x : NcState) : Nat := if x.svc = 0 then 0 else if x.svc = 3 then x.applied else x.hw

/-- A new hardware decision; in fallback REVERT the applied word follows it (R187). -/
def takeHw (s : State) (c w : Nat) : State :=
  let x := s.nc c
  let follow := decide (x.svc = 3) && inFallback s c && decide (ncFallback s c = 2)
  s.setNc c { x with hw := w, applied := if follow then w else x.applied }

/-- A change of the hardware decision without an evaluation (R242). -/
def hwChange (s : State) (c w : Nat) : State :=
  let s1 := takeHw s c w
  wantWord s1 c (shownWord (s1.nc c))

/-- The applied word changes between evaluations (R186, R187). -/
def applyWord (s : State) (c w : Nat) : State :=
  let s1 := s.setNc c { s.nc c with applied := w }
  wantWord s1 c w

/-- An entry of a flit (R169), and the delivered word. -/
def makeEntry (s : State) (c w : Nat) : State × Decision :=
  let x := s.nc c
  let s1 := (s.setNc c { x with delivered := w, delivNs := x.hwNs }).setF (Reg.NIB_NC_OUT_OUT c) w
  (s1, ⟨c, w, x.hwNs, x.hwStamp, decide (x.svc = 2), w &&& (0xFF ^^^ x.delivered)⟩)

def makeEntries (s : State) : List (Nat × Nat) → State × List Decision
  | [] => (s, [])
  | (c, w) :: t =>
    let r := makeEntry s c w
    let q := makeEntries r.1 t
    (q.1, r.2 :: q.2)

/-- Decision credits of an engine are all out (R21). -/
def flitBlocked (s : State) (e : Nat) : Bool := decide (16 ≤ (s.nib.toStroke.filter (fun p => p.1 = e)).length)

/-- A flit leaves with the oldest `n` changes due, if there are any (R169). -/
def sendFlit (s : State) (e n : Nat) : State :=
  let x := s.eng e
  if x.due.take n = [] then s
  else
    let r := makeEntries (s.setEng e { x with due := x.due.drop n, lastFlit := s.ltc }) (x.due.take n)
    decisionSend r.1 e r.2

/-- OUTPUT_LOGIC_FLIT (R169): no evaluation runs and 0.30 us have passed since the engine's previous flit. -/
def outputLogicFlit (s : State) (e : Nat) : State :=
  let x := s.eng e
  if x.run.isNone && x.due ≠ [] && decide (x.lastFlit + 300 ≤ s.ltc) && !flitBlocked s e then sendFlit s e 4 else s

/-! ### Records of HOST_ASSISTED (R183, R184, R187) -/

/-- An outstanding record is resolved: its credit returns (R183). Reason 0 deadline, 1 answered, 2 cancelled. -/
def endRecord (s : State) (c reason : Nat) : State :=
  let x := s.nc c
  match x.out with
  | some r =>
    let reg := Reg.HST_MREC_OUT (c / 16)
    (s.setNc c { x with out := none, resolved := x.resolved ++ [(r.rseq, reason)] }).setF reg (setBitOf (s.f reg) r.slot false)
  | none => s

/-- Entry into fallback (R187). An accepted word that has not been applied yet is dropped: the entry comes after the ASSERT (DESIGN
CHOICE, log entry 54). -/
def enterFallback (s : State) (c signals rseq : Nat) : State :=
  let k := ncFallback s c
  let x := s.nc c
  let s1 := ((s.setNc c { x with accept := none }).setB (Reg.NIB_NC_CTRL_FB c) true).incS (Reg.NIB_NC_CNT1_HA_FB c)
  let s2 := s1.log Ev.HA_FALLBACK c [.w signals, .w rseq, .w k]
  if k = 1 then applyWord s2 c 0x40 else if k = 2 then applyWord s2 c x.hw else s2

/-- The LTC at which an outstanding record expires: issue plus the DEADLINE in force at the issue (R184). -/
def recDeadline (r : MRec) : Nat := r.deadline

/-- Quarters of its deadline. -/
def recQuarter (r : MRec) : Nat := (r.deadline - r.at') / 4

/-- HA_RESIGNAL (R184). -/
def haResignal (s : State) (c : Nat) : State :=
  let x := s.nc c
  match x.out with
  | some r =>
    if r.signals < 3 && decide (r.at' + (r.signals + 1) * recQuarter r ≤ s.ltc) && decide (s.ltc < recDeadline r) then
      (s.setNc c { x with out := some { r with signals := r.signals + 1 } }).irq (8 + c / 16)
    else s
  | none => s

/-- HA_FALLBACK (R187): the deadline of a record expires. -/
def haFallback (s : State) (c : Nat) : State :=
  match (s.nc c).out with
  | some r => if recDeadline r ≤ s.ltc then enterFallback (endRecord s c 0) c r.signals r.rseq else s
  | none => s

/-- The pace alarm moves a context to its fallback (R30). In a context already there it ends the record outstanding, as a deadline
expiry, and does nothing more (R31, R188). -/
def paceFallback (s : State) (c : Nat) : State :=
  let x := s.nc c
  if x.svc = 3 && inFallback s c then endRecord s c 0
  else if x.svc = 3 then
    match x.out with
    | some r => enterFallback (endRecord s c 0) c r.signals r.rseq
    | none => enterFallback s c 0 (s.f (Reg.NIB_NC_RSEQ_RSEQ c))
  else s

/-- A late ASSERT is counted, and logged once for each episode (R185). -/
def assertLate (s : State) (c : Nat) : CmdOut :=
  let x := s.nc c
  let s1 := s.incS (Reg.NIB_NC_CNT1_HA_LATE c)
  refuse (if x.late then s1 else (s1.setNc c { x with late := true }).log Ev.HA_LATE c) stTIMEOUT

/-- ASSERT (R185), its conditions in the order of the table. -/
def assertBody (n : Nat) (s : State) (k : Cmd) : CmdOut :=
  let c := k.arg 0 2
  let w := k.arg 2 1
  let rseq := k.arg 4 4
  let x := s.nc c
  if s.level n = 2 then refuse s stPRIV
  else
    let done := (x.resolved.reverse.find? (fun p => p.1 = rseq)).map (·.2)
    let live := match x.out with | some r => decide (r.rseq = rseq) | none => false
    if contexts s ≤ c || w.testBit 7 || !k.zero 3 4 || !k.zero 8 32 || (done.isNone && !live) then refuse s stARG
    else if x.svc ≠ 3 || (!live && done = some 2) then refuse s stSTATE
    else if !live && done = some 0 then assertLate s c
    else match x.out with
      | some r =>
        if !live then refuse s stSTATE
        else if recDeadline r ≤ s.ltc then assertLate s c
        else
          let s1 := endRecord s c 1
          okay (s1.setNc c { s1.nc c with accept := some w, late := false })
      | none => refuse s stSTATE

/-- The word a host gives as it is applied (R186). -/
def hostWord (w : Nat) : Nat := if w.testBit 6 then w &&& 0xE0 else w

/-- One accepted word is applied; fallback ends (R186, R187). -/
def applyAccepted (s : State) (c : Nat) : State :=
  let x := s.nc c
  match x.accept with
  | some w =>
    let s1 := s.setNc c { x with accept := none }
    let s2 := if inFallback s1 c then (s1.setB (Reg.NIB_NC_CTRL_FB c) false).log Ev.HA_RESUMED c else s1
    applyWord s2 c (hostWord w)
  | none => s

/-- The contexts of an engine. -/
def engCtx (e : Nat) : List Nat := (List.range 16).map (fun k => 16 * e + k)

/-- HA_WORD_APPLY (R186): between two evaluations of the engine. -/
def haWordApply (s : State) (e : Nat) : State := if (s.eng e).run.isNone then (engCtx e).foldl applyAccepted s else s

/-- The 64 bytes of a measurement record (R183). -/
def measBytes (c hw qsum rseq stamp epoch flags applied due : Nat) (meas : List Nat) : List Byte :=
  leBytes 2 c ++ leBytes 1 hw ++ leBytes 1 qsum ++ leBytes 4 rseq ++ leBytes 8 stamp ++ leBytes 2 epoch ++ leBytes 1 flags ++
    leBytes 1 applied ++ leBytes 4 due ++ (List.range 8).flatMap (fun i => leBytes 4 (meas.getD i 0)) ++ leBytes 8 0

/-- A record is issued at an evaluation of HOST_ASSISTED (R183), or skipped. -/
def issueRecord (s : State) (c qsum stamp epoch flags : Nat) (meas : List Nat) : State :=
  let x := s.nc c
  let s0 := s.setNc c { x with evals := x.evals + 1 }
  if x.evals % max 1 (ncM s c) ≠ 0 || s.on Reg.SYS_PACE_ALARM_ALARM then s0
  else if x.out.isSome then s0.incS (Reg.NIB_NC_CNT1_HA_SKIP c)
  else
    let e := c / 16
    let reg := Reg.HST_MREC_OUT e
    match (List.range 16).find? (fun k => !(s.f reg).testBit k) with
    | some slot =>
      let last := s.f (Reg.NIB_NC_RSEQ_RSEQ c)
      let rseq := if last = 2 ^ 32 - 1 then 1 else last + 1
      let s1 := s0.setNc c { s0.nc c with out := some ⟨rseq, slot, s.ltc, 0, s.ltc + ncDeadline s c * 1000⟩ }
      let s2 := (s1.setF (Reg.NIB_NC_RSEQ_RSEQ c) rseq).setF reg (setBitOf (s.f reg) slot true)
      let s3 := s2.inkWrite (0x42000 + e * 0x400 + slot * 64)
        (measBytes c x.hw qsum rseq stamp epoch flags x.applied (s.ltc + ncDeadline s c * 1000) meas)
      s3.irq (8 + e)
    | none => s0.incS (Reg.NIB_NC_CNT1_HA_SKIP c)

/-! ### Service states (R156 to R159, R164) -/

/-- NIB_NC_CTRL shows the settings and the state. -/
def noteCtrl (s : State) (c : Nat) : State :=
  s.setFs [(Reg.NIB_NC_CTRL_TYPE c, ncType s c), (Reg.NIB_NC_CTRL_SVC c, ncSvcField s c), (Reg.NIB_NC_CTRL_HA c, b2n (decide ((s.nc c).svc = 3))),
    (Reg.NIB_NC_CTRL_FALLBACK c, ncFallback s c)]

/-- The state block is initialised (R159, R164). Its host-assisted bookkeeping goes with it: the record outstanding is cancelled, an
accepted word is dropped, the applied word is 0 and fallback ends (DESIGN CHOICE, log entry 63). -/
def initState (s : State) (c : Nat) : State :=
  let s1 := endRecord s c 2
  let x := s1.nc c
  (s1.setNc c { x with hist := [], est := [], applied := 0, accept := none, evals := 0, tw := [], wave := default }).setFs
    [(Reg.NIB_NC_CTRL_FILLING c, b2n (decide (ncClass s c ≠ 3))), (Reg.NIB_NC_CTRL_FB c, 0)]

/-- The context leaves HOST_ASSISTED: its record is cancelled without a fallback event (R158). -/
def leaveHa (s : State) (c : Nat) : State :=
  if (s.nc c).svc = 3 then
    let s1 := endRecord s c 2
    ((s1.setNc c { s1.nc c with accept := none }).setB (Reg.NIB_NC_CTRL_FB c) false).log Ev.CTX_MODE c [.w 0]
  else s

/-- Evaluations queued for a context that is no longer served: dropped, and their sets' credits return (R24, R154). -/
def dropQueued (s : State) (c : Nat) : State :=
  let x := s.eng (c / 16)
  let mine := x.queue.filter (fun q => q.ctx = c)
  let s1 := s.setEng (c / 16) { x with queue := x.queue.filter (fun q => q.ctx ≠ c) }
  mine.foldl (fun t q => if q.ev.isSome then t else creditStart t (bindStream t c 0) c (q.instant + ncLag t c * lagStep (ncClass t c))) s1

/-- OUT_OF_SERVICE is entered: word 0x00 once (R156). -/
def goOut (s : State) (c : Nat) : State :=
  if (s.nc c).svc = 0 then s
  else outputDue (dropQueued (svcEntered (leaveHa s c) c 0) c) c 0

/-- An SVC field made live (R157). -/
def applySvc (s : State) (c v : Nat) : State :=
  let now := (s.nc c).svc
  if v = 0 then goOut s c
  else if v = 2 then
    (if now = 2 then s else svcEntered (leaveHa (if now = 0 then initState s c else s) c) c 2)
  else if v = 1 then
    (if now = 0 then svcEntered (initState s c) c 1 else if now = 2 then svcEntered s c 1 else s)
  else s

/-- MODE_SET of an element decision takes effect (R157, R183, R188). -/
def takeEvalMode (s : State) (c : Nat) : State :=
  match modePending s 4 c with
  | some ha =>
    let x := s.nc c
    let s1 :=
      if ha && x.svc = 1 then (s.setNc c { x with svc := 3, applied := x.hw, accept := none, evals := 0 }).log Ev.CTX_MODE c [.w 1]
      else if !ha && x.svc = 3 then
        let t := leaveHa s c
        t.setNc c { t.nc c with svc := 1 }
      else s
    modeTaken (noteCtrl s1 c) 4 c
  | none => s

/-- A pending confirmation ends unconfirmed (R241). -/
def twUnconfirmed (s : State) (c : Nat) : State :=
  let x := s.nc c
  match x.wave.pend with
  | some p => hwChange ((s.setNc c { x with wave := { x.wave with pend := none } }).log Ev.TWDET_UNCONFIRMED c [.q p.1.stamp]) c 0
  | none => s

/-- c and H of every stage cleared (R199). -/
def clearStages (e : Tab Int) : Tab Int := (List.range 3).foldl (fun e j => estSet (estSet e (16 * j + 1) 0) (16 * j + 2) 0) e

/-- The polarising memories discarded (R199). -/
def clearMemories (e : Tab Int) : Tab Int := (List.range 3).foldl (fun e j => estSet (estSet (estSet (estSet e (16 * j + 10) 0) (16 * j + 11) 0) (16 * j + 12) 0) (16 * j + 13) 0) e

/-- What a change of settings does to the stored state (R199, R232, R241); a change of FBMODE in fallback is a change of mode (R253); `o` is the state with the old settings. -/
def settingsEffect (o s : State) (c : Nat) : State :=
  let t := ncType s c
  let moved := fun w lo n => decide (o.liveF c w lo n ≠ s.liveF c w lo n)
  let s1 :=
    if (ncClass s c = 1 && moved 0 10 1) || ([0x20, 0x21, 0x22, 0x23].contains t && moved 32 0 2) || ([0x20, 0x21].contains t && moved 32 2 6)
    then initState s c else s
  let x := s1.nc c
  let e1 := if [1, 2, 3, 9].contains t && decide ((ocCurve o c = 0) ≠ (ocCurve s c = 0)) then clearStages x.est else x.est
  let e2 := if t = 3 && moved 40 0 3 then clearMemories e1 else e1
  let s2 := s1.setNc c { x with est := e2 }
  let s3 := if t = 0x26 && moved 32 5 1 && ddFallback (s2.nc c) then
      s2.setNc c { s2.nc c with est := estSet (estSet (s2.nc c).est (slotComp 0) 0) 1 0 } else s2
  if t = 0x24 && moved 32 0 9 then twUnconfirmed s3 c else s3

/-- The committed settings of a context become live (R40). -/
def contextSwitch (s : State) (c : Nat) : State :=
  if commitWaits s (nibKey c 0) 128 then
    let svc := commitWaits s (nibKey c 0) 1
    let s1 := takeCommit s (nibKey c 0) 128
    let s2 := settingsEffect s s1 c
    noteCtrl (if svc then applySvc s2 c (ncSvcField s2 c) else s2) c
  else s

/-- CONTEXT_SETTINGS_SWITCH (R440): no evaluation of the context started within 208.3 us of the commit. -/
def contextSettingsSwitch (s : State) (c : Nat) : State :=
  match s.sys.commit with
  | some (_, _, at') => if at' + 208300 ≤ s.ltc && (s.eng (c / 16)).run.isNone then contextSwitch s c else s
  | none => s

/-- The settings block is lost in both copies (R157, R164, R500). -/
def contextOos (s : State) (c : Nat) : State := noteCtrl (oosHealth ((goOut s c).log Ev.CTX_MEM_OOS c)) c

/-! ### Dispatch (R38 to R40, R168, R172) -/

/-- Order of two queued evaluations (R39). A wavefront event's instant is its stamp. -/
def queuedBefore (s : State) (a b : Queued) : Bool :=
  let ka := ncClass s a.ctx
  let kb := ncClass s b.ctx
  let ia := match a.ev with | some v => v.ns | none => a.instant
  let ib := match b.ev with | some v => v.ns | none => b.instant
  decide (kb < ka) || (decide (ka = kb) && (decide (ia < ib) || (decide (ia = ib) && decide (a.ctx < b.ctx))))

def pickQueued (s : State) : List Queued → Option Queued
  | [] => none
  | a :: t => match pickQueued s t with
    | some b => some (if queuedBefore s b a then b else a)
    | none => some a

/-- The block signal (R168). -/
def blockSignal (s : State) (c : Nat) : Bool := ncBlkEn s c && s.qil.qb.testBit (ncBlkSrc s c)

/-- A value that was missing carries the epoch of the evaluated instant and the TQ in force then (R54). -/
def onInstant (s : State) (inst : Instant) (epoch : Nat) (p : Hist × Bool) : Hist :=
  if p.2 then p.1 else { p.1 with epoch := epoch, tq := s.tqIn epoch (nsOfInstant inst) }

/-- What an evaluation reads from the stream rings (R172): values and the bindings missing. -/
def readInputs (s : State) (c : Nat) (inst : Instant) (epoch : Nat) : State × List Hist × Nat :=
  if ncType s c = 0x26 then
    let r := ddRead s c inst
    (r.1, (match r.2.1 with | h :: t => onInstant s inst epoch (h, (readBinding s c 0 inst).2) :: t | [] => []), r.2.2)
  else
    let l := (List.range (ncNbind s c)).map (fun i => readBinding s c i inst)
    (s, l.map (onInstant s inst epoch), (l.filter (fun p => !p.2)).length)

/-- ALIGN_MISS counts, and is logged at the first miss of an episode (R172). -/
def noteMiss (s : State) (c missed : Nat) : State :=
  let x := s.nc c
  let s1 := (s.incS (Reg.NIB_NC_CNT0_ALIGN_MISS c) missed).setNc c { x with missEp := decide (0 < missed) }
  if 0 < missed && !x.missEp then s1.log Ev.ALIGN_MISS c else s1

/-- An evaluation starts (R38). -/
def startEval (s : State) (e : Nat) (q : Queued) : State :=
  let c := q.ctx
  let wav := q.ev.isSome
  let s1 := if wav then s else creditStart s (bindStream s c 0) c (q.instant + ncLag s c * lagStep (ncClass s c))
  let r := if wav then (s1, [], 0) else readInputs s1 c q.instant q.epoch
  let s2 := if wav then r.1 else noteMiss r.1 c r.2.2
  let x := s2.eng e
  (s2.setEng e { x with run := some ⟨q, r.2.1, r.2.2, blockSignal s2 c, decide (ncType s2 c = 7) && bfpSources s2 c, s2.ltc⟩ }).setB (Reg.NIB_NE_STAT_BUSY e) true

/-- EVALUATION_DISPATCH: the engine is free and picks its next queued context (R38 to R40, R157, R164). -/
def evaluationDispatch (s : State) (e : Nat) (settings state : Ecc) : State :=
  let x := s.eng e
  if x.run.isSome || !s.running then s
  else match pickQueued s x.queue with
    | none => s
    | some q =>
      let c := q.ctx
      let s1 := memNote s settings
      if ownerLost s1 settings (nibKey c 0) 128 then contextOos s1 c
      else
        let s2 := takeEvalMode (contextSwitch s1 c) c
        let s3 := memNote s2 state
        let s4 := if s2.lost state then (initState s3 c).log Ev.CTX_STATE_RESET c else s3
        if (s4.nc c).svc = 0 then dropQueued s4 c
        else
          let y := s4.eng e
          startEval (s4.setEng e { y with queue := y.queue.erase q }) e q

/-! ### Completion of AC and DCF evaluations -/

/-- Newest values enter the windows. -/
def pushHist (x : NcState) (ins : List Hist) : NcState :=
  { x with hist := ((List.range ins.length).zip ins).foldl (fun h p => h.set p.1 ((p.2 :: h.get p.1).take 97)) x.hist }

/-- Result of an evaluation before it is delivered: word, stored state, measurements, flags of the block. -/
structure EvalOut where
  word : Nat
  est : Tab Int
  meas : List Nat
  flags : Nat
  fault : Bool
  filling : Bool

/-- Slots of the stored state that stand above blocking: the count of evaluations and the alignment of DCDIFF. -/
def keepSlots (lo : Nat) (e : Tab Int) : Tab Int := e.filter (fun p => lo ≤ p.1)

/-- The integrators that a warm start may have kept (R200): they outlive FILLING (R165). -/
def keepKept (old e : Tab Int) : Tab Int := [2, 18, 34].foldl (fun e k => estSet e k (estGet old k)) e

/-- Blocking, filling and faults around an element's own result (R159, R167, R173, R198, R231). A result that is discarded shows the
integrators as they stay stored (R202). The block signal clears the integrators that a warm start kept, FILLING or not. -/
def judge (s : State) (c : Nat) (x : NcState) (r : Running) : EvalOut :=
  let n := windowLen s c
  let bs := List.range (ncNbind s c)
  let step := if ncClass s c = 1 then 240 else 12
  let mix := bs.any (fun i => epochMix x i n)
  let rate := decide (ncType s c = 0x20) || decide (ncType s c = 0x21)
  let usable := bs.all (fun i => windowOk s x c i n) && !(rate && mix)
  let full := usable && bs.all (fun i => decide (n ≤ (x.hist.get i).length) && consecutive step ((x.hist.get i).take n))
  let o := elemEval s c x r
  let was := s.on (Reg.NIB_NC_CTRL_FILLING c)
  let filling := was && !(full && !o.short)
  let count := fun (e : Tab Int) => estSet e 999 (evalNo x + 1)
  let fl := b2n filling + 2 * b2n mix + 4 * b2n (!usable) + 8 * b2n r.block + o.flags
  let kept := fun (word : Nat) (e : Tab Int) (flt fill : Bool) => (⟨word, count e, heldMeas (ncType s c) e o.meas, fl, flt, fill⟩ : EvalOut)
  if filling then kept 0x40 ((if r.block then id else keepKept x.est) (keepSlots 990 (if full then o.est else x.est))) false true
  else if r.block then kept 0x40 (keepSlots 990 (keepSlots 990 x.est |>.filter (fun p => p.1 < 1000))) false false
  else if !usable then kept 0x40 x.est false false
  else if o.bad then kept 0x80 x.est true false
  else ⟨o.word, count o.est, o.meas, fl, false, false⟩

/-- The measurement block is rewritten (R181, R182). -/
def writeMeas (s : State) (c stamp epoch hw qsum flags : Nat) (meas : List Nat) : State :=
  let m := (List.range 8).map (fun i => (Reg.NIB_NC_MEAS_WORD c (4 + i), if i < ncNmeas s c then meas.getD i 0 else 0))
  s.setFs ([(Reg.NIB_NC_MEAS_WORD c 1, stamp), (Reg.NIB_NC_MEAS_WORD c 2, stamp / 2 ^ 32), (Reg.NIB_NC_MEAS_WORD c 3, epoch % 65536 + hw * 65536 + qsum * 2 ^ 24)] ++
    m ++ [(Reg.NIB_NC_MEAS_WORD c 12, flags), (Reg.NIB_NC_MEAS_WORD c 0, s.f (Reg.NIB_NC_MEAS_WORD c 0) + 2)])

/-- FLT counts, and its episode is logged (R167). -/
def noteFault (s : State) (c : Nat) (fault : Bool) : State :=
  let x := s.nc c
  let s1 := s.setNc c { x with fault := fault }
  if fault then
    let s2 := s1.incS (Reg.NIB_NC_CNT0_FLT_CNT c)
    if x.fault then s2 else s2.log Ev.CTX_FAULT c
  else s1

/-- Everything of one evaluation up to its entry: hardware decision, registers, record (R166 to R183). -/
def evalResult (s : State) (c word ns stamp epoch qsum flags : Nat) (fault : Bool) (meas : List Nat) : State :=
  let s1 := takeHw (noteFault s c fault) c word
  let s2 := s1.setNc c { s1.nc c with hwNs := ns, hwStamp := stamp }
  let s3 := s2.setFs [(Reg.NIB_NC_OUT_HWOUT c, word), (Reg.NIB_NC_OUT_QSUM c, qsum)]
  let s4 := writeMeas s3 c stamp epoch word qsum flags meas
  if (s4.nc c).svc = 3 then
    issueRecord s4 c qsum stamp epoch (flags % 4 + 4 * b2n (inFallback s4 c)) ((List.range 8).map (fun i => if i < ncNmeas s c then meas.getD i 0 else 0))
  else s4

/-- An AC or DCF evaluation. -/
def sampleEval (s : State) (r : Running) : State :=
  let c := r.q.ctx
  let x := pushHist (s.nc c) r.ins
  let o := judge s c x r
  let h := r.ins.headD default
  let qsum := r.ins.foldl (fun a z => a ||| z.qual) 0
  let s1 := (s.setNc c { x with est := o.est }).setB (Reg.NIB_NC_CTRL_FILLING c) o.filling
  evalResult s1 c o.word (nsOfInstant r.q.instant) (stampNs (nsOfInstant r.q.instant) h.tq) h.epoch qsum o.flags o.fault o.meas

/-! ### TWDET (R238 to R243) -/

/-- A binary32 time in s as ns: whole ns not above it, and not below it. -/
def nsFloor (t : Nat) : Nat := let r := f32.ratio t; (r.1 * 1000000000).toNat / r.2
def nsCeil (t : Nat) : Nat := let r := f32.ratio t; ((r.1 * 1000000000).toNat + r.2 - 1) / r.2

/-- Quality byte of a wavefront event (R239). -/
def eventQuality (s : State) (ev : WdEvent) : Nat :=
  let q := match s.rul.clk.lastStep with
    | some t => decide (nsOfU t ≤ ev.ns) && decide (ev.ns ≤ nsOfU t + 208300)
    | none => false
  (if ev.stamp % 4 = 3 then 8 else 0) + (if ev.flags.testBit 1 then 16 else 0) + (if q then 2 else 0)

/-- The confirming word is within the window of the event (R241). -/
def twConfirms (s : State) (c : Nat) (ev : WdEvent) : Bool :=
  let y := s.nc (s.liveF c 32 1 8)
  let w := nsFloor (s.live c 36)
  y.delivered.testBit 0 && decide (y.delivNs ≤ ev.ns + w) && decide (ev.ns ≤ y.delivNs + w)

/-- The word of a confirmed event: PU, OP, DIR, with P1 and P2 of the confirming word. -/
def twWord (s : State) (c : Nat) : Nat := 0x23 + ((s.nc (s.liveF c 32 1 8)).delivered &&& 0x0C)

/-- LTC at which a word set now is cleared (R242). -/
def twHoldEnd (s : State) (c : Nat) : Nat := s.ltc + nsCeil (s.live c 37)

/-- ΔV, ΔI of an event (R240). -/
def twDelta (s : State) (c : Nat) (ev : WdEvent) : Nat × Nat :=
  let half := f32.ofRat 1 2
  (fmul32 (f32.ofInt ev.ampl) (fmul32 half (bindScale s c 0)), fmul32 (f32.ofInt ev.comp) (fmul32 half (s.live c 33)))

/-- Word and wave state after an event (R241, R243). -/
def twdetNext (s : State) (c : Nat) (ev : WdEvent) (ok fwd : Bool) : Nat × Wave :=
  let x := s.nc c
  let w := x.wave
  let heldOp := w.hold.isSome && x.hw.testBit 1
  let heldBlk := w.hold.isSome && x.hw.testBit 6
  if !ok then (0x40, { w with pend := none, hold := some (twHoldEnd s c) })
  else if fwd then
    (if heldOp then (x.hw, { w with hold := some (twHoldEnd s c) })
     else if s.liveF c 32 0 1 = 0 then (0x23, { w with pend := none, hold := some (twHoldEnd s c) })
     else if twConfirms s c ev then (twWord s c, { w with pend := none, hold := some (twHoldEnd s c) })
     else (0x21, { w with pend := some (ev, s.ltc), hold := none }))
  else if heldBlk then (0, { w with hold := none })
  else if heldOp || w.pend.isSome then (x.hw, w)
  else (0, w)

def twdetEval (s : State) (r : Running) (ev : WdEvent) : State :=
  let c := r.q.ctx
  let x := s.nc c
  let q := eventQuality s ev
  let usable := qualOk s c q
  let d := twDelta s c ev
  let ksl := fmul32 (bindScale s c 0) (f32.ofInt 3072000)
  let slope := fmul32 (f32.ofInt ev.peak) (fdiv32 ksl (f32.ofInt ev.k))
  let bad := usable && !r.block && anyBad [d.1, d.2]
  let big := f32.ge (f32.abs d.1) (s.live c 34) && f32.ge (f32.abs d.2) (s.live c 35)
  let fwd := big && (d.1.testBit 31 != d.2.testBit 31)
  let n := twdetNext s c ev (usable && !r.block) fwd
  let word := if bad then 0x80 else n.1
  let wave := if bad then x.wave else n.2
  let s1 := s.setNc c { x with wave := wave }
  let fl := 4 * b2n (!usable) + 8 * b2n r.block + 64 * b2n wave.pend.isSome
  evalResult s1 c word ev.ns ev.stamp ev.epoch q fl bad
    [d.1, d.2, if (f32.ratio d.2).1 = 0 && f32.finite d.2 then 0 else fdiv32 (f32.abs d.1) (f32.abs d.2), slope]

/-- The TWDET contexts of an engine tested after an evaluation of their ROCOV context (R241, R242). -/
def twdetTest (s : State) (roc ns : Nat) : State :=
  (engCtx (roc / 16)).foldl (fun t c =>
    if ncType t c = 0x24 && t.liveF c 32 0 1 = 1 && t.liveF c 32 1 8 = roc then
      match (t.nc c).wave.pend with
      | some p =>
        if twConfirms t c p.1 then
          let x := t.nc c
          hwChange (t.setNc c { x with wave := { x.wave with pend := none, hold := some (twHoldEnd t c) } }) c (twWord t c)
        else if p.1.ns + nsFloor (t.live c 36) < ns then twUnconfirmed t c
        else t
      | none => t
    else t) s

/-- TWDET_UNCONFIRMED (R241). -/
def twdetUnconfirmed (s : State) (c : Nat) : State :=
  match (s.nc c).wave.pend with
  | some p => if p.2 + nsCeil (s.live c 36) + 100000 ≤ s.ltc then twUnconfirmed s c else s
  | none => s

/-- TWDET_HOLD_END (R242). -/
def twdetHoldEnd (s : State) (c : Nat) : State :=
  let x := s.nc c
  match x.wave.hold with
  | some t => if t ≤ s.ltc then hwChange (s.setNc c { x with wave := { x.wave with hold := none } }) c 0 else s
  | none => s

/-! ### TWLOC (R245 to R250) -/

def twLink (s : State) (c : Nat) : Nat := s.liveF c 32 0 2
def armNs (s : State) (c : Nat) : Nat := nsCeil (s.live c 36)

/-- The stamp message (R246), 16 bytes; ASYM as it stood when the event was emitted. -/
def twMessage (s : State) (c : Nat) (ev : WdEvent) : List Nat :=
  let f := b2n (ev.flags.testBit 0) + 2 * b2n (ev.flags.testBit 2) + 4 * b2n (ev.flags.testBit 3)
  [s.liveF c 32 4 8, f, 0, 0] ++ (leBytes 8 ev.stamp).map (·.toNat) ++ (leBytes 4 ev.evseq).map (·.toNat)

/-- dt_ns of R248 from two compact stamps. -/
def twDt (a b : Nat) : Int := sext 32 ((stampSec a + 2 ^ 32 - stampSec b) % 2 ^ 32) * 1000000000 + ((stampFrac a : Int) - (stampFrac b : Int))

/-- E(TQ) in ns (R249); at TQ 3 the rule states none (log entry 10). -/
def twErr (tq : Nat) : Int := if tq = 0 then 100 else if tq = 1 then 1000 else if tq = 2 then 50000 else Config.unstated 3 tq 0

/-- A number of ns as RNE64 seconds. -/
def secOfNs (v : Int) : Nat := f64.ofRat v 1000000000

/-- The first condition of R247 that a remote stamp fails: 0 TQ, 1 time, 2 polarity, 3 epoch. -/
def twFails (s : State) (c : Nat) (ev : WdEvent) (z : TwStamp) : Option Nat :=
  let dt := f64.abs (secOfNs (twDt ev.stamp z.stamp))
  let lim := f64.add (f64.div (to64 (s.live c 33)) (to64 (s.live c 34))) (to64 (s.live c 35))
  if z.stamp % 4 = 3 then some 0
  else if f64.gt dt lim then some 1
  else if s.liveF c 32 2 1 = 1 && (z.flags.testBit 0 != ev.flags.testBit 0) then some 2
  else if ev.epoch ≠ s.rul.clk.epoch % 65536 then some 3
  else none

/-- The stamps examined in order: refused ones are discarded and logged; the first good one with the stamps after it. -/
def twExamine (s : State) (c : Nat) (ev : WdEvent) : List TwStamp → State × Option TwStamp × List TwStamp
  | [] => (s, none, [])
  | z :: t => match twFails s c ev z with
    | some k => twExamine (s.log Ev.TWLOC_REFUSED c [.w (Config.causeCode 0x114 k), .q z.stamp]) c ev t
    | none => (s, some z, t)

/-- d and U (R248, R249) in binary64, and dt_ns. -/
def twLocate (s : State) (c : Nat) (ev : WdEvent) (z : TwStamp) : Nat × Nat × Int :=
  let half := f64.ofRat 1 2
  let vel := to64 (s.live c 34)
  let dtn := twDt ev.stamp z.stamp
  let d := f64.mul half (f64.add (to64 (s.live c 33)) (f64.mul vel (secOfNs dtn)))
  let disp := f32.ratio (s.live c 40)
  let e := twErr (ev.stamp % 4) + twErr (z.stamp % 4)
  let sum := f64.ofRat ((100 * e + 2034) * (disp.2 : Int) + disp.1 * 100000000000) (100000000000 * disp.2)
  (d, f64.add (f64.mul (f64.mul half vel) sum) (to64 (s.live c 41)), dtn)

/-- A location is produced (R250). -/
def twProduce (s : State) (c : Nat) (ev : WdEvent) (z : TwStamp) (q : Nat) : State :=
  let r := twLocate s c ev z
  let asym := ev.flags.testBit 3 || z.flags.testBit 2
  let clamp := ev.flags.testBit 2 || z.flags.testBit 1
  let zone := f64.ge r.1 (to64 (s.live c 37)) && f64.le r.1 (to64 (s.live c 38)) && f64.le r.2.1 (to64 (s.live c 39))
  let op := zone && !(s.liveF c 32 3 1 = 1 && asym)
  let fl := 16 * b2n asym + 32 * b2n clamp
  let bad := !f64.finite r.1 || !f64.finite r.2.1
  let s1 := if bad then s else
    (s.setNc c { s.nc c with wave := { (s.nc c).wave with located := true } }).log Ev.TWLOC_RESULT c
      [.q r.1, .q r.2.1, .q (secOfNs r.2.2), .w (ev.stamp % 4), .w (z.stamp % 4), .w fl]
  evalResult s1 c (if bad then 0x80 else 1 + 2 * b2n op) ev.ns ev.stamp ev.epoch q fl bad
    [to32 r.1, to32 r.2.1, f32.ofRat r.2.2 1000, f32.ofInt ((z.stamp % 4 : Nat) : Int)]

/-- A locked context looks through the stamps it holds (R247). -/
def twSearch (s : State) (c : Nat) (ev : WdEvent) (q : Nat) : State :=
  let x := s.nc c
  let keep := x.tw.filter (fun z => s.ltc < z.at' + armNs s c)
  let r := twExamine s c ev keep
  let s1 := r.1.setNc c { r.1.nc c with tw := r.2.2 }
  match r.2.1 with
  | some z => twProduce s1 c ev z q
  | none => evalResult s1 c x.hw ev.ns ev.stamp ev.epoch q 0 false []

/-- A TWLOC evaluation (R245, R247): of an event, or of a stamp delivered to a locked context. A delivery whose lock has ended meanwhile
decides nothing. -/
def twlocEval (s : State) (r : Running) (ev : WdEvent) : State :=
  let c := r.q.ctx
  let x := s.nc c
  let q := eventQuality s ev
  let stop := fun (usable : Bool) => evalResult s c 0x40 ev.ns ev.stamp ev.epoch q (4 * b2n (!usable) + 8 * b2n r.block) false []
  match x.wave.lock with
  | some (lv, _) =>
    if r.block then stop true
    else if x.wave.located then evalResult s c x.hw lv.ns lv.stamp lv.epoch q 0 false []
    else twSearch s c lv q
  | none =>
    if r.q.deliv then evalResult s c x.hw x.hwNs x.hwStamp ev.epoch q 0 false []
    else if r.block || !qualOk s c q then stop (qualOk s c q)
    else
      let s1 := s.setNc c { x with hw := 0, wave := { x.wave with lock := some (ev, s.ltc + armNs s c), located := false } }
      twSearch (queueMsg s1 (twLink s c) 1 (twMessage s c ev)) c ev q

/-- One stamp is delivered to a context (R247): four are kept, the oldest makes way; a locked context without a location is queued. One
that has produced a location keeps the stamp and ignores it until it unlocks. -/
def twDeliver (z : TwStamp) (s : State) (c : Nat) : State :=
  let x := s.nc c
  if x.svc = 0 then s
  else
    let l := (x.tw.filter (fun y => s.ltc < y.at' + armNs s c)) ++ [z]
    let s1 := s.setNc c { x with tw := l.drop (l.length - 4) }
    match (if x.wave.located then none else x.wave.lock) with
    | some (ev, _) => enqueueEval s1 ⟨c, 0, s.ltc, some ev, true, ev.epoch⟩
    | none => s1

/-- TWLOC_STAMP_DELIVERY: the oldest stamp that link `n` has received. -/
def twlocStampDelivery (s : State) (n : Nat) : State :=
  match s.nib.stamps.find? (fun p => p.1 = n) with
  | some p =>
    let s1 := { s with nib := { s.nib with stamps := s.nib.stamps.erase p } }
    (twlocFor s1 n p.2.1).foldl (twDeliver p.2.2) s1
  | none => s

/-- TWLOC_UNLOCK (R245). -/
def twlocUnlock (s : State) (c : Nat) : State :=
  let x := s.nc c
  match x.wave.lock with
  | some (ev, t) =>
    if t ≤ s.ltc then
      let s1 := s.setNc c { x with wave := { x.wave with lock := none, located := false } }
      hwChange (if x.wave.located then s1 else s1.log Ev.TWLOC_NOMATCH c [.q ev.stamp]) c 0
    else s
  | none => s

/-! ### EVALUATION_COMPLETE -/

/-- The longest time from queueing to the end (NIB_NE_TMAX). -/
def noteTerm (s : State) (e : Nat) (r : Running) : State :=
  let t := min (s.ltc - r.q.at') 65535
  if s.f (Reg.NIB_NE_TMAX_TMAX e) < t then s.setFs [(Reg.NIB_NE_TMAX_TMAX e, t), (Reg.NIB_NE_TMAX_CLASS e, ncClass s r.q.ctx)] else s

/-- The flit that ends an evaluation of context `c` with the new word `w` (R169). Changes of the same context that are still due go before
the entry, so that no word is lost and their order stands; where four or more of them are due, the entry joins them (DEDUCED, log entry
23). Changes that the entry brings about in TWDET contexts are due at once (R241). -/
def evalFlit (s : State) (e c w : Nat) : State :=
  let due := (s.eng e).due
  let mine := due.filter (fun p => p.1 = c)
  let rest := due.filter (fun p => p.1 ≠ c)
  let test := fun (t : State) => if ncType s c = 0x20 then twdetTest t c (s.nc c).hwNs else t
  if mine.length ≤ 3 then
    let a := makeEntries (s.setEng e { s.eng e with due := rest, lastFlit := s.ltc }) (mine ++ [(c, w)])
    let t := test a.1
    let k := 3 - mine.length
    let b := makeEntries (t.setEng e { t.eng e with due := (t.eng e).due.drop k }) ((t.eng e).due.take k)
    decisionSend b.1 e (a.2 ++ b.2)
  else
    let a := makeEntries (s.setEng e { s.eng e with due := mine.drop 4 ++ [(c, w)] ++ rest, lastFlit := s.ltc }) (mine.take 4)
    test (decisionSend a.1 e a.2)

/-- EVALUATION_COMPLETE (R38, R169): the running evaluation ends. An engine whose decision credits are out waits. -/
def evaluationComplete (s : State) (e : Nat) : State :=
  let x := s.eng e
  match x.run with
  | none => s
  | some r =>
    if flitBlocked s e then s
    else
      let c := r.q.ctx
      let s1 := (s.setEng e { x with run := none, busyNs := x.busyNs + (s.ltc - r.start) }).setB (Reg.NIB_NE_STAT_BUSY e) false
      let s2 := (noteTerm s1 e r).incW (Reg.NIB_NE_EVAL_EVAL e)
      let s3 := match r.q.ev with
        | some ev => if ncType s c = 0x24 then twdetEval s2 r ev else twlocEval s2 r ev
        | none => sampleEval s2 r
      let w := shownWord (s3.nc c)
      if (s3.nc c).delivered = w && pendingWord s3 c = w then
        sendFlit (if ncType s c = 0x20 then twdetTest s3 c (s3.nc c).hwNs else s3) e 3
      else evalFlit s3 e c w

/-! ### Pace (R28, R30, R32) -/

/-- UTIL of an engine over the window that ends, in 0.1 %. -/
def noteUtil (s : State) (e : Nat) : State :=
  let x := s.eng e
  let more := match x.run with | some r => s.ltc - r.start | none => 0
  let s1 := s.setF (Reg.NIB_NE_STAT_UTIL e) (min ((x.busyNs + more) / 1000) 1000)
  s1.setEng e { x with busyNs := 0, run := x.run.map (fun r => { r with start := s.ltc }) }

/-- The window that ends has index P `p`. -/
def paceWindow (s0 : State) (p : Nat) : State :=
  let s := { s0 with rul := { s0.rul with clk := { s0.rul.clk with paceK := s0.rul.clk.paceK + 1 } } }
  let q := min p 2047
  let s1 := s.setFs [(Reg.SYS_PACE_P, q), (Reg.SYS_PACE_PMIN, min q (s.f Reg.SYS_PACE_PMIN))]
  let s2 := (List.range 16).foldl noteUtil s1
  let s2d := (s2.maxF Reg.PBI_DEC_LOAD_PEAK s2.pbi.decoded).setF Reg.PBI_DEC_LOAD_LOAD (min s2.pbi.decoded 65535)
  let s3 := { s2d with pbi := { s2d.pbi with decoded := 0 } }
  if s3.on Reg.SYS_PACE_ALARM_ALARM then
    let good := if 720 ≤ p then s3.f Reg.SYS_PACE_ALARM_GOOD + 1 else 0
    if 100 ≤ good then ((s3.setFs [(Reg.SYS_PACE_ALARM_ALARM, 0), (Reg.SYS_PACE_ALARM_GOOD, 0)]).irq 6).log Ev.PACE_NORMAL
    else s3.setF Reg.SYS_PACE_ALARM_GOOD good
  else if p < 700 then
    let s4 := (s3.setFs [(Reg.SYS_PACE_ALARM_ALARM, 1), (Reg.SYS_PACE_ALARM_GOOD, 0)]).incW Reg.SYS_PACE_ALARM_ENTRIES
    let s5 := (s4.health Reg.SYS_HEALTH_PACE).log Ev.PACE_ALARM noInst [.w p]
    (List.range (contexts s)).foldl paceFallback s5
  else s3

/-- PACE_WINDOW_END with the index P of the window: window k of the grid of LTC ends once, at (k + 1) ms (R28). -/
def paceWindowEnd (s : State) (p : Nat) : State := if (s.rul.clk.paceK + 1) * 1000000 ≤ s.ltc then paceWindow s p else s

/-! ### Meanings -/

def execPaceWindowEnd (p : Nat) (s : State) : Host.Outcome State Fault Refusal := .next (paceWindowEnd s p)

def execEvaluationDispatch (e : Fin 16) (settings state : Ecc) (s : State) : Host.Outcome State Fault Refusal :=
  .next (evaluationDispatch s e settings state)

def execEvaluationComplete (e : Fin 16) (s : State) : Host.Outcome State Fault Refusal := .next (evaluationComplete s e)

def execOutputLogicFlit (e : Fin 16) (s : State) : Host.Outcome State Fault Refusal := .next (outputLogicFlit s e)

def execHaResignal (ctx : Fin 256) (s : State) : Host.Outcome State Fault Refusal := .next (haResignal s ctx)

def execHaFallback (ctx : Fin 256) (s : State) : Host.Outcome State Fault Refusal := .next (haFallback s ctx)

def execAssertCmd (sess : Fin 16) (s : State) : Host.Outcome State Fault Refusal := .next (runCmd s sess 0x20 (assertBody sess))

def execHaWordApply (e : Fin 16) (s : State) : Host.Outcome State Fault Refusal := .next (haWordApply s e)

def execTwdetUnconfirmed (ctx : Fin 256) (s : State) : Host.Outcome State Fault Refusal := .next (twdetUnconfirmed s ctx)

def execTwdetHoldEnd (ctx : Fin 256) (s : State) : Host.Outcome State Fault Refusal := .next (twdetHoldEnd s ctx)

def execTwlocStampDelivery (dl : Fin 4) (s : State) : Host.Outcome State Fault Refusal := .next (twlocStampDelivery s dl)

def execTwlocUnlock (ctx : Fin 256) (s : State) : Host.Outcome State Fault Refusal := .next (twlocUnlock s ctx)

def execContextSettingsSwitch (ctx : Fin 256) (s : State) : Host.Outcome State Fault Refusal := .next (contextSettingsSwitch s ctx)

end Sys2Proof.Machine
end

