-- ==== Sys2Proof/Machine/Fio.lean ====
section
/-! DEFINITION. Field channels (spec/12): the field side of each channel and group, its reports to the logic side, keep-alive,
safe state, diagnostics, protective trips, supply sag. -/

namespace Sys2Proof.Machine

namespace State

def fc (s : State) (n : Nat) : FcState := s.fio.fc.get n

def setFc (s : State) (n : Nat) (x : FcState) : State := { s with fio := { s.fio with fc := s.fio.fc.set n x } }

def grp (s : State) (g : Nat) : GrpState := s.fio.grp.get g

def setGrp (s : State) (g : Nat) (x : GrpState) : State := { s with fio := { s.fio with grp := s.fio.grp.set g x } }

end State

/-- The SPT-8120 has G0 and G1 only (R394). -/
def grpExists (s : State) (g : Nat) : Bool := !s.is8120 || decide (g < 2)

/-- The group of a channel. -/
def grpOf (n : Nat) : Nat := n / 8

/-- Group states (R414). -/
def gNosupply : Nat := 0
def gLockout : Nat := 1
def gBlocked : Nat := 2
def gWarning : Nat := 3
def gNormal : Nat := 4

/-- The field side of the channel is powered and exists. -/
def fcPowered (s : State) (n : Nat) : Bool := grpExists s (grpOf n) && (s.grp (grpOf n)).state ≠ gNosupply

/-! ### The field side (R396, R403, R410, R413) -/

/-- MODE in force on the field side: unconfigured it senses as DI (R413). -/
def FcState.mode (x : FcState) : Nat := if x.cfgd then x.cfg % 8 else 1
def FcState.safeCode (x : FcState) : Nat := x.cfg / 8 % 4
def FcState.olLatch (x : FcState) : Bool := x.cfg.testBit 5
def FcState.owoff (x : FcState) : Bool := x.cfg.testBit 6
def FcState.filt (x : FcState) : Nat := if x.cfgd then x.cfg / 256 % 256 else 30
def FcState.wdt (x : FcState) : Nat := x.cfg / 65536 % 256

/-- DO or DO-PAIR. -/
def FcState.isDo (x : FcState) : Bool := x.mode = 3 || x.mode = 4

/-- The switch of a channel (R403): lockout and blocking first, then trip, latch and INHIBIT, then the safe state, else the
commanded value. -/
def fcOn (s : State) (n : Nat) : Bool :=
  let x := s.fc n
  let g := (s.grp (grpOf n)).state
  (g = gWarning || g = gNormal) && x.cfgd && x.isDo && !x.opening && !x.trip && !x.latched && !s.on (Reg.FIO_FC_STAT_INHIBIT n) &&
    (if x.safe then x.safeVal else x.cmd)

/-- The two channels of a DO-PAIR, or the channel alone (R405). -/
def fcMates (s : State) (n : Nat) : List Nat := if (s.fc n).mode = 4 then [n / 2 * 2, n / 2 * 2 + 1] else [n]

/-- A live bit rises: a new detection. -/
def FcState.rise (x : FcState) (b : Nat) : FcState :=
  if x.live.testBit b then x else { x with live := setBitOf x.live b true, newDiag := setBitOf x.newDiag b true }

/-- Conditions that end with the switch's own change (R406): open wire on and imbalance when off, open wire off and short when
on. -/
def fcSettle (s : State) (n : Nat) : State :=
  let x := s.fc n
  let keep := if fcOn s n then 127 - 8 - 16 else 127 - 4 - 32
  s.setFc n { x with live := x.live &&& keep }

/-! ### Reports to the logic side (R402, R406, R411) -/

/-- INVALID of the input signal (R402); while a mode change is in progress too (R398). -/
def fcInvalid (s : State) (n : Nat) : Bool :=
  let x := s.fc n
  let g := (s.grp (grpOf n)).state
  let m := s.f (Reg.FIO_FC_CFG_MODE n)
  m = 0 || g = gNosupply || g = gLockout || (s.f (Reg.FIO_FC_DIAG_LIVE n)).testBit 6 || !s.on (Reg.FIO_FC_STAT_LINK n) || x.opening ||
    (match x.mute with | some t => decide ((s.ltc : Int) < t) | none => false) || ((m = 3 || m = 4) && s.on (Reg.FIO_FC_STAT_TRIP n))

/-- QUESTIONABLE of the input signal (R402). -/
def fcQuestionable (s : State) (n : Nat) : Bool :=
  let m := s.f (Reg.FIO_FC_CFG_MODE n)
  (s.grp (grpOf n)).state = gWarning || ((m = 3 || m = 4) && (s.f (Reg.FIO_FC_DIAG_LIVE n) &&& 28) ≠ 0)

/-- The value of the input signal (R399, R401, R402); without a link the last one stands. -/
def fcValue (s : State) (n : Nat) : Bool :=
  let m := s.f (Reg.FIO_FC_CFG_MODE n)
  if !s.on (Reg.FIO_FC_STAT_LINK n) then s.on (Reg.FIO_FC_STAT_IN n)
  else if m = 3 || m = 4 then s.on (Reg.FIO_FC_STAT_SW n)
  else if m = 0 || (s.f (Reg.FIO_FC_DIAG_LIVE n)).testBit 6 then false
  else (s.fc n).lvl

/-- What Stroke counts: an input that is INVALID, or in a mode other than DI or DI-WB, is 0 (R261, R402). -/
def fcCounted (s : State) (n : Nat) : Bool :=
  let m := s.f (Reg.FIO_FC_CFG_MODE n)
  (m = 1 || m = 2) && s.on (Reg.FIO_FC_STAT_IN n) && s.f (Reg.FIO_FC_STAT_QUAL n) % 2 = 0

/-- The channel serves an output as ARM or supervision source (R260), in the settings in force or in a committed epoch that Stroke
has still to take. -/
def fcServes (s : State) (n : Nat) : Bool :=
  (List.range 16).any (fun k => (s.rd (Reg.STK_SO_CFG k) :: (s.sys.committing.get (Reg.STK_SO_CFG k)).toList).any (fun w =>
    (w / 2 % 4 = 2 && w / 8 % 128 = n) || (w / 1024 % 4 = 2 && w / 4096 % 128 = n)))

/-- What Stroke is to hold of an input. -/
def fcFlit (s : State) (n : Nat) : List (Nat × Bool × Bool) := if fcServes s n then [(512 + n, fcCounted s n, false)] else []

/-- What Stroke is to hold of all inputs. -/
def fcFlits (s : State) : List (Nat × Bool × Bool) := (List.range 32).flatMap (fcFlit s)

/-- The flit with which a committed epoch reaches Stroke (R266): the field inputs that become sources. -/
def strokeSwitchFlit (s : State) : State := logicFlit s (logicNew s (fcFlits s))

/-- The input signal as it now stands; a change of what Stroke counts goes to it at once (R260, R400). -/
def fcInput (s : State) (n : Nat) : State :=
  let q := b2n (fcInvalid s n) + 2 * b2n (fcQuestionable s n)
  let s1 := s.setFs [(Reg.FIO_FC_STAT_IN n, b2n (fcValue s n)), (Reg.FIO_FC_STAT_QUAL n, q)]
  logicSend s1 (fcFlit s1 n)

/-- The event of a condition (R406, R417). -/
def fcDiagEvent (b : Nat) : Event :=
  if b = 0 then Ev.FIO_OVERLOAD else if b = 1 then Ev.FIO_OVERTEMP else if b = 2 || b = 3 then Ev.FIO_OPEN_WIRE
  else if b = 4 then Ev.FIO_SHORT_LPLUS else if b = 5 then Ev.FIO_PAIR_IMBAL else Ev.FIO_WIRE_BREAK

/-- A report of the field side: status, diagnostics and what is new since the last one; without a link nothing arrives. -/
def fcReport (s : State) (n : Nat) : State :=
  if s.on (Reg.FIO_FC_STAT_LINK n) then
    let x := s.fc n
    let s1 := s.setFs [(Reg.FIO_FC_STAT_SW n, b2n (fcOn s n)), (Reg.FIO_FC_STAT_SAFE n, b2n x.safe), (Reg.FIO_FC_STAT_TRIP n, b2n x.trip),
      (Reg.FIO_FC_STAT_LATCHED n, b2n x.latched), (Reg.FIO_FC_DIAG_LIVE n, x.live),
      (Reg.FIO_FC_DIAG_STICKY n, s.f (Reg.FIO_FC_DIAG_STICKY n) ||| x.newDiag)]
    let s2 := ((s1.incS (Reg.FIO_FC_CNT_TRIPS n) x.newTrips).incS (Reg.FIO_FC_CNT_RETRIES n) x.newRetries).incS (Reg.FIO_FC_CNT_WB n)
      (b2n (x.newDiag.testBit 6))
    let s3 := (bitsOf 7 x.newDiag).foldl (fun t b => t.log (fcDiagEvent b) n) s2
    let s4 := if x.newLatch then s3.log Ev.FIO_LATCHED n else s3
    fcInput (s4.setFc n { x with newDiag := 0, newTrips := 0, newRetries := 0, newLatch := false }) n
  else fcInput s n

/-- A change on the field side, settled and reported. -/
def fcShow (s : State) (n : Nat) : State := fcReport (fcSettle s n) n

def fcShowAll (s : State) (ns : List Nat) : State := ns.foldl fcShow s

/-! ### Policy (R407 to R409, R46) -/

/-- Trips in a row after one more: a 1 s interval free of trips starts anew (R407). -/
def FcState.inRow (x : FcState) (now : Int) : Nat := if x.cons = 0 || x.tripAt + 1000000000 ≤ now then 1 else x.cons + 1

/-- A protective trip of one channel (R407): in retry the eighth in a row latches; in latch every one does; under the
host-assisted policy the host re-enables. -/
def fcTripOne (s : State) (n : Nat) : State :=
  let x := s.fc n
  if x.trip then s
  else
    let k := x.inRow s.ltc
    let eighth := !s.hst.haField && !x.olLatch && decide (8 ≤ k)
    s.setFc n { x with trip := true, tripAt := s.ltc, cons := k, newTrips := x.newTrips + 1, offSeen := false,
                       latched := x.latched || eighth || (!s.hst.haField && x.olLatch), newLatch := x.newLatch || eighth }

/-- A trip on condition `b`: both channels of a pair switch off (R405). -/
def fcTrip (s : State) (n b : Nat) : State :=
  let s1 := s.setFc n ((s.fc n).rise b)
  fcShowAll ((fcMates s n).foldl fcTripOne s1) (fcMates s n)

/-- Re-enabling (R407): the over-load condition ends with it. -/
def fcEnable (s : State) (n : Nat) (auto : Bool) : State :=
  (fcMates s n).foldl (fun t m =>
    let x := t.fc m
    t.setFc m { x with trip := false, latched := false, offSeen := false, live := x.live &&& 126, newRetries := x.newRetries + b2n auto }) s

/-- A retry re-enables on the device's own policy (R407). -/
def fcRetries (s : State) (n : Nat) : Bool := !s.hst.haField && !(s.fc n).olLatch && (s.fc n).trip && !(s.fc n).latched

/-- Nothing keeps the switches off any longer: neither channel of a pair is above 130 C or within the 100 ms of an over-load (R405, R407). -/
def fcCooled (s : State) (n : Nat) : Bool :=
  (fcMates s n).all (fun m =>
    let x := s.fc m
    !x.live.testBit 1 && !(x.live.testBit 0 && decide ((s.ltc : Int) < x.tripAt + 100000000)))

/-- A channel, or a pair, whose retry is due is re-enabled. -/
def fcRetryDue (s : State) (n : Nat) : State := if fcRetries s n && fcCooled s n then fcShowAll (fcEnable s n true) (fcMates s n) else s

/-- A change of policy by MODE_SET takes effect at the next diagnostic event: INHIBIT is cleared, a latch stays; on the device's own
policy a retry that has fallen due meanwhile follows at once (R46, R407). -/
def fioTakeMode (s : State) : State :=
  match modePending s 8 0 with
  | some ha =>
    let s1 := (List.range 32).foldl (fun t n => (t.setB (Reg.FIO_FC_STAT_INHIBIT n) false).setB (Reg.FIO_FC_CTRL_INHIBIT n) false)
      { s with hst := { s.hst with haField := ha } }
    (List.range 32).foldl fcRetryDue (modeTaken s1 8 0)
  | none => s

/-- FIO_OVERLOAD: the current limit engaged for 1 ms with the switch closed. -/
def fioOverload (s0 : State) (n : Nat) : State :=
  if fcOn s0 n then fcTrip (fioTakeMode s0) n 0 else s0

/-- FIO_OVERTEMP: the junction reaches 150 C; suspended in LOCKOUT (R415). -/
def fioOvertemp (s0 : State) (n : Nat) : State :=
  if (s0.fc n).isDo && fcPowered s0 n && (s0.grp (grpOf n)).state ≠ gLockout then fcTrip (fioTakeMode s0) n 1 else s0

/-- OVERTEMP_CLEAR: below 130 C a retry channel is re-enabled, unless an over-load trip has not waited 100 ms. -/
def overtempClear (s0 : State) (n : Nat) : State :=
  if (s0.fc n).live.testBit 1 then
    let s := fioTakeMode s0
    let s1 := s.setFc n { s.fc n with live := (s.fc n).live &&& 125 }
    fcShowAll (fcRetryDue s1 n) (fcMates s n)
  else s0

/-- OVERLOAD_RETRY: 100 ms after an over-load trip a retry channel is re-enabled, once its junction allows. -/
def overloadRetry (s : State) (n : Nat) : State := if (fcMates s n).any (fun m => (s.fc m).live.testBit 0) then fcRetryDue s n else s

/-- A condition that leaves the switch alone is detected (R406, R408). -/
def fcDetect (s0 : State) (n b : Nat) : State :=
  let s := fioTakeMode s0
  fcReport (s.setFc n ((s.fc n).rise b)) n

/-- FIO_OPEN_WIRE: with the switch on, or with it off and the test current applied. -/
def fioOpenWire (s : State) (n : Nat) : State :=
  if !(s.fc n).isDo || !fcPowered s n then s
  else if fcOn s n then fcDetect s n 2
  else if (s.fc n).owoff then fcDetect s n 3
  else s

/-- FIO_SHORT_LPLUS: with the switch off. -/
def fioShort (s : State) (n : Nat) : State :=
  if (s.fc n).isDo && fcPowered s n && !fcOn s n then fcDetect s n 4 else s

/-- FIO_PAIR_IMBAL: with both switches on; on the device's own policy the pair switches off and latches (R408). -/
def fioImbalance (s0 : State) (n : Nat) : State :=
  if (s0.fc n).mode = 4 && (fcMates s0 n).all (fcOn s0) then
    let s := fioTakeMode s0
    let s1 := s.setFc n ((s.fc n).rise 5)
    let s2 := if s.hst.haField then s1 else (fcMates s n).foldl (fun t m => t.setFc m { t.fc m with latched := true, offSeen := false }) s1
    fcShowAll s2 (fcMates s n)
  else s0

/-- FIO_WIRE_BREAK (R401). -/
def fioWireBreak (s : State) (n : Nat) : State :=
  if (s.fc n).mode = 2 && fcPowered s n then fcDetect s n 6 else s

/-- A condition's live bit clears. -/
def fcClear (s0 : State) (n b : Nat) : State :=
  if (s0.fc n).live.testBit b then
    let s := fioTakeMode s0
    fcReport (s.setFc n { s.fc n with live := setBitOf (s.fc n).live b false }) n
  else s0

/-- DIAGNOSTIC_CLEAR: open wire, short to L+ and pair imbalance (R406); the other conditions have clearing rows of their own. -/
def diagnosticClear (s : State) (n b : Nat) : State := if 2 ≤ b && b ≤ 5 then fcClear s n b else s

/-! ### Inputs (R399, R400) -/

/-- DI_CHANGE_COUNTED: the level has held for FILT. -/
def diChange (s : State) (n : Nat) (level : Bool) : State :=
  let x := s.fc n
  if fcPowered s n && (x.mode = 1 || x.mode = 2) then
    fcReport (s.setFc n { x with lvl := level, seenAt := (s.ltc : Int) - x.filt * 100000 }) n
  else s

/-! ### Configuration, keep-alive, status (R398, R410 to R413) -/

/-- The group's configuration reaches its field side: one that passed through NOSUPPLY with RSTBLK 1 enters BLOCKED (R416);
in LOCKOUT it stays, and recovery leads to BLOCKED. -/
def grpConfigure (s : State) (g : Nat) : State :=
  let x := s.grp g
  if x.conf then s
  else
    let block := x.passed && s.on (Reg.FIO_G_CFG_RSTBLK g) && (x.state = gWarning || x.state = gNormal)
    let s1 := (s.setGrp g { x with conf := true, passed := false, state := if block then gBlocked else x.state }).setB (Reg.FIO_G_STAT_FRESH g) false
    if block then (s1.setF (Reg.FIO_G_STAT_STATE g) gBlocked).log Ev.FIO_GRP_BLOCKED g else s1

/-- Conditions that a configuration word lets be in force, by its MODE and OWOFF (R406); those behind a trip outlast it. -/
def condsOf (w : Nat) : Nat :=
  let m := w % 8
  3 + (if m = 3 || m = 4 then 20 + 8 * b2n (w.testBit 6) else 0) + (if m = 4 then 32 else 0) + (if m = 2 then 64 else 0)

/-- A channel is downloaded where it differs or reports FRESH (R413); a mode change ends and keeps the input INVALID for FILT
and 1 ms more (R398). -/
def fcConfigure (s : State) (n : Nat) : State :=
  let w := s.rd (Reg.FIO_FC_CFG n) % 2 ^ 24
  let x := s.fc n
  let s1 := s.setFc n { x with cfg := w, cfgd := true, opening := false, live := x.live &&& condsOf w,
                               mute := if x.opening then some ((s.ltc : Int) + ((w / 256 % 256 * 100000 + 1000000 : Nat) : Int)) else x.mute }
  grpConfigure s1 (grpOf n)

/-- The value commanded: of a pair the even channel's (R397, R403). -/
def fcCommand (s : State) (n : Nat) : Bool :=
  if s.f (Reg.FIO_FC_CFG_MODE n) = 4 then s.qil.fcmd.testBit (n / 2 * 2) else s.qil.fcmd.testBit n

/-- A mode change that a commit has made live opens the switch at once (R398). -/
def fioCommitOpens (s : State) : State :=
  (List.range 32).foldl (fun t n =>
    match t.sys.committing.find? (fun p => p.1 = Reg.FIO_FC_CFG n) with
    | some p =>
      if (p.2.getD 0) % 8 ≠ t.f (Reg.FIO_FC_CFG_MODE n) then fcShow (t.setFc n { t.fc n with opening := true }) n else t
    | none => t) s

/-- A committed epoch reaches a channel and its group (R398, R440). -/
def fcCommit (s : State) (n : Nat) : State := takeCommit (takeCommit s (Reg.FIO_FC_CFG n) 4) (Reg.FIO_G_CFG (grpOf n)) 4

/-- An on-command after an off-command re-enables a latched channel, and in OLMODE 1 a tripped one, on the device's own policy (R407). -/
def fcUnlatch (s : State) (n : Nat) (v : Bool) : State :=
  let x := s.fc n
  if (x.latched || (x.trip && x.olLatch)) && !s.hst.haField then
    if !v then s.setFc n { x with offSeen := true }
    else if x.offSeen then fcEnable s n false
    else s
  else s

/-- KEEP_ALIVE_FRAME (R411, R412): sent in IN_SERVICE and TEST only; it reaches a field side that has supply. -/
def keepAlive (s0 : State) (n : Nat) : State :=
  if s0.running && grpExists s0 (grpOf n) && !fcPowered s0 n then fcCommit s0 n
  else if s0.running && fcPowered s0 n then
    let s := fcCommit s0 n
    let x := s.fc n
    let s1 := if !x.cfgd || x.opening || x.cfg ≠ s.rd (Reg.FIO_FC_CFG n) % 2 ^ 24 then fcConfigure s n else s
    let v := fcCommand s1 n
    let s2 := s1.setB (Reg.FIO_FC_STAT_CMD n) v
    let s3 := s2.setFc n { s2.fc n with cmd := v, ka := s.ltc, safe := false, wdExp := false }
    fcShowAll (fcUnlatch s3 n v) (fcMates s3 n)
  else s0

/-- STATUS_FRAME (R411): the report, with the load current; a FRESH channel is downloaded (R413). -/
def statusFrame (s : State) (n iload : Nat) : State :=
  if fcPowered s n && s.sysState ≠ 0 then
    let x := s.fc n
    let mute := match x.mute with | some t => if t ≤ (s.ltc : Int) then none else some t | none => none
    let s1 := (s.setFc n { x with stat := s.ltc, mute := mute }).setFs [(Reg.FIO_FC_STAT_LINK n, 1), (Reg.FIO_FC_STAT_ILOAD n, min iload 2000)]
    let s2 := if s.running && !x.cfgd then fcConfigure s1 n else s1
    fcReport s2 n
  else s

/-- FIO_LINK_LOST (R411). -/
def fioLinkLost (s : State) (n : Nat) : State :=
  if s.on (Reg.FIO_FC_STAT_LINK n) && decide ((s.fc n).stat + 2000000 ≤ (s.ltc : Int)) then
    let s1 := s.setFs [(Reg.FIO_FC_STAT_LINK n, 0), (Reg.FIO_FC_DIAG_STICKY n, s.f (Reg.FIO_FC_DIAG_STICKY n) ||| 128)]
    fcInput ((s1.incS (Reg.FIO_FC_CNT_LINK_LOST n)).log Ev.FIO_LINK_LOST n) n
  else s

/-- The safe state comes into force (R410): HOLD keeps the switch as it is. -/
def FcState.makeSafe (x : FcState) (on : Bool) : FcState :=
  if x.safe then x else { x with safe := true, safeVal := if x.safeCode = 0 then false else if x.safeCode = 1 then true else on }

/-- WATCHDOG_EXPIRY (R410): no good keep-alive for WDT. -/
def watchdogExpiry (s : State) (n : Nat) : State :=
  let x := s.fc n
  if fcPowered s n && x.cfgd && !x.wdExp && decide (x.ka + ((x.wdt * 1000000 : Nat) : Int) ≤ (s.ltc : Int)) then
    fcShow (s.setFc n { x.makeSafe (fcOn s n) with wdExp := true, newDiag := setBitOf x.newDiag 8 true }) n
  else s

/-- One frame orders every channel's safe state at once, on leaving IN_SERVICE and TEST (R412). -/
def fioStop (s : State) : State :=
  (List.range 32).foldl (fun t n => if fcPowered t n && (t.fc n).cfgd then fcShow (t.setFc n ((t.fc n).makeSafe (fcOn t n))) n else t) s

/-- On entry into IN_SERVICE or TEST (R412, R413): expired watchdogs are logged, and every channel that differs or reports FRESH
is downloaded. -/
def fioResume (s : State) : State :=
  (List.range 32).foldl (fun t n =>
    if fcPowered t n then
      let x := t.fc n
      let t1 := if x.wdExp then (t.log Ev.FIO_WD_SAFE n).setF (Reg.FIO_FC_DIAG_STICKY n) (t.f (Reg.FIO_FC_DIAG_STICKY n) ||| 256) else t
      fcReport (if !x.cfgd || x.cfg ≠ t.rd (Reg.FIO_FC_CFG n) % 2 ^ 24 then fcConfigure t1 n else t1) n
    else t) s

/-- The group registers show the field side again after a start has reset them. -/
def fioShowGroups (s : State) : State :=
  (List.range 4).foldl (fun t g =>
    let x := t.grp g
    if grpExists t g then t.setFs [(Reg.FIO_G_STAT_STATE g, x.state), (Reg.FIO_G_STAT_FRESH g, b2n (!x.conf)), (Reg.FIO_G_STAT_VSUP g, x.mv)] else t) s

/-! ### Control writes (R407, R409) -/

/-- RETRY: under the host-assisted policy for any channel, else only with OLMODE 1. -/
def fioRetry (s : State) (n : Nat) : State :=
  let x := s.fc n
  if (s.hst.haField || x.olLatch) && (x.trip || x.latched) then fcShowAll (fcEnable s n false) (fcMates s n) else s

/-- INHIBIT: only under the host-assisted policy. -/
def fioInhibit (s : State) (n : Nat) (on : Bool) : State :=
  if s.hst.haField && grpExists s (grpOf n) then fcShow ((s.setB (Reg.FIO_FC_CTRL_INHIBIT n) on).setB (Reg.FIO_FC_STAT_INHIBIT n) on) n else s

/-! ### Supply sag (R414 to R416) -/

/-- A group enters a state with L+ as measured; its channels follow. -/
def grpEnter (s : State) (g st : Nat) : State :=
  let s1 := (s.setGrp g { s.grp g with state := st }).setF (Reg.FIO_G_STAT_STATE g) st
  let s2 := if st = gWarning then s1.incS (Reg.FIO_G_CNT_WARN g) else if st = gLockout then s1.incS (Reg.FIO_G_CNT_LOCKOUT g)
    else if st = gNosupply then s1.incS (Reg.FIO_G_CNT_NOSUPPLY g) else s1
  fcShowAll s2 ((List.range 8).map (fun i => 8 * g + i))

/-- L+ as the field side measures it. -/
def grpMeasure (s : State) (g mv : Nat) : State := (s.setGrp g { s.grp g with mv := mv }).setF (Reg.FIO_G_STAT_VSUP g) (min mv 65535)

/-- What the field side of an existing group measures is shown, whatever follows from it. -/
def grpSees (s : State) (g mv : Nat) : State := if grpExists s g then grpMeasure s g mv else s

/-- NORMAL or WARNING, as L+ stands. -/
def grpStands (mv : Nat) : Nat := if mv < 18000 then gWarning else gNormal

def fioGrpWarn (s : State) (g mv : Nat) : State :=
  if grpExists s g && (s.grp g).state = gNormal && decide (mv < 18000) then (grpEnter (grpMeasure s g mv) g gWarning).log Ev.FIO_GRP_WARN g
  else grpSees s g mv

def fioGrpNormal (s : State) (g mv : Nat) : State :=
  if grpExists s g && (s.grp g).state = gWarning && decide (18500 ≤ mv) then (grpEnter (grpMeasure s g mv) g gNormal).log Ev.FIO_GRP_NORMAL g
  else grpSees s g mv

def fioGrpLockout (s : State) (g mv : Nat) : State :=
  let st := (s.grp g).state
  if grpExists s g && (st = gNormal || st = gWarning || st = gBlocked) && decide (mv < 14000) then
    (grpEnter (grpMeasure s g mv) g gLockout).log Ev.FIO_GRP_LOCKOUT g
  else grpSees s g mv

/-- FIO_GRP_RECOVER: an unconfigured field side has no RSTBLK yet (R413, R416). -/
def fioGrpRecover (s : State) (g mv : Nat) : State :=
  if grpExists s g && (s.grp g).state = gLockout && decide (17000 < mv) then
    let s1 := grpMeasure s g mv
    if s.on (Reg.FIO_G_CFG_RSTBLK g) && (s.grp g).conf then (grpEnter s1 g gBlocked).log Ev.FIO_GRP_BLOCKED g
    else (grpEnter s1 g (grpStands mv)).log Ev.FIO_GRP_RECOVER g
  else grpSees s g mv

/-- FIO_GRP_NOSUPPLY: the field sides of the group lose their configuration. -/
def fioGrpNosupply (s : State) (g mv : Nat) : State :=
  if grpExists s g && (s.grp g).state ≠ gNosupply && decide (mv < 9000) then
    let s1 := grpMeasure s g mv
    let s2 := (List.range 8).foldl (fun t i => t.setFc (8 * g + i) { (default : FcState) with stat := (t.fc (8 * g + i)).stat }) s1
    let s3 := (s2.setGrp g { s2.grp g with conf := false, passed := true }).setB (Reg.FIO_G_STAT_FRESH g) true
    (grpEnter s3 g gNosupply).log Ev.FIO_GRP_NOSUPPLY g
  else grpSees s g mv

/-- GROUP_SUPPLY_RETURN: LOCKOUT, unconfigured; the field side has passed through NOSUPPLY (R416). -/
def groupSupplyReturn (s : State) (g mv : Nat) : State :=
  if grpExists s g && (s.grp g).state = gNosupply && decide (9000 ≤ mv) then
    let s1 := grpMeasure s g mv
    grpEnter ((s1.setGrp g { s1.grp g with passed := true }).setB (Reg.FIO_G_STAT_FRESH g) (!(s.grp g).conf)) g gLockout
  else grpSees s g mv

/-- An acknowledge: of a group in BLOCKED only (R416). -/
def fioAck (s : State) (g : Nat) : State :=
  if (s.grp g).state = gBlocked then (grpEnter s g (grpStands (s.grp g).mv)).log Ev.FIO_GRP_ACK g else s

/-- A rising edge of Quill output bit ACKIDX while ACKEN is 1 (R416). -/
def fioQuillAck (qb : Nat) (s : State) : State :=
  (List.range 4).foldl (fun t g =>
    let i := t.f (Reg.FIO_G_CFG_ACKIDX g)
    if t.on (Reg.FIO_G_CFG_ACKEN g) && t.qil.qb.testBit i && !qb.testBit i then fioAck t g else t) s

/-- LTC restarts: what the field side has timed so far stays as old as it is (R53). -/
def fioShift (s : State) (d : Nat) : State :=
  (List.range 32).foldl (fun t n =>
    let x := t.fc n
    if x = default then t
    else t.setFc n { x with seenAt := x.seenAt - d, ka := x.ka - d, tripAt := x.tripAt - d, mute := x.mute.map (· - (d : Int)), stat := x.stat - d }) s

/-! ### Meanings -/

def execDiChangeCounted (fc : Fin 32) (level : Bool) (s : State) : Host.Outcome State Fault Refusal := .next (diChange s fc level)

def execFioWireBreak (fc : Fin 32) (s : State) : Host.Outcome State Fault Refusal := .next (fioWireBreak s fc)

def execWireBreakClear (fc : Fin 32) (s : State) : Host.Outcome State Fault Refusal := .next (fcClear s fc 6)

def execKeepAliveFrame (fc : Fin 32) (s : State) : Host.Outcome State Fault Refusal := .next (keepAlive s fc)

def execStatusFrame (fc : Fin 32) (iload : Nat) (s : State) : Host.Outcome State Fault Refusal := .next (statusFrame s fc iload)

def execFioLinkLost (fc : Fin 32) (s : State) : Host.Outcome State Fault Refusal := .next (fioLinkLost s fc)

def execWatchdogExpiry (fc : Fin 32) (s : State) : Host.Outcome State Fault Refusal := .next (watchdogExpiry s fc)

def execFioOverload (fc : Fin 32) (s : State) : Host.Outcome State Fault Refusal := .next (fioOverload s fc)

def execFioOvertemp (fc : Fin 32) (s : State) : Host.Outcome State Fault Refusal := .next (fioOvertemp s fc)

def execOvertempClear (fc : Fin 32) (s : State) : Host.Outcome State Fault Refusal := .next (overtempClear s fc)

def execOverloadRetry (fc : Fin 32) (s : State) : Host.Outcome State Fault Refusal := .next (overloadRetry s fc)

def execFioOpenWire (fc : Fin 32) (s : State) : Host.Outcome State Fault Refusal := .next (fioOpenWire s fc)

def execFioShortLplus (fc : Fin 32) (s : State) : Host.Outcome State Fault Refusal := .next (fioShort s fc)

def execFioPairImbal (fc : Fin 32) (s : State) : Host.Outcome State Fault Refusal := .next (fioImbalance s fc)

def execRetry (a : Access) (fc : Fin 32) (s : State) : Host.Outcome State Fault Refusal :=
  .next (gate s a (Reg.FIO_FC_CTRL fc) false (fun t => fioRetry t fc))

def execInhibit (a : Access) (fc : Fin 32) (on : Bool) (s : State) : Host.Outcome State Fault Refusal :=
  .next (gate s a (Reg.FIO_FC_CTRL fc) true (fun t => fioInhibit t fc on))

def execFioGrpWarn (g : Fin 4) (mv : Nat) (s : State) : Host.Outcome State Fault Refusal := .next (fioGrpWarn s g mv)

def execFioGrpNormal (g : Fin 4) (mv : Nat) (s : State) : Host.Outcome State Fault Refusal := .next (fioGrpNormal s g mv)

def execFioGrpLockout (g : Fin 4) (mv : Nat) (s : State) : Host.Outcome State Fault Refusal := .next (fioGrpLockout s g mv)

def execFioGrpRecover (g : Fin 4) (mv : Nat) (s : State) : Host.Outcome State Fault Refusal := .next (fioGrpRecover s g mv)

def execFioGrpNosupply (g : Fin 4) (mv : Nat) (s : State) : Host.Outcome State Fault Refusal := .next (fioGrpNosupply s g mv)

def execGroupSupplyReturn (g : Fin 4) (mv : Nat) (s : State) : Host.Outcome State Fault Refusal := .next (groupSupplyReturn s g mv)

def execAck (a : Access) (g : Fin 4) (s : State) : Host.Outcome State Fault Refusal :=
  .next (gate s a (Reg.FIO_G_ACK g) true (fun t => fioAck t g))

def execDiagnosticClear (fc : Fin 32) (cond : Fin 7) (s : State) : Host.Outcome State Fault Refusal := .next (diagnosticClear s fc cond)

end Sys2Proof.Machine
end

