-- ==== Sys2Proof/Machine/SealBase.lean ====
section
/-! DEFINITION. The queues of the Seal unit's two engines (spec/15 R476). -/

namespace Sys2Proof.Machine

def State.setSea (s : State) (x : Sea) : State := { s with sea := x }

/-- SIGQ shows the jobs behind the running one, SIGN_BUSY a signature queued or running (R476; DEDUCED, log entry 42). -/
def sealNote (s : State) : State :=
  s.setFs [(Reg.SEA_STAT_SIGQ, min 4 (s.sea.jobs.length - 1)), (Reg.SEA_STAT_SIGN_BUSY, b2n (s.sea.jobs.any (fun j => j.kind = 2)))]

/-- One job runs and four more wait. -/
def sealFull (s : State) : Bool := decide (5 ≤ s.sea.jobs.length)

def sealPush (s : State) (j : SealJob) : State := sealNote (s.setSea { s.sea with jobs := s.sea.jobs ++ [j] })

/-- The hash engine: one job runs and four more wait. -/
def hashFull (s : State) : Bool := decide (5 ≤ s.sea.hashJobs.length)

def hashPush (s : State) (kind : Nat) : State := s.setSea { s.sea with hashJobs := s.sea.hashJobs ++ [kind] }

/-- The oldest hash job of that kind is done. -/
def hashDone (s : State) (kind : Nat) : State := s.setSea { s.sea with hashJobs := s.sea.hashJobs.erase kind }

/-- The jobs of a command leave the queue. -/
def sealCancel (s : State) (n head : Nat) : State :=
  sealNote (s.setSea { s.sea with jobs := s.sea.jobs.filter (fun j => !(j.sess = n && j.head = head)) })

/-- A command that the engine cannot take (R476). -/
def sealBusy (s : State) : CmdOut := refuse (s.incS Reg.SEA_CNT_BUSY_REJ) stBUSY

end Sys2Proof.Machine
end

