-- ==== Sys2Proof/Machine/QuillBase.lean ====
section
/-! DEFINITION. The Quill engine around the instructions (spec/09 R283 to R292, R303 to R321): signal space, boundaries, task
states, faults, online change, forces, restarts, host-assisted tasks. -/

namespace Sys2Proof.Machine

/-! ### State access -/

namespace State

def setQil (s : State) (x : Qil) : State := { s with qil := x }

def qrun (s : State) (t : Nat) : QRun := s.qil.run.get t

def setQrun (s : State) (t : Nat) (r : QRun) : State := s.setQil { s.qil with run := s.qil.run.set t r }

/-- State of a task: 0 DISABLED, 1 IDLE, 2 READY, 3 RUNNING, 4 PRE-EMPTED, 5 HALTED, 6 HOST. -/
def taskSt (s : State) (t : Nat) : Nat := s.f (Reg.QIL_T_STAT_STATE t)

def setTaskSt (s : State) (t n : Nat) : State := s.setF (Reg.QIL_T_STAT_STATE t) n

/-- The image of bank 0 (A) or 1 (B), an empty program where the bank holds none. -/
def qbank (s : State) (b : Nat) : QProg := (s.qil.bank.get b).getD default

/-- The active program. -/
def progAct (s : State) : QProg := s.qbank (s.f Reg.QIL_STAT_BANK)

/-- The program that task `t` runs. -/
def progOf (s : State) (t : Nat) : QProg := s.qbank (s.f (Reg.QIL_T_STAT_BANK t))

/-- Task `t`'s declaration. -/
def qtask (s : State) (t : Nat) : QTask := (s.progOf t).tasks.getD t default

def ldData (s : State) (a : Nat) : Word := s.qil.data.get a

def stData (s : State) (a : Nat) (v : Word) : State := s.setQil { s.qil with data := s.qil.data.set a v }

end State

/-! ### Global signals (R287) -/

/-- Class-0 symbol ID of a signal. -/
def sigId (x : Sig) : Nat := x.group * 65536 + x.index

/-- The signal of a class-0 symbol ID. -/
def sigOfId (n : Nat) : Sig := ⟨n / 65536 % 4096, n % 65536⟩

/-- An absent instance of the SPT-8120 (R1, R2, R287). -/
def sigAbsent (s : State) (x : Sig) : Bool :=
  s.is8120 && (((x.group = 0x003 || x.group = 0x010) && 16 ≤ x.index) || (x.group = 0x012 && 128 ≤ x.index) ||
    (x.group = 0x014 && 32 ≤ x.index) || (x.group = 0x015 && 32 ≤ x.index))

/-- The word of a GOOSE member as the signal space holds it; the spec does not say which word of a UtcTime's eight octets it is
(log entry 52). -/
def gsWord (s : State) (i : Nat) : Nat :=
  let v := (s.gs (i / 64)).app.vals.getD (i % 64) 0
  match (s.gsDecl (i / 64)).members[i % 64]? with
  | some m => if m.kind = 5 then tc 32 (Config.unstated 0x011 v 0) else v
  | none => v

/-- Value of a signal. -/
def sigVal (s : State) (x : Sig) : Word :=
  let i := x.index
  let n : Nat :=
    if sigAbsent s x then 0
    else if x.group = 0x001 then b2n (s.qil.qb.testBit i)
    else if x.group = 0x002 then (s.qil.ug.get i).toNat
    else if x.group = 0x003 then b2n (s.qil.fcmd.testBit i)
    else if x.group = 0x004 then (s.qil.pv.get i).toNat
    else if x.group = 0x010 then s.f (Reg.FIO_FC_STAT_IN i)
    else if x.group = 0x011 then gsWord s i
    else if x.group = 0x012 then (s.nib.nc.get i).delivered
    else if x.group = 0x013 then (if i < 16 then s.f (Reg.STK_SO_STAT_ASSERTED i) else s.f (Reg.STK_SO_STAT_PRE (i - 16)))
    else if x.group = 0x014 then b2n ((s.f (Reg.DUC_DL_STAT_RXCMD (i / 16))).testBit (i % 16))
    else if x.group = 0x015 then b2n (s.afe.crossed.testBit i)
    else 0
  BitVec.ofNat 32 n

/-- Quality byte of a signal that carries one; others are good. -/
def sigQual (s : State) (x : Sig) : Word :=
  BitVec.ofNat 32 (if sigAbsent s x then 1
    else if x.group = 0x010 then s.f (Reg.FIO_FC_STAT_QUAL x.index)
    else if x.group = 0x011 then (s.pbi.gs.get (x.index / 64)).app.quals.getD (x.index % 64) 1
    else 0)

/-- A signal that Quill writes takes a value; a BOOL takes bit 0. -/
def sigPut (s : State) (x : Sig) (v : Word) : State :=
  let q := s.qil
  if x.group = 0x001 then s.setQil { q with qb := setBitOf q.qb x.index (v.getLsbD 0) }
  else if x.group = 0x002 then s.setQil { q with ug := q.ug.set x.index v }
  else if x.group = 0x003 then s.setQil { q with fcmd := setBitOf q.fcmd x.index (v.getLsbD 0) }
  else if x.group = 0x004 then s.setQil { q with pv := q.pv.set x.index v }
  else s

/-! ### Forces (R312 to R315) -/

/-- The entry of a symbol. -/
def forceOf (s : State) (id : Nat) : Option (Nat × QForce) :=
  (List.range 256).findSome? (fun k => match s.qil.force.get k with
    | some e => if e.sym = id then some (k, e) else none
    | none => none)

/-- A signal no longer takes back the value that a cleared force stood in front of. -/
def forgetRestore (s : State) (x : Sig) : State := s.setQil { s.qil with restore := s.qil.restore.filter (fun p => p.1 ≠ sigId x) }

/-- A value that a program or a safe state gives to a signal; a forced signal keeps its forced value and stores it as UNFORCED (R314). -/
def sigWrite (s : State) (x : Sig) (v : Word) : State :=
  match forceOf s (sigId x) with
  | some (k, e) =>
    sigPut (s.setQil { s.qil with force := s.qil.force.set k (some { e with unforced := v }) }) x e.val
  | none => sigPut (forgetRestore s x) x v

/-- Forces and cleared forces reach the signal space at a boundary action (R313). -/
def forceSync (s : State) : State :=
  let s1 := (s.qil.restore.foldl (fun t p => sigPut t (sigOfId p.1) p.2) s)
  let s2 := s1.setQil { s1.qil with restore := [], boundAt := some s1.ltc }
  (List.range 256).foldl (fun t k => match t.qil.force.get k with
    | some e => sigPut t (sigOfId e.sym) e.val
    | none => t) s2

/-- NFORCE counts the entries in use. -/
def noteForces (s : State) : State := s.setF Reg.QIL_STAT_NFORCE ((List.range 256).filter (fun k => (s.qil.force.get k).isSome)).length

/-! ### What a change of the signal space brings (R290, R354) -/

/-- The logic-output flit with all 128 Quill bits. -/
def qbFlit (s : State) : List (Nat × Bool × Bool) := (List.range 128).map (fun i => (256 + i, s.qil.qb.testBit i, false))

/-- The flit goes to Stroke where a bit differs from what it was sent (R290); safe values and a switch at once do not wait for a credit,
their flit does (R19, log entry 52). -/
def qbSend (s : State) : State := if logicNew s (qbFlit s) = [] then s else logicFlit s (qbFlit s)

/-- The publication values of a publication's members of KIND 1 (R357). -/
def gpPvs (s : State) (g : Nat) : List Nat :=
  ((List.range (s.f (Reg.STN_GP_CFG_NMEMB g))).filter (fun m => s.f (Reg.STN_GP_MEM_KIND g m) = 1)).map (fun m => s.f (Reg.STN_GP_MEM_INDEX g m))

/-- A changed value enters the publication's pending image, or waits behind one not yet published (R354, R280). -/
def pvValue (pv : Tab Word) (now : Nat × Nat) (x : GpState) (k : Nat) : GpState :=
  if x.pvImg.get k = pv.get k then x
  else if x.pvDirty.contains k then { x with pvHeld := some now }
  else { x with pvImg := x.pvImg.set k (pv.get k), pvDirty := k :: x.pvDirty, pv := some now }

def pvNoteAt (s : State) (g : Nat) (now : Nat × Nat) : State :=
  { s with duc := { s.duc with gp := s.duc.gp.set g ((gpPvs s g).foldl (pvValue s.qil.pv now) (s.duc.gp.get g)) } }

def pvNoteOne (s : State) (g : Nat) : State := pvNoteAt s g (s.dtcNs, s.tq)

/-- The publications that use a changed publication value have a new state to form (R354). -/
def pvNote (s : State) : State := (List.range 32).foldl (fun t g => if (t.duc.gp.get g).live then pvNoteOne t g else t) s

/-- The signal space after a boundary action: a flit where a Quill bit changed, new publication states. -/
def afterWrite (old s : State) : State := pvNote (fioQuillAck old.qil.qb (qbSend s))

/-- A boundary action that changes a Quill bit has to wait for a credit of the logic-output queue (R19, R290). -/
def qbWaits (old s : State) : Bool := s.qil.qb ≠ old.qil.qb && logicFull old

/-- A boundary action, which waits for its credit. -/
def withCredit (old s : State) : State := if qbWaits old s then old else afterWrite old s

/-! ### Images (R288, R289) -/

/-- The words of task `t`'s input image as `k` declares it, header first. -/
def inputWords (s : State) (t : Nat) (k : QTask) : List Word :=
  let d := s.stampNow
  let head : List Nat := [s.qrun t |>.rel, (s.qrun t).rel / 2 ^ 32, d, d / 2 ^ 32,
    s.rul.clk.epoch % 65536 + s.tq * 65536 + s.f Reg.RUL_TQ_ASYM * 262144, s.sysState, (s.qrun t).overs, 0]
  head.map (BitVec.ofNat 32) ++ k.ins.map (fun i => if i.qual then sigQual s i.sig else sigVal s i.sig)

/-- Words stored from a data address. -/
def stWords (s : State) (a : Nat) : List Word → State
  | [] => s
  | v :: l => stWords (s.stData a v) (a + 1) l

/-- The output image written back (R289). -/
def writeBack (s : State) (outs : List QOut) (vals : List Word) : State :=
  ((List.range outs.length).zip outs).foldl (fun t p => sigWrite t p.2.sig (vals.getD p.1 0)) (forceSync s)

/-- Output words as the task's data holds them. -/
def outWords (s : State) (t : Nat) : List Word :=
  (List.range (s.qtask t).outs.length).map (fun i => s.ldData ((s.qtask t).outBase + i))

/-- Declared safe values of the task's signals are written (R304, R320). -/
def writeSafe (s : State) (t : Nat) : State := writeBack s (s.qtask t).outs ((s.qtask t).outs.map (·.safe))

/-- The end boundary of a task that is stopped (R289, R304): safe values, then every pending GOOSE message. -/
def safeEnd (s : State) (t : Nat) : State := gsApplyPending (afterWrite s (writeSafe s t))

/-! ### Task scheduling (R283 to R285) -/

/-- Length of P in ns. -/
def periodNs (s : State) (t : Nat) : Nat := s.f (Reg.QIL_T_CFG_PERIOD t) * 62500
def phaseNs (s : State) (t : Nat) : Nat := s.f (Reg.QIL_T_PHASE_PHASE t) * 62500

/-- The latest point of a task's grid not after an LTC. -/
def gridPoint (s : State) (t now : Nat) : Nat := (now - phaseNs s t) / periodNs s t * periodNs s t + phaseNs s t

/-- The first point of the grid after an LTC. -/
def gridAfter (s : State) (t now : Nat) : Nat := if now < phaseNs s t then phaseNs s t else gridPoint s t now + periodNs s t

/-- The first point of the grid at or after an LTC. -/
def gridFrom (s : State) (t now : Nat) : Nat := if now ≤ phaseNs s t then phaseNs s t else gridAfter s t (now - 1)

/-- A task of higher priority waits to start. -/
def higherWaits (s : State) (t : Nat) : Bool :=
  (List.range t).any (fun u => s.taskSt u = 2 || (s.taskSt u = 6 && (s.qrun u).due))

/-- The running task, unless one of higher priority pre-empts it at this instruction boundary (R284). -/
def runner (s : State) : Option Nat :=
  match (List.range 8).find? (fun t => s.taskSt t = 3) with
  | some t => if higherWaits s t then none else some t
  | none => none

/-- A pre-empted task resumes when nothing of higher priority waits. -/
def resumeNext (s : State) : State :=
  if (List.range 8).any (fun t => s.taskSt t = 3) then s
  else match (List.range 8).find? (fun t => s.taskSt t = 4) with
    | some t => if higherWaits s t then s else s.setTaskSt t 3
    | none => s

/-- A run whose release instant is an LTC that has come, with DTC epoch and stamp of that instant. -/
def QRun.released (s : State) (r : QRun) (rel : Nat) : QRun :=
  let ns := s.dtcNs - (s.ltc - rel)
  { r with rel := rel, relEpoch := s.rul.clk.epoch, relStamp := stampNs ns (s.tqAt ns), overEp := false }

/-- TASK_RELEASE (R283, R285, R319). -/
def taskRelease (s : State) (t : Nat) : State :=
  let r := s.qrun t
  if !s.running || periodNs s t = 0 || s.ltc < r.next || s.ltc < phaseNs s t then s
  else
    let rel := gridPoint s t s.ltc
    let st := s.taskSt t
    let r1 : QRun := { r with next := rel + periodNs s t }
    if st = 1 then (s.setQrun t (QRun.released s r1 rel)).setTaskSt t 2
    else if st = 2 || st = 3 || st = 4 || (st = 6 && r.due) then
      let s1 := (s.setQrun t { r1 with overEp := true, overs := (r.overs + 1) % 2 ^ 32 }).incS (Reg.QIL_T_CNT_OVERRUN t)
      if r.overEp then s1 else s1.log Ev.QIL_OVERRUN t
    else if st = 6 then s.setQrun t { QRun.released s r1 rel with due := true }
    else s.setQrun t r1

/-! ### Symbols (R307) and restarts (R316, R317) -/

/-- Slots of a kind that some task of `ts` owns. -/
def ownSlots (l : List QSlot) (ts : List Nat) : List QSlot := l.filter (fun x => ts.contains x.task)

/-- Retained variables within the retain window of some task of `ts`. -/
def ownRet (p : QProg) (ts : List Nat) : List QRet :=
  p.retained.filter (fun v => ts.any (fun t => (p.tasks.getD t default).retLo ≤ v.addr && v.addr < (p.tasks.getD t default).retHi))

/-- The data window takes its initial values (R305, R311, R317). -/
def initWindow (s : State) (p : QProg) (t : Nat) : State :=
  let k := p.tasks.getD t default
  let kept : Tab Word := s.qil.data.filter (fun q => !(k.dataLo ≤ q.1 && q.1 < k.dataHi))
  let d := (p.data.filter (fun q => k.dataLo ≤ q.1 && q.1 < k.dataHi)).foldl (fun d q => Tab.set d q.1 q.2) kept
  s.setQil { s.qil with data := d }

/-- A retained variable takes its initial value. -/
def initRet (s : State) (v : QRet) : State := stWords s v.addr ((List.range v.words).map (fun i => v.init.getD i 0))

/-- The registers that show a task's period and phase, and its bank. -/
def noteTask (s : State) (t b : Nat) : State :=
  let k := (s.qbank b).tasks.getD t default
  s.setFs [(Reg.QIL_T_CFG_PERIOD t, k.period), (Reg.QIL_T_PHASE_PHASE t, k.phase), (Reg.QIL_T_STAT_BANK t, b)]

/-- QIL_PROG_ACT, QIL_PROG_INACT and PERTASK follow the banks. -/
def noteBanks (s : State) : State :=
  let b := s.f Reg.QIL_STAT_BANK
  let valid := s.on Reg.QIL_STAT_LOAD_VALID
  let other := s.qbank (1 - b)
  s.setFs [(Reg.QIL_PROG_ACT_ID, (s.qbank b).id), (Reg.QIL_PROG_INACT_ID, if valid then other.id else 0),
    (Reg.QIL_STAT_PERTASK, b2n (valid && other.pertask && decide (other.predecessor = (s.qbank b).id)))]

/-- Every signal that a task writes, in the program that it runs by now, takes a value, forces still applied (R286, R309, R314). -/
def allOuts (s : State) (v : QOut → Word) : State :=
  afterWrite s ((List.range 8).foldl (fun t n => (s.qtask n).outs.foldl (fun u o => sigWrite u o.sig (v o)) t) s)

/-- What both restarts do: the program of bank A, no force, no switch, no load, tasks at rest, all counters cleared. -/
def quillRestart (s : State) (p : QProg) : State :=
  let q := s.qil
  let s1 := s.setQil { q with bank := Tab.set ([] : Tab (Option QProg)) 0 (some p), force := [], restore := [], run := [], sw := none, load := none,
                              qb := 0, fcmd := 0, ug := [], pv := [] }
  let s2 := (s1.wr Reg.QIL_STAT 0)
  let s3 := (List.range 8).foldl (fun t n =>
    let u := ([Reg.QIL_T_CFG n, Reg.QIL_T_PHASE n, Reg.QIL_T_STAT n, Reg.QIL_T_CNT n, Reg.QIL_T_RESP n, Reg.QIL_T_FAULT n, Reg.QIL_T_HASEQ n]).foldl (fun u a => u.wr a 0) t
    noteTask u n 0) s2
  noteBanks s3

/-- Data of every task at its initial values. -/
def initAll (s : State) (p : QProg) : State := (List.range 8).foldl (fun t n => initWindow t p n) s

/-- A cold restart (R316): everything at its initial value, nothing FRESH; the retain directory is written. -/
def quillCold (s : State) (p : QProg) : State :=
  let s1 := initAll ((quillRestart s p).setQil { (quillRestart s p).qil with data := [] }) p
  let s2 := p.retained.foldl initRet s1
  let tm := p.timers.foldl (fun (m : Tab QTm) (x : QSlot) => m.set x.symId { (default : QTm) with inm := decide (x.init ≠ (0 : Int)) }) ([] : Tab QTm)
  let ct := p.counters.foldl (fun (m : Tab QCt) (x : QSlot) => m.set x.symId { (default : QCt) with cv := x.init, cum := x.cum, cdm := x.cdm }) ([] : Tab QCt)
  let ed := p.edges.foldl (fun (m : Tab QEd) (x : QSlot) => m.set x.symId { (default : QEd) with m := decide (x.init ≠ (0 : Int)) }) ([] : Tab QEd)
  allOuts (s2.setQil { s2.qil with tm := tm, ct := ct, ed := ed, retDir := p.retained }) (·.safe)

/-- Old value of a retained variable under the same symbol ID and type (R307, R317). -/
def heldRet (dir : List QRet) (old : Tab Word) (v : QRet) : Option (List Word) :=
  match dir.find? (fun d => d.symId = v.symId && d.dtype = v.dtype && d.words = v.words) with
  | some d => some ((List.range d.words).map (fun i => old.get (d.addr + i)))
  | none => none

/-- Retained variables take what the directory holds, else their initial values. -/
def placeRet (dir : List QRet) (old : Tab Word) (s : State) (v : QRet) : State :=
  match heldRet dir old v with
  | some ws => stWords s v.addr ws
  | none => initRet s v

/-- A warm restart (R317). -/
def quillWarm (s : State) (p : QProg) : State :=
  let old := s.qil.data
  let dir := s.qil.retDir
  let s1 := initAll (quillRestart s p) p
  let s2 := p.retained.foldl (placeRet dir old) s1
  let fresh := p.retained.filter (fun v => (heldRet dir old v).isNone)
  let s3 := if fresh = [] then s2 else s2.log Ev.QIL_RETAIN_INIT noInst [.w fresh.length]
  let tm := p.timers.foldl (fun (m : Tab QTm) (x : QSlot) => m.set x.symId { (default : QTm) with fresh := true }) ([] : Tab QTm)
  let ct := p.counters.foldl (fun (m : Tab QCt) (x : QSlot) =>
    m.set x.symId { cv := if x.retain then (s.qil.ct.get x.symId).cv else x.init, cum := false, cdm := false, freshU := true, freshD := true }) ([] : Tab QCt)
  let ed := p.edges.foldl (fun (m : Tab QEd) (x : QSlot) => m.set x.symId { (default : QEd) with fresh := true }) ([] : Tab QEd)
  allOuts (s3.setQil { s3.qil with tm := tm, ct := ct, ed := ed }) (·.safe)

/-- Entry into IN_SERVICE or TEST from another state (R286): initial values; releases follow the grid. -/
def quillEnter (s : State) (ha : Nat → Bool) : State :=
  let s1 := allOuts s (·.init)
  (List.range 8).foldl (fun t n =>
    let dis := decide (periodNs t n = 0)
    let h := ha n
    let u := (t.setTaskSt n (if dis then 0 else if h then 6 else 1)).setB (Reg.QIL_T_CFG_HA n) h
    u.setQrun n { u.qrun n with next := if dis then 0 else gridFrom u n u.ltc, haAt := u.ltc }) s1

/-- IN_SERVICE and TEST are left (R286): no task runs, safe values. -/
def quillLeave (s : State) : State :=
  let s1 := (List.range 8).foldl (fun t n =>
    let u := t.setQrun n { t.qrun n with due := false, bits := [], calls := [] }
    if u.taskSt n = 2 || u.taskSt n = 3 || u.taskSt n = 4 then u.setTaskSt n 1 else u) s
  allOuts s1 (·.safe)

/-- In RESET the signal space holds nothing (R286), and no force stands. -/
def quillEmpty (s : State) : State :=
  s.setQil { s.qil with qb := 0, fcmd := 0, ug := [], pv := [], force := [], restore := [] }

/-! ### End of a run -/

/-- The longest response, and the count of runs. -/
def runEnds (s : State) (t : Nat) : State :=
  let r := s.qrun t
  (s.maxF (Reg.QIL_T_RESP_RESPMAX t) (s.ltc - r.rel)).setQrun t { r with bits := [], calls := [] }

/-! ### Online change (R309 to R311) -/

/-- The slots of one class at a switch: states of symbols kept stay, the others go, new ones start as `mk` says. -/
def carry {α : Type} [Inhabited α] [DecidableEq α] (m : Tab α) (old new : List QSlot) (mk : QSlot → α) : Tab α :=
  let same := fun (a b : QSlot) => a.symId = b.symId && a.kind = b.kind
  let gone := old.filter (fun a => !new.any (same a))
  let m1 := gone.foldl (fun m a => m.set a.symId default) m
  (new.filter (fun b => !old.any (same b))).foldl (fun m b => m.set b.symId (mk b)) m1

/-- Symbols of the old program that the new one cancels, in program order. -/
def cancelled (old new : List QSlot) : List Nat :=
  (old.filter (fun a => !new.any (fun b => a.symId = b.symId && a.kind = b.kind))).map (·.symId)

/-- A task's outputs include a symbol with that type. -/
def writesSym (outs : List QOut) (id : Nat) (bool : Bool) : Bool := outs.any (fun o => sigId o.sig = id && o.bool = bool)

/-- Whether a force entry is of a BOOL. -/
def forceBool (p : QProg) (id : Nat) : Bool := p.tasks.any (fun k => k.outs.any (fun o => sigId o.sig = id && o.bool))

/-- State of a task whose program has switched (R306, R311, R319): DISABLED without a period; a HALTED or DISABLED one is at rest. -/
def switchedSt (period : Nat) (ha : Bool) (st : Nat) : Nat :=
  if period = 0 then 0 else if st = 0 || st = 5 then (if ha then 6 else 1) else st

/-- A task runs from its other bank: its period, phase and state, and the next release on the new grid. -/
def switchSlot (s : State) (t : Nat) : State :=
  let b := 1 - s.f (Reg.QIL_T_STAT_BANK t)
  let s1 := (noteTask s t b).setB (Reg.QIL_T_STAT_SW_PEND t) false
  let was := s1.taskSt t
  let new := switchedSt (s1.f (Reg.QIL_T_CFG_PERIOD t)) (s1.on (Reg.QIL_T_CFG_HA t)) was
  let r := s1.qrun t
  (s1.setTaskSt t new).setQrun t { r with next := if new = 0 then 0 else gridAfter s1 t s1.ltc, due := r.due && decide (new = 6),
                                          haAt := if new = 6 && was ≠ 6 then s1.ltc else r.haAt }

/-- The carry-over of the tasks `ts` (R311), in the order of its table; their symbols are matched together. -/
def switchTasks (s : State) (ts : List Nat) : State :=
  let p := s.progOf (ts.headD 0)
  let n := s.qbank (1 - s.f (Reg.QIL_T_STAT_BANK (ts.headD 0)))
  let q := s.qil
  let sl := fun (l : List QSlot) => ownSlots l ts
  let oldRet := ownRet p ts
  let newRet := ownRet n ts
  let lost := oldRet.filter (fun a => !newRet.any (fun v => a.symId = v.symId && a.dtype = v.dtype && a.words = v.words))
  let gone := cancelled (sl p.timers) (sl n.timers) ++ cancelled (sl p.counters) (sl n.counters) ++
    cancelled (sl p.edges) (sl n.edges) ++ lost.map (·.symId)
  let tm := carry q.tm (sl p.timers) (sl n.timers) (fun _ => { (default : QTm) with fresh := true })
  let ct := carry q.ct (sl p.counters) (sl n.counters) (fun x => { cv := x.init, cum := false, cdm := false, freshU := true, freshD := true })
  let ed := carry q.ed (sl p.edges) (sl n.edges) (fun _ => { (default : QEd) with fresh := true })
  let s1 := gone.foldl (fun u id => u.log Ev.QIL_SYM_CANCEL noInst [.w id]) (s.setQil { q with tm := tm, ct := ct, ed := ed })
  let s2 := newRet.foldl (placeRet oldRet q.data) s1
  let s3 := ts.foldl (fun u t => initWindow u n t) s2
  let outs := ts.flatMap (fun t => (p.tasks.getD t default).outs)
  let s4 := (outs.filter (fun o => !n.tasks.any (fun k => k.outs.any (fun x => x.sig = o.sig)))).foldl (fun u o => sigPut (forgetRestore u o.sig) o.sig 0) s3
  let s5 := (List.range 256).foldl (fun u k => match u.qil.force.get k with
    | some e =>
      if outs.any (fun o => sigId o.sig = e.sym) && !n.tasks.any (fun j => writesSym j.outs e.sym (forceBool p e.sym)) then
        (u.setQil { u.qil with force := u.qil.force.set k none }).log Ev.FORCE_DROPPED noInst [.w e.sym]
      else u
    | none => u) s4
  ts.foldl switchSlot (noteForces s5)

/-- The last task has switched (R309, R310). -/
def switchDone (s : State) (w : QSw) : State :=
  let b := s.f Reg.QIL_STAT_BANK
  let s1 := s.setFs [(Reg.QIL_STAT_BANK, 1 - b), (Reg.QIL_STAT_SW_PEND, 0)]
  let s2 := noteBanks (s1.setQil { s1.qil with sw := none, retDir := (s.qbank (1 - b)).retained })
  postHead (s2.log Ev.QIL_SWITCH_DONE noInst [.w (s.qbank b).id, .w (s.qbank (1 - b)).id, .w w.mode]) w.sess w.head stOK []

/-- After a task switched under MODE 1. -/
def switchCheck (s : State) : State :=
  match s.qil.sw with
  | some w => if w.mode = 1 && (List.range 8).all (fun t => !s.on (Reg.QIL_T_STAT_SW_PEND t)) then switchDone s w else s
  | none => s

/-- A task switches at its start, or at once when HALTED or DISABLED (R309). -/
def switchOne (s : State) (t : Nat) : State := if s.on (Reg.QIL_T_STAT_SW_PEND t) then switchCheck (switchTasks s [t]) else s

/-- A task that has become HALTED switches at once where a switch waits for it (R309). -/
def haltedSwitch (s : State) (t : Nat) : State := if s.on (Reg.QIL_T_STAT_SW_PEND t) then afterWrite s (switchOne s t) else s

/-! ### Task faults (R303 to R305) -/

/-- A task fault (R304); cause 5 re-initialises the data window and the task takes its next release (R305). -/
def taskFault (s : State) (t cause pc : Nat) : State :=
  let s1 := runEnds (safeEnd s t) t
  let s2 := s1.setFs [(Reg.QIL_T_FAULT_CAUSE t, cause), (Reg.QIL_T_FAULT_PC t, pc)]
  let s3 := s2.log Ev.QIL_TASK_FAULT t [.w cause, .w pc]
  resumeNext (if cause = 5 then (initWindow s3 (s3.progOf t) t).setTaskSt t 1 else haltedSwitch (s3.setTaskSt t 5) t)

/-- A task whose program is lost is HALTED under R304 (R305, R500); a release that a HOST task still had goes with its run. -/
def taskHalt (s : State) (t : Nat) : State :=
  let s1 := safeEnd s t
  let s2 := if s.taskSt t = 3 || s.taskSt t = 4 then runEnds s1 t else s1
  let s3 := s2.setQrun t { s2.qrun t with due := false }
  resumeNext (haltedSwitch (oosHealth ((s3.setTaskSt t 5).log Ev.QIL_MEM_HALT t)) t)

/-! ### QIL_SWITCH (R309, R310) -/

/-- QIL_SWITCH, its conditions in order (R309, R310). -/
def qilSwitchBody (n : Nat) (s : State) (c : Cmd) : CmdOut :=
  let mode := c.arg 0 1
  if s.level n ≠ 0 then refuse s stPRIV
  else if 1 < mode || !c.zero 1 32 || (mode = 1 && !s.on Reg.QIL_STAT_PERTASK) then refuse s stARG
  else if !s.on Reg.QIL_STAT_LOAD_VALID || s.qil.sw.isSome || s.qil.load.isSome then refuse s stSTATE
  else
    let s1 := (s.setQil { s.qil with sw := some ⟨n, c.sqHead, mode, s.ltc⟩ }).setB Reg.QIL_STAT_SW_PEND true
    if mode = 0 then goesOn s1
    else
      let s2 := (List.range 8).foldl (fun t k => t.setB (Reg.QIL_T_STAT_SW_PEND k) true) s1
      goesOn (afterWrite s2 ((List.range 8).foldl (fun t k => if t.taskSt k = 0 || t.taskSt k = 5 then switchOne t k else t) s2))

/-- The deadline of a switch's command has passed (R310); HST_CMD_TIMEOUT completes the command. -/
def switchExpired (s : State) (w : QSw) : Bool := (s.sess w.sess).cmds.any (fun c => c.sqHead = w.head && c.started && decide (c.deadline ≤ s.ltc))

/-- QIL_SWITCH_INSTANT (R309, R310): MODE 0 acts on all tasks at the first instant at which none is busy, within 100 ms and within
the command's deadline. -/
def qilSwitchInstant (s : State) : State :=
  match s.qil.sw with
  | some w =>
    if w.mode ≠ 0 then s
    else if w.at' + 100000000 ≤ s.ltc then
      postHead ((s.setQil { s.qil with sw := none }).setB Reg.QIL_STAT_SW_PEND false) w.sess w.head stTIMEOUT []
    else if switchExpired s w then s
    else if (List.range 8).all (fun t => s.taskSt t ≠ 2 && s.taskSt t ≠ 3 && s.taskSt t ≠ 4) then
      let s1 := switchTasks s (List.range 8)
      if qbWaits s s1 then s else switchDone (afterWrite s s1) w
    else s
  | none => s

/-! ### Loading (R308) -/

/-- QIL_LOAD, its conditions in order; a word of the image that cannot be read ends it with INTEGRITY (R499). -/
def qilLoadBody (n : Nat) (e : Ecc) (img : QProg) (s : State) (c : Cmd) : CmdOut :=
  let off := c.arg 0 8
  let len := c.arg 8 4
  if s.level n ≠ 0 then refuse s stPRIV
  else if len < 4096 || 1048576 < len || s.rd Reg.HST_BULKSIZE < off + len || !c.zero 12 32 then refuse s stARG
  else if s.qil.sw.isSome || s.qil.load.isSome then refuse s stSTATE
  else if sealFull s || hashFull s then sealBusy s
  else if s.lost e then refuse (memNote s e) stINTEGRITY
  else
    let s := memNote s e
    goesOn (sealPush ((hashPush (s.setQil { s.qil with load := some ⟨n, c.sqHead, img⟩ }) 0).setB Reg.QIL_STAT_LOAD_BUSY true)
    ⟨3, n, c.sqHead, c, img.sigOk⟩)

/-- The first check that a loaded image fails: 0 signature, 1 hash, 2 variant, 3 signal map. -/
def loadFails (s : State) (p : QProg) : Option Nat :=
  if !p.sigOk then some 0 else if !p.hashOk then some 1 else if p.variant ≠ s.f Reg.SYS_ID_VARIANT then some 2
  else if p.mapHash ≠ s.qil.mapHash then some 3 else none

/-- QIL_LOAD_DONE (R308): verification is complete; the signature engine has finished the image (R476). -/
def qilLoadDone (s : State) : State :=
  match s.qil.load, s.sea.jobs.any (fun j => j.kind = 3) with
  | some l, false =>
    let b := 1 - s.f Reg.QIL_STAT_BANK
    let s1 := (hashDone (s.setQil { s.qil with load := none }) 0).setB Reg.QIL_STAT_LOAD_BUSY false
    match loadFails s l.img with
    | some k =>
      let s2 := noteBanks ((s1.setQil { s1.qil with bank := s1.qil.bank.set b none }).setB Reg.QIL_STAT_LOAD_VALID false)
      postHead (s2.log Ev.QIL_LOAD_REJECT noInst [.w (Config.causeCode 0x18A k)]) l.sess l.head stINTEGRITY []
    | none =>
      let s2 := noteBanks ((s1.setQil { s1.qil with bank := s1.qil.bank.set b (some l.img) }).setB Reg.QIL_STAT_LOAD_VALID true)
      postHead (s2.log Ev.QIL_LOAD_DONE noInst [.w l.img.id]) l.sess l.head stOK []
  | _, _ => s

/-! ### FORCE_SET and FORCE_CLEAR (R312) -/

/-- The output declaration of a symbol in the active program. -/
def outOf (s : State) (id : Nat) : Option QOut :=
  s.progAct.tasks.findSome? (fun k => k.outs.find? (fun o => sigId o.sig = id))

/-- The value that a force will stand in front of: the program's own. -/
def ownVal (s : State) (x : Sig) : Word :=
  match s.qil.restore.find? (fun p => p.1 = sigId x) with
  | some p => p.2
  | none => sigVal s x

def forceSetBody (n : Nat) (s : State) (c : Cmd) : CmdOut :=
  let id := c.arg 0 4
  let v := c.arg 4 4
  if s.level n ≠ 0 then refuse s stPRIV
  else match outOf s id with
    | none => refuse s stARG
    | some o =>
      if (o.bool && 1 < v) || !c.zero 8 32 then refuse s stARG
      else
        let free := (List.range 256).find? (fun k => (s.qil.force.get k).isNone)
        let put := fun (k : Nat) (e : QForce) =>
          okay ((noteForces (s.setQil { s.qil with force := s.qil.force.set k (some e), restore := s.qil.restore.filter (fun p => p.1 ≠ id) })).log
            Ev.QIL_FORCE_SET noInst [.w id, .w v])
        match forceOf s id, free with
        | some (k, e), _ => put k { e with val := BitVec.ofNat 32 v }
        | none, some k => put k ⟨id, BitVec.ofNat 32 v, ownVal s o.sig⟩
        | none, none => refuse s stSTATE

/-- One entry is cleared; its signal returns at the next boundary action. -/
def clearForce (s : State) (k : Nat) : State :=
  match s.qil.force.get k with
  | some e =>
    (noteForces (s.setQil { s.qil with force := s.qil.force.set k none, restore := s.qil.restore ++ [(e.sym, e.unforced)] })).log
      Ev.QIL_FORCE_CLEAR noInst [.w e.sym]
  | none => s

def forceClearBody (n : Nat) (s : State) (c : Cmd) : CmdOut :=
  let id := c.arg 0 4
  if s.level n ≠ 0 then refuse s stPRIV
  else if !c.zero 8 32 || (id ≠ 0xFFFFFFFF && (outOf s id).isNone) then refuse s stARG
  else if id = 0xFFFFFFFF then okay ((List.range 256).foldl clearForce s)
  else match forceOf s id with
    | some (k, _) => okay (clearForce s k)
    | none => refuse s stSTATE

/-! ### Start of a task (R289, R319 to R321) -/

/-- Edges and input memories of the task become FRESH (R321). -/
def freshTask (s : State) (t : Nat) : State :=
  let p := s.progOf t
  let q := s.qil
  s.setQil { q with tm := (ownSlots p.timers [t]).foldl (fun m x => m.set x.symId { m.get x.symId with fresh := true }) q.tm,
                    ct := (ownSlots p.counters [t]).foldl (fun m x => m.set x.symId { m.get x.symId with freshU := true, freshD := true }) q.ct,
                    ed := (ownSlots p.edges [t]).foldl (fun m x => m.set x.symId { m.get x.symId with fresh := true }) q.ed }

/-- Offset of a task's image areas from the Inkwell base (R319). -/
def imageBase (t : Nat) : Nat := 0xE0000 + t * 0x10000

/-- The declaration of the task's next run: that of the program it is to switch to (R309). -/
def nextTask (s : State) (t : Nat) : QTask :=
  if s.on (Reg.QIL_T_STAT_SW_PEND t) then (s.qbank (1 - s.f (Reg.QIL_T_STAT_BANK t))).tasks.getD t default else s.qtask t

/-- A start boundary (R289, R309): GOOSE, the input image, then a switch that waits; the state and the image. The image holds the
signals as they stand before the switch, laid out as the run will read it (log entry 60). -/
def startBoundary (s : State) (t : Nat) : State × List Word :=
  let s1 := gsApplyPending (forceSync s)
  (switchOne s1 t, inputWords s1 t (nextTask s1 t))

/-- An input image in the host image area, with its interrupt (R473). -/
def placeImage (s : State) (t : Nat) (img : List Word) : State :=
  (s.inkWrite (imageBase t) (img.flatMap (fun w => leBytes 4 w.toNat))).irq (24 + t)

/-- The host output image is well-formed (R320). -/
def hostImageOk (s : State) (t : Nat) (ws : List Word) : Bool :=
  decide (s.inkNat (imageBase t + 0x4000 + 4) 4 = (s.qtask t).outs.length) &&
    ((s.qtask t).outs.zip ws).all (fun p => !p.1.bool || p.2.toNat ≤ 1)

/-- The end boundary of a HOST release (R319, R320). -/
def hostEnd (s : State) (t : Nat) : State :=
  let base := imageBase t + 0x4000
  let seq := s.inkNat base 4
  let r := s.qrun t
  let ws := (List.range (s.qtask t).outs.length).map (fun i => BitVec.ofNat 32 (s.inkNat (base + 8 + 4 * i) 4))
  let new := decide (seq ≠ s.f (Reg.QIL_T_HASEQ_SEQ t))
  if new && hostImageOk s t ws then
    let s1 := if s.on (Reg.QIL_T_STAT_HA_TO t) then (s.setB (Reg.QIL_T_STAT_HA_TO t) false).log Ev.QIL_HA_RESUMED t [.w seq] else s
    let s2 := (s1.setF (Reg.QIL_T_HASEQ_SEQ t) seq).setQrun t { r with haAt := r.rel }
    writeBack s2 (s2.qtask t).outs ws
  else
    let s1 := if new then s.incS (Reg.QIL_T_CNT_HA_REJ t) else s
    if r.haAt + 4 * periodNs s t ≤ r.rel then
      let s2 := if s1.on (Reg.QIL_T_STAT_HA_TO t) then s1 else (s1.setB (Reg.QIL_T_STAT_HA_TO t) true).log Ev.QIL_HA_TIMEOUT t
      writeSafe s2 t
    else forceSync s1

/-- A release of a task in HOST (R319); a switch to P = 0 at its start boundary leaves it DISABLED. -/
def hostCycle (s : State) (t : Nat) : State :=
  let b := startBoundary s t
  if b.1.taskSt t ≠ 6 then b.1
  else
    let s1 := hostEnd (placeImage b.1 t b.2) t
    let s2 := s1.setQrun t { s1.qrun t with due := false }
    gsApplyPending (runEnds (s2.incW (Reg.QIL_T_CNT_RUNS t)) t)

/-- The word of the program at a code address. -/
def codeWord (s : State) (t pc : Nat) : Option Word := (s.progOf t).code[pc]?

/-- A word whose opcode the table of R294 lists. -/
def opcodeKnown (w : Word) : Bool := decide (w.toNat / 2 ^ 26 ≤ 0x3C)

/-- The program counter arrives at an address: a fault where no instruction stands there (R303, causes 1 and 7). -/
def arrive (s : State) (t pc : Nat) : State :=
  match codeWord s t pc with
  | some w => if opcodeKnown w then s else taskFault s t 1 pc
  | none => taskFault s t 7 pc

/-- The program starts (R289): start boundary, registers cleared, entry point. A task that its switch leaves DISABLED does not run. -/
def runStart (s : State) (t : Nat) : State :=
  let b := startBoundary s t
  if b.1.taskSt t = 0 then b.1
  else
    let s1 := stWords b.1 (b.1.qtask t).inBase b.2
    (s1.setQrun t { s1.qrun t with pc := (s1.qtask t).entry, w := [], lr := false, bits := [], calls := [], units := 0 }).setTaskSt t 3

/-- The mode change that a start brings (R46, R319, R321). -/
def taskMode (s : State) (t : Nat) : State :=
  match modePending s 5 t with
  | some ha =>
    let r := s.qrun t
    let was := decide (s.taskSt t = 6)
    let s1 := s.setB (Reg.QIL_T_CFG_HA t) ha
    let s2 :=
      if ha && !was then (s1.setQrun t { r with haAt := r.rel, due := true }).setTaskSt t 6
      else if !ha && was then (((freshTask s1 t).setQrun t { r with due := false }).setTaskSt t 2).setB (Reg.QIL_T_STAT_HA_TO t) false
      else s1
    modeTaken s2 5 t
  | none => s

/-- TASK_START (R284, R289): the READY or HOST task of highest priority starts; a lower one that runs is pre-empted. -/
def taskStart (s : State) (t : Nat) (prog : Ecc) : State :=
  let waits := s.taskSt t = 2 || (s.taskSt t = 6 && (s.qrun t).due)
  let busy := (List.range 8).find? (fun u => s.taskSt u = 3 || s.taskSt u = 4)
  let first := match busy with | some u => decide (t < u) | none => true
  if !waits || higherWaits s t || !first || !s.running then s
  else
    let s0 := memNote s prog
    if ownerLost s0 prog 0x3000000 0x40000 then taskHalt s0 t
    else
      let s1 := taskMode s0 t
      if s1.taskSt t = 6 then resumeNext (withCredit s (hostCycle s1 t))
      else
        let s2 := runStart s1 t
        if qbWaits s s2 then s
        else if s2.taskSt t = 0 then resumeNext (afterWrite s s2)
        else
          let s3 := (List.range 8).foldl (fun u k => if k ≠ t && u.taskSt k = 3 then u.setTaskSt k 4 else u) (afterWrite s s2)
          arrive s3 t (s3.qrun t).pc

/-! ### Slot snapshots (QIL_SLOT_SEL) -/

/-- The declaration of a slot among programs that tasks run. -/
def slotDecl (s : State) (pick : QProg → List QSlot) (i : Nat) : Option QSlot :=
  (List.range 8).findSome? (fun t => (pick (s.progOf t)).find? (fun x => x.slot = i && x.task = t))

/-- The words ID, STATE, D0 to D5 of a slot or force entry. -/
def slotWords (s : State) (kind i : Nat) : List Nat :=
  if kind = 0 then
    match slotDecl s (·.timers) i with
    | some d =>
      let x := s.qil.tm.get d.symId
      [d.symId, d.kind + 16 * b2n x.run + 32 * b2n x.q + 64 * b2n x.inm + 128 * b2n x.fresh + 1024 * d.task,
       x.start % 2 ^ 32, x.start / 2 ^ 32, x.exp % 2 ^ 32, x.exp / 2 ^ 32, x.pt, x.et]
    | none => []
  else if kind = 1 then
    match slotDecl s (·.counters) i with
    | some d =>
      let x := s.qil.ct.get d.symId
      [d.symId, d.kind + 128 * b2n (x.freshU || x.freshD) + 256 * b2n x.cum + 512 * b2n x.cdm + 1024 * d.task, tc 32 x.cv]
    | none => []
  else if kind = 2 then
    match slotDecl s (·.edges) i with
    | some d =>
      let x := s.qil.ed.get d.symId
      [d.symId, d.kind + 64 * b2n x.m + 128 * b2n x.fresh + 1024 * d.task]
    | none => []
  else
    match s.qil.force.get i with
    | some e =>
      let t := ((List.range 8).find? (fun k => (s.progAct.tasks.getD k default).outs.any (fun o => sigId o.sig = e.sym))).getD 0
      [e.sym, (if forceBool s.progAct e.sym then 9 else 10) + 1024 * t, e.val.toNat, e.unforced.toNat]
    | none => []

/-- QIL_SLOT_SEL_WRITE: the requester's selector and its snapshot. -/
def slotSel (s : State) (r : Requester) (v : Nat) : State :=
  let ws := slotWords s (v / 8192 % 4) (v % 8192)
  let s1 := s.setShadow r Reg.QIL_SLOT_SEL (v % 32768)
  (List.range 8).foldl (fun t k => t.setShadow r (Reg.QIL_SLOT_ID + 4 * k) (ws.getD k 0)) s1

/-- The requester behind an access: the interface of the port or of the session. -/
def accessReq (s : State) (a : Access) : Requester :=
  match a with
  | .direct r => r
  | .cmd n _ => if (s.sess n).owner = some 1 then .spi else .pcie
  | .jtag => .sup

/-! ### Meanings -/

def execQilSlotSelWrite (a : Access) (v : Word) (s : State) : Host.Outcome State Fault Refusal :=
  .next (gate s a Reg.QIL_SLOT_SEL false (fun t => slotSel t (accessReq t a) v.toNat))

def execTaskRelease (t : Fin 8) (s : State) : Host.Outcome State Fault Refusal := .next (taskRelease s t)

def execTaskStart (t : Fin 8) (prog : Ecc) (s : State) : Host.Outcome State Fault Refusal := .next (taskStart s t prog)

def execQilLoad (r : SessRead) (img : QProg) (s : State) : Host.Outcome State Fault Refusal :=
  .next (runCmd s r.sess 0x30 (qilLoadBody r.sess r.c img))

def execQilLoadDone (s : State) : Host.Outcome State Fault Refusal := .next (qilLoadDone s)

def execQilSwitch (sess : Fin 16) (s : State) : Host.Outcome State Fault Refusal := .next (runCmd s sess 0x31 (qilSwitchBody sess))

def execQilSwitchInstant (s : State) : Host.Outcome State Fault Refusal := .next (qilSwitchInstant s)

def execForceSet (sess : Fin 16) (s : State) : Host.Outcome State Fault Refusal := .next (runCmd s sess 0x32 (forceSetBody sess))

def execForceClear (sess : Fin 16) (s : State) : Host.Outcome State Fault Refusal := .next (runCmd s sess 0x33 (forceClearBody sess))

end Sys2Proof.Machine
end

