-- ==== Sys2Proof/Machine/Credits.lean ====
section
/-! DEFINITION. The queues of the mesh (spec/01 R18 to R22): credits, instances, items in flight, and the return of a credit. -/

namespace Sys2Proof.Machine

/-- Credits of each instance of a queue (R21). -/
def meshCredits : MeshQ → Nat
  | .localConv => 8
  | .detFeed => 4
  | .wavefront => 8
  | .sampleSets => 16
  | .decisions => 16
  | .logicOut => 16
  | .gooseIn => 4
  | .goosePub => 2
  | .svPub => 16
  | .linkCmd => 4
  | .linkRx => 16
  | .eventIntake => 256
  | .recCapture => 32
  | .recWrite => 128
  | .hostMeas => 16
  | .hostReads => 32
  | .inkwell => 64

/-- Instances of a queue on the variant (R1, R21). -/
def meshCount (s : State) : MeshQ → Nat
  | .localConv | .detFeed | .decisions | .hostMeas => if s.is8120 then 8 else 16
  | .linkCmd | .linkRx => if s.is8120 then 2 else 4
  | .wavefront | .recCapture | .inkwell => 16
  | .sampleSets => 224
  | .gooseIn => 64
  | .goosePub => 32
  | .svPub => 8
  | .logicOut | .eventIntake | .recWrite | .hostReads => 1

/-- The device-wide bound on operations in flight (R22). -/
def meshBound (s : State) : Nat :=
  (([.localConv, .detFeed, .wavefront, .sampleSets, .decisions, .logicOut, .gooseIn, .goosePub, .svPub, .linkCmd, .linkRx, .eventIntake,
    .recCapture, .recWrite, .hostMeas, .hostReads, .inkwell] : List MeshQ).map (fun q => meshCount s q * meshCredits q)).sum

/-- Items of instance `i` in flight (R18, R22): what has left the producer and the consumer has not finished with (log entry 52). -/
def inFlight (s : State) (q : MeshQ) (i : Nat) : Nat :=
  match q with
  | .localConv => (s.afe.convQ.get i).length
  | .detFeed => feedLag s i
  | .svPub => svPubOut s i
  | .recCapture => captureOut s i
  | .recWrite => min 128 s.vel.bursts.length
  | .wavefront => (wavefrontOut s i).length
  | .sampleSets => (s.sc i).slots.length
  | .decisions => (s.nib.toStroke.filter (fun p => p.1 = i)).length
  | .logicOut => s.stk.logicQ.length
  | .gooseIn => b2n (s.gs i).pend.isSome
  | .goosePub => (s.stk.pubOut.get i).length
  | .linkCmd => (s.stk.pubOut.get (32 + i)).length
  | .linkRx => (s.stk.dlQ.get i).length
  | .eventIntake => entriesOf s.scr.intake
  | .hostMeas => ((List.range 16).filter (fun c => (s.nc (16 * i + c)).out.isSome)).length
  | .hostReads => tagsUsed s
  | .inkwell => (s.sess i).cmds.length

/-- The producer of instance `i` sends what waited for a credit. -/
def meshSend (s : State) (q : MeshQ) (i : Nat) : State :=
  match q with
  | .localConv => localResume s
  | .detFeed => s
  | .wavefront => wavefrontResume s i
  | .sampleSets => sampleSetComplete s i
  | .svPub => localResume s
  | .recWrite => burstDone s
  | .decisions => outputLogicFlit s i
  | .logicOut => logicMove 16 s
  | .goosePub => publicationRequest s i
  | .linkCmd => publicationRequest s (32 + i)
  | .linkRx => drainLink i 16 s
  | .eventIntake => scriptOffer s none
  | .hostReads => issueReads 32 s
  | .gooseIn | .recCapture | .hostMeas | .inkwell => s

/-- CREDIT_RETURN (R18, R21): the producer that waited sends its next item while it holds a credit. A write burst has no other command
that ends it: this one does, and the next burst goes out. -/
def creditReturn (s : State) (q : MeshQ) (i : Nat) : State :=
  if i < meshCount s q && (inFlight s q i < meshCredits q || q = .recWrite || q = .localConv) then meshSend s q i else s

def execCreditReturn (q : MeshQ) (i : Fin 256) (s : State) : Host.Outcome State Fault Refusal := .next (creditReturn s q i)

end Sys2Proof.Machine
end

