-- ==== Sys2Proof/Machine/Debug.lean ====
section
/-! DEFINITION. Stylus, the JTAG port and the HEALTH output (spec/18). -/

namespace Sys2Proof.Machine

def State.setDbg (s : State) (x : Dbg) : State := { s with dbg := x }

/-! ### Stylus (R524 to R527) -/

/-- A debug unlock with SCOPE bit 0 is in force (R526). -/
def stylusUnlocked (s : State) : Bool := s.on Reg.SEA_DBG_UNLOCKED && (s.f Reg.SEA_DBG_SCOPE).testBit 0

/-- Stylus drives its lands (R526). -/
def stylusDrives (s : State) : Bool :=
  stylusUnlocked s && (s.sysState = 4 || (s.sysState = 3 && s.on Reg.DBG_GRANT_GRANT))

/-- A pulse that began at an LTC, 10 ns long (R525). -/
def pulseAt (s : State) (t : Option Nat) : Bool := match t with | some x => decide (x ≤ s.ltc) && decide (s.ltc < x + 10) | none => false

/-- The reference loop divided by 1,024 (R524): 2 × P edges in 1,024 us; its phase is not in the spec (log entry 67). -/
def paceLoop (s : State) : Bool :=
  let p := s.f Reg.SYS_PACE_P
  decide ((s.ltc * (2 * p) + (Config.unstated 524 p 0).toNat) / 1024000 % 2 = 1)

/-- The handshake of a stage (R524): request and acknowledge as one pulse each at the LTC of the stage's operation, which takes no time
here (DESIGN CHOICE, log entry 67). -/
def stagePulse (s : State) (k : Nat) : Bool :=
  if k < 16 then pulseAt s ((s.nib.eng.get k).run.map (·.start))
  else if k = 16 then pulseAt s s.stk.updAt
  else if k < 21 then pulseAt s (s.duc.dl.get (k - 17)).startAt || pulseAt s (s.duc.dl.get (k - 17)).blockAt
  else if k = 21 then pulseAt s s.qil.boundAt
  else if k = 22 then pulseAt s s.scr.commitAt
  else if k = 23 then s.vel.bursts.any (fun b => pulseAt s b.at')
  else if k < 56 then pulseAt s (s.afe.asmAt.get (k - 24))
  else false

/-- The level of a Stylus signal (R524). A boundary of DTC shows as a pulse of 10 ns. -/
def stylusSignal (s : State) (i : Nat) : Bool :=
  if 1 ≤ i && i < 17 then pulseAt s (s.afe.wd.get (i - 1)).evAt
  else if 17 ≤ i && i < 33 then (s.nib.eng.get (i - 17)).run.isSome
  else if 33 ≤ i && i < 49 then decide (16 ≤ (s.nib.toStroke.filter (fun p => p.1 = i - 33)).length)
  else if i = 49 then paceLoop s
  else if 64 ≤ i && i < 192 then stagePulse s ((i - 64) / 2)
  else if 192 ≤ i && i < 208 then s.asserted (i - 192)
  else if 208 ≤ i && i < 224 then decide (8 ≤ (s.nib.eng.get (i - 208)).queue.length)
  else if 224 ≤ i && i < 228 then pulseAt s (s.duc.dl.get (i - 224)).startAt
  else if i = 228 then !s.rul.clk.gridOff && decide (s.dtcNs * 96000 % 1000000000 < 960000)
  else if i = 229 then decide (s.dtcNs % 1000000000 < 10)
  else if i = 230 then s.ltc.testBit 10
  else if i = 231 then decide (224 < entriesOf s.scr.intake)
  else if i = 232 then decide (128 ≤ s.vel.bursts.length)
  else if 233 ≤ i && i < 249 then (s.afe.cv.get (i - 233)).busy || (s.afe.cv.get (i - 233)).win.isSome
  else false

/-- The level that the multiplexer gives TESTn (R524, R526). -/
def testSignal (s : State) (n : Nat) : Bool := stylusDrives s && stylusSignal s (s.f (Reg.DBG_SEL_SEL n))

/-- The level of TESTn: a pulse of its signal lasts 10 ns at the land (R525). -/
def testLand (s : State) (n : Nat) : Bool := testSignal s n || (stylusDrives s && pulseAt s (s.dbg.lands.get n).rise)

/-- One land looks at its signal. -/
def landTick (s : State) (n : Nat) (l : Land) : Land :=
  let g := testSignal s n
  { high := g, rise := if g && !l.high then some s.ltc else l.rise }

/-- The lands look at their signals as time passes (R525). -/
def landsTick (s : State) : State :=
  if stylusDrives s then s.setDbg { s.dbg with lands := (List.range 4).foldl (fun (t : Tab Land) n => t.set n (landTick s n (t.get n))) s.dbg.lands }
  else if s.dbg.lands = [] then s
  else s.setDbg { s.dbg with lands := [] }

/-- A condition of R526 has changed: DBG_STAT follows, and the change is logged. -/
def stylusCheck (s : State) : State :=
  let s1 := s.setB Reg.DBG_STAT_UNLOCK (stylusUnlocked s)
  let now := stylusDrives s
  if now = s.on Reg.DBG_STAT_ACTIVE then s1
  else
    let s2 := s1.setB Reg.DBG_STAT_ACTIVE now
    if now then s2.log Ev.DBG_STYLUS_ON noInst [.w (s.rd (Reg.DBG_SEL 0)), .w (s.rd (Reg.DBG_SEL 1)), .w (s.rd (Reg.DBG_SEL 2)), .w (s.rd (Reg.DBG_SEL 3))]
    else s2.log Ev.DBG_STYLUS_OFF noInst [.w (Config.causeCode 0x2E1 (if stylusUnlocked s then 1 else 0))]

/-- The in-service grant ends (R527); causes in the order of its list, from 0. -/
def grantEnd (s : State) (cause : Nat) : State :=
  if s.on Reg.DBG_GRANT_GRANT then
    stylusCheck ((s.wr Reg.DBG_GRANT 0).log Ev.DBG_GRANT_END noInst [.w (Config.causeCode 0x2E3 cause)])
  else s

/-- A write of GRANT by session `n` (R527). -/
def grantWrite (n : Nat) (on : Bool) (s : State) : State :=
  if !s.running then s.log Ev.SYS_REFUSED noInst [.w Reg.DBG_GRANT]
  else if on then
    stylusCheck ((s.setFs [(Reg.DBG_GRANT_GRANT, 1), (Reg.DBG_GRANT_SESS, n)]).log Ev.DBG_GRANT_TAKEN noInst [.w n])
  else grantEnd s 0

/-! ### HEALTH (R532, R533) -/

/-- The conditions of R532 that fail, as CAUSE codes them. -/
def healthCause (s : State) : Nat :=
  b2n (!s.running) + 2 * b2n (s.on Reg.SYS_HEALTH_LOG) + 4 * b2n (s.on Reg.DBG_HCFG_PACE && s.on Reg.SYS_PACE_ALARM_ALARM) +
    8 * b2n (s.on Reg.DBG_HCFG_OOS && s.on Reg.SYS_HEALTH_OOS) + 16 * b2n (s.on Reg.DBG_HCFG_MEM_UE && s.on Reg.SYS_HEALTH_MEM_UE)

/-- The conditions are looked at (R533): at every self-check and every change of SYS_STATE, which keeps the bound of 1 ms
(DEDUCED, log entry 40). -/
def healthCheck (s : State) : State :=
  let c := healthCause s
  let s1 := s.setF Reg.DBG_HEALTH_CAUSE c
  if c = 0 then
    if s1.on Reg.DBG_HEALTH_TOGGLING then s1
    else
      let s2 := s1.setB Reg.DBG_HEALTH_TOGGLING true
      if s2.dbg.stopped then (s2.setDbg { s2.dbg with stopped := false }).log Ev.HEALTH_RESUME else s2
  else
    let s2 := s1.setDbg { s1.dbg with health := false }
    if s2.on Reg.DBG_HEALTH_TOGGLING then
      let s3 := (s2.setB Reg.DBG_HEALTH_TOGGLING false).incW Reg.DBG_HEALTH_STOPS
      (s3.setDbg { s3.dbg with stopped := true }).log Ev.HEALTH_STOP noInst [.w (2 * c)]
    else s2

/-- Engine `e` has not stood still since the last check (R532): it is idle with an empty queue, or what it runs, or its oldest
queued evaluation, came after that check (DEDUCED, log entry 40). -/
def engineMoves (s : State) (e : Nat) : Bool :=
  let x := s.nib.eng.get e
  match x.run, x.queue with
  | none, [] => true
  | some r, _ => decide (s.dbg.checkAt ≤ r.start)
  | none, q :: _ => decide (s.dbg.checkAt ≤ q.at')

/-- SELF_CHECK (R532): the conditions are looked at, and the next edge of HEALTH is released. -/
def selfCheck (s : State) : State :=
  if s.sysState ≠ 0 && s.dbg.checkAt < s.ltc && (List.range 16).all (engineMoves s) && strokeMoves s then
    let s1 := healthCheck (s.setDbg { s.dbg with checkAt := s.ltc })
    if s1.on Reg.DBG_HEALTH_TOGGLING then s1.setDbg { s1.dbg with health := !s1.dbg.health } else s1
  else s

/-! ### JTAG (R528 to R530) -/

/-- IDCODE (R529); STEP holds the stepping as a letter. -/
def idcodeValue (s : State) : Nat :=
  (s.f Reg.SYS_ID_STEP + 256 - 0x41) % 16 * 2 ^ 28 + s.f Reg.SYS_ID_PART * 2 ^ 12 + 0x2E7 * 2 + 1

/-- Instruction `code` is loaded; where it is not accepted it acts as BYPASS, whose register captures 0 (R528). With V3P3 below
its limit the port does not work (R522). -/
def jtagLoad (s : State) (code : Nat) (accepted : Bool) : State :=
  if s.sys.v3p3Low then s
  else if accepted then s.setDbg { s.dbg with ir := some code }
  else s.setDbg { s.dbg with ir := some 0xFF, dr := 0 }

def jtagIdcode (s : State) : State :=
  let t := jtagLoad s 0x01 true
  if s.sys.v3p3Low then t else t.setDbg { t.dbg with dr := BitVec.ofNat 32 (idcodeValue s) }

/-- The LOS input of a port. -/
def losLevel (s : State) (p : Nat) : Bool := if p < 24 then s.on (Reg.PBI_PB_STAT_LOS p) else s.on (Reg.STN_SB_STAT_LOS (p - 24))

/-- The levels that the boundary cells meet, in the order of the table of R530: 34 transmit pairs, 70 receive lands, 32 LOS, the 30 signals
of the control band row by row (R509), and SOnnP, SOnnN and SOnnF of the 16 outputs; none where the state holds no level of the land. -/
def cellLevels (s : State) : List (Option Bool) :=
  List.replicate 104 none ++ (List.range 28).map (fun p => some (losLevel s p)) ++ (List.range 4).map (fun n => some (s.duc.dl.get n).los) ++
  [some s.hst.perstN, none, none, none, none, some s.intN, none, none] ++ List.replicate 11 none ++
  [none, some s.rul.clk.ppsOut, none, none, some s.sys.resetN, some s.pkg.pwrgd, some s.dbg.health] ++ (List.range 4).map (fun n => some (testLand s n)) ++
  (List.range 16).flatMap (fun n => [some (soPin s n 1), some (soPin s n 2), some (s.on (Reg.STK_SO_STAT_FB n))])

/-- SAMPLE/PRELOAD captures the 214 cells (R528, R530). A land whose level the state does not hold gives a free value; the cells' order in
the chain stands in a file outside the spec (log entries 1 and 67). -/
def jtagSample (s : State) : State :=
  let t := jtagLoad s 0x02 true
  if s.sys.v3p3Low then t
  else
    let d := t.drawBytes 214
    d.2.setDbg { d.2.dbg with cells := (d.1.zip (cellLevels s)).map (fun p => p.2.getD (p.1.getLsbD 0)) }

/-- An instruction by its 8-bit code, COMMISSION apart, whose data it carries (R479): an unlisted code acts as BYPASS (R528). -/
def jtagInstr (s : State) (code : Nat) : State :=
  if code = 0x01 then jtagIdcode s
  else if code = 0x02 then jtagSample s
  else if [0x00, 0x04, 0x05, 0x0A, 0x0B].contains code then jtagLoad s code (s.sysState = 0)
  else jtagLoad s code false

/-- Test-Logic-Reset (R528): JTAG_TRST_N low, as on an undriven port and without V3P3. -/
def jtagReset (s : State) : State := s.setDbg { s.dbg with ir := none }

/-- Leaving RESET ends EXTEST, CLAMP and HIGHZ at once (R528); the two instructions of IEEE 1149.6, accepted in RESET only, end
with them (DEDUCED, log entry 40). -/
def jtagLeaveReset (s : State) : State :=
  match s.dbg.ir with
  | some c => if [0x00, 0x04, 0x05, 0x0A, 0x0B].contains c then s.setDbg { s.dbg with ir := some 0xFF, dr := 0 } else s
  | none => s

/-! ### Lands (R522, R528, R530) -/

/-- What stands at an output land: low, high, high impedance, or what its boundary cell drives. -/
inductive LandLevel
  | low
  | high
  | z
  | cell
  deriving DecidableEq, Repr

/-- An output land: high impedance without its supply (R522); EXTEST, CLAMP and the two instructions of IEEE 1149.6 drive it from its cell,
HIGHZ lets it float (R528). -/
def outLand (s : State) (supply level : Bool) : LandLevel :=
  if !supply then .z
  else match s.dbg.ir with
    | some c => if c = 0x05 then .z else if [0x00, 0x04, 0x0A, 0x0B].contains c then .cell else if level then .high else .low
    | none => if level then .high else .low

def vddio (s : State) : Bool := s.on Reg.SYS_RAILS_VDDIO_OK
def v3p3 (s : State) : Bool := !s.sys.v3p3Low

def healthLand (s : State) : LandLevel := outLand s (v3p3 s) s.dbg.health
def ppsOutLand (s : State) : LandLevel := outLand s (v3p3 s) s.rul.clk.ppsOut
def intNLand (s : State) : LandLevel := outLand s (vddio s) s.intN
def testNLand (s : State) (n : Nat) : LandLevel := outLand s (vddio s) (testLand s n)

/-- SOnnP (pin 1) and SOnnN (pin 2): their cells only capture, so no instruction moves them (R530). -/
def strokeLand (s : State) (n pin : Nat) : LandLevel := if !vddio s then .z else if soPin s n pin then .high else .low

/-! ### Meanings -/

/-- GRANT_WRITE: a write of DBG_GRANT (R13, R527). -/
def execGrantWrite (a : Access) (v : Word) (s : State) : Host.Outcome State Fault Refusal :=
  match a with
  | .cmd n _ => .next (gate s a Reg.DBG_GRANT true (grantWrite n (v.toNat.testBit 0)))
  | .direct _ => .next (gate s a Reg.DBG_GRANT true id)
  | .jtag => .next (gate s a Reg.DBG_GRANT true id)

def execSelfCheck (s : State) : Host.Outcome State Fault Refusal := .next (selfCheck s)

def execExtest (s : State) : Host.Outcome State Fault Refusal := .next (jtagInstr s 0x00)

def execIdcode (s : State) : Host.Outcome State Fault Refusal := .next (jtagInstr s 0x01)

def execSamplePreload (s : State) : Host.Outcome State Fault Refusal := .next (jtagInstr s 0x02)

def execClamp (s : State) : Host.Outcome State Fault Refusal := .next (jtagInstr s 0x04)

def execHighz (s : State) : Host.Outcome State Fault Refusal := .next (jtagInstr s 0x05)

def execExtestPulse (s : State) : Host.Outcome State Fault Refusal := .next (jtagInstr s 0x0A)

def execExtestTrain (s : State) : Host.Outcome State Fault Refusal := .next (jtagInstr s 0x0B)

def execBypass (s : State) : Host.Outcome State Fault Refusal := .next (jtagInstr s 0xFF)

end Sys2Proof.Machine
end

