-- ==== Sys2Proof/Machine/Folio.lean ====
section
/-! DEFINITION. Byte strings, and a Folio image as its bytes lay it out (spec/13 R419 to R422, spec/15 R475, R483): header, segment
table, vendor firmware segment, host credentials. -/

namespace Sys2Proof.Machine

/-! ### Byte strings -/

/-- `len` bytes from offset `off` of bytes listed by offset. -/
def bytesAt (t : Tab Byte) (off len : Nat) : Str :=
  ⟨len, (t.filter (fun p => decide (off ≤ p.1) && decide (p.1 < off + len))).map (fun p => (p.1 - off, p.2))⟩

/-- One string behind another. -/
def catStr (a b : Str) : Str := ⟨a.len + b.len, a.cells ++ b.cells.map (fun p => (p.1 + a.len, p.2))⟩

/-- The string of a list of bytes. -/
def strOf (l : List Byte) : Str := ⟨l.length, ((List.range l.length).zip l).filter (fun p => p.2 ≠ 0)⟩

/-- Every byte of a string. -/
def strBytes (x : Str) : List Byte := (List.range x.len).map (fun i => Tab.get x.cells i)

/-- The empty context string (R475). -/
def noContext : Str := ⟨0, []⟩

/-- Little-endian number of `n` bytes at offset `o`. -/
def numAt (t : Tab Byte) (o n : Nat) : Nat := leNat ((List.range n).map (fun i => Tab.get t (o + i)))

/-- Bytes `a` to `z - 1` are 0. -/
def zeroAt (t : Tab Byte) (a z : Nat) : Bool := t.all (fun p => decide (p.1 < a) || decide (z ≤ p.1) || p.2 = 0)

/-- A signature verifies under a public key over a message, with an empty context string (R475). -/
def signs (l : List SigFact) (sig key msg : Str) : Bool := l.contains ⟨sig, key, msg, noContext⟩

/-! ### The header (R419, R420) -/

/-- SHA3-256 of a string of an image (R475): what the hash engine finds, else a free value (log entry 8). -/
def folioHash (img : FolioImage) (x : Str) : Nat :=
  match img.hashes.find? (fun p => p.1 = x) with
  | some p => p.2
  | none => leNat (Config.sha3 (strBytes x))

def folioFver (img : FolioImage) : Nat := numAt img.bytes 4 2
def folioVariant (img : FolioImage) : Nat := numAt img.bytes 6 1
def folioKeyIdx (img : FolioImage) : Nat := numAt img.bytes 7 1 % 4
def folioLength (img : FolioImage) : Nat := numAt img.bytes 8 4
def folioNseg (img : FolioImage) : Nat := numAt img.bytes 12 2

/-- FOLIO_ID and EPOCH0, 0 in FVER 2. -/
def folioId (img : FolioImage) : Nat := if folioFver img = 2 then 0 else numAt img.bytes 16 4
def folioEpoch0 (img : FolioImage) : Nat := if folioFver img = 2 then 0 else numAt img.bytes 20 4

def folioOwnerPk (img : FolioImage) : Str := bytesAt img.bytes 544 1312
def folioSig (img : FolioImage) : Str := bytesAt img.bytes 1856 2420

/-- SHA3-256 of bytes 0 to 4,275, which a start seals (R426). -/
def folioHead (img : FolioImage) : Nat := folioHash img (bytesAt img.bytes 0 4276)

/-- An entry of the segment table (R420). -/
structure SegEntry where
  type : Nat
  offset : Nat
  slen : Nat
  hash : Nat
  deriving DecidableEq, Repr, Inhabited

def segEntry (img : FolioImage) (k : Nat) : SegEntry :=
  let o := 64 + 48 * k
  ⟨numAt img.bytes o 1, numAt img.bytes (o + 4) 4, numAt img.bytes (o + 8) 4, numAt img.bytes (o + 16) 32⟩

def segEntries (img : FolioImage) : List SegEntry := (List.range 10).map (segEntry img)

/-- The entry of a type. -/
def segOf (img : FolioImage) (type : Nat) : SegEntry := ((segEntries img).find? (fun e => e.type = type)).getD default

/-- The reserved bytes of the header, its segment table among them, are 0. -/
def headZero (img : FolioImage) : Bool :=
  let b := img.bytes
  decide (numAt b 7 1 < 4) && zeroAt b 14 16 && zeroAt b 24 64 && zeroAt b 4276 4608 &&
    (List.range 10).all (fun k => zeroAt b (65 + 48 * k) (68 + 48 * k) && zeroAt b (76 + 48 * k) (80 + 48 * k))

/-- Segments lie in the image, aligned, and do not overlap; each type stands once (R420). -/
def segsOk (img : FolioImage) : Bool :=
  let l := segEntries img
  decide (folioNseg img = 10) && (List.range 10).all (fun k => decide ((l.filter (fun e => e.type = k + 1)).length = 1)) &&
    l.all (fun e => e.offset % 256 = 0 && decide (4608 ≤ e.offset) && e.slen % 4 = 0 && decide (0 < e.slen) && decide (e.offset + e.slen ≤ folioLength img)) &&
    decide (l.Pairwise (fun a b => a.offset + a.slen ≤ b.offset ∨ b.offset + b.slen ≤ a.offset))

/-- Every HASH matches its segment. -/
def segHashesOk (img : FolioImage) : Bool := (segEntries img).all (fun e => decide (folioHash img (bytesAt img.bytes e.offset e.slen) = e.hash))

/-- Causes 1 to 6 of R423, those that need no key; 0 for none. -/
def headCause (variant : Nat) (img : FolioImage) : Nat :=
  if numAt img.bytes 0 4 ≠ 0x46545053 then 1
  else if folioFver img ≠ 2 && folioFver img ≠ 3 then 2
  else if folioVariant img ≠ variant then 3
  else if folioLength img < 4608 || 16777216 < folioLength img || !headZero img then 4
  else if !segsOk img then 5
  else if !segHashesOk img then 6
  else 0

/-! ### Signatures (R421, R422) -/

/-- SIG verifies under OWNERPK over bytes 0 to 1,855. -/
def ownerSigned (img : FolioImage) : Bool := signs img.sigs (folioSig img) (folioOwnerPk img) (bytesAt img.bytes 0 1856)

/-- Offset of the vendor firmware segment. -/
def vendorAt (img : FolioImage) : Nat := (segOf img 10).offset

def vendorKey (img : FolioImage) : Nat := numAt img.bytes (vendorAt img + 4) 1 % 2
def vendorBodyLen (img : FolioImage) : Nat := numAt img.bytes (vendorAt img + 8) 4
def vendorFwVer (img : FolioImage) : Nat := numAt img.bytes (vendorAt img + 12) 4
def vendorPkOf (img : FolioImage) : Str := bytesAt img.bytes (vendorAt img + 16) 1312

/-- The layout of the vendor segment: VMAGIC, the reserved bytes, SLEN. -/
def vendorLayoutOk (img : FolioImage) : Bool :=
  let o := vendorAt img
  decide (numAt img.bytes o 4 = 0x56545053) && decide (numAt img.bytes (o + 4) 1 < 2) && zeroAt img.bytes (o + 5) (o + 8) &&
    zeroAt img.bytes (o + 3748) (o + 3840) && decide ((segOf img 10).slen = 3840 + vendorBodyLen img)

/-- VSIG verifies under VENDORPK over bytes 0 to 1,327 of the segment followed by the body. -/
def vendorSigned (img : FolioImage) : Bool :=
  let o := vendorAt img
  signs img.sigs (bytesAt img.bytes (o + 1328) 2420) (vendorPkOf img)
    (catStr (bytesAt img.bytes o 1328) (bytesAt img.bytes (o + 3840) (vendorBodyLen img)))

/-! ### Content (R423 cause 11, R483) -/

/-- Offset of entry `k` of the host credentials. -/
def credAt (img : FolioImage) (k : Nat) : Nat := (segOf img 9).offset + 1328 * k

def folioCred (img : FolioImage) (k : Nat) : Cred :=
  let o := credAt img k
  ⟨decide (numAt img.bytes o 1 = 1), numAt img.bytes (o + 1) 1, (numAt img.bytes (o + 2) 1).testBit 0, bytesAt img.bytes (o + 16) 1312⟩

/-- The 16 host credentials. -/
def folioCreds (img : FolioImage) : List Cred := (List.range 16).map (folioCred img)

/-- The fields of the credentials lie in their ranges, and their segment holds the 16. -/
def credsInRange (img : FolioImage) : Bool :=
  decide (16 * 1328 ≤ (segOf img 9).slen) &&
    (List.range 16).all (fun k =>
      let o := credAt img k
      decide (numAt img.bytes o 1 ≤ 1) && decide (numAt img.bytes (o + 1) 1 ≤ 2) && zeroAt img.bytes (o + 3) (o + 16))

/-- The fields of the tables that no register shows lie in their ranges (R61, R132, R144, R149, R338, R350, R353, R358, R377, R469). -/
def tablesInRange (c : FolioContent) : Bool :=
  let tag := fun (v : Option (Nat × Nat)) => match v with | some (p, i) => decide (p < 8) && decide (i < 4096) | none => true
  let hdr := fun (dst app rev : Nat) => decide (dst < 2 ^ 48) && decide (app < 2 ^ 16) && decide (rev < 2 ^ 32)
  c.ctxHa.all (· < 256) && c.svIds.all (fun p => p.1 < 192) && decide (c.gsDecls.length ≤ 64) &&
    c.gsDecls.all (fun d => decide (d.members.length ≤ 64) && d.members.all (fun m => m.kind ≤ 5)) &&
    decide (c.gpDecls.length ≤ 32) && c.gpDecls.all (fun d => hdr d.dst d.appId d.confRev && tag d.vlan) &&
    decide (c.spDecls.length ≤ 8) && c.spDecls.all (fun d => hdr d.dst d.appId d.confRev && tag d.vlan) &&
    decide (c.gbits.length ≤ 64) && c.gbits.all (fun d => decide (d.gs < 64) && decide (d.member < 64)) &&
    decide (c.velTabs.length ≤ 16) && c.velTabs.all (fun t => decide (t.chans.length ≤ 256) && decide (t.bins.length ≤ 512) &&
      t.chans.all (fun x => decide (x.stream < 224) && decide (x.chan < 24))) &&
    decide (c.linkHash.length ≤ 4) && c.linkHash.all (fun h => h.all (· < 256)) && c.linkFed.all (· < 192) &&
    c.funcHa.all (fun p => btwFn p.1 p.2) && decide (c.pairMac.length ≤ 2) && c.pairMac.all (· < 2 ^ 48) &&
    c.expect.all (fun e => decide (e.1 < 256) && decide (e.2.1 < 28)) &&
    decide (c.quill.tasks.length ≤ 8) && c.quill.tasks.all (fun k => decide (k.period ≤ 160000) && (k.period = 0 || decide (k.phase < k.period)))
where
  /-- A function of R469 and an instance of it. -/
  btwFn (fn inst : Nat) : Bool :=
    decide (1 ≤ fn) && decide (fn ≤ 8) && decide (inst < (if fn = 1 then 192 else if fn = 2 then 64 else if fn = 3 then 2 else if fn = 4 then 256
      else if fn = 5 then 8 else 1))

end Sys2Proof.Machine
end

