-- ==== Sys2Proof/Machine/Mode.lean ====
section
/-! DEFINITION. The operating state and what hangs on it: entering a state, TEST, the end of a staging, the close of a session
(spec/13 R431 to R441, spec/14 R459). -/

namespace Sys2Proof.Machine

def State.setSys (s : State) (x : Sys) : State := { s with sys := x }

/-- SYS_STATE changes (R431): its interrupt cause, and what looks at the state at once: TEST marks, Stylus, HEALTH. -/
def enterState (s : State) (new : Nat) : State :=
  let s1 := (s.setF Reg.SYS_STATE_STATE new).irq 6
  let s2 := (List.range 4).foldl showRx (gbUpdate s1)
  let s3 := if s.sysState = 4 && new = 3 then pulsesEnd s2 else s2
  healthCheck (stylusCheck s3)

/-! ### TEST (R432) -/

def testEnter (s : State) (n : Nat) : State :=
  let s1 := s.setFs [(Reg.SYS_CTRL_TEST, 1), (Reg.SYS_STATE_TEST_SESS, n)]
  let s2 := s1.setSys { s1.sys with testEnd := s1.ltc + s1.f Reg.SYS_CTRL_TEST_TMO * 60000000000 }
  (enterState s2 4).log Ev.STATE_CHANGE noInst [.w 3, .w 4]

/-- TEST is left for IN_SERVICE; every signal that a task writes holds its initial value until its next write-back (R286). -/
def testLeave (s : State) : State :=
  let s1 := s.setFs [(Reg.SYS_CTRL_TEST, 0), (Reg.SYS_STATE_TEST_SESS, 0)]
  (allOuts (enterState s1 3) (·.init)).log Ev.STATE_CHANGE noInst [.w 4, .w 3]

/-- A write of TEST by session `n`: a value already in force changes nothing; outside IN_SERVICE and TEST it is refused
(DEDUCED, log entry 43). -/
def testWrite (n : Nat) (on : Bool) (s : State) : State :=
  if !s.running then s.log Ev.SYS_REFUSED noInst [.w Reg.SYS_CTRL]
  else if on && s.sysState = 3 then testEnter s n
  else if !on && s.sysState = 4 then testLeave s
  else s

/-- TEST_TMO: 1 to 240 minutes, other values ignored. -/
def testTmoWrite (v : Nat) (s : State) : State := if 1 ≤ v && v ≤ 240 then s.setF Reg.SYS_CTRL_TEST_TMO v else s

/-- A write of SYS_CTRL by session `n`, of the bits in `mask`. -/
def sysCtrlWrite (n mask v : Nat) (s : State) : State :=
  let s1 := if mask / 2 % 256 = 0 then s else testTmoWrite (v / 2 % 256) s
  if mask.testBit 0 then testWrite n (v.testBit 0) s1 else s1

/-- TEST_TIMEOUT (R432). -/
def testTimeout (s : State) : State := if s.sysState = 4 && s.sys.testEnd ≤ s.ltc then testLeave s else s

/-! ### Staging (R439, R441) -/

/-- The staging is discarded. -/
def stagingClear (s : State) : State :=
  (s.setSys { s.sys with staged := [] }).setFs [(Reg.SYS_STATE_STAGED, 0), (Reg.SYS_STATE_STG_SESS, 0)]

/-- It is discarded because its session closed (0) or a start began (1). -/
def stagingAbort (s : State) (cause : Nat) : State :=
  if s.on Reg.SYS_STATE_STAGED then (stagingClear s).log Ev.EPOCH_ABORTED noInst [.w (Config.causeCode 0x007 cause)] else s

/-! ### Sessions (R456, R459) -/

/-- A head that no command has. -/
def noHead : Nat := 255

/-- What session `n` has in progress goes on and posts no completion (R459). -/
def orphan (s : State) (n : Nat) : State :=
  let y := s.sys
  let y1 : Sys := { y with modePend := y.modePend.map (fun m => if m.sess = n then { m with sqHead := noHead } else m),
                           commit := y.commit.map (fun p => if p.1 = n then (p.1, noHead, p.2.2) else p) }
  let q := s.qil
  let q1 : Qil := { q with sw := q.sw.map (fun w => if w.sess = n then { w with head := noHead } else w),
                           load := q.load.map (fun w => if w.sess = n then { w with head := noHead } else w) }
  let a1 : Sea := { s.sea with jobs := s.sea.jobs.map (fun j => if j.sess = n then { j with head := noHead } else j) }
  let m1 : Mem := { s.mem with sweep := s.mem.sweep.map (fun p => if p.1 = n then (p.1, noHead, p.2.2) else p),
                               fuse := s.mem.fuse.map (fun f => if f.sess = n then { f with head := noHead } else f) }
  let v1 : Vel := { s.vel with exporting := s.vel.exporting.map (fun e => if e.sess = n then { e with head := noHead } else e) }
  { s with sys := y1, qil := q1, sea := a1, mem := m1, vel := v1 }

/-- Session `n` closes (R459). Causes: 0 SESSION_CLOSE, 1 interface event, 2 start, 3 idle. -/
def closeSession (s : State) (n cause : Nat) : State :=
  let x := s.sess n
  let was := s.f (Reg.HST_SESS_STAT_STATE n)
  let s1 := (orphan s n).setSess n { (default : Session) with cqTail := x.cqTail, fails := x.fails }
  let s2 := (s1.setFs [(Reg.HST_SESS_STAT_STATE n, 0), (Reg.HST_SESS_STAT_LEVEL n, 0), (Reg.HST_SESS_STAT_VER n, 0), (Reg.HST_SESS_STAT_IF n, 0),
    (Reg.HST_SESS_STAT_CRED n, 0), (Reg.HST_SESS_STAT_SQHEAD n, s.f (Reg.HST_SESS_DB_TAIL n))]).noteInflight n
  if was = 0 then s2
  else
    let s3 := if s2.f Reg.SYS_STATE_STG_SESS = n then stagingAbort s2 0 else s2
    let s4 := if s3.sysState = 4 && s3.f Reg.SYS_STATE_TEST_SESS = n then testLeave s3 else s3
    let s5 := freezeSessionClosed s4 n
    let s6 := if s5.f Reg.DBG_GRANT_SESS = n then grantEnd s5 1 else s5
    s6.log Ev.HST_SESSION_CLOSE n [.w (Config.causeCode 0x281 cause)]

/-- Every session that `p` names closes. -/
def closeSessions (s : State) (cause : Nat) (p : Nat → Bool) : State :=
  (List.range 16).foldl (fun t n => if p n && (t.f (Reg.HST_SESS_STAT_STATE n) ≠ 0 || (t.sess n).owner.isSome) then closeSession t n cause else t) s

/-! ### Meanings -/

/-- SYS_CTRL_TEST_WRITE (R13, R432): TEST is RWP. -/
def execSysCtrlTestWrite (a : Access) (v : Word) (s : State) : Host.Outcome State Fault Refusal :=
  match a with
  | .cmd n _ => .next (gate s a Reg.SYS_CTRL true (testWrite n (v.toNat.testBit 0)))
  | .direct _ => .next (gate s a Reg.SYS_CTRL true id)
  | .jtag => .next (gate s a Reg.SYS_CTRL true id)

def execTestTimeout (s : State) : Host.Outcome State Fault Refusal := .next (testTimeout s)

end Sys2Proof.Machine
end

