-- ==== Sys2Proof/Machine/Seal.lean ====
section
/-! DEFINITION. The Seal unit (spec/15): session challenges, attestation, debug unlock, owner slots and vendor roots. Which signature
verifies is an operand; nonces and signatures are free values (log entries 1 and 8). -/

namespace Sys2Proof.Machine

/-- The entropy source fails its health test (R477). -/
def rngFails (s : State) : Bool := s.on Reg.SEA_STAT_RNG_FAIL

/-- Owner slot k counts as written (R480). -/
def slotWritten (s : State) (k : Nat) : Bool := (s.f Reg.SEA_STAT_OWN_WR).testBit k && !(s.f Reg.SEA_STAT_OWN_REV).testBit k

/-- The hash of owner slot k as a little-endian number. -/
def slotHash (s : State) (k : Nat) : Nat := (List.range 8).foldl (fun m w => m + s.rd (Reg.SEA_OWN_HASH k w) * 2 ^ (32 * w)) 0

/-- No owner slot is written (R479). -/
def unowned (s : State) : Bool := s.f Reg.SEA_STAT_OWN_WR = 0

/-! ### SESSION_OPEN (R458, R482, R483) -/

/-- OWNERPK of a bank header whose hash is that of owner slot `k` (R483). -/
def headerKey (s : State) (k : Nat) : Option Str :=
  let key := fun (b : Nat) => match s.sys.nor.get b with
    | some img => if folioHash img (folioOwnerPk img) = slotHash s k then some (folioOwnerPk img) else none
    | none => none
  (key 0).orElse (fun _ => key 1)

/-- The credential that CRED names: of the Folio, or in SERVICE_HOLD an owner slot whose key stands in a bank header. -/
def credOf (s : State) (cr : Nat) : Option Cred :=
  if s.sysState = 5 then
    if cr < 4 && slotWritten s cr then (headerKey s cr).map (fun k => ⟨true, 0, true, k⟩) else none
  else
    match s.sys.creds[cr]? with
    | some c => if c.present then some c else none
    | none => none

/-- LEVEL is more privileged than the credential allows, or SPIOK is clear on SPI (R458, R483). -/
def credPriv (s : State) (n level : Nat) (c : Cred) : Bool := decide (level < c.maxLevel) || (s.on (Reg.HST_SESS_STAT_IF n) && !c.spiOk)

/-- Failed phase-1 answers of the slot within the last 10 s. -/
def recentFails (s : State) (n : Nat) : List Nat := (s.sess n).fails.filter (fun t => s.ltc < t + 10000000000)

/-- The nonce of session `n` (R449, R475). -/
def drawNonce (s : State) (n : Nat) : State :=
  let d := s.drawBytes 32
  d.2.inkWrite (n * 0x4000 + 0x2000) d.1

/-- The job's session has not closed since (R459). -/
def SealJob.held (j : SealJob) : Bool := decide (j.head ≠ noHead)

/-- A job of that kind of session `n` is queued or running. -/
def jobOf (s : State) (n kind : Nat) : Bool := s.sea.jobs.any (fun j => j.sess = n && j.kind = kind && j.held)

/-- Signature area of session `n`, 2,420 bytes, and its nonce area (R449). -/
def sigArea (s : State) (n : Nat) : Str := strOf (s.inkRead (n * 0x4000 + 0x2100) 2420)
def nonceArea (s : State) (n : Nat) : List Byte := s.inkRead (n * 0x4000 + 0x2000) 32

/-- What both 48-byte messages begin with: a tag, the device ID and the nonce of session `n` (R482, R486). -/
def signedHead (s : State) (n : Nat) (tag : List Byte) : List Byte :=
  tag ++ leBytes 4 (s.rd Reg.SYS_UID_LO) ++ leBytes 4 (s.rd Reg.SYS_UID_HI) ++ nonceArea s n

/-- The message that an answer to a session challenge signs (R482). -/
def challengeMessage (s : State) (n : Nat) (c : Cmd) : Str :=
  strOf (signedHead s n [0x53#8, 0x50#8, 0x54#8, 0x53#8] ++ leBytes 1 (c.arg 1 1) ++ leBytes 1 (c.arg 2 1) ++
    leBytes 1 (s.f (Reg.HST_SESS_STAT_IF n)) ++ leBytes 1 n)

/-- The message that a debug unlock token signs (R486). -/
def tokenMessage (s : State) (n : Nat) (c : Cmd) : Str :=
  strOf (signedHead s n [0x53#8, 0x50#8, 0x54#8, 0x44#8] ++ leBytes 1 (c.arg 1 1) ++ leBytes 1 (c.arg 2 1) ++ leBytes 2 (c.arg 4 2))

/-- The slot is GREETED again, its nonce void (R482). -/
def greet (s : State) (n : Nat) : State := (s.setSess n { s.sess n with challengeAt := none }).setF (Reg.HST_SESS_STAT_STATE n) 1

/-- SESSION_OPEN, its conditions in order; `k` goes on with a phase that passes them. -/
def openBody (n : Nat) (slot : Nat) (k : State → Cmd → CmdOut) (s : State) (c : Cmd) : CmdOut :=
  let lv := c.arg 2 1
  if 1 < c.arg 0 1 || 15 < c.arg 1 1 || 2 < lv || !c.zero 3 32 then refuse s stARG
  else match credOf s (c.arg 1 1) with
    | none => refuse s stARG
    | some cr =>
      if s.f (Reg.HST_SESS_STAT_STATE n) ≠ slot || jobOf s n 0 then refuse s stSTATE
      else if 3 ≤ (recentFails s n).length then refuse s stBUSY
      else if credPriv s n lv cr then refuse (greet s n) stPRIV
      else k s c

/-- Phase 0: a fresh nonce (R458, R477). -/
def openPhase0 (n : Nat) (s : State) (_ : Cmd) : CmdOut :=
  if rngFails s then refuse s stINTEGRITY
  else
    let t := drawNonce s n
    okay ((t.setSess n { t.sess n with challengeAt := some s.ltc }).setF (Reg.HST_SESS_STAT_STATE n) 2)

/-- Phase 1: the signature is verified (R458, R476). -/
def openPhase1 (n : Nat) (v : SigFact) (s : State) (c : Cmd) : CmdOut :=
  let key := match credOf s (c.arg 1 1) with | some cr => cr.key | none => default
  if sealFull s then sealBusy s
  else goesOn (sealPush s ⟨0, n, c.sqHead, c, signs [v] (sigArea s n) key (challengeMessage s n c)⟩)

/-- The answer of phase 1, once verified. -/
def openDone (s : State) (j : SealJob) : State :=
  match findCmd s j.sess j.head with
  | some c =>
    let cr := j.cmd.arg 1 1
    let lv := if s.sysState = 5 then 0 else j.cmd.arg 2 1
    let g := greet s j.sess
    if j.ok then
      let s1 := g.setFs [(Reg.HST_SESS_STAT_STATE j.sess, 3), (Reg.HST_SESS_STAT_LEVEL j.sess, lv), (Reg.HST_SESS_STAT_CRED j.sess, cr)]
      let s2 := s1.setSess j.sess { s1.sess j.sess with cred := cr, level := lv }
      post (s2.log Ev.HST_SESSION_OPEN j.sess [.w lv, .w cr, .w (s.f (Reg.HST_SESS_STAT_IF j.sess))]) j.sess c stOK []
    else
      let s1 := g.setSess j.sess { g.sess j.sess with fails := s.ltc :: recentFails s j.sess }
      let s2 := (s1.incS (Reg.HST_SESS_CNT_AUTH_FAIL j.sess)).incS Reg.SEA_CNT_VFY_FAIL
      post (s2.log Ev.HST_AUTH_FAIL j.sess [.w cr]) j.sess c stINTEGRITY []
  | none => s

/-- CHALLENGE_TIMEOUT (R456). -/
def challengeTimeout (s : State) (n : Nat) : State :=
  match (s.sess n).challengeAt with
  | some t => if s.f (Reg.HST_SESS_STAT_STATE n) = 2 && t + 10000000000 ≤ s.ltc && !jobOf s n 0 then greet s n else s
  | none => s

/-! ### Attestation (R484, R485) -/

/-- `n` bytes of a list, 0 beyond its end. -/
def padTo (n : Nat) (l : List Byte) : List Byte := (List.range n).map (fun i => l.getD i 0)

/-- The 160 bytes of the report body. -/
def reportBody (s : State) (nonce : List Nat) (rseq : Nat) : List Byte :=
  let hold := s.sysState = 5
  [0x53#8, 0x50#8, 0x54#8, 0x41#8] ++ leBytes 1 1 ++ leBytes 1 s.sysState ++ leBytes 1 (s.f Reg.SYS_START_TYPE) ++
    leBytes 1 (s.f Reg.SYS_ID_VARIANT) ++ leBytes 4 (s.rd Reg.SYS_UID_LO) ++ leBytes 4 (s.rd Reg.SYS_UID_HI) ++
    nonce.map (BitVec.ofNat 8) ++ leBytes 4 (s.rd Reg.SEA_ROMVER) ++ leBytes 4 s.sea.fwVer ++ leBytes 32 s.sea.fwHash ++
    leBytes 32 (if hold then 0 else s.sea.sealedHash) ++ leBytes 4 (s.rd Reg.SYS_FOLIO_ID) ++ leBytes 4 (s.rd Reg.SYS_EPOCH) ++
    leBytes 2 (s.f Reg.MEM_STAT_RPFIELD) ++ leBytes 2 (s.f Reg.MEM_STAT_RPSOFT) ++ leBytes 1 (if hold then 0xFF else s.sea.keyIdx) ++
    leBytes 1 (s.f Reg.SEA_STAT_OWN_WR + 16 * s.f Reg.SEA_STAT_OWN_REV) ++ leBytes 1 (s.f Reg.SEA_STAT_VREV) ++ leBytes 1 0 ++
    leBytes 8 s.ltc ++ leBytes 8 s.stampNow ++ leBytes 4 rseq ++ leBytes 4 0

/-- ATTEST (R485), its conditions in order; a pending change of mode takes effect at the request (R46, R469). -/
def attestBody (n : Nat) (s : State) (c : Cmd) : CmdOut :=
  if s.sea.jobs.any (fun j => j.kind = 2) || sealFull s then sealBusy s
  else if rngFails s then refuse s stINTEGRITY
  else
    let s1 := match modePending s 7 0 with
      | some ha => modeTaken { s with hst := { s.hst with haAttest := ha } } 7 0
      | none => s
    goesOn (sealPush s1 ⟨2, n, c.sqHead, c, true⟩)

/-- The report is signed and replaced (R484, R485). -/
def attestDone (s : State) (j : SealJob) : State :=
  let rseq := s.sea.rseq + 1
  let body := reportBody s ((j.cmd.bytes.drop 16).take 32) rseq
  let sig := padTo 2420 (Config.deviceSignature s.freeCtr body)
  let len := if s.hst.haAttest then 2580 else 3892
  let rep := body ++ sig ++ (if s.hst.haAttest then [] else padTo 1312 Config.devicePublicKey)
  let s1 : State := { s with freeCtr := s.freeCtr + 1, sea := { s.sea with report := rep, rseq := rseq } }
  let s2 := (s1.setFs [(Reg.SEA_RPT_INFO_LEN, len), (Reg.SEA_RPT_INFO_RSEQ, rseq)]).incW Reg.SEA_CNT_SIGNS
  postHead (s2.log Ev.SEA_ATTEST noInst [.w rseq, .w j.sess]) j.sess j.head stOK [len, rseq]

/-! ### Debug unlock (R486, R487) -/

/-- The public key that SIGNER names: of the loaded Folio, or of the vendor firmware in it. -/
def tokenKey (s : State) (c : Cmd) : Str := if c.arg 1 1 = 0 then s.sea.ownerPk else s.sea.vendorPk

/-- DEBUG_UNLOCK, its conditions in order. -/
def unlockBody (n phase : Nat) (v : SigFact) (s : State) (c : Cmd) : CmdOut :=
  let dur := c.arg 4 2
  let fresh := match (s.sess n).unlockNonce with | some t => s.ltc < t + 10000000000 && !jobOf s n 1 | none => false
  if s.level n ≠ 0 then refuse s stPRIV
  else if 1 < c.arg 0 1 || 1 < c.arg 1 1 || c.arg 2 1 ≠ 1 || c.arg 3 1 ≠ 0 || dur < 1 || 1440 < dur || !c.zero 6 32 then refuse s stARG
  else if (phase = 1 && !fresh) || s.on Reg.SEA_DBG_UNLOCKED then refuse s stSTATE
  else if phase = 1 then 
    (if sealFull s then sealBusy s
     else goesOn (sealPush s ⟨1, n, c.sqHead, c, signs [v] (sigArea s n) (tokenKey s c) (tokenMessage s n c)⟩))
  else if rngFails s then refuse s stINTEGRITY
  else
    let t := drawNonce s n
    okay (t.setSess n { t.sess n with unlockNonce := some s.ltc })

/-- The token is verified. -/
def unlockDone (s : State) (j : SealJob) : State :=
  let sg := j.cmd.arg 1 1
  let dur := j.cmd.arg 4 2
  let s1 := if j.held then s.setSess j.sess { s.sess j.sess with unlockNonce := none } else s
  if s.on Reg.SEA_DBG_UNLOCKED then postHead s1 j.sess j.head stSTATE []
  else if j.ok then
    let s2 := s1.setFs [(Reg.SEA_DBG_UNLOCKED, 1), (Reg.SEA_DBG_SIGNER, sg), (Reg.SEA_DBG_SCOPE, j.cmd.arg 2 1), (Reg.SEA_STAT_DBG, 1)]
    let s3 := s2.setSea { s2.sea with unlockEnd := some (s.ltc + dur * 60000000000) }
    postHead (stylusCheck (s3.log Ev.SEA_DEBUG_UNLOCK noInst [.w sg, .w (j.cmd.arg 2 1), .w dur, .w j.sess])) j.sess j.head stOK []
  else
    postHead ((s1.incS Reg.SEA_CNT_VFY_FAIL).log Ev.SEA_DEBUG_FAIL noInst [.w sg, .w j.sess]) j.sess j.head stINTEGRITY []

/-- The unlock ends (R487, R527): 0 DURATION, 1 RELOCK, 2 a start. -/
def unlockEnds (s : State) (cause : Nat) : State :=
  if s.on Reg.SEA_DBG_UNLOCKED then
    let s1 := s.setFs [(Reg.SEA_DBG_UNLOCKED, 0), (Reg.SEA_DBG_SIGNER, 0), (Reg.SEA_DBG_SCOPE, 0), (Reg.SEA_STAT_DBG, 0)]
    let s2 := (s1.setSea { s1.sea with unlockEnd := none }).log Ev.SEA_DEBUG_LOCK noInst [.w (Config.causeCode 0x2A5 cause)]
    stylusCheck (grantEnd s2 2)
  else s

/-- DEBUG_UNLOCK_EXPIRY (R487). -/
def unlockExpiry (s : State) : State :=
  match s.sea.unlockEnd with
  | some t => if t ≤ s.ltc then unlockEnds s 0 else s
  | none => s

/-- SEA_RNG_FAIL (R477), once per episode. -/
def rngFail (s : State) : State := if rngFails s then s else (s.setB Reg.SEA_STAT_RNG_FAIL true).log Ev.SEA_RNG_FAIL

/-! ### Owner slots and vendor roots (R479 to R481) -/

def ownResult (s : State) (busy : Bool) (res : Nat) : State := s.setFs [(Reg.SEA_OWN_CTRL_BUSY, b2n busy), (Reg.SEA_OWN_CTRL_RESULT, res)]

def fuseBegin (s : State) (f : SealFuse) : State := ownResult (s.setSea { s.sea with fuse := some f }) true 1

/-- The words of SEA_OWN_NEW. -/
def newHash (s : State) : List Word := (List.range 8).map (fun w => s.word (Reg.SEA_OWN_NEW w))

/-- Slot k has been written or revoked, and never takes a hash again (R480). -/
def slotUsed (s : State) (k : Nat) : Bool := (s.f Reg.SEA_STAT_OWN_WR).testBit k || (s.f Reg.SEA_STAT_OWN_REV).testBit k

/-- GO (R480). -/
def ownGo (s : State) (k : Nat) : State :=
  if s.on Reg.SEA_OWN_CTRL_BUSY then s
  else if slotUsed s k then ownResult s false 3
  else if !s.running then ownResult s false 6
  else fuseBegin s ⟨k, 0, false, newHash s⟩

/-- REVOKE (R480). -/
def ownRevoke (s : State) (k : Nat) : State :=
  let last := (List.range 4).all (fun i => i = k || !slotWritten s i)
  if s.on Reg.SEA_OWN_CTRL_BUSY then s
  else if (s.sea.folioLoaded && k = s.sea.keyIdx) || (slotWritten s k && last) then ownResult s false 4
  else if !s.running then ownResult s false 6
  else fuseBegin s ⟨k, 1, false, []⟩

/-- A write of SEA_OWN_CTRL; with both bits set GO is taken (DESIGN CHOICE, log entry 42). -/
def ownCtrlWrite (go revoke : Bool) (slot : Nat) (s : State) : State :=
  let s1 := s.setF Reg.SEA_OWN_CTRL_SLOT slot
  if go then ownGo s1 (slot % 4) else if revoke then ownRevoke s1 (slot % 4) else s1

/-- A write of 1 to REVn of SEA_VREV (R481). -/
def vendorRevoke (s : State) (n : Nat) : State :=
  if s.on Reg.SEA_OWN_CTRL_BUSY then s
  else if (s.sea.folioLoaded && s.sea.vkey = n) || (s.f Reg.SEA_STAT_VREV).testBit (1 - n) then ownResult s false 4
  else if !s.running then ownResult s false 6
  else fuseBegin s ⟨n, 2, false, []⟩

def vrevWrite (v : Nat) (s : State) : State := (bitsOf 2 v).foldl vendorRevoke s

/-- FUSE_WRITE_DONE (R480, R481). -/
def fuseWriteDone (s : State) (ok : Bool) : State :=
  match s.sea.fuse with
  | some f =>
    let s1 := s.setSea { s.sea with fuse := none }
    if !ok then (ownResult s1 false 5).log Ev.SEA_FUSE_ERR noInst [.w f.slot]
    else
      let s2 := ownResult s1 false 2
      if f.op = 0 then
        let s3 := (List.range 8).foldl (fun t w => t.setWord (Reg.SEA_OWN_HASH f.slot w) (f.hash.getD w 0)) s2
        (s3.setF Reg.SEA_STAT_OWN_WR (setBitOf (s3.f Reg.SEA_STAT_OWN_WR) f.slot true)).log Ev.SEA_OWNER_WRITTEN noInst
          [.w f.slot, .w (Config.causeCode 0x2A0 (b2n (!f.jtag)))]
      else if f.op = 1 then
        (s2.setF Reg.SEA_STAT_OWN_REV (setBitOf (s2.f Reg.SEA_STAT_OWN_REV) f.slot true)).log Ev.SEA_OWNER_REVOKED noInst [.w f.slot]
      else (s2.setF Reg.SEA_STAT_VREV (setBitOf (s2.f Reg.SEA_STAT_VREV) f.slot true)).log Ev.SEA_VENDOR_REVOKED noInst [.w f.slot]
  | none => s

/-- COMMISSION (R479): accepted while the module is UNOWNED, else BYPASS (R528). -/
def commission (s : State) (slot : Nat) (hash : List Word) : State :=
  let t := jtagLoad s 0x3C (unowned s)
  if s.sys.v3p3Low || !unowned s || s.on Reg.SEA_OWN_CTRL_BUSY then t
  else
    let t1 := (List.range 8).foldl (fun u w => u.setWord (Reg.SEA_OWN_NEW w) (hash.getD w 0)) t
    let t2 := t1.setF Reg.SEA_OWN_CTRL_SLOT slot
    if slotUsed t2 slot then ownResult t2 false 3 else fuseBegin t2 ⟨slot, 0, true, newHash t2⟩

/-! ### Meanings -/

def execSessionOpenPhase0 (sess : Fin 16) (s : State) : Host.Outcome State Fault Refusal :=
  .next (runWhen s sess 0x02 (fun c => c.arg 0 1 ≠ 1) (openBody sess 1 (openPhase0 sess)))

def execSessionOpenPhase1 (sess : Fin 16) (v : SigFact) (s : State) : Host.Outcome State Fault Refusal :=
  .next (runWhen s sess 0x02 (fun c => c.arg 0 1 = 1) (openBody sess 2 (openPhase1 sess v)))

def execChallengeTimeout (sess : Fin 16) (s : State) : Host.Outcome State Fault Refusal := .next (challengeTimeout s sess)

def execAttest (sess : Fin 16) (s : State) : Host.Outcome State Fault Refusal := .next (runCmd s sess 0x50 (attestBody sess))

def execDebugUnlockPhase0 (sess : Fin 16) (s : State) : Host.Outcome State Fault Refusal :=
  .next (runWhen s sess 0x51 (fun c => c.arg 0 1 ≠ 1) (unlockBody sess 0 default))

def execDebugUnlockPhase1 (sess : Fin 16) (v : SigFact) (s : State) : Host.Outcome State Fault Refusal :=
  .next (runWhen s sess 0x51 (fun c => c.arg 0 1 = 1) (unlockBody sess 1 v))

def execDebugUnlockExpiry (s : State) : Host.Outcome State Fault Refusal := .next (unlockExpiry s)

/-- RELOCK (R487): a WO field. -/
def execRelock (a : Access) (s : State) : Host.Outcome State Fault Refusal := .next (gate s a Reg.SEA_DBG false (fun t => unlockEnds t 1))

/-- OWNER_SLOT_WRITE: a write with GO set (R480). -/
def execOwnerSlotWrite (a : Access) (v : Word) (s : State) : Host.Outcome State Fault Refusal :=
  .next (gate s a Reg.SEA_OWN_CTRL true (ownCtrlWrite true false (v.toNat % 4)))

/-- OWNER_SLOT_REVOKE: a write with REVOKE set (R480). -/
def execOwnerSlotRevoke (a : Access) (v : Word) (s : State) : Host.Outcome State Fault Refusal :=
  .next (gate s a Reg.SEA_OWN_CTRL true (ownCtrlWrite false true (v.toNat % 4)))

def execFuseWriteDone (ok : Bool) (s : State) : Host.Outcome State Fault Refusal := .next (fuseWriteDone s ok)

def execVendorRootRevoke (a : Access) (v : Word) (s : State) : Host.Outcome State Fault Refusal :=
  .next (gate s a Reg.SEA_VREV true (vrevWrite v.toNat))

def execSeaRngFail (s : State) : Host.Outcome State Fault Refusal := .next (rngFail s)

def execEntropyHealthRestored (s : State) : Host.Outcome State Fault Refusal := .next (s.setB Reg.SEA_STAT_RNG_FAIL false)

def execCommission (slot : Fin 4) (hash : List Word) (s : State) : Host.Outcome State Fault Refusal := .next (commission s slot hash)

end Sys2Proof.Machine
end

