-- ==== Sys2Proof/Machine/RegFile.lean ====
section
/-! DEFINITION. The register space as requesters see it (spec/00 R2, R13 to R16, spec/14 R447 to R451): which register stands at an
address, what a read returns, what a plain write changes, what a Folio loads. -/

namespace Sys2Proof.Machine

/-! ### Addresses -/

/-- An offset is a combination of the indices of a row, outer index first. -/
def dimsHit : List (Nat × Nat) → Nat → Bool
  | [], off => off = 0
  | (st, ct) :: t, off => decide (off / st < ct) && dimsHit t (off % st)

/-- The row of the register at an address. -/
def findRow (a : Nat) : Option RegRow := regRows.find? (fun r => decide (r.base ≤ a) && dimsHit r.dims (a - r.base))

/-- Registers of instances that the SPT-8120 does not have (R2): first address and end. -/
def absentRanges : List (Nat × Nat) :=
  [(0x20004, 0x20008), (0x22000, 0x23000), (0x23100, 0x23200), (0x40300, 0x40600), (0x80200, 0x80400), (0x85000, 0x89000),
   (0xC2080, 0xC2100), (0xE0200, 0xE0400), (0xF0010, 0xF0020), (0xF0180, 0xF0200), (0x120140, 0x120180), (0x121200, 0x121400), (0x130060, 0x130080)]

/-- Mask words of inputs that the SPT-8120 does not have, 128-255 and 480-511: they read 0 (R259). -/
def maskAbsent (a : Nat) : Bool :=
  let w := a % 0x80 / 4
  decide (0xC1000 ≤ a) && decide (a < 0xC1800) && (decide (20 ≤ w ∧ w < 24) || w = 31)

/-- No register stands there on this variant: it reads 0 and ignores writes (R448). -/
def noReg (s : State) (a : Nat) : Bool :=
  (findRow a).isNone || (s.is8120 && absentRanges.any (fun p => p.1 ≤ a && a < p.2))

/-- The register blocks (R448), each 64 KiB; PBI and NIB lie in larger gaps and use the first 64 KiB. -/
def inBlock (a : Nat) : Bool :=
  [0x0, 0x1, 0x2, 0x4, 0x8, 0xC, 0xD, 0xE, 0xF, 0x10, 0x11, 0x12, 0x13, 0x14, 0x15, 0x16].contains (a / 0x10000)

/-- The MSI-X table and its pending bits (R445). -/
def inMsix (a : Nat) : Bool := 0x138000 ≤ a && a < 0x138208

/-- Word `k` of a vector's entry: address, high address, data, vector control; behind the table, its 32 pending bits. -/
def msixWord (s : State) (a : Nat) : Nat :=
  let m := s.hst.msix.get ((a - 0x138000) / 16)
  let k := (a - 0x138000) / 4 % 4
  if 0x138200 ≤ a then (if a = 0x138200 then maskOf ((List.range 32).filter (fun v => (s.hst.msix.get v).pend)) else 0)
  else if k = 0 then m.addr % 2 ^ 32 else if k = 1 then m.addr / 2 ^ 32 else if k = 2 then m.data else b2n (!m.unmasked)

/-! ### Reads -/

/-- One bit for each `i < n` that `p` names. -/
def bitMap (n : Nat) (p : Nat → Bool) : Nat := maskOf ((List.range n).filter p)

/-- One bit for each field channel that `p` names; the bits of absent channels read 0 (R2). -/
def fcMap (s : State) (p : Nat → Bool) : Nat := bitMap 32 (fun n => grpExists s (grpOf n) && p n)

/-- Registers that collect bits which other registers hold, or that show time. -/
def viewWord (s : State) (r : Requester) (a : Nat) : Nat :=
  if a = Reg.RUL_LTC_LO then s.ltc % 2 ^ 32
  else if a = Reg.RUL_EPOCH then s.rul.clk.epoch % 65536
  else if [Reg.RUL_LTC_HI, Reg.RUL_DTC_NS, Reg.RUL_DTC_SEC_LO, Reg.RUL_DTC_SEC_HI, Reg.SYS_UID_HI].contains a then s.shadowOf r a
  else if (lowWordHigh s (a - 4)).isSome then s.shadowOf r a
  else if Reg.QIL_SLOT_SEL ≤ a && a ≤ Reg.QIL_SLOT_D 5 then s.shadowOf r a
  else if a = Reg.STK_STAT then bitMap 16 s.asserted + 65536 * bitMap 16 (fun n => s.on (Reg.STK_SO_STAT_PRE n))
  else if a = Reg.STK_TESTST then
    bitMap 16 (fun n => s.on (Reg.STK_SO_STAT_TPULSE n)) + 65536 * bitMap 16 (fun n => s.on (Reg.STK_SO_STAT_TESTDRV n))
  else if a = Reg.FIO_STAT then
    let st := fun (g : Nat) => s.f (Reg.FIO_G_STAT_STATE g)
    bitMap 4 (fun g => grpExists s g && st g ≠ gNosupply) + 16 * bitMap 4 (fun g => st g = gLockout) + 256 * bitMap 4 (fun g => st g = gBlocked) +
      4096 * bitMap 4 (fun g => st g = gWarning) + 65536 * b2n s.running
  else if a = Reg.FIO_IN then fcMap s (fun n => s.on (Reg.FIO_FC_STAT_IN n))
  else if a = Reg.FIO_INVAL then fcMap s (fun n => (s.f (Reg.FIO_FC_STAT_QUAL n)).testBit 0)
  else if a = Reg.FIO_OUT then fcMap s (fun n => s.on (Reg.FIO_FC_STAT_CMD n))
  else if a = Reg.FIO_SAFE then fcMap s (fun n => s.on (Reg.FIO_FC_STAT_SAFE n))
  else if a = Reg.FIO_DIAGSUM then fcMap s (fun n => s.f (Reg.FIO_FC_DIAG_STICKY n) ≠ 0)
  else if a = Reg.HST_STAT then s.rd a + 64 * ((List.range 16).filter (fun n => s.f (Reg.HST_SESS_STAT_STATE n) = 3)).length
  else if a = Reg.SEA_STAT then s.rd a + 1024 * b2n (unowned s)
  else if a = Reg.SEA_DBG then
    s.rd a + 65536 * (match s.sea.unlockEnd with | some t => (t - s.ltc) / 60000000000 | none => 0)
  else if Reg.SEA_DEVPK 0 ≤ a && a ≤ Reg.SEA_DEVPK 327 then leNat ((List.range 4).map (fun i => Config.devicePublicKey.getD (a - Reg.SEA_DEVPK 0 + i) 0))
  else if Reg.SEA_RPT 0 ≤ a && a ≤ Reg.SEA_RPT 972 then leNat ((List.range 4).map (fun i => s.sea.report.getD (a - Reg.SEA_RPT 0 + i) 0))
  else if Reg.SCR_RL 0 ≤ a && a ≤ Reg.SCR_RL 1023 && s.rd a = 0 then 0x00140064
  else if Reg.STN_GP_CFG 0 ≤ a && a < Reg.STN_GP_CFG 32 && a % 32 = 16 then
    let g := (a - Reg.STN_GP_CFG 0) / 32
    s.rd a + b2n (decide ((s.stk.pub.get g).dirty ≠ 0 && (s.stk.pubOut.get g) ≠ []))
  else s.rd a

/-- The word that stands at an aligned BAR0 register address for a requester. -/
def viewReg (s : State) (r : Requester) (a : Nat) : Nat :=
  if inMsix a then msixWord s a else if noReg s a || (s.is8120 && maskAbsent a) then 0 else viewWord s r a

/-- What a read latches (R57, R58). -/
def readLatch (s : State) (r : Requester) (a : Nat) : State :=
  if a = Reg.RUL_DTC_NS then dtcSnapshot s r else lowWordRead s r a

/-- A read of a register: its word and the state after it. -/
def readReg (s : State) (r : Requester) (a : Nat) : Nat × State :=
  let t := readLatch s r a
  (viewReg t r a, t)

/-- The state lets a port see the register (R433, R434, R447). -/
def readServed (s : State) (a : Nat) : Bool :=
  s.running || s.sysState = 5 || a < 0x10000 || (s.sysState = 6 && (a / 0x10000 = 0x15 || a / 0x10000 = 0x16))

/-! ### Plain writes (R13, R14) -/

/-- The word that a masked write gives. -/
def merged (old mask v : Nat) : Nat := (old &&& (0xFFFFFFFF - mask % 2 ^ 32)) ||| (v &&& (mask % 2 ^ 32))

/-- The value that clearing a highest- or lowest-value field gives it: that of its Reset column. -/
def clearedTo (r : RegRow) (lo width : Nat) : Nat := r.reset / 2 ^ lo % 2 ^ width

/-- RW1C bits and fields of a row are cleared by ones. -/
def clearOnes (s : State) (a : Nat) (r : RegRow) (ones : Nat) : State :=
  let s1 := s.wr a (s.rd a &&& (0xFFFFFFFF - (ones &&& r.w1cBits)))
  r.w1cFields.foldl (fun t p => if ones / 2 ^ p.1 % 2 ^ p.2 = 0 then t else t.setF ⟨a, p.1, p.2⟩ (clearedTo r p.1 p.2)) s1

/-- Values that a register does not take (spec/02, spec/11): the write is ignored. -/
def valueOk (a v : Nat) : Bool :=
  if a = Reg.RUL_ASYM_THR then 50 ≤ v % 4096 && v % 4096 ≤ 2000
  else if a = 0x100004 then 1 ≤ v % 1024 && v % 1024 ≤ 1000
  else if a = 0x110004 then 1 ≤ v % 128 && v % 128 ≤ 100
  else true

/-- Values that a register takes as another (spec/02): SLEW outside 1 to 50 as 50, WIDTH 0 as 1 and above 500 as 500. -/
def valueTaken (a v : Nat) : Nat :=
  if a = Reg.RUL_CTRL then
    let sl := v / 16 % 64
    if 1 ≤ sl && sl ≤ 50 then v else v - sl * 16 + 800
  else if a = Reg.RUL_PPS_OUT then
    let w := v % 512
    if w = 0 then v + 1 else if 500 < w then v - w + 500 else v
  else v

/-- A write of the bits in `mask` of a register without side effects of its own. -/
def plainWrite (s : State) (a : Nat) (r : RegRow) (mask v : Nat) : State :=
  let m := mask &&& (r.rw ||| r.rwp)
  let new := valueTaken a (merged (s.rd a) m v)
  let s1 := if m = 0 || !valueOk a new then s else s.wr a new
  clearOnes s1 a r (mask &&& v)

/-! ### Loading a Folio (R15, R426) -/

/-- The bits of a register that a Folio or an epoch loads; the lanes of absent converters read 0 (VEL_PRn_LANES). -/
def loadedBits (s : State) (r : RegRow) (a : Nat) : Nat :=
  if s.is8120 && decide (0x111000 ≤ a ∧ a < 0x112000) && a % 0x80 = 0x10 then r.loaded &&& 0xFFFF00FF else r.loaded

/-- One register of a Folio: its loaded fields; a register of an absent instance takes none (R2). -/
def loadReg (s : State) (p : Nat × Word) : State :=
  match findRow p.1 with
  | some r => if r.loaded = 0 || noReg s p.1 then s else s.wr p.1 (merged (s.rd p.1) (loadedBits s r p.1) p.2.toNat)
  | none => s

def loadRegs (s : State) (l : List (Nat × Word)) : State := l.foldl loadReg s

end Sys2Proof.Machine
end

