-- ==== Sys2Proof/Machine/Limits.lean ====
section
/-! DEFINITION. The checks on a configuration (spec/13 R423 cause 11, R439): ranges of fields, the words of the elements, and the
checks of R43, R98, R108, R123, R132, R133, R138, R163, R204, R241, R245, R252, R259, R324, R279, R353, R360, R377, R378 and R397. Limits in decimal are
compared as the nearest binary32 (DEDUCED, log entry 44). -/

namespace Sys2Proof.Machine

/-! ### Words of a settings block -/

/-- A settings block by word. -/
abbrev Block := Nat → Nat

/-- `n` bits from bit `lo` of a word. -/
def Block.fld (b : Block) (w lo n : Nat) : Nat := b w / 2 ^ lo % 2 ^ n

/-- Words `a` to `z - 1` are 0. -/
def Block.zero (b : Block) (a z : Nat) : Bool := (List.range (z - a)).all (fun i => b (a + i) = 0)

/-- A word has no bit from `n` upward. -/
def Block.upTo (b : Block) (w n : Nat) : Bool := decide (b w < 2 ^ n)

/-- The binary32 nearest to v / d. -/
def lim (v : Int) (d : Nat) : Nat := f32.ofRat v d

/-- A binary32 word lies within two limits, each a fraction. -/
def inR (w : Nat) (lo : Int) (ld : Nat) (hi : Int) (hd : Nat) : Bool := f32.le (lim lo ld) w && f32.le w (lim hi hd)

/-- A word that only another configuration uses is 0 or within its range (DEDUCED, log entry 44). -/
def inRIf (used : Bool) (w : Nat) (lo : Int) (ld : Nat) (hi : Int) (hd : Nat) : Bool := (!used && w = 0) || inR w lo ld hi hd

/-- From 0 to less than another word. -/
def belowW (w top : Nat) : Bool := f32.le 0 w && f32.lt w top

/-! ### Element words (spec/06, spec/07) -/

/-- The points of a user curve (R196). -/
def userCurveOk (b : Block) (n : Nat) : Bool :=
  f32.gt (b 96) (lim 1 1) &&
    (List.range n).all (fun i => f32.gt (b (97 + 2 * i)) 0 &&
      (i = 0 || (f32.gt (b (96 + 2 * i)) (b (94 + 2 * i)) && f32.le (b (97 + 2 * i)) (b (95 + 2 * i))))) &&
    b.zero (96 + 2 * n) 128

/-- Words 32 to 39 and the user curve of an overcurrent stage (R205). -/
def stageOk (b : Block) : Bool :=
  let curve := b.fld 32 0 4
  let reset := b.fld 32 4 2
  let n := b.fld 32 6 5
  decide (curve ≤ 8) && decide (reset ≤ 2) && !(reset = 2 && curve = 0) && b.upTo 32 11 &&
    (if curve = 8 then decide (2 ≤ n) && decide (n ≤ 16) && userCurveOk b n else decide (n = 0) && b.zero 96 128) &&
    inR (b 33) 1 100 200000 1 && inRIf (curve ≠ 0) (b 34) 1 100 15 1 && inR (b 35) 0 1 300 1 && inR (b 36) 0 1 10 1 &&
    inR (b 37) 0 1 60 1 && inRIf (curve ≠ 0) (b 38) 2 1 40 1 && inRIf (curve = 8 && reset = 2) (b 39) 1 10 300 1

def phocOk (b : Block) (nb : Nat) : Bool := decide (nb ≤ 3) && stageOk b && b.zero 40 96

def efocOk (b : Block) (nb : Nat) : Bool :=
  stageOk b && b.upTo 40 1 && decide (nb = if b.fld 40 0 1 = 0 then 1 else 3) && b.zero 41 96

def nsocOk (b : Block) (nb : Nat) : Bool :=
  stageOk b && b.upTo 40 2 && b.fld 40 0 1 = 0 && decide (nb = 3) && inR (b 41) 0 1 1 1 && b.zero 42 96

def dirocOk (b : Block) (nb : Nat) : Bool :=
  decide (nb = 6) && stageOk b && b.fld 40 0 2 ≠ 3 && b.fld 40 3 2 ≠ 3 && b.upTo 40 6 && inR (b 41) (-90) 1 90 1 && inR (b 42) 30 1 90 1 &&
    inR (b 43) 1 10 100000 1 && inR (b 44) 0 1 1 2 && b.zero 45 96

/-- UV and OV (R213 to R215). -/
def voltOk (uv : Bool) (b : Block) (nb : Nat) : Bool :=
  let meas := b.fld 32 1 2
  let inv := b.fld 32 0 1 = 1
  b.upTo 32 7 && decide (b.fld 32 5 2 ≤ 1) && (if meas = 0 then nb = 1 || nb = 3 else decide (nb = 3)) && !(uv && meas = 3) &&
    inR (b 33) 1 10 1000000 1 && inR (b 34) 0 1 300 1 && inRIf inv (b 35) 1 100 100 1 && inR (b 36) 0 1 10 1 && inR (b 37) 0 1 60 1 &&
    (if uv then inR (b 38) 0 1 1000000 1 else decide (b 38 = 0)) && b.zero 39 128

/-- 0, or from 0.05 to 0.5. -/
def harmOk (w : Nat) : Bool := w = 0 || inR w 1 20 1 2

def diffOk (b : Block) (nb : Nat) : Bool :=
  let form := b.fld 32 0 1
  let nterm := b.fld 32 1 2
  b.upTo 32 12 && decide (1 ≤ b.fld 32 10 2) &&
    (if form = 0 then decide (nb = 6) && decide (nterm = 0) && decide (b.fld 32 3 4 ≤ 11)
     else decide (2 ≤ nterm) && decide (nterm ≤ 3) && decide (nb = nterm) && decide (b.fld 32 3 4 = 0)) &&
    inR (b 33) 1 20 50 1 && inR (b 34) 1 20 50 1 && (if form = 1 && nterm = 3 then inR (b 35) 1 20 50 1 else decide (b 35 = 0)) &&
    inR (b 36) 1 100 100000 1 && inR (b 37) 1 10 9 10 && inR (b 38) 1 100 200000 1 && inR (b 39) 3 10 3 2 && f32.ge (b 39) (b 37) &&
    f32.gt (b 40) (b 36) && f32.finite (b 40) && harmOk (b 41) && harmOk (b 42) && b.zero 43 128

/-- BFP (R222): context `c` itself is no source of its own. -/
def bfpOk (b : Block) (nb c : Nat) : Bool :=
  let n := b.fld 32 3 3
  (nb = 3 || nb = 4) && b.upTo 32 6 && decide (1 ≤ n) && decide (n ≤ 4) && inR (b 33) 1 100 100000 1 &&
    inRIf (b.fld 32 1 1 = 1) (b 34) 1 100 100000 1 && inR (b 35) 0 1 1 1 &&
    (List.range 4).all (fun j => if j < n then
      b.upTo (36 + j) 9 && (if b.fld (36 + j) 8 1 = 0 then decide (b.fld (36 + j) 0 8 < 128) else b.fld (36 + j) 0 8 ≠ c) else decide (b (36 + j) = 0)) &&
    b.zero 40 128

def freqOk (b : Block) (nb fnom : Nat) : Bool :=
  let mode := b.fld 32 0 2
  let f0 : Int := if fnom = 0 then 50 else 60
  b.upTo 32 12 && decide (mode ≤ 2) && decide (b.fld 32 2 2 ≤ 2) && decide (nb = if b.fld 32 4 1 = 0 then 3 else 1) &&
    (if mode = 2 then decide (1 ≤ b.fld 32 6 6) && decide (b.fld 32 6 6 ≤ 50) else decide (b.fld 32 6 6 = 0)) &&
    (if mode = 2 then inR (b 33) 1 20 10 1 && f32.lt (b 34) (b 33) else inR (b 33) (f0 - 10) 1 (f0 + 10) 1) && inR (b 34) 5 1000 1 1 &&
    inR (b 35) 0 1 60 1 && inR (b 36) 1 10 1000000 1 && b.zero 37 128

/-- Poles of a DC element: one or two, SGN2 0 with one (R227, R231). -/
def polesOk (b : Block) (nb : Nat) : Bool := (nb = 1 && b.fld 32 1 1 = 0) || nb = 2

def rocovOk (b : Block) (nb : Nat) : Bool :=
  polesOk b nb && b.upTo 32 8 && decide (1 ≤ b.fld 32 2 6) && decide (b.fld 32 2 6 ≤ 48) && inR (b 33) 1000000 1 100000000000 1 &&
    belowW (b 34) (b 33) && inR (b 35) 1 1 2000000 1 && inR (b 36) 0 1 200000 1 && inR (b 37) 0 1 1 10 && b.zero 38 128

def didtOk (b : Block) (nb : Nat) : Bool :=
  polesOk b nb && b.upTo 32 10 && decide (1 ≤ b.fld 32 2 6) && decide (b.fld 32 2 6 ≤ 48) && decide (b.fld 32 8 2 ≤ 2) &&
    inR (b 33) 1000 1 10000000000 1 && belowW (b 34) (b 33) && inR (b 35) 0 1 1 10 && b.zero 36 128

def dcocOk (b : Block) (nb : Nat) : Bool :=
  polesOk b nb && b.upTo 32 4 && decide (b.fld 32 2 2 ≤ 2) && inR (b 33) 1 1 100000 1 && belowW (b 34) (b 33) && inR (b 35) 0 1 10 1 && b.zero 36 128

def dcuvOk (b : Block) (nb : Nat) : Bool :=
  polesOk b nb && b.upTo 32 5 && decide (b.fld 32 2 2 = 0) && inR (b 33) 1 1 2000000 1 && inR (b 34) 0 1 200000 1 && inR (b 35) 0 1 10 1 && b.zero 36 128

/-- TWDET (R238 to R241): a confirming context is a ROCOV context of the same engine. -/
def twdetOk (types : Nat → Nat) (b : Block) (nb c : Nat) : Bool :=
  let k := b.fld 32 1 8
  decide (nb = 1) && b.upTo 32 9 && (if b.fld 32 0 1 = 1 then decide (types k = 0x20) && decide (k / 16 = c / 16) else decide (k = 0)) &&
    f32.finite (b 33) && !f32.eqv (b 33) 0 && inR (b 34) 100 1 2000000 1 && inR (b 35) 1 1 100000 1 && inR (b 36) 1 100000 2 1000 &&
    inR (b 37) 1 1000 1 10 && b.zero 38 128

def twlocOk (b : Block) (nb : Nat) : Bool :=
  decide (nb = 1) && b.upTo 32 12 && inR (b 33) 1000 1 2000000 1 && inR (b 34) 100000000 1 300000000 1 && inR (b 35) 0 1 1 10000 &&
    inR (b 36) 1 100 1 1 && f32.le 0 (b 37) && f32.le (b 37) (b 33) && f32.le (b 37) (b 38) && f32.le (b 38) (b 33) && inR (b 39) 1 1 100000 1 &&
    inR (b 40) 0 1 5 1000000 && inR (b 41) 0 1 10000 1 && b.zero 42 128

def dcdiffOk (b : Block) (nb : Nat) : Bool :=
  decide (nb = 2) && b.upTo 32 9 && decide (1 ≤ b.fld 32 0 5) && decide (b.fld 32 0 5 ≤ 16) && inR (b 33) 1 1 100000 1 && inR (b 34) 1 20 9 10 &&
    belowW (b 35) (b 33) && b.zero 36 128

/-- The words 32 to 127 of an element of type `t` (R204). -/
def elementOk (types : Nat → Nat) (b : Block) (t nb c : Nat) : Bool :=
  if t = 0x01 then phocOk b nb
  else if t = 0x02 then efocOk b nb
  else if t = 0x03 then dirocOk b nb
  else if t = 0x04 then voltOk true b nb
  else if t = 0x05 then voltOk false b nb
  else if t = 0x06 then diffOk b nb
  else if t = 0x07 then bfpOk b nb c
  else if t = 0x08 then freqOk b nb (b.fld 0 10 1)
  else if t = 0x09 then nsocOk b nb
  else if t = 0x20 then rocovOk b nb
  else if t = 0x21 then didtOk b nb
  else if t = 0x22 then dcocOk b nb
  else if t = 0x23 then dcuvOk b nb
  else if t = 0x24 then twdetOk types b nb c
  else if t = 0x25 then twlocOk b nb
  else if t = 0x26 then dcdiffOk b nb
  else false

/-- Measurements an element produces at most (R202, R233). -/
def maxMeas (t : Nat) : Nat :=
  (([(0x01, 4), (0x02, 2), (0x03, 6), (0x04, 4), (0x05, 4), (0x06, 8), (0x07, 4), (0x08, 3), (0x09, 3), (0x20, 4), (0x21, 4), (0x22, 2),
     (0x23, 2), (0x24, 4), (0x25, 4), (0x26, 5)] : List (Nat × Nat)).find? (fun p => p.1 = t)).elim 0 (·.2)

/-- The common header (R160, R161). -/
def headerOk (b : Block) (t nb : Nat) : Bool :=
  let k := classOf t
  b.upTo 0 23 && b.fld 0 8 2 ≠ 3 && decide (1 ≤ nb) && decide (nb ≤ 8) && decide (b.fld 0 15 4 ≤ maxMeas t) &&
    decide (b.fld 0 19 4 ≤ if k = 1 then 3 else if k = 2 then 15 else 0) &&
    b.upTo 1 18 && decide (1 ≤ b.fld 1 0 16) && b.fld 1 16 2 ≠ 3 && decide (200 ≤ b 2) && decide (b 2 ≤ 100000) && b.upTo 3 16 &&
    b.zero 4 8 && b.zero (8 + nb) 16 && b.zero (16 + nb) 32 &&
    (List.range nb).all (fun i => b.upTo (8 + i) 13 && decide (b.fld (8 + i) 0 8 ≤ 223) && decide (b.fld (8 + i) 8 5 ≤ 23) &&
      f32.finite (b (16 + i)) && !f32.eqv (b (16 + i)) 0)

/-- Rate of a stream context; local streams run at 96 kS/s. -/
def scRate (s : State) (sc : Nat) : Nat := if 192 ≤ sc then 96000 else svRate s sc

/-- The link runs Ductus with MAXVER 2 (R324). -/
def linkV2 (s : State) (n : Nat) : Bool := s.f (Reg.DUC_DL_CFG_MODE n) = 1 && s.f (Reg.DUC_DL_CFG_MAXVER n) = 2

/-- A stream is fed by a link. -/
def fedBy (s : State) (n sc : Nat) : Bool := s.on (Reg.DUC_DL_CFG_EN n) && s.on (Reg.DUC_DL_RX_RXEN n) && s.f (Reg.DUC_DL_RX_RXSC n) = sc

/-- Bindings and links suit the element (R163, R245, R252, R324). -/
def bindingsOk (s : State) (b : Block) (t nb : Nat) : Bool :=
  let k := classOf t
  let rates := (List.range nb).map (fun i => scRate s (b.fld (8 + i) 0 8))
  (if k = 1 then rates.all (fun r => [4800, 14400, 96000].contains r) else if k = 2 then rates.all (· = 96000) else decide (b.fld 8 0 13 < 16)) &&
    (if t = 0x25 then linkV2 s (b.fld 32 0 2) && !(s.is8120 && 2 ≤ b.fld 32 0 2)
     else if t = 0x26 then
       let n := b.fld 32 6 2
       linkV2 s n && fedBy s n (b.fld 8 0 8) && !fedBy s n (b.fld 9 0 8) && b.fld 3 1 1 = 1
     else true)

/-- The settings block of context `c` as it stands. -/
def blockOf (s : State) (c : Nat) : Block := fun w => s.live c w

/-- The block of a context. In that of an unused one (TYPE 0) only SVC is held to a value, 0 (R161, R162); every other word may stand
there (DESIGN CHOICE, log entry 63). -/
def contextOk (s : State) (c : Nat) : Bool :=
  let b := blockOf s c
  let t := b.fld 0 0 8
  let nb := b.fld 0 11 4
  if t = 0 then b.fld 0 8 2 = 0 else headerOk b t nb && elementOk (ncType s) b t nb c && bindingsOk s b t nb

/-! ### Engines (R43) -/

/-- Evaluation time and period of a class in 0.1 ns, its limit, and its rate. -/
def evalTime (k : Nat) : Nat := if k = 1 then 4200 else if k = 2 then 3600 else 3000
def evalPeriod (k : Nat) : Nat := if k = 2 then 104167 else 200000
def termLimit (k : Nat) : Nat := if k = 1 then 83000 else if k = 2 then 57600 else 12000
def evalRate (k : Nat) : Nat := if k = 1 then 4800 else if k = 2 then 96000 else 50000

/-- Rank of a class: TWV above DCF above AC. -/
def termGo (base own : Nat) (higher : List Nat) : Nat → Nat → Nat
  | 0, w => w
  | n + 1, w =>
    let next := base + own + (higher.map (fun h => (w + evalPeriod h - 1) / evalPeriod h * evalTime h)).sum
    if next = w then w else termGo base own higher n next

/-- The engine term of a context of class `k` on an engine that holds contexts of classes `ks`. -/
def engineTerm (ks : List Nat) (k : Nat) : Nat :=
  let base := if ks.any (· < k) then 4200 else 0
  let own := (ks.filter (· = k)).length * evalTime k
  termGo base own (ks.filter (k < ·)) 64 (base + own)

/-- Both checks of R43 on an engine that holds contexts of classes `ks`; times are in 0.1 ns. -/
def engineOk (ks : List Nat) : Bool :=
  decide ((ks.map (fun k => evalRate k * evalTime k)).sum ≤ 7000000000) && ks.all (fun k => decide (engineTerm ks k ≤ termLimit k))

/-- The classes that engine `e` holds. -/
def engineClasses (s : State) (e : Nat) : List Nat := ((List.range 16).map (fun i => ncClass s (16 * e + i))).filter (· ≠ 0)

/-! ### Registers -/

/-- `lo ≤ x ≤ hi`. -/
def btw (x lo hi : Nat) : Bool := decide (lo ≤ x) && decide (x ≤ hi)

/-- Stroke output `n`. -/
def soLimits (s : State) (n : Nat) : Bool :=
  let idx := fun (src i : Nat) => if src = 2 then decide (i < if s.is8120 then 16 else 32) else true
  s.f (Reg.STK_SO_CFG_ARMSRC n) ≠ 3 && s.f (Reg.STK_SO_CFG_SUPSRC n) ≠ 3 && s.f (Reg.STK_SO_CFG_LATCH n) ≠ 3 &&
    idx (s.f (Reg.STK_SO_CFG_ARMSRC n)) (s.f (Reg.STK_SO_CFG_ARMIDX n)) && idx (s.f (Reg.STK_SO_CFG_SUPSRC n)) (s.f (Reg.STK_SO_CFG_SUPIDX n)) &&
    btw (s.f (Reg.STK_SO_TMIN_TMIN n)) 2 2000 && btw (s.f (Reg.STK_SO_TMIN_CGMAX n)) 100 10000

/-- No mask, of an enabled output or not, sets a bit of an absent input (R259). -/
def masksOk (s : State) : Bool :=
  !s.is8120 || (List.range 16).all (fun n => ([4, 5, 6, 7, 15] : List Nat).all (fun w => s.rd (Reg.STK_SO_MASK n w) = 0))

def dlLimits (s : State) (n : Nat) : Bool :=
  s.f (Reg.DUC_DL_CFG_MODE n) ≠ 3 && (s.f (Reg.DUC_DL_CFG_MODE n) = 0 || btw (s.f (Reg.DUC_DL_CFG_MAXVER n)) 1 2) &&
    (s.f (Reg.DUC_DL_CFG_MODE n) ≠ 2 || btw (s.f (Reg.DUC_DL_CFG_N n)) 1 12) &&
    btw (s.f (Reg.DUC_DL_TX_TXSC n)) 0 223 && btw (s.f (Reg.DUC_DL_TX_NCH n)) 0 8 && btw (s.f (Reg.DUC_DL_RX_RXSC n)) 0 191 &&
    (List.range 8).all (fun i => decide (s.rd (Reg.DUC_DL_TXMAP n (i / 4)) / 256 ^ (i % 4) % 32 ≤ 23)) &&
    btw (s.f (Reg.DUC_DL_DLY_DSTEP n)) 100 10000 && btw (s.f (Reg.DUC_DL_DLY_DMTHR n)) 100 50000 &&
    (!(s.on (Reg.DUC_DL_TX_TXEN n) || s.on (Reg.DUC_DL_RX_RXEN n)) || linkV2 s n)

/-- Process port `n` (R123). -/
def pbLimits (s : State) (n : Nat) : Bool :=
  s.f (Reg.PBI_PB_CFG_HOSTSEL n) ≠ 3 && btw (s.f (Reg.PBI_PB_CFG_BG n)) 0 4 &&
    (s.f (Reg.PBI_PB_CFG_BG n) = 0 || !s.on (Reg.PBI_PB_CFG_PRP (n / 2 * 2)))

/-- Stream context `n` (R138): LATE_LIM in us is at least NASDU/rate and 50 us. -/
def scLimits (s : State) (n : Nat) : Bool :=
  let r := s.f (Reg.PBI_SC_CFG_RATE n)
  let na := s.f (Reg.PBI_SC_CFG_NASDU n)
  btw r 0 5 && btw na 1 8 && btw (s.f (Reg.PBI_SC_CFG_NCHAN n)) 1 24 && btw (s.f (Reg.PBI_SC_CFG_LATE_LIM n)) 1 10000 &&
    decide (na * 1000000 + 50 * svRate s n ≤ s.f (Reg.PBI_SC_CFG_LATE_LIM n) * svRate s n)

def gsLimits (s : State) (n : Nat) : Bool := btw (s.f (Reg.PBI_GS_CFG_NMEMB n)) 1 64

/-- Publication `g`: ranges, and its encoded frame of at most 541 bytes (R353). -/
def gpLimits (s : State) (g : Nat) : Bool :=
  let n := s.f (Reg.STN_GP_CFG_NMEMB g)
  btw n 1 64 && decide (gpOctets s g ≤ 541) && btw (s.f (Reg.STN_GP_CFG_TALMULT g)) 2 3 && btw (s.f (Reg.STN_GP_TIME_TMIN g)) 1 1000 && btw (s.f (Reg.STN_GP_TIME_TMAX g)) 100 60000 &&
    decide (s.f (Reg.STN_GP_TIME_TMIN g) ≤ s.f (Reg.STN_GP_TIME_TMAX g)) &&
    (List.range n).all (fun m => s.f (Reg.STN_GP_MEM_KIND g m) ≠ 3 && decide (s.f (Reg.STN_GP_MEM_TYPE g m) ≤ 4))

/-- Bits a second of frames of `octets`, each with its preamble and gap of 20 octets, and 80 % of the line rate. -/
def lineBits (rate octets : Nat) : Nat := rate * (octets + 20) * 8
def lineLimit : Nat := 800000000

/-- The expected subscribed traffic of one entry of the Folio's table (R133; log entry 57), in bits in 840 s, which every NASDU divides:
of a stream context from its rate and frames, of a subscription as the Folio states it. -/
def expectedBits (s : State) (e : Nat × Nat × Nat) : Nat :=
  if e.1 < 192 then
    let na := s.f (Reg.PBI_SC_CFG_NASDU e.1)
    lineBits (840 * svRate s e.1 / na) (Config.frameOctets 4 [s.f (Reg.PBI_SC_CFG_NCHAN e.1), na])
  else 840 * e.2.2

/-- The entry's object is enabled. -/
def expectedEn (s : State) (e : Nat × Nat × Nat) : Bool :=
  if e.1 < 192 then s.on (Reg.PBI_SC_CFG_EN e.1) else s.on (Reg.PBI_GS_CFG_EN (e.1 - 192))

/-- A port, or the first port of its PRP pair. -/
def pairHead (s : State) (p : Nat) : Nat :=
  let paired := if p < 24 then s.on (Reg.PBI_PB_CFG_PRP (p / 2 * 2)) else decide (s.f (Reg.STN_PAIR_CFG_MODE ((p - 24) / 2)) = 1)
  if paired then p / 2 * 2 else p

/-- The expected traffic of every port or PRP pair is at most 80 % of its line rate (R133). -/
def subscribedOk (s : State) : Bool :=
  let l := s.pbi.expect.filter (expectedEn s)
  (List.range 28).all (fun p =>
    match l.filter (fun e => pairHead s e.2.1 = p) with
    | [] => true
    | m => decide ((m.map (expectedBits s)).sum ≤ 840 * lineLimit))

/-- The publications of a station pair are at most 80 % of its line rate (R360): SV frames at 96,000 a second, GOOSE frames at the
shortest repetition (DEDUCED, log entry 57). -/
def publishedOk (s : State) : Bool :=
  (List.range 2).all (fun k =>
    let sps := (List.range 8).filter (fun p => s.on (Reg.STN_SP_CFG_EN p) && (s.f (Reg.STN_SP_CFG_PAIRS p)).testBit k)
    let gps := (List.range 32).filter (fun g => s.on (Reg.STN_GP_CFG_EN g) && (s.f (Reg.STN_GP_CFG_PAIRS g)).testBit k)
    match sps, gps with
    | [], [] => true
    | a, b => decide ((a.map (fun p => lineBits 96000 (spOctets s p (fedChans s (s.f (Reg.STN_SP_CFG_SRC p)))))).sum +
        (b.map (fun g => lineBits 1000 (gpOctets s g) / s.f (Reg.STN_GP_TIME_TMIN g))).sum ≤ lineLimit))

/-- Main rate of a profile in samples a second; under NATIVE that of its first channel. -/
def velRate (s : State) (p : Nat) : Nat :=
  let r := s.f (Reg.VEL_PR_CFG_RATE p)
  if r = 0 then 96000 else if r = 1 then 4800
  else match (s.vel.tabs.get p).chans with
    | ch :: _ => scRate s ch.stream
    | [] => 4800

/-- Row size (R382), lanes of profile `p`. -/
def velRow (s : State) (p : Nat) : Nat := rowBytes (s.f (Reg.VEL_PR_CFG_NA p)) (s.f (Reg.VEL_PR_CFG_NB p))

def velLanes (s : State) (p : Nat) : Nat := (bitsOf 16 (s.f (Reg.VEL_PR_LANES_LANES p))).length

/-- Profile `p` alone (R377, R378): ranges, channels and binaries within its table, rates of its channels, and its largest record. -/
def velLimits (s : State) (p : Nat) : Bool :=
  let r := s.f (Reg.VEL_PR_CFG_RATE p)
  let tw := s.f (Reg.VEL_PR_TW_TWPRE p) + s.f (Reg.VEL_PR_TW_TWPOST p)
  let chans := (s.vel.tabs.get p).chans.take (s.f (Reg.VEL_PR_CFG_NA p))
  let rates : List Nat := if r = 0 then [96000] else if r = 1 then [4800, 14400, 96000] else [velRate s p]
  r ≠ 3 && decide (s.f (Reg.VEL_PR_CFG_NA p) ≤ (s.vel.tabs.get p).chans.length) && decide (s.f (Reg.VEL_PR_CFG_NB p) ≤ (s.vel.tabs.get p).bins.length) &&
    btw (s.f (Reg.VEL_PR_CFG_NA p)) 0 256 && btw (s.f (Reg.VEL_PR_CFG_NB p)) 0 512 && btw (s.f (Reg.VEL_PR_CFG_NTRIG p)) 0 16 &&
    btw (s.f (Reg.VEL_PR_PRE_PRE p)) 0 (if r = 0 then 2000 else 10000) && btw (s.f (Reg.VEL_PR_PRE_HOLDOFF p)) 0 10000 &&
    btw (s.f (Reg.VEL_PR_POST_POST p)) 1 60000 && btw (s.f (Reg.VEL_PR_POST_MAXLEN p)) 100 60000 && decide (tw ≤ 30000) &&
    (List.range 16).all (fun k => decide (s.f (Reg.VEL_PR_TRIG_KIND p k) ≤ 8)) &&
    chans.all (fun ch => rates.contains (scRate s ch.stream)) && (r ≠ 2 || [4000, 12800, 14400, 15360].contains (velRate s p) || chans = []) &&
    decide (velRow s p * velRate s p * s.f (Reg.VEL_PR_POST_MAXLEN p) * 100 + 13824000 * velLanes s p * tw ≤
      (if s.is8120 then 256 else 512) * 1048576 * 100000)

/-- The profiles together (R378): staging, and capture. -/
def velTogether (s : State) : Bool :=
  let ps := (List.range 16).filter (fun p => s.on (Reg.VEL_PR_CFG_EN p))
  decide ((ps.map (fun p => velRow s p * velRate s p * (s.f (Reg.VEL_PR_PRE_PRE p) + 100))).sum ≤ (if s.is8120 then 56 else 112) * 1048576 * 1000) &&
    decide ((ps.map (fun p => velRow s p * velRate s p + 13824000 * velLanes s p)).sum ≤ 800000000)

/-- Field channel `n` (R396, R397); `w` are the configuration words. -/
def fcLimits (s : State) (n : Nat) : Bool :=
  let m := s.f (Reg.FIO_FC_CFG_MODE n)
  let mate := if n % 2 = 0 then n + 1 else n - 1
  let same := fun (x : Nat → Fld) => s.f (x n) = s.f (x mate)
  btw m 0 4 && s.f (Reg.FIO_FC_CFG_SAFE n) ≠ 3 && btw (s.f (Reg.FIO_FC_CFG_FILT n)) 0 200 &&
    btw (s.f (Reg.FIO_FC_CFG_WDT n)) 2 250 &&
    (m ≠ 4 || (!s.is8120 && s.f (Reg.FIO_FC_CFG_MODE mate) = 4 && same Reg.FIO_FC_CFG_SAFE && same Reg.FIO_FC_CFG_OLMODE && same Reg.FIO_FC_CFG_WDT))

/-- Destination MAC, APPID and svID of a stream context (R132). -/
def scTriple (s : State) (n : Nat) : Nat × Nat × Octets :=
  (s.rd (Reg.PBI_SC_MATCH0 n), s.rd (Reg.PBI_SC_MATCH1 n), ((s.pbi.svIds.find? (fun p => p.1 = n)).elim [] (·.2)))

/-- The decode load of R133: frames a second over enabled hardware contexts, times 840, so that every NASDU divides. -/
def decodeLoad (s : State) (ns : List Nat) : Nat :=
  ((ns.filter (fun n => !s.on (Reg.PBI_SC_CFG_HA n))).map (fun n => svRate s n * 840 / s.f (Reg.PBI_SC_CFG_NASDU n))).sum

/-- TWLOC contexts of a link: at most 8 (R344). -/
def twlocCount (s : State) (n : Nat) : Nat := ((List.range (contexts s)).filter (fun c => ncType s c = 0x25 && s.liveF c 32 0 2 = n)).length

/-- No Ductus transmit bit and no publish slot names a reserved source (R279). -/
def sourcesOk (s : State) : Bool :=
  let ok := fun (src : Nat) => decide (src < 560) || src = 1023
  (List.range 64).all (fun i => ok (s.f (Reg.STK_DLTX_SRC i))) && (List.range 256).all (fun i => ok (s.f (Reg.STK_PS_SRC i)))

/-- Every check with a number of its own. `must lo n`: an object whose words stand from key `lo` on is looked at even where it is
not enabled, because a change record touches it. -/
def failedCheck (s : State) (must : Nat → Nat → Bool) : Option Nat :=
  let scs := (List.range 192).filter (fun n => s.on (Reg.PBI_SC_CFG_EN n))
  let sel := fun (count : Nat) (en : Nat → Bool) (lo : Nat → Nat) (n : Nat) => (List.range count).filter (fun k => en k || must (lo k) n)
  let bad : List (Nat × Bool) :=
    [(0, !(List.range 16).all (fun e => engineOk (engineClasses s e))),
     (1, !(List.range s.converters).all (fun n => seqFits s n (actTable s n))),
     (2, decide (840 * 4000000 < decodeLoad s scs)),
     (3, !(List.range (contexts s)).all (fun c => (ncType s c = 0 && !must (16777216 + 128 * c) 128) || contextOk s c)),
     (4, !(List.range 4).all (fun n => decide (twlocCount s n ≤ 8))),
     (5, !(sel 16 (fun p => s.on (Reg.VEL_PR_CFG_EN p)) Reg.VEL_PR_CFG 0x80).all (velLimits s) || !velTogether s),
     (6, !(sel 32 (fun n => s.rd (Reg.FIO_FC_CFG n) ≠ 0) Reg.FIO_FC_CFG 4).all (fcLimits s)),
     (7, !(sel 16 (fun n => s.on (Reg.STK_SO_CFG_EN n)) Reg.STK_SO_CFG 0x80).all (soLimits s) || !masksOk s),
     (8, !(sel 4 (fun n => s.on (Reg.DUC_DL_CFG_EN n)) Reg.DUC_DL_CFG 0x100).all (dlLimits s)),
     (9, !(List.range 24).all (pbLimits s)),
     (10, !(sel 192 (fun n => s.on (Reg.PBI_SC_CFG_EN n)) Reg.PBI_SC_CFG 0x40).all (scLimits s) || !decide ((scs.map (scTriple s)).Nodup)),
     (11, !(sel 64 (fun n => s.on (Reg.PBI_GS_CFG_EN n)) Reg.PBI_GS_CFG 0x40).all (gsLimits s)),
     (12, !(sel 32 (fun g => s.on (Reg.STN_GP_CFG_EN g)) Reg.STN_GP_CFG 0x20).all (gpLimits s)),
     (13, !mapValid (feeds s)),
     (14, !subscribedOk s),
     (15, !publishedOk s),
     (16, !sourcesOk s)]
  (bad.find? (·.2)).map (·.1)

end Sys2Proof.Machine
end

