-- ==== Sys2Proof/Machine/Ports.lean ====
section
/-! DEFINITION. Network ports (spec/04 R118 to R130, spec/10 R348 to R352, spec/02 R62 to R64): links, acceptance, PRP and HSR,
bridge groups, egress, classification, the host frame ring, SFP management. Ports 0-23 are PB, 24-27 SB. -/

namespace Sys2Proof.Machine

/-! ### Port settings -/

/-- The variant has the port: PB0-PB11 and SB0-SB1 on the SPT-8120 (R1, R4). -/
def portExists (s : State) (p : Nat) : Bool := !s.is8120 || decide (p < 12) || decide (24 ≤ p ∧ p < 26)

def portEn (s : State) (p : Nat) : Bool :=
  portExists s p && if p < 24 then s.on (Reg.PBI_PB_CFG_EN p) else s.on (Reg.STN_SB_CFG_EN (p - 24)) && s.f (Reg.STN_PAIR_CFG_MODE ((p - 24) / 2)) ≠ 0

/-- Ports receive, send and forward between a start and the next start trigger (R352, R431). -/
def portRuns (s : State) (p : Nat) : Bool := s.running && portEn s p && s.linkUp p

def hostSel (s : State) (p : Nat) : Nat :=
  if p < 24 then s.f (Reg.PBI_PB_CFG_HOSTSEL p) else s.f (Reg.STN_PAIR_CFG_HOSTSEL ((p - 24) / 2))

/-- The PRP pair of a port (R123, R349). -/
def prpPair (s : State) (p : Nat) : Option Nat :=
  if p < 24 then (if s.on (Reg.PBI_PB_CFG_PRP (p / 2 * 2)) then some (p / 2) else none)
  else if s.f (Reg.STN_PAIR_CFG_MODE ((p - 24) / 2)) = 1 then some (12 + (p - 24) / 2) else none

def isHsr (s : State) (p : Nat) : Bool := 24 ≤ p && s.f (Reg.STN_PAIR_CFG_MODE ((p - 24) / 2)) = 2

/-- Link-local destinations 01-80-C2-00-00-00 to -0F (R127, R350). -/
def linkLocal (dst : Nat) : Bool := dst / 16 = 0x0180C2000000 / 16

/-- A group address. -/
def multicast (dst : Nat) : Bool := dst / 2 ^ 40 % 2 = 1

def isPtp : Body → Bool
  | .ptp _ => true
  | _ => false

def isPdelay : Body → Bool
  | .ptp (.pdelayReq _ _) => true
  | .ptp (.pdelayResp _ _ _ _ _) => true
  | .ptp (.pdelayRespFu _ _ _ _) => true
  | _ => false

/-- The multicast addresses of IEEE 1588 Annex F (R61; PRESUMED, log entry 58): 01-1B-19-00-00-00 and 01-80-C2-00-00-0E. -/
def ptpAddr (dst : Nat) : Bool := dst = 0x011B19000000 || dst = 0x0180C200000E

/-! ### Links (R118, R119) -/

/-- A member of `PORT_LINK_*` or `STN_LINK_*`. -/
def linkEvent (s : State) (p : Nat) (up : Bool) : State :=
  if p < 24 then s.log (if up then Ev.PORT_LINK_UP else Ev.PORT_LINK_DOWN) p
  else s.log (if up then Ev.STN_LINK_UP else Ev.STN_LINK_DOWN) (p - 24)

/-- The four status bits LINK, LOS, PCS_SYNC, AN_DONE. -/
def setLinkBits (s : State) (p link los pcs an : Nat) : State :=
  if p < 24 then s.setFs [(Reg.PBI_PB_STAT_LINK p, link), (Reg.PBI_PB_STAT_LOS p, los), (Reg.PBI_PB_STAT_PCS_SYNC p, pcs), (Reg.PBI_PB_STAT_AN_DONE p, an)]
  else
    let a := Reg.STN_SB_STAT (p - 24)
    s.wr a (s.rd a / 16 * 16 + link + 2 * los + 4 * pcs + 8 * an)

def portAn (s : State) (p : Nat) : Bool := if p < 24 then s.on (Reg.PBI_PB_CFG_AN p) else s.on (Reg.STN_SB_CFG_AN (p - 24))
def portSgmii (s : State) (p : Nat) : Bool := if p < 24 then s.on (Reg.PBI_PB_CFG_IF p) else s.on (Reg.STN_SB_CFG_IF (p - 24))

/-- A port's signals as they now stand (R119): the link is up while the PCS is synchronised, auto-negotiation where enabled has
completed and LOS is low. Each change of the link is logged. -/
def linkSignals (s : State) (p : Nat) (los pcs an : Bool) : State :=
  if portExists s p then
    let up := pcs && (an || !portAn s p) && !los
    let s1 := setLinkBits { s with pbi := { s.pbi with anDone := setBitOf s.pbi.anDone p an } } p (b2n up) (b2n los) (b2n pcs) (b2n (an && portAn s p))
    if s.linkUp p = up then s1 else linkEvent s1 p up
  else s

/-- LOS and PCS_SYNC of a port. -/
def portSignals (s : State) (p : Nat) : Bool × Bool :=
  if p < 24 then (s.on (Reg.PBI_PB_STAT_LOS p), s.on (Reg.PBI_PB_STAT_PCS_SYNC p))
  else let w := s.rd (Reg.STN_SB_STAT (p - 24)); (w.testBit 1, w.testBit 2)

/-- The links as a changed AN makes them (R119): AN_DONE shows completion where auto-negotiation is enabled, and a link that this
raises or brings down is logged. -/
def linksFollow (s : State) : State :=
  (List.range 28).foldl (fun t p => let x := portSignals t p; linkSignals t p x.1 x.2 (t.pbi.anDone.testBit p)) s

/-- PORT_LINK_DOWN (R119), with LOS, PCS synchronism and completed auto-negotiation as they stand. -/
def portLinkDown (s : State) (p : Nat) (los pcs an : Bool) : State := linkSignals s p los pcs an

/-- PORT_LINK_UP (R118, R119): at any other speed than 1000 Mbit/s the link stays down; on SGMII the refusal is counted. -/
def portLinkUp (s : State) (p : Nat) (gigabit : Bool) : State :=
  if gigabit then linkSignals s p false true true
  else if portExists s p && portSgmii s p then
    s.incS (if p < 24 then Reg.PBI_PB_STAT_LINK_REFUSED p else Reg.STN_SB_STAT_LINK_REFUSED (p - 24))
  else s

/-! ### Host frame ring (R130, R470) -/

/-- Octets of a 48-bit address as transmitted. -/
def macBytes (m : Nat) : List Byte := (leBytes 6 m).reverse

/-- The frame's octets after the addresses; a trailer that has been removed stood in front of the FCS (R124). -/
def frameOctets (f : Frame) (trailer : Bool) : List Byte :=
  let n := f.octets.length
  if trailer then f.octets.take (n - 10) ++ f.octets.drop (n - 4) else f.octets

/-- The 2,048 bytes of a slot (R470). -/
def frameSlot (s : State) (p kind : Nat) (f : Frame) (trailer : Bool) : List Byte :=
  let len := f.len - (if trailer then 6 else 0)
  let body := macBytes f.dst ++ macBytes f.src ++ frameOctets f trailer
  leBytes 2 len ++ leBytes 1 p ++ leBytes 1 (kind + (if trailer then 128 else 0)) ++ leBytes 4 s.hst.frameSeq ++ leBytes 8 s.stampNow ++
    body ++ List.replicate (2032 - body.length) 0

/-- A frame for the host frame ring. -/
def hostRing (s : State) (p kind : Nat) (f : Frame) (trailer : Bool) : State :=
  let pi := s.f Reg.HST_FRING_PI
  if (pi + 65536 - s.f Reg.HST_FRING_CI) % 65536 = 256 then
    let s1 := if p < 24 then s.incW (Reg.PBI_PB_CNT_COUNT p 8) else s
    if s1.pbi.hostOvf then s1 else ({ s1 with pbi := { s1.pbi with hostOvf := true } }).log Ev.HOSTQ_OVERFLOW
  else
    let s1 := s.inkWrite (0x60000 + pi % 256 * 2048) (frameSlot s p kind f trailer)
    let s2 := { s1 with hst := { s1.hst with frameSeq := s1.hst.frameSeq + 1 }, pbi := { s1.pbi with hostOvf := false } }
    (s2.incW Reg.HST_FRING_PI).irq 4

/-! ### Classification (R129) -/

def macOf (hi lo : Nat) : Nat := hi * 2 ^ 32 + lo

/-- The stream context that a frame matches (R132). -/
def svMatch (s : State) (f : Frame) (p : SvPdu) : Option Nat :=
  (List.range 192).find? (fun c =>
    s.on (Reg.PBI_SC_CFG_EN c) && !s.duc.fed.contains c && f.dst = macOf (s.f (Reg.PBI_SC_MATCH1_MAC_HI c)) (s.rd (Reg.PBI_SC_MATCH0 c)) &&
    p.appId = s.f (Reg.PBI_SC_MATCH1_APPID c) && (s.pbi.svIds.any (fun q => q.1 = c && some q.2 = p.asdus.head?.map (·.svId))))

/-- The subscription that a frame matches (R143). -/
def gsMatch (s : State) (f : Frame) (m : GooseMsg) : Option Nat :=
  (List.range 64).find? (fun g =>
    let d := s.gsDecl g
    s.on (Reg.PBI_GS_CFG_EN g) && f.dst = macOf (s.f (Reg.PBI_GS_MATCH1_MAC_HI g)) (s.rd (Reg.PBI_GS_MATCH0 g)) &&
    m.appId = s.f (Reg.PBI_GS_MATCH1_APPID g) && m.gocbRef = d.gocbRef && m.datSet = d.datSet && m.goId = d.goId &&
    m.edition2 = s.on (Reg.PBI_GS_CFG_EDITION g))

def noMatch (s : State) (p : Nat) (f : Frame) (trailer : Bool) : State :=
  let s1 := s.portCnt p 3 3
  if hostSel s p = 2 then hostRing s1 p 3 f trailer else s1

def takeIngress (s : State) (p len : Nat) : State := s.setPort p { s.port p with inUsed := (s.port p).inUsed + len }

/-- A frame of another EtherType, or with a second tag (R120, R129). -/
def otherFrame (s : State) (p : Nat) (f : Frame) (trailer : Bool) : State :=
  if hostSel s p = 1 || hostSel s p = 2 then hostRing s p 0 f trailer else s.portCnt p 3 3

/-- An accepted frame goes to its destination. RUL, which takes every PTP frame of a port in a domain's set, uses those sent to the
addresses of R61. A PRP supervision frame on a port of no pair is sorted as any other EtherType (DESIGN CHOICE, log entry 63). -/
def classify (s : State) (p : Nat) (f : Frame) (trailer : Bool) : State :=
  if 2 ≤ f.tags then otherFrame s p f trailer
  else match f.body with
  | .sv pdu =>
    match svMatch s f pdu with
    | some c =>
      let s1 := svTakeMode s c
      if s1.on (Reg.PBI_SC_CFG_HA c) then hostRing s1 p 1 f trailer
      else
        let s2 := takeIngress s1 p f.len
        { s2 with pbi := { s2.pbi with svq := s2.pbi.svq ++ [⟨p, s.ltc, s.dtcNs, f.len, c, pdu⟩] } }
    | none => noMatch s p f trailer
  | .goose m =>
    match gsMatch s f m with
    | some g =>
      let s1 := gsTakeMode s g
      if s1.on (Reg.PBI_GS_CFG_HA g) then hostRing s1 p 2 f trailer
      else
        let s2 := takeIngress s1 p f.len
        { s2 with pbi := { s2.pbi with gq := s2.pbi.gq ++ [⟨p, s.ltc, f.len, g, m⟩] } }
    | none => noMatch s p f trailer
  | .ptp m =>
    if [0, 1].any (fun d => (s.domPorts d).testBit p) then
      if !ptpAddr f.dst then s else { s with rul := { s.rul with ptpIn := s.rul.ptpIn ++ [⟨p, s.ltc, ndiv (s.dom 0).copy uPerNs, ndiv (s.dom 1).copy uPerNs, m⟩] } }
    else s.portCnt p 3 3
  | .prpSup =>
    if (prpPair s p).isSome || isHsr s p then (if hostSel s p = 1 || hostSel s p = 2 then hostRing s p 4 f trailer else s)
    else otherFrame s p f trailer
  | .other => otherFrame s p f trailer

/-! ### Duplicates (R125, R350) -/

/-- Entries of a pair's table younger than 400 ms. -/
def dupLive (s : State) (pair : Nat) : List (Nat × Nat × Nat) := (s.pbi.pair.get pair).dup.filter (fun e => s.ltc < e.2.2 + 400000000)

def dupSeen (s : State) (pair src seq : Nat) : Bool := (dupLive s pair).any (fun e => e.1 = src && e.2.1 = seq)

def dupEnter (s : State) (pair src seq : Nat) : State :=
  let x := s.pbi.pair.get pair
  { s with pbi := { s.pbi with pair := s.pbi.pair.set pair { x with dup := ((src, seq, s.ltc) :: dupLive s pair).take 2048 } } }

/-! ### Bridge groups (R127) -/

def groupOf (s : State) (p : Nat) : Nat := if p < 24 then s.f (Reg.PBI_PB_CFG_BG p) else 0

/-- The group's table of source addresses: 1,024 entries, aged out after 300 s. -/
def learn (s : State) (g src p : Nat) : State :=
  let live := s.pbi.learnt.filter (fun e => s.ltc < e.2.2.2 + 300000000000 && !(e.1 = src && e.2.1 = g))
  let mine := (live.filter (fun e => e.2.1 = g)).take 1023
  { s with pbi := { s.pbi with learnt := (src, g, p, s.ltc) :: (mine ++ live.filter (fun e => e.2.1 ≠ g)) } }

/-- A unicast destination learnt on the receiving port. -/
def learntHere (s : State) (g dst p : Nat) : Bool :=
  s.pbi.learnt.any (fun e => e.1 = dst && e.2.1 = g && e.2.2.1 = p && s.ltc < e.2.2.2 + 300000000000)

/-- A frame that has to be forwarded waits for FRAME_FORWARD. -/
def queueForward (s : State) (p : Nat) (f : Frame) : State :=
  let x := s.port p
  s.setPort p { x with fwd := x.fwd ++ [(f, s.ltc)] }

def bridge (s : State) (p : Nat) (f : Frame) : State :=
  let g := groupOf s p
  if g = 0 || 4 < g then s
  else
    let s1 := if f.fcsOk then learn s g f.src p else s
    if linkLocal f.dst || isPdelay f.body || (!multicast f.dst && learntHere s g f.dst p) then s1 else queueForward s1 p f

/-! ### Reception (R119 to R126, R350) -/

/-- WRONG_LAN, logged once per episode (R124). -/
def wrongLan (s : State) (p : Nat) (bad : Bool) : State :=
  let x := s.port p
  let s1 := s.setPort p { x with wrongLan := bad }
  if bad then
    let s2 := s1.portCnt p 6 5
    if x.wrongLan then s2 else s2.log Ev.PRP_WRONG_LAN p
  else s1

/-- A valid redundancy control trailer (R124): suffix 0x88FB and LSDUsize equal to the payload, which ends with the trailer and
begins after the EtherType (DEDUCED, log entry 58). -/
def rctValid (f : Frame) (r : Rct) : Bool := r.suffix = 0x88FB && r.lsduSize + 18 + 4 * f.tags = f.len

/-- A frame on a port of a PRP pair (R124 to R126). -/
def prpReceive (s : State) (p pair : Nat) (f : Frame) : State :=
  match f.rct with
  | some r =>
    if rctValid f r then
      let s1 := wrongLan s p (r.lanId ≠ (if p % 2 = 0 then 0xA else 0xB))
      if isPtp f.body then classify s1 p f true
      else if dupSeen s1 pair f.src r.seq then s1.portCnt p 5 4
      else classify (dupEnter s1 pair f.src r.seq) p f true
    else classify s p f false
  | none => classify s p f false

/-- A frame on a ring port (R350); RX_OK counts the frames accepted. -/
def hsrReceive (s : State) (p : Nat) (f : Frame) : State :=
  let k := (p - 24) / 2
  let own := s.pbi.pairMac.getD k 0
  let ok := fun (t : State) => t.incW (Reg.STN_SB_CNT_COUNT (p - 24) 0)
  if f.src = own then (ok s).incW (Reg.STN_SB_CNT_COUNT (p - 24) 6)
  else if linkLocal f.dst || isPdelay f.body then classify (ok s) p f false
  else match f.hsr with
  | some seq =>
    if dupSeen s (12 + k) f.src seq then (ok s).incW (Reg.STN_SB_CNT_COUNT (p - 24) 4)
    else
      let s1 := dupEnter (ok s) (12 + k) f.src seq
      if multicast f.dst then classify (queueForward s1 p f) p f false
      else if f.dst = own then classify s1 p f false
      else queueForward s1 p f
  | none => s.portCnt p 1 1

/-- A frame with a bad FCS on a ring port: cut-through has begun to forward it (R64, R350). -/
def hsrBad (s : State) (p : Nat) (f : Frame) : State :=
  let k := (p - 24) / 2
  let own := s.pbi.pairMac.getD k 0
  match f.hsr with
  | some seq =>
    if f.src = own || linkLocal f.dst || isPdelay f.body || f.dst = own || dupSeen s (12 + k) f.src seq then s else queueForward s p f
  | none => s

/-- FRAME_RECEIVED: acceptance (R119 to R121), redundancy, bridging, classification. A frame with a second tag is accepted and counts in
RX_OK (DESIGN CHOICE, log entry 63). -/
def frameReceived (s : State) (p : Nat) (f : Frame) : State :=
  if portRuns s p then
    let maxLen := if (prpPair s p).isSome then 1528 else 1522
    if 65536 < (s.port p).inUsed + f.len then s.portCnt p 2 2
    else if f.cut then s.portCnt p 1 1
    else if f.len < 64 || maxLen < f.len then s.portCnt p 1 1
    else if !f.fcsOk then (if isHsr s p then hsrBad (s.portCnt p 1 1) p f else bridge (s.portCnt p 1 1) p f)
    else if isHsr s p then hsrReceive s p f
    else
      let s1 := bridge (s.portCnt p 0 0) p f
      match prpPair s1 p with
      | some k => prpReceive s1 p k f
      | none => classify s1 p f false
  else s

/-! ### Forwarding and egress (R63, R64, R127, R128, R351) -/

/-- A forwarded frame at one egress port: its 32 KiB queue takes it whole or not at all; on a station port whose link is down it
is not sent and counts in TX_DOWN (R351). -/
def forwardTo (inPort : Nat) (f : Frame) (at' : Nat) (s : State) (q : Nat) : State :=
  if s.running && portEn s q && !s.linkUp q && decide (24 ≤ q) then s.incW (Reg.STN_SB_CNT_COUNT (q - 24) 10)
  else if !portRuns s q then s
  else if 32768 < s.egressLen q + f.len then s.portCnt q 7 8
  else
    let s1 := s.setPort q { s.port q with egress := insertEgress ⟨5, f.len, .fwd f (!f.fcsOk), f.hsr, inPort, at'⟩ (s.port q).egress }
    if 24 ≤ q then s1.incW (Reg.STN_SB_CNT_COUNT (q - 24) 7) else s1

/-- The ports a frame received on p is forwarded to: the rest of its bridge group, or the other ring port. -/
def forwardPorts (s : State) (p : Nat) : List Nat :=
  if 24 ≤ p then (if p % 2 = 0 then [p + 1] else [p - 1])
  else (List.range 24).filter (fun q => q ≠ p && groupOf s q = groupOf s p)

/-- FRAME_FORWARD: the oldest frame of the port that waits to be forwarded. -/
def frameForward (s : State) (p : Nat) : State :=
  let x := s.port p
  match x.fwd with
  | e :: rest => (forwardPorts s p).foldl (forwardTo p e.1 e.2) (s.setPort p { x with fwd := rest })
  | [] => s

/-- The correction of a forwarded Sync or Follow_Up at egress port q, in 2^-16 ns (R63), and whether the ingress port has a
meanPathDelay. One that has been measured stays valid until the next start (DESIGN CHOICE, log entry 51). -/
def transit (s : State) (i : TxItem) : Int × Bool :=
  let res := ((s.ltc : Int) - i.inLtc) * q16
  match (s.ptpPort i.inPort).delay with
  | some d => (res + d, true)
  | none => (res, false)

/-- A forwarded frame as it leaves port q. -/
def correctFrame (s : State) (q : Nat) (i : TxItem) (f : Frame) : State × Frame :=
  let t := transit s i
  let note := fun (x : State) => if t.2 then x else x.incW Reg.RUL_TC_CNT_NO_DELAY
  match f.body with
  | .ptp (.sync dom seq false org corr li acc) => (note s, { f with body := .ptp (.sync dom seq false org (corr + t.1) li acc) })
  | .ptp (.sync dom seq true _ _ _ _) =>
    let pp := s.ptpPort q
    (note (s.setPtpPort q { pp with resid := (dom, seq, t.1) :: pp.resid.filter (fun r => !(r.1 = dom && r.2.1 = seq)) }), f)
  | .ptp (.followUp dom seq org corr acc) =>
    let pp := s.ptpPort q
    match pp.resid.find? (fun r => r.1 = dom && r.2.1 = seq) with
    | some r =>
      (s.setPtpPort q { pp with resid := pp.resid.filter (fun r => !(r.1 = dom && r.2.1 = seq)) },
       { f with body := .ptp (.followUp dom seq org (corr + r.2.2) acc) })
    | none => (s, f)
  | _ => (s, f)

/-- What a frame's start on the wire does beyond occupying it (R62 to R64). -/
def startFrame (s : State) (p : Nat) (i : TxItem) : State × TxItem :=
  match i.body with
  | .fwd f bad =>
    if bad then (s.incW Reg.RUL_TC_CNT_BAD_FCS, i)
    else
      let r := correctFrame s p i f
      (r.1, { i with body := .fwd r.2 false })
  | .ptp (.pdelayReq _ seq) => (if i.inPort = p then pdelayReqSent s p seq else s, i)
  | .ptp (.pdelayResp dom seq two t2 _) => (s, { i with body := .ptp (.pdelayResp dom seq two t2 (((s.ltc : Int) - i.inLtc) * q16)) })
  | _ => (s, i)

/-- FRAME_TX_START (R128, R351): the first frame in class order starts once the wire is free; the line is busy for the frame,
its preamble and the gap, 20 octets, at 8 ns an octet. On a station port whose link is down it is not sent. -/
def frameTxStart (s : State) (p : Nat) : State :=
  let x := s.port p
  match x.egress with
  | i :: rest =>
    if !s.running || !portEn s p then s
    else if !s.linkUp p then
      (if 24 ≤ p then (s.setPort p { x with egress := rest }).incW (Reg.STN_SB_CNT_COUNT (p - 24) 10) else s)
    else if s.ltc < x.txFree then s
    else
      let r := startFrame s p i
      let s1 := r.1.setPort p { r.1.port p with egress := rest, tx := some r.2, txFree := s.ltc + (i.len + 20) * 8 }
      if 24 ≤ p then s1.incW (Reg.STN_SB_CNT_COUNT (p - 24) 9) else s1
  | [] => s

/-! ### Supervision (R126, R349) -/

/-- PRP_SUPERVISION_SEND: every 2 s on each port of a pair while SUP_TX is set, with one SeqNr. -/
def supervisionSend (s : State) (k : Nat) : State :=
  let x := s.pbi.pair.get k
  if s.running && (x.supAt = 0 || decide (x.supAt + 2000000000 ≤ s.ltc)) then
    let len := Config.frameOctets 2 []
    let s0 := { s with pbi := { s.pbi with pair := s.pbi.pair.set k { x with supAt := s.ltc } } }
    if k < 12 then
      if s.on (Reg.PBI_PB_CFG_PRP (2 * k)) && (s.on (Reg.PBI_PB_CFG_SUP_TX (2 * k)) || s.on (Reg.PBI_PB_CFG_SUP_TX (2 * k + 1))) then
        let t := takeSeq s0 k
        [2 * k, 2 * k + 1].foldl (fun u q =>
          if u.on (Reg.PBI_PB_CFG_SUP_TX q) && portEn u q then u.enqueue q ⟨4, len, .sup, some t.2, q, s.ltc⟩ else u) t.1
      else s
    else if s.on (Reg.STN_PAIR_CFG_SUP_TX (k - 12)) then sendPair s0 (k - 12) 4 len .sup
    else s
  else s

/-! ### SFP management (R122) -/

/-- SFP_XFER_START: a write of PBI_SFP_XFER; START is ignored while BUSY. -/
def sfpWrite (s : State) (v : Nat) : State :=
  let w := fun (x : Fld) => (x, v / 2 ^ x.lo)
  let s1 := s.setFs [w Reg.PBI_SFP_XFER_ADDR, w Reg.PBI_SFP_XFER_RD, w Reg.PBI_SFP_XFER_OFFSET, w Reg.PBI_SFP_XFER_DATA, w Reg.PBI_SFP_XFER_NOOFS]
  if v.testBit 24 && !s.on Reg.PBI_SFP_XFER_BUSY then s1.setB Reg.PBI_SFP_XFER_BUSY true else s1

/-- SFP_XFER_DONE: the transfer ends; a read that was acknowledged leaves its byte in DATA. -/
def sfpDone (s : State) (nack : Bool) (data : Byte) : State :=
  if s.on Reg.PBI_SFP_XFER_BUSY then
    let s1 := s.setFs [(Reg.PBI_SFP_XFER_BUSY, 0), (Reg.PBI_SFP_XFER_NACK, b2n nack)]
    if s.on Reg.PBI_SFP_XFER_RD && !nack then s1.setF Reg.PBI_SFP_XFER_DATA data.toNat else s1
  else s

/-! ### Starts (R352, R431) -/

/-- At a start trigger ports, queues and subscriptions stop and forget; link status is of the wire and stays. -/
def portsStop (s : State) : State :=
  { s with pbi := { s.pbi with port := [], pair := [], learnt := [], svq := [], gq := [], sc := [], gs := [], hostOvf := false, decoded := 0, gb := 0 },
           rul := { s.rul with ptpIn := [], ptp := [] } }

/-- Enabled stream contexts and subscriptions begin in WAITING (R137). -/
def portsStart (s : State) : State :=
  let s1 := (List.range 192).foldl (fun t c => if t.on (Reg.PBI_SC_CFG_EN c) then svWaiting t c else t) s
  (List.range 64).foldl (fun t g => if t.on (Reg.PBI_GS_CFG_EN g) then gsWaiting t g else t) s1

/-! ### Meanings -/

def execPortLinkDown (p : Fin 28) (l : LinkSignals) (s : State) : Host.Outcome State Fault Refusal := .next (portLinkDown s p l.los l.pcs l.an)

def execPortLinkUp (p : Fin 28) (gigabit : Bool) (s : State) : Host.Outcome State Fault Refusal := .next (portLinkUp s p gigabit)

def execFrameReceived (p : Fin 28) (f : Frame) (s : State) : Host.Outcome State Fault Refusal := .next (frameReceived s p f)

def execFrameForward (p : Fin 28) (s : State) : Host.Outcome State Fault Refusal := .next (frameForward s p)

def execFrameTxStart (p : Fin 28) (s : State) : Host.Outcome State Fault Refusal := .next (frameTxStart s p)

def execPrpSupervisionSend (pair : Fin 14) (s : State) : Host.Outcome State Fault Refusal := .next (supervisionSend s pair)

def execSfpXferStart (a : Access) (v : Word) (s : State) : Host.Outcome State Fault Refusal :=
  .next (gate s a Reg.PBI_SFP_XFER false (fun t => sfpWrite t v.toNat))

def execSfpXferDone (nack : Bool) (data : Byte) (s : State) : Host.Outcome State Fault Refusal := .next (sfpDone s nack data)

end Sys2Proof.Machine
end

