-- ==== Sys2Proof/Machine/Quill.lean ====
section
/-! DEFINITION. The Quill instructions (spec/09 R293 to R303, R547). A command of this family is the engine executing the
instruction at the running task's program counter; its 26 bits are those below the opcode. Where no task runs, or the word there
is another, nothing happens (log entry 5). -/

namespace Sys2Proof.Machine

/-! ### Fields (R293) -/

/-- Bits [lo + n - 1 : lo] of an instruction. -/
def bits (x : BitVec 26) (lo n : Nat) : Nat := x.toNat / 2 ^ lo % 2 ^ n

def fD (x : BitVec 26) : Nat := bits x 22 4
def fA (x : BitVec 26) : Nat := bits x 18 4
def fB (x : BitVec 26) : Nat := bits x 14 4
def fCond (x : BitVec 26) : Nat := bits x 11 3
def fImm (x : BitVec 26) : Nat := bits x 0 18
def fNeg (x : BitVec 26) : Bool := bits x 25 1 = 1
def fAddr (x : BitVec 26) : Nat := bits x 5 18
def fBit (x : BitVec 26) : Nat := bits x 0 5

/-- Fields marked "—" of each format are 0. -/
def okB (x : BitVec 26) : Bool := bits x 23 2 = 0
def okR (x : BitVec 26) : Bool := bits x 0 11 = 0
def okJ (x : BitVec 26) : Bool := bits x 18 8 = 0
def okT (x : BitVec 26) : Bool := bits x 12 4 = 0
def okC (x : BitVec 26) : Bool := bits x 18 4 = 0 && bits x 11 7 = 0
def okE (x : BitVec 26) : Bool := bits x 13 13 = 0
def okV (x : BitVec 26) : Bool := bits x 18 1 = 0 && bits x 8 10 = 0
def okNone (x : BitVec 26) : Bool := bits x 0 26 = 0

/-! ### Working registers (R293): W0 reads 0 and ignores writes -/

def QRun.rd (r : QRun) (i : Nat) : Word := if i = 0 then 0 else r.w.get i

def QRun.wr (r : QRun) (i : Nat) (v : Word) : QRun := if i = 0 then r else { r with w := r.w.set i v }

/-! ### Execution (R303) -/

/-- What an instruction stores into its data word: nothing, one bit, or the word. -/
inductive DataStore
  | none
  | bit (k : Nat) (b : Bool)
  | word (v : Word)

/-- The store into the data word at `a`. -/
def storeAt (s : State) (a : Nat) (d : DataStore) : State :=
  match d with
  | .none => s
  | .bit k b => s.stData a (BitVec.ofNat 32 (setBitOf (s.ldData a).toNat k b))
  | .word v => s.stData a v

/-- What an instruction does: goes on with the state, the task's registers and the next address; or faults, in a state that holds
what its code check has noted, and with the store that follows once the fault has been handled (R499). -/
inductive QStep
  | go (s : State) (r : QRun) (pc : Nat)
  | fault (s : State) (cause : Nat) (addr : Nat) (store : DataStore)

/-- A fault that stores nothing. -/
def qfault (s : State) (cause : Nat) : QStep := .fault s cause 0 .none

/-- The instruction `op`, `x` executes: it is the word at the running task's program counter; its legality, its cost and its own
faults are checked before it has any effect. -/
def qexec (s : State) (op : Nat) (x : BitVec 26) (legal : Bool) (cost : Nat) (act : State → Nat → QRun → QStep) : State :=
  match runner s with
  | none => s
  | some t =>
    let r := s.qrun t
    if codeWord s t r.pc ≠ some (BitVec.ofNat 32 (op * 2 ^ 26 + x.toNat)) then s
    else if !legal then taskFault s t 1 r.pc
    else if (s.qtask t).maxInsn < r.units + cost then taskFault s t 4 r.pc
    else match act s t r with
      | .fault s1 k a d => storeAt (taskFault s1 t k r.pc) a d
      | .go s1 r1 pc => arrive (s1.setQrun t { r1 with pc := pc, units := r.units + cost }) t pc

/-- An instruction that only changes the task's registers. -/
def qpure (s : State) (op : Nat) (x : BitVec 26) (legal : Bool) (cost : Nat) (f : State → QRun → QRun) : State :=
  qexec s op x legal cost (fun u _ r => .go u (f u r) (r.pc + 1))

/-- A jump to a target, which lies within the code (R303, cause 7). -/
def jumpTo (s : State) (t target : Nat) (r : QRun) : QStep :=
  if (codeWord s t target).isSome then .go s r target else qfault s 7

/-! ### Data (R293) -/

/-- An address lies in a window of the task. -/
def inWindow (s : State) (t a : Nat) : Bool :=
  let k := s.qtask t
  (k.dataLo ≤ a && a < k.dataHi) || (k.retLo ≤ a && a < k.retHi)

/-- An uncorrectable error in a retained variable sets it to its initial value (R305). -/
def retainError (s : State) (t a : Nat) : State :=
  match (ownRet (s.progOf t) [t]).find? (fun v => v.addr ≤ a && a < v.addr + v.words) with
  | some v => (initRet s v).log Ev.QIL_RETAIN_INIT noInst [.w 1]
  | none => (s.stData a 0).log Ev.QIL_RETAIN_INIT noInst [.w 1]

/-- An instruction that accesses the data word at `a`: within the task's windows (cause 2), its code checked as it is accessed
(R305, cause 5). `store`: what it writes, which is part of the 64-bit word and so is applied after the region's action (R499). -/
def dataAt (u : State) (t a : Nat) (c : Ecc) (store : DataStore) (act : State → QStep) : QStep :=
  if !inWindow u t a then qfault u 2
  else if !u.lost c then act (memNote u c)
  else if (u.qtask t).retLo ≤ a && a < (u.qtask t).retHi then act (retainError (memNote u c) t a)
  else .fault (memNote u c) 5 a store

/-- A bit instruction that reads its operand. -/
def bitOp (s : State) (op : Nat) (x : BitVec 26) (c : Ecc) (f : Bool → Bool → Bool) : State :=
  qexec s op x (okB x) 1 (fun u t r => dataAt u t (fAddr x) c .none (fun v =>
    .go v { r with lr := f r.lr ((v.ldData (fAddr x)).getLsbD (fBit x) != fNeg x) } (r.pc + 1)))

/-- A bit instruction that may write its bit: none keeps it. -/
def bitStore (s : State) (op : Nat) (x : BitVec 26) (c : Ecc) (f : Bool → Option Bool) : State :=
  qexec s op x (okB x) 1 (fun u t r =>
    let d := match f r.lr with | some b => DataStore.bit (fBit x) b | none => .none
    dataAt u t (fAddr x) c d (fun v => .go (storeAt v (fAddr x) d) r (r.pc + 1)))

/-- Effective address of LDW and STW. -/
def memAddr (r : QRun) (x : BitVec 26) : Nat := ((r.rd (fA x)).toNat + fImm x) % 2 ^ 18

/-- A memory instruction: what it stores and what its registers become, by the address. -/
def memOp (s : State) (op : Nat) (x : BitVec 26) (c : Ecc) (store : QRun → DataStore) (f : State → QRun → Nat → QRun) : State :=
  qexec s op x true 1 (fun u t r => dataAt u t (memAddr r x) c (store r) (fun v =>
    .go (storeAt v (memAddr r x) (store r)) (f v r (memAddr r x)) (r.pc + 1)))

/-! ### Arithmetic (R294, R295) -/

/-- A three-register integer operation. -/
def aluOp (s : State) (op cost : Nat) (x : BitVec 26) (f : Word → Word → Word) : State :=
  qpure s op x (okR x) cost (fun _ r => r.wr (fD x) (f (r.rd (fA x)) (r.rd (fB x))))

/-- An operation with an immediate. -/
def immOp (s : State) (op : Nat) (x : BitVec 26) (f : Word → Word) : State :=
  qpure s op x true 1 (fun _ r => r.wr (fD x) (f (r.rd (fA x))))

def w32 (n : Nat) : Word := BitVec.ofNat 32 n

/-- The sign-extended 18-bit immediate. -/
def imm18s (x : BitVec 26) : Word := BitVec.ofInt 32 (sext 18 (fImm x))

/-- A binary32 operation. -/
def fltOp (s : State) (op cost : Nat) (x : BitVec 26) (f : Nat → Nat → Nat) : State :=
  aluOp s op cost x (fun a b => w32 (f a.toNat b.toNat))

/-- FTOI (R295). -/
def ftoi (v : Nat) : Int :=
  match f32.toIntEven v with
  | some i => ssat 32 i
  | none => if f32.eqv v v then (if f32.lt v 0 then -2147483648 else 2147483647) else 0

/-- COND of CMP. -/
def intCond (k : Nat) (a b : Word) : Bool :=
  if k = 0 then a = b else if k = 1 then a ≠ b else if k = 2 then a.slt b else if k = 3 then a.sle b
  else if k = 4 then b.slt a else if k = 5 then b.sle a else if k = 6 then a.ult b else b.ule a

/-- COND of FCMP. -/
def fltCond (k : Nat) (a b : Nat) : Bool :=
  if k = 0 then f32.eqv a b else if k = 1 then !f32.eqv a b else if k = 2 then f32.lt a b else if k = 3 then f32.le a b
  else if k = 4 then f32.gt a b else f32.ge a b

/-! ### Slots (R296 to R301) -/

/-- The declaration of a slot for this task with one of these kinds (R296). -/
def ownSlot (t : Nat) (l : List QSlot) (i : Nat) (kinds : List Nat) : Option QSlot :=
  l.find? (fun d => d.slot = i && d.task = t && kinds.contains d.kind)

/-- One execution of a timer (R298); IN is LR, LR becomes Q. -/
def timerStep (kind : Nat) (x : QTm) (inp : Bool) (ptUs now : Nat) : QTm :=
  let a : QTm := { x with inm := if x.fresh then inp else x.inm, fresh := false, pt := ptUs }
  let b : QTm :=
    if kind = 1 then
      (if !inp then { a with run := false, q := false, et := 0 } else if !a.run && !a.q then { a with run := true, start := now } else a)
    else if kind = 2 then
      (if inp then { a with run := false, q := true, et := 0 } else if a.inm then { a with run := true, start := now } else a)
    else
      let p : QTm := if inp && !a.inm && !a.run then { a with run := true, q := true, start := now } else a
      if !inp && !p.run then { p with et := 0 } else p
  let c : QTm :=
    if b.run then
      let d : QTm := { b with et := min ((now - b.start) / 1000) 0xFFFFFFFF }
      if ptUs * 1000 ≤ now - b.start then { d with run := false, exp := b.start + ptUs * 1000, q := decide (kind = 1) } else d
    else b
  { c with inm := inp }

def timerOp (s : State) (op kind : Nat) (x : BitVec 26) : State :=
  qexec s op x (okT x) 2 (fun u t r =>
    match ownSlot t (u.progOf t).timers (bits x 0 12) [kind] with
    | some d =>
      let y := timerStep kind (u.qil.tm.get d.symId) r.lr (r.rd (fD x)).toNat r.rel
      .go (u.setQil { u.qil with tm := u.qil.tm.set d.symId y }) { r with lr := y.q } (r.pc + 1)
    | none => qfault u 6)

/-- What TET reads (R547). -/
def tetValue (y : QTm) (sel now : Nat) : Word :=
  if sel = 0 then w32 y.et
  else if sel = 1 then (if !y.run && y.start ≤ y.exp then w32 (y.et - (y.exp - y.start) / 1000) else 0)
  else BitVec.ofInt 32 (ssat 32 (((y.exp : Int) - (now : Int)) / 1000))

/-- A counter instruction on a slot of one of these kinds. -/
def counterOp (s : State) (op : Nat) (x : BitVec 26) (kinds : List Nat) (f : QCt → QRun → QCt × QRun) : State :=
  qexec s op x (okC x) 2 (fun u t r =>
    match ownSlot t (u.progOf t).counters (bits x 0 11) kinds with
    | some d =>
      let p := f (u.qil.ct.get d.symId) r
      .go (u.setQil { u.qil with ct := u.qil.ct.set d.symId p.1 }) p.2 (r.pc + 1)
    | none => qfault u 6)

/-- An edge instruction (R301). -/
def edgeOp (s : State) (op kind : Nat) (x : BitVec 26) (f : Bool → Bool → Bool) : State :=
  qexec s op x (okE x) 1 (fun u t r =>
    match ownSlot t (u.progOf t).edges (bits x 0 13) [kind] with
    | some d =>
      let y := u.qil.ed.get d.symId
      .go (u.setQil { u.qil with ed := u.qil.ed.set d.symId ⟨r.lr, false⟩ }) { r with lr := !y.fresh && f r.lr y.m } (r.pc + 1)
    | none => qfault u 6)

def pvOf (r : QRun) (x : BitVec 26) : Int := (r.rd (fD x)).toInt

/-! ### Events (R302) -/

/-- EMIT's record: USER flag, LTC, epoch and stamp of the release instant (R363, R548). -/
def emitRec (s : State) (t sev code : Nat) (r : QRun) (v : Nat) : State :=
  s.offer (mkRec ⟨0x300 + code, sev⟩ 16 r.relEpoch t r.rel r.relStamp [.w v])

/-! ### End of a run (R289) -/

/-- END: output image, forces, GOOSE; the task is IDLE. -/
def qend (s : State) (x : BitVec 26) : State :=
  match runner s with
  | none => s
  | some t =>
    let r := s.qrun t
    if codeWord s t r.pc ≠ some (BitVec.ofNat 32 (0x2F * 2 ^ 26 + x.toNat)) then s
    else if !okNone x then taskFault s t 1 r.pc
    else if (s.qtask t).maxInsn < r.units + 1 then taskFault s t 4 r.pc
    else
      let s1 := writeBack s (s.qtask t).outs (outWords s t)
      if qbWaits s s1 then s
      else
        let s2 := gsApplyPending (afterWrite s s1)
        let s3 := runEnds ((s2.incW (Reg.QIL_T_CNT_RUNS t)).setQrun t { r with units := r.units + 1 }) t
        resumeNext (s3.setTaskSt t 1)

/-! ### Meanings -/

def execNop (x : BitVec 26) (s : State) : Host.Outcome State Fault Refusal := .next (qpure s 0x00 x (okNone x) 1 (fun _ r => r))

def execLdb (b : BitInsn) (s : State) : Host.Outcome State Fault Refusal := .next (bitOp s 0x01 b.x b.c (fun _ v => v))

def execAndb (b : BitInsn) (s : State) : Host.Outcome State Fault Refusal := .next (bitOp s 0x02 b.x b.c (fun l v => l && v))

def execOrb (b : BitInsn) (s : State) : Host.Outcome State Fault Refusal := .next (bitOp s 0x03 b.x b.c (fun l v => l || v))

def execXorb (b : BitInsn) (s : State) : Host.Outcome State Fault Refusal := .next (bitOp s 0x04 b.x b.c (fun l v => l != v))

def execStb (b : BitInsn) (s : State) : Host.Outcome State Fault Refusal := .next (bitStore s 0x05 b.x b.c (fun l => some (l != fNeg b.x)))

def execSetb (b : BitInsn) (s : State) : Host.Outcome State Fault Refusal :=
  .next (bitStore s 0x06 b.x b.c (fun l => if l != fNeg b.x then some true else none))

def execRstb (b : BitInsn) (s : State) : Host.Outcome State Fault Refusal :=
  .next (bitStore s 0x07 b.x b.c (fun l => if l != fNeg b.x then some false else none))

def execNotl (x : BitVec 26) (s : State) : Host.Outcome State Fault Refusal :=
  .next (qpure s 0x08 x (okNone x) 1 (fun _ r => { r with lr := !r.lr }))

def execPushl (x : BitVec 26) (s : State) : Host.Outcome State Fault Refusal :=
  .next (qexec s 0x09 x (okNone x) 1 (fun u _ r => if 8 ≤ r.bits.length then qfault u 3 else .go u { r with bits := r.lr :: r.bits } (r.pc + 1)))

def execPopa (x : BitVec 26) (s : State) : Host.Outcome State Fault Refusal :=
  .next (qexec s 0x0A x (okNone x) 1 (fun u _ r => match r.bits with
    | b :: l => .go u { r with bits := l, lr := b && r.lr } (r.pc + 1)
    | [] => qfault u 3))

def execPopo (x : BitVec 26) (s : State) : Host.Outcome State Fault Refusal :=
  .next (qexec s 0x0B x (okNone x) 1 (fun u _ r => match r.bits with
    | b :: l => .go u { r with bits := l, lr := b || r.lr } (r.pc + 1)
    | [] => qfault u 3))

def execRtrg (x : BitVec 26) (s : State) : Host.Outcome State Fault Refusal := .next (edgeOp s 0x0C 7 x (fun l m => l && !m))

def execFtrg (x : BitVec 26) (s : State) : Host.Outcome State Fault Refusal := .next (edgeOp s 0x0D 8 x (fun l m => !l && m))

def execLrw (x : BitVec 26) (s : State) : Host.Outcome State Fault Refusal :=
  .next (qpure s 0x0E x (okR x) 1 (fun _ r => r.wr (fD x) (w32 (b2n r.lr))))

def execWlr (x : BitVec 26) (s : State) : Host.Outcome State Fault Refusal :=
  .next (qpure s 0x0F x (okR x) 1 (fun _ r => { r with lr := decide (r.rd (fA x) ≠ 0) }))

def execLdw (x : BitVec 26) (c : Ecc) (s : State) : Host.Outcome State Fault Refusal :=
  .next (memOp s 0x10 x c (fun _ => .none) (fun u r a => r.wr (fD x) (u.ldData a)))

def execStw (x : BitVec 26) (c : Ecc) (s : State) : Host.Outcome State Fault Refusal :=
  .next (memOp s 0x11 x c (fun r => .word (r.rd (fD x))) (fun _ r _ => r))

def execLdi (x : BitVec 26) (s : State) : Host.Outcome State Fault Refusal := .next (immOp s 0x12 x (fun _ => imm18s x))

def execLui (x : BitVec 26) (s : State) : Host.Outcome State Fault Refusal := .next (immOp s 0x13 x (fun _ => w32 (fImm x * 2 ^ 14)))

def execAdd (x : BitVec 26) (s : State) : Host.Outcome State Fault Refusal := .next (aluOp s 0x14 1 x (fun a b => a + b))

def execSub (x : BitVec 26) (s : State) : Host.Outcome State Fault Refusal := .next (aluOp s 0x15 1 x (fun a b => a - b))

def execMul (x : BitVec 26) (s : State) : Host.Outcome State Fault Refusal := .next (aluOp s 0x16 1 x (fun a b => a * b))

def execDivs (x : BitVec 26) (s : State) : Host.Outcome State Fault Refusal :=
  .next (aluOp s 0x17 4 x (fun a b => if b = 0 then 0 else a.sdiv b))

def execRems (x : BitVec 26) (s : State) : Host.Outcome State Fault Refusal :=
  .next (aluOp s 0x18 4 x (fun a b => if b = 0 then a else a.srem b))

def execAnd (x : BitVec 26) (s : State) : Host.Outcome State Fault Refusal := .next (aluOp s 0x19 1 x (fun a b => a &&& b))

def execOr (x : BitVec 26) (s : State) : Host.Outcome State Fault Refusal := .next (aluOp s 0x1A 1 x (fun a b => a ||| b))

def execXor (x : BitVec 26) (s : State) : Host.Outcome State Fault Refusal := .next (aluOp s 0x1B 1 x (fun a b => a ^^^ b))

def execShl (x : BitVec 26) (s : State) : Host.Outcome State Fault Refusal := .next (aluOp s 0x1C 1 x (fun a b => a <<< (b.toNat % 32)))

def execShr (x : BitVec 26) (s : State) : Host.Outcome State Fault Refusal := .next (aluOp s 0x1D 1 x (fun a b => a >>> (b.toNat % 32)))

def execAsr (x : BitVec 26) (s : State) : Host.Outcome State Fault Refusal := .next (aluOp s 0x1E 1 x (fun a b => a.sshiftRight (b.toNat % 32)))

def execAddi (x : BitVec 26) (s : State) : Host.Outcome State Fault Refusal := .next (immOp s 0x1F x (fun a => a + imm18s x))

def execAndi (x : BitVec 26) (s : State) : Host.Outcome State Fault Refusal := .next (immOp s 0x20 x (fun a => a &&& w32 (fImm x)))

def execOri (x : BitVec 26) (s : State) : Host.Outcome State Fault Refusal := .next (immOp s 0x21 x (fun a => a ||| w32 (fImm x)))

def execFadd (x : BitVec 26) (s : State) : Host.Outcome State Fault Refusal := .next (fltOp s 0x22 1 x fadd32)

def execFsub (x : BitVec 26) (s : State) : Host.Outcome State Fault Refusal := .next (fltOp s 0x23 1 x fsub32)

def execFmul (x : BitVec 26) (s : State) : Host.Outcome State Fault Refusal := .next (fltOp s 0x24 1 x fmul32)

def execFdiv (x : BitVec 26) (s : State) : Host.Outcome State Fault Refusal := .next (fltOp s 0x25 4 x fdiv32)

def execItof (x : BitVec 26) (s : State) : Host.Outcome State Fault Refusal := .next (aluOp s 0x26 1 x (fun a _ => w32 (f32.ofInt a.toInt)))

def execFtoi (x : BitVec 26) (s : State) : Host.Outcome State Fault Refusal := .next (aluOp s 0x27 1 x (fun a _ => BitVec.ofInt 32 (ftoi a.toNat)))

def execCmp (x : BitVec 26) (s : State) : Host.Outcome State Fault Refusal :=
  .next (qpure s 0x28 x (okR x) 1 (fun _ r => { r with lr := intCond (fCond x) (r.rd (fA x)) (r.rd (fB x)) }))

def execFcmp (x : BitVec 26) (s : State) : Host.Outcome State Fault Refusal :=
  .next (qpure s 0x29 x (okR x && decide (fCond x ≤ 5)) 1 (fun _ r => { r with lr := fltCond (fCond x) (r.rd (fA x)).toNat (r.rd (fB x)).toNat }))

def execJmp (x : BitVec 26) (s : State) : Host.Outcome State Fault Refusal := .next (qexec s 0x2A x (okJ x) 1 (fun u t r => jumpTo u t (fImm x) r))

def execJc (x : BitVec 26) (s : State) : Host.Outcome State Fault Refusal :=
  .next (qexec s 0x2B x (okJ x) 1 (fun u t r => if r.lr then jumpTo u t (fImm x) r else .go u r (r.pc + 1)))

def execJnc (x : BitVec 26) (s : State) : Host.Outcome State Fault Refusal :=
  .next (qexec s 0x2C x (okJ x) 1 (fun u t r => if r.lr then .go u r (r.pc + 1) else jumpTo u t (fImm x) r))

def execCall (x : BitVec 26) (s : State) : Host.Outcome State Fault Refusal :=
  .next (qexec s 0x2D x (okJ x) 2 (fun u t r =>
    if 16 ≤ r.calls.length then qfault u 3 else jumpTo u t (fImm x) { r with calls := (r.pc + 1) :: r.calls }))

def execRet (x : BitVec 26) (s : State) : Host.Outcome State Fault Refusal :=
  .next (qexec s 0x2E x (okNone x) 2 (fun u t r => match r.calls with
    | a :: l => jumpTo u t a { r with calls := l }
    | [] => qfault u 3))

def execEndRun (x : BitVec 26) (s : State) : Host.Outcome State Fault Refusal := .next (qend s x)

def execTon (x : BitVec 26) (s : State) : Host.Outcome State Fault Refusal := .next (timerOp s 0x30 1 x)

def execTof (x : BitVec 26) (s : State) : Host.Outcome State Fault Refusal := .next (timerOp s 0x31 2 x)

def execTp (x : BitVec 26) (s : State) : Host.Outcome State Fault Refusal := .next (timerOp s 0x32 3 x)

def execTet (x : BitVec 26) (s : State) : Host.Outcome State Fault Refusal :=
  .next (qexec s 0x33 x (okT x && decide (bits x 16 2 ≤ 2)) 2 (fun u t r =>
    match ownSlot t (u.progOf t).timers (bits x 0 12) [1, 2, 3] with
    | some d => .go u (r.wr (fA x) (tetValue (u.qil.tm.get d.symId) (bits x 16 2) r.rel)) (r.pc + 1)
    | none => qfault u 6))

def execCtu (x : BitVec 26) (s : State) : Host.Outcome State Fault Refusal :=
  .next (counterOp s 0x34 x [4, 6] (fun y r =>
    let up := r.lr && !y.cum && !y.freshU && decide (y.cv < 2147483647)
    ({ y with cv := if up then y.cv + 1 else y.cv, cum := r.lr, freshU := false }, r)))

def execCtd (x : BitVec 26) (s : State) : Host.Outcome State Fault Refusal :=
  .next (counterOp s 0x35 x [5, 6] (fun y r =>
    let down := r.lr && !y.cdm && !y.freshD && decide (-2147483648 < y.cv)
    ({ y with cv := if down then y.cv - 1 else y.cv, cdm := r.lr, freshD := false }, r)))

def execCrst (x : BitVec 26) (s : State) : Host.Outcome State Fault Refusal :=
  .next (counterOp s 0x36 x [4, 5, 6] (fun y r => ({ y with cv := if r.lr then 0 else y.cv }, r)))

def execCld (x : BitVec 26) (s : State) : Host.Outcome State Fault Refusal :=
  .next (counterOp s 0x37 x [4, 5, 6] (fun y r => ({ y with cv := if r.lr then pvOf r x else y.cv }, r)))

def execCqu (x : BitVec 26) (s : State) : Host.Outcome State Fault Refusal :=
  .next (counterOp s 0x38 x [4, 5, 6] (fun y r => (y, { r with lr := decide (pvOf r x ≤ y.cv) })))

def execCqd (x : BitVec 26) (s : State) : Host.Outcome State Fault Refusal :=
  .next (counterOp s 0x39 x [4, 5, 6] (fun y r => (y, { r with lr := decide (y.cv ≤ 0) })))

def execCcv (x : BitVec 26) (s : State) : Host.Outcome State Fault Refusal :=
  .next (counterOp s 0x3A x [4, 5, 6] (fun y r => (y, r.wr (fD x) (BitVec.ofInt 32 y.cv))))

def execEmit (x : BitVec 26) (s : State) : Host.Outcome State Fault Refusal :=
  .next (qexec s 0x3B x (okV x && decide (bits x 19 3 ≤ 5)) 4 (fun u t r =>
    .go (if r.lr then emitRec u t (bits x 19 3) (bits x 0 8) r (r.rd (fD x)).toNat else u) r (r.pc + 1)))

def execVtrg (x : BitVec 26) (s : State) : Host.Outcome State Fault Refusal :=
  .next (qexec s 0x3C x (okV x) 2 (fun u t r => .go (if r.lr then velTrigQuill u (bits x 0 4) t else u) r (r.pc + 1)))

end Sys2Proof.Machine
end

