-- ==== Sys2Proof/Machine/Station.lean ====
section
/-! DEFINITION. GOOSE publication (spec/10 R352 to R357). -/

namespace Sys2Proof.Machine

namespace State

def gp (s : State) (g : Nat) : GpState := s.duc.gp.get g

def setGp (s : State) (g : Nat) (x : GpState) : State := { s with duc := { s.duc with gp := s.duc.gp.set g x } }

end State

/-- Interval before repetition k, in ms: min(TMIN * 2^(k - 1), TMAX) (R355). -/
def gpInterval (s : State) (g k : Nat) : Nat := min (s.f (Reg.STN_GP_TIME_TMIN g) * 2 ^ min (k - 1) 16) (s.f (Reg.STN_GP_TIME_TMAX g))

/-- The number after `n`: after 0xFFFFFFFF it is 1 in Edition 2.1 and 0 in Edition 1 (R355). -/
def gpNext (s : State) (g n : Nat) : Nat := if n + 1 < 2 ^ 32 then n + 1 else if s.on (Reg.STN_GP_CFG_EDITION g) then 1 else 0

/-- The quality octet of t (R356). The places of its bits are those of the UtcTime of IEC 61850-8-1 (PRESUMED, log entry 25). -/
def utcQuality (taiUtc tq : Nat) : Nat :=
  (if taiUtc = 0 then 0 else 128) + (if tq = 3 then 32 else 0) + (if tq = 0 then 23 else if tq = 1 then 20 else if tq = 2 then 14 else 31)

/-- The word that member m publishes (R357). -/
def gpMember (s : State) (g : Nat) (x : GpState) (m : Nat) : Nat :=
  let k := s.f (Reg.STN_GP_MEM_INDEX g m)
  let kind := s.f (Reg.STN_GP_MEM_KIND g m)
  if kind = 0 then b2n (x.bits.testBit k)
  else if kind = 1 then
    let v := (x.pvSent.get k).toNat
    let ty := s.f (Reg.STN_GP_MEM_TYPE g m)
    if ty = 0 then v % 2 else if ty = 4 then v % 2 ^ (s.f (Reg.STN_GP_MEM_NBITS g m) + 1) else v
  else if x.test then 2048 else 0

/-- The message with those numbers; its timeAllowedToLive covers TALMULT times the interval before repetition `k` (R355). -/
def gpFrame (s : State) (g st sq k : Nat) (x : GpState) : GooseTx :=
  { gp := g, hdr := s.duc.gpDecls.getD g default, edition2 := s.on (Reg.STN_GP_CFG_EDITION g), ndsCom := false, sim := false, stNum := st, sqNum := sq, tal := s.f (Reg.STN_GP_CFG_TALMULT g) * gpInterval s g k, test := x.test,
    tSec := x.ns / 1000000000 - s.f Reg.RUL_LEG_CFG_TAI_UTC, tNs := x.ns % 1000000000,
    tQual := utcQuality (s.f Reg.RUL_LEG_CFG_TAI_UTC) x.tq,
    members := (List.range (s.f (Reg.STN_GP_CFG_NMEMB g))).map (gpMember s g x) }

/-- A message goes out on the publication's pairs, and repetition `k` is due after its interval. -/
def gpSend (s : State) (g prio st sq k : Nat) (x : GpState) : State :=
  let s1 := (s.wr (Reg.STN_GP_SQNUM g) sq).wr (Reg.STN_GP_STNUM g) st
  let s2 := (s1.setB (Reg.STN_GP_STAT_TEST g) x.test).setGp g { x with next := s.ltc + gpInterval s g k * 1000000, rep := k }
  sendPairs s2 (s.f (Reg.STN_GP_CFG_PAIRS g)) prio (gpOctets s g) (.goose (gpFrame s g st sq k x))

/-- A new state: stNum goes up and sqNum is 0 (R355). -/
def gpNewState (s : State) (g : Nat) (x : GpState) : State :=
  gpSend (s.incW (Reg.STN_GP_STAT_STATES g)) g 0 (gpNext s g (s.rd (Reg.STN_GP_STNUM g))) 0 1 x

/-- The state that a publication begins with (R355): the sources and publication values as they stand. -/
def gpBegin (s : State) (g : Nat) : State :=
  let img := (gpPvs s g).foldl (fun (t : Tab Word) k => t.set k (s.qil.pv.get k)) ([] : Tab Word)
  let x : GpState := { bits := (s.stk.pub.get g).img, test := pubTest s g, ns := s.dtcNs, tq := s.tq, pv := none, pvImg := img,
                       pvDirty := [], pvHeld := none, pvSent := img, next := 0, rep := 1, live := true }
  gpNewState (s.wr (Reg.STN_GP_STNUM g) 0) g x

/-- Every enabled publication begins on entry into IN_SERVICE or TEST (R355). -/
def gpStart (s : State) : State := (List.range 32).foldl (fun t g => if t.on (Reg.STN_GP_CFG_EN g) then gpBegin t g else t) s

/-- A committed epoch reaches a publication at the next frame formed (R440). -/
def gpCommit (s : State) (g : Nat) : State :=
  let s1 := takeCommit (takeCommit s (Reg.STN_GP_CFG g) 0x20) (Reg.STN_GP_MEM g 0) 0x100
  if s1.on (Reg.STN_GP_CFG_EN g) then s1 else s1.setGp g { s1.gp g with live := false }

/-- Publication runs in IN_SERVICE and TEST (R352). -/
def gpRuns (s : State) (g : Nat) : Bool := s.running && (s.gp g).live

/-- The waiting change of publication values becomes the state in force; values held back follow (R354). -/
def gpTakePv (s : State) (g ns tq : Nat) : State :=
  let x := s.gp g
  pvNoteAt (gpNewState s g { x with pvSent := x.pvImg, pvDirty := [], pvHeld := none, pv := none, ns := ns, tq := tq }) g
    (x.pvHeld.getD (s.dtcNs, s.tq))

/-- The oldest request of Stroke becomes the state in force; its credit is free (R21, R354). -/
def gpTakeReq (s : State) (g : Nat) (r : PubReq) : State :=
  let s1 := { s with stk := { s.stk with pubOut := s.stk.pubOut.set g ((s.stk.pubOut.get g).drop 1) } }
  gpNewState s1 g { s1.gp g with bits := r.bits, test := r.test, ns := r.ns, tq := r.tq }

/-- GOOSE_NEW_STATE: the older of the oldest request and the waiting write-back forms exactly one new state (R354). -/
def gooseNewState (s0 : State) (g : Nat) : State :=
  let asked := ((s0.stk.pubOut.get g).head?.isSome || (s0.gp g).pv.isSome) && gpRuns s0 g
  let s := if asked then gpCommit s0 g else s0
  if asked && gpRuns s g then
    match (s.stk.pubOut.get g).head?, (s.gp g).pv with
    | some r, some p => if r.ns ≤ p.1 then gpTakeReq s g r else gpTakePv s g p.1 p.2
    | some r, none => gpTakeReq s g r
    | none, some p => gpTakePv s g p.1 p.2
    | none, none => s
  else s

/-- GOOSE_REPETITION: the repetition that has fallen due, with the next sqNum (R355). -/
def gooseRepetition (s0 : State) (g : Nat) : State :=
  let due := gpRuns s0 g && decide ((s0.gp g).next ≤ s0.ltc)
  let s := if due then gpCommit s0 g else s0
  if due && gpRuns s g then
    gpSend s g 2 (s.rd (Reg.STN_GP_STNUM g)) (gpNext s g (s.rd (Reg.STN_GP_SQNUM g))) ((s.gp g).rep + 1) (s.gp g)
  else s

/-! ### Meanings -/

def execGooseNewState (gp : Fin 32) (s : State) : Host.Outcome State Fault Refusal := .next (gooseNewState s gp)

def execGooseRepetition (gp : Fin 32) (s : State) : Host.Outcome State Fault Refusal := .next (gooseRepetition s gp)

end Sys2Proof.Machine
end

