-- ==== Sys2Proof/Machine/Start.lean ====
section
/-! DEFINITION. Starts (spec/13 R418 to R436, R443): triggers, what a start keeps, the load of a Folio, cold and warm attempts.
One command of the table runs a whole attempt (log entry 45). -/

namespace Sys2Proof.Machine

/-! ### What a start keeps (R15, R427) -/

/-- Bits of a register that its start keeps: fused values, the always-on domain, levels of wires, and what the register tables
keep through a warm start. A reload of the Folio follows for all configuration but that of RUL and AFE (log entry 46). -/
def keepMask (warm : Bool) (a : Nat) : Nat :=
  let all := 0xFFFFFFFF
  let blk := a / 0x10000
  let row := fun (_ : Unit) => (findRow a).elim 0 (·.loaded)
  if blk = 0 then
    if a = Reg.SYS_ID || a = Reg.SYS_UID_LO || a = Reg.SYS_UID_HI || a = Reg.SYS_START || a = Reg.SYS_EPOCH then all
    else if a = Reg.SYS_STATE then 7
    else if a = Reg.SYS_HEALTH then (if warm then all else all - 2)
    else if a = Reg.SYS_FLASH_CTRL then 0x38
    else if a = Reg.SYS_RAILS then 0xFFFFFF
    else 0
  else if blk = 1 then (if warm then all else 0)
  else if blk = 2 then (if warm then row () else 0)
  else if blk = 4 && a < 0x40600 && a % 0x40 = 4 then 0xF
  else if blk = 0xF && 0xF0100 ≤ a && a < 0xF0200 && a % 0x40 = 4 then 0xF
  else if blk = 0xC && 0xC1000 ≤ a && a < 0xC1800 && a % 0x80 = 8 then 0x20
  else if blk = 0x10 then (if warm && a ≠ 0x100004 && !(0x101000 ≤ a && a < 0x102000) then all else 0)
  else if a = Reg.HST_STAT then 0x3F
  else if a = Reg.SEA_STAT then 0x3FF
  else if a = Reg.SEA_ROMVER || (Reg.SEA_OWN_HASH 0 0 ≤ a && a ≤ Reg.SEA_OWN_HASH 3 7) then all
  else if a = Reg.MEM_STAT then 0x7E000
  else if Reg.MEM_FUSE 0 ≤ a && a ≤ Reg.MEM_FUSE 31 then all
  else if a = Reg.DBG_BIST || a = Reg.DBG_BIST_TIME || a = Reg.DBG_TRAIN then all
  else 0

/-- The register file after a start has reset it. -/
def regsAfter (warm : Bool) (s : State) : Tab Word :=
  s.regs.foldl (fun (t : Tab Word) (p : Nat × Word) =>
    let m := BitVec.ofNat 32 (keepMask warm p.1)
    if m = 0 then t else t.set p.1 ((t.get p.1 &&& ~~~m) ||| (p.2 &&& m))) resetRegs

/-- The host bulk region of the SPT-8120 is half as large (R491), and begins where its smaller regions end (log entry 4). -/
def bulkSize (s : State) : State := if s.is8120 then (s.wr Reg.HST_BULKSIZE 33554432).wr Reg.HST_BULKBASE 0x3E000000 else s

/-- The host interfaces after a start: every queue and nonce is gone (R427); bulk memory stays in self-refresh. -/
def hstAfter (warm : Bool) (h : Hst) : Hst :=
  { (default : Hst) with perstN := h.perstN, msix := h.msix, cplValue := h.cplValue, ep := h.ep, dram := if warm then h.dram else [] }

/-- The clock of a cold start (R53). -/
def coldClock : Clock := default

/-- What a warm start keeps of Quill: the retain region with its directory, and the counters, of which those declared RETAIN keep CV
(R317). No program is loaded and no force stands until the Folio's program is (R286, R315). -/
def qilAfter (warm : Bool) (q : Qil) : Qil := if warm then { (default : Qil) with data := q.data, retDir := q.retDir, ct := q.ct } else default

/-- What both starts initialise alike. -/
def unitsReset (warm : Bool) (s : State) : State :=
  let y := s.sys
  { s with regs := regsAfter warm s, hst := hstAfter warm s.hst, qil := qilAfter warm s.qil,
           pbi := { (default : Pbi) with port := s.pbi.port }, afe := { (default : Afe) with stopped := s.afe.stopped },
           nib := { (default : Nib) with nc := s.nib.nc }, duc := { s.duc with gp := [], hash := [], fed := [] },
           mem := { (default : Mem) with factory := s.mem.factory, fuseMap := s.mem.fuseMap, errors := s.mem.errors },
           sea := { (default : Sea) with sealedHash := s.sea.sealedHash },
           sys := { y with modePend := [], staged := [], committing := [], commit := none, startDue := none, svcAt := none, testEnd := 0,
                           creds := [], funcHa := [] } }

/-- A cold attempt begins (R53, R372, R387, R430): LTC restarts, the log and the record area are empty; what the log still held
counts as lost, with what this start has lost before. -/
def coldReset (s : State) : State :=
  let n := s.f Reg.SCR_REJ_LOST_START + s.scr.offers.length + s.scr.intake.length + s.scr.holding.length
  let loss := s.scr.lossPend || decide (n ≠ 0)
  let s1 := unitsReset false { s with sys := { s.sys with trigAt := s.sys.trigAt - s.ltc },
                                      pkg := { s.pkg with goodAt := s.pkg.goodAt.map (· - (s.ltc : Int)), anaAt := s.pkg.anaAt.map (· - (s.ltc : Int)),
                                                          vcoreAt := s.pkg.vcoreAt.map (· - (s.ltc : Int)) },
                                      dbg := { s.dbg with checkAt := 0 } }
  let s2 : State := { s1 with rul := { (default : Rul) with clk := coldClock }, scr := { (default : Scr) with lossPend := loss },
                                 mem := { s1.mem with factory := [] }, sys := { s1.sys with brown := false } }
  bulkSize (velCold (fioShift (s2.incS Reg.SCR_REJ_LOST_START n) s.ltc))

/-! ### Loading (R15, R426) -/

/-- A function or instance of R469 starts host-assisted. -/
def startsHa (s : State) (fn inst : Nat) : Bool := s.sys.funcHa.any (fun p => p.1 = fn && p.2 = inst)

/-- Entry `k` of a list under key `k`. -/
def tabOf {α : Type} [Inhabited α] [DecidableEq α] (l : List α) : Tab α := l.zipIdx.foldl (fun (t : Tab α) (p : α × Nat) => t.set p.2 p.1) []

/-- The content of a Folio becomes the configuration (R420). A warm start keeps the registers of RUL and AFE. -/
def loadContent (warm : Bool) (s : State) (c : FolioContent) : State :=
  let words := c.regs.filter (fun p => !(warm && (p.1 / 0x10000 = 1 || p.1 / 0x10000 = 2)))
  let s1 := loadRegs s words
  let s2 : State := { s1 with
    nib := { s1.nib with live := c.nib.foldl (fun (t : Tab Nat) (p : Nat × Word) => t.set p.1 p.2.toNat) [], ctxHa := c.ctxHa },
    pbi := { s1.pbi with svIds := c.svIds, gsDecls := c.gsDecls, gbits := c.gbits, pairMac := c.pairMac, expect := c.expect },
    vel := { s1.vel with tabs := tabOf c.velTabs }, duc := { s1.duc with hash := c.linkHash, fed := c.linkFed, gpDecls := c.gpDecls, spDecls := c.spDecls },
    qil := { s1.qil with mapHash := c.quill.mapHash }, sys := { s1.sys with funcHa := c.funcHa } }
  let s3 := (List.range 192).foldl (fun t n => t.setB (Reg.PBI_SC_CFG_HA n) (startsHa t 1 n)) s2
  let s4 := (List.range 64).foldl (fun t n => t.setB (Reg.PBI_GS_CFG_HA n) (startsHa t 2 n)) s3
  let s5 := if warm then s4 else (List.range 2).foldl (fun t d => t.setB (Reg.RUL_DOM_CFG_HA d) (startsHa t 3 d)) s4
  { s5 with hst := { s5.hst with haExport := startsHa s5 6 0, haAttest := startsHa s5 7 0, haField := startsHa s5 8 0 } }

/-! ### Load failures (R419 to R423) -/

/-- The content names a word other than 0 among the `n` words or bytes of an object whose keys begin at `lo`: the object is looked at
though it is not enabled (DEDUCED, log entry 44). -/
def contentNames (c : FolioContent) (lo n : Nat) : Bool :=
  if 16777216 ≤ lo then c.nib.any (fun p => decide (lo ≤ p.1 + 16777216) && decide (p.1 + 16777216 < lo + n) && p.2 ≠ 0)
  else c.regs.any (fun p => decide (lo ≤ p.1) && decide (p.1 < lo + n) && p.2 ≠ 0)

/-- The content, on a register file as a cold start resets it, breaks a rule that fails a load, or holds a field outside its range. -/
def contentFails (s : State) (img : FolioImage) : Bool :=
  !credsInRange img || !tablesInRange img.content ||
    (failedCheck (loadContent false (unitsReset false s) img.content) (contentNames img.content)).isSome

/-- Cause 7: the owner slot is unwritten, or OWNERPK is not the key whose hash it holds (R421). -/
def ownerSlotFails (s : State) (img : FolioImage) : Bool :=
  !slotWritten s (folioKeyIdx img) || decide (folioHash img (folioOwnerPk img) ≠ slotHash s (folioKeyIdx img))

/-- Cause 9: vendor root revoked, VENDORPK not the key of its anchor, or the layout of the vendor segment wrong (R422). -/
def vendorFails (s : State) (img : FolioImage) : Bool :=
  (s.f Reg.SEA_STAT_VREV).testBit (vendorKey img) || decide (folioHash img (vendorPkOf img) ≠ s.sys.anchors.get (vendorKey img)) ||
    !vendorLayoutOk img

/-- CAUSE of R423 of an image that has been read: the first failure found, 0 for none. `skip`: the sealed hash matches, so no signature
is verified (R427). A verification that meets an uncorrectable word twice fails (R499). -/
def imageCause (s : State) (f : LoadFacts) (img : FolioImage) (skip : Bool) : Nat :=
  let head := headCause (s.f Reg.SYS_ID_VARIANT) img
  if head ≠ 0 then head
  else if !skip && ownerSlotFails s img then 7
  else if !skip && (decide (2 ≤ f.ownerUe.length) || !ownerSigned img) then 8
  else if !skip && vendorFails s img then 9
  else if !skip && (decide (2 ≤ f.vendorUe.length) || !vendorSigned img) then 10
  else if contentFails s img then 11
  else 0

/-- The load of a bank (R418, R423): an erased bank, or one that cannot be read, has no MAGIC. -/
def loadCause (s : State) (f : LoadFacts) (bank : Nat) (skip : FolioImage → Bool) : Except Nat FolioImage :=
  match s.sys.nor.get bank, f.readOk with
  | some img, true => if imageCause s f img (skip img) = 0 then .ok img else .error (imageCause s f img (skip img))
  | some _, false => .error 1
  | none, _ => .error 1

/-- The words that the verifications of a start have met are counted and recorded (R499); `cause`: what ended the load, 0 for
none, or 7 where no signature was verified. -/
def noteLoadUe (s : State) (f : LoadFacts) (cause : Nat) : State :=
  let note := fun (t : State) (l : List MemLoc) => (l.take 2).foldl memUe t
  let s1 := if cause = 0 || 8 ≤ cause then note s f.ownerUe else s
  if cause = 0 || 10 ≤ cause then note s1 f.vendorUe else s1

/-- The loaded image as the Seal unit and SYS show it (R419, R426, R483). -/
def noteImage (s : State) (img : FolioImage) : State :=
  let s1 := (s.wr Reg.SYS_FOLIO_ID (folioId img)).wr Reg.SYS_EPOCH (folioEpoch0 img)
  let s2 := s1.setSys { s1.sys with creds := folioCreds img }
  s2.setSea { s2.sea with sealedHash := folioHead img, keyIdx := folioKeyIdx img, vkey := vendorKey img, fwVer := vendorFwVer img,
                          fwHash := (segOf img 10).hash, folioLoaded := true, ownerPk := folioOwnerPk img, vendorPk := vendorPkOf img }

/-! ### Units at a start (R426 step 8, R427 step 5) -/

/-- A context takes the state of its SVC field (R157); host-assisted at its first evaluation. `kept`: its integrators (R165, R200). -/
def startContext (kept : Nat → Tab Int) (s : State) (c : Nat) : State :=
  if ncType s c = 0 then s
  else
    let v := ncSvcField s c % 3
    let s1 := s.setNc c { (default : NcState) with svc := v, est := kept c }
    let s2 := (noteCtrl s1 c).setB (Reg.NIB_NC_CTRL_FILLING c) (decide (ncClass s c ≠ 3))
    if v = 1 && s.nib.ctxHa.contains c then s2.setSys { s2.sys with modePend := s2.sys.modePend ++ [⟨4, c, true, 16, noHead⟩] } else s2

/-- The stored integrators H that a warm start keeps (R200), by slot. -/
def keptEst (old : State) (on : Bool) (s : State) (c : Nat) : Tab Int :=
  if on && [1, 2, 3, 4, 5, 9].contains (ncType s c) then (old.nc c).est.filter (fun p => p.1 = 2 || p.1 = 18 || p.1 = 34) else []

def startContexts (s : State) (kept : State → Nat → Tab Int) : State :=
  let k := kept s
  (List.range (contexts s)).foldl (startContext k) { s with nib := { s.nib with nc := [] } }

/-- The domains of a cold start: the preferred one is selected, a configured one listens (R68, R70). -/
def startDomains (s : State) : State :=
  let s1 := s.setFs [(Reg.RUL_TQ_SEL, s.f Reg.RUL_CTRL_PREF), (Reg.RUL_TQ_REF, s.f Reg.RUL_CTRL_REF_SEL)]
  (List.range 2).foldl sourceChanged s1

/-- Units initialised from the Folio, up to the entry into IN_SERVICE. -/
def startUnits (warm : Bool) (s : State) (img : FolioImage) (kept : State → Nat → Tab Int) : State :=
  let s1 := noteImage (loadContent warm s img.content) img
  let s2 := startContexts (strokeStart s1) kept
  let s3 := if warm then quillWarm s2 img.content.quill else quillCold s2 img.content.quill
  linksFollow (portsStart (linksStart (if warm then s3 else startDomains s3)))

/-- IN_SERVICE is entered: tasks and publications begin, the front end converts, the field side is configured. -/
def enterService (s : State) : State :=
  let s1 := enterState s 3
  let s2 := gpStart (quillEnter s1 (startsHa s1 5))
  fcShowAll (fioResume (fioShowGroups (afeStart s2 true))) (List.range 32)

/-! ### Outcomes (R428 to R431, R443, R444) -/

/-- Committed settings did not outlive the start (R443). -/
def liveLost (s : State) (epoch : Nat) : State :=
  if s.sys.committed then
    let s1 := (s.setSys { s.sys with committed := false }).setB Reg.SYS_START_LIVE_LOST true
    (s1.health Reg.SYS_HEALTH_LIVE_LOST).log Ev.LIVE_SETTINGS_LOST noInst [.w epoch]
  else s.setB Reg.SYS_START_LIVE_LOST false

/-- Failed attempts are logged once the log is available (R430), and the forced cold start (R428). -/
def logFails (s : State) : State :=
  let s1 := if s.f Reg.SYS_START_TYPE = 4 then s.log Ev.WARM_FORCED_COLD noInst [.w 4] else s
  let s2 := s1.sys.fails.foldl (fun t p => t.log Ev.FOLIO_LOAD_FAIL noInst [.w p.1, .w p.2.1, .w p.2.2]) s1
  s2.setSys { s2.sys with fails := [] }

/-- The bank of the present attempt: A, A, B, B or B, B, A, A (R429). -/
def attemptBank (s : State) : Nat := if decide (s.sys.attempt < 2) = s.sys.bFirst then 1 else 0

/-- SERVICE_HOLD (R429, R433). -/
def serviceHold (s : State) : State :=
  let epoch := s.rd Reg.SYS_EPOCH
  let s1 := enterState ((s.wr Reg.SYS_FOLIO_ID 0).wr Reg.SYS_EPOCH 0) 5
  liveLost ((logFails s1).log Ev.SERVICE_HOLD_ENTERED) epoch

/-- FAULT_SAFE, with the step that failed (R431, R434). -/
def faultSafe (s : State) (step : Nat) : State := (logFails (enterState s 6)).log Ev.FAULT_SAFE_ENTERED noInst [.w step]

/-- The cold attempt has failed (R429): the next one follows, after the fourth SERVICE_HOLD. -/
def coldFail (s : State) (cause : Nat) : State :=
  let y := s.sys
  let s1 := (s.incS Reg.SYS_START_CFAIL).setF Reg.SYS_START_CAUSE cause
  let s2 := s1.setSys { s1.sys with fails := y.fails ++ [(y.attempt + 1, attemptBank s, cause)], attempt := y.attempt + 1 }
  if 3 ≤ y.attempt then serviceHold s2 else s2

/-- IN_SERVICE is reached by a cold attempt or a warm start. -/
def reached (warm : Bool) (s : State) (epoch : Nat) : State :=
  let s1 := s.setF Reg.SYS_START_CFAIL 0
  let s2 := enterService s1
  let s3 := logFails (s2.setSys { s2.sys with svcAt := some (s2.ltc, warm) })
  let s4 := if !warm && s3.on Reg.SYS_HEALTH_FALLBACK then s3.log Ev.BANK_FALLBACK noInst [.w (s3.f Reg.SYS_START_BANK)] else s3
  (liveLost s4 epoch).log Ev.START_DONE noInst
    [.w (s4.f Reg.SYS_START_TYPE), .w (s4.f Reg.SYS_START_BANK), .q ((s4.ltc : Int) - s4.sys.trigAt).toNat]

/-! ### Attempts (R426, R427) -/

/-- What the fuse load of step 1 leaves (R426): the factory repair map. -/
def coldFused (s : State) : State := s.setMem { s.mem with factory := s.mem.fuseMap }

/-- What the self-test of step 3 leaves (R426, R531). -/
def coldTested (s : State) (f : ColdFacts) : State :=
  (s.setMem { s.mem with factory := f.repairs.foldl (fun (t : Tab Nat) (p : Nat × Nat) => t.upd p.1 (fun m => m ||| 2 ^ p.2)) s.mem.factory }).setFs
    [(Reg.DBG_BIST_DONE, 1), (Reg.DBG_BIST_PASS, b2n f.bistOk), (Reg.DBG_BIST_REPAIRED, min f.repairs.length 768),
     (Reg.DBG_BIST_FAILBANK, if f.bistOk then 0 else f.failBank), (Reg.DBG_BIST_TIME_BIST, f.bistMs)]

/-- What the training of step 4 leaves. -/
def coldTrained (s : State) (f : ColdFacts) : State :=
  s.setFs [(Reg.DBG_TRAIN_OK, b2n f.trainOk), (Reg.DBG_TRAIN_FAILSTEP, if f.trainOk then 0 else f.failStep), (Reg.DBG_BIST_TIME_TRAIN, f.trainMs)]

/-- Steps 7 and 8 of a cold attempt, with the image that steps 5 and 6 have verified. -/
def coldUnits (s : State) (f : ColdFacts) (bank : Nat) (img : FolioImage) : State :=
  if !f.dramOk then faultSafe s 7
  else if !f.unitsOk then faultSafe s 8
  else
    let epoch := s.rd Reg.SYS_EPOCH
    let s1 := startUnits false s img (fun _ _ => [])
    reached false ((s1.setF Reg.SYS_START_BANK bank).setB Reg.SYS_HEALTH_FALLBACK (decide (2 ≤ s.sys.attempt))) epoch

/-- Steps 5 and 6: the load of a bank. -/
def coldLoad (s : State) (f : ColdFacts) (bank : Nat) : State :=
  match loadCause s f.load bank (fun _ => false) with
  | .ok img => coldUnits (noteLoadUe s f.load 0) f bank img
  | .error cause => coldFail (noteLoadUe s f.load cause) cause

/-- A cold attempt, its steps in order. -/
def coldAttempt (s0 : State) (f : ColdFacts) : State :=
  let s := coldReset s0
  if !f.fuseOk then faultSafe s 1
  else
    let s1 := coldFused s
    if !f.mapOk then faultSafe s1 2
    else
      let s2 := coldTested s1 f
      if !f.bistOk then faultSafe s2 3
      else
        let s3 := coldTrained s2 f
        if !f.trainOk then faultSafe s3 4 else coldLoad s3 f (attemptBank s0)

/-- An attempt that follows a brown-out waits until VCORE has been within its limits for 1 ms (R429). -/
def coreReady (s : State) : Bool :=
  !s.sys.brown || match s.pkg.vcoreAt with | some t => decide (t + 1000000 ≤ (s.ltc : Int)) | none => false

/-- COLD_START: in COLD_START, one attempt. -/
def coldStart (s : State) (f : ColdFacts) : State := if s.sysState = 1 && coreReady s then coldAttempt s f else s

/-! ### Triggers (R424, R425, R441) -/

/-- What a trigger ends at once (R264, R286, R352, R412, R425, R432, R441, R487, R527, R545). `orders`: the logic side can still
order the channels' safe states. -/
def endService (s : State) (new : Nat) (orders : Bool) : State :=
  let was := s.running
  let inTest := decide (s.sysState = 4)
  let s1 := if was then mscFall s new else s
  let s2 := if inTest then (s1.setFs [(Reg.SYS_CTRL_TEST, 0), (Reg.SYS_STATE_TEST_SESS, 0)]).log Ev.STATE_CHANGE noInst [.w 4, .w new] else s1
  let s2a := stagingAbort s2 1
  let s3 := if new = 0 then grantEnd s2a 3 else grantEnd (unlockEnds s2a 2) 4
  let s4 := enterState s3 new
  let s5 := if was then quillLeave s4 else s4
  let s6 := if was && orders then fioStop s5 else s5
  portsStop (afeStop (closeSessions s6 2 (fun _ => true)))

/-- A start aborts programming; the bank is left failing its load (R435, R436). -/
def flashAbort (s : State) : State :=
  if s.on Reg.SYS_FLASH_CTRL_BUSY then
    let bank := s.f Reg.SYS_FLASH_CTRL_BANK
    let y := s.sys
    let s1 := s.setSys { y with flash := none, flashGo := false, flashImg := none, nor := if y.flash.isSome then y.nor.set bank none else y.nor }
    (s1.setFs [(Reg.SYS_FLASH_CTRL_BUSY, 0), (Reg.SYS_FLASH_CTRL_RESULT, 7)]).log Ev.FLASH_PROG_FAIL noInst [.w bank, .w 7, .w 0]
  else s.setF Reg.SYS_FLASH_CTRL_RESULT 0

/-- A sweep, a fuse commit and a start still to come end with the start (R435, R502). -/
def endJobs (s : State) : State :=
  let s1 := flashAbort s
  let s2 := s1.setMem { s1.mem with sweep := none, fuse := none }
  (s2.setSys { s2.sys with startDue := none, svcAt := none }).setFs [(Reg.MEM_STAT_SWEEP, 0), (Reg.MEM_STAT_SREGION, 0), (Reg.MEM_STAT_FUSE_BUSY, 0)]

/-- A cold start begins (R424): its type, its order of banks. Records in the log's intake and held ones are lost; LOST_START counts those
of this start (R372, R373). -/
def beginCold (s : State) (type : Nat) (bFirst orders : Bool) : State :=
  let s0 := scriptStart (s.setF Reg.SCR_REJ_LOST_START 0)
  let s1 := endService (endJobs s0) 1 orders
  let s2 := s1.setFs [(Reg.SYS_START_TYPE, type), (Reg.SYS_START_WFAIL, 0), (Reg.SYS_START_VERIFY_SKIPPED, 0), (Reg.SYS_START_INTEG_KEPT, 0)]
  jtagLeaveReset (s2.setSys { s2.sys with trigAt := s2.ltc, attempt := 0, bFirst := bFirst })

/-- Every active domain enters HOLDOVER at the trigger of a warm start; grants lapse (R53, R76). One that is in HOLDOVER already stays in
it as it entered, its error growing at the rate of that entry (DESIGN CHOICE, log entry 51). -/
def warmDomain (s : State) (d : Nat) : State :=
  let s1 := if s.domSt d = domTracking || s.domSt d = domSuspect then enterHoldover s d else s
  (s1.setDom d { s1.dom d with wait := none, anns := [], barred := [], port := none, grant := none, gotSync := false }).setB
    (if d = 0 then Reg.RUL_TQ_GRANT_A else Reg.RUL_TQ_GRANT_B) false

/-- A warm start begins: records in the log's intake are lost, and those that the trigger offers stay (R372). -/
def beginWarm (s : State) (type : Nat) (orders : Bool) : State :=
  let s1 := scriptStart s
  let s2 := endService (endJobs s1) 2 orders
  let s3 := rulSettle ((List.range 2).foldl warmDomain s2)
  let s4 := s3.setFs [(Reg.SYS_START_TYPE, type), (Reg.SYS_START_VERIFY_SKIPPED, 0), (Reg.SYS_START_INTEG_KEPT, 0)]
  let s5 := if type = 5 then s4.health Reg.SYS_HEALTH_WARM_WD else s4
  s5.setSys { s5.sys with trigAt := s5.ltc }

/-- A warm trigger from service (R428, R431): with WFAIL 4 a cold start of type 4. -/
def warmTrigger (s : State) (type : Nat) (orders : Bool) : State :=
  if 4 ≤ s.f Reg.SYS_START_WFAIL then beginCold s 4 false orders else beginWarm s type orders

/-- A warm start has failed (R428): a new attempt, or at WFAIL 4 a cold start. -/
def warmFail (s : State) : State :=
  let s1 := s.incS Reg.SYS_START_WFAIL
  if 4 ≤ s1.f Reg.SYS_START_WFAIL then beginCold s1 4 false false else s1

/-- A load failure in a warm start is recorded and logged too (R423; DEDUCED, log entry 45). -/
def warmLoadFail (s : State) (cause : Nat) : State :=
  let s1 := warmFail (s.setF Reg.SYS_START_CAUSE cause)
  s1.setSys { s1.sys with fails := s1.sys.fails ++ [(s.f Reg.SYS_START_WFAIL + 1, s.f Reg.SYS_START_BANK, cause)] }

/-- Step 5 of a warm attempt. -/
def warmUnits (s : State) (img : FolioImage) (same : Bool) : State :=
  let kept := decide ((s.ltc : Int) - s.sys.trigAt ≤ 2000000000)
  let epoch := s.rd Reg.SYS_EPOCH
  let s1 := bulkSize (velWarm (unitsReset true s))
  let s2 := startUnits true s1 img (keptEst s kept)
  reached true (s2.setFs [(Reg.SYS_START_VERIFY_SKIPPED, b2n same), (Reg.SYS_START_INTEG_KEPT, b2n kept)]) epoch

/-- A warm attempt, its steps in order (R427). -/
def warmAttempt (s : State) (f : LoadFacts) (unitsOk : Bool) : State :=
  let same := fun (img : FolioImage) => decide (folioHead img = s.sea.sealedHash)
  match loadCause s f (s.f Reg.SYS_START_BANK) same with
  | .error cause => warmLoadFail (noteLoadUe s f cause) cause
  | .ok img =>
    let s1 := if same img then s else noteLoadUe s f 0
    if !unitsOk then warmFail s1 else warmUnits s1 img (same img)

/-- WARM_START: in WARM_START, one attempt. -/
def warmStart (s : State) (f : LoadFacts) (unitsOk : Bool) : State := if s.sysState = 2 then warmAttempt s f unitsOk else s

/-- SUPERVISOR_WATCHDOG_EXPIRY (R424, R428, R429). -/
def watchdogStart (s : State) : State :=
  if s.running then
    let early := match s.sys.svcAt with | some (t, true) => decide (s.ltc < t + 10000000000) | _ => false
    warmTrigger (if early then s.incS Reg.SYS_START_WFAIL else s) 5 true
  else if s.sysState = 2 then warmFail s
  else if s.sysState = 1 then coldFail (coldReset s) 12
  else s

/-- VCORE is outside its limits, as SYS_RAILS shows it. -/
def coreLost (s : State) : State := { s.setF Reg.SYS_RAILS_VCORE_OK 0 with pkg := { s.pkg with vcoreAt := none } }

/-- BROWN_OUT (R424, R429): VCORE is gone, so no order reaches the channels (R412). -/
def brownOut (s : State) : State :=
  let t := coreLost s
  if s.running then warmTrigger t 7 false
  else if s.sysState = 2 then warmFail t
  else if s.sysState = 1 then
    let u := coldFail (coldReset t) 13
    u.setSys { u.sys with brown := decide (u.sysState = 1) }
  else t

/-- A fatal fault fails the cold attempt that led to IN_SERVICE (R429, R430); R423 gives no CAUSE for it. -/
def coldSpoilt (s : State) : State :=
  let y := s.sys
  let entry := (y.attempt + 1, s.f Reg.SYS_START_BANK, Config.causeCode 0x001 0)
  let s1 := (beginCold s 2 y.bFirst true).incS Reg.SYS_START_CFAIL
  let s2 := s1.setSys { s1.sys with attempt := y.attempt + 1, fails := s1.sys.fails ++ [entry] }
  if 3 ≤ y.attempt then serviceHold (coldReset s2) else s2

/-- FATAL_FAULT (R424, R429): within 60 s of IN_SERVICE it fails the cold attempt that led there, and the order goes on. In a
start it fails the step or the attempt (DEDUCED, log entry 45). -/
def fatalFault (s : State) : State :=
  if s.running then
    let early := match s.sys.svcAt with | some (t, false) => decide (s.ltc < t + 60000000000) | _ => false
    if early then coldSpoilt s else beginCold s 2 false true
  else if s.sysState = 2 then warmFail s
  else if s.sysState = 1 then faultSafe (coldReset { s with freeCtr := s.freeCtr + 1 }) ((Config.freeWord s.freeCtr).toNat % 9)
  else s

/-- RESET is entered (R431): PCIe is held in reset, PPS_OUT and HSPI_MISO are at rest (R522), the signal space holds nothing (R286). -/
def enterReset (s : State) : State :=
  let s1 := quillEmpty (if s.sysState = 0 then s else endService (endJobs s) 0 false)
  let s2 := (s1.wr Reg.HST_STAT 0).setSys { s1.sys with brown := false }
  ppsGate { s2 with hst := { s2.hst with msix := [], cplValue := 0, ep := Endpoint.reset, spiOut := [] } }

/-- RESET_N_ASSERT. -/
def resetAssert (s : State) : State := enterReset (s.setSys { s.sys with resetN := false })

/-- RESET ends in a cold start (R516): the first release since V3P3 rose is a power-on, which clears SYS_START and SYS_HEALTH. -/
def leaveReset (s : State) : State :=
  if s.sys.released then beginCold s 1 false false
  else
    let s1 := (s.wr Reg.SYS_START 0).wr Reg.SYS_HEALTH 0
    beginCold (s1.setSys { s1.sys with released := true }) 0 false false

/-- RESET_N_RELEASE (R516). -/
def resetRelease (s : State) : State :=
  let s1 := s.setSys { s.sys with resetN := true }
  if s.sysState = 0 && !s.sys.resetN && !s.sys.v3p3Low then leaveReset s1 else s1

/-- V3P3_LOSS (R516): the always-on domain is lost. -/
def v3p3Loss (s : State) : State :=
  let s1 := enterReset s
  let s2 := ((s1.wr Reg.SYS_START 0).wr Reg.SYS_HEALTH 0).setFs [(Reg.SEA_DBG_UNLOCKED, 0), (Reg.SEA_DBG_SIGNER, 0), (Reg.SEA_DBG_SCOPE, 0), (Reg.SEA_STAT_DBG, 0)]
  let s3 := s2.setSys { s2.sys with v3p3Low := true, released := false, committed := false, fails := [] }
  jtagReset { s3 with scr := default, pkg := { s3.pkg with goodAt := none, pwrgd := false }, sea := { s3.sea with sealedHash := 0, unlockEnd := none }, dbg := { s3.dbg with stopped := false } }

/-- POWER_ON (R424): V3P3 rises; with RESET_N high the cold start follows at once. -/
def powerOn (s : State) : State :=
  if s.sys.v3p3Low then
    let good := if s.rd Reg.SYS_RAILS &&& 0x1D = 0x1D then some (s.ltc : Int) else none
    let s1 : State := { s with sys := { s.sys with v3p3Low := false }, pkg := { s.pkg with goodAt := good } }
    if s.sys.resetN then leaveReset s1 else s1
  else s

/-- WFAIL_CLEAR (R428): after 60 s of continuous IN_SERVICE or TEST. -/
def wfailClear (s : State) : State :=
  match s.sys.svcAt with
  | some (t, _) => if s.running && t + 60000000000 ≤ s.ltc then s.setF Reg.SYS_START_WFAIL 0 else s
  | none => s

/-! ### START_WARM and START_COLD (R435) -/

def startBody (n : Nat) (cold : Bool) (s : State) (c : Cmd) : CmdOut :=
  let bank := c.arg 0 1
  if s.level n ≠ 0 then refuse s stPRIV
  else if 1 < bank || (!cold && bank ≠ 0) || !c.zero 1 8 then refuse s stARG
  else if !cold && !s.running then refuse s stSTATE
  else
    let due := match s.sys.startDue with | some d => d | none => (s.ltc + 1000000, cold, decide (bank = 1))
    okay (s.setSys { s.sys with startDue := some due })

/-- A start that a command asked for begins, 1 ms after its completion. -/
def startDue (s : State) : State :=
  match s.sys.startDue with
  | some (t, cold, b) =>
    if t ≤ s.ltc then
      (if cold then (if s.running || s.sysState = 5 then beginCold s 3 b true else s) else if s.running then warmTrigger s 6 true else s)
    else s
  | none => s

/-! ### Meanings -/

def execResetNAssert (s : State) : Host.Outcome State Fault Refusal := .next (resetAssert s)

def execResetNRelease (s : State) : Host.Outcome State Fault Refusal := .next (resetRelease s)

def execV3p3Loss (s : State) : Host.Outcome State Fault Refusal := .next (v3p3Loss s)

def execColdStart (f : ColdFacts) (s : State) : Host.Outcome State Fault Refusal := .next (coldStart s f)

def execWarmStart (f : LoadFacts) (unitsOk : Bool) (s : State) : Host.Outcome State Fault Refusal := .next (warmStart s f unitsOk)

def execSupervisorWatchdogExpiry (s : State) : Host.Outcome State Fault Refusal := .next (watchdogStart s)

def execBrownOut (s : State) : Host.Outcome State Fault Refusal := .next (brownOut s)

def execFatalFault (s : State) : Host.Outcome State Fault Refusal := .next (fatalFault s)

def execStartWarm (sess : Fin 16) (s : State) : Host.Outcome State Fault Refusal := .next (runCmd s sess 0x13 (startBody sess false))

def execStartCold (sess : Fin 16) (s : State) : Host.Outcome State Fault Refusal := .next (runCmd s sess 0x14 (startBody sess true))

def execWfailClear (s : State) : Host.Outcome State Fault Refusal := .next (wfailClear s)

def execPowerOn (s : State) : Host.Outcome State Fault Refusal := .next (powerOn s)

end Sys2Proof.Machine
end

