-- ==== Sys2Proof/Machine/Flash.lean ====
section
/-! DEFINITION. Programming a bank of the external flash (spec/13 R436), and the end of the signature engine's jobs (spec/15 R476). -/

namespace Sys2Proof.Machine

/-! ### Programming a bank (R436) -/

/-- Programming has failed, or the image is refused. -/
def flashFails (s : State) (result cause : Nat) : State :=
  let bank := s.f Reg.SYS_FLASH_CTRL_BANK
  let s1 := s.setFs [(Reg.SYS_FLASH_CTRL_BUSY, 0), (Reg.SYS_FLASH_CTRL_RESULT, result), (Reg.SYS_FLASH_CTRL_CAUSE, cause)]
  (s1.setSys { s1.sys with flash := none, flashGo := false, flashImg := none }).log Ev.FLASH_PROG_FAIL noInst [.w bank, .w result, .w cause]

/-- GO is written: the bank in use and the limits of SRC and LEN; the image is hashed next. -/
def flashGo (s : State) : State :=
  let src := s.rd Reg.SYS_FLASH_SRC
  let len := s.f Reg.SYS_FLASH_LEN_LEN
  if s.on Reg.SYS_FLASH_CTRL_BUSY then s
  else if s.running && s.f Reg.SYS_FLASH_CTRL_BANK = s.f Reg.SYS_START_BANK then flashFails s 3 0
  else if src % 4096 ≠ 0 || len < 4608 || 16777216 < len || !inBulk s src len then flashFails s 6 0
  else (hashPush (s.setSys { s.sys with flashGo := true }) 1).setFs
    [(Reg.SYS_FLASH_CTRL_BUSY, 1), (Reg.SYS_FLASH_CTRL_RESULT, 1), (Reg.SYS_FLASH_CTRL_CAUSE, 0)]

/-- The image that SRC and LEN name, as the host bulk region holds it. -/
def bulkImage (s : State) (img : FolioImage) : FolioImage :=
  { img with bytes := (bytesAt s.hst.dram (bulkAddr s (s.rd Reg.SYS_FLASH_SRC)) (s.f Reg.SYS_FLASH_LEN_LEN)).cells }

/-- No command's head: a job of the module's own. -/
def ownJob (kind : Nat) (ok : Bool) : SealJob := ⟨kind, 16, noHead, default, ok⟩

/-- The owner signature of the image goes to the signature engine as soon as its queue has room (R476). -/
def flashVerify (s : State) : State :=
  match s.sys.flashImg with
  | some img => if sealFull s || s.sea.jobs.any (fun j => j.kind = 4 || j.kind = 5) then s else sealPush s (ownJob 4 (ownerSigned img))
  | none => s

/-- The image is hashed: causes 1 to 7 of R423, as a load would find them; then its signatures are verified. -/
def flashCheck (s : State) (img : FolioImage) : State :=
  if s.sys.flashGo then
    let x := bulkImage s img
    let head := headCause (s.f Reg.SYS_ID_VARIANT) x
    let s1 := hashDone s 1
    if head ≠ 0 then flashFails s1 4 head
    else if ownerSlotFails s x then flashFails s1 4 7
    else flashVerify (s1.setSys { s1.sys with flashGo := false, flashImg := some x })
  else s

/-- The owner signature has been verified: causes 8 and 9. -/
def flashOwner (s : State) (img : FolioImage) (ok : Bool) : State :=
  if !ok then flashFails s 4 8
  else if vendorFails s img then flashFails s 4 9
  else sealPush s (ownJob 5 (vendorSigned img))

/-- The vendor signature has been verified: causes 10 and 11. Then the bank is erased and programmed. -/
def flashVendor (s : State) (img : FolioImage) (ok : Bool) : State :=
  if !ok then flashFails s 4 10
  else if contentFails s img then flashFails s 4 11
  else
    let bank := s.f Reg.SYS_FLASH_CTRL_BANK
    let y := s.sys
    s.setSys { y with flashImg := none, flash := some (bank, img), nor := y.nor.set bank none }

/-- A signature of the image for flash has been verified. -/
def flashSigned (s : State) (j : SealJob) : State :=
  match s.sys.flashImg with
  | some img => if j.kind = 4 then flashOwner s img j.ok else flashVendor s img j.ok
  | none => s

/-- A write of SYS_FLASH_CTRL: BANK is RWP and not taken while BUSY, GO is WO. -/
def flashCtrlWrite (s : State) (a : Access) (mask v : Nat) : State :=
  let s1 := if mask.testBit 0 && !s.on Reg.SYS_FLASH_CTRL_BUSY then gate s a Reg.SYS_FLASH_CTRL true (fun t => t.setF Reg.SYS_FLASH_CTRL_BANK v) else s
  if mask.testBit 1 && v.testBit 1 then gate s1 a Reg.SYS_FLASH_CTRL false flashGo else s1

/-- FLASH_PROG_DONE (R436): read back, every segment hash compared. A bank whose programming fails loads no image (DESIGN CHOICE, log
entry 64). -/
def flashDone (s : State) (ok : Bool) : State :=
  match s.sys.flash with
  | some (bank, img) =>
    if ok then
      let y := s.sys
      let s1 := s.setSys { y with flash := none, nor := y.nor.set bank (some img) }
      (s1.setFs [(Reg.SYS_FLASH_CTRL_BUSY, 0), (Reg.SYS_FLASH_CTRL_RESULT, 2)]).log Ev.FLASH_PROG_DONE noInst [.w bank, .w (folioId img)]
    else flashFails s 5 0
  | none => s

/-! ### The signature engine (R476) -/

/-- What follows a job that is done. A Quill image goes on with its other checks (R308). -/
def sealDone (s : State) (j : SealJob) : State :=
  if j.kind = 0 then openDone s j
  else if j.kind = 1 then unlockDone s j
  else if j.kind = 2 then attestDone s j
  else if j.kind = 3 then s
  else flashSigned s j

/-- SEAL_JOB_COMPLETE: the oldest job is done; its place goes to an image for flash that waits for one. -/
def sealJobComplete (s : State) : State :=
  match s.sea.jobs with
  | j :: t => flashVerify (sealDone (sealNote (s.setSea { s.sea with jobs := t })) j)
  | [] => s

/-! ### Meanings -/

/-- FLASH_PROGRAM_GO: the write of GO, with what the bytes at SRC are; a GO that a register write has made waits for it. -/
def execFlashProgramGo (a : Access) (v : Word) (img : FolioImage) (s : State) : Host.Outcome State Fault Refusal :=
  .next (flashCheck (if s.sys.flashGo then s else flashCtrlWrite s a 3 v.toNat) img)

def execFlashProgDone (ok : Bool) (s : State) : Host.Outcome State Fault Refusal := .next (flashDone s ok)

def execSealJobComplete (s : State) : Host.Outcome State Fault Refusal := .next (sealJobComplete s)

end Sys2Proof.Machine
end

