-- ==== Sys2Proof/Machine/Settings.lean ====
section
/-! DEFINITION. Live settings (spec/13 R437 to R442): change records and their checks, the commit of a staging, the late switches,
the end of the resynchronisation. -/

namespace Sys2Proof.Machine

/-! ### Objects (R438) -/

/-- A change record (R437). -/
structure ChangeRec where
  obj : Nat
  inst : Nat
  first : Nat
  data : List Nat
  deriving DecidableEq, Repr

/-- Key of word `w` of the image of an object, none outside the image or where the instance does not exist. -/
def objKey (s : State) (obj inst w : Nat) : Option Nat :=
  let reg := fun (count base step words : Nat) => if inst < count && w < words then some (base + inst * step + 4 * w) else none
  if obj = 1 then (if inst < contexts s && w < 128 then some (nibKey inst w) else none)
  else if obj = 2 then reg 16 0xC1000 0x80 32
  else if obj = 3 then reg 1 0xC2000 0 320
  else if obj = 4 then reg 4 0xE0000 0x100 64
  else if obj = 5 then reg 24 0x40000 0x40 1
  else if obj = 6 then reg 192 0x42000 0x40 16
  else if obj = 7 then reg 64 0x46000 0x40 16
  else if obj = 8 then (if w < 8 then reg 32 0xF1000 0x20 8 else if inst < 32 && w < 72 then some (0xF2000 + inst * 0x100 + 4 * (w - 8)) else none)
  else if obj = 9 then reg 8 0xF4000 0x80 32
  else if obj = 10 then reg 16 0x111000 0x80 32
  else if obj = 11 then
    (if inst < 32 then reg 32 0x121000 0x20 1 else if inst < 36 && w = 0 then some (0x120100 + (inst - 32) * 0x20) else none)
  else none

/-- Bits of a stageable word that no staging may change (R162, R438), beside those the Folio does not load: modes change through
MODE_SET. -/
def fixedBits (obj w : Nat) : Nat :=
  if obj = 1 then (if w = 0 then 0x787800 + 0xFF else if 8 ≤ w && w < 16 then 0xFFFFFFFF else 0)
  else if w ≠ 0 then 0
  else if obj = 4 then 0xFFFF003E
  else if obj = 5 then 0x7F
  else if obj = 6 then 0x4000
  else if obj = 7 then 2
  else if obj = 9 then 0x3E
  else 0

/-- Bits that a change record may set: for a register those the Folio loads. None: the word is not stageable. -/
def stageMask (s : State) (obj w key : Nat) : Option Nat :=
  if obj = 1 then some (0xFFFFFFFF - fixedBits 1 w)
  else
    match findRow key with
    | some r => if r.loaded = 0 || noReg s key then none else some (loadedBits s r key &&& (0xFFFFFFFF - fixedBits obj w))
    | none => none

/-- The object that a key belongs to, as the key of its first word. -/
def objOf (k : Nat) : Nat :=
  let baseOf := fun (base step : Nat) => base + (k - base) / step * step
  if 16777216 ≤ k then baseOf 16777216 128
  else if 0xC2000 ≤ k && k < 0xC3000 then 0xC2000
  else if 0xC1000 ≤ k && k < 0xC2000 then baseOf 0xC1000 0x80
  else if 0xE0000 ≤ k && k < 0xF0000 then baseOf 0xE0000 0x100
  else if 0xF1000 ≤ k && k < 0xF2000 then baseOf 0xF1000 0x20
  else if 0xF2000 ≤ k && k < 0xF4000 then 0xF1000 + (k - 0xF2000) / 0x100 * 0x20
  else if 0xF4000 ≤ k && k < 0xF5000 then baseOf 0xF4000 0x80
  else if 0x111000 ≤ k && k < 0x112000 then baseOf 0x111000 0x80
  else if 0x120000 ≤ k && k < 0x130000 then baseOf 0x120000 0x20
  else baseOf 0x40000 0x40

/-! ### Reading the records (R437) -/

/-- The records in `n` bytes of host bulk memory from address `a`; a record that does not fit ends the reading with its index. -/
def readRecs (s : State) : Nat → Nat → Nat → List ChangeRec → Except Nat (List ChangeRec)
  | 0, _, _, acc => .ok acc.reverse
  | fuel + 1, a, n, acc =>
    if n = 0 then .ok acc.reverse
    else
      let word := fun (i : Nat) => leNat (s.dramRead (a + 4 * i) 4)
      let count := word 1 / 65536
      if n < 12 || word 0 / 256 % 256 ≠ 0 || count = 0 || 1024 < count || n < 8 + 4 * count then .error acc.length
      else readRecs s fuel (a + 8 + 4 * count) (n - (8 + 4 * count))
        (⟨word 0 % 256, word 0 / 65536, word 1 % 65536, (List.range count).map (fun i => word (2 + i))⟩ :: acc)

/-- The value a key has in the staged image, whose active image holds what a commit has yet to bring to a Vellum profile (R439, R440). -/
def stagedOr (s : State) (st : Tab (Option Nat)) (key : Nat) : Nat :=
  match st.get key, s.sys.committing.get key with
  | some v, _ => v
  | none, some v => v
  | none, none => if 16777216 ≤ key then s.nib.live.get (key - 16777216) else s.rd key

/-- Why a record cannot be staged: 3 OBJ or INST, 4 a word. -/
def stageWord (s : State) (r : ChangeRec) (st : Tab (Option Nat)) (w v : Nat) : Except Nat (Tab (Option Nat)) :=
  match objKey s r.obj r.inst w with
  | none => .error (if (objKey s r.obj r.inst 0).isNone then 3 else 4)
  | some key =>
    match stageMask s r.obj w key with
    | none => .error (if noReg s key && (findRow key).isSome then 3 else 4)
    | some m =>
      let old := stagedOr s st key
      if (old ^^^ v) &&& fixedBits r.obj w ≠ 0 then .error 4 else .ok (st.set key (some (merged old m v)))

def stageRec (s : State) (st : Tab (Option Nat)) (r : ChangeRec) : Except Nat (Tab (Option Nat)) :=
  r.data.zipIdx.foldl (fun acc p => match acc with | .ok t => stageWord s r t (r.first + p.2) p.1 | .error e => .error e) (.ok st)

/-- Every record in turn; an error carries the record's index. -/
def stageRecs (s : State) (l : List ChangeRec) : Except (Nat × Nat) (Tab (Option Nat)) :=
  l.zipIdx.foldl (fun acc p =>
    match acc with
    | .ok t => (match stageRec s t p.1 with | .ok u => .ok u | .error e => .error (p.2, e))
    | .error e => .error e) (.ok s.sys.staged)

/-- Words become live, each under its key. -/
def liveWords (s : State) (st : Tab (Option Nat)) : State :=
  st.foldl (fun t p => match p.2 with | some v => liveWord t p.1 v | none => t) s

/-- The configuration as it would stand with a staged image (R439). -/
def withStaged (s : State) (st : Tab (Option Nat)) : State := liveWords (liveWords s s.sys.committing) st

/-- The check that the staged image fails, by its number. -/
def stagedFails (s : State) (st : Tab (Option Nat)) : Option Nat :=
  failedCheck (withStaged s st) (fun lo n => st.any (fun p => decide (lo ≤ p.1) && decide (p.1 < lo + n)))

/-- SETTINGS_REJECT with the record index; for a check of the whole image no rule names the record, so its index is a free value. -/
def settingsReject (s : State) (index : Option Nat) (check : Nat) : CmdOut :=
  let i := match index with | some k => k | none => (Config.freeWord s.freeCtr).toNat
  let s1 := if index.isSome then s else { s with freeCtr := s.freeCtr + 1 }
  refuse (s1.log Ev.SETTINGS_REJECT noInst [.w i, .w (Config.causeCode 0x008 check)]) stARG

/-- A staging is owned by another session, or a commit is pending, or the module does not run. -/
def stageState (s : State) (n : Nat) : Bool :=
  !s.running || s.on Reg.SYS_STATE_COMMIT_PEND || (s.on Reg.SYS_STATE_STAGED && s.f Reg.SYS_STATE_STG_SESS ≠ n)

/-- SET_WRITE (R437 to R439); a word of its data that cannot be read ends it with INTEGRITY (R499). -/
def setWriteBody (n : Nat) (e : Ecc) (s : State) (c : Cmd) : CmdOut :=
  let off := c.arg 0 8
  let len := c.arg 8 4
  if s.level n ≠ 0 then refuse s stPRIV
  else if len < 12 || 1048576 < len || len % 4 ≠ 0 || !c.zero 12 32 then settingsReject s none 0
  else if !inBulk s off len then settingsReject s none 1
  else if s.lost e then refuse (memNote s e) stINTEGRITY
  else
    let s := memNote s e
    match readRecs s 87382 (bulkAddr s off) len [] with
    | .error i => settingsReject s (some i) 2
    | .ok recs =>
      match stageRecs s recs with
      | .error e => settingsReject s (some e.1) e.2
      | .ok st =>
        match stagedFails s st with
        | some k => settingsReject s none (5 + k)
        | none =>
          if stageState s n then refuse s stSTATE
          else if s.on Reg.SYS_STATE_RESYNC then refuse s stBUSY
          else okay ((s.setSys { s.sys with staged := st }).setFs [(Reg.SYS_STATE_STAGED, 1), (Reg.SYS_STATE_STG_SESS, n)])

/-! ### Commit and abort (R440 to R442) -/

/-- What EPOCH_COMMIT and EPOCH_ABORT are refused for. -/
def epochStatus (s : State) (n : Nat) (c : Cmd) : Option Nat :=
  if s.level n ≠ 0 then some stPRIV
  else if !c.zero 0 32 then some stARG
  else if !s.on Reg.SYS_STATE_STAGED || stageState s n then some stSTATE
  else if s.on Reg.SYS_STATE_RESYNC then some stBUSY
  else none

/-- A committed epoch reaches a publication between frames; one enabled while publication runs begins (R355). -/
def gpSwitch (s : State) (g : Nat) : State :=
  let was := s.on (Reg.STN_GP_CFG_EN g)
  let s1 := gpCommit s g
  if !was && s1.on (Reg.STN_GP_CFG_EN g) && s1.running then gpBegin s1 g else s1

/-- Objects with nothing in progress switch at once (R440). -/
def commitAtOnce (s : State) : State :=
  let s1 := (List.range 4).foldl (fun t n => if commitWaits t (Reg.DUC_DL_CFG n) 0x100 && (t.dl n).buf = [] then dlCommit t n else t) s
  let s2 := takeCommit s1 0x40000 0x2000
  let s3 := (List.range 192).foldl (fun t n =>
    if commitWaits t (Reg.PBI_SC_CFG n) 0x40 && !t.pbi.svq.any (fun r => r.sc = n) then svCommit t n else t) s2
  let s4 := (List.range 64).foldl (fun t n =>
    if commitWaits t (Reg.PBI_GS_CFG n) 0x40 && !t.pbi.gq.any (fun r => r.gs = n) then gsCommit t n else t) s3
  let s5 := (List.range 32).foldl (fun t g =>
    if (commitWaits t (Reg.STN_GP_CFG g) 0x20 || commitWaits t (Reg.STN_GP_MEM g 0) 0x100) && !(t.gp g).live then gpSwitch t g else t) s4
  (List.range 16).foldl (fun t p => if (t.openRec p).isNone then takeCommit t (0x111000 + p * 0x80) 0x80 else t) s5

/-- The words that wait for their object's boundary: those of the new commit, and what an earlier one has not yet brought to a Vellum
profile (R440). -/
def committedWords (y : Sys) : Tab (Option Nat) := y.staged.foldl (fun (t : Tab (Option Nat)) (p : Nat × Option Nat) => t.set p.1 p.2) y.committing

/-- EPOCH_COMMIT: the commit instant. Stroke's switch comes with an update of its own (R266). -/
def commitBegin (s : State) (n : Nat) (c : Cmd) : State :=
  let objs := (s.sys.staged.map (fun p => objOf p.1)).eraseDups.length
  let s1 := s.incW Reg.SYS_EPOCH_EPOCH
  let s2 := s1.log Ev.EPOCH_COMMITTED noInst [.w (s1.rd Reg.SYS_EPOCH), .w objs]
  let y := s2.sys
  let s3 := stagingClear (s2.setSys { y with committing := committedWords y, committed := true, commit := some (n, c.sqHead, s.ltc) })
  let s4 := fioCommitOpens (s3.setB Reg.SYS_STATE_COMMIT_PEND true)
  let s5 := if commitWaits s4 0xC1000 0x2000 then strokeSwitchFlit s4 else s4
  commitSettled (commitAtOnce s5)

def epochCommitBody (n : Nat) (s : State) (c : Cmd) : CmdOut :=
  match epochStatus s n c with
  | some st => refuse s st
  | none => goesOn (commitBegin s n c)

/-- EPOCH_ABORT discards the staging; EPOCH_ABORTED is logged where a close or a start discards it (DEDUCED, log entry 47). -/
def epochAbortBody (n : Nat) (s : State) (c : Cmd) : CmdOut :=
  match epochStatus s n c with
  | some st => refuse s st
  | none => okay (stagingClear s)

/-- Publications that formed no frame within 208.3 us of the commit instant switch then (R440; DEDUCED, log entry 47). -/
def lateCommit (s : State) : State :=
  match s.sys.commit with
  | some (_, _, at') =>
    if at' + 208300 ≤ s.ltc then
      let s1 := (List.range 8).foldl (fun t k => takeCommit t (Reg.STN_SP_CFG k) 0x80) s
      (List.range 32).foldl (fun t g =>
        if commitWaits t (Reg.STN_GP_CFG g) 0x20 || commitWaits t (Reg.STN_GP_MEM g 0) 0x100 then gpSwitch t g else t) s1
    else s
  | none => s

/-- SHADOW_RESYNC_DONE (R442). -/
def shadowResyncDone (s : State) : State := s.setB Reg.SYS_STATE_RESYNC false

/-! ### Meanings -/

def execSetWrite (r : SessRead) (s : State) : Host.Outcome State Fault Refusal := .next (runCmd s r.sess 0x10 (setWriteBody r.sess r.c))

def execEpochCommit (sess : Fin 16) (s : State) : Host.Outcome State Fault Refusal := .next (runCmd s sess 0x11 (epochCommitBody sess))

def execEpochAbort (sess : Fin 16) (s : State) : Host.Outcome State Fault Refusal := .next (runCmd s sess 0x12 (epochAbortBody sess))

def execShadowResyncDone (s : State) : Host.Outcome State Fault Refusal := .next (shadowResyncDone s)

end Sys2Proof.Machine
end

