-- ==== Sys2Proof/Machine/MemOps.lean ====
section
/-! DEFINITION. What an uncorrectable word costs, region by region (spec/16 R499, R500), memory sweeps (R502) and the burning of
repairs into fuses (R498). -/

namespace Sys2Proof.Machine

/-! ### Owners taken out of service (R500) -/

/-- MEM_OWNER_OOS: the kind by its place in the table of R500. -/
def ownerOos (s : State) (kind n : Nat) : State := (oosHealth s).log Ev.MEM_OWNER_OOS n [.w (Config.causeCode 0x2C8 kind)]

/-- A Stroke output is released and held at rest until the next start. -/
def soLost (s : State) (n : Nat) : State :=
  if s.mem.oosSo.testBit n then s
  else
    let s1 := s.setMem { s.mem with oosSo := setBitOf s.mem.oosSo n true }
    let s2 := evalSo s1 n
    ownerOos ((List.range 36).foldl pubNote (if s2.asserted n then releaseSo s2 n else s2)) 2 n

/-- A link is OFF, its received bits at their loss values. -/
def dlLost (s : State) (n : Nat) : State :=
  if s.mem.oosDl.testBit n then s
  else ownerOos (showRx (dlSettle (s.setMem { s.mem with oosDl := setBitOf s.mem.oosDl n true }) n) n) 3 n

/-- A converter stops. -/
def converterLost (s : State) (n : Nat) : State := if s.mem.oosCv.testBit n then s else ownerOos (cvLost s n) 4 n

/-- A task is HALTED (R304, R305). -/
def taskLost (s : State) (t : Nat) : State := if s.taskSt t = 0 || s.taskSt t = 5 then s else taskHalt s t

/-- The owner of a settings word is taken out of service; a word of any other object has no owner in the table of R500. -/
def settingsLost (s : State) (key : Nat) : State :=
  if 16777216 ≤ key then (if (s.nc ((key - 16777216) / 128)).svc = 0 then s else contextOos s ((key - 16777216) / 128))
  else if 0xC1000 ≤ key && key < 0xC1800 then soLost s ((key - 0xC1000) / 0x80)
  else if 0xE0000 ≤ key && key < 0xE0400 then dlLost s ((key - 0xE0000) / 0x100)
  else if 0x21000 ≤ key && key < 0x23000 then converterLost s ((key - 0x21000) / 0x200)
  else s

/-- The shadow cannot stand in for the 64-bit word of settings that holds the one with that key (R442, R500). -/
def settingsGone (s : State) (both : Bool) (key : Nat) : Bool :=
  let half := if 16777216 ≤ key then s.stagedIn (key / 2 * 2) 2 else s.stagedIn (key / 8 * 8) 8
  both || half || s.on Reg.SYS_STATE_RESYNC

/-! ### Regions (R499) -/

/-- A word of Quill data (R305): a retained variable, or the window of a task. -/
def quillDataLost (s : State) (a : Nat) : State :=
  match (List.range 8).find? (fun t => ((s.qtask t).dataLo ≤ a && a < (s.qtask t).dataHi) || ((s.qtask t).retLo ≤ a && a < (s.qtask t).retHi)) with
  | some t =>
    let k := s.qtask t
    if k.retLo ≤ a && a < k.retHi then retainError s t a
    else if s.taskSt t = 3 || s.taskSt t = 4 then taskFault s t 5 (s.qrun t).pc
    else initWindow s (s.progOf t) t
  | none => s

/-- A sample value of a stream ring is INVALID (R109, R141, R339). -/
def ringInvalid (s : State) (k : Nat) : State :=
  let sc := k % 224
  let i := k / 224 % 128
  let ch := k / 28672 % 24
  let x := s.sc sc
  let mark := fun (q : Nat) => q ||| 1
  s.setSc sc { x with ring := x.ring.zipIdx.map (fun p => if p.2 = i then { p.1 with quals := p.1.quals.zipIdx.map (fun q => if q.2 = ch then mark q.1 else q.1) } else p.1) }

/-- A word of the Inkwell area: the session of its slot closes, or a word of a shared area reads 0. -/
def inkLost (s : State) (off : Nat) : State :=
  if off < 0x40000 then closeSession s (off / 0x4000) 4 else s.inkWrite (off / 8 * 8) (List.replicate 8 0#8)

/-- The Seal job in progress fails with INTEGRITY; an image for flash is refused with the cause of its step. -/
def sealJobLost (s : State) : State :=
  match s.sea.jobs with
  | j :: t =>
    let s1 := sealNote (s.setSea { s.sea with jobs := t })
    let s2 := if j.kind = 3 then (hashDone (s1.setQil { s1.qil with load := none }) 0).setB Reg.QIL_STAT_LOAD_BUSY false
      else if j.kind = 4 then flashFails s1 4 8 else if j.kind = 5 then flashFails s1 4 10 else s1
    postHead s2 j.sess j.head stINTEGRITY []
  | [] => s

/-- A waiting frame of a port is dropped and counts in RX_ERR; a queue item is sent again by its producer. -/
def frameLost (s : State) (p : Nat) : State :=
  let b := s.pbi
  if 28 ≤ p then s
  else
    match (s.port p).fwd, b.svq.find? (fun r => r.port = p), b.gq.find? (fun r => r.port = p) with
    | f :: t, _, _ => (s.setPort p { s.port p with fwd := t, inUsed := (s.port p).inUsed - f.1.len }).portCnt p 1 1
    | [], some r, _ => (freeIngress { s with pbi := { b with svq := b.svq.erase r } } p r.len).portCnt p 1 1
    | [], none, some r => (freeIngress { s with pbi := { b with gq := b.gq.erase r } } p r.len).portCnt p 1 1
    | [], none, none => s

/-- A pending image is rebuilt from its sources and asked for again. -/
def pubLost (s : State) (i : Nat) : State :=
  let slots := pubSlots s i
  let x := s.stk.pub.get i
  let img := slots.foldl (fun m p => setBitOf m p.1 (pubSrc s p.2)) x.img
  s.setStk { s.stk with pub := s.stk.pub.set i { x with img := img, dirty := maskOf (slots.map (·.1)), held := 0, at' := s.dtcNs, tq := s.tq } }

/-- A held record is dropped and counted. -/
def heldLost (s : State) (k : Nat) : State :=
  match s.scr.holding[k]? with
  | some r => noteHold (dropRec (s.setScr { s.scr with holding := s.scr.holding.eraseIdx k }) r)
  | none => s

/-- A block of the TW ring is missing (R381). -/
def laneLost (s : State) (off : Nat) : State :=
  let c := off / 4194304
  s.setVel { s.vel with lanes := s.vel.lanes.set c ((s.vel.lanes.get c).filter (fun b => b.slot ≠ off % 4194304 / 144)) }

/-- A row in staging is lost, and the open record marks its block. -/
def rowLost (s : State) (k : Nat) : State :=
  let p := k % 16
  let s1 := s.setProf p { s.prof p with ring := (s.prof p).ring.eraseIdx (k / 16) }
  match s1.openRec p with
  | some r => putRec s1 ({ r with blocks := onLast 0 (fun b => { b with bad := true }) r.blocks } : VelRec).noteMap
  | none => s1

/-- The action of the word's region; `both`: the shadow copy is uncorrectable too. -/
def ueAction (s : State) (l : MemLoc) (both : Bool) : State :=
  let o := Config.memOwner l.region l.offset
  match l.region with
  | 0 => if settingsGone s both o then settingsLost s o else s
  | 2 => if both || s.on Reg.SYS_STATE_RESYNC then taskLost s (o % 8) else s
  | 3 => quillDataLost s (l.offset / 4)
  | 4 => (initState s (o % 256)).log Ev.CTX_STATE_RESET (o % 256)
  | 5 => ringInvalid (ringInvalid s (Config.memOwner 5 (l.offset / 8 * 8))) (Config.memOwner 5 (l.offset / 8 * 8 + 4))
  | 6 => logPageFail s l.offset
  | 7 => inkLost s l.offset
  | 8 => fatalFault s
  | 9 => if s.running then warmTrigger s 5 true else s
  | 10 => sealJobLost s
  | 11 => fatalFault s
  | 12 => frameLost s o
  | 13 => pubLost s (o % 36)
  | 14 => heldLost s o
  | 16 => velReadErr s (l.offset / 65536)
  | 17 => laneLost s l.offset
  | 18 => rowLost s o
  | _ => s

/-- One word read, as an owner's read treats it (R492 to R500). -/
def memRead (s : State) (e : Ecc) : State :=
  let s1 := memNote s e
  match s.check e with
  | .ue l => ueAction s1 l false
  | .ueBoth l => ueAction s1 l true
  | .ok => s1
  | .ce _ => s1

/-- An owner that reads its words in operation, without a command of the table, meets the next one with wrong bits (R501; DESIGN CHOICE, log
entry 66: one a tick). -/
def ownerRead (s : State) : State :=
  match s.mem.errors with
  | e :: t => memRead (s.setMem { s.mem with errors := t }) e
  | [] => s

/-- What 1 ns of time does on an empty queue (log entry 2). -/
def idleTick (s : State) : State := landsTick (ownerRead (startDue (lateCommit (tickNs s))))

/-! ### MEM_SWEEP (R502) -/

/-- Regions with a number: 0-14 and 16-19. -/
def regionMask : Nat := 0xF7FFF

def memSweepBody (n : Nat) (s : State) (c : Cmd) : CmdOut :=
  let m := c.arg 0 4
  if s.level n = 2 then refuse s stPRIV
  else if m = 0 || m ||| regionMask ≠ regionMask || !c.zero 4 32 then refuse s stARG
  else if !s.running then refuse s stSTATE
  else if s.mem.sweep.isSome then refuse s stBUSY
  else goesOn ((s.setMem { s.mem with sweep := some (n, c.sqHead, m) }).setFs
    [(Reg.MEM_STAT_SWEEP, 1), (Reg.MEM_STAT_SREGION, (bitsOf 20 m).headD 0)])

/-- The words of region `r` among those found. -/
def hitsIn (found : List Ecc) (r : Nat) : List Ecc :=
  found.filter (fun e => match e with | .err l _ _ => decide (l.region = r) | .ok => false)

/-- One region is swept: SREGION names it, and each word found is treated as an owner's read, while no start has come. -/
def sweepRegion (found : List Ecc) (s : State) (r : Nat) : State :=
  (hitsIn found r).foldl (fun t e => if t.running then memRead t e else t) (if s.running then s.setF Reg.MEM_STAT_SREGION r else s)

/-- MEM_SWEEP_DONE: the regions named, in ascending order; a start that a word brings ends the sweep. -/
def memSweepDone (s : State) (found : List Ecc) : State :=
  match s.mem.sweep with
  | some (_, _, m) =>
    let hits := (bitsOf 20 m).flatMap (hitsIn found)
    let s1 := (bitsOf 20 m).foldl (sweepRegion found) s
    if s1.running then
      let ue := (hits.filter s.lost).length
      let ce := (hits.filter (fun e => match s.check e with | .ce _ => true | _ => false)).length
      let mib := ((bitsOf 20 m).map (regionBytes s)).sum / 1048576
      let s2 := (s1.setMem { s1.mem with sweep := none }).setFs [(Reg.MEM_STAT_SWEEP, 0), (Reg.MEM_STAT_SREGION, 0)]
      match s1.mem.sweep with
      | some (n, head, _) => postHead (s2.log Ev.MEM_SWEEP_DONE noInst [.w ce, .w ue, .w mib]) n head stOK [ce, ue, mib]
      | none => s2
    else s1
  | none => s

/-! ### FUSE_COMMIT (R498) -/

/-- The repairs that SEL names. -/
def namedRepairs (s : State) (sel : Nat) : List Nat := (List.range 64).filter (fun k => s.on (Reg.MEM_REP_VALID k) && (sel = 255 || sel = k))

/-- Field entries not yet used. -/
def freeFuses (s : State) : List Nat := (List.range 32).filter (fun k => !s.on (Reg.MEM_FUSE_USED k))

def fuseCommitBody (n : Nat) (s : State) (c : Cmd) : CmdOut :=
  let sel := c.arg 0 1
  let named := namedRepairs s sel
  if s.level n ≠ 0 then refuse s stPRIV
  else if (63 < sel && sel ≠ 255) || !c.zero 1 32 || named = [] then refuse s stARG
  else if !s.running || s.mem.fuse.isSome || s.sea.fuse.isSome || decide ((freeFuses s).length < named.length) then refuse s stSTATE
  else goesOn ((s.setMem { s.mem with fuse := some ⟨n, c.sqHead, named⟩ }).setB Reg.MEM_STAT_FUSE_BUSY true)

/-- The commit is over. -/
def fuseEnds (s : State) (j : FuseJob) (status : Nat) : State :=
  postHead ((s.setMem { s.mem with fuse := none }).setB Reg.MEM_STAT_FUSE_BUSY false) j.sess j.head status []

/-- FUSE_BURN_DONE: the next repair stands in the next free entry, or the entry is BAD; what a failed burn leaves in the entry's
other fields is a free value. -/
def fuseBurnDone (s : State) (ok : Bool) : State :=
  match s.mem.fuse with
  | some j =>
    match j.left, freeFuses s with
    | k :: rest, e :: _ =>
      if ok then
        let bank := s.f (Reg.MEM_REP_BANK k)
        let row := s.f (Reg.MEM_REP_ROW k)
        let s1 := s.setFs [(Reg.MEM_FUSE_USED e, 1), (Reg.MEM_FUSE_DRAM e, s.f (Reg.MEM_REP_DRAM k)), (Reg.MEM_FUSE_BANK e, bank),
          (Reg.MEM_FUSE_ROW e, row), (Reg.MEM_FUSE_SPARE e, s.f (Reg.MEM_REP_SPARE k)), (Reg.MEM_FUSE_BAD e, 0)]
        let s2 := (s1.wr (Reg.MEM_REP k) 0).setFs [(Reg.MEM_STAT_RPSOFT, s1.f Reg.MEM_STAT_RPSOFT - 1), (Reg.MEM_STAT_RPFIELD, s1.f Reg.MEM_STAT_RPFIELD + 1)]
        let s3 := s2.log Ev.MEM_FUSE_COMMIT noInst [.w e, .w bank, .w row]
        if rest = [] then fuseEnds s3 j stOK else s3.setMem { s3.mem with fuse := some { j with left := rest } }
      else
        let w := Config.freeWord s.freeCtr
        let s1 := ({ s with freeCtr := s.freeCtr + 1 } : State).setWord (Reg.MEM_FUSE e) (w &&& 0x0FFFFFFF#32)
        let s2 := s1.setFs [(Reg.MEM_FUSE_USED e, 1), (Reg.MEM_FUSE_BAD e, 1), (Reg.MEM_STAT_RPFIELD, s.f Reg.MEM_STAT_RPFIELD + 1)]
        fuseEnds (s2.log Ev.MEM_FUSE_ERR noInst [.w e]) j stINTEGRITY
    | _, _ => s
  | none => s

/-! ### Meanings -/

def execMemSweep (sess : Fin 16) (s : State) : Host.Outcome State Fault Refusal := .next (runCmd s sess 0x60 (memSweepBody sess))

def execMemSweepDone (found : List Ecc) (s : State) : Host.Outcome State Fault Refusal := .next (memSweepDone s found)

def execFuseCommit (sess : Fin 16) (s : State) : Host.Outcome State Fault Refusal := .next (runCmd s sess 0x61 (fuseCommitBody sess))

def execFuseBurnDone (ok : Bool) (s : State) : Host.Outcome State Fault Refusal := .next (fuseBurnDone s ok)

end Sys2Proof.Machine
end

