-- ==== Sys2Proof/Machine/Pkg.lean ====
section
/-! DEFINITION. Rails and temperature (spec/17 R515, R517, R519). -/

namespace Sys2Proof.Machine

def State.setPkg (s : State) (x : Pkg) : State := { s with pkg := x }

/-- VDDIO, VSER, VLP and VLPQ as bits of SYS_RAILS: the rails of PWRGD (R515). -/
def pwrgdRails : Nat := 0x1D

/-- VCORE (R429). -/
def coreRail : Nat := 0x02

/-- VAFE, VAP and VAN (R517). -/
def analogueRails : Nat := 0xE0

/-- The rails within their limits, as SYS_RAILS shows them. -/
def railsOk (s : State) : Nat := s.rd Reg.SYS_RAILS % 256

/-- RAIL_FAULT (R519): PWRGD falls at once, the front end stops. The log is not usable in RESET. -/
def railFault (s : State) (mask : Nat) : State :=
  let lost := mask &&& railsOk s
  if lost = 0 then s
  else
    let ok := railsOk s - lost
    let s1 := s.wr Reg.SYS_RAILS (s.rd Reg.SYS_RAILS - lost)
    let s0 := if lost &&& coreRail = 0 then s1 else s1.setPkg { s1.pkg with vcoreAt := none }
    let s2 := if lost &&& pwrgdRails = 0 then s0 else s0.setPkg { s0.pkg with goodAt := none, pwrgd := false }
    let s3 := if lost &&& analogueRails = 0 then s2
      else
        let t := s2.setPkg { s2.pkg with anaAt := none }
        if t.afe.stopped then t else railStop { t with afe := { t.afe with stopped := true } }
    if s3.sysState = 0 then s3 else s3.log Ev.RAIL_FAULT noInst [.w (0xFF - ok)]

/-- RAIL_RESTORED (R519). -/
def railRestored (s : State) (mask : Nat) : State :=
  let back := mask &&& (0xFF - railsOk s)
  if back = 0 then s
  else
    let ok := railsOk s + back
    let s1 := s.wr Reg.SYS_RAILS (s.rd Reg.SYS_RAILS + back)
    let since := fun (rails : Nat) (t : Option Int) => if ok &&& rails = rails && t.isNone then some (s.ltc : Int) else t
    let s2 := s1.setPkg { s1.pkg with goodAt := if s1.sys.v3p3Low then none else since pwrgdRails s1.pkg.goodAt, anaAt := since analogueRails s1.pkg.anaAt, vcoreAt := since coreRail s1.pkg.vcoreAt }
    if s2.sysState = 0 then s2 else s2.log Ev.RAIL_RESTORED noInst [.w back]

/-- ANALOGUE_RESUME (R517): 10 ms within limits; the restart counts as a reload of every sequence. -/
def analogueResume (s : State) : State :=
  match s.pkg.anaAt with
  | some t => if s.afe.stopped && decide (t + 10000000 ≤ (s.ltc : Int)) then afeStart { s with afe := { s.afe with stopped := false } } false else s
  | none => s

/-- PWRGD_RELEASE (R515). -/
def pwrgdRelease (s : State) : State :=
  match s.pkg.goodAt with
  | some t => if !s.sys.v3p3Low && decide (t + 100000 ≤ (s.ltc : Int)) then s.setPkg { s.pkg with pwrgd := true } else s
  | none => s

/-- The temperature as SYS_RAILS shows it, and its highest value. -/
def noteTj (s : State) (tj : Int) : State :=
  let s1 := s.setF Reg.SYS_RAILS_TJ (tc 8 tj)
  if sext 8 (s.f Reg.SYS_RAILS_TJMAX) < tj then s1.setF Reg.SYS_RAILS_TJMAX (tc 8 tj) else s1

/-- TJ_HIGH (R519): above 105 °C for 1 s. The temperature that it brings is also SYS_RAILS's latest. -/
def tjRises (s : State) (tj : Int) : State :=
  let t := noteTj s tj
  if 105 < tj && !s.pkg.tjHigh then (t.setPkg { t.pkg with tjHigh := true }).log Ev.TJ_HIGH noInst [Item.i tj] else t

/-- TJ_NORMAL (R519): below 100 °C for 1 s after TJ_HIGH. -/
def tjFalls (s : State) (tj : Int) : State :=
  let t := noteTj s tj
  if tj < 100 && s.pkg.tjHigh then (t.setPkg { t.pkg with tjHigh := false }).log Ev.TJ_NORMAL noInst [Item.i tj] else t

/-! ### Meanings -/

def execRailFault (mask : BitVec 8) (s : State) : Host.Outcome State Fault Refusal := .next (railFault s mask.toNat)

def execRailRestored (mask : BitVec 8) (s : State) : Host.Outcome State Fault Refusal := .next (railRestored s mask.toNat)

def execAnalogueResume (s : State) : Host.Outcome State Fault Refusal := .next (analogueResume s)

def execTjHigh (tj : Int) (s : State) : Host.Outcome State Fault Refusal := .next (tjRises s tj)

def execTjNormal (tj : Int) (s : State) : Host.Outcome State Fault Refusal := .next (tjFalls s tj)

def execPwrgdRelease (s : State) : Host.Outcome State Fault Refusal := .next (pwrgdRelease s)

end Sys2Proof.Machine
end

