-- ==== Sys2Proof/Machine/Port.lean ====
section
/-! DEFINITION. What reaches BAR0 and BAR2 (spec/14 R446 to R455): register writes under the access codes, the Inkwell area, the
MSI-X table, the doorbells of the sessions, SPI transactions, the aperture. -/

namespace Sys2Proof.Machine

def State.setHst (s : State) (x : Hst) : State := { s with hst := x }

/-! ### Ill-formed accesses (R450) -/

/-- An ill-formed access is counted, and logged once per episode; a well-formed one ends the episode. Kinds: 0 read, 1 write. -/
def badAccess (s : State) (kind addr : Nat) : State :=
  let s1 := s.incS Reg.HST_CNT_BADACC
  if s1.hst.badAcc then s1
  else (s1.setHst { s1.hst with badAcc := true }).log Ev.HST_PCIE_ERR noInst [.w (Config.causeCode 0x288 kind), .w addr]

def goodAccess (s : State) : State := s.setHst { s.hst with badAcc := false }

/-- A bit of the error status (R445): 12 poisoned data, 14 completion time-out, 16 unexpected completion, 20 unsupported request
(PRESUMED, log entry 65). -/
def aerNote (s : State) (bit : Nat) : State := s.setHst { s.hst with ep := { s.hst.ep with aer := setBitOf s.hst.ep.aer bit true } }

/-! ### Sessions' queues (R456, R460 to R464) -/

/-- The deadline of an entry in ns: its own, or the default of its opcode. -/
def Cmd.deadlineNs (c : Cmd) : Nat :=
  1000 * (if c.deadlineUs ≠ 0 && c.deadlineOk then c.deadlineUs else ((opDeadlines.find? (fun p => p.1 = c.op)).elim 10000 (·.2)))

/-- The entry at the head of session `n`'s command queue. -/
def readEntry (s : State) (n head : Nat) : Cmd :=
  let bytes := (s.inkRead (n * 0x4000 + head % 64 * 64) 64).map (·.toNat)
  let c : Cmd := { bytes := bytes, deadline := 0, sqHead := (head + 1) % 128, tries := 0, started := false, pull := false, asked := 0, reads := [] }
  { c with deadline := s.ltc + c.deadlineNs, pull := c.flags.testBit 1 }

/-- Entries are taken while the session holds a credit (R461). -/
def takeEntries (n : Nat) : Nat → State → State
  | 0, s => s
  | k + 1, s =>
    let head := s.f (Reg.HST_SESS_STAT_SQHEAD n)
    if head = s.f (Reg.HST_SESS_DB_TAIL n) || 64 ≤ (s.sess n).cmds.length + s.unconsumed n then s
    else
      let c := readEntry s n head
      let s1 := s.setSess n { s.sess n with cmds := (s.sess n).cmds ++ [c] }
      takeEntries n k ((s1.setF (Reg.HST_SESS_STAT_SQHEAD n) c.sqHead).noteInflight n)

/-- Entries are taken, the front of the queue settles, and the reads of pulls go out. -/
def serveQueue (s : State) (n : Nat) : State := issueReads 32 (settleHeads n 64 (takeEntries n 64 s))

/-- The number by which a session names its interface. -/
def ifCode (r : Requester) : Nat := if r = Requester.spi then 1 else 0

/-- The slot belongs to the other interface (R456). -/
def otherIf (s : State) (r : Requester) (n : Nat) : Bool := match (s.sess n).owner with | some o => o ≠ ifCode r | none => false

/-- A write of TAIL (R456, R461). -/
def doorbell (s : State) (r : Requester) (n tail : Nat) : State :=
  let x := s.sess n
  let t := tail % 128
  if otherIf s r n then s.incS Reg.HST_CNT_DB_ERR
  else if 64 < (t + 128 - s.f (Reg.HST_SESS_STAT_SQHEAD n)) % 128 then
    let s1 := s.incS Reg.HST_CNT_DB_ERR
    if x.dbErr then s1 else (s1.setSess n { x with dbErr := true }).log Ev.HST_DB_ERR n
  else
    let s1 := s.setSess n { x with owner := some (ifCode r), lastDb := s.ltc, dbErr := false }
    serveQueue (s1.setFs [(Reg.HST_SESS_DB_TAIL n, t), (Reg.HST_SESS_STAT_IF n, ifCode r)]) n

/-- A write of HEAD (R463): the completions before it are consumed, and their credits are free. -/
def completionDoorbell (s : State) (r : Requester) (n head : Nat) : State :=
  if otherIf s r n then s.incS Reg.HST_CNT_DB_ERR
  else
    let s1 := s.setSess n { s.sess n with lastDb := s.ltc }
    serveQueue ((s1.setF (Reg.HST_SESS_CQDB_HEAD n) head).noteInflight n) n

/-! ### Register writes (R13, R14, R451, R468) -/

/-- Bits that only a P0 session writes: RWP fields, and what R480 and R481 reserve to P0. -/
def rwpBits (a : Nat) (r : RegRow) : Nat := r.rwp ||| (if a = Reg.SEA_OWN_CTRL then 0xF else if a = Reg.SEA_VREV then 3 else 0)

/-- WO bits. -/
def woBits (a : Nat) : Nat :=
  if 0x21000 ≤ a && a < 0x23000 && a % 0x200 = 0 then 0x18
  else if a = Reg.PBI_SFP_XFER then 0x1000000
  else if a = Reg.STK_RESET || a = Reg.VEL_TRIG then 0xFFFF
  else if 0x121000 ≤ a && a < 0x121400 && a % 0x20 = 0xC then 1
  else if a = Reg.SYS_FLASH_CTRL then 2
  else if a = Reg.SEA_DBG then 0x400
  else 0

/-- A register in which a direct write finds nothing but fields of P0 sessions (R451). -/
def onlyRwp (a : Nat) (r : RegRow) : Bool := rwpBits a r ≠ 0 && r.rw = 0 && r.w1cBits = 0 && r.w1cFields = [] && woBits a = 0

/-- A write of an AFE register (R96 to R98, R108, R111): refused with an event, or taken; SWTRIG and RELOAD act. -/
def afeWrite (s : State) (a : Nat) (r : RegRow) (mask v : Nat) : State :=
  let n := if a < 0x23000 then (a - 0x21000) / 0x200 else if a < 0x24000 then (a - 0x23000) / 32 else (a - 0x24000) / 0x20
  let m := mask &&& r.rwp
  let new := merged (s.rd a) m v
  let s1 :=
    if m = 0 then s
    else if 0x21000 ≤ a && a < 0x23000 && 0x100 ≤ a % 0x200 && a % 0x200 < 0x180 then actWrite s n (a % 0x80 / 8) (a / 4 % 2) new
    else match afeRefusal s a new with
      | some e => s.log e n
      | none => s.wr a (if 0x21000 ≤ a && a < 0x23000 && 0x180 ≤ a % 0x200 then new &&& entryMask (a / 4 % 2) else new)
  if woBits a = 0 then s1
  else
    let ones := mask &&& v
    let s2 := if ones.testBit 3 then swTrigger s1 n else s1
    if ones.testBit 4 then reloadWrite s2 n else s2

/-- What a write of the bits in `mask` does in a register that the access may write. -/
def regEffect (s : State) (acc : Access) (a : Nat) (r : RegRow) (mask v : Nat) : State :=
  let q := accessReq s acc
  let sess : Option Nat := match acc with | .cmd n _ => some n | .direct _ => none | .jtag => none
  let ones := mask &&& v
  if a = Reg.SYS_CTRL then (match sess with | some n => sysCtrlWrite n (mask % 512) v s | none => s)
  else if a = Reg.DBG_GRANT then (match sess with | some n => if mask.testBit 0 then grantWrite n (v.testBit 0) s else s | none => s)
  else if a = Reg.SYS_FLASH_CTRL then flashCtrlWrite s acc mask v
  else if a = Reg.RUL_DOM_CFG 0 || a = Reg.RUL_DOM_CFG 1 then
    (if mask &&& r.rwp = 0 then s else domCfgWrite s ((a - Reg.RUL_DOM_CFG 0) / 0x40) false (merged (s.rd a) mask v))
  else if a = Reg.RUL_DOM_PORTS 0 || a = Reg.RUL_DOM_PORTS 1 then
    (if mask &&& r.rwp = 0 then s else domCfgWrite s ((a - Reg.RUL_DOM_PORTS 0) / 0x40) true (merged (s.rd a) mask v))
  else if a = Reg.RUL_DOM_HA_PHASE 0 || a = Reg.RUL_DOM_HA_PHASE 1 then
    (if mask &&& r.rwp = 0 then s else haPhase s ((a - Reg.RUL_DOM_HA_PHASE 0) / 0x40) (merged (s.rd a) mask v))
  else if a = Reg.RUL_DOM_HA_FREQ 0 || a = Reg.RUL_DOM_HA_FREQ 1 then
    (if mask &&& r.rwp = 0 then s else haFreq s ((a - Reg.RUL_DOM_HA_FREQ 0) / 0x40) (merged (s.rd a) mask v))
  else if a = Reg.RUL_CTRL then ctrlWritten (s.f Reg.RUL_CTRL_PREF) (plainWrite s a r mask v)
  else if a = Reg.RUL_ASYM_THR then rulSettle (plainWrite s a r mask v)
  else if a = Reg.RUL_PPS_OUT then ppsGate (plainWrite s a r mask v)
  else if 0x21000 ≤ a && a < 0x24200 && r.rwp ≠ 0 then afeWrite s a r mask v
  else if a = Reg.PBI_SFP_XFER then sfpWrite s (merged (s.rd a) (mask % 0x10000000) v)
  else if a = Reg.STK_FLT then pubAll (plainWrite s a r mask v)
  else if a = Reg.STK_RESET then stkResetWrite s (ones % 65536)
  else if a = Reg.VEL_TRIG then velTrigWrite s (ones % 65536)
  else if a = Reg.QIL_SLOT_SEL then slotSel s q (merged (s.shadowOf q a) mask v)
  else if 0x121000 ≤ a && a < 0x121400 && a % 0x20 = 0xC then
    let n := (a - 0x121000) / 0x20
    let s1 := if mask.testBit 1 then fioInhibit s n (v.testBit 1) else s
    if ones.testBit 0 then fioRetry s1 n else s1
  else if 0x120100 ≤ a && a < 0x120180 && a % 0x20 = 8 then (if ones.testBit 0 then fioAck s ((a - 0x120100) / 0x20) else s)
  else if a = Reg.SEA_OWN_CTRL then
    (if mask &&& 0xF = 0 then s else ownCtrlWrite (ones.testBit 2) (ones.testBit 3) (merged (s.f Reg.SEA_OWN_CTRL_SLOT) (mask % 4) v % 4) s)
  else if a = Reg.SEA_VREV then vrevWrite (ones % 4) s
  else if a = Reg.SEA_DBG then (if ones.testBit 10 then unlockEnds s 1 else s)
  else if 0x131000 ≤ a && a < 0x131100 && a % 0x10 = 0 then
    (if mask % 128 = 0 then s else doorbell s q ((a - 0x131000) / 0x10) (merged (s.rd a) mask v))
  else if 0x131000 ≤ a && a < 0x131100 && a % 0x10 = 4 then
    (if mask % 128 = 0 then s else completionDoorbell s q ((a - 0x131000) / 0x10) (merged (s.rd a) mask v))
  else plainWrite s a r mask v

/-- A word of the MSI-X table (R445); a message that was pending goes out when its vector is unmasked. -/
def msixWrite (s : State) (a mask v : Nat) : State :=
  let i := (a - 0x138000) / 16
  let k := (a - 0x138000) / 4 % 4
  let m := s.hst.msix.get i
  let w := merged (msixWord s a) mask v
  let m1 : Msix :=
    if 0x138200 ≤ a then m
    else if k = 0 then { m with addr := m.addr / 2 ^ 32 * 2 ^ 32 + w }
    else if k = 1 then { m with addr := w * 2 ^ 32 + m.addr % 2 ^ 32 }
    else if k = 2 then { m with data := w }
    else { m with unmasked := !w.testBit 0 }
  let s1 := s.setHst { s.hst with msix := s.hst.msix.set i m1 }
  if m1.pend then s1.msixSend i else s1

/-- A register write as the access codes allow it. In RESET, starts and FAULT_SAFE it is ignored (R434, R447). -/
def regWrite (s : State) (acc : Access) (a mask v : Nat) : State :=
  if !inkServed s then s
  else if inMsix a then msixWrite s a mask v
  else if noReg s a then s
  else
    match findRow a, acc with
    | some r, .direct q =>
      if onlyRwp a r || !directOpen s a then directRejected s a q
      else regEffect (directAccepted s) acc a r (mask &&& (0xFFFFFFFF - rwpBits a r)) v
    | some r, .cmd _ _ => regEffect s acc a r mask v
    | some _, .jtag => s
    | none, _ => s

/-! ### Configuration space (R445, R446) -/

/-- The function is reset: MSI-X and its configuration; its sessions close. -/
def pcieReset (s : State) : State :=
  let s1 := closeSessions s 1 (fun n => (s.sess n).owner = some 0)
  (s1.setHst { s1.hst with msix := [], cplValue := 0, ep := Endpoint.reset }).setB Reg.HST_STAT_MSIX false

/-- Bits `lo` to `hi - 1` of `w` replaced by those of `v`. -/
def bitsFrom (w lo hi v : Nat) : Nat := w % 2 ^ lo + (v % 2 ^ (hi - lo)) * 2 ^ lo + w / 2 ^ hi * 2 ^ hi

/-- A word of configuration space: what R445 gives, at the places of PCI Express Base 3.0 (PRESUMED, log entry 65). -/
def cfgWord (s : State) (a : Nat) : Nat :=
  let e := s.hst.ep
  let free := Config.endpointWord a % 2 ^ 32
  let pe := Config.capability 0
  let mx := Config.capability 1
  if a = 0 then s.f Reg.SYS_ID_PART * 65536 + 0x1EF7
  else if a = 0x08 then bitsFrom free 8 32 0x118000
  else if a = 0x0C then bitsFrom free 16 24 0
  else if a = 0x10 then e.bar0 % 2 ^ 32 / 2 ^ 24 * 2 ^ 24
  else if a = 0x18 then e.bar2 % 2 ^ 32 / 2 ^ 28 * 2 ^ 28 + 0xC
  else if a = 0x1C then e.bar2 / 2 ^ 32 % 2 ^ 32
  else if a = 0x14 || a = 0x20 || a = 0x24 || a = 0x30 then 0
  else if a = pe + 0x04 then bitsFrom (bitsFrom free 0 3 1) 28 29 1
  else if a = pe + 0x08 then bitsFrom (bitsFrom (bitsFrom free 5 8 e.mps) 12 15 e.mrrs) 15 16 0
  else if a = pe + 0x24 then bitsFrom free 0 5 3
  else if a = pe + 0x28 then bitsFrom free 0 5 s.hst.cplValue
  else if a = mx then bitsFrom (bitsFrom free 0 8 0x11) 16 32 (31 + 16384 * b2n e.msixMask + 32768 * b2n (s.on Reg.HST_STAT_MSIX))
  else if a = mx + 4 then 0x138000
  else if a = mx + 8 then 0x138200
  else if a = Config.capability 2 + 4 then e.aer
  else free

/-- A configuration read, while the link is up. -/
def cfgReadOut (s : State) (a : Nat) : State :=
  if s.on Reg.HST_STAT_LINK then s.setHst { s.hst with rdOut := [BitVec.ofNat 32 (cfgWord s (a / 4 * 4))] } else s

/-- MSI-X is enabled and masked as a write of Message Control says; messages that were pending go out. -/
def msixControl (s : State) (en mask : Bool) : State :=
  let s1 := s.setB Reg.HST_STAT_MSIX en
  let s2 := s1.setHst { s1.hst with ep := { s1.hst.ep with msixMask := mask } }
  (List.range 32).foldl (fun t v => if (t.hst.msix.get v).pend then t.msixSend v else t) s2

/-- A word written to configuration space. -/
def cfgPut (s : State) (a w : Nat) : State :=
  let e := s.hst.ep
  let put := fun (x : Endpoint) => s.setHst { s.hst with ep := x }
  let pe := Config.capability 0
  if a = 0x10 then put { e with bar0 := w / 2 ^ 24 * 2 ^ 24 }
  else if a = 0x18 then put { e with bar2 := e.bar2 / 2 ^ 32 * 2 ^ 32 + w / 2 ^ 28 * 2 ^ 28 }
  else if a = 0x1C then put { e with bar2 := w * 2 ^ 32 + e.bar2 % 2 ^ 32 }
  else if a = pe + 0x08 then
    (if w.testBit 15 then pcieReset s
     else put { e with mps := (if w / 2 ^ 5 % 8 ≤ 1 then w / 2 ^ 5 % 8 else e.mps), mrrs := (if w / 2 ^ 12 % 8 ≤ 5 then w / 2 ^ 12 % 8 else e.mrrs) })
  else if a = pe + 0x28 then s.setHst { s.hst with cplValue := w % 16 }
  else if a = Config.capability 1 then msixControl s (w.testBit 31) (w.testBit 30)
  else if a = Config.capability 2 + 4 then put { e with aer := e.aer &&& (0xFFFFFFFF - w) }
  else s

/-- A configuration write of `bytes` bytes at `addr`, inside one word, while the link is up: the word's other bytes keep what it held, and
those of a status that clears where 1 is written take 0. -/
def cfgWrite (s : State) (addr bytes v : Nat) : State :=
  let a := addr / 4 * 4
  let lo := 8 * (addr % 4)
  let old := if a = Config.capability 2 + 4 then 0 else cfgWord s a
  if s.on Reg.HST_STAT_LINK && decide (1 ≤ bytes) && decide (addr % 4 + bytes ≤ 4) then cfgPut s a (bitsFrom old lo (lo + 8 * bytes) v) else s

/-! ### The Inkwell area (R449) -/

/-- Part of the area that holds a byte: true where the host may write, false where it is RO, none where nothing stands. -/
def inkPart (o : Nat) : Option Bool :=
  if o < 0x40000 then
    let b := o % 0x4000
    if b < 0x1000 then some true else if b < 0x1800 then some false
    else if 0x2000 ≤ b && b < 0x2020 then some false else if 0x2100 ≤ b && b < 0x2A74 then some true else none
  else if o < 0x46000 then some false
  else if 0x48000 ≤ o && o < 0x50400 then some true
  else if 0x60000 ≤ o && o < 0xE0000 then some false
  else if 0xE0000 ≤ o && o < 0x160000 then (if o % 0x10000 < 0x4000 then some false else if o % 0x10000 < 0x8008 then some true else none)
  else if 0x160000 ≤ o && o < 0x200000 then some false
  else none

/-- A 32-bit write of the area. -/
def inkHostWrite (s : State) (o v : Nat) : State :=
  if !inkServed s then s
  else match inkPart o with
    | some true => s.inkWrite o (leBytes 4 v)
    | some false => s.incS Reg.HST_CNT_BADACC
    | none => s

/-- A 32-bit word written to BAR0 by a port. -/
def portWrite (s : State) (r : Requester) (a v : Nat) : State :=
  if 0x800000 ≤ a && a < 0xA00000 then inkHostWrite s (a - 0x800000) v else if a < 0x800000 then regWrite s (.direct r) a 0xFFFFFFFF v else s

/-- A 32-bit word read from BAR0 by a port (R433, R434, R447). -/
def portRead (s : State) (r : Requester) (a : Nat) : Nat × State :=
  if a < 0x800000 then (if readServed s a then readReg s r a else (0, s))
  else if a < 0xA00000 && inkServed s then (s.inkNat (a - 0x800000) 4, s)
  else (0, s)

/-- REGISTER_WRITE: an access of 4 or 8 bytes, low word first (R450, R451). -/
def registerWrite (s : State) (r : Requester) (addr bytes : Nat) (v : Nat) : State :=
  if r = Requester.cfg then cfgWrite s addr bytes v
  else if r = Requester.sup || !inkServed s then s
  else if (bytes ≠ 4 && bytes ≠ 8) || addr % bytes ≠ 0 then badAccess s 1 addr
  else
    let s1 := portWrite (goodAccess s) r addr (v % 2 ^ 32)
    if bytes = 8 then portWrite s1 r (addr + 4) (v / 2 ^ 32 % 2 ^ 32) else s1

/-- The word at an address of BAR0 as a read finds it. -/
def busWord (s : State) (r : Requester) (a : Nat) : Nat :=
  if a < 0x800000 then (if r = Requester.sup || readServed s a then viewReg s r a else 0)
  else if a < 0xA00000 && inkServed s then s.inkNat (a - 0x800000) 4
  else 0

/-- A read over PCIe that is not a naturally aligned access of 4 or 8 bytes (R450). -/
def illRead (r : Requester) (a bytes : Nat) : Bool := r = Requester.pcie && ((bytes ≠ 4 && bytes ≠ 8) || a % bytes ≠ 0)

/-- DTC_SNAPSHOT_READ and LOW_WORD_READ: a read of one word, or with the word above it from the same instant by a 64-bit read of
PCIe (R57, R58); a 64-bit read latches what the read of its low word latches (DEDUCED, log entry 51). An ill-formed read completes with
Unsupported Request and returns nothing. -/
def busRead (s : State) (r : Requester) (a bytes : Nat) : State :=
  if r = Requester.cfg then cfgReadOut s a
  else if illRead r a bytes then
    let t := if inkServed s then aerNote (badAccess s 0 a) 20 else s
    t.setHst { t.hst with rdOut := [] }
  else
    let t := readLatch s r a
    let word := fun (k : Nat) => BitVec.ofNat 32 (busWord t r k)
    t.setHst { t.hst with rdOut := word a :: (if bytes = 8 && r = Requester.pcie then [word (a + 4)] else []) }

/-! ### SPI (R453) -/

def spiReadWords : Nat → Nat → State → List Word × State
  | 0, _, s => ([], s)
  | k + 1, a, s =>
    let p := portRead s Requester.spi a
    let q := spiReadWords k (a + 4) p.2
    (BitVec.ofNat 32 p.1 :: q.1, q.2)

def spiWriteWords : List Word → Nat → State → State
  | [], _, s => s
  | w :: t, a, s => spiWriteWords t (a + 4) (portWrite s Requester.spi a w.toNat)

/-- A transaction: command word, then as many data frames as the host clocked. HSPI_MISO carries the status word, on a read a wait
frame and the data; a write cut short is refused. In RESET the port ignores it, with HSPI_MISO at high impedance (R522). -/
def spiTransaction (s : State) (cmd : Word) (data : List Word) : State :=
  if s.sysState = 0 then s.setHst { s.hst with spiOut := [] } else
  let n := (cmd.toNat / 2 ^ 25) % 64 + 1
  let a := cmd.toNat % 2 ^ 24 / 4 * 4
  let status := BitVec.ofNat 32 (0xA5000000 + 2 * b2n (!s.intN) + b2n s.hst.spiRefused)
  if cmd.getLsbD 31 then
    let p := spiReadWords n a s
    p.2.setHst { p.2.hst with spiRefused := false, spiOut := status :: 0#32 :: p.1 }
  else if data.length < n then s.setHst { s.hst with spiRefused := true, spiOut := [status] }
  else
    let t := spiWriteWords (data.take n) a s
    t.setHst { t.hst with spiRefused := false, spiOut := [status] }

/-! ### BAR2 (R452) -/

/-- A byte of DRAM as a reader of the aperture sees it; the layout of the staging region is not in the spec (log entry 9). -/
def dramByte (s : State) (a : Nat) : Byte :=
  if a < dramBase s 17 then velByte s a
  else if a < dramBase s 18 then twRingByte s (a - dramBase s 17)
  else if a < dramBase s 19 then Config.layoutByte 0x12 (a - dramBase s 18)
  else s.hst.dram.get a

/-- A word of the aperture. -/
def bar2Word (s : State) (off : Nat) : Word :=
  let a := s.f Reg.HST_BAR2_WIN_BASE * 1048576 + off
  if dramBase s 20 ≤ a then 0xFFFFFFFF#32 else BitVec.ofNat 32 (leNat ((List.range 4).map (fun i => dramByte s (a + i))))

/-- BAR2_READ: up to 64 bits; an uncorrectable word poisons the completion. Where Inkwell is not served nothing is read: 0 in
FAULT_SAFE (R434), a free value in RESET and in starts. -/
def bar2Read (s : State) (off words : Nat) (c : Ecc) : State :=
  if 2 < words || words = 0 then
    let t := if inkServed s then aerNote (badAccess s 0 off) 20 else s
    t.setHst { t.hst with bar2Out := [], bar2Poison := false }
  else if !inkServed s then
    let ws := (List.range words).map (fun i => if s.sysState = 6 then 0#32 else Config.freeWord (s.freeCtr + i))
    { s with freeCtr := s.freeCtr + words, hst := { s.hst with bar2Out := ws, bar2Poison := false } }
  else
    let s1 := memRead (goodAccess s) c
    let bad := s.lost c
    let ws := (List.range words).map (fun i => if bad then 0xFFFFFFFF#32 else bar2Word s (off + 4 * i))
    s1.setHst { s1.hst with bar2Out := ws, bar2Poison := bad }

/-- BAR2_WRITE: dropped; one wider than 64 bits is ill-formed too (R450). -/
def bar2Write (s : State) (w : ApertureWrite) : State :=
  if inkServed s then (if 8 < w.bytes then badAccess s 1 w.off else goodAccess s).incS Reg.HST_CNT_BAR2_WR else s

/-! ### The PCIe link (R446) -/

/-- The link is lost. -/
def pcieLinkLost (s : State) : State :=
  if s.on Reg.HST_STAT_LINK then
    (s.setFs [(Reg.HST_STAT_LINK, 0), (Reg.HST_STAT_SPEED, 0), (Reg.HST_STAT_WIDTH, 0)]).log Ev.HST_PCIE_LINK_DOWN
  else s

/-- PERST_N_FALL. -/
def perstFall (s : State) : State := pcieReset (pcieLinkLost (s.setHst { s.hst with perstN := false }))

/-- HST_PCIE_LINK_DOWN. -/
def pcieDown (s : State) : State :=
  if s.on Reg.HST_STAT_LINK then closeSessions (pcieLinkLost s) 1 (fun n => (s.sess n).owner = some 0) else s

/-- HST_PCIE_LINK_UP: PERST_N is high; SPEED and WIDTH as HST_STAT codes them. -/
def pcieUp (s : State) (speed width : Nat) : State :=
  if s.sysState = 0 || s.on Reg.HST_STAT_LINK || speed = 0 || 3 < speed || width = 0 || 2 < width then s
  else
    ((s.setHst { s.hst with perstN := true }).setFs [(Reg.HST_STAT_LINK, 1), (Reg.HST_STAT_SPEED, speed), (Reg.HST_STAT_WIDTH, width)]).log
      Ev.HST_PCIE_LINK_UP noInst [.w speed, .w width]

/-! ### Meanings -/

def execDtcSnapshotRead (r : RegRead) (s : State) : Host.Outcome State Fault Refusal :=
  .next (busRead s r.who Reg.RUL_DTC_NS r.bytes)

def execLowWordRead (r : RegRead) (addr : Nat) (s : State) : Host.Outcome State Fault Refusal :=
  .next (busRead s r.who addr r.bytes)

def execPerstNFall (s : State) : Host.Outcome State Fault Refusal := .next (perstFall s)

def execHstPcieLinkUp (speed width : Nat) (s : State) : Host.Outcome State Fault Refusal := .next (pcieUp s speed width)

def execHstPcieLinkDown (s : State) : Host.Outcome State Fault Refusal := .next (pcieDown s)

def execPcieHotReset (s : State) : Host.Outcome State Fault Refusal := .next (pcieReset s)

def execRegisterWrite (r : Requester) (addr bytes : Nat) (v : BitVec 64) (s : State) : Host.Outcome State Fault Refusal :=
  .next (registerWrite s r addr bytes v.toNat)

def execBar2Read (off words : Nat) (c : Ecc) (s : State) : Host.Outcome State Fault Refusal := .next (bar2Read s off words c)

def execBar2Write (w : ApertureWrite) (s : State) : Host.Outcome State Fault Refusal := .next (bar2Write s w)

def execSpiTransaction (cmd : Word) (data : List Word) (s : State) : Host.Outcome State Fault Refusal := .next (spiTransaction s cmd data)

def execDoorbell (r : Requester) (sess : Fin 16) (tail : Word) (s : State) : Host.Outcome State Fault Refusal :=
  .next (if r = Requester.sup || r = Requester.cfg || !inkServed s then s else doorbell (directAccepted s) r sess tail.toNat)

def execCompletionDoorbell (r : Requester) (sess : Fin 16) (head : Word) (s : State) : Host.Outcome State Fault Refusal :=
  .next (if r = Requester.sup || r = Requester.cfg || !inkServed s then s else completionDoorbell (directAccepted s) r sess head.toNat)

end Sys2Proof.Machine
end

