-- ==== Sys2Proof/Machine/Session.lean ====
section
/-! DEFINITION. The commands of the sessions that this chapter owns (spec/14 R457 to R469), pulls and deadlines. -/

namespace Sys2Proof.Machine

/-- HELLO (R457). -/
def helloBody (n : Nat) (s : State) (c : Cmd) : CmdOut :=
  let offer := c.arg 0 1
  if offer = 0 then refuse s stVERSION
  else if s.f (Reg.HST_SESS_STAT_STATE n) ≠ 0 then refuse s stSTATE
  else
    let ver := min offer 3
    okay (s.setFs [(Reg.HST_SESS_STAT_STATE n, 1), (Reg.HST_SESS_STAT_VER n, ver)])
      [ver, s.f Reg.SYS_ID_VARIANT + 16 * s.f (Reg.HST_SESS_STAT_IF n)]

/-- SESSION_CLOSE (R459, R462): its completion is the last; on a FREE slot there is nothing to close. -/
def sessionClose (s : State) (n : Nat) : State :=
  match nextCmd s n with
  | some c =>
    if c.op = 0x03 && inkServed s then
      let s1 := markStarted s n c
      match headerStatus s n c with
      | some st => post s1 n c st []
      | none => if s.f (Reg.HST_SESS_STAT_STATE n) = 0 then post s1 n c stSTATE [] else closeSession (postOne s1 n c stOK []) n 0
    else s
  | none => s

/-! ### READ_REG and WRITE_REG (R468) -/

/-- ADDR names `count` words inside one register block, and the bytes that both commands reserve are 0. -/
def regArgsOk (c : Cmd) (count : Nat) : Bool :=
  let a := c.arg 0 4
  a % 4 = 0 && inBlock a && decide ((a + 4 * (count - 1)) / 0x10000 = a / 0x10000) && c.zero 5 8 && c.zero 16 32

/-- Words of consecutive registers, in turn. -/
def readWords (r : Requester) : Nat → Nat → State → List Nat × State
  | 0, _, s => ([], s)
  | k + 1, a, s =>
    let p := readReg s r a
    let q := readWords r k (a + 4) p.2
    (p.1 :: q.1, q.2)

def readRegBody (n : Nat) (s : State) (c : Cmd) : CmdOut :=
  let count := c.arg 4 1
  if count = 0 || 4 < count || !regArgsOk c count then refuse s stARG
  else
    let p := readWords (accessReq s (.cmd (Fin.ofNat 16 n) 0)) count (c.arg 0 4) s
    okay p.2 p.1

/-- A P1 session may not touch an RWP field. -/
def writeReserved (s : State) (a mask : Nat) : Bool :=
  match findRow a with
  | some r => !noReg s a && mask &&& rwpBits a r ≠ 0
  | none => false

def writeRegBody (n : Fin 16) (s : State) (c : Cmd) : CmdOut :=
  let a := c.arg 0 4
  let mask := c.arg 12 4
  if s.level n = 2 then refuse s stPRIV
  else if c.arg 4 1 ≠ 0 || !regArgsOk c 1 then refuse s stARG
  else if s.level n ≠ 0 && writeReserved s a mask then refuse s stPRIV
  else okay (regWrite s (.cmd n (s.level n)) a mask (c.arg 8 4))

/-! ### MODE_SET (R46, R469) -/

/-- Instances of a function that the variant has. -/
def modeInstances (s : State) (fn : Nat) : Nat :=
  if fn = 1 then 192 else if fn = 2 then 64 else if fn = 3 then 2 else if fn = 4 then contexts s else if fn = 5 then 8 else if fn ≤ 8 then 1 else 0

/-- The mode in force: true host-assisted. -/
def modeInForce (s : State) (fn inst : Nat) : Bool :=
  if fn = 1 then s.on (Reg.PBI_SC_CFG_HA inst)
  else if fn = 2 then s.on (Reg.PBI_GS_CFG_HA inst)
  else if fn = 3 then s.on (Reg.RUL_DOM_CFG_HA inst)
  else if fn = 4 then decide ((s.nc inst).svc = 3)
  else if fn = 5 then s.on (Reg.QIL_T_CFG_HA inst)
  else if fn = 6 then s.hst.haExport
  else if fn = 7 then s.hst.haAttest
  else s.hst.haField

def modeSetBody (n : Nat) (s : State) (c : Cmd) : CmdOut :=
  let fn := c.arg 0 1
  let ha := decide (c.arg 1 1 = 1)
  let inst := c.arg 2 2
  if s.level n ≠ 0 then refuse s stPRIV
  else if fn = 0 || 8 < fn || 1 < c.arg 1 1 || modeInstances s fn ≤ inst || !c.zero 4 32 then refuse s stARG
  else if (modePending s fn inst).isSome then refuse s stSTATE
  else if fn = 4 && ((s.nc inst).svc = 0 || (s.nc inst).svc = 2) then refuse s stSTATE
  else if modeInForce s fn inst = ha then okay s
  else goesOn (s.setSys { s.sys with modePend := s.sys.modePend ++ [⟨fn, inst, ha, n, c.sqHead⟩] })

/-! ### Idle close (R459) -/

/-- SESSION_IDLE_TIMEOUT: SESS_TMO seconds without a doorbell. -/
def sessionIdle (s : State) (n : Nat) : State :=
  let tmo := s.f Reg.HST_CFG_SESS_TMO
  if tmo ≠ 0 && s.f (Reg.HST_SESS_STAT_STATE n) ≠ 0 && decide ((s.sess n).lastDb + tmo * 1000000000 ≤ s.ltc) then closeSession s n 3 else s

/-! ### Pulls (R464 to R466) -/

/-- The read that a completion for the byte at `off` belongs to; the completions of one read come in the order of their bytes. -/
def Cmd.readAt (c : Cmd) (off : Nat) : Option PullRead := c.reads.find? (fun r => r.off + r.got = off)

/-- The command after `k` bytes more of a read have arrived: a read that is complete gives its tag back, the last one ends the pull. -/
def Cmd.received (c : Cmd) (r : PullRead) (k : Nat) : Cmd :=
  let reads := if r.got + k < r.len then c.reads.map (fun x => if x.off = r.off then { x with got := r.got + k } else x)
    else c.reads.filter (fun x => x.off ≠ r.off)
  { c with reads := reads, pull := decide (c.asked < c.plen) || !reads.isEmpty }

/-- HST_PCIE_ERR of a failed pull, once per episode (R474); a pull that goes well ends the episode. -/
def pullFails (s : State) (kind addr : Nat) : State :=
  if s.hst.pullErr then s
  else (s.setHst { s.hst with pullErr := true }).log Ev.HST_PCIE_ERR noInst [.w (Config.causeCode 0x288 kind), .w addr]

/-- PULL_READ_COMPLETION: data enter the host bulk region at PDST; a status or poison ends the pull. A completion that belongs to no read
is none of the pull's. -/
def pullDone (s : State) (n : Nat) (p : ReadCpl) (data : List Byte) : State :=
  match pulling s n with
  | some c =>
    match c.readAt p.off with
    | some r =>
      if p.status = 0 then
        let d := data.take (r.len - r.got)
        let s1 := s.dramWrite (bulkAddr s (c.pdst + p.off)) d
        issueReads 32 (settleHeads n 64 (putCmd (s1.setHst { s1.hst with pullErr := false }) n (c.received r d.length)))
      else if p.status = 1 then issueReads 32 (post (pullFails (s.incS Reg.HST_PCIE_CNT_CPL_ERR) 2 (c.paddr + p.off)) n c stARG [])
      else issueReads 32 (post (pullFails (aerNote (s.incS Reg.HST_PCIE_CNT_POISON) 12) 3 (c.paddr + p.off)) n c stINTEGRITY [])
    | none => aerNote s 16
  | none => aerNote s 16

/-- Completion time-out in ns by the value in Device Control 2 (R445). -/
def cplNs (v : Nat) : Nat := if v = 1 then 100000 else if v = 2 then 10000000 else if v = 5 then 55000000 else if v = 6 then 210000000 else 50000000

/-- The first read issued by `due` is issued again, whole, at `now`. -/
def reissue (due now : Nat) : List PullRead → List PullRead
  | [] => []
  | r :: l => if r.at' ≤ due then { r with got := 0, at' := now } :: l else r :: reissue due now l

/-- CPL_TIMEOUT: the completion of a read has timed out, and it is reissued while the command's deadline runs. -/
def cplTimeout (s : State) (n : Nat) : State :=
  match pulling s n with
  | some c =>
    if c.reads.any (fun r => r.at' + cplNs s.hst.cplValue ≤ s.ltc) then
      aerNote ((putCmd s n { c with tries := c.tries + 1, reads := reissue (s.ltc - cplNs s.hst.cplValue) s.ltc c.reads }).incW Reg.HST_PCIE_CNT_CPL_TO) 14
    else s
  | none => s

/-- A command has not taken effect yet (R310, R464): it has not started, or waits for its switch, its load or the Seal unit. -/
def unaffected (s : State) (n : Nat) (c : Cmd) : Bool :=
  let mine := fun (sess head : Nat) => decide (sess = n) && decide (head = c.sqHead)
  !c.started || (match s.qil.sw with | some w => w.mode = 0 && mine w.sess w.head | none => false) ||
    (match s.qil.load with | some l => mine l.sess l.head | none => false) || s.sea.jobs.any (fun j => mine j.sess j.head)

/-- What the command had asked for is dropped. -/
def dropAsked (s : State) (n : Nat) (c : Cmd) : State :=
  let mine := fun (sess head : Nat) => decide (sess = n) && decide (head = c.sqHead)
  let s1 := match s.qil.sw with
    | some w => if mine w.sess w.head then (s.setQil { s.qil with sw := none }).setB Reg.QIL_STAT_SW_PEND false else s
    | none => s
  let s2 := match s1.qil.load with
    | some l => if mine l.sess l.head then (hashDone (s1.setQil { s1.qil with load := none }) 0).setB Reg.QIL_STAT_LOAD_BUSY false else s1
    | none => s1
  sealCancel s2 n c.sqHead

/-- HST_CMD_TIMEOUT (R464). -/
def cmdTimeout (s : State) (n cid : Nat) : State :=
  match (s.sess n).cmds.find? (fun c => c.cid = cid && decide (c.deadline ≤ s.ltc) && unaffected s n c) with
  | some c =>
    if inkServed s then
      let s1 := if c.started then dropAsked s n c else s
      issueReads 32 (post (s1.log Ev.HST_CMD_TIMEOUT n [.w c.op, .w c.cid, .w c.tries]) n c stTIMEOUT [])
    else s
  | none => s

/-- ALL_IDLE_TIMEOUT (R309): no all-idle instant within 100 ms of a MODE 0 switch. -/
def allIdleTimeout (s : State) : State :=
  match s.qil.sw with
  | some w =>
    if w.mode = 0 && decide (w.at' + 100000000 ≤ s.ltc) then
      postHead ((s.setQil { s.qil with sw := none }).setB Reg.QIL_STAT_SW_PEND false) w.sess w.head stTIMEOUT []
    else s
  | none => s

/-! ### Meanings -/

def execHello (sess : Fin 16) (s : State) : Host.Outcome State Fault Refusal := .next (runCmd s sess 0x01 (helloBody sess))

def execSessionClose (sess : Fin 16) (s : State) : Host.Outcome State Fault Refusal := .next (sessionClose s sess)

def execReadReg (sess : Fin 16) (s : State) : Host.Outcome State Fault Refusal := .next (runCmd s sess 0x04 (readRegBody sess))

def execWriteReg (sess : Fin 16) (s : State) : Host.Outcome State Fault Refusal := .next (runCmd s sess 0x05 (writeRegBody sess))

def execModeSet (sess : Fin 16) (s : State) : Host.Outcome State Fault Refusal := .next (runCmd s sess 0x06 (modeSetBody sess))

def execSessionIdleTimeout (sess : Fin 16) (s : State) : Host.Outcome State Fault Refusal := .next (sessionIdle s sess)

def execPullReadCompletion (sess : Fin 16) (c : ReadCpl) (data : List Byte) (s : State) : Host.Outcome State Fault Refusal :=
  .next (pullDone s sess c data)

def execCplTimeout (sess : Fin 16) (s : State) : Host.Outcome State Fault Refusal := .next (cplTimeout s sess)

def execHstCmdTimeout (sess : Fin 16) (cid : Nat) (s : State) : Host.Outcome State Fault Refusal := .next (cmdTimeout s sess cid)

def execAllIdleTimeout (s : State) : Host.Outcome State Fault Refusal := .next (allIdleTimeout s)

end Sys2Proof.Machine
end

