-- ==== Sys2Proof/Machine/Dispatch.lean ====
section
/-! DEFINITION. One arm per command: the command's effect on everything but the queue. -/

namespace Sys2Proof.Machine

def exec (i : Instr) (s : State) : Host.Outcome State Fault Refusal :=
  match i with
  | .paceWindowEnd p => Sys2Proof.Machine.execPaceWindowEnd p s
  | .creditReturn q i1 => Sys2Proof.Machine.execCreditReturn q i1 s
  | .sampleSetComplete sc => Sys2Proof.Machine.execSampleSetComplete sc s
  | .evaluationDispatch e settings state => Sys2Proof.Machine.execEvaluationDispatch e settings state s
  | .evaluationComplete e => Sys2Proof.Machine.execEvaluationComplete e s
  | .outputLogicFlit e => Sys2Proof.Machine.execOutputLogicFlit e s
  | .haResignal ctx => Sys2Proof.Machine.execHaResignal ctx s
  | .haFallback ctx => Sys2Proof.Machine.execHaFallback ctx s
  | .assertCmd sess => Sys2Proof.Machine.execAssertCmd sess s
  | .haWordApply e => Sys2Proof.Machine.execHaWordApply e s
  | .twdetUnconfirmed ctx => Sys2Proof.Machine.execTwdetUnconfirmed ctx s
  | .twdetHoldEnd ctx => Sys2Proof.Machine.execTwdetHoldEnd ctx s
  | .twlocStampDelivery dl => Sys2Proof.Machine.execTwlocStampDelivery dl s
  | .twlocUnlock ctx => Sys2Proof.Machine.execTwlocUnlock ctx s
  | .contextSettingsSwitch ctx => Sys2Proof.Machine.execContextSettingsSwitch ctx s
  | .syncReceived => Sys2Proof.Machine.execSyncReceived s
  | .followUpReceived => Sys2Proof.Machine.execFollowUpReceived s
  | .domainRevert => Sys2Proof.Machine.execDomainRevert s
  | .announceReceived => Sys2Proof.Machine.execAnnounceReceived s
  | .announceReceiptTimeout d => Sys2Proof.Machine.execAnnounceReceiptTimeout d s
  | .syncMissingTimeout d => Sys2Proof.Machine.execSyncMissingTimeout d s
  | .pdelayReqSend port => Sys2Proof.Machine.execPdelayReqSend port s
  | .pdelayReqReceived => Sys2Proof.Machine.execPdelayReqReceived s
  | .pdelayRespReceived => Sys2Proof.Machine.execPdelayRespReceived s
  | .suspectHoldEnd d => Sys2Proof.Machine.execSuspectHoldEnd d s
  | .hostServoTimeout d => Sys2Proof.Machine.execHostServoTimeout d s
  | .rulDomHaPhaseWrite a d v => Sys2Proof.Machine.execRulDomHaPhaseWrite a d v s
  | .rulDomCfgWrite a d ports v => Sys2Proof.Machine.execRulDomCfgWrite a d ports v s
  | .refLost => Sys2Proof.Machine.execRefLost s
  | .refRestored => Sys2Proof.Machine.execRefRestored s
  | .timeStepAllow sess => Sys2Proof.Machine.execTimeStepAllow sess s
  | .stepGrantExpired d => Sys2Proof.Machine.execStepGrantExpired d s
  | .irigbFrame fmt day sec year => Sys2Proof.Machine.execIrigbFrame fmt day sec year s
  | .ppsInEdge => Sys2Proof.Machine.execPpsInEdge s
  | .ppsOutRise => Sys2Proof.Machine.execPpsOutRise s
  | .ppsOutFall => Sys2Proof.Machine.execPpsOutFall s
  | .tqChange => Sys2Proof.Machine.execTqChange s
  | .dtcSlewEnd => Sys2Proof.Machine.execDtcSlewEnd s
  | .dtcSnapshotRead r => Sys2Proof.Machine.execDtcSnapshotRead r s
  | .lowWordRead r addr => Sys2Proof.Machine.execLowWordRead r addr s
  | .qilSlotSelWrite a v => Sys2Proof.Machine.execQilSlotSelWrite a v s
  | .sampleTick => Sys2Proof.Machine.execSampleTick s
  | .swtrig a n => Sys2Proof.Machine.execSwtrig a n s
  | .reload a n => Sys2Proof.Machine.execReload a n s
  | .afeActWrite a n e w v => Sys2Proof.Machine.execAfeActWrite a n e w v s
  | .afeWdSrcWrite a n v => Sys2Proof.Machine.execAfeWdSrcWrite a n v s
  | .conversionComplete n vin => Sys2Proof.Machine.execConversionComplete n vin s
  | .streamWindowClose n => Sys2Proof.Machine.execStreamWindowClose n s
  | .comparatorCrossing i1 above => Sys2Proof.Machine.execComparatorCrossing i1 above s
  | .urgentConversionComplete n vin => Sys2Proof.Machine.execUrgentConversionComplete n vin s
  | .wavefrontEvent n => Sys2Proof.Machine.execWavefrontEvent n s
  | .portLinkDown p l => Sys2Proof.Machine.execPortLinkDown p l s
  | .portLinkUp p gigabit => Sys2Proof.Machine.execPortLinkUp p gigabit s
  | .frameReceived p f => Sys2Proof.Machine.execFrameReceived p f s
  | .frameForward p => Sys2Proof.Machine.execFrameForward p s
  | .frameTxStart p => Sys2Proof.Machine.execFrameTxStart p s
  | .svDecode => Sys2Proof.Machine.execSvDecode s
  | .svMissingDeadline sc => Sys2Proof.Machine.execSvMissingDeadline sc s
  | .svWaitingDeadline sc => Sys2Proof.Machine.execSvWaitingDeadline sc s
  | .gooseDecode => Sys2Proof.Machine.execGooseDecode s
  | .gooseStale gs => Sys2Proof.Machine.execGooseStale gs s
  | .gooseHostEntryTake gs => Sys2Proof.Machine.execGooseHostEntryTake gs s
  | .prpSupervisionSend pair => Sys2Proof.Machine.execPrpSupervisionSend pair s
  | .sfpXferStart a v => Sys2Proof.Machine.execSfpXferStart a v s
  | .sfpXferDone nack data => Sys2Proof.Machine.execSfpXferDone nack data s
  | .strokeUpdate src => Sys2Proof.Machine.execStrokeUpdate src s
  | .stkTminEnd n => Sys2Proof.Machine.execStkTminEnd n s
  | .stkCurrentGone n => Sys2Proof.Machine.execStkCurrentGone n s
  | .stkCgTimeout n => Sys2Proof.Machine.execStkCgTimeout n s
  | .stkReset a v => Sys2Proof.Machine.execStkReset a v s
  | .feedbackLevelCount n level => Sys2Proof.Machine.execFeedbackLevelCount n level s
  | .stkFbNorise n => Sys2Proof.Machine.execStkFbNorise n s
  | .stkFbRest n => Sys2Proof.Machine.execStkFbRest n s
  | .stkTest sess => Sys2Proof.Machine.execStkTest sess s
  | .testPulseEnd n => Sys2Proof.Machine.execTestPulseEnd n s
  | .publicationRequest i1 => Sys2Proof.Machine.execPublicationRequest i1 s
  | .taskRelease t => Sys2Proof.Machine.execTaskRelease t s
  | .taskStart t prog => Sys2Proof.Machine.execTaskStart t prog s
  | .nop x => Sys2Proof.Machine.execNop x s
  | .ldb b => Sys2Proof.Machine.execLdb b s
  | .andb b => Sys2Proof.Machine.execAndb b s
  | .orb b => Sys2Proof.Machine.execOrb b s
  | .xorb b => Sys2Proof.Machine.execXorb b s
  | .stb b => Sys2Proof.Machine.execStb b s
  | .setb b => Sys2Proof.Machine.execSetb b s
  | .rstb b => Sys2Proof.Machine.execRstb b s
  | .notl x => Sys2Proof.Machine.execNotl x s
  | .pushl x => Sys2Proof.Machine.execPushl x s
  | .popa x => Sys2Proof.Machine.execPopa x s
  | .popo x => Sys2Proof.Machine.execPopo x s
  | .rtrg x => Sys2Proof.Machine.execRtrg x s
  | .ftrg x => Sys2Proof.Machine.execFtrg x s
  | .lrw x => Sys2Proof.Machine.execLrw x s
  | .wlr x => Sys2Proof.Machine.execWlr x s
  | .ldw x c => Sys2Proof.Machine.execLdw x c s
  | .stw x c => Sys2Proof.Machine.execStw x c s
  | .ldi x => Sys2Proof.Machine.execLdi x s
  | .lui x => Sys2Proof.Machine.execLui x s
  | .add x => Sys2Proof.Machine.execAdd x s
  | .sub x => Sys2Proof.Machine.execSub x s
  | .mul x => Sys2Proof.Machine.execMul x s
  | .divs x => Sys2Proof.Machine.execDivs x s
  | .rems x => Sys2Proof.Machine.execRems x s
  | .and x => Sys2Proof.Machine.execAnd x s
  | .or x => Sys2Proof.Machine.execOr x s
  | .xor x => Sys2Proof.Machine.execXor x s
  | .shl x => Sys2Proof.Machine.execShl x s
  | .shr x => Sys2Proof.Machine.execShr x s
  | .asr x => Sys2Proof.Machine.execAsr x s
  | .addi x => Sys2Proof.Machine.execAddi x s
  | .andi x => Sys2Proof.Machine.execAndi x s
  | .ori x => Sys2Proof.Machine.execOri x s
  | .fadd x => Sys2Proof.Machine.execFadd x s
  | .fsub x => Sys2Proof.Machine.execFsub x s
  | .fmul x => Sys2Proof.Machine.execFmul x s
  | .fdiv x => Sys2Proof.Machine.execFdiv x s
  | .itof x => Sys2Proof.Machine.execItof x s
  | .ftoi x => Sys2Proof.Machine.execFtoi x s
  | .cmp x => Sys2Proof.Machine.execCmp x s
  | .fcmp x => Sys2Proof.Machine.execFcmp x s
  | .jmp x => Sys2Proof.Machine.execJmp x s
  | .jc x => Sys2Proof.Machine.execJc x s
  | .jnc x => Sys2Proof.Machine.execJnc x s
  | .call x => Sys2Proof.Machine.execCall x s
  | .ret x => Sys2Proof.Machine.execRet x s
  | .endRun x => Sys2Proof.Machine.execEndRun x s
  | .ton x => Sys2Proof.Machine.execTon x s
  | .tof x => Sys2Proof.Machine.execTof x s
  | .tp x => Sys2Proof.Machine.execTp x s
  | .tet x => Sys2Proof.Machine.execTet x s
  | .ctu x => Sys2Proof.Machine.execCtu x s
  | .ctd x => Sys2Proof.Machine.execCtd x s
  | .crst x => Sys2Proof.Machine.execCrst x s
  | .cld x => Sys2Proof.Machine.execCld x s
  | .cqu x => Sys2Proof.Machine.execCqu x s
  | .cqd x => Sys2Proof.Machine.execCqd x s
  | .ccv x => Sys2Proof.Machine.execCcv x s
  | .emit x => Sys2Proof.Machine.execEmit x s
  | .vtrg x => Sys2Proof.Machine.execVtrg x s
  | .qilLoad sess img => Sys2Proof.Machine.execQilLoad sess img s
  | .qilLoadDone => Sys2Proof.Machine.execQilLoadDone s
  | .qilSwitch sess => Sys2Proof.Machine.execQilSwitch sess s
  | .qilSwitchInstant => Sys2Proof.Machine.execQilSwitchInstant s
  | .forceSet sess => Sys2Proof.Machine.execForceSet sess s
  | .forceClear sess => Sys2Proof.Machine.execForceClear sess s
  | .ductusFrameStart dl => Sys2Proof.Machine.execDuctusFrameStart dl s
  | .ductusFrameReceived dl f => Sys2Proof.Machine.execDuctusFrameReceived dl f s
  | .negotiationFrameReceived dl f => Sys2Proof.Machine.execNegotiationFrameReceived dl f s
  | .ducLinkLost dl => Sys2Proof.Machine.execDucLinkLost dl s
  | .ductusRxSyncChange dl sync los => Sys2Proof.Machine.execDuctusRxSyncChange dl sync los s
  | .messageRetry dl => Sys2Proof.Machine.execMessageRetry dl s
  | .ducMsgLost dl => Sys2Proof.Machine.execDucMsgLost dl s
  | .settingsCheckSend dl => Sys2Proof.Machine.execSettingsCheckSend dl s
  | .c3794BlockStart dl => Sys2Proof.Machine.execC3794BlockStart dl s
  | .c3794BlockReceived dl b => Sys2Proof.Machine.execC3794BlockReceived dl b s
  | .gooseNewState gp => Sys2Proof.Machine.execGooseNewState gp s
  | .gooseRepetition gp => Sys2Proof.Machine.execGooseRepetition gp s
  | .scriptLogOffer dump => Sys2Proof.Machine.execScriptLogOffer dump s
  | .scriptLogCommit => Sys2Proof.Machine.execScriptLogCommit s
  | .suppressed code => Sys2Proof.Machine.execSuppressed code s
  | .blot sess => Sys2Proof.Machine.execBlot sess s
  | .unblot sess => Sys2Proof.Machine.execUnblot sess s
  | .blotTimeout => Sys2Proof.Machine.execBlotTimeout s
  | .logRead sess c => Sys2Proof.Machine.execLogRead sess c s
  | .velList sess => Sys2Proof.Machine.execVelList sess s
  | .velLock sess => Sys2Proof.Machine.execVelLock sess s
  | .velRelease sess => Sys2Proof.Machine.execVelRelease sess s
  | .velExport sess => Sys2Proof.Machine.execVelExport sess s
  | .velExportDone c => Sys2Proof.Machine.execVelExportDone c s
  | .velTrig a v => Sys2Proof.Machine.execVelTrig a v s
  | .vellumRowAssemble pr => Sys2Proof.Machine.execVellumRowAssemble pr s
  | .velClose pr => Sys2Proof.Machine.execVelClose pr s
  | .velWriteTimeout pr retrainings => Sys2Proof.Machine.execVelWriteTimeout pr retrainings s
  | .diChangeCounted fc level => Sys2Proof.Machine.execDiChangeCounted fc level s
  | .fioWireBreak fc => Sys2Proof.Machine.execFioWireBreak fc s
  | .wireBreakClear fc => Sys2Proof.Machine.execWireBreakClear fc s
  | .keepAliveFrame fc => Sys2Proof.Machine.execKeepAliveFrame fc s
  | .statusFrame fc iload => Sys2Proof.Machine.execStatusFrame fc iload s
  | .fioLinkLost fc => Sys2Proof.Machine.execFioLinkLost fc s
  | .watchdogExpiry fc => Sys2Proof.Machine.execWatchdogExpiry fc s
  | .fioOverload fc => Sys2Proof.Machine.execFioOverload fc s
  | .fioOvertemp fc => Sys2Proof.Machine.execFioOvertemp fc s
  | .overtempClear fc => Sys2Proof.Machine.execOvertempClear fc s
  | .overloadRetry fc => Sys2Proof.Machine.execOverloadRetry fc s
  | .fioOpenWire fc => Sys2Proof.Machine.execFioOpenWire fc s
  | .fioShortLplus fc => Sys2Proof.Machine.execFioShortLplus fc s
  | .fioPairImbal fc => Sys2Proof.Machine.execFioPairImbal fc s
  | .retry a fc => Sys2Proof.Machine.execRetry a fc s
  | .inhibit a fc on => Sys2Proof.Machine.execInhibit a fc on s
  | .fioGrpWarn g mv => Sys2Proof.Machine.execFioGrpWarn g mv s
  | .fioGrpNormal g mv => Sys2Proof.Machine.execFioGrpNormal g mv s
  | .fioGrpLockout g mv => Sys2Proof.Machine.execFioGrpLockout g mv s
  | .fioGrpRecover g mv => Sys2Proof.Machine.execFioGrpRecover g mv s
  | .fioGrpNosupply g mv => Sys2Proof.Machine.execFioGrpNosupply g mv s
  | .groupSupplyReturn g mv => Sys2Proof.Machine.execGroupSupplyReturn g mv s
  | .ack a g => Sys2Proof.Machine.execAck a g s
  | .resetNAssert => Sys2Proof.Machine.execResetNAssert s
  | .resetNRelease => Sys2Proof.Machine.execResetNRelease s
  | .v3p3Loss => Sys2Proof.Machine.execV3p3Loss s
  | .coldStart f => Sys2Proof.Machine.execColdStart f s
  | .warmStart img unitsOk => Sys2Proof.Machine.execWarmStart img unitsOk s
  | .supervisorWatchdogExpiry => Sys2Proof.Machine.execSupervisorWatchdogExpiry s
  | .brownOut => Sys2Proof.Machine.execBrownOut s
  | .fatalFault => Sys2Proof.Machine.execFatalFault s
  | .startWarm sess => Sys2Proof.Machine.execStartWarm sess s
  | .startCold sess => Sys2Proof.Machine.execStartCold sess s
  | .wfailClear => Sys2Proof.Machine.execWfailClear s
  | .sysCtrlTestWrite a v => Sys2Proof.Machine.execSysCtrlTestWrite a v s
  | .testTimeout => Sys2Proof.Machine.execTestTimeout s
  | .flashProgramGo a v img => Sys2Proof.Machine.execFlashProgramGo a v img s
  | .flashProgDone ok => Sys2Proof.Machine.execFlashProgDone ok s
  | .setWrite sess => Sys2Proof.Machine.execSetWrite sess s
  | .epochCommit sess => Sys2Proof.Machine.execEpochCommit sess s
  | .epochAbort sess => Sys2Proof.Machine.execEpochAbort sess s
  | .shadowResyncDone => Sys2Proof.Machine.execShadowResyncDone s
  | .perstNFall => Sys2Proof.Machine.execPerstNFall s
  | .hstPcieLinkUp speed width => Sys2Proof.Machine.execHstPcieLinkUp speed width s
  | .hstPcieLinkDown => Sys2Proof.Machine.execHstPcieLinkDown s
  | .pcieHotReset => Sys2Proof.Machine.execPcieHotReset s
  | .registerWrite r addr bytes v => Sys2Proof.Machine.execRegisterWrite r addr bytes v s
  | .bar2Read off words c => Sys2Proof.Machine.execBar2Read off words c s
  | .bar2Write off => Sys2Proof.Machine.execBar2Write off s
  | .spiTransaction cmd data => Sys2Proof.Machine.execSpiTransaction cmd data s
  | .doorbell r sess tail => Sys2Proof.Machine.execDoorbell r sess tail s
  | .completionDoorbell r sess head => Sys2Proof.Machine.execCompletionDoorbell r sess head s
  | .hello sess => Sys2Proof.Machine.execHello sess s
  | .sessionOpenPhase0 sess => Sys2Proof.Machine.execSessionOpenPhase0 sess s
  | .sessionOpenPhase1 sess sigOk => Sys2Proof.Machine.execSessionOpenPhase1 sess sigOk s
  | .sessionClose sess => Sys2Proof.Machine.execSessionClose sess s
  | .readReg sess => Sys2Proof.Machine.execReadReg sess s
  | .writeReg sess => Sys2Proof.Machine.execWriteReg sess s
  | .modeSet sess => Sys2Proof.Machine.execModeSet sess s
  | .sessionIdleTimeout sess => Sys2Proof.Machine.execSessionIdleTimeout sess s
  | .challengeTimeout sess => Sys2Proof.Machine.execChallengeTimeout sess s
  | .pullReadCompletion sess status data => Sys2Proof.Machine.execPullReadCompletion sess status data s
  | .cplTimeout sess => Sys2Proof.Machine.execCplTimeout sess s
  | .hstCmdTimeout sess cid => Sys2Proof.Machine.execHstCmdTimeout sess cid s
  | .sealJobComplete => Sys2Proof.Machine.execSealJobComplete s
  | .attest sess => Sys2Proof.Machine.execAttest sess s
  | .debugUnlockPhase0 sess => Sys2Proof.Machine.execDebugUnlockPhase0 sess s
  | .debugUnlockPhase1 sess sigOk => Sys2Proof.Machine.execDebugUnlockPhase1 sess sigOk s
  | .debugUnlockExpiry => Sys2Proof.Machine.execDebugUnlockExpiry s
  | .relock a => Sys2Proof.Machine.execRelock a s
  | .ownerSlotWrite a v => Sys2Proof.Machine.execOwnerSlotWrite a v s
  | .ownerSlotRevoke a v => Sys2Proof.Machine.execOwnerSlotRevoke a v s
  | .fuseWriteDone ok => Sys2Proof.Machine.execFuseWriteDone ok s
  | .vendorRootRevoke a v => Sys2Proof.Machine.execVendorRootRevoke a v s
  | .seaRngFail => Sys2Proof.Machine.execSeaRngFail s
  | .softRepairDone => Sys2Proof.Machine.execSoftRepairDone s
  | .memSweep sess => Sys2Proof.Machine.execMemSweep sess s
  | .memSweepDone found => Sys2Proof.Machine.execMemSweepDone found s
  | .fuseCommit sess => Sys2Proof.Machine.execFuseCommit sess s
  | .fuseBurnDone ok => Sys2Proof.Machine.execFuseBurnDone ok s
  | .railFault mask => Sys2Proof.Machine.execRailFault mask s
  | .railRestored mask => Sys2Proof.Machine.execRailRestored mask s
  | .analogueResume => Sys2Proof.Machine.execAnalogueResume s
  | .tjHigh tj => Sys2Proof.Machine.execTjHigh tj s
  | .tjNormal tj => Sys2Proof.Machine.execTjNormal tj s
  | .grantWrite a v => Sys2Proof.Machine.execGrantWrite a v s
  | .selfCheck => Sys2Proof.Machine.execSelfCheck s
  | .extest => Sys2Proof.Machine.execExtest s
  | .idcode => Sys2Proof.Machine.execIdcode s
  | .samplePreload => Sys2Proof.Machine.execSamplePreload s
  | .clamp => Sys2Proof.Machine.execClamp s
  | .highz => Sys2Proof.Machine.execHighz s
  | .extestPulse => Sys2Proof.Machine.execExtestPulse s
  | .extestTrain => Sys2Proof.Machine.execExtestTrain s
  | .commission slot hash => Sys2Proof.Machine.execCommission slot hash s
  | .bypass => Sys2Proof.Machine.execBypass s
  | .powerOn => Sys2Proof.Machine.execPowerOn s
  | .pwrgdRelease => Sys2Proof.Machine.execPwrgdRelease s
  | .comparatorRearm i1 => Sys2Proof.Machine.execComparatorRearm i1 s
  | .driveHalfPeriodEnd n => Sys2Proof.Machine.execDriveHalfPeriodEnd n s
  | .allIdleTimeout => Sys2Proof.Machine.execAllIdleTimeout s
  | .diagnosticClear fc cond => Sys2Proof.Machine.execDiagnosticClear fc cond s
  | .entropyHealthRestored => Sys2Proof.Machine.execEntropyHealthRestored s

end Sys2Proof.Machine
end

