-- ==== Sys2Proof/Safety.lean ====
section
/-! DEFINITION. The terms in which the statements speak: the canonical form of the memories, the components of State, a session's
command that is about to take effect. -/

namespace Sys2Proof.Machine

/-- The register file, the Inkwell area and the LPDDR4X keep their canonical form (log entry 6). -/
def State.formed (s : State) : Prop :=
  Tab.wf s.regs = true ∧ Tab.wf s.hst.inkwell = true ∧ Tab.wf s.hst.dram = true

/-- The components of State, as frames name them: the queue, the model's counter of free values, the registers, and the state
behind the registers unit by unit. A component with the name of a unit is what the unit holds beside the components named before
it. -/
inductive Comp
  | pending | freeCtr | regs | clk | dom | ptp | ptpIn | offers | freeze | scr | sess | inkwell | dram | msix
  | hst | port | pair | sc | gs | svq | gq | pbi | recs | exporting | vel | sweep | fuse | mem
  | cv | wd | afe | eng | nc | live | stamps | toStroke | ctxHa | so | logicQ | vec | pub | waits | stk
  | dl | gp | duc | run | load | sw | force | qil | fc | grp | jobs | burn | sea | pkg
  | dbg | modePend | staged | committing | commit | startDue | sys
  deriving DecidableEq, Repr

/-- Two states agree in a component. -/
def Comp.same (s t : State) : Comp → Prop
  | .pending => t.pending = s.pending
  | .freeCtr => t.freeCtr = s.freeCtr
  | .regs => t.regs = s.regs
  | .clk => t.rul.clk = s.rul.clk
  | .dom => t.rul.dom = s.rul.dom
  | .ptp => t.rul.ptp = s.rul.ptp
  | .ptpIn => t.rul.ptpIn = s.rul.ptpIn
  | .offers => t.scr.offers = s.scr.offers
  | .freeze => t.scr.freeze = s.scr.freeze
  | .scr => (t.scr.commitAt, t.scr.intake, t.scr.pages, t.scr.openPage, t.scr.nextPseq, t.scr.margin, t.scr.marginAt, t.scr.holding,
      t.scr.buckets, t.scr.supp, t.scr.lossPend, t.scr.frzDrops) = (s.scr.commitAt, s.scr.intake, s.scr.pages, s.scr.openPage,
      s.scr.nextPseq, s.scr.margin, s.scr.marginAt, s.scr.holding, s.scr.buckets, s.scr.supp, s.scr.lossPend, s.scr.frzDrops)
  | .sess => t.hst.sess = s.hst.sess
  | .inkwell => t.hst.inkwell = s.hst.inkwell
  | .dram => t.hst.dram = s.hst.dram
  | .msix => t.hst.msix = s.hst.msix
  | .hst => (t.hst.perstN, t.hst.frameSeq, t.hst.readTurn, t.hst.spiRefused, t.hst.badAcc, t.hst.directRej, t.hst.pullErr,
      t.hst.cplValue, t.hst.ep, t.hst.haExport, t.hst.haAttest, t.hst.haField, t.hst.rdOut, t.hst.spiOut, t.hst.bar2Out,
      t.hst.bar2Poison) = (s.hst.perstN, s.hst.frameSeq, s.hst.readTurn, s.hst.spiRefused, s.hst.badAcc, s.hst.directRej,
      s.hst.pullErr, s.hst.cplValue, s.hst.ep, s.hst.haExport, s.hst.haAttest, s.hst.haField, s.hst.rdOut, s.hst.spiOut,
      s.hst.bar2Out, s.hst.bar2Poison)
  | .port => t.pbi.port = s.pbi.port
  | .pair => t.pbi.pair = s.pbi.pair
  | .sc => t.pbi.sc = s.pbi.sc
  | .gs => t.pbi.gs = s.pbi.gs
  | .svq => t.pbi.svq = s.pbi.svq
  | .gq => t.pbi.gq = s.pbi.gq
  | .pbi => (t.pbi.learnt, t.pbi.hostOvf, t.pbi.decoded, t.pbi.svIds, t.pbi.gsDecls, t.pbi.gbits, t.pbi.pairMac, t.pbi.expect,
      t.pbi.gb, t.pbi.anDone) = (s.pbi.learnt, s.pbi.hostOvf, s.pbi.decoded, s.pbi.svIds, s.pbi.gsDecls, s.pbi.gbits,
      s.pbi.pairMac, s.pbi.expect, s.pbi.gb, s.pbi.anDone)
  | .recs => t.vel.recs = s.vel.recs
  | .exporting => t.vel.exporting = s.vel.exporting
  | .vel => (t.vel.nextId, t.vel.prof, t.vel.tabs, t.vel.lanes, t.vel.blkSeq, t.vel.twSlot, t.vel.bursts) = (s.vel.nextId,
      s.vel.prof, s.vel.tabs, s.vel.lanes, s.vel.blkSeq, s.vel.twSlot, s.vel.bursts)
  | .sweep => t.mem.sweep = s.mem.sweep
  | .fuse => t.mem.fuse = s.mem.fuse
  | .mem => (t.mem.track, t.mem.repairing, t.mem.exhausted, t.mem.factory, t.mem.fuseMap, t.mem.errors, t.mem.oosSo, t.mem.oosDl,
      t.mem.oosCv) = (s.mem.track, s.mem.repairing, s.mem.exhausted, s.mem.factory, s.mem.fuseMap, s.mem.errors, s.mem.oosSo,
      s.mem.oosDl, s.mem.oosCv)
  | .cv => t.afe.cv = s.afe.cv
  | .wd => t.afe.wd = s.afe.wd
  | .afe => (t.afe.asm, t.afe.asmAt, t.afe.convQ, t.afe.map, t.afe.crossed, t.afe.stopped) = (s.afe.asm, s.afe.asmAt, s.afe.convQ,
      s.afe.map, s.afe.crossed, s.afe.stopped)
  | .eng => t.nib.eng = s.nib.eng
  | .nc => t.nib.nc = s.nib.nc
  | .live => t.nib.live = s.nib.live
  | .stamps => t.nib.stamps = s.nib.stamps
  | .toStroke => t.nib.toStroke = s.nib.toStroke
  | .ctxHa => t.nib.ctxHa = s.nib.ctxHa
  | .so => t.stk.so = s.stk.so
  | .logicQ => (t.stk.logicQ, t.stk.logicHold) = (s.stk.logicQ, s.stk.logicHold)
  | .vec => t.stk.vec = s.stk.vec
  | .pub => (t.stk.pub, t.stk.pubOut) = (s.stk.pub, s.stk.pubOut)
  | .waits => t.stk.sentAt = s.stk.sentAt
  | .stk => (t.stk.updAt, t.stk.marks, t.stk.fin, t.stk.dlQ, t.stk.turn) = (s.stk.updAt, s.stk.marks, s.stk.fin, s.stk.dlQ,
      s.stk.turn)
  | .dl => t.duc.dl = s.duc.dl
  | .gp => t.duc.gp = s.duc.gp
  | .duc => (t.duc.gpDecls, t.duc.spDecls, t.duc.hash, t.duc.fed) = (s.duc.gpDecls, s.duc.spDecls, s.duc.hash, s.duc.fed)
  | .run => t.qil.run = s.qil.run
  | .load => t.qil.load = s.qil.load
  | .sw => t.qil.sw = s.qil.sw
  | .force => t.qil.force = s.qil.force
  | .qil => (t.qil.boundAt, t.qil.qb, t.qil.fcmd, t.qil.ug, t.qil.pv, t.qil.bank, t.qil.data, t.qil.tm, t.qil.ct, t.qil.ed,
      t.qil.restore, t.qil.retDir, t.qil.mapHash) = (s.qil.boundAt, s.qil.qb, s.qil.fcmd, s.qil.ug, s.qil.pv, s.qil.bank,
      s.qil.data, s.qil.tm, s.qil.ct, s.qil.ed, s.qil.restore, s.qil.retDir, s.qil.mapHash)
  | .fc => t.fio.fc = s.fio.fc
  | .grp => t.fio.grp = s.fio.grp
  | .jobs => t.sea.jobs = s.sea.jobs
  | .burn => t.sea.fuse = s.sea.fuse
  | .sea => (t.sea.report, t.sea.rseq, t.sea.unlockEnd, t.sea.sealedHash, t.sea.keyIdx, t.sea.vkey, t.sea.fwVer, t.sea.fwHash,
      t.sea.folioLoaded, t.sea.ownerPk, t.sea.vendorPk, t.sea.hashJobs) = (s.sea.report, s.sea.rseq, s.sea.unlockEnd,
      s.sea.sealedHash, s.sea.keyIdx, s.sea.vkey, s.sea.fwVer, s.sea.fwHash, s.sea.folioLoaded, s.sea.ownerPk, s.sea.vendorPk,
      s.sea.hashJobs)
  | .pkg => t.pkg = s.pkg
  | .dbg => t.dbg = s.dbg
  | .modePend => t.sys.modePend = s.sys.modePend
  | .staged => t.sys.staged = s.sys.staged
  | .committing => t.sys.committing = s.sys.committing
  | .commit => t.sys.commit = s.sys.commit
  | .startDue => t.sys.startDue = s.sys.startDue
  | .sys => (t.sys.resetN, t.sys.v3p3Low, t.sys.released, t.sys.trigAt, t.sys.attempt, t.sys.bFirst, t.sys.fails, t.sys.svcAt,
      t.sys.committed, t.sys.testEnd, t.sys.flash, t.sys.flashGo, t.sys.flashImg, t.sys.nor, t.sys.anchors, t.sys.brown,
      t.sys.creds, t.sys.funcHa) = (s.sys.resetN, s.sys.v3p3Low, s.sys.released, s.sys.trigAt, s.sys.attempt, s.sys.bFirst,
      s.sys.fails, s.sys.svcAt, s.sys.committed, s.sys.testEnd, s.sys.flash, s.sys.flashGo, s.sys.flashImg, s.sys.nor,
      s.sys.anchors, s.sys.brown, s.sys.creds, s.sys.funcHa)

/-- Between two states nothing changes but the components `cs`. -/
def onlyChanges (cs : List Comp) (s t : State) : Prop := ∀ c, c ∉ cs → Comp.same s t c

/-- Every component but the queue and the listed ones. -/
def allBut (l : List Comp) : List Comp :=
  [.freeCtr, .regs, .clk, .dom, .ptp, .ptpIn, .offers, .freeze, .scr, .sess, .inkwell, .dram, .msix, .hst, .port, .pair, .sc,
    .gs, .svq, .gq, .pbi, .recs, .exporting, .vel, .sweep, .fuse, .mem, .cv, .wd, .afe, .eng, .nc, .live, .stamps, .toStroke,
    .ctxHa, .so, .logicQ, .vec, .pub, .waits, .stk, .dl, .gp, .duc, .run, .load, .sw, .force, .qil, .fc, .grp, .jobs, .burn,
    .sea, .pkg, .dbg, .modePend, .staged, .committing, .commit, .startDue, .sys].filter (fun c => !l.contains c)

/-- The components that a command may change, beside the queue: which commands log, interrupt, complete a session's command, and which
units they reach. -/
def touches (i : Instr) : List Comp :=
  match i with
  | .paceWindowEnd .. =>
    [.regs, .clk, .offers, .msix, .pbi, .eng, .nc]
  | .creditReturn .. =>
    [.freeCtr, .regs, .offers, .scr, .sess, .inkwell, .msix, .hst, .port, .pair, .sc, .vel, .wd, .afe, .eng, .nc, .live,
      .stamps, .toStroke, .logicQ, .pub, .waits, .stk, .dl, .committing, .commit]
  | .sampleSetComplete .. =>
    [.regs, .sc, .eng, .dl]
  | .evaluationDispatch .. =>
    [.regs, .offers, .sess, .inkwell, .msix, .sc, .mem, .eng, .nc, .live, .modePend, .committing, .commit]
  | .evaluationComplete .. =>
    [.regs, .offers, .inkwell, .msix, .eng, .nc, .toStroke, .waits, .dl]
  | .outputLogicFlit .. =>
    [.regs, .eng, .nc, .toStroke, .waits]
  | .haResignal .. =>
    [.regs, .msix, .nc]
  | .haFallback .. | .haWordApply .. =>
    [.regs, .offers, .eng, .nc]
  | .assertCmd .. =>
    [.regs, .offers, .sess, .inkwell, .msix, .nc]
  | .twdetUnconfirmed .. | .twlocUnlock .. =>
    [.offers, .eng, .nc]
  | .twdetHoldEnd .. =>
    [.eng, .nc]
  | .twlocStampDelivery .. =>
    [.regs, .eng, .nc, .stamps]
  | .contextSettingsSwitch .. =>
    [.regs, .offers, .sess, .inkwell, .msix, .sc, .eng, .nc, .live, .committing, .commit]
  | .syncReceived =>
    [.regs, .clk, .dom, .ptpIn, .offers, .sess, .inkwell, .msix, .sc, .recs, .exporting, .vel, .modePend]
  | .followUpReceived =>
    [.regs, .clk, .dom, .ptpIn, .offers, .inkwell, .msix, .sc, .recs, .exporting, .vel]
  | .domainRevert | .announceReceiptTimeout .. | .syncMissingTimeout .. | .hostServoTimeout .. =>
    [.regs, .clk, .dom, .offers, .sc, .recs, .exporting, .vel]
  | .announceReceived =>
    [.regs, .clk, .dom, .ptpIn, .offers, .sc, .recs, .exporting, .vel]
  | .pdelayReqSend .. =>
    [.regs, .ptp, .port, .pair]
  | .pdelayReqReceived =>
    [.regs, .ptpIn, .port, .pair]
  | .pdelayRespReceived =>
    [.regs, .clk, .dom, .ptp, .ptpIn, .offers, .inkwell, .msix, .sc, .recs, .exporting, .vel]
  | .suspectHoldEnd .. =>
    [.regs, .clk, .dom, .ptp, .offers, .sc, .recs, .exporting, .vel]
  | .rulDomHaPhaseWrite .. | .rulDomCfgWrite .. =>
    [.regs, .clk, .dom, .offers, .hst, .sc, .recs, .exporting, .vel]
  | .refLost | .refRestored | .tqChange =>
    [.regs, .clk, .offers]
  | .timeStepAllow .. =>
    [.regs, .dom, .offers, .sess, .inkwell, .msix]
  | .stepGrantExpired .. =>
    [.regs, .dom, .offers]
  | .irigbFrame .. | .ppsInEdge =>
    [.regs, .clk, .dom, .offers, .sess, .inkwell, .msix, .sc, .recs, .exporting, .vel, .modePend]
  | .ppsOutRise | .ppsOutFall =>
    [.clk]
  | .dtcSlewEnd =>
    [.regs, .clk]
  | .dtcSnapshotRead .. | .lowWordRead .. | .qilSlotSelWrite .. =>
    [.regs, .clk, .offers, .hst]
  | .sampleTick =>
    [.regs, .clk, .offers, .sess, .inkwell, .msix, .port, .pair, .sc, .cv, .wd, .afe, .live, .committing, .commit]
  | .swtrig .. =>
    [.regs, .offers, .hst, .cv, .afe]
  | .reload .. =>
    [.regs, .offers, .hst, .cv]
  | .afeActWrite .. | .afeWdSrcWrite .. | .sfpXferStart .. | .hstPcieLinkUp .. | .bar2Write .. | .grantWrite .. =>
    [.regs, .offers, .hst]
  | .conversionComplete .. =>
    [.regs, .offers, .sess, .inkwell, .msix, .port, .pair, .sc, .recs, .vel, .cv, .wd, .afe, .live, .committing, .commit]
  | .streamWindowClose .. | .urgentConversionComplete .. =>
    [.regs, .offers, .sess, .inkwell, .msix, .port, .pair, .sc, .recs, .vel, .cv, .afe, .live, .committing, .commit]
  | .comparatorCrossing .. =>
    [.regs, .offers, .recs, .vel, .cv, .afe]
  | .wavefrontEvent .. =>
    [.regs, .offers, .recs, .vel, .wd, .eng]
  | .portLinkDown .. | .portLinkUp .. =>
    [.regs, .offers, .pbi]
  | .frameReceived .. =>
    [.regs, .ptpIn, .offers, .sess, .inkwell, .msix, .hst, .port, .pair, .sc, .svq, .gq, .pbi, .modePend]
  | .frameForward .. =>
    [.regs, .port]
  | .frameTxStart .. =>
    [.regs, .ptp, .inkwell, .msix, .port]
  | .svDecode =>
    [.regs, .offers, .sess, .inkwell, .msix, .port, .sc, .svq, .pbi, .live, .committing, .commit]
  | .svMissingDeadline .. =>
    [.regs, .offers, .sc]
  | .svWaitingDeadline .. =>
    [.sc]
  | .gooseDecode =>
    [.regs, .offers, .sess, .inkwell, .msix, .port, .gs, .gq, .pbi, .recs, .vel, .live, .logicQ, .waits, .committing, .commit]
  | .gooseStale .. | .gooseHostEntryTake .. =>
    [.regs, .offers, .gs, .pbi, .recs, .vel, .logicQ, .waits]
  | .prpSupervisionSend .. =>
    [.regs, .port, .pair]
  | .sfpXferDone .. | .wfailClear | .shadowResyncDone | .entropyHealthRestored =>
    [.regs]
  | .strokeUpdate .. =>
    [.regs, .offers, .sess, .inkwell, .msix, .recs, .vel, .live, .toStroke, .so, .logicQ, .vec, .pub, .waits, .stk,
      .committing, .commit]
  | .stkTminEnd .. | .stkCurrentGone .. | .stkCgTimeout .. | .stkFbNorise .. | .stkFbRest .. =>
    [.regs, .offers, .so, .pub]
  | .stkReset .. =>
    [.regs, .offers, .hst, .so, .pub]
  | .feedbackLevelCount .. =>
    [.regs, .so]
  | .stkTest .. =>
    [.regs, .offers, .sess, .inkwell, .msix, .recs, .vel, .so, .pub]
  | .testPulseEnd .. =>
    [.regs, .offers, .recs, .vel, .so, .pub]
  | .publicationRequest .. =>
    [.regs, .pub]
  | .taskRelease .. =>
    [.regs, .offers, .run]
  | .taskStart .. =>
    [.regs, .offers, .sess, .inkwell, .msix, .gs, .mem, .logicQ, .waits, .gp, .run, .sw, .force, .qil, .fc, .grp, .modePend]
  | .nop .. | .notl .. | .pushl .. | .popa .. | .popo .. | .rtrg .. | .ftrg .. | .lrw .. | .wlr .. | .ldi .. | .lui ..
  | .add .. | .sub .. | .mul .. | .divs .. | .rems .. | .and .. | .or .. | .xor .. | .shl .. | .shr .. | .asr .. | .addi ..
  | .andi .. | .ori .. | .fadd .. | .fsub .. | .fmul .. | .fdiv .. | .itof .. | .ftoi .. | .cmp .. | .fcmp .. | .jmp ..
  | .jc .. | .jnc .. | .call .. | .ret .. | .endRun .. | .ton .. | .tof .. | .tp .. | .tet .. | .ctu .. | .ctd .. | .crst ..
  | .cld .. | .cqu .. | .cqd .. | .ccv .. | .emit .. =>
    [.regs, .offers, .sess, .inkwell, .msix, .gs, .logicQ, .waits, .gp, .run, .sw, .force, .qil, .fc, .grp]
  | .ldb .. | .andb .. | .orb .. | .xorb .. | .stb .. | .setb .. | .rstb .. | .ldw .. | .stw .. =>
    [.regs, .offers, .sess, .inkwell, .msix, .gs, .mem, .logicQ, .waits, .gp, .run, .sw, .force, .qil, .fc, .grp]
  | .vtrg .. =>
    [.regs, .offers, .sess, .inkwell, .msix, .gs, .recs, .vel, .logicQ, .waits, .gp, .run, .sw, .force, .qil, .fc, .grp]
  | .qilLoad .. =>
    [.regs, .offers, .sess, .inkwell, .msix, .mem, .load, .jobs, .sea]
  | .qilLoadDone =>
    [.regs, .offers, .sess, .inkwell, .msix, .load, .qil, .sea]
  | .qilSwitch .. | .qilSwitchInstant =>
    [.regs, .offers, .sess, .inkwell, .msix, .logicQ, .waits, .gp, .run, .sw, .force, .qil, .fc, .grp]
  | .forceSet .. | .forceClear .. =>
    [.regs, .offers, .sess, .inkwell, .msix, .force, .qil]
  | .ductusFrameStart .. | .c3794BlockStart .. =>
    [.regs, .offers, .sess, .inkwell, .msix, .live, .pub, .waits, .stk, .dl, .committing, .commit]
  | .ductusFrameReceived .. | .negotiationFrameReceived .. | .c3794BlockReceived .. =>
    [.regs, .offers, .sess, .inkwell, .msix, .sc, .live, .stamps, .waits, .stk, .dl, .committing, .commit]
  | .ducLinkLost .. =>
    [.regs, .offers, .waits, .stk, .dl]
  | .ductusRxSyncChange .. =>
    [.regs, .waits, .stk, .dl]
  | .messageRetry .. | .settingsCheckSend .. =>
    [.dl]
  | .ducMsgLost .. =>
    [.regs, .offers, .dl]
  | .gooseNewState .. =>
    [.regs, .offers, .sess, .inkwell, .msix, .port, .pair, .live, .pub, .gp, .committing, .commit]
  | .gooseRepetition .. =>
    [.regs, .offers, .sess, .inkwell, .msix, .port, .pair, .live, .gp, .committing, .commit]
  | .scriptLogOffer .. =>
    [.freeCtr, .regs, .offers, .scr]
  | .scriptLogCommit | .blotTimeout =>
    [.regs, .offers, .freeze, .scr, .msix]
  | .suppressed .. =>
    [.offers, .scr]
  | .blot .. | .unblot .. =>
    [.regs, .offers, .freeze, .scr, .sess, .inkwell, .msix]
  | .logRead .. =>
    [.regs, .offers, .scr, .sess, .inkwell, .dram, .msix, .mem]
  | .velList .. =>
    [.regs, .offers, .sess, .inkwell, .dram, .msix, .recs, .mem]
  | .velLock .. | .velRelease .. =>
    [.regs, .offers, .sess, .inkwell, .msix, .recs]
  | .velExport .. =>
    [.regs, .offers, .sess, .inkwell, .msix, .hst, .recs, .exporting, .modePend]
  | .velExportDone .. =>
    [.regs, .offers, .sess, .inkwell, .dram, .msix, .recs, .exporting, .mem]
  | .velTrig .. =>
    [.regs, .offers, .hst, .recs, .vel]
  | .vellumRowAssemble .. =>
    [.regs, .offers, .recs, .vel]
  | .velClose .. | .velWriteTimeout .. =>
    [.regs, .offers, .sess, .inkwell, .msix, .recs, .vel, .live, .committing, .commit]
  | .diChangeCounted .. | .watchdogExpiry .. | .overloadRetry .. =>
    [.regs, .offers, .logicQ, .waits, .fc]
  | .fioWireBreak .. | .wireBreakClear .. | .fioOverload .. | .fioOvertemp .. | .overtempClear .. | .fioOpenWire ..
  | .fioShortLplus .. | .fioPairImbal .. | .diagnosticClear .. =>
    [.regs, .offers, .sess, .inkwell, .msix, .hst, .logicQ, .waits, .fc, .modePend]
  | .keepAliveFrame .. =>
    [.regs, .offers, .sess, .inkwell, .msix, .live, .logicQ, .waits, .fc, .grp, .committing, .commit]
  | .statusFrame .. | .fioGrpWarn .. | .fioGrpNormal .. | .fioGrpLockout .. | .fioGrpRecover .. | .fioGrpNosupply ..
  | .groupSupplyReturn .. =>
    [.regs, .offers, .logicQ, .waits, .fc, .grp]
  | .fioLinkLost .. =>
    [.regs, .offers, .logicQ, .waits]
  | .retry .. | .inhibit .. =>
    [.regs, .offers, .hst, .logicQ, .waits, .fc]
  | .ack .. =>
    [.regs, .offers, .hst, .logicQ, .waits, .fc, .grp]
  | .resetNAssert =>
    allBut [.freeCtr, .dom, .inkwell, .dram, .eng, .nc, .live, .stamps, .toStroke, .ctxHa, .vec, .duc, .burn, .pkg, .committing]
  | .resetNRelease =>
    allBut [.freeCtr, .clk, .dom, .inkwell, .dram, .hst, .eng, .nc, .live, .stamps, .toStroke, .ctxHa, .vec, .duc, .burn, .pkg, .committing]
  | .v3p3Loss =>
    allBut [.freeCtr, .dom, .inkwell, .dram, .eng, .nc, .live, .stamps, .toStroke, .ctxHa, .vec, .duc, .burn, .committing]
  | .coldStart .. =>
    allBut [.freeCtr]
  | .warmStart .. =>
    allBut [.freeCtr, .pkg]
  | .supervisorWatchdogExpiry | .brownOut =>
    allBut [.freeCtr, .nc, .vec]
  | .fatalFault =>
    allBut [.nc, .vec]
  | .startWarm .. | .startCold .. =>
    [.regs, .offers, .sess, .inkwell, .msix, .startDue]
  | .sysCtrlTestWrite .. =>
    [.regs, .offers, .msix, .hst, .pbi, .recs, .vel, .so, .logicQ, .pub, .waits, .stk, .dl, .gp, .force, .qil, .fc, .grp, .dbg,
      .sys]
  | .testTimeout =>
    [.regs, .offers, .msix, .pbi, .recs, .vel, .so, .logicQ, .pub, .waits, .stk, .dl, .gp, .force, .qil, .fc, .grp, .dbg]
  | .flashProgramGo .. =>
    [.regs, .offers, .hst, .jobs, .sea, .sys]
  | .flashProgDone .. =>
    [.regs, .offers, .sys]
  | .setWrite .. =>
    [.freeCtr, .regs, .offers, .sess, .inkwell, .msix, .mem, .staged]
  | .epochCommit .. =>
    [.regs, .offers, .sess, .inkwell, .msix, .port, .pair, .sc, .gs, .pbi, .recs, .vel, .live, .logicQ, .waits, .stk, .dl, .gp,
      .fc, .staged, .committing, .commit, .sys]
  | .epochAbort .. =>
    [.regs, .offers, .sess, .inkwell, .msix, .staged]
  | .perstNFall | .pcieHotReset =>
    [.regs, .offers, .freeze, .scr, .sess, .msix, .hst, .pbi, .recs, .exporting, .vel, .sweep, .fuse, .so, .logicQ, .pub,
      .waits, .stk, .dl, .gp, .load, .sw, .force, .qil, .fc, .grp, .jobs, .dbg, .modePend, .staged, .commit]
  | .hstPcieLinkDown | .sessionIdleTimeout .. =>
    [.regs, .offers, .freeze, .scr, .sess, .msix, .pbi, .recs, .exporting, .vel, .sweep, .fuse, .so, .logicQ, .pub, .waits,
      .stk, .dl, .gp, .load, .sw, .force, .qil, .fc, .grp, .jobs, .dbg, .modePend, .staged, .commit]
  | .registerWrite .. =>
    [.regs, .clk, .dom, .offers, .freeze, .scr, .sess, .inkwell, .msix, .hst, .sc, .pbi, .recs, .exporting, .vel, .sweep,
      .fuse, .cv, .afe, .so, .logicQ, .pub, .waits, .stk, .dl, .gp, .load, .sw, .force, .qil, .fc, .grp, .jobs, .burn, .sea,
      .dbg, .modePend, .staged, .commit, .sys]
  | .bar2Read .. | .memSweepDone .. =>
    allBut [.vec]
  | .spiTransaction .. | .writeReg .. =>
    [.regs, .clk, .dom, .offers, .sess, .inkwell, .msix, .hst, .sc, .pbi, .recs, .exporting, .vel, .cv, .afe, .so, .logicQ,
      .pub, .waits, .stk, .dl, .gp, .force, .qil, .fc, .grp, .burn, .sea, .dbg, .sys]
  | .doorbell .. | .completionDoorbell .. =>
    [.regs, .offers, .sess, .inkwell, .msix, .hst]
  | .hello .. =>
    [.regs, .offers, .sess, .inkwell, .msix]
  | .sessionOpenPhase0 .. =>
    [.freeCtr, .regs, .offers, .sess, .inkwell, .msix]
  | .sessionOpenPhase1 .. =>
    [.regs, .offers, .sess, .inkwell, .msix, .jobs]
  | .sessionClose .. =>
    [.regs, .offers, .freeze, .scr, .sess, .inkwell, .msix, .pbi, .recs, .exporting, .vel, .sweep, .fuse, .so, .logicQ, .pub,
      .waits, .stk, .dl, .gp, .load, .sw, .force, .qil, .fc, .grp, .jobs, .dbg, .modePend, .staged, .commit]
  | .readReg .. =>
    [.regs, .clk, .offers, .sess, .inkwell, .msix]
  | .modeSet .. =>
    [.regs, .offers, .sess, .inkwell, .msix, .modePend]
  | .challengeTimeout .. =>
    [.regs, .sess]
  | .pullReadCompletion .. =>
    [.regs, .offers, .sess, .inkwell, .dram, .msix, .hst]
  | .cplTimeout .. =>
    [.regs, .sess, .hst]
  | .hstCmdTimeout .. =>
    [.regs, .offers, .sess, .inkwell, .msix, .hst, .run, .load, .sw, .force, .qil, .jobs, .sea]
  | .sealJobComplete =>
    [.freeCtr, .regs, .offers, .sess, .inkwell, .msix, .jobs, .sea, .sys]
  | .attest .. =>
    [.regs, .offers, .sess, .inkwell, .msix, .hst, .jobs, .modePend]
  | .debugUnlockPhase0 .. | .debugUnlockPhase1 .. =>
    [.freeCtr, .regs, .offers, .sess, .inkwell, .msix, .jobs]
  | .debugUnlockExpiry =>
    [.regs, .offers, .sea]
  | .relock .. =>
    [.regs, .offers, .hst, .sea]
  | .ownerSlotWrite .. | .ownerSlotRevoke .. | .vendorRootRevoke .. =>
    [.regs, .offers, .hst, .burn]
  | .fuseWriteDone .. =>
    [.regs, .offers, .burn]
  | .seaRngFail =>
    [.regs, .offers]
  | .softRepairDone =>
    [.regs, .offers, .mem]
  | .memSweep .. =>
    [.regs, .offers, .sess, .inkwell, .msix, .sweep]
  | .fuseCommit .. =>
    [.regs, .offers, .sess, .inkwell, .msix, .fuse]
  | .fuseBurnDone .. =>
    [.freeCtr, .regs, .offers, .sess, .inkwell, .msix, .fuse]
  | .railFault .. =>
    [.regs, .offers, .sess, .inkwell, .msix, .port, .pair, .sc, .cv, .wd, .afe, .live, .pkg, .committing, .commit]
  | .railRestored .. | .tjHigh .. | .tjNormal .. =>
    [.regs, .offers, .pkg]
  | .analogueResume =>
    [.regs, .cv, .wd, .afe]
  | .selfCheck =>
    [.regs, .offers, .dbg]
  | .extest | .idcode | .samplePreload | .clamp | .highz | .extestPulse | .extestTrain | .bypass =>
    [.freeCtr, .dbg]
  | .commission .. =>
    [.regs, .burn, .dbg]
  | .powerOn =>
    allBut [.freeCtr, .clk, .dom, .inkwell, .dram, .hst, .eng, .nc, .live, .stamps, .toStroke, .ctxHa, .vec, .duc, .burn, .committing]
  | .pwrgdRelease =>
    [.pkg]
  | .comparatorRearm .. =>
    [.afe]
  | .driveHalfPeriodEnd .. =>
    [.so]
  | .allIdleTimeout =>
    [.regs, .offers, .sess, .inkwell, .msix, .sw]

/-- Between two states no register changes but those at the addresses `as`. -/
def sameRegsBut (as : List Nat) (s t : State) : Prop := ∀ a, a ∉ as → t.word a = s.word a

/-- The registers of session `n` and the pending interrupts: what completing a command writes. -/
def sessRegs (n : Nat) : List Nat := [Reg.HST_SESS_STAT n, Reg.HST_SESS_CNT n, Reg.HST_IRQ_PEND]

/-- What a write that the access codes do not let through leaves: a refused direct write is counted (R451), any other one ignored; a
configuration request reaches no register. -/
def refusedWrite (s : State) (a : Access) (addr : Nat) : State :=
  match a with
  | .direct r => if inkServed s && r ≠ .cfg then directRejected s addr r else s
  | .cmd _ _ => s
  | .jtag => s

/-- The next command of session `n` is `c`, of opcode `op`; it passes the header checks, and the module's state serves it (R431,
R433). -/
def ready (s : State) (n op : Nat) (c : Cmd) : Prop :=
  nextCmd s n = some c ∧ c.op = op ∧ headerStatus s n c = none ∧ inkServed s = true ∧ (s.sysState = 5 → holdServed c = true)

/-- A write by access `a` of a field of the register at `addr`, RWP or not, takes place (R13, R434, R447, R451). -/
def accepts (s : State) (a : Access) (addr : Nat) (rwp : Bool) : Prop :=
  inkServed s = true ∧ match a with
    | .direct r => r ≠ .cfg ∧ rwp = false ∧ directOpen s addr = true
    | .cmd _ level => rwp = true → level = 0
    | .jtag => False

/-- A port takes a frame (R119 to R121, R23): it runs, the frame is whole, of an allowed length and with a good FCS, and the port's buffer
has room for it. -/
def takes (s : State) (p : Nat) (f : Frame) : Prop :=
  portRuns s p = true ∧ f.cut = false ∧ f.fcsOk = true ∧ 64 ≤ f.len ∧ f.len ≤ (if (prpPair s p).isSome then 1528 else 1522) ∧
    (s.port p).inUsed + f.len ≤ 65536

/-- Task `t` runs, the word at its program counter is instruction `op` with the bits `x`, and its cost stays within the task's budget
(R303). -/
def atWord (s : State) (t op : Nat) (x : BitVec 26) (cost : Nat) : Prop :=
  runner s = some t ∧ codeWord s t (s.qrun t).pc = some (BitVec.ofNat 32 (op * 2 ^ 26 + x.toNat)) ∧
    (s.qrun t).units + cost ≤ (s.qtask t).maxInsn

/-- An instruction stands at an address of the task's code (R303). -/
def insnAt (s : State) (t pc : Nat) : Prop := ∃ w, codeWord s t pc = some w ∧ opcodeKnown w = true

/-- `atWord`, and an instruction stands behind it. -/
def atInsn (s : State) (t op : Nat) (x : BitVec 26) (cost : Nat) : Prop := atWord s t op x cost ∧ insnAt s t ((s.qrun t).pc + 1)

/-- A task goes on to an address, with registers `r` and `cost` more units used. -/
def goTo (s : State) (t : Nat) (r : QRun) (pc cost : Nat) : State := s.setQrun t { r with pc := pc, units := (s.qrun t).units + cost }

/-- A task goes on to its next instruction. -/
def advance (s : State) (t : Nat) (r : QRun) (cost : Nat) : State := goTo s t r ((s.qrun t).pc + 1) cost

end Sys2Proof.Machine
end

