-- ==== Sys2Proof/Certificates/Slice0/Obligations.lean ====
section
/-! DEFINITION. The statements for the provers. The rules R<n> are those of spec/; a log entry is notes/assumptions/<n>.md. -/

open Sys2Proof Sys2Proof.Machine

/-! ### The block as a whole -/

/-- A step executes the command at the front of the queue with the queue's rest; on an empty queue 1 ns passes (log entry 2: the
model's choice). -/
def Obligations.StepRunsTheFrontCommand : Prop :=
  (∀ (c : Instr) (s : State), step { s with pending := c :: s.pending } = exec c s) ∧
  (∀ s : State, s.pending = [] → step s = .next (idleTick s))

/-- What the spec gives right after reset: SYS_STATE is RESET (R431), the local tick counter and DTC stand at 0, TQ is 3 (R53), no
session is open, nothing is assembled or recorded, and the fields with a Reset column hold its value; the queue is empty, and the
memories keep their canonical form. That RESET_N is low and V3P3 within limits there is the model's choice (log entry 45). -/
def Obligations.ResetStateHolds : Prop :=
  State.reset.formed ∧ State.reset.pending = [] ∧ State.reset.sysState = 0 ∧ State.reset.ltc = 0 ∧ State.reset.dtcNs = 0 ∧
    State.reset.rul.clk.epoch = 0 ∧ State.reset.tq = 3 ∧ State.reset.rd Reg.HST_LOGSEV = 5 ∧ State.reset.f Reg.SYS_CTRL_TEST_TMO = 30 ∧
    State.reset.f Reg.SYS_PACE_PMIN = 2047 ∧ State.reset.f Reg.SYS_ID_PART = 0x8160 ∧
    (∀ n < 16, State.reset.f (Reg.HST_SESS_STAT_STATE n) = 0) ∧ State.reset.vel.recs = [] ∧ State.reset.scr.offers = [] ∧
    State.reset.sys.resetN = false ∧ State.reset.sys.v3p3Low = false

/-- Invariant: a step from a state whose register file, Inkwell area and LPDDR4X have their canonical form leaves them so
(log entry 6: the form is the model's choice). -/
def Obligations.EveryStepKeepsTheCanonicalForm : Prop :=
  ∀ s t : State, s.formed → step s = .next t → t.formed

/-- No command stops the block: each answers a next state, and none touches the queue of those behind it. -/
def Obligations.EveryCommandAnswersANextState : Prop :=
  ∀ (c : Instr) (s : State), ∃ t, exec c s = .next t ∧ t.pending = s.pending

/-- Frame of every command: it changes no component of the state but those that `touches` lists for it. -/
def Obligations.EveryCommandTouchesOnlyItsComponents : Prop :=
  ∀ (c : Instr) (s t : State), exec c s = .next t → onlyChanges (touches c) s t

/-- R13, R447, R451: a write that the access codes do not let through has no effect; a direct one is counted, and logged once in an
episode. -/
def Obligations.RefusedWritesHaveNoEffect : Prop :=
  ∀ (a : Access) (s : State) (v : Word) (n e : Fin 16) (w d : Fin 2) (k : Fin 32) (g : Fin 4) (b : Bool),
    ∀ p ∈ [(Instr.swtrig a n, Reg.AFE_CV_CTRL n, false), (.reload a n, Reg.AFE_CV_CTRL n, false),
      (.afeActWrite a n e w v, Reg.AFE_CV_ACT n e w, true), (.afeWdSrcWrite a n v, Reg.AFE_WD_SRC n, true),
      (.sfpXferStart a v, Reg.PBI_SFP_XFER, false), (.stkReset a v, Reg.STK_RESET, false), (.velTrig a v, Reg.VEL_TRIG, false),
      (.qilSlotSelWrite a v, Reg.QIL_SLOT_SEL, false), (.rulDomCfgWrite a d b v, Reg.RUL_DOM_CFG d, true),
      (.rulDomHaPhaseWrite a d v, Reg.RUL_DOM_HA_PHASE d, true), (.retry a k, Reg.FIO_FC_CTRL k, false),
      (.inhibit a k b, Reg.FIO_FC_CTRL k, true), (.ack a g, Reg.FIO_G_ACK g, true), (.relock a, Reg.SEA_DBG, false),
      (.ownerSlotWrite a v, Reg.SEA_OWN_CTRL, true), (.ownerSlotRevoke a v, Reg.SEA_OWN_CTRL, true),
      (.vendorRootRevoke a v, Reg.SEA_VREV, true), (.sysCtrlTestWrite a v, Reg.SYS_CTRL, true), (.grantWrite a v, Reg.DBG_GRANT, true)],
      ¬ accepts s a p.2.1 p.2.2 → exec p.1 s = .next (refusedWrite s a p.2.1)

/-- Frames of session commands on registers and on the Inkwell area: beside what each writes itself, named here, a command changes
its session's status and counters, a pending interrupt and the session's completion queue; SESSION_OPEN and DEBUG_UNLOCK draw a nonce
into the session's nonce area. -/
def Obligations.SessionCommandFrames : Prop :=
  ∀ (n : Fin 16) (v : SigFact) (c : Ecc) (s t : State),
    (∀ i ∈ [Instr.hello n, .sessionOpenPhase0 n, .readReg n, .modeSet n, .startWarm n, .startCold n], exec i s = .next t →
      sameRegsBut (sessRegs n) s t) ∧
    (exec (.epochAbort n) s = .next t → sameRegsBut (Reg.SYS_STATE :: sessRegs n) s t) ∧
    (exec (.setWrite ⟨n, c⟩) s = .next t → s.check c = .ok → sameRegsBut (Reg.SYS_STATE :: sessRegs n) s t) ∧
    (∀ i ∈ [Instr.memSweep n, .fuseCommit n], exec i s = .next t → sameRegsBut (Reg.MEM_STAT :: sessRegs n) s t) ∧
    (∀ i ∈ [Instr.sessionOpenPhase1 n v, .debugUnlockPhase0 n, .debugUnlockPhase1 n v], exec i s = .next t →
      sameRegsBut (Reg.SEA_STAT :: Reg.SEA_CNT :: sessRegs n) s t) ∧
    (exec (.timeStepAllow n) s = .next t → sameRegsBut (Reg.RUL_TQ :: sessRegs n) s t) ∧
    (∀ i ∈ [Instr.hello n, .readReg n, .modeSet n, .startWarm n, .startCold n, .setWrite ⟨n, c⟩, .epochAbort n, .memSweep n,
        .fuseCommit n, .timeStepAllow n, .sessionOpenPhase1 n v, .debugUnlockPhase1 n v], exec i s = .next t →
      ∀ o, o < n.val * 0x4000 + 0x1000 ∨ n.val * 0x4000 + 0x1800 ≤ o → t.hst.inkwell.get o = s.hst.inkwell.get o) ∧
    (∀ i ∈ [Instr.sessionOpenPhase0 n, .debugUnlockPhase0 n], exec i s = .next t →
      ∀ o, o < n.val * 0x4000 + 0x1000 ∨ n.val * 0x4000 + 0x2020 ≤ o ∨ (n.val * 0x4000 + 0x1800 ≤ o ∧ o < n.val * 0x4000 + 0x2000) →
        t.hst.inkwell.get o = s.hst.inkwell.get o)

/-- Frames of commands that change few registers, no session and no memory: the registers each may write. -/
def Obligations.DeviceEventFrames : Prop :=
  ∀ (s t : State) (tj : Int) (ok : Bool) (n : Fin 16) (w : ApertureWrite),
    ∀ e ∈ [(Instr.wfailClear, [Reg.SYS_START]), (.shadowResyncDone, [Reg.SYS_STATE]), (.seaRngFail, [Reg.SEA_STAT]),
      (.entropyHealthRestored, [Reg.SEA_STAT]), (.pwrgdRelease, []), (.tjHigh tj, [Reg.SYS_RAILS]), (.tjNormal tj, [Reg.SYS_RAILS]),
      (.bar2Write w, [Reg.HST_CNT]), (.selfCheck, [Reg.DBG_HEALTH]), (.flashProgDone ok, [Reg.SYS_FLASH_CTRL]),
      (.challengeTimeout n, [Reg.HST_SESS_STAT n]), (.cplTimeout n, [Reg.HST_PCIE_CNT]),
      (.debugUnlockExpiry, [Reg.SEA_DBG, Reg.SEA_STAT, Reg.DBG_STAT, Reg.DBG_GRANT]),
      (.allIdleTimeout, Reg.QIL_STAT :: (match s.qil.sw with | some w => sessRegs w.sess | none => []))],
      exec e.1 s = .next t → sameRegsBut e.2 s t ∧ t.hst.dram = s.hst.dram

/-- R449, R465: a 32-bit write of a part of the Inkwell area that the host may write stores its four bytes there, and changes nothing
else but the end of an episode of ill-formed accesses; the data of a read of a pull reach only their bytes of DRAM, at its offset
beyond PDST, and no byte beyond what the read asked for; a read that fails, or that no pull has asked for, stores nothing. -/
def Obligations.StoresReachOnlyTheirBytes : Prop :=
  (∀ (r : Requester) (o : Nat) (v : BitVec 64) (s : State), r ≠ .sup → r ≠ .cfg → inkServed s = true → inkPart o = some true → o % 4 = 0 →
    exec (.registerWrite r (0x800000 + o) 4 v) s = .next ((goodAccess s).inkWrite o (leBytes 4 v.toNat)) ∧
    ∀ b, b < o ∨ o + 4 ≤ b → ((goodAccess s).inkWrite o (leBytes 4 v.toNat)).hst.inkwell.get b = s.hst.inkwell.get b) ∧
  (∀ (n : Fin 16) (off : Nat) (data : List Byte) (s t : State) (c : Cmd) (r : PullRead), pulling s n = some c → c.readAt off = some r →
    exec (.pullReadCompletion n ⟨0, off⟩ data) s = .next t →
      ∀ b, b < bulkAddr s (c.pdst + off) ∨ bulkAddr s (c.pdst + off) + (data.take (r.len - r.got)).length ≤ b →
        t.hst.dram.get b = s.hst.dram.get b) ∧
  (∀ (n : Fin 16) (p : ReadCpl) (data : List Byte) (s t : State), p.status ≠ 0 ∨ (∀ c, pulling s n = some c → c.readAt p.off = none) →
    exec (.pullReadCompletion n p data) s = .next t → t.hst.dram = s.hst.dram)

/-- R434: in FAULT_SAFE Inkwell is not served and writes are ignored; BAR0 shows the SYS, MEM and DBG blocks, and 0 elsewhere; the
triggers of starts from service do nothing, a brown-out only shows in the rails, and RESET_N leaves it. -/
def Obligations.FaultSafeServesNothing : Prop :=
  ∀ s : State, s.sysState = 6 →
    (∀ (n : Fin 16) (ok : Bool) (g : SigFact) (c : Ecc) (r : Requester) (v : BitVec 64) (w : Word) (addr bytes : Nat) (a : ApertureWrite)
        (f : ColdFacts) (l : LoadFacts), r ≠ .cfg →
      ∀ i ∈ [Instr.hello n, .sessionOpenPhase0 n, .sessionOpenPhase1 n g, .sessionClose n, .readReg n, .writeReg n, .modeSet n,
        .setWrite ⟨n, c⟩, .epochCommit n, .epochAbort n, .startWarm n, .startCold n, .attest n, .debugUnlockPhase0 n,
        .debugUnlockPhase1 n g, .memSweep n, .fuseCommit n, .registerWrite r addr bytes v, .doorbell r n w, .completionDoorbell r n w,
        .bar2Write a, .supervisorWatchdogExpiry, .fatalFault, .coldStart f, .warmStart l ok, .testTimeout],
        exec i s = .next s) ∧
    (∀ cmd : Word, cmd.getLsbD 31 = true → cmd.toNat / 2 ^ 25 % 64 = 0 → cmd.toNat % 4 = 0 →
      ∃ t, exec (.spiTransaction cmd []) s = .next t ∧ t.hst.spiOut[2]? = some (BitVec.ofNat 32
        (if cmd.toNat % 2 ^ 24 < 0x10000 ∨ cmd.toNat % 2 ^ 24 / 0x10000 = 0x15 ∨ cmd.toNat % 2 ^ 24 / 0x10000 = 0x16 then
          (readReg s .spi (cmd.toNat % 2 ^ 24)).1 else 0))) ∧
    (∃ t, exec .brownOut s = .next t ∧ t.sysState = 6 ∧ onlyChanges [.regs, .pkg] s t) ∧
    ∃ t, exec .resetNAssert s = .next t ∧ t.sysState = 0

/-- R447, the whole rule: in RESET and during starts a read over BAR0 shows the SYS block and 0 elsewhere, and writes are ignored:
those of registers, of doorbells and of the fields that have a row of their own. -/
def Obligations.StartsShowTheSysBlockOnly : Prop :=
  ∀ s : State, s.sysState ≤ 2 →
    (∀ a : Nat, a % 4 = 0 → ∃ t, exec (.lowWordRead ⟨.pcie, 4⟩ a) s = .next t ∧
      t.hst.rdOut = [if a < 0x10000 then BitVec.ofNat 32 (readReg s .pcie a).1 else 0]) ∧
    (∀ cmd : Word, s.sysState ≠ 0 → cmd.getLsbD 31 = true → cmd.toNat / 2 ^ 25 % 64 = 0 → cmd.toNat % 4 = 0 →
      ∃ t, exec (.spiTransaction cmd []) s = .next t ∧ t.hst.spiOut[2]? = some (BitVec.ofNat 32
        (if cmd.toNat % 2 ^ 24 < 0x10000 then (readReg s .spi (cmd.toNat % 2 ^ 24)).1 else 0))) ∧
    (∀ (cmd : Word) (data : List Word), cmd.getLsbD 31 = false →
      ∃ t, exec (.spiTransaction cmd data) s = .next t ∧ onlyChanges [.hst] s t) ∧
    (∀ (r : Requester) (addr bytes : Nat) (v : BitVec 64) (n e : Fin 16) (w d : Fin 2) (x : Word) (k : Fin 32) (g : Fin 4) (b : Bool),
      r ≠ .cfg →
      ∀ i ∈ [Instr.registerWrite r addr bytes v, .doorbell r n x, .completionDoorbell r n x, .swtrig (.direct r) n, .reload (.direct r) n,
        .afeActWrite (.direct r) n e w x, .afeWdSrcWrite (.direct r) n x, .sfpXferStart (.direct r) x, .stkReset (.direct r) x,
        .velTrig (.direct r) x, .qilSlotSelWrite (.direct r) x, .rulDomCfgWrite (.direct r) d b x, .rulDomHaPhaseWrite (.direct r) d x,
        .retry (.direct r) k, .inhibit (.direct r) k b, .ack (.direct r) g, .relock (.direct r), .ownerSlotWrite (.direct r) x,
        .ownerSlotRevoke (.direct r) x, .vendorRootRevoke (.direct r) x, .sysCtrlTestWrite (.direct r) x, .grantWrite (.direct r) x],
        exec i s = .next s) ∧
    ∀ (r : Requester) (x : Word) (img : FolioImage), s.sys.flashGo = false → exec (.flashProgramGo (.direct r) x img) s = .next s

/-! ### Element contexts and engines -/

/-- R38, R172, R169: the oldest formed set of a stream context enters its ring, also where a credit of the sample-set queue
returns (R21); an idle engine takes the evaluation it picks out of its queue and runs it; the running evaluation ends; a flit of
at most four changes due leaves for Stroke. -/
def Obligations.EngineCommandsComplete : Prop :=
  (∀ (sc : Fin 224) (s : State) (set : SampleSet) (rest : List SampleSet),
    (s.sc sc).out = set :: rest → (s.sc sc).slots.length < 16 →
      ∃ t, exec (.sampleSetComplete sc) s = .next t ∧ (t.sc sc).out = rest ∧ (t.sc sc).ring = (set :: (s.sc sc).ring).take 128) ∧
  (∀ (i : Fin 256) (s : State) (set : SampleSet) (rest : List SampleSet), i.val < 224 →
    (s.sc i).out = set :: rest → (s.sc i).slots.length < 16 →
      ∃ t, exec (.creditReturn .sampleSets i) s = .next t ∧ (t.sc i).out = rest ∧ (t.sc i).ring = (set :: (s.sc i).ring).take 128) ∧
  (∀ (e : Fin 16) (s : State) (q : Queued), s.running = true → (s.eng e).run = none → pickQueued s (s.eng e).queue = some q →
    commitWaits s (nibKey q.ctx 0) 128 = false → modePending s 4 q.ctx = none → (s.nc q.ctx).svc ≠ 0 →
      ∃ t, exec (.evaluationDispatch e .ok .ok) s = .next t ∧ (t.eng e).queue = (s.eng e).queue.erase q ∧
        ∃ r, (t.eng e).run = some r ∧ r.q = q ∧ r.start = s.ltc) ∧
  (∀ (e : Fin 16) (s : State) (r : Running), (s.eng e).run = some r → flitBlocked s e = false →
    ∃ t, exec (.evaluationComplete e) s = .next t ∧ (t.eng e).run = none) ∧
  (∀ (e : Fin 16) (s : State), (s.eng e).run = none → (s.eng e).due ≠ [] → (s.eng e).lastFlit + 300 ≤ s.ltc → flitBlocked s e = false →
    ∃ t ds, exec (.outputLogicFlit e) s = .next t ∧ t.nib.toStroke = s.nib.toStroke ++ [(e.val, ds)] ∧
      ds.map (fun d => (d.ctx, d.word)) = (s.eng e).due.take 4 ∧ (t.eng e).due = (s.eng e).due.drop 4 ∧ (t.eng e).lastFlit = s.ltc)

/-- R184, R185, R186, R187: a record unanswered at a quarter of its deadline is signalled again; at its deadline it is
resolved and the context enters fallback; an ASSERT in time is accepted and resolves it; between two evaluations the accepted
word is applied, PU and OP cleared where it blocks. -/
def Obligations.HostAssistedDecisionsComplete : Prop :=
  (∀ (c : Fin 256) (s : State) (r : MRec), (s.nc c).out = some r → r.signals < 3 →
    r.at' + (r.signals + 1) * ((r.deadline - r.at') / 4) ≤ s.ltc → s.ltc < r.deadline →
      ∃ t, exec (.haResignal c) s = .next t ∧ (t.nc c).out = some { r with signals := r.signals + 1 } ∧
        (t.f Reg.HST_IRQ_PEND_PEND).testBit (8 + c.val / 16) = true) ∧
  (∀ (c : Fin 256) (s : State) (r : MRec), (s.nc c).out = some r → r.deadline ≤ s.ltc →
    ∃ t, exec (.haFallback c) s = .next t ∧ (t.nc c).out = none ∧ (t.nc c).accept = none ∧ inFallback t c = true ∧
      (t.nc c).resolved = (s.nc c).resolved ++ [(r.rseq, 0)]) ∧
  (∀ (n : Fin 16) (s : State) (k : Cmd) (r : MRec), ready s n 0x20 k → s.level n ≠ 2 → k.arg 0 2 < contexts s →
    (k.arg 2 1).testBit 7 = false → k.zero 3 4 = true → k.zero 8 32 = true → (s.nc (k.arg 0 2)).svc = 3 →
    (s.nc (k.arg 0 2)).out = some r → r.rseq = k.arg 4 4 → s.ltc < r.deadline →
      ∃ t, exec (.assertCmd n) s = .next t ∧ (t.nc (k.arg 0 2)).accept = some (k.arg 2 1) ∧ (t.nc (k.arg 0 2)).out = none) ∧
  (∀ (e : Fin 16) (s : State) (c w : Nat), (s.eng e).run = none → c / 16 = e.val → (s.nc c).accept = some w →
    ∃ t, exec (.haWordApply e) s = .next t ∧ (t.nc c).accept = none ∧ (t.nc c).applied = hostWord w ∧ inFallback t c = false)

/-- R241, R242, R245, R247: a pending confirmation, a held word and a lock end at their times, and the hardware decision is then
0x00; the oldest stamp that a link has received leaves it, and every TWLOC context of its line in service keeps it.

R28, R440: the pace index of a window is shown once the window of the 1 ms grid has ended, with the lowest so far, and the next window
begins; the committed settings of a context become live 208,300 ns after the commit where no evaluation of it has begun, and none of them
waits any more. That the switch falls at the end of the 208.3 us of R440 is the model's choice (log entry 47). -/
def Obligations.ContextTimersComplete : Prop :=
  (∀ (c : Fin 256) (s : State) (p : WdEvent × Nat), (s.nc c).wave.pend = some p → p.2 + nsCeil (s.live c 36) + 100000 ≤ s.ltc →
    ∃ t, exec (.twdetUnconfirmed c) s = .next t ∧ (t.nc c).wave.pend = none ∧ (t.nc c).hw = 0) ∧
  (∀ (c : Fin 256) (s : State) (h : Nat), (s.nc c).wave.hold = some h → h ≤ s.ltc →
    ∃ t, exec (.twdetHoldEnd c) s = .next t ∧ (t.nc c).wave.hold = none ∧ (t.nc c).hw = 0) ∧
  (∀ (n : Fin 4) (s : State) (p : Nat × Nat × TwStamp), s.nib.stamps.find? (fun p => p.1 = n.val) = some p →
    ∃ t, exec (.twlocStampDelivery n) s = .next t ∧ t.nib.stamps = s.nib.stamps.erase p ∧
      ∀ c ∈ twlocFor s n p.2.1, (s.nc c).svc ≠ 0 → p.2.2 ∈ (t.nc c).tw) ∧
  (∀ (c : Fin 256) (s : State) (ev : WdEvent) (u : Nat), (s.nc c).wave.lock = some (ev, u) → u ≤ s.ltc →
    ∃ t, exec (.twlocUnlock c) s = .next t ∧ (t.nc c).wave.lock = none ∧ (t.nc c).wave.located = false ∧ (t.nc c).hw = 0) ∧
  (∀ (p : Nat) (s : State), (s.rul.clk.paceK + 1) * 1000000 ≤ s.ltc →
    ∃ t, exec (.paceWindowEnd p) s = .next t ∧ t.f Reg.SYS_PACE_P = min p 2047 ∧
      t.f Reg.SYS_PACE_PMIN = min (min p 2047) (s.f Reg.SYS_PACE_PMIN) ∧ t.rul.clk.paceK = s.rul.clk.paceK + 1) ∧
  (∀ (c : Fin 256) (s : State) (k : Nat × Nat × Nat), s.sys.commit = some k → k.2.2 + 208300 ≤ s.ltc → (s.eng (c.val / 16)).run = none →
    commitWaits s (nibKey c 0) 128 = true →
      ∃ t, exec (.contextSettingsSwitch c) s = .next t ∧ commitWaits t (nibKey c 0) 128 = false)

/-! ### Ruling unit -/

/-- R61, R62, R66, R67: a received PTP message leaves the queue with its effect: a two-step Sync of the selected port waits for its
Follow_Up, which takes it; an Announce enters the set of its domain; a request is answered; a one-step response
gives the path delay, a two-step one waits for its follow-up; a port sends a request each second. -/
def Obligations.PtpMessagesComplete : Prop :=
  (∀ (s : State) (r : PtpRx) (rest : List PtpRx) (num seq : Nat) (origin corr logInt : Int) (inacc : Option Nat) (d : Nat),
    s.rul.ptpIn = r :: rest → r.msg = .sync num seq true origin corr logInt inacc → -4 ≤ logInt → logInt ≤ 0 → d ∈ domsFor s num r.port →
    (s.dom d).port = some r.port → (s.dom d).barred.contains r.port = false →
      ∃ t, exec .syncReceived s = .next t ∧ t.rul.ptpIn = rest ∧ (t.dom d).wait = some ⟨seq, r.port, r.copyOf d, corr⟩) ∧
  (∀ (s : State) (r : PtpRx) (rest : List PtpRx) (num seq : Nat) (inacc : Option Nat) (origin corr : Int) (d : Nat) (w : SyncWait),
    s.rul.ptpIn = r :: rest → r.msg = .followUp num seq origin corr inacc → d ∈ domsFor s num r.port →
    (s.dom d).port = some r.port → (s.dom d).wait = some w → w.seq = seq → w.port = r.port →
      ∃ t, exec .followUpReceived s = .next t ∧ t.rul.ptpIn = rest ∧ (t.dom d).wait = none ∧ (t.dom d).lastSync = s.ltc) ∧
  (∀ (s : State) (r : PtpRx) (rest : List PtpRx) (num : Nat) (ds : Announce) (logInt : Int) (inacc : Option Nat) (d : Nat),
    s.rul.ptpIn = r :: rest → r.msg = .announce num ds logInt inacc → logInt = 0 ∨ logInt = 1 → d ∈ domsFor s num r.port →
      ∃ t, exec .announceReceived s = .next t ∧ t.rul.ptpIn = rest ∧ ⟨r.port, ds, s.ltc, logInt, inacc⟩ ∈ (t.dom d).anns) ∧
  (∀ (s : State) (r : PtpRx) (rest : List PtpRx) (num seq : Nat),
    s.rul.ptpIn = r :: rest → r.msg = .pdelayReq num seq →
    (r.port < 24 ∧ s.egressLen r.port + Config.frameOctets 3 [] ≤ 32768) ∨
      (24 ≤ r.port ∧ s.linkUp r.port = true ∧ s.on (Reg.STN_SB_CFG_EN (r.port - 24)) = true) →
      ∃ t, exec .pdelayReqReceived s = .next t ∧ t.rul.ptpIn = rest ∧
        ∃ i ∈ (t.port r.port).egress, i.body = .ptp (.pdelayResp num seq false 0 0) ∧ i.inLtc = r.ltc) ∧
  (∀ (s : State) (r : PtpRx) (rest : List PtpRx) (num seq t1 : Nat) (t2 corr : Int),
    s.rul.ptpIn = r :: rest → r.msg = .pdelayResp num seq false t2 corr → (s.ptpPort r.port).out = some (seq, t1) →
      ∃ t, exec .pdelayRespReceived s = .next t ∧ t.rul.ptpIn = rest ∧
        (t.ptpPort r.port).delay = some ((((r.ltc : Int) - t1) * 65536 - corr) / 2) ∧ (t.ptpPort r.port).out = none) ∧
  (∀ (s : State) (r : PtpRx) (rest : List PtpRx) (num seq t1 : Nat) (t2 corr : Int),
    s.rul.ptpIn = r :: rest → r.msg = .pdelayResp num seq true t2 corr → (s.ptpPort r.port).out = some (seq, t1) →
      ∃ t, exec .pdelayRespReceived s = .next t ∧ t.rul.ptpIn = rest ∧ (t.ptpPort r.port).resp = some (r.ltc, t2, corr)) ∧
  (∀ (s : State) (r : PtpRx) (rest : List PtpRx) (num seq t1 t4 : Nat) (t2 t3 c corr : Int),
    s.rul.ptpIn = r :: rest → r.msg = .pdelayRespFu num seq t3 corr → (s.ptpPort r.port).out = some (seq, t1) →
    (s.ptpPort r.port).resp = some (t4, t2, c) →
      ∃ t, exec .pdelayRespReceived s = .next t ∧ t.rul.ptpIn = rest ∧
        (t.ptpPort r.port).delay = some ((((t4 : Int) - t1) * 65536 - ((t3 - t2) * 65536 + c + corr)) / 2)) ∧
  (∀ (s : State) (p : Fin 28) (d : Nat), d < 2 → (s.domPorts d).testBit p = true → s.f (Reg.RUL_DOM_CFG_SOURCE d) = 1 → pdelayDue s p = true →
    ∃ t, exec (.pdelayReqSend p) s = .next t ∧ (t.ptpPort p).out = some ((s.ptpPort p).seq, s.ltc) ∧
      (t.ptpPort p).seq = ((s.ptpPort p).seq + 1) % 65536 ∧ (t.ptpPort p).sentAt = some s.ltc)

/-- R66, R70, R79, R83: what the times of a domain bring: the port whose Announce or Sync is missing leaves the selection, a hold
of SUSPECT ends in TRACKING, a silent host servo ends in HOLDOVER, and DTC returns to the preferred domain. -/
def Obligations.DomainTimersComplete : Prop :=
  (∀ (d : Fin 2) (s : State) (p : Nat) (e : AnnEntry), (s.dom d).port = some p →
    (s.dom d).anns.find? (fun e => some e.port = (s.dom d).port) = some e → e.ltc + announceLife e ≤ s.ltc →
      ∃ t, exec (.announceReceiptTimeout d) s = .next t ∧ ∀ a ∈ (t.dom d).anns, a.port ≠ p) ∧
  (∀ (d : Fin 2) (s : State) (p : Nat), (s.dom d).port = some p → s.f (Reg.RUL_DOM_CFG_SOURCE d) = 1 →
    (s.dom d).lastSync + 3 * (s.dom d).interval ≤ s.ltc →
      ∃ t, exec (.syncMissingTimeout d) s = .next t ∧ (t.dom d).barred = p :: (s.dom d).barred) ∧
  (∀ (d : Fin 2) (s : State) (h : Suspect), (s.dom d).susp = some h → s.domSt d = domSuspect → h.ends ≤ s.ltc →
    ∃ t, exec (.suspectHoldEnd d) s = .next t ∧ (t.dom d).susp = none ∧ t.domSt d = domTracking) ∧
  (∀ (d : Fin 2) (s : State), s.on (Reg.RUL_DOM_CFG_HA d) = true → s.domSt d = domTracking ∨ s.domSt d = domSuspect →
    (s.dom d).haLast + 4000000000 ≤ s.ltc →
      ∃ t, exec (.hostServoTimeout d) s = .next t ∧ t.domSt d = domHoldover ∧ (t.dom d).susp = none) ∧
  (∀ (s : State) (u : Nat), (s.dom (s.f Reg.RUL_CTRL_PREF)).usableSince = some u → s.on Reg.RUL_CTRL_REVERT = true →
    s.sel ≠ s.f Reg.RUL_CTRL_PREF → s.usable (s.f Reg.RUL_CTRL_PREF) = true → u + 60000000000 ≤ s.ltc →
      ∃ t, exec .domainRevert s = .next t ∧ t.sel = s.f Reg.RUL_CTRL_PREF) ∧
  (∀ (d : Fin 2) (s : State) (g : Nat), (s.dom d).grant = some g → g + 600000000000 ≤ s.ltc →
    ∃ t, exec (.stepGrantExpired d) s = .next t ∧ (t.dom d).grant = none)

/-- R65, R77, R83: what a host does to the domains: a P0 session writes a port set that no other domain of the number shares, gives
a phase correction of a host-assisted servo, and grants a step to the domains it names.

R57, R58: a well-formed read of the low word of LTC latches its high word for the requester, and one of RUL_DTC_NS latches the
seconds and the epoch; a 64-bit read of PCIe answers both words of one instant; a write of QIL_SLOT_SEL latches the slot it selects
(R318). -/
def Obligations.HostTimeCommandsComplete : Prop :=
  (∀ (a : Access) (d : Fin 2) (v : Word) (s : State), accepts s a (Reg.RUL_DOM_CFG d) true → portOverlap (domWord s d true v.toNat) = false →
    ∃ t, exec (.rulDomCfgWrite a d true v) s = .next t ∧ t.rd (Reg.RUL_DOM_PORTS d) = v.toNat % 2 ^ 28) ∧
  (∀ (a : Access) (d : Fin 2) (v : Word) (s : State), accepts s a (Reg.RUL_DOM_HA_PHASE d) true → s.on (Reg.RUL_DOM_CFG_HA d) = true →
    ∃ t, exec (.rulDomHaPhaseWrite a d v) s = .next t ∧ t.f (Reg.RUL_DOM_HA_PHASE_HPHASE d) = v.toNat ∧
      (t.dom d).haLast = s.ltc ∧ (t.dom d).copy = (s.dom d).copy + v.toInt * (uPerNs : Int)) ∧
  (∀ (n : Fin 16) (s : State) (c : Cmd), ready s n 0x21 c → s.level n = 0 → c.arg 0 1 ≠ 0 → c.arg 0 1 < 4 → c.zero 1 32 = true →
    (∀ d ∈ bitsOf 2 (c.arg 0 1), s.domSt d ≠ domDisabled ∧ (s.dom d).grant = none) →
      ∃ t, exec (.timeStepAllow n) s = .next t ∧ ∀ d ∈ bitsOf 2 (c.arg 0 1), (t.dom d).grant = some s.ltc) ∧
  (∀ (r : RegRead) (s : State), r.who ≠ .cfg → illRead r.who Reg.RUL_LTC_LO r.bytes = false →
    ∃ t, exec (.lowWordRead r Reg.RUL_LTC_LO) s = .next t ∧ t.shadowOf r.who Reg.RUL_LTC_HI = s.ltc / 2 ^ 32 % 2 ^ 32) ∧
  (∀ s : State, readServed s Reg.RUL_LTC_LO = true → ∃ t, exec (.lowWordRead ⟨.pcie, 8⟩ Reg.RUL_LTC_LO) s = .next t ∧
    t.hst.rdOut = [BitVec.ofNat 32 s.ltc, BitVec.ofNat 32 (s.ltc / 2 ^ 32)]) ∧
  (∀ (r : RegRead) (s : State), r.who ≠ .cfg → illRead r.who Reg.RUL_DTC_NS r.bytes = false →
    ∃ t, exec (.dtcSnapshotRead r) s = .next t ∧
      t.shadowOf r.who Reg.RUL_DTC_SEC_LO = s.dtcNs / 1000000000 % 2 ^ 32 ∧
      t.shadowOf r.who Reg.RUL_DTC_SEC_HI = s.dtcNs / 1000000000 / 2 ^ 32 % 65536 + s.rul.clk.epoch * 65536) ∧
  (∀ (a : Access) (v : Word) (s : State), accepts s a Reg.QIL_SLOT_SEL false →
    ∃ t, exec (.qilSlotSelWrite a v) s = .next t ∧
      t.shadowOf (accessReq s a) Reg.QIL_SLOT_SEL = v.toNat % 32768 ∧
      t.shadowOf (accessReq s a) Reg.QIL_SLOT_ID = (slotWords s (v.toNat / 8192 % 4) (v.toNat % 8192)).getD 0 0)

/-- R59, R84, R85, R55, R69: reference, legacy inputs, the PPS output, TQ and the end of a slew. -/
def Obligations.TimeSourcesComplete : Prop :=
  (∀ s : State, s.on Reg.RUL_TQ_REF = true →
    ∃ t, exec .refLost s = .next t ∧ t.on Reg.RUL_TQ_REF = false ∧ t.rul.clk.refLost = some s.ltc) ∧
  (∀ (s : State) (u : Nat), s.rul.clk.refLost = some u → s.on Reg.RUL_CTRL_REF_SEL = true → s.on Reg.RUL_TQ_REF = false →
    u + 10000000000 ≤ s.ltc → ∃ t, exec .refRestored s = .next t ∧ t.on Reg.RUL_TQ_REF = true ∧ t.rul.clk.refLost = none) ∧
  (∀ (s : State) (fmt day sec year y : Nat) (tai : Int), s.on Reg.RUL_LEG_CFG_IRIG_EN = true → fmt ≤ 7 →
    y = (if 4 ≤ fmt then year else s.f Reg.RUL_LEG_CFG_YEAR) → 4 ≤ fmt ∨ y ≠ 0 →
    tai = daysToYear y * 86400 + (((day - 1) * 86400 + sec : Nat) : Int) + s.f Reg.RUL_LEG_CFG_TAI_UTC → irigFollows s tai = true →
      ∃ t, exec (.irigbFrame fmt day sec year) s = .next t ∧ t.rul.clk.irig = some (tai, s.ltc)) ∧
  (∀ (s : State) (p : Int × Nat) (d : Nat), d < 2 → s.on Reg.RUL_LEG_CFG_PPS_EN = true → s.rul.clk.irig = some p →
    s.f (Reg.RUL_DOM_CFG_SOURCE d) = 2 → ∃ t, exec .ppsInEdge s = .next t ∧ (t.dom d).lastSync = s.ltc) ∧
  (∀ s : State, s.sysState ≠ 0 → s.rul.clk.ppsSec < dtcSecond s → s.rul.clk.dtcSet = true → s.on Reg.RUL_PPS_OUT_EN = true →
    s.on Reg.RUL_PPS_OUT_GATE = false ∨ s.tq ≤ 1 →
      ∃ t, exec .ppsOutRise s = .next t ∧ t.rul.clk.ppsOut = true ∧ t.rul.clk.ppsRise = s.ltc ∧ t.rul.clk.ppsSec = dtcSecond s) ∧
  (∀ s : State, s.rul.clk.ppsOut = true → s.rul.clk.ppsRise + s.f Reg.RUL_PPS_OUT_WIDTH * 1000000 ≤ s.ltc →
    ∃ t, exec .ppsOutFall s = .next t ∧ t.rul.clk.ppsOut = false) ∧
  (∀ s : State, tqOf s ≠ s.tq → ∃ t, exec .tqChange s = .next t ∧ t.tq = tqOf s) ∧
  (∀ s : State, s.on Reg.RUL_TQ_SLEWING = true → s.delta = 0 →
    ∃ t, exec .dtcSlewEnd s = .next t ∧ t.on Reg.RUL_TQ_SLEWING = false ∧ t.rul.clk.stepPend = false)

/-! ### Analogue front end -/

/-- R60, R91, R92, R97, R105: the sample tick that DTC has reached is taken and the next one stands after it; a software trigger
starts a pass of an idle SEQ converter; a conversion adds its code to the result of a SEQ entry, or to the window in STREAM mode,
which is full with its 64th; a full window closes and its block enters the lane of the converter. -/
def Obligations.ConvertersComplete : Prop :=
  (∀ s : State, tickTime s.rul.clk.tick ≤ s.rul.clk.dtc →
    ∃ t, exec .sampleTick s = .next t ∧ t.rul.clk.gridOff = false ∧
      t.rul.clk.tick = max s.rul.clk.tick (s.rul.clk.dtc * 96000 / ((uPerNs * 1000000000 : Nat) : Int)).toNat + 1) ∧
  (∀ (a : Access) (n : Fin 16) (s : State), accepts s a (Reg.AFE_CV_CTRL n) false → s.cvRuns n = true → s.rul.clk.gridOff = false →
    (s.cv n).mode = 0 → s.f (Reg.AFE_CV_CTRL_TRIG n) = 2 → n.val < s.converters → (s.cv n).busy = false →
      ∃ t, exec (.swtrig a n) s = .next t ∧ (t.cv n).busy = true ∧ (t.cv n).entry = 0 ∧ (t.cv n).reload = false ∧
        (t.cv n).start = (s.rul.clk.dtc * 98304000 / ((uPerNs * 1000000000 : Nat) : Int)).toNat) ∧
  (∀ (n : Fin 16) (vin : Int) (s : State), s.cvRuns n = true → n.val < s.converters → (s.cv n).mode = 0 → (s.cv n).busy = true →
    (s.cv n).urg = none → convStalled s n = false → feedLag s n < 4 → (s.cv n).done + 1 < 2 ^ eAvg (s.cv n).w0 →
    (s.cv n).done + 1 < 2 ^ eAvg (s.rd (Reg.AFE_CV_ACT n (s.cv n).entry 0)) →
      ∃ t, exec (.conversionComplete n vin) s = .next t ∧ (t.cv n).done = (s.cv n).done + 1 ∧
        (t.cv n).acc = (s.cv n).acc + (convert vin (eRange (s.cv n).w0) (eGain (s.cv n).w0)).1) ∧
  (∀ (n : Fin 16) (vin : Int) (s : State) (w : Window), s.cvRuns n = true → n.val < s.converters → (s.cv n).mode = 1 →
    convStalled s n = false → feedLag s n < 4 → windowOf s (s.cv n) = some w → w.codes.length < 63 →
      ∃ t c x, exec (.conversionComplete n vin) s = .next t ∧ (t.cv n).win = some x ∧ x.tick = w.tick ∧ x.epoch = w.epoch ∧
        x.codes = c :: w.codes ∧ c.m = 64 * w.tick + w.codes.length) ∧
  (∀ (n : Fin 16) (vin : Int) (s : State) (w : Window), s.cvRuns n = true → n.val < s.converters → (s.cv n).mode = 1 →
    convStalled s n = false → feedLag s n < 4 → windowOf s (s.cv n) = some w → w.codes.length = 63 →
      ∃ t c x, exec (.conversionComplete n vin) s = .next t ∧ (t.cv n).win = some (newWindow (w.tick + 1) w.epoch) ∧
        (t.cv n).full = (s.cv n).full ++ [x] ∧ x.tick = w.tick ∧ x.epoch = w.epoch ∧ x.codes = c :: w.codes ∧ c.m = 64 * w.tick + 63) ∧
  (∀ (n : Fin 16) (s : State) (w : Window) (rest : List Window), s.cvRuns n = true → convStalled s n = false → (s.cv n).full = w :: rest →
    ∃ t b, exec (.streamWindowClose n) s = .next t ∧ (t.cv n).full = rest ∧ (t.vel.lanes.get n).head? = some b ∧
      b.codes = w.codes.reverse.map (fun c => c.code) ∧ b.hold = 1024 * w.tick - 504)

/-- R96, R97, R98, R108, R111: a table that passes its checks waits for its reload; a write of an active entry, and one of the
sources of a detector, that passes them takes effect; reserved bits stay 0.

R99, R101, R113, R116: a crossing of an enabled comparator is held until it re-arms; an urgent conversion ends and none other is
taken before the next tick; a detection with its eight values gives an event, and the next one has the next number. -/
def Obligations.TablesAndDetectorsComplete : Prop :=
  (∀ (a : Access) (n : Fin 16) (s : State), accepts s a (Reg.AFE_CV_CTRL n) false → n.val < s.converters →
    tableRefusal s n (shdTable s n) (mapWith s n (shdTable s n)) = none →
      ∃ t, exec (.reload a n) s = .next t ∧ (t.cv n).reload = true ∧ t.on (Reg.AFE_CV_STAT_RELOAD_PEND n) = true) ∧
  (∀ (a : Access) (n e : Fin 16) (w : Fin 2) (v : Word) (s : State), accepts s a (Reg.AFE_CV_ACT n e w) true → n.val < s.converters →
    afeRefusal s (Reg.AFE_CV_ACT n e w) (v.toNat &&& entryMask w) = none →
      ∃ t, exec (.afeActWrite a n e w v) s = .next t ∧ t.rd (Reg.AFE_CV_ACT n e w) = v.toNat &&& entryMask w) ∧
  (∀ (a : Access) (n : Fin 16) (v : Word) (s : State), accepts s a (Reg.AFE_WD_SRC n) true →
    afeRefusal s (Reg.AFE_WD_SRC n) (v.toNat % 131072) = none →
      ∃ t, exec (.afeWdSrcWrite a n v) s = .next t ∧ t.rd (Reg.AFE_WD_SRC n) = v.toNat % 131072) ∧
  (∀ (i : Fin 64) (above : Bool) (s : State), s.afeRuns = true → s.on (Reg.AFE_AIN_CFG_CMP_EN i) = true →
    s.afe.crossed.testBit i = false → i.val / 4 < s.converters →
      ∃ t, exec (.comparatorCrossing i above) s = .next t ∧ t.afe.crossed.testBit i = true) ∧
  (∀ (i : Fin 64) (s : State), ∃ t, exec (.comparatorRearm i) s = .next t ∧ t.afe.crossed.testBit i = false) ∧
  (∀ (n : Fin 16) (vin : Int) (s : State) (input : Nat), s.cvRuns n = true → (s.cv n).urg = some input →
    ∃ t, exec (.urgentConversionComplete n vin) s = .next t ∧ (t.cv n).urg = none ∧ (t.cv n).urgDone = true) ∧
  (∀ (n : Fin 16) (s : State) (m0 : Nat), s.afeRuns = true → (s.wd n).det = some m0 → ((s.wd n).at (m0 + 7)).isSome = true →
    ∃ t, exec (.wavefrontEvent n) s = .next t ∧ (t.wd n).det = none ∧ (t.wd n).evseq = ((s.wd n).evseq + 1) % 4294967296)

/-! ### Ports, sampled values, GOOSE -/

/-- R1, R118, R119, R122: the signals of a port that the variant has give its link, and a change of the link is logged once; a link that
comes up at another speed than 1000 Mbit/s stays as it is and is counted on SGMII; the land of an absent port does nothing; a transfer
to an SFP begins and ends, a read with its byte.

R120, R121, R125, R127, R129, R350: an SV frame that a stream matches joins the queue of the decoder, a GOOSE message that a
subscription matches that of its decoder, a PTP message on a port of a domain that of the Ruling unit, which uses no other address than
those of R61; a duplicate on a PRP pair and a
ring port's own frame go nowhere; a group frame of a bridge group or of the ring, and a ring frame for another station, wait to be
forwarded.

R119 to R121, R23: a frame that is cut, shorter than 64 octets or longer than the port takes is discarded and counted, and so is one
with a bad FCS that nothing forwards and one for which the port's buffer has no room; a port that does not run takes none.

R126, R127, R128, R349, R351: a frame that waits to be forwarded leaves its port and joins the egress queue of every port it is
forwarded to that runs and has room for it; the first frame of an egress queue starts and occupies the line for its octets and 20
more at 8 ns, or is dropped on a station port whose link is down; a pair sends its supervision frame on each port with one SeqNr, where
the queue of a process port has room for it (the model's choice, log entry 63). -/
def Obligations.LinksAndFramesComplete : Prop :=
  (∀ (p : Fin 28) (los pcs an up : Bool) (s : State), portExists s p = true → up = (pcs && (an || !portAn s p) && !los) →
    ∃ t, exec (.portLinkDown p ⟨los, pcs, an⟩) s = .next t ∧ t.linkUp p = up ∧
      (s.linkUp p = up → t.scr.offers = s.scr.offers) ∧
      (s.linkUp p ≠ up → ∃ r, t.scr.offers = s.scr.offers ++ [r] ∧ r.inst = (if p.val < 24 then p.val else p.val - 24) ∧
        r.code = (if p.val < 24 then (if up then Ev.PORT_LINK_UP else Ev.PORT_LINK_DOWN)
          else if up then Ev.STN_LINK_UP else Ev.STN_LINK_DOWN).code)) ∧
  (∀ (p : Fin 28) (s : State), portExists s p = true →
    ∃ t, exec (.portLinkUp p true) s = .next t ∧ t.linkUp p = true ∧ (s.linkUp p = true → t.scr.offers = s.scr.offers) ∧
      (s.linkUp p = false → ∃ r, t.scr.offers = s.scr.offers ++ [r] ∧
        r.code = (if p.val < 24 then Ev.PORT_LINK_UP else Ev.STN_LINK_UP).code)) ∧
  (∀ (p : Fin 28) (s : State), portExists s p = true →
    ∃ t, exec (.portLinkUp p false) s = .next t ∧ t.linkUp p = s.linkUp p ∧ (portSgmii s p = true →
      ∀ x, x = (if p.val < 24 then Reg.PBI_PB_STAT_LINK_REFUSED p else Reg.STN_SB_STAT_LINK_REFUSED (p.val - 24)) →
        t.f x = min (s.f x + 1) (2 ^ x.width - 1))) ∧
  (∀ (p : Fin 28) (los pcs an gigabit : Bool) (s : State), portExists s p = false →
    exec (.portLinkDown p ⟨los, pcs, an⟩) s = .next s ∧ exec (.portLinkUp p gigabit) s = .next s) ∧
  (∀ (a : Access) (v : Word) (s : State), accepts s a Reg.PBI_SFP_XFER false → v.toNat.testBit 24 = true →
    ∃ t, exec (.sfpXferStart a v) s = .next t ∧ t.on Reg.PBI_SFP_XFER_BUSY = true ∧
      t.f Reg.PBI_SFP_XFER_OFFSET = v.toNat / 2 ^ Reg.PBI_SFP_XFER_OFFSET.lo % 256) ∧
  (∀ (nack : Bool) (data : Byte) (s : State), s.on Reg.PBI_SFP_XFER_BUSY = true →
    ∃ t, exec (.sfpXferDone nack data) s = .next t ∧ t.on Reg.PBI_SFP_XFER_BUSY = false ∧ t.on Reg.PBI_SFP_XFER_NACK = nack ∧
      t.f Reg.PBI_SFP_XFER_DATA = if s.on Reg.PBI_SFP_XFER_RD && !nack then data.toNat else s.f Reg.PBI_SFP_XFER_DATA) ∧
  (∀ (p : Fin 28) (f : Frame) (s : State), takes s p f → groupOf s p = 0 → prpPair s p = none → isHsr s p = false → f.tags < 2 →
    (∀ (pdu : SvPdu) (c : Nat), f.body = .sv pdu → svMatch s f pdu = some c → modePending s 1 c = none → s.on (Reg.PBI_SC_CFG_HA c) = false →
      ∃ t, exec (.frameReceived p f) s = .next t ∧ t.pbi.svq = s.pbi.svq ++ [⟨p, s.ltc, s.dtcNs, f.len, c, pdu⟩] ∧
        (t.port p).inUsed = (s.port p).inUsed + f.len) ∧
    (∀ (m : GooseMsg) (g : Nat), f.body = .goose m → gsMatch s f m = some g → modePending s 2 g = none → s.on (Reg.PBI_GS_CFG_HA g) = false →
      ∃ t, exec (.frameReceived p f) s = .next t ∧ t.pbi.gq = s.pbi.gq ++ [⟨p, s.ltc, f.len, g, m⟩] ∧
        (t.port p).inUsed = (s.port p).inUsed + f.len) ∧
    (∀ (m : PtpMsg) (d : Nat), f.body = .ptp m → ptpAddr f.dst = true → d < 2 → (s.domPorts d).testBit p = true →
      ∃ t r, exec (.frameReceived p f) s = .next t ∧ t.rul.ptpIn = s.rul.ptpIn ++ [r] ∧ r.port = p.val ∧ r.ltc = s.ltc ∧ r.msg = m) ∧
    (∀ (m : PtpMsg) (d : Nat), f.body = .ptp m → ptpAddr f.dst = false → d < 2 → (s.domPorts d).testBit p = true →
      ∃ t, exec (.frameReceived p f) s = .next t ∧ t.rul = s.rul ∧ t.hst = s.hst ∧ t.pbi.svq = s.pbi.svq ∧ t.pbi.gq = s.pbi.gq)) ∧
  (∀ (p : Fin 28) (f : Frame) (s : State) (k : Nat) (r : Rct), takes s p f → groupOf s p = 0 → prpPair s p = some k → isHsr s p = false →
    f.rct = some r → rctValid f r = true → isPtp f.body = false → dupSeen s k f.src r.seq = true →
      ∃ t, exec (.frameReceived p f) s = .next t ∧ t.pbi.svq = s.pbi.svq ∧ t.pbi.gq = s.pbi.gq ∧ t.hst.inkwell = s.hst.inkwell) ∧
  (∀ (p : Fin 28) (f : Frame) (s : State), takes s p f → isHsr s p = true → f.src = s.pbi.pairMac.getD ((p.val - 24) / 2) 0 →
    ∃ t, exec (.frameReceived p f) s = .next t ∧ (t.port p).fwd = (s.port p).fwd ∧ t.pbi.svq = s.pbi.svq ∧ t.pbi.gq = s.pbi.gq) ∧
  (∀ (p : Fin 28) (f : Frame) (s : State) (seq own : Nat), takes s p f → isHsr s p = true → f.hsr = some seq →
    own = s.pbi.pairMac.getD ((p.val - 24) / 2) 0 → f.src ≠ own → linkLocal f.dst = false → isPdelay f.body = false →
    dupSeen s (12 + (p.val - 24) / 2) f.src seq = false → multicast f.dst = true ∨ f.dst ≠ own →
      ∃ t, exec (.frameReceived p f) s = .next t ∧ (t.port p).fwd = (s.port p).fwd ++ [(f, s.ltc)]) ∧
  (∀ (p : Fin 28) (f : Frame) (s : State), takes s p f → isHsr s p = false → 1 ≤ groupOf s p → groupOf s p ≤ 4 → linkLocal f.dst = false →
    isPdelay f.body = false → multicast f.dst = true →
      ∃ t, exec (.frameReceived p f) s = .next t ∧ (t.port p).fwd = (s.port p).fwd ++ [(f, s.ltc)]) ∧
  (∀ (p : Fin 28) (f : Frame) (s : State),
     (portRuns s p = false → exec (.frameReceived p f) s = .next s) ∧
     (portRuns s p = true → 65536 < (s.port p).inUsed + f.len → exec (.frameReceived p f) s = .next (s.portCnt p 2 2)) ∧
     (portRuns s p = true → (s.port p).inUsed + f.len ≤ 65536 →
       f.cut = true ∨ f.len < 64 ∨ (if (prpPair s p).isSome then 1528 else 1522) < f.len ∨
         (f.fcsOk = false ∧ isHsr s p = false ∧ groupOf s p = 0) → exec (.frameReceived p f) s = .next (s.portCnt p 1 1))) ∧
  (∀ (p : Fin 28) (s : State) (e : Frame × Nat) (rest : List (Frame × Nat)), (s.port p).fwd = e :: rest →
    ∃ t, exec (.frameForward p) s = .next t ∧ (t.port p).fwd = rest ∧
      ∀ q ∈ forwardPorts s p, portRuns s q = true → s.egressLen q + e.1.len ≤ 32768 →
        ∃ i ∈ (t.port q).egress, i.body = .fwd e.1 (!e.1.fcsOk) ∧ i.inPort = p ∧ i.inLtc = e.2) ∧
  (∀ (p : Fin 28) (s : State) (i : TxItem) (rest : List TxItem), (s.port p).egress = i :: rest → s.running = true →
    portEn s p = true → s.linkUp p = true → (s.port p).txFree ≤ s.ltc →
      ∃ t j, exec (.frameTxStart p) s = .next t ∧ (t.port p).egress = rest ∧ (t.port p).txFree = s.ltc + (i.len + 20) * 8 ∧
        (t.port p).tx = some j ∧ j.len = i.len ∧ j.seq = i.seq) ∧
  (∀ (p : Fin 28) (s : State) (i : TxItem) (rest : List TxItem), (s.port p).egress = i :: rest → s.running = true →
    portEn s p = true → s.linkUp p = false → 24 ≤ p.val →
      ∃ t, exec (.frameTxStart p) s = .next t ∧ (t.port p).egress = rest ∧ (t.port p).tx = (s.port p).tx) ∧
  (∀ (k : Fin 14) (s : State), s.running = true → (s.pbi.pair.get k).supAt = 0 ∨ (s.pbi.pair.get k).supAt + 2000000000 ≤ s.ltc →
    (if k.val < 12 then s.on (Reg.PBI_PB_CFG_PRP (2 * k.val)) = true ∧
        (s.on (Reg.PBI_PB_CFG_SUP_TX (2 * k.val)) = true ∨ s.on (Reg.PBI_PB_CFG_SUP_TX (2 * k.val + 1)) = true)
      else s.on (Reg.STN_PAIR_CFG_SUP_TX (k.val - 12)) = true ∧ s.f (Reg.STN_PAIR_CFG_MODE (k.val - 12)) ≠ 0) →
      ∃ t, exec (.prpSupervisionSend k) s = .next t ∧ (t.pbi.pair.get k).supAt = s.ltc ∧
        (t.pbi.pair.get k).seq = ((s.pbi.pair.get k).seq + 1) % 65536 ∧
        (∀ q ∈ [2 * k.val, 2 * k.val + 1], k.val < 12 → s.on (Reg.PBI_PB_CFG_SUP_TX q) = true → portEn s q = true →
          s.egressLen q + Config.frameOctets 2 [] ≤ 32768 →
          ∃ i ∈ (t.port q).egress, i.body = .sup ∧ i.seq = some (s.pbi.pair.get k).seq) ∧
        (∀ q ∈ pairPorts (k.val - 12), 12 ≤ k.val → s.on (Reg.STN_SB_CFG_EN (q - 24)) = true → s.linkUp q = true →
          ∃ i ∈ (t.port q).egress, i.body = .sup ∧ i.seq = some (s.pbi.pair.get k).seq))

/-- R25, R131, R134, R135, R136, R139: the oldest frame whose stream does not stall is decoded, and an ASDU with the expected number
gives the next set; a sample that does not come is produced at its deadline; a waiting stream produces the next instant of its grid. -/
def Obligations.SampledValuesComplete : Prop :=
  (∀ (s : State) (r : SvRx), s.pbi.svq.find? (fun r => !svStalled s r.sc) = some r →
    ∃ t, exec .svDecode s = .next t ∧ t.pbi.svq = s.pbi.svq.erase r ∧ t.pbi.decoded = s.pbi.decoded + 1 ∧
      (∀ (a : Asdu) (n : Nat) (i0 : Instant), svState s r.sc ≠ 0 → svFrameOk s r.sc r.pdu = true → r.pdu.asdus = [a] →
        (s.sc r.sc).last = some (n, i0) → a.smpCnt = (n + 1 + (s.sc r.sc).produced) % svWrap s r.sc →
        commitWaits s (Reg.PBI_SC_CFG r.sc) 0x40 = false →
          ∃ z, (t.sc r.sc).out = (s.sc r.sc).out ++ [z] ∧ z.vals = a.data.map Prod.fst ∧ (t.sc r.sc).produced = 0 ∧
            (t.sc r.sc).last = some (a.smpCnt, z.instant) ∧ z.instant = svInstant (svWrap s r.sc) (svStep s r.sc) r.dtcNs a.smpCnt)) ∧
  (∀ (c : Fin 224) (s : State) (n : Nat) (i0 : Instant), (s.sc c).last = some (n, i0) → svState s c ≠ 0 →
    ((s.sc c).produced + 1) * 1000000000 + ((s.sc c).ltcR + s.f (Reg.PBI_SC_CFG_LATE_LIM c) * 1000) * svRate s c ≤ s.ltc * svRate s c →
      ∃ t z, exec (.svMissingDeadline c) s = .next t ∧ (t.sc c).produced = (s.sc c).produced + 1 ∧
        (t.sc c).out = (s.sc c).out ++ [z] ∧ z.instant = i0 + ((s.sc c).produced + 1) * svStep s c) ∧
  (∀ (c : Fin 224) (s : State), svState s c = 1 → (s.sc c).last = none →
    nsOfInstant (svNextGrid s c) + s.f (Reg.PBI_SC_CFG_LATE_LIM c) * 1000 ≤ s.dtcNs →
      ∃ t z, exec (.svWaitingDeadline c) s = .next t ∧ (t.sc c).out = (s.sc c).out ++ [z] ∧ z.instant = svNextGrid s c ∧
        ∀ q ∈ z.quals, q.testBit 0 = true)

/-- R19, R143, R145, R146, R148, R151: the oldest matched message is decoded while its change can be sent to Stroke, and from WAITING or
STALE an acceptable one becomes the pending message; a message outlives its time and its members turn STALE; the entry of a
host-assisted subscription is taken once its SEQ changes, and an acceptable one becomes the pending message.

R280, R281, R336, R352, R354, R355: a pending image goes out as its queue holds a credit, to a link in every state of the module; a request forms one new state with the next stNum
and sqNum 0; a repetition carries the next sqNum. -/
def Obligations.GooseMessagesComplete : Prop :=
  (∀ (s : State) (r : GsRx) (rest : List GsRx), s.pbi.gq = r :: rest → gooseStalls s (gooseTake s r rest) = true →
    exec .gooseDecode s = .next s) ∧
  (∀ (s : State) (r : GsRx) (rest : List GsRx), s.pbi.gq = r :: rest → logicFull s = false →
    ∃ t, exec .gooseDecode s = .next t ∧ t.pbi.gq = rest ∧
      (gsState s r.gs = 1 ∨ gsState s r.gs = 3 → s.on (Reg.PBI_GS_CFG_EN r.gs) = true → gsFrameOk s r.gs r.msg = true →
        (t.gs r.gs).pend = some (gsImage s r.gs r.msg) ∧ (t.gs r.gs).lastLtc = r.ltc)) ∧
  (∀ (g : Fin 64) (s : State), gsState s g = 2 → (s.gs g).lastLtc + (s.gs g).tal * 1000000 < s.ltc →
    ∃ t img, exec (.gooseStale g) s = .next t ∧ gsState t g = 3 ∧ (t.gs g).pend = some img ∧
      img.quals = (s.gs g).cur.quals.map (fun q => q ||| 128)) ∧
  (∀ (g : Fin 64) (s : State) (base n : Nat), s.on (Reg.PBI_GS_CFG_EN g) = true → s.on (Reg.PBI_GS_CFG_HA g) = true → s.running = true →
    logicFull s = false → base = 0x48000 + g.val * 528 → n = s.f (Reg.PBI_GS_CFG_NMEMB g) → s.inkNat base 4 ≠ (s.gs g).hostSeq →
      ∃ t, exec (.gooseHostEntryTake g) s = .next t ∧ (t.gs g).hostSeq = s.inkNat base 4 ∧
        (s.inkNat (base + 4) 4 ≠ 0 → s.inkNat (base + 4) 4 ≤ 65535 →
          (∀ i < 64, n ≤ i → s.inkNat (base + 16 + 8 * i) 4 = 0 ∧ s.inkNat (base + 20 + 8 * i) 1 = 0) →
            ∃ img, (t.gs g).pend = some img ∧ img.vals = (List.range n).map (fun i => s.inkNat (base + 16 + 8 * i) 4))) ∧
  (∀ (i : Fin 36) (s : State), (s.stk.pub.get i).dirty ≠ 0 → (s.stk.pubOut.get i).length < pubCredits i → s.running = true ∨ 32 ≤ i.val →
    ∃ t, exec (.publicationRequest i) s = .next t ∧ t.stk.pubOut.get i = s.stk.pubOut.get i ++
      [⟨(s.stk.pub.get i).img, pubTest s i, (s.stk.pub.get i).at', (s.stk.pub.get i).tq, s.ltc⟩]) ∧
  (∀ (g : Fin 32) (s : State) (r : PubReq) (rest : List PubReq), gpRuns s g = true → s.stk.pubOut.get g = r :: rest → (s.gp g).pv = none →
    s.on (Reg.STN_GP_CFG_EN g) = true → commitWaits s (Reg.STN_GP_CFG g) 0x20 = false → commitWaits s (Reg.STN_GP_MEM g 0) 0x100 = false →
      ∃ t, exec (.gooseNewState g) s = .next t ∧ t.stk.pubOut.get g = rest ∧ (t.gp g).bits = r.bits ∧ (t.gp g).test = r.test ∧
        t.rd (Reg.STN_GP_STNUM g) = gpNext s g (s.rd (Reg.STN_GP_STNUM g)) ∧ t.rd (Reg.STN_GP_SQNUM g) = 0) ∧
  (∀ (g : Fin 32) (s : State), gpRuns s g = true → (s.gp g).next ≤ s.ltc →
    s.on (Reg.STN_GP_CFG_EN g) = true → commitWaits s (Reg.STN_GP_CFG g) 0x20 = false → commitWaits s (Reg.STN_GP_MEM g 0) 0x100 = false →
      ∃ t, exec (.gooseRepetition g) s = .next t ∧ (t.gp g).rep = (s.gp g).rep + 1 ∧
        t.rd (Reg.STN_GP_STNUM g) = s.rd (Reg.STN_GP_STNUM g) ∧ t.rd (Reg.STN_GP_SQNUM g) = gpNext s g (s.rd (Reg.STN_GP_SQNUM g)))

/-! ### Stroke -/

/-- R267, R268: the next update of the source whose turn it is enters the vector, its queue gives it up, and the turn passes on; another
source waits.

R262, R263: an asserted output whose PRE is 0 is released at the end of TMIN without a latch, with the current gone or after CGMAX
with LATCH 2, and by a reset with LATCH 1. -/
def Obligations.StrokeUpdatesAndReleasesComplete : Prop :=
  (∀ (src : Fin 21) (s : State), strokeNext s ≠ some src.val → exec (.strokeUpdate src) s = .next s) ∧
  (∀ (src : Fin 21) (s : State), strokeNext s = some src.val →
    ∃ t, exec (.strokeUpdate src) s = .next t ∧ t.stk.turn = (src.val + 1) % 21 ∧
      t.stk.sentAt.get src = (s.stk.sentAt.get src).drop 1) ∧
  (∀ (src : Fin 21) (s : State) (p : Nat × List Decision), strokeNext s = some src.val → src.val < 16 →
    s.nib.toStroke.find? (fun p => p.1 = src.val) = some p →
    ∃ t, exec (.strokeUpdate src) s = .next t ∧ t.nib.toStroke = s.nib.toStroke.erase p ∧
      t.stk.vec = ((flitBits p.2).foldl vecBit s.stk).vec ∧ t.stk.marks = ((flitBits p.2).foldl vecBit s.stk).marks) ∧
  (∀ (s : State) (l : List (Nat × Bool × Bool)) (rest : List (List (Nat × Bool × Bool))), strokeNext s = some 16 →
    s.stk.logicQ = l :: rest →
    ∃ t, exec (.strokeUpdate 16) s = .next t ∧ t.stk.logicQ = rest ∧ t.stk.vec = (l.foldl vecBit s.stk).vec ∧
      t.stk.marks = (l.foldl vecBit s.stk).marks ∧ t.stk.fin = (l.foldl vecBit s.stk).fin) ∧
  (∀ (n : Fin 4) (s : State) (c : Nat) (rest : List Nat), strokeNext s = some (17 + n.val) → s.stk.dlQ.get n = c :: rest →
    ∃ t, exec (.strokeUpdate ⟨17 + n.val, by omega⟩) s = .next t ∧ t.stk.dlQ.get n = rest ∧ t.stk.vec =
      (((List.range 16).map (fun b => (448 + 16 * n.val + b, c.testBit b, false))).foldl vecBit s.stk).vec) ∧
  (∀ (n : Fin 16) (s : State), s.asserted n = true → s.on (Reg.STK_SO_STAT_PRE n) = false → s.f (Reg.STK_SO_CFG_LATCH n) = 0 →
    tminOver s n = true → ∃ t, exec (.stkTminEnd n) s = .next t ∧ t.asserted n = false) ∧
  (∀ (n : Fin 16) (s : State), s.asserted n = true → s.on (Reg.STK_SO_STAT_PRE n) = false → s.f (Reg.STK_SO_CFG_LATCH n) = 2 →
    tminOver s n = true → currentGone s n = true → ∃ t, exec (.stkCurrentGone n) s = .next t ∧ t.asserted n = false) ∧
  (∀ (n : Fin 16) (s : State), s.asserted n = true → s.on (Reg.STK_SO_STAT_PRE n) = false → s.f (Reg.STK_SO_CFG_LATCH n) = 2 →
    tminOver s n = true → cgOver s n = true → ∃ t, exec (.stkCgTimeout n) s = .next t ∧ t.asserted n = false) ∧
  (∀ (a : Access) (v : Word) (n : Fin 16) (s : State), accepts s a Reg.STK_RESET false → v.toNat.testBit n = true →
    s.asserted n = true → s.on (Reg.STK_SO_STAT_PRE n) = false → s.f (Reg.STK_SO_CFG_LATCH n) = 1 → tminOver s n = true →
      ∃ t, exec (.stkReset a v) s = .next t ∧ t.asserted n = false)

/-- R270, R271, R273, R274, R277, R278, R522: the drive of an asserted output alternates every 2.000 us, with both pins low for at least
20 ns between two half periods; a counted feedback level shows, but not in RESET, where the
input is ignored; a fault of the feedback sets its sticky bit; a test pulse begins on every output it names and ends at its time. -/
def Obligations.DriveAndFeedbackComplete : Prop :=
  (∀ (n : Fin 16) (s : State), (s.so n).drive ≠ 0 → (s.so n).gap = false → (s.so n).edge + 2000 ≤ s.ltc →
    ∃ t, exec (.driveHalfPeriodEnd n) s = .next t ∧ (t.so n).edge = (s.so n).edge + 2000 ∧
      (t.so n).drive = (if s.asserted n then 3 - (s.so n).drive else 0) ∧ soPin t n 1 = false ∧ soPin t n 2 = false) ∧
  (∀ (n : Fin 16) (s : State), (s.so n).drive ≠ 0 → (s.so n).gap = true → (s.so n).edge + 20 ≤ s.ltc →
    ∃ t, exec (.driveHalfPeriodEnd n) s = .next t ∧ (t.so n).edge = (s.so n).edge ∧
      (∀ p ∈ [1, 2], soPin t n p = (s.asserted n && decide (p = (s.so n).drive)))) ∧
  (∀ (n : Fin 16) (level : Bool) (s : State), s.sysState = 0 → exec (.feedbackLevelCount n level) s = .next s) ∧
  (∀ (n : Fin 16) (level : Bool) (s : State), s.sysState ≠ 0 → ∃ t, exec (.feedbackLevelCount n level) s = .next t ∧ t.on (Reg.STK_SO_STAT_FB n) = level) ∧
  (∀ (n : Fin 16) (s : State), s.on (Reg.STK_SO_CFG_FBEN n) = true → s.asserted n = true → (s.so n).rose = false →
    (s.so n).start + 200000 ≤ s.ltc → ∃ t, exec (.stkFbNorise n) s = .next t ∧ (t.rd Reg.STK_FLT).testBit n = true) ∧
  (∀ (n : Fin 16) (s : State), s.on (Reg.STK_SO_CFG_FBEN n) = true → s.asserted n = false → s.on (Reg.STK_SO_STAT_FB n) = true →
    (s.so n).fbSince + 200000 ≤ s.ltc → (s.so n).released + 400000 ≤ s.ltc →
      ∃ t, exec (.stkFbRest n) s = .next t ∧ (t.rd Reg.STK_FLT).testBit (16 + n.val) = true) ∧
  (∀ (n : Fin 16) (s : State) (c : Cmd), ready s n 0x22 c → s.level n = 0 → c.arg 0 2 ≠ 0 → 2 ≤ c.arg 2 2 → c.arg 2 2 ≤ 2000 →
    c.zero 4 32 = true → s.sysState = 4 → (∀ k ∈ bitsOf 16 (c.arg 0 2), s.on (Reg.STK_SO_CFG_EN k) = true ∧ (s.so k).pulse = none ∧
      soArm s k = true ∧ soSup s k = true) →
      ∃ t, exec (.stkTest n) s = .next t ∧ ∀ k ∈ bitsOf 16 (c.arg 0 2), (t.so k).pulse = some (s.ltc + c.arg 2 2 * 1000000)) ∧
  (∀ (n : Fin 16) (s : State) (u : Nat), (s.so n).pulse = some u → u ≤ s.ltc →
    ∃ t, exec (.testPulseEnd n) s = .next t ∧ (t.so n).pulse = none)

/-! ### Quill -/

/-- R294, R295: what each integer and logic instruction on the working registers leaves: its result in WD, the next address and its
cost; nothing else changes.

R293, R294: the instructions with an immediate; LUI puts it in the upper 18 bits. -/
def Obligations.IntegerInstructionsResult : Prop :=
  (∀ (s : State) (t : Nat) (x : BitVec 26), okR x = true →
     let r := s.qrun t
     let a := r.rd (fA x)
     let b := r.rd (fB x)
     let out := fun (v : Word) (n : Nat) => advance s t (r.wr (fD x) v) n
     (atInsn s t 0x14 x 1 → exec (.add x) s = .next (out (a + b) 1)) ∧ (atInsn s t 0x15 x 1 → exec (.sub x) s = .next (out (a - b) 1)) ∧
     (atInsn s t 0x16 x 1 → exec (.mul x) s = .next (out (a * b) 1)) ∧
     (atInsn s t 0x17 x 4 → exec (.divs x) s = .next (out (if b = 0 then 0 else a.sdiv b) 4)) ∧
     (atInsn s t 0x18 x 4 → exec (.rems x) s = .next (out (if b = 0 then a else a.srem b) 4)) ∧
     (atInsn s t 0x19 x 1 → exec (.and x) s = .next (out (a &&& b) 1)) ∧ (atInsn s t 0x1A x 1 → exec (.or x) s = .next (out (a ||| b) 1)) ∧
     (atInsn s t 0x1B x 1 → exec (.xor x) s = .next (out (a ^^^ b) 1)) ∧
     (atInsn s t 0x1C x 1 → exec (.shl x) s = .next (out (a <<< (b.toNat % 32)) 1)) ∧
     (atInsn s t 0x1D x 1 → exec (.shr x) s = .next (out (a >>> (b.toNat % 32)) 1)) ∧
     (atInsn s t 0x1E x 1 → exec (.asr x) s = .next (out (a.sshiftRight (b.toNat % 32)) 1))) ∧
  (∀ (s : State) (t : Nat) (x : BitVec 26),
     let r := s.qrun t
     let a := r.rd (fA x)
     let out := fun (v : Word) => advance s t (r.wr (fD x) v) 1
     (atInsn s t 0x12 x 1 → exec (.ldi x) s = .next (out (imm18s x))) ∧
     (atInsn s t 0x13 x 1 → exec (.lui x) s = .next (out (BitVec.ofNat 32 (fImm x * 2 ^ 14)))) ∧
     (atInsn s t 0x1F x 1 → exec (.addi x) s = .next (out (a + imm18s x))) ∧
     (atInsn s t 0x20 x 1 → exec (.andi x) s = .next (out (a &&& BitVec.ofNat 32 (fImm x)))) ∧
     (atInsn s t 0x21 x 1 → exec (.ori x) s = .next (out (a ||| BitVec.ofNat 32 (fImm x)))))

/-- R293: an instruction that writes W0 changes no working register. -/
def Obligations.RegisterZeroDiscardsWrites : Prop :=
  ∀ (s : State) (t : Nat) (x : BitVec 26), fD x = 0 →
    (atInsn s t 0x12 x 1 → exec (.ldi x) s = .next (advance s t (s.qrun t) 1)) ∧
    (atInsn s t 0x14 x 1 → okR x = true → exec (.add x) s = .next (advance s t (s.qrun t) 1)) ∧
    (atInsn s t 0x17 x 4 → okR x = true → exec (.divs x) s = .next (advance s t (s.qrun t) 4)) ∧
    (atInsn s t 0x22 x 1 → okR x = true → exec (.fadd x) s = .next (advance s t (s.qrun t) 1))

/-- R294, R295: binary32 arithmetic, conversions and both comparisons. -/
def Obligations.FloatInstructionsResult : Prop :=
  ∀ (s : State) (t : Nat) (x : BitVec 26), okR x = true →
    let r := s.qrun t
    let a := r.rd (fA x)
    let b := r.rd (fB x)
    let out := fun (v : Word) (n : Nat) => advance s t (r.wr (fD x) v) n
    (atInsn s t 0x22 x 1 → exec (.fadd x) s = .next (out (w32 (fadd32 a.toNat b.toNat)) 1)) ∧
    (atInsn s t 0x23 x 1 → exec (.fsub x) s = .next (out (w32 (fsub32 a.toNat b.toNat)) 1)) ∧
    (atInsn s t 0x24 x 1 → exec (.fmul x) s = .next (out (w32 (fmul32 a.toNat b.toNat)) 1)) ∧
    (atInsn s t 0x25 x 4 → exec (.fdiv x) s = .next (out (w32 (fdiv32 a.toNat b.toNat)) 4)) ∧
    (atInsn s t 0x26 x 1 → exec (.itof x) s = .next (out (w32 (f32.ofInt a.toInt)) 1)) ∧
    (atInsn s t 0x27 x 1 → exec (.ftoi x) s = .next (out (BitVec.ofInt 32 (ftoi a.toNat)) 1)) ∧
    (atInsn s t 0x28 x 1 → exec (.cmp x) s = .next (advance s t { r with lr := intCond (fCond x) a b } 1)) ∧
    (atInsn s t 0x29 x 1 → fCond x ≤ 5 → exec (.fcmp x) s = .next (advance s t { r with lr := fltCond (fCond x) a.toNat b.toNat } 1))

/-- R294: the instructions on the logic register, the bit stack and the passage between them and the working registers.

R293, R294, R305: the instructions on a bit of the data memory, within a window of the task and with no uncorrectable error. -/
def Obligations.LogicAndBitInstructionsResult : Prop :=
  (∀ (s : State) (t : Nat) (x : BitVec 26),
     let r := s.qrun t
     (okNone x = true →
       (atInsn s t 0x00 x 1 → exec (.nop x) s = .next (advance s t r 1)) ∧
       (atInsn s t 0x08 x 1 → exec (.notl x) s = .next (advance s t { r with lr := !r.lr } 1)) ∧
       (atInsn s t 0x09 x 1 → r.bits.length < 8 → exec (.pushl x) s = .next (advance s t { r with bits := r.lr :: r.bits } 1)) ∧
       (atInsn s t 0x0A x 1 → ∀ b l, r.bits = b :: l → exec (.popa x) s = .next (advance s t { r with bits := l, lr := b && r.lr } 1)) ∧
       (atInsn s t 0x0B x 1 → ∀ b l, r.bits = b :: l → exec (.popo x) s = .next (advance s t { r with bits := l, lr := b || r.lr } 1))) ∧
     (okR x = true →
       (atInsn s t 0x0E x 1 → exec (.lrw x) s = .next (advance s t (r.wr (fD x) (w32 (b2n r.lr))) 1)) ∧
       (atInsn s t 0x0F x 1 → exec (.wlr x) s = .next (advance s t { r with lr := decide (r.rd (fA x) ≠ 0) } 1)))) ∧
  (∀ (s : State) (t : Nat) (x : BitVec 26) (c : Ecc), okB x = true → inWindow s t (fAddr x) = true → s.lost c = false →
     let r := s.qrun t
     let m := memNote s c
     let v := (s.ldData (fAddr x)).getLsbD (fBit x) != fNeg x
     let put := fun (b : Bool) => advance (m.stData (fAddr x) (BitVec.ofNat 32 (setBitOf (s.ldData (fAddr x)).toNat (fBit x) b))) t r 1
     (atInsn s t 0x01 x 1 → exec (.ldb ⟨x, c⟩) s = .next (advance m t { r with lr := v } 1)) ∧
     (atInsn s t 0x02 x 1 → exec (.andb ⟨x, c⟩) s = .next (advance m t { r with lr := r.lr && v } 1)) ∧
     (atInsn s t 0x03 x 1 → exec (.orb ⟨x, c⟩) s = .next (advance m t { r with lr := r.lr || v } 1)) ∧
     (atInsn s t 0x04 x 1 → exec (.xorb ⟨x, c⟩) s = .next (advance m t { r with lr := r.lr != v } 1)) ∧
     (atInsn s t 0x05 x 1 → exec (.stb ⟨x, c⟩) s = .next (put (r.lr != fNeg x))) ∧
     (atInsn s t 0x06 x 1 → exec (.setb ⟨x, c⟩) s = .next (if r.lr != fNeg x then put true else advance m t r 1)) ∧
     (atInsn s t 0x07 x 1 → exec (.rstb ⟨x, c⟩) s = .next (if r.lr != fNeg x then put false else advance m t r 1)))

/-- R293, R294, R305: a word is loaded and stored within a window of the task, where its code shows no uncorrectable error. -/
def Obligations.WordInstructionsResult : Prop :=
  ∀ (s : State) (t : Nat) (x : BitVec 26) (c : Ecc), inWindow s t (memAddr (s.qrun t) x) = true → s.lost c = false →
    let r := s.qrun t
    let m := memNote s c
    (atInsn s t 0x10 x 1 → exec (.ldw x c) s = .next (advance m t (r.wr (fD x) (s.ldData (memAddr r x))) 1)) ∧
    (atInsn s t 0x11 x 1 → exec (.stw x c) s = .next (advance (m.stData (memAddr r x) (r.rd (fD x))) t r 1))

/-- R293, R303, R304, R305: an access outside the windows of the task halts it with cause 2, and a jump out of the code with cause 7;
neither has an effect on the data. An uncorrectable error in the data window ends the run with cause 5, and the task is IDLE. A task
that a MODE 1 switch still waits for leaves HALTED by that switch at once (R309). -/
def Obligations.FaultsHaltTheTask : Prop :=
  ∀ (s : State) (t : Nat) (x : BitVec 26) (c : Ecc),
    let ends := fun (u : State) (st cause : Nat) => u.taskSt t = st ∧ u.f (Reg.QIL_T_FAULT_CAUSE t) = cause ∧
      u.f (Reg.QIL_T_FAULT_PC t) = (s.qrun t).pc % 262144
    let k := s.qtask t
    (s.on (Reg.QIL_T_STAT_SW_PEND t) = false → inWindow s t (memAddr (s.qrun t) x) = false →
      (atWord s t 0x10 x 1 → ∃ u, exec (.ldw x c) s = .next u ∧ ends u 5 2 ∧ u.qil.data = s.qil.data) ∧
      (atWord s t 0x11 x 1 → ∃ u, exec (.stw x c) s = .next u ∧ ends u 5 2 ∧ u.qil.data = s.qil.data)) ∧
    (s.on (Reg.QIL_T_STAT_SW_PEND t) = false → okB x = true → inWindow s t (fAddr x) = false →
      (atWord s t 0x01 x 1 → ∃ u, exec (.ldb ⟨x, c⟩) s = .next u ∧ ends u 5 2 ∧ u.qil.data = s.qil.data) ∧
      (atWord s t 0x05 x 1 → ∃ u, exec (.stb ⟨x, c⟩) s = .next u ∧ ends u 5 2 ∧ u.qil.data = s.qil.data)) ∧
    (s.lost c = true → inWindow s t (memAddr (s.qrun t) x) = true →
      ¬ (k.retLo ≤ memAddr (s.qrun t) x ∧ memAddr (s.qrun t) x < k.retHi) → atWord s t 0x10 x 1 →
        ∃ u, exec (.ldw x c) s = .next u ∧ ends u 1 5) ∧
    (s.on (Reg.QIL_T_STAT_SW_PEND t) = false → okJ x = true → codeWord s t (fImm x) = none → atWord s t 0x2A x 1 →
      ∃ u, exec (.jmp x) s = .next u ∧ ends u 5 7 ∧ u.qil.data = s.qil.data)

/-- R294, R303: jumps, call and return to an address at which an instruction stands; a jump not taken goes on. -/
def Obligations.ControlInstructionsResult : Prop :=
  ∀ (s : State) (t : Nat) (x : BitVec 26),
    let r := s.qrun t
    (okJ x = true → insnAt s t (fImm x) →
      (atWord s t 0x2A x 1 → exec (.jmp x) s = .next (goTo s t r (fImm x) 1)) ∧
      (atWord s t 0x2B x 1 → r.lr = true → exec (.jc x) s = .next (goTo s t r (fImm x) 1)) ∧
      (atWord s t 0x2C x 1 → r.lr = false → exec (.jnc x) s = .next (goTo s t r (fImm x) 1)) ∧
      (atWord s t 0x2D x 2 → r.calls.length < 16 →
        exec (.call x) s = .next (goTo s t { r with calls := (r.pc + 1) :: r.calls } (fImm x) 2))) ∧
    (okJ x = true → atInsn s t 0x2B x 1 → r.lr = false → exec (.jc x) s = .next (advance s t r 1)) ∧
    (okJ x = true → atInsn s t 0x2C x 1 → r.lr = true → exec (.jnc x) s = .next (advance s t r 1)) ∧
    (okNone x = true → ∀ a l, r.calls = a :: l → insnAt s t a → atWord s t 0x2E x 2 →
      exec (.ret x) s = .next (goTo s t { r with calls := l } a 2))

/-- R289: END writes the output image back and the task is IDLE. -/
def Obligations.EndOfRunCompletes : Prop :=
  ∀ (s : State) (t : Nat) (x : BitVec 26), okNone x = true → runner s = some t →
    codeWord s t (s.qrun t).pc = some (BitVec.ofNat 32 (0x2F * 2 ^ 26 + x.toNat)) → (s.qrun t).units + 1 ≤ (s.qtask t).maxInsn →
    logicFull s = false →
      ∃ u, exec (.endRun x) s = .next u ∧ u.taskSt t = 1 ∧ (u.qrun t).calls = [] ∧ (u.qrun t).bits = [] ∧
        u.f (Reg.QIL_T_CNT_RUNS t) = (s.f (Reg.QIL_T_CNT_RUNS t) + 1) % 65536

/-- R296, R298, R547: the timers, each on a slot of its kind that the task owns.

R297, R300: the counters, each on a slot that the task owns and whose kind has the instruction. -/
def Obligations.TimerAndCounterInstructionsResult : Prop :=
  (∀ (s : State) (t : Nat) (x : BitVec 26) (d : QSlot), okT x = true →
     let r := s.qrun t
     let y := fun (k : Nat) => timerStep k (s.qil.tm.get d.symId) r.lr (r.rd (fD x)).toNat r.rel
     let out := fun (k : Nat) => advance (s.setQil { s.qil with tm := s.qil.tm.set d.symId (y k) }) t { r with lr := (y k).q } 2
     (atInsn s t 0x30 x 2 → ownSlot t (s.progOf t).timers (bits x 0 12) [1] = some d → exec (.ton x) s = .next (out 1)) ∧
     (atInsn s t 0x31 x 2 → ownSlot t (s.progOf t).timers (bits x 0 12) [2] = some d → exec (.tof x) s = .next (out 2)) ∧
     (atInsn s t 0x32 x 2 → ownSlot t (s.progOf t).timers (bits x 0 12) [3] = some d → exec (.tp x) s = .next (out 3)) ∧
     (atInsn s t 0x33 x 2 → bits x 16 2 ≤ 2 → ownSlot t (s.progOf t).timers (bits x 0 12) [1, 2, 3] = some d →
       exec (.tet x) s = .next (advance s t (r.wr (fA x) (tetValue (s.qil.tm.get d.symId) (bits x 16 2) r.rel)) 2))) ∧
  (∀ (s : State) (t : Nat) (x : BitVec 26) (d : QSlot),
     let r := s.qrun t
     let y := s.qil.ct.get d.symId
     let setC := fun (c : QCt) => s.setQil { s.qil with ct := s.qil.ct.set d.symId c }
     okC x = true →
       (atInsn s t 0x34 x 2 → ownSlot t (s.progOf t).counters (bits x 0 11) [4, 6] = some d → exec (.ctu x) s = .next (advance (setC
         { y with cv := if r.lr && !y.cum && !y.freshU && decide (y.cv < 2147483647) then y.cv + 1 else y.cv, cum := r.lr, freshU := false }) t r 2)) ∧
       (atInsn s t 0x35 x 2 → ownSlot t (s.progOf t).counters (bits x 0 11) [5, 6] = some d → exec (.ctd x) s = .next (advance (setC
         { y with cv := if r.lr && !y.cdm && !y.freshD && decide (-2147483648 < y.cv) then y.cv - 1 else y.cv, cdm := r.lr, freshD := false }) t r 2)) ∧
       (ownSlot t (s.progOf t).counters (bits x 0 11) [4, 5, 6] = some d →
         (atInsn s t 0x36 x 2 → exec (.crst x) s = .next (advance (setC { y with cv := if r.lr then 0 else y.cv }) t r 2)) ∧
         (atInsn s t 0x37 x 2 → exec (.cld x) s = .next (advance (setC { y with cv := if r.lr then (r.rd (fD x)).toInt else y.cv }) t r 2)) ∧
         (atInsn s t 0x38 x 2 → exec (.cqu x) s = .next (advance (setC y) t { r with lr := decide ((r.rd (fD x)).toInt ≤ y.cv) } 2)) ∧
         (atInsn s t 0x39 x 2 → exec (.cqd x) s = .next (advance (setC y) t { r with lr := decide (y.cv ≤ 0) } 2)) ∧
         (atInsn s t 0x3A x 2 → exec (.ccv x) s = .next (advance (setC y) t (r.wr (fD x) (BitVec.ofInt 32 y.cv)) 2))))

/-- R301: what RTRG and FTRG leave in LR and in the memory of the edge slot; a FRESH edge answers 0. -/
def Obligations.EdgeInstructionsFollowTheirMemory : Prop :=
  ∀ (s : State) (t : Nat) (x : BitVec 26) (d : QSlot), okE x = true →
    let r := s.qrun t
    let e := s.qil.ed.get d.symId
    let kept := s.setQil { s.qil with ed := s.qil.ed.set d.symId ⟨r.lr, false⟩ }
    (atInsn s t 0x0C x 1 → ownSlot t (s.progOf t).edges (bits x 0 13) [7] = some d →
      exec (.rtrg x) s = .next (advance kept t { r with lr := if e.fresh then false else r.lr && !e.m } 1)) ∧
    (atInsn s t 0x0D x 1 → ownSlot t (s.progOf t).edges (bits x 0 13) [8] = some d →
      exec (.ftrg x) s = .next (advance kept t { r with lr := if e.fresh then false else !r.lr && e.m } 1))

/-- R302: EMIT offers its record and VTRG triggers its profile while LR is 1. -/
def Obligations.EventInstructionsResult : Prop :=
  ∀ (s : State) (t : Nat) (x : BitVec 26), okV x = true →
    let r := s.qrun t
    (atInsn s t 0x3B x 4 → bits x 19 3 ≤ 5 → exec (.emit x) s =
      .next (advance (if r.lr then emitRec s t (bits x 19 3) (bits x 0 8) r (r.rd (fD x)).toNat else s) t r 4)) ∧
    (atInsn s t 0x3C x 2 → exec (.vtrg x) s = .next (advance (if r.lr then velTrigQuill s (bits x 0 4) t else s) t r 2))

/-- R283, R284, R289: an idle task whose grid point has come is READY; the READY task that nothing holds back starts at its
entry point. -/
def Obligations.TasksReleaseAndStart : Prop :=
  (∀ (n : Fin 8) (s : State), s.running = true → periodNs s n ≠ 0 → (s.qrun n).next ≤ s.ltc → phaseNs s n ≤ s.ltc → s.taskSt n = 1 →
    ∃ t, exec (.taskRelease n) s = .next t ∧ t.taskSt n = 2 ∧ (t.qrun n).rel = gridPoint s n s.ltc ∧
      (t.qrun n).next = gridPoint s n s.ltc + periodNs s n) ∧
  (∀ (n : Fin 8) (s : State) (e : Ecc) (w : Word), s.running = true → s.lost e = false → s.taskSt n = 2 → higherWaits s n = false →
    (∀ k, k < 8 → s.taskSt k ≠ 3 ∧ s.taskSt k ≠ 4) → modePending s 5 n = none → s.on (Reg.QIL_T_STAT_SW_PEND n) = false →
    logicFull s = false → codeWord s n (s.qtask n).entry = some w → opcodeKnown w = true →
      ∃ t, exec (.taskStart n e) s = .next t ∧ t.taskSt n = 3 ∧ (t.qrun n).pc = (s.qtask n).entry ∧ (t.qrun n).units = 0 ∧
        (t.qrun n).lr = false ∧ (t.qrun n).w = [] ∧ (t.qrun n).bits = [] ∧ (t.qrun n).calls = [])

/-- R285: a release of a task that is READY, RUNNING or PRE-EMPTED is dropped: the run goes on as it is, OVERRUN counts, an event
is logged at the first of an episode, and the next release stands one period after the grid point, so that none is made up. -/
def Obligations.DroppedReleaseLeavesTheRun : Prop :=
  ∀ (k : Fin 8) (s : State), s.running = true → periodNs s k ≠ 0 → (s.qrun k).next ≤ s.ltc → phaseNs s k ≤ s.ltc →
    s.taskSt k = 2 ∨ s.taskSt k = 3 ∨ s.taskSt k = 4 →
      ∃ t, exec (.taskRelease k) s = .next t ∧ (∀ j < 8, t.taskSt j = s.taskSt j) ∧ (∀ j, j ≠ k.val → t.qrun j = s.qrun j) ∧
        t.qrun k = { s.qrun k with next := gridPoint s k s.ltc + periodNs s k, overEp := true, overs := ((s.qrun k).overs + 1) % 2 ^ 32 } ∧
        t.f (Reg.QIL_T_CNT_OVERRUN k) = min (s.f (Reg.QIL_T_CNT_OVERRUN k) + 1) 255 ∧
        (if (s.qrun k).overEp then t.scr.offers = s.scr.offers
          else ∃ r, t.scr.offers = s.scr.offers ++ [r] ∧ r.code = Ev.QIL_OVERRUN.code ∧ r.inst = k.val)

/-- R308, R309, R310: loading and switching of a program, in both modes; under MODE 1 a task that is HALTED or DISABLED switches at
once, and the others wait for their start. A MODE 0 switch does not take effect once its command's deadline has passed, which completes the
command.

R312, R313: a force of an output of the active program stands in the table with its value; a cleared one leaves it, and the
program's value returns at the next boundary action. -/
def Obligations.OnlineChangeAndForcesComplete : Prop :=
  (∀ (n : Fin 16) (e : Ecc) (img : QProg) (s : State) (c : Cmd), ready s n 0x30 c → s.lost e = false → hashFull s = false → s.level n = 0 → 4096 ≤ c.arg 8 4 → c.arg 8 4 ≤ 1048576 →
    c.arg 0 8 + c.arg 8 4 ≤ s.rd Reg.HST_BULKSIZE → c.zero 12 32 = true → s.qil.sw = none → s.qil.load = none → sealFull s = false →
      ∃ t, exec (.qilLoad ⟨n, e⟩ img) s = .next t ∧ t.qil.load = some ⟨n, c.sqHead, img⟩ ∧
        t.sea.jobs = s.sea.jobs ++ [⟨3, n, c.sqHead, c, img.sigOk⟩]) ∧
  (∀ (s : State) (l : QLoad), s.qil.load = some l → s.sea.jobs.any (fun j => j.kind = 3) = false →
    ∃ t, exec .qilLoadDone s = .next t ∧ t.qil.load = none ∧
      t.qil.bank.get (1 - s.f Reg.QIL_STAT_BANK) = if loadFails s l.img = none then some l.img else none) ∧
  (∀ (n : Fin 16) (s : State) (c : Cmd), ready s n 0x31 c → s.level n = 0 → c.arg 0 1 ≤ 1 → c.zero 1 32 = true →
    (c.arg 0 1 = 1 → s.on Reg.QIL_STAT_PERTASK = true ∧ ∃ k, k < 8 ∧ s.taskSt k ≠ 0 ∧ s.taskSt k ≠ 5) → s.on Reg.QIL_STAT_LOAD_VALID = true →
    s.qil.sw = none → s.qil.load = none →
      ∃ t, exec (.qilSwitch n) s = .next t ∧ t.qil.sw = some ⟨n, c.sqHead, c.arg 0 1, s.ltc⟩ ∧ t.on Reg.QIL_STAT_SW_PEND = true ∧
        (c.arg 0 1 = 1 → ∀ k, k < 8 → t.on (Reg.QIL_T_STAT_SW_PEND k) = decide (s.taskSt k ≠ 0 ∧ s.taskSt k ≠ 5))) ∧
  (∀ (s : State) (w : QSw), s.qil.sw = some w → w.mode = 0 → s.ltc < w.at' + 100000000 → switchExpired s w = false →
    (∀ k, k < 8 → s.taskSt k ≠ 2 ∧ s.taskSt k ≠ 3 ∧ s.taskSt k ≠ 4) → logicFull s = false →
      ∃ t, exec .qilSwitchInstant s = .next t ∧ t.qil.sw = none ∧ t.f Reg.QIL_STAT_BANK = 1 - s.f Reg.QIL_STAT_BANK) ∧
  (∀ (s : State) (w : QSw), s.qil.sw = some w → w.mode = 0 → s.ltc < w.at' + 100000000 → switchExpired s w = true →
    exec .qilSwitchInstant s = .next s) ∧
  (∀ (s : State) (w : QSw), s.qil.sw = some w → w.mode = 0 → w.at' + 100000000 ≤ s.ltc →
    ∃ t, exec .qilSwitchInstant s = .next t ∧ t.qil.sw = none ∧ t.on Reg.QIL_STAT_SW_PEND = false) ∧
  (∀ (n : Fin 16) (s : State) (c : Cmd) (o : QOut), ready s n 0x32 c → s.level n = 0 → outOf s (c.arg 0 4) = some o →
    (o.bool = true → c.arg 4 4 ≤ 1) → c.zero 8 32 = true → (forceOf s (c.arg 0 4)).isSome = true ∨ (∃ k, k < 256 ∧ s.qil.force.get k = none) →
      ∃ t k e, exec (.forceSet n) s = .next t ∧ t.qil.force.get k = some e ∧ e.sym = c.arg 0 4 ∧ e.val = BitVec.ofNat 32 (c.arg 4 4)) ∧
  (∀ (n : Fin 16) (s : State) (c : Cmd) (k : Nat) (e : QForce), ready s n 0x33 c → s.level n = 0 → c.zero 8 32 = true →
    c.arg 0 4 ≠ 0xFFFFFFFF → (outOf s (c.arg 0 4)).isSome = true → forceOf s (c.arg 0 4) = some (k, e) →
      ∃ t, exec (.forceClear n) s = .next t ∧ t.qil.force.get k = none ∧ (e.sym, e.unforced) ∈ t.qil.restore) ∧
  (∀ (n : Fin 16) (s : State) (c : Cmd), ready s n 0x33 c → s.level n = 0 → c.zero 8 32 = true → c.arg 0 4 = 0xFFFFFFFF →
    ∃ t, exec (.forceClear n) s = .next t ∧ ∀ k, k < 256 → t.qil.force.get k = none)

/-! ### Links and the Script log -/

/-- R325, R326, R328, R330, R331, R333, R334, R335: on the first 8 ns boundary at or after a tick its frame starts, its bytes as R326 lays
them out between the delimiters of R325, with byte 0 after the opening set of 16 ns, and followed by idle (the ordered set /I2/ and the
boundaries at multiples of 8 ns of LTC are the model's choice, log entry 59); a good frame in RUN gives its command word; the third
consecutive negotiation frame brings RUN with the version that all have; synchronism brings NEGOTIATE.

R332, R343, R345, R346, R347: supervision, the message channel, and the command blocks of C37.94. -/
def Obligations.LinksComplete : Prop :=
  (∀ (n : Fin 4) (s : State), dlMode s n = 1 → dlHears s n = true → commitWaits s (Reg.DUC_DL_CFG n) 0x100 = false → tickDue s n = true →
    (dlSt s n = dlRun → ∃ t f, exec (.ductusFrameStart n) s = .next t ∧ (t.dl n).sent = dataBytes f ∧
      (t.dl n).line = lineOf (dataBytes f) ∧ (t.dl n).fseqTx = f.fseq ∧ f.fseq = ((s.dl n).fseqTx + 1) % 256 ∧
      f.cmd = (s.stk.pubOut.get (32 + n)).head?.elim (s.dl n).cmd (fun q => if q.at' + 200 ≤ s.ltc then q.bits else (s.dl n).cmd) ∧
      f.cmdP1 = (s.dl n).cmd ∧ f.cmdP2 = (s.dl n).p1 ∧ f.txLtc = (s.ltc + 16) % 2 ^ 32 ∧ f.linkId = s.f (Reg.DUC_DL_CFG_LINKID n) ∧ f.endBit = s.f (Reg.DUC_DL_CFG_END n) ∧
      f.ver = (s.dl n).ver ∧ f.nosvc = !s.running) ∧
    (dlSt s n = dlNegotiate → ∃ t, exec (.ductusFrameStart n) s = .next t ∧ (t.dl n).sent =
      negBytes (s.f (Reg.DUC_DL_CFG_MAXVER n)) (((s.dl n).fseqTx + 1) % 256) (s.f (Reg.DUC_DL_CFG_LINKID n)) (s.f (Reg.DUC_DL_CFG_END n)))) ∧
  (∀ (n : Fin 4) (f : LineFrame) (s : State) (d : DlFrame), d = dataOf f.bytes → dlMode s n = 1 → dlHears s n = true → dlSt s n = dlRun →
    (s.dl n).buf = [] → dataKind s n (s.dl n).ver f = 0 → frameStalls s n (s.linkRx f false) = false → d.nosvc = false → d.test = false →
    commitWaits s (Reg.DUC_DL_CFG n) 0x100 = false →
      ∃ t, exec (.ductusFrameReceived n f) s = .next t ∧ (t.dl n).raw = d.cmd % 65536 ∧ (t.dl n).fseqRx = some d.fseq ∧
        (t.dl n).lastGood = s.ltc ∧ t.f (Reg.DUC_DL_STAT_RXCMD n) = d.cmd % 65536) ∧
  (∀ (n : Fin 4) (f : LineFrame) (s : State) (a b : Nat), dlMode s n = 1 → dlHears s n = true → dlSt s n = dlNegotiate →
    (s.dl n).buf = [] → commitWaits s (Reg.DUC_DL_CFG n) 0x100 = false → lineType f.bytes = 1 → negKind s n f = 0 → (s.dl n).offers = [a, b] → fieldAt f.bytes 1 1 = ((s.dl n).offSeq + 1) % 256 →
      ∃ t, exec (.negotiationFrameReceived n f) s = .next t ∧ dlSt t n = dlRun ∧
        (t.dl n).ver = min (min (min (s.f (Reg.DUC_DL_CFG_MAXVER n)) (lineVer f.bytes)) a) b) ∧
  (∀ (n : Fin 4) (sync los : Bool) (s : State), ∃ t, exec (.ductusRxSyncChange n sync los) s = .next t ∧ (t.dl n).rxSync = sync ∧
    (t.dl n).los = los ∧ (dlMode s n = 1 → sync = true → los = false → dlSt s n = dlDown → dlSt t n = dlNegotiate)) ∧
  (∀ (n : Fin 4) (s : State), (s.dl n).superv = true → (s.dl n).lastGood + dlSuperv s n ≤ s.ltc →
    ∃ t, exec (.ducLinkLost n) s = .next t ∧ (t.dl n).superv = false ∧
      (dlSt s n = dlRun → dlSt t n = dlNegotiate ∧ (t.dl n).outQ = [] ∧ t.on (Reg.DUC_DL_STAT_DVALID n) = false)) ∧
  (∀ (n : Fin 4) (s : State) (m : LinkMsg) (rest : List LinkMsg), (s.dl n).outQ = m :: rest → m.first.isSome = true → m.tries < 3 → m.due = false →
    m.last + 100000 ≤ s.ltc → ∃ t, exec (.messageRetry n) s = .next t ∧ (t.dl n).outQ = { m with due := true } :: rest) ∧
  (∀ (n : Fin 4) (s : State) (m : LinkMsg) (rest : List LinkMsg) (u : Nat), (s.dl n).outQ = m :: rest → m.first = some u → u + 2000000 ≤ s.ltc →
    (s.dl n).superv = false ∨ s.ltc < (s.dl n).lastGood + dlSuperv s n →
      ∃ t, exec (.ducMsgLost n) s = .next t ∧ (t.dl n).outQ = rest) ∧
  (∀ (n : Fin 4) (s : State), dlSt s n = dlRun → (s.dl n).ver = 2 → (s.dl n).checkAt + 1000000000 ≤ s.ltc → (s.dl n).outQ.length < 16 →
    ∃ t m, exec (.settingsCheckSend n) s = .next t ∧ (t.dl n).checkAt = s.ltc ∧ (t.dl n).outQ = (s.dl n).outQ ++ [m] ∧ m.mtype = 2 ∧
      m.data = s.duc.hash.getD n []) ∧
  (∀ (n : Fin 4) (s : State), dlMode s n = 2 → dlHears s n = true → dlSt s n = dlRun ∨ dlSt s n = dlNegotiate →
    commitWaits s (Reg.DUC_DL_CFG n) 0x100 = false → (∀ u, (s.dl n).blockAt = some u → u + blockPeriod s n ≤ s.ltc) →
      ∃ t cmd test, exec (.c3794BlockStart n) s = .next t ∧ (t.dl n).blockAt = some s.ltc ∧ (t.dl n).yellow = decide (dlSt s n ≠ dlRun) ∧
        cmd = (s.stk.pubOut.get (32 + n)).head?.elim (s.dl n).cmd (fun q => if q.at' + 200 ≤ s.ltc then q.bits else (s.dl n).cmd) ∧
        (t.dl n).sent = slotBytes s n (cmdBlock (((s.dl n).fseqTx + 1) % 256) cmd (s.dl n).cmd (s.dl n).p1 test (!s.running))) ∧
  (∀ (n : Fin 4) (b : CBlock) (s : State), dlMode s n = 2 → dlHears s n = true → dlSt s n = dlRun → b.framed = true →
    (s.dl n).buf = [] → b.bytes.length ≤ 4096 → frameStalls s n (s.linkRx ⟨b.framed, true, b.bytes⟩ true) = false → fieldAt b.bytes 9 2 = crc16 (b.bytes.take 9) → fieldAt b.bytes 0 1 = 0xD5 → (fieldAt b.bytes 2 1).testBit 0 = false →
    (fieldAt b.bytes 2 1).testBit 1 = false → commitWaits s (Reg.DUC_DL_CFG n) 0x100 = false →
      ∃ t, exec (.c3794BlockReceived n b) s = .next t ∧ (t.dl n).raw = fieldAt b.bytes 3 2 % 65536 ∧ (t.dl n).lastGood = s.ltc ∧
        t.on (Reg.DUC_DL_STAT_REM_YELLOW n) = b.yellow)

/-- R365, R367, R369, R370, R372: a record offered passes the checks into the intake; the writer commits the record at its head to the
open page with the next SEQ, or holds it in a freeze; a suppression episode ends with its summary.

R373, R375, R392: a session freezes the log and ends the freeze, which also ends at its time; LOG_READ writes the records asked
for into the host bulk region, whole and in order. -/
def Obligations.ScriptLogCompletes : Prop :=
  (∀ (s : State) (r : LogRec) (rest : List LogRec), s.scr.offers = r :: rest → lenOk r.len = true → ratePasses s r = true →
    intakeFits s.scr.intake r = true → ∃ t, exec (.scriptLogOffer none) s = .next t ∧ t.scr.offers = rest ∧ t.scr.intake = s.scr.intake ++ [r]) ∧
  (∀ (s : State) (len sev : Nat), ∃ t, exec (.scriptLogOffer (some (len, sev))) s = .next t ∧ t.freeCtr = s.freeCtr + 1 + (len / 4 - 8) ∧
    t.scr.offers = s.scr.offers) ∧
  (∀ (s : State) (r : LogRec) (rest : List LogRec) (i : Nat), s.scr.intake = r :: rest → s.scr.freeze = none → r.code ≠ 0x201 →
    s.scr.openPage = some i → (s.scr.pages.get i).used + r.len ≤ 4096 →
      ∃ t, exec .scriptLogCommit s = .next t ∧ t.scr.intake = rest ∧ t.f Reg.SCR_SEQ_SEQ = nextSeq s ∧
        (t.scr.pages.get i).recs = (s.scr.pages.get i).recs ++ [committed s r 0] ∧ (t.scr.pages.get i).used = (s.scr.pages.get i).used + r.len) ∧
  (∀ (s : State) (r : LogRec) (rest : List LogRec), s.scr.intake = r :: rest → s.scr.freeze.isSome = true →
    s.f Reg.SCR_HOLD_BYTES + r.len ≤ 524288 →
      ∃ t, exec .scriptLogCommit s = .next t ∧ t.scr.intake = rest ∧ t.scr.holding = s.scr.holding ++ [r] ∧ t.scr.pages = s.scr.pages) ∧
  (∀ (code : Fin 1024) (s : State) (e : Supp), s.scr.supp.get code = some e → e.lastAt + 1000000000 ≤ s.ltc → e.n ≠ 0 →
    ∃ t r, exec (.suppressed code) s = .next t ∧ t.scr.supp.get code = none ∧ t.scr.offers = s.scr.offers ++ [r] ∧ r.code = 0x200 ∧ r.sev = e.sev) ∧
  (∀ (n : Fin 16) (s : State) (c : Cmd), ready s n 0x40 c → s.level n ≠ 2 → c.arg 0 2 ≤ 1000 → c.zero 2 32 = true → s.scr.freeze = none →
    ∃ t, exec (.blot n) s = .next t ∧
      t.scr.freeze = some (n.val, s.ltc + (if c.arg 0 2 = 0 then s.f Reg.SCR_CFG_BLOT_TO else c.arg 0 2) * 1000000)) ∧
  (∀ (n : Fin 16) (s : State) (c : Cmd) (m u : Nat), ready s n 0x41 c → s.level n ≠ 2 → c.zero 0 32 = true → s.scr.freeze = some (m, u) →
    m = n.val ∨ s.level n = 0 → ∃ t, exec (.unblot n) s = .next t ∧ t.scr.freeze = none ∧ t.scr.holding = []) ∧
  (∀ (s : State) (m u : Nat), s.scr.freeze = some (m, u) → u ≤ s.ltc →
    ∃ t, exec .blotTimeout s = .next t ∧ t.scr.freeze = none ∧ t.scr.holding = []) ∧
  (∀ (n : Fin 16) (e : Ecc) (s : State) (c : Cmd), ready s n 0x42 c → s.lost e = false → c.arg 4 1 ≤ 1 → 4096 ≤ c.arg 16 4 → inBulk s (c.arg 8 8) (c.arg 16 4) = true →
    c.zero 5 8 = true → c.zero 20 32 = true →
      ∃ t, exec (.logRead n e) s = .next t ∧ t.hst.dram = writeBytes s.hst.dram (bulkAddr s (c.arg 8 8))
        ((takeFitting (c.arg 16 4) ((allRecs s (c.arg 4 1 = 1)).filter (fun r => c.arg 0 4 ≤ r.seq))).map recBytes).flatten)

/-! ### Vellum -/

/-- R379, R380, R381, R386: the host fires a profile and its record opens with the next ID; the next row of an enabled profile is
assembled from the sets of its instant; the record closes once its rows and its TW window are in and written, and where a write burst
has not completed within WTO (one burst for each row is the model's choice, log entry 52).

R385, R389, R391, R392: the host lists the descriptors, locks and releases a record, and exports one, which stands in the host
bulk region when the export is done. -/
def Obligations.RecordsComplete : Prop :=
  (∀ (a : Access) (v : Word) (p : Fin 16) (s : State), accepts s a Reg.VEL_TRIG false → v.toNat.testBit p = true →
    s.on (Reg.VEL_PR_CFG_EN p) = true → s.running = true → s.openRec p = none → (s.prof p).closedAt = none →
      ∃ t, exec (.velTrig a v) s = .next t ∧ s.vel.nextId < t.vel.nextId ∧
        ∃ r, t.openRec p = some r ∧ s.vel.nextId < r.id ∧ r.ntrig = 1 ∧ r.trigSrc = trigSrc 15 0) ∧
  (∀ (p : Fin 16) (s : State), s.on (Reg.VEL_PR_CFG_EN p) = true → s.running = true → nsOfInstant (nextRow s p) ≤ s.dtcNs →
    (∀ c ∈ (velTab s p).chans, (setOf s c.stream (nextRow s p)).isSome = true ∨ setMissing s c.stream (nextRow s p) = true) →
      ∃ t row, exec (.vellumRowAssemble p) s = .next t ∧ (t.prof p).last = some (nextRow s p) ∧ (t.prof p).ring.head? = some row ∧
        row.instant = nextRow s p ∧ row.epoch = s.rul.clk.epoch ∧ row.bins = (velTab s p).bins.map (velBinary s) ∧
        row.vals = (velTab s p).chans.map (fun c => (setOf s c.stream (nextRow s p)).elim 0 (fun x => x.vals.getD c.chan 0))) ∧
  (∀ (p : Fin 16) (s : State) (r : VelRec) (u : Instant), s.openRec p = some r → (s.prof p).last = some u →
    r.endNs < nsOfInstant (u + velStep s p) → r.twTo ≤ s.dtcNs → burstsOf s r = [] →
      ∃ t, exec (.velClose p) s = .next t ∧ (t.prof p).closedAt = some s.ltc ∧ ∃ x ∈ t.vel.recs, x.id = r.id ∧ x.state = 1) ∧
  (∀ (p : Fin 16) (k : Nat) (s : State) (r : VelRec) (b : VelBurst) (u : Nat), s.openRec p = some r → b ∈ burstsOf s r → b.at' = some u →
    u + s.f Reg.VEL_CFG_WTO * 1000000 ≤ s.ltc →
      ∃ t, exec (.velWriteTimeout p k) s = .next t ∧ (t.prof p).closedAt = none ∧ burstsOf t r = [] ∧
        ∃ x ∈ t.vel.recs, x.id = r.id ∧ x.state = 1 ∧ x.flag 3 = true) ∧
  (∀ (n : Fin 16) (e : Ecc) (s : State) (c : Cmd), ready s n 0x43 c → s.lost e = false → c.arg 16 4 ≠ 0 → c.arg 16 4 % 64 = 0 → inBulk s (c.arg 8 8) (c.arg 16 4) = true →
    c.zero 4 8 = true → c.zero 20 32 = true →
      ∃ t, exec (.velList ⟨n, e⟩) s = .next t ∧ t.hst.dram = writeBytes s.hst.dram (bulkAddr s (c.arg 8 8))
        (((s.vel.recs.filter (fun r => c.arg 0 4 ≤ r.id)).take (c.arg 16 4 / 64)).map descBytes).flatten) ∧
  (∀ (n : Fin 16) (s : State) (c : Cmd) (r : VelRec), ready s n 0x44 c → s.level n ≠ 2 → recById s (c.arg 0 4) = some r → c.zero 4 32 = true →
    r.flag 0 = false → lockAllowed s r = true → ∃ t, exec (.velLock n) s = .next t ∧ recById t (c.arg 0 4) = some (r.setFlag 0 true)) ∧
  (∀ (n : Fin 16) (s : State) (c : Cmd) (r : VelRec), ready s n 0x45 c → s.level n ≠ 2 → recById s (c.arg 0 4) = some r → c.zero 4 32 = true →
    r.flag 0 = true → ∃ t, exec (.velRelease n) s = .next t ∧ recById t (c.arg 0 4) = some (r.setFlag 0 false)) ∧
  (∀ (n : Fin 16) (s : State) (c : Cmd) (r : VelRec), ready s n 0x46 c → recById s (c.arg 0 4) = some r → c.arg 4 1 ≤ 1 → c.arg 5 1 ≤ 3 →
    c.arg 6 1 ≤ 1 → c.zero 7 8 = true → c.zero 20 32 = true → inBulk s (c.arg 8 8) (c.arg 16 4) = true → (c.arg 4 1 = 0 → c.arg 5 1 ≤ 1) →
    (c.arg 6 1 = 1 → r.flag 7 = true) → r.state ≠ 0 → modePending s 6 0 = none → s.hst.haExport = false → s.vel.exporting = none →
      ∃ t, exec (.velExport n) s = .next t ∧ t.vel.exporting =
        if (exportBytes s r (c.arg 6 1) (c.arg 4 1) (c.arg 5 1)).length ≤ c.arg 16 4
        then some ⟨n, c.sqHead, r.id, c.arg 6 1, c.arg 4 1, c.arg 5 1, c.arg 8 8, c.arg 16 4⟩ else none) ∧
  (∀ (e : Ecc) (s : State) (x : VelExport) (r : VelRec), s.lost e = false → s.vel.exporting = some x → recById s x.id = some r →
    ∃ t, exec (.velExportDone e) s = .next t ∧ t.vel.exporting = none ∧ recById t x.id = some (r.setFlag 1 false) ∧
      t.hst.dram = writeBytes s.hst.dram (bulkAddr s x.off) (exportBytes s r x.group x.version x.format))

/-! ### Field channels -/

/-- R399, R400, R410, R411: an input level that has held counts and shows; a keep-alive carries the command and ends the safe state; a
status frame brings the link up and the load current; without them the link is lost and the watchdog makes the channel safe. -/
def Obligations.ChannelFramesComplete : Prop :=
  (∀ (n : Fin 32) (level : Bool) (s : State), fcPowered s n = true → (s.fc n).mode = 1 ∨ (s.fc n).mode = 2 →
    ∃ t, exec (.diChangeCounted n level) s = .next t ∧ (t.fc n).lvl = level ∧ (t.fc n).seenAt = (s.ltc : Int) - (s.fc n).filt * 100000 ∧
      (s.on (Reg.FIO_FC_STAT_LINK n) = true → s.f (Reg.FIO_FC_CFG_MODE n) = 1 ∨ s.f (Reg.FIO_FC_CFG_MODE n) = 2 → (s.fc n).live.testBit 6 = false →
        t.on (Reg.FIO_FC_STAT_IN n) = level)) ∧
  (∀ (n : Fin 32) (s : State), s.running = true → fcPowered s n = true → commitWaits s (Reg.FIO_FC_CFG n) 4 = false →
    commitWaits s (Reg.FIO_G_CFG (grpOf n)) 4 = false →
      ∃ t, exec (.keepAliveFrame n) s = .next t ∧ (t.fc n).cmd = fcCommand s n ∧ (t.fc n).ka = s.ltc ∧ (t.fc n).safe = false ∧
        (t.fc n).wdExp = false ∧ (t.fc n).cfgd = true) ∧
  (∀ (n : Fin 32) (iload : Nat) (s : State), fcPowered s n = true → s.sysState ≠ 0 →
    ∃ t, exec (.statusFrame n iload) s = .next t ∧ t.on (Reg.FIO_FC_STAT_LINK n) = true ∧ t.f (Reg.FIO_FC_STAT_ILOAD n) = min iload 2000 ∧
      (t.fc n).stat = s.ltc) ∧
  (∀ (n : Fin 32) (s : State), s.on (Reg.FIO_FC_STAT_LINK n) = true → (s.fc n).stat + 2000000 ≤ (s.ltc : Int) →
    ∃ t, exec (.fioLinkLost n) s = .next t ∧ t.on (Reg.FIO_FC_STAT_LINK n) = false) ∧
  (∀ (n : Fin 32) (s : State), fcPowered s n = true → (s.fc n).cfgd = true → (s.fc n).wdExp = false →
    (s.fc n).ka + (((s.fc n).wdt * 1000000 : Nat) : Int) ≤ (s.ltc : Int) →
      ∃ t, exec (.watchdogExpiry n) s = .next t ∧ (t.fc n).safe = true ∧ (t.fc n).wdExp = true ∧
        ((s.fc n).safe = false →
          (t.fc n).safeVal = if (s.fc n).safeCode = 0 then false else if (s.fc n).safeCode = 1 then true else fcOn s n))

/-- R401, R406, R408: each condition is detected where its rule lets it be, and its live bit clears with it.

R405, R407, R409: protective trips and what ends them: the junction, the retry, the host; the channels of a pair come back together,
once neither is above 130 °C or within the 100 ms of an over-load. -/
def Obligations.DiagnosticsAndTripsComplete : Prop :=
  (∀ (n : Fin 32) (s : State), (s.fc n).mode = 2 → fcPowered s n = true →
    ∃ t, exec (.fioWireBreak n) s = .next t ∧ (t.fc n).live.testBit 6 = true) ∧
  (∀ (n : Fin 32) (s : State), (s.fc n).live.testBit 6 = true → ∃ t, exec (.wireBreakClear n) s = .next t ∧ (t.fc n).live.testBit 6 = false) ∧
  (∀ (n : Fin 32) (s : State), (s.fc n).isDo = true → fcPowered s n = true → fcOn s n = true ∨ (s.fc n).owoff = true →
    ∃ t, exec (.fioOpenWire n) s = .next t ∧ (t.fc n).live.testBit (if fcOn s n then 2 else 3) = true) ∧
  (∀ (n : Fin 32) (s : State), (s.fc n).isDo = true → fcPowered s n = true → fcOn s n = false →
    ∃ t, exec (.fioShortLplus n) s = .next t ∧ (t.fc n).live.testBit 4 = true) ∧
  (∀ (n : Fin 32) (s : State), (s.fc n).mode = 4 → (∀ m ∈ fcMates s n, fcOn s m = true) → modePending s 8 0 = none →
    ∃ t, exec (.fioPairImbal n) s = .next t ∧ if s.hst.haField then (t.fc n).live.testBit 5 = true else (t.fc n).latched = true) ∧
  (∀ (n : Fin 32) (b : Fin 7) (s : State), 2 ≤ b.val → b.val ≤ 5 → (s.fc n).live.testBit b = true →
    ∃ t, exec (.diagnosticClear n b) s = .next t ∧ (t.fc n).live.testBit b = false) ∧
  (∀ (n : Fin 32) (s : State), fcOn s n = true → ∃ t, exec (.fioOverload n) s = .next t ∧ (t.fc n).trip = true ∧ (t.fc n).live.testBit 0 = true ∧
    fcOn t n = false) ∧
  (∀ (n : Fin 32) (s : State), (s.fc n).isDo = true → fcPowered s n = true → (s.grp (grpOf n)).state ≠ gLockout →
    ∃ t, exec (.fioOvertemp n) s = .next t ∧ (t.fc n).trip = true ∧ (t.fc n).live.testBit 1 = true) ∧
  (∀ (n : Fin 32) (s : State), (s.fc n).live.testBit 1 = true → ∃ t, exec (.overtempClear n) s = .next t ∧ (t.fc n).live.testBit 1 = false ∧
    (modePending s 8 0 = none → fcRetries s n = true → (∀ m ∈ fcMates s n, (m ≠ n.val → (s.fc m).live.testBit 1 = false) ∧
      ((s.fc m).live.testBit 0 = true → (s.fc m).tripAt + 100000000 ≤ (s.ltc : Int))) → (t.fc n).trip = false)) ∧
  (∀ (n : Fin 32) (s : State), fcRetries s n = true → (∃ m ∈ fcMates s n, (s.fc m).live.testBit 0 = true) →
    (∀ m ∈ fcMates s n, (s.fc m).live.testBit 1 = false ∧ ((s.fc m).live.testBit 0 = true → (s.fc m).tripAt + 100000000 ≤ (s.ltc : Int))) →
      ∃ t, exec (.overloadRetry n) s = .next t ∧ ∀ m ∈ fcMates s n, (t.fc m).trip = false ∧ (t.fc m).latched = false) ∧
  (∀ (a : Access) (n : Fin 32) (s : State), accepts s a (Reg.FIO_FC_CTRL n) false → s.hst.haField = true ∨ (s.fc n).olLatch = true →
    (s.fc n).trip = true ∨ (s.fc n).latched = true →
      ∃ t, exec (.retry a n) s = .next t ∧ (t.fc n).trip = false ∧ (t.fc n).latched = false) ∧
  (∀ (a : Access) (n : Fin 32) (on : Bool) (s : State), accepts s a (Reg.FIO_FC_CTRL n) true → s.hst.haField = true →
    ∃ t, exec (.inhibit a n on) s = .next t ∧ (grpExists s (grpOf n) = true → t.on (Reg.FIO_FC_STAT_INHIBIT n) = on ∧ (on = true → fcOn t n = false)) ∧
      (grpExists s (grpOf n) = false → t.on (Reg.FIO_FC_STAT_INHIBIT n) = s.on (Reg.FIO_FC_STAT_INHIBIT n)))

/-- R414, R415, R416: a group follows its supply through its states. -/
def Obligations.SupplyStatesComplete : Prop :=
  (∀ (g : Fin 4) (mv : Nat) (s : State), grpExists s g = true →
    let shows := fun (t : State) (st : Nat) => (t.grp g).state = st ∧ (t.grp g).mv = mv ∧ t.f (Reg.FIO_G_STAT_STATE g) = st
    ((s.grp g).state = gNormal → mv < 18000 → ∃ t, exec (.fioGrpWarn g mv) s = .next t ∧ shows t gWarning) ∧
    ((s.grp g).state = gWarning → 18500 ≤ mv → ∃ t, exec (.fioGrpNormal g mv) s = .next t ∧ shows t gNormal) ∧
    ((s.grp g).state = gNormal ∨ (s.grp g).state = gWarning ∨ (s.grp g).state = gBlocked → mv < 14000 →
      ∃ t, exec (.fioGrpLockout g mv) s = .next t ∧ shows t gLockout) ∧
    ((s.grp g).state = gLockout → 17000 < mv → ∃ t, exec (.fioGrpRecover g mv) s = .next t ∧
      shows t (if s.on (Reg.FIO_G_CFG_RSTBLK g) && (s.grp g).conf then gBlocked else grpStands mv)) ∧
    ((s.grp g).state ≠ gNosupply → mv < 9000 → ∃ t, exec (.fioGrpNosupply g mv) s = .next t ∧ shows t gNosupply ∧ (t.grp g).conf = false) ∧
    ((s.grp g).state = gNosupply → 9000 ≤ mv → ∃ t, exec (.groupSupplyReturn g mv) s = .next t ∧ shows t gLockout)) ∧
  (∀ (a : Access) (g : Fin 4) (s : State), accepts s a (Reg.FIO_G_ACK g) true → (s.grp g).state = gBlocked →
    ∃ t, exec (.ack a g) s = .next t ∧ (t.grp g).state = grpStands (s.grp g).mv)

/-! ### Starts, modes and settings -/

/-- R424, R431, R516: RESET_N low and the loss of V3P3 bring RESET, the loss clears SYS_START and SYS_HEALTH; V3P3 within limits with
RESET_N high, and RESET_N rising with V3P3 within limits, bring COLD_START, of type 0 for the first release and of type 1 later.

R424, R425, R428, R435: in service the supervisor watchdog with WFAIL below 3, and a brown-out with WFAIL below 4, bring
WARM_START, a fatal fault COLD_START; START_WARM and START_COLD have a start follow 1 ms later; WFAIL clears after 60 s. -/
def Obligations.TriggersComplete : Prop :=
  (∀ s : State, ∃ t, exec .resetNAssert s = .next t ∧ t.sysState = 0 ∧ t.sys.resetN = false) ∧
  (∀ s : State, s.sysState = 0 → s.sys.resetN = false → s.sys.v3p3Low = false →
    ∃ t, exec .resetNRelease s = .next t ∧ t.sysState = 1 ∧ t.sys.resetN = true ∧
      t.f Reg.SYS_START_TYPE = if s.sys.released then 1 else 0) ∧
  (∀ s : State, ∃ t, exec .v3p3Loss s = .next t ∧ t.sysState = 0 ∧ t.sys.v3p3Low = true ∧ t.sys.released = false ∧
    t.rd Reg.SYS_START = 0 ∧ t.rd Reg.SYS_HEALTH = 0) ∧
  (∀ s : State, s.sys.v3p3Low = true → ∃ t, exec .powerOn s = .next t ∧ t.sys.v3p3Low = false ∧
    (s.sys.resetN = true → t.sysState = 1)) ∧
  (∀ s : State, s.running = true → s.f Reg.SYS_START_WFAIL < 3 → ∃ t, exec .supervisorWatchdogExpiry s = .next t ∧ t.sysState = 2 ∧
    t.f Reg.SYS_START_TYPE = 5) ∧
  (∀ s : State, s.running = true → s.f Reg.SYS_START_WFAIL < 4 → ∃ t, exec .brownOut s = .next t ∧ t.sysState = 2 ∧
    t.f Reg.SYS_START_TYPE = 7) ∧
  (∀ s : State, s.running = true → s.sys.attempt < 3 → ∃ t, exec .fatalFault s = .next t ∧ t.sysState = 1 ∧
    t.f Reg.SYS_START_TYPE = 2) ∧
  (∀ (n : Fin 16) (s : State) (c : Cmd), ready s n 0x13 c → s.level n = 0 → c.arg 0 1 = 0 → c.zero 1 8 = true → s.running = true →
    s.sys.startDue = none → ∃ t, exec (.startWarm n) s = .next t ∧ t.sys.startDue = some (s.ltc + 1000000, false, false)) ∧
  (∀ (n : Fin 16) (s : State) (c : Cmd), ready s n 0x14 c → s.level n = 0 → c.arg 0 1 ≤ 1 → c.zero 1 8 = true → s.sys.startDue = none →
    ∃ t, exec (.startCold n) s = .next t ∧ t.sys.startDue = some (s.ltc + 1000000, true, decide (c.arg 0 1 = 1))) ∧
  (∀ (s : State) (u : Nat) (w : Bool), s.sys.svcAt = some (u, w) → s.running = true → u + 60000000000 ≤ s.ltc →
    ∃ t, exec .wfailClear s = .next t ∧ t.f Reg.SYS_START_WFAIL = 0)

/-- R426, R429, R431, R434: a cold attempt with every step passed enters IN_SERVICE with its bank in BANK and CFAIL 0; one whose
bank does not load counts, with its cause, and after the fourth SERVICE_HOLD follows; one that fails another step enters
FAULT_SAFE. After a brown-out no attempt begins before VCORE has been within its limits for 1 ms. That one command runs a whole attempt
is the model's choice (log entry 45).

R427, R428: a warm attempt whose bank loads enters IN_SERVICE; no signature is verified where the header's hash is the sealed one,
and the integrators are kept up to 2 s after the trigger. One whose bank does not load, or that fails step 5, counts in WFAIL, and the
next attempt follows while WFAIL is below 4. That a load failure of a warm start shows in CAUSE is the model's choice (log entry 45). -/
def Obligations.StartAttemptsComplete : Prop :=
  (∀ (f : ColdFacts) (s : State), s.sysState = 1 →
    (s.sys.brown = true → ∃ u : Int, s.pkg.vcoreAt = some u ∧ u + 1000000 ≤ (s.ltc : Int)) →
    let found := loadCause (coldTrained (coldTested (coldFused (coldReset s)) f) f) f.load (attemptBank s) (fun _ => false)
    (f.fuseOk = true → f.mapOk = true → f.bistOk = true → f.trainOk = true →
      (∀ img, found = .ok img → f.dramOk = true → f.unitsOk = true →
        ∃ t, exec (.coldStart f) s = .next t ∧ t.sysState = 3 ∧ t.f Reg.SYS_START_BANK = attemptBank s ∧ t.f Reg.SYS_START_CFAIL = 0) ∧
      (∀ k, found = .error k →
        ∃ t, exec (.coldStart f) s = .next t ∧ t.f Reg.SYS_START_CAUSE = k ∧ t.sys.attempt = s.sys.attempt + 1 ∧
          t.sysState = if 3 ≤ s.sys.attempt then 5 else 1) ∧
      (∀ img, found = .ok img → f.dramOk = false ∨ f.unitsOk = false →
        ∃ t, exec (.coldStart f) s = .next t ∧ t.sysState = 6)) ∧
    (f.fuseOk = false ∨ f.mapOk = false ∨ f.bistOk = false ∨ f.trainOk = false →
      ∃ t, exec (.coldStart f) s = .next t ∧ t.sysState = 6)) ∧
  (∀ (f : ColdFacts) (s : State), s.sysState = 1 → s.sys.brown = true →
    s.pkg.vcoreAt = none ∨ (∃ u : Int, s.pkg.vcoreAt = some u ∧ (s.ltc : Int) < u + 1000000) → exec (.coldStart f) s = .next s) ∧
  (∀ (f : LoadFacts) (s : State), s.sysState = 2 →
     let same := fun (i : FolioImage) => decide (folioHead i = s.sea.sealedHash)
     let found := loadCause s f (s.f Reg.SYS_START_BANK) same
     (∀ img, found = .ok img →
       ∃ t, exec (.warmStart f true) s = .next t ∧ t.sysState = 3 ∧ t.f Reg.SYS_START_VERIFY_SKIPPED = b2n (same img) ∧
         t.f Reg.SYS_START_INTEG_KEPT = b2n (decide ((s.ltc : Int) - s.sys.trigAt ≤ 2000000000))) ∧
     (∀ k, found = .error k → s.f Reg.SYS_START_WFAIL < 3 → ∀ units,
       ∃ t, exec (.warmStart f units) s = .next t ∧ t.sysState = 2 ∧ t.f Reg.SYS_START_WFAIL = s.f Reg.SYS_START_WFAIL + 1 ∧
         t.f Reg.SYS_START_CAUSE = k) ∧
     (∀ img, found = .ok img → s.f Reg.SYS_START_WFAIL < 3 →
       ∃ t, exec (.warmStart f false) s = .next t ∧ t.sysState = 2 ∧ t.f Reg.SYS_START_WFAIL = s.f Reg.SYS_START_WFAIL + 1))

/-- R432: a P0 session enters TEST, which begins its time, and leaves it; TEST also ends at its time. -/
def Obligations.TestModeCompletes : Prop :=
  (∀ (n : Fin 16) (v : Word) (s : State), s.sysState = 3 → v.toNat.testBit 0 = true →
    ∃ t, exec (.sysCtrlTestWrite (.cmd n 0) v) s = .next t ∧ t.sysState = 4 ∧ t.on Reg.SYS_CTRL_TEST = true ∧
      t.f Reg.SYS_STATE_TEST_SESS = n.val ∧ t.sys.testEnd = s.ltc + s.f Reg.SYS_CTRL_TEST_TMO * 60000000000) ∧
  (∀ (n : Fin 16) (v : Word) (s : State), s.sysState = 4 → v.toNat.testBit 0 = false →
    ∃ t, exec (.sysCtrlTestWrite (.cmd n 0) v) s = .next t ∧ t.sysState = 3 ∧ t.on Reg.SYS_CTRL_TEST = false) ∧
  (∀ s : State, s.sysState = 4 → s.sys.testEnd ≤ s.ltc →
    ∃ t, exec .testTimeout s = .next t ∧ t.sysState = 3 ∧ t.on Reg.SYS_CTRL_TEST = false)

/-- R436, R476: GO with a bank not in use and with SRC and LEN valid takes the image of the host bulk region: one that fails causes 1 to 7
is refused with RESULT 4 and its cause, and for any other the owner and vendor signatures are verified, whose success begins
programming; the end of programming shows in RESULT. A bank that is being programmed, or whose programming failed, loads no image
(model's choice, log entry 64). -/
def Obligations.BankProgrammingCompletes : Prop :=
  (∀ (a : Access) (v : Word) (img : FolioImage) (s : State) (bank : Nat), accepts s a Reg.SYS_FLASH_CTRL false → s.sys.flashGo = false →
    bank = (match a with | .cmd _ 0 => b2n (v.toNat.testBit 0) | _ => s.f Reg.SYS_FLASH_CTRL_BANK) →
    s.on Reg.SYS_FLASH_CTRL_BUSY = false → v.toNat.testBit 1 = true → (s.running = true → bank ≠ s.f Reg.SYS_START_BANK) →
    s.rd Reg.SYS_FLASH_SRC % 4096 = 0 → 4608 ≤ s.f Reg.SYS_FLASH_LEN_LEN → s.f Reg.SYS_FLASH_LEN_LEN ≤ 16777216 →
    inBulk s (s.rd Reg.SYS_FLASH_SRC) (s.f Reg.SYS_FLASH_LEN_LEN) = true →
      let x := bulkImage s img
      let head := headCause (s.f Reg.SYS_ID_VARIANT) x
      ∃ t, exec (.flashProgramGo a v img) s = .next t ∧ t.f Reg.SYS_FLASH_CTRL_BANK = bank ∧
        (if head = 0 ∧ ownerSlotFails s x = false then
          t.f Reg.SYS_FLASH_CTRL_RESULT = 1 ∧ t.on Reg.SYS_FLASH_CTRL_BUSY = true ∧ t.sys.flashImg = some x
        else t.f Reg.SYS_FLASH_CTRL_RESULT = 4 ∧ t.on Reg.SYS_FLASH_CTRL_BUSY = false ∧ t.sys.flashImg = none ∧ t.sys.flash = none ∧
          t.f Reg.SYS_FLASH_CTRL_CAUSE = if head ≠ 0 then head else 7)) ∧
  (∀ (a : Access) (v : Word) (img : FolioImage) (s : State), s.sys.flashGo = true →
    headCause (s.f Reg.SYS_ID_VARIANT) (bulkImage s img) = 0 → ownerSlotFails s (bulkImage s img) = false →
      ∃ t, exec (.flashProgramGo a v img) s = .next t ∧ t.sys.flashGo = false ∧ t.sys.flashImg = some (bulkImage s img)) ∧
  (∀ (s : State) (img : FolioImage) (j : SealJob) (rest : List SealJob), s.sea.jobs = j :: rest → s.sys.flashImg = some img → j.kind = 5 →
    j.ok = true → contentFails (sealNote (s.setSea { s.sea with jobs := rest })) img = false →
      ∃ t, exec .sealJobComplete s = .next t ∧ t.sys.flashImg = none ∧ t.sys.flash = some (s.f Reg.SYS_FLASH_CTRL_BANK, img) ∧
        t.sys.nor.get (s.f Reg.SYS_FLASH_CTRL_BANK) = none) ∧
  (∀ (s : State) (img : FolioImage) (j : SealJob) (rest : List SealJob), s.sea.jobs = j :: rest → s.sys.flashImg = some img →
    j.kind = 4 ∨ j.kind = 5 → j.ok = false →
      ∃ t, exec .sealJobComplete s = .next t ∧ t.sys.flashImg = none ∧ t.f Reg.SYS_FLASH_CTRL_RESULT = 4 ∧
        t.f Reg.SYS_FLASH_CTRL_CAUSE = if j.kind = 4 then 8 else 10) ∧
  (∀ (s : State) (bank : Nat) (img : FolioImage), s.sys.flash = some (bank, img) →
    (∃ t, exec (.flashProgDone true) s = .next t ∧ t.f Reg.SYS_FLASH_CTRL_RESULT = 2 ∧ t.on Reg.SYS_FLASH_CTRL_BUSY = false ∧
      t.sys.flash = none ∧ t.sys.nor.get bank = some img) ∧
    (∃ t, exec (.flashProgDone false) s = .next t ∧ t.f Reg.SYS_FLASH_CTRL_RESULT = 5 ∧ t.on Reg.SYS_FLASH_CTRL_BUSY = false ∧ t.sys.flash = none))

/-- R437, R439, R440, R441, R442: change records that pass every check are staged; a commit takes the staging with the next epoch, an
abort discards it; the end of the shadow's resynchronisation shows. -/
def Obligations.SettingsCommandsComplete : Prop :=
  (∀ (n : Fin 16) (e : Ecc) (s : State) (c : Cmd) (recs : List ChangeRec) (st : Tab (Option Nat)), ready s n 0x10 c → s.level n = 0 →
    12 ≤ c.arg 8 4 → c.arg 8 4 ≤ 1048576 → c.arg 8 4 % 4 = 0 → c.zero 12 32 = true → inBulk s (c.arg 0 8) (c.arg 8 4) = true → s.lost e = false →
    let m := memNote s e
    readRecs m 87382 (bulkAddr m (c.arg 0 8)) (c.arg 8 4) [] = .ok recs → stageRecs m recs = .ok st → stagedFails m st = none →
    stageState m n = false → m.on Reg.SYS_STATE_RESYNC = false →
      ∃ t, exec (.setWrite ⟨n, e⟩) s = .next t ∧ t.sys.staged = st ∧ t.on Reg.SYS_STATE_STAGED = true ∧ t.f Reg.SYS_STATE_STG_SESS = n.val) ∧
  (∀ (n : Fin 16) (s : State) (c : Cmd), ready s n 0x11 c → epochStatus s n c = none →
    ∃ t, exec (.epochCommit n) s = .next t ∧ t.f Reg.SYS_EPOCH_EPOCH = (s.f Reg.SYS_EPOCH_EPOCH + 1) % 2 ^ 32 ∧ t.sys.staged = [] ∧
      t.sys.committed = true ∧ t.on Reg.SYS_STATE_STAGED = false) ∧
  (∀ (n : Fin 16) (s : State) (c : Cmd), ready s n 0x12 c → epochStatus s n c = none →
    ∃ t, exec (.epochAbort n) s = .next t ∧ t.sys.staged = [] ∧ t.on Reg.SYS_STATE_STAGED = false ∧
      t.f Reg.SYS_EPOCH_EPOCH = s.f Reg.SYS_EPOCH_EPOCH) ∧
  (∀ s : State, ∃ t, exec .shadowResyncDone s = .next t ∧ t.on Reg.SYS_STATE_RESYNC = false)

/-! ### Host interfaces -/

/-- R456, R457, R458, R459, R482: HELLO greets a free slot; SESSION_OPEN draws a nonce, and its second phase goes to the signature engine
with the message of R482 and the key of its credential;
SESSION_CLOSE, an idle session and an unanswered challenge end. -/
def Obligations.SessionsComplete : Prop :=
  (∀ (n : Fin 16) (s : State) (c : Cmd), ready s n 0x01 c → c.arg 0 1 ≠ 0 → s.f (Reg.HST_SESS_STAT_STATE n) = 0 →
    ∃ t, exec (.hello n) s = .next t ∧ t.f (Reg.HST_SESS_STAT_STATE n) = 1 ∧ t.f (Reg.HST_SESS_STAT_VER n) = min (c.arg 0 1) 3) ∧
  (∀ (n : Fin 16) (s : State) (c : Cmd) (cr : Cred), ready s n 0x02 c → c.arg 0 1 = 0 → c.arg 1 1 ≤ 15 → c.arg 2 1 ≤ 2 →
    c.zero 3 32 = true → credOf s (c.arg 1 1) = some cr → s.f (Reg.HST_SESS_STAT_STATE n) = 1 → jobOf s n 0 = false →
    (recentFails s n).length < 3 → credPriv s n (c.arg 2 1) cr = false → rngFails s = false →
      ∃ t, exec (.sessionOpenPhase0 n) s = .next t ∧ t.f (Reg.HST_SESS_STAT_STATE n) = 2 ∧ (t.sess n).challengeAt = some s.ltc ∧
        t.freeCtr = s.freeCtr + 32 ∧
        t.inkRead (n.val * 0x4000 + 0x2000) 32 = (List.range 32).map (fun i => Config.freeByte (s.freeCtr + i))) ∧
  (∀ (n : Fin 16) (v : SigFact) (s : State) (c : Cmd) (cr : Cred), ready s n 0x02 c → c.arg 0 1 = 1 → c.arg 1 1 ≤ 15 → c.arg 2 1 ≤ 2 →
    c.zero 3 32 = true → credOf s (c.arg 1 1) = some cr → s.f (Reg.HST_SESS_STAT_STATE n) = 2 → jobOf s n 0 = false →
    (recentFails s n).length < 3 → credPriv s n (c.arg 2 1) cr = false → sealFull s = false →
      ∃ t, exec (.sessionOpenPhase1 n v) s = .next t ∧
        t.sea.jobs = s.sea.jobs ++ [⟨0, n.val, c.sqHead, c, signs [v] (sigArea s n) cr.key (challengeMessage s n c)⟩]) ∧
  (∀ (n : Fin 16) (s : State) (c : Cmd), ready s n 0x03 c → s.f (Reg.HST_SESS_STAT_STATE n) ≠ 0 →
    ∃ t, exec (.sessionClose n) s = .next t ∧ t.f (Reg.HST_SESS_STAT_STATE n) = 0 ∧ (t.sess n).cmds = [] ∧ (t.sess n).owner = none) ∧
  (∀ (n : Fin 16) (s : State), s.f Reg.HST_CFG_SESS_TMO ≠ 0 → s.f (Reg.HST_SESS_STAT_STATE n) ≠ 0 →
    (s.sess n).lastDb + s.f Reg.HST_CFG_SESS_TMO * 1000000000 ≤ s.ltc →
      ∃ t, exec (.sessionIdleTimeout n) s = .next t ∧ t.f (Reg.HST_SESS_STAT_STATE n) = 0 ∧ (t.sess n).cmds = []) ∧
  (∀ (n : Fin 16) (s : State) (u : Nat), (s.sess n).challengeAt = some u → s.f (Reg.HST_SESS_STAT_STATE n) = 2 →
    u + 10000000000 ≤ s.ltc → jobOf s n 0 = false →
      ∃ t, exec (.challengeTimeout n) s = .next t ∧ t.f (Reg.HST_SESS_STAT_STATE n) = 1 ∧ (t.sess n).challengeAt = none)

/-- R463, R468: READ_REG posts the words of up to four registers, in the next entry of the completion queue with its phase bit;
WRITE_REG writes the bits that MASK names; so do one write over the bus and one over SPI, all bits. -/
def Obligations.RegisterCommandsComplete : Prop :=
  (∀ (n : Fin 16) (s : State) (c : Cmd), ready s n 0x04 c → (s.sess n).cmds = [c] → 1 ≤ c.arg 4 1 → c.arg 4 1 ≤ 4 →
    regArgsOk c (c.arg 4 1) = true →
      ∃ t, exec (.readReg n) s = .next t ∧ (t.sess n).cmds = [] ∧
        t.inkRead (n.val * 0x4000 + 0x1000 + (s.sess n).cqTail % 64 * 32) 32 = completionBytes c stOK (1 - (s.sess n).cqTail / 64 % 2)
          (readWords (accessReq s (.cmd n 0)) (c.arg 4 1) (c.arg 0 4) s).1 s.ltc) ∧
  (∀ (n : Fin 16) (s : State) (c : Cmd) (a : Nat), ready s n 0x05 c → s.level n ≠ 2 → s.running = true → c.arg 0 4 = a → c.arg 4 1 = 0 →
    regArgsOk c 1 = true →
      (a = Reg.HST_LOGSEV → ∃ t, exec (.writeReg n) s = .next t ∧ t.rd a = merged (s.rd a) (c.arg 12 4 % 8) (c.arg 8 4)) ∧
      (a = Reg.HST_IRQ_EN → ∃ t, exec (.writeReg n) s = .next t ∧ t.rd a = merged (s.rd a) (c.arg 12 4) (c.arg 8 4))) ∧
  (∀ (r : Requester) (v : BitVec 64) (s : State), r = .pcie ∨ r = .spi → inkServed s = true →
    ∃ t, exec (.registerWrite r Reg.HST_IRQ_EN 4 v) s = .next t ∧ t.rd Reg.HST_IRQ_EN = v.toNat % 2 ^ 32) ∧
  (∀ (cmd v : Word) (s : State), inkServed s = true → cmd.getLsbD 31 = false → cmd.toNat / 2 ^ 25 % 64 = 0 →
    cmd.toNat % 2 ^ 24 = Reg.HST_IRQ_EN →
      ∃ t, exec (.spiTransaction cmd [v]) s = .next t ∧ t.rd Reg.HST_IRQ_EN = v.toNat)

/-- R46, R469: a change of mode waits for its boundary; one that asks for the mode in force changes nothing and completes.

R309, R464, R465, R466: data of a pull enter the host bulk region at the offset of their completion, and a completion with an error
status or poison ends the pull (how a completion says which read it is of, and that a reissued read starts over, is the model's choice,
log entry 62); a read without completion is reissued and counted; a command
past its deadline leaves the queue, and a switch without an all-idle instant is dropped. -/
def Obligations.ModesAndDeadlinesComplete : Prop :=
  (∀ (n : Fin 16) (s : State) (c : Cmd), ready s n 0x06 c → s.level n = 0 → 1 ≤ c.arg 0 1 → c.arg 0 1 ≤ 8 → c.arg 1 1 ≤ 1 →
     c.arg 2 2 < modeInstances s (c.arg 0 1) → c.zero 4 32 = true → modePending s (c.arg 0 1) (c.arg 2 2) = none →
     (c.arg 0 1 = 4 → (s.nc (c.arg 2 2)).svc ≠ 0 ∧ (s.nc (c.arg 2 2)).svc ≠ 2) →
       ∃ t, exec (.modeSet n) s = .next t ∧ t.sys.modePend =
         if modeInForce s (c.arg 0 1) (c.arg 2 2) = decide (c.arg 1 1 = 1) then s.sys.modePend
         else s.sys.modePend ++ [⟨c.arg 0 1, c.arg 2 2, decide (c.arg 1 1 = 1), n.val, c.sqHead⟩]) ∧
  (∀ (n : Fin 16) (off : Nat) (data : List Byte) (s : State) (c : Cmd) (r : PullRead), pulling s n = some c → c.readAt off = some r →
    (∃ t, exec (.pullReadCompletion n ⟨0, off⟩ data) s = .next t ∧
      t.hst.dram = writeBytes s.hst.dram (bulkAddr s (c.pdst + off)) (data.take (r.len - r.got))) ∧
    (∃ t, exec (.pullReadCompletion n ⟨1, off⟩ data) s = .next t ∧ (∀ d ∈ (t.sess n).cmds, d.sqHead ≠ c.sqHead) ∧
      t.f Reg.HST_PCIE_CNT_CPL_ERR = (s.f Reg.HST_PCIE_CNT_CPL_ERR + 1) % 65536) ∧
    (∃ t, exec (.pullReadCompletion n ⟨2, off⟩ data) s = .next t ∧ (∀ d ∈ (t.sess n).cmds, d.sqHead ≠ c.sqHead) ∧
      t.f Reg.HST_PCIE_CNT_POISON = (s.f Reg.HST_PCIE_CNT_POISON + 1) % 65536)) ∧
  (∀ (n : Fin 16) (s : State) (c : Cmd), pulling s n = some c → (∃ r ∈ c.reads, r.at' + cplNs s.hst.cplValue ≤ s.ltc) →
    ∃ t, exec (.cplTimeout n) s = .next t ∧ { c with tries := c.tries + 1, reads := reissue (s.ltc - cplNs s.hst.cplValue) s.ltc c.reads } ∈ (t.sess n).cmds ∧
      t.f Reg.HST_PCIE_CNT_CPL_TO = (s.f Reg.HST_PCIE_CNT_CPL_TO + 1) % 65536) ∧
  (∀ (n : Fin 16) (cid : Nat) (s : State) (c : Cmd), inkServed s = true →
    (s.sess n).cmds.find? (fun c => c.cid = cid && decide (c.deadline ≤ s.ltc) && unaffected s n c) = some c →
      ∃ t, exec (.hstCmdTimeout n cid) s = .next t ∧ ∀ d ∈ (t.sess n).cmds, d.sqHead ≠ c.sqHead) ∧
  (∀ (s : State) (w : QSw), s.qil.sw = some w → w.mode = 0 → w.at' + 100000000 ≤ s.ltc →
    ∃ t, exec .allIdleTimeout s = .next t ∧ t.qil.sw = none ∧ t.on Reg.QIL_STAT_SW_PEND = false)

/-- R466: where the time-out of a read and the deadline fall at the same LTC, no read is reissued, and the deadline completes the
command, one time-out counted. -/
def Obligations.DeadlineGovernsReadTimeout : Prop :=
  ∀ (n : Fin 16) (s : State) (c : Cmd), inkServed s = true → (s.sess n).cmds = [c] → c.started = false → c.pull = true →
    (∃ r ∈ c.reads, r.at' + cplNs s.hst.cplValue = s.ltc) → c.deadline = s.ltc →
      exec (.cplTimeout n) s = .next s ∧
      ∃ t, exec (.hstCmdTimeout n c.cid) s = .next t ∧ (t.sess n).cmds = [] ∧
        t.f (Reg.HST_SESS_CNT_TIMEOUTS n) = min (s.f (Reg.HST_SESS_CNT_TIMEOUTS n) + 1) 255 ∧
        t.f Reg.HST_PCIE_CNT_CPL_TO = s.f Reg.HST_PCIE_CNT_CPL_TO

/-- R446: the PCIe link goes down with PERST_N or by itself, comes up with its speed and width; a reset of the function clears its
MSI-X table; sessions of PCIe close.

R445, R446, R449, R450, R452, R453, R456, R463, R522: a write of a part of the Inkwell area that the host may write; reads and writes
of the aperture, poisoned where the word is uncorrectable; ill-formed accesses; requests to configuration space (its layout is the
model's choice, log entry 65); SPI transactions and their refusal, ignored in RESET; the doorbells. -/
def Obligations.HostAccessesComplete : Prop :=
  (∀ s : State, ∃ t, exec .perstNFall s = .next t ∧ t.hst.perstN = false ∧ t.on Reg.HST_STAT_LINK = false ∧ t.hst.msix = [] ∧
    ∀ n < 16, (s.sess n).owner = some 0 → t.f (Reg.HST_SESS_STAT_STATE n) = 0) ∧
  (∀ (speed width : Nat) (s : State), s.sysState ≠ 0 → s.on Reg.HST_STAT_LINK = false → 1 ≤ speed → speed ≤ 3 → 1 ≤ width → width ≤ 2 →
    ∃ t, exec (.hstPcieLinkUp speed width) s = .next t ∧ t.on Reg.HST_STAT_LINK = true ∧ t.f Reg.HST_STAT_SPEED = speed ∧
      t.f Reg.HST_STAT_WIDTH = width ∧ t.hst.perstN = true) ∧
  (∀ s : State, ∃ t, exec .hstPcieLinkDown s = .next t ∧ t.on Reg.HST_STAT_LINK = false ∧
    (s.on Reg.HST_STAT_LINK = true → ∀ n < 16, (s.sess n).owner = some 0 → t.f (Reg.HST_SESS_STAT_STATE n) = 0)) ∧
  (∀ s : State, ∃ t, exec .pcieHotReset s = .next t ∧ t.hst.msix = [] ∧ t.hst.cplValue = 0 ∧ t.hst.ep = Endpoint.reset ∧ t.on Reg.HST_STAT_MSIX = false ∧
    ∀ n < 16, (s.sess n).owner = some 0 → t.f (Reg.HST_SESS_STAT_STATE n) = 0) ∧
  (∀ (r : Requester) (o : Nat) (v : BitVec 64) (s : State), r = .pcie ∨ r = .spi → inkServed s = true → inkPart o = some true →
    (o % 4 = 0 → ∃ t, exec (.registerWrite r (0x800000 + o) 4 v) s = .next t ∧ t.inkRead o 4 = leBytes 4 v.toNat) ∧
    (o % 8 = 0 → inkPart (o + 4) = some true →
      ∃ t, exec (.registerWrite r (0x800000 + o) 8 v) s = .next t ∧ t.inkRead o 8 = leBytes 8 v.toNat)) ∧
  (∀ (r : Requester) (addr bytes : Nat) (v : BitVec 64) (s : State), r = .pcie ∨ r = .spi → inkServed s = true →
    (bytes ≠ 4 ∧ bytes ≠ 8) ∨ addr % bytes ≠ 0 →
      ∃ t, exec (.registerWrite r addr bytes v) s = .next t ∧ t.f Reg.HST_CNT_BADACC = min (s.f Reg.HST_CNT_BADACC + 1) 255) ∧
  (∀ (off words : Nat) (c : Ecc) (s : State), inkServed s = true → 1 ≤ words → words ≤ 2 →
    ∃ t, exec (.bar2Read off words c) s = .next t ∧ t.hst.bar2Poison = s.lost c ∧
      t.hst.bar2Out = (List.range words).map (fun i => if s.lost c then 0xFFFFFFFF#32 else bar2Word s (off + 4 * i))) ∧
  (∀ (off words : Nat) (c : Ecc) (s : State), inkServed s = true → words = 0 ∨ 2 < words →
    ∃ t, exec (.bar2Read off words c) s = .next t ∧ t.hst.bar2Out = [] ∧ t.f Reg.HST_CNT_BADACC = min (s.f Reg.HST_CNT_BADACC + 1) 255) ∧
  (∀ (off bytes : Nat) (s : State), inkServed s = true →
    ∃ t, exec (.bar2Write ⟨off, bytes⟩) s = .next t ∧ t.f Reg.HST_CNT_BAR2_WR = min (s.f Reg.HST_CNT_BAR2_WR + 1) 255 ∧
      t.f Reg.HST_CNT_BADACC = if 8 < bytes then min (s.f Reg.HST_CNT_BADACC + 1) 255 else s.f Reg.HST_CNT_BADACC) ∧
  (∀ (addr bytes : Nat) (s : State), inkServed s = true → (bytes ≠ 4 ∧ bytes ≠ 8) ∨ addr % bytes ≠ 0 →
    ∃ t, exec (.lowWordRead ⟨.pcie, bytes⟩ addr) s = .next t ∧ t.hst.rdOut = [] ∧ t.f Reg.HST_CNT_BADACC = min (s.f Reg.HST_CNT_BADACC + 1) 255) ∧
  (∀ (addr bytes : Nat) (v : BitVec 64) (s : State), s.on Reg.HST_STAT_LINK = true →
    (∃ t, exec (.lowWordRead ⟨.cfg, bytes⟩ addr) s = .next t ∧ t.hst.rdOut = [BitVec.ofNat 32 (cfgWord s (addr / 4 * 4))]) ∧
    (∃ t, exec (.registerWrite .cfg 0x10 4 v) s = .next t ∧ t.hst.ep.bar0 = v.toNat % 2 ^ 32 / 2 ^ 24 * 2 ^ 24)) ∧
  (∀ (cmd : Word) (data : List Word) (s : State), let n := cmd.toNat / 2 ^ 25 % 64 + 1
    let a := cmd.toNat % 2 ^ 24 / 4 * 4
    let status := BitVec.ofNat 32 (0xA5000000 + 2 * b2n (!s.intN) + b2n s.hst.spiRefused)
    (s.sysState = 0 → exec (.spiTransaction cmd data) s = .next (s.setHst { s.hst with spiOut := [] })) ∧
    (s.sysState ≠ 0 → cmd.getLsbD 31 = true → ∃ t, exec (.spiTransaction cmd data) s = .next t ∧
      t.hst.spiOut = status :: 0#32 :: (spiReadWords n a s).1 ∧ t.hst.spiRefused = false) ∧
    (s.sysState ≠ 0 → cmd.getLsbD 31 = false → data.length < n →
      exec (.spiTransaction cmd data) s = .next (s.setHst { s.hst with spiRefused := true, spiOut := [status] })) ∧
    (s.sysState ≠ 0 → cmd.getLsbD 31 = false → n ≤ data.length →
      ∃ t, exec (.spiTransaction cmd data) s = .next t ∧ t.hst.spiOut = [status] ∧ t.hst.spiRefused = false)) ∧
  (∀ (r : Requester) (n : Fin 16) (tail : Word) (s : State), r = .pcie ∨ r = .spi → inkServed s = true → otherIf s r n = false →
    (tail.toNat % 128 + 128 - s.f (Reg.HST_SESS_STAT_SQHEAD n)) % 128 ≤ 64 →
      ∃ t, exec (.doorbell r n tail) s = .next t ∧ t.f (Reg.HST_SESS_DB_TAIL n) = tail.toNat % 128 ∧
        (t.sess n).owner = some (ifCode r) ∧ (t.sess n).lastDb = s.ltc) ∧
  (∀ (r : Requester) (n : Fin 16) (head : Word) (s : State), r = .pcie ∨ r = .spi → inkServed s = true → otherIf s r n = false →
    ∃ t, exec (.completionDoorbell r n head) s = .next t ∧ t.f (Reg.HST_SESS_CQDB_HEAD n) = head.toNat % 128 ∧
      (t.sess n).lastDb = s.ltc)

/-! ### Seal, memory, package, debug -/

/-- R476, R484, R485, R486, R487: a job joins the queue of the signature engine; the oldest one leaves it done: a session opens, an
unlock takes force for its time, a report is replaced under the next number, an image for flash goes on from its owner signature to
its vendor signature (log entry 64); an unlock ends at its time and by RELOCK; the health of
the entropy source shows.

R479, R480, R481: a slot that never held a hash takes that of SEA_OWN_NEW, a slot and a vendor root are revoked, an unowned module
is commissioned; the end of the fuse write shows in SEA_STAT, in the slot's hash and in RESULT. -/
def Obligations.SealJobsAndFusesComplete : Prop :=
  (∀ (n : Fin 16) (s : State) (c : Cmd), ready s n 0x50 c → s.sea.jobs.any (fun j => j.kind = 2) = false → sealFull s = false →
    rngFails s = false → ∃ t, exec (.attest n) s = .next t ∧ t.sea.jobs = s.sea.jobs ++ [⟨2, n.val, c.sqHead, c, true⟩] ∧
      t.on Reg.SEA_STAT_SIGN_BUSY = true) ∧
  (∀ (s : State) (j : SealJob) (rest : List SealJob), s.sea.jobs = j :: rest →
    ∃ t, exec .sealJobComplete s = .next t ∧ (s.sys.flashImg = none → t.sea.jobs = rest) ∧
      (∀ img, j.kind = 4 → j.ok = true → s.sys.flashImg = some img → vendorFails s img = false →
        t.sea.jobs = rest ++ [ownJob 5 (vendorSigned img)]) ∧
      (∀ c, j.kind = 0 → j.ok = true → j.sess < 16 → j.cmd.arg 2 1 ≤ 2 → findCmd s j.sess j.head = some c →
        t.f (Reg.HST_SESS_STAT_STATE j.sess) = 3 ∧ t.level j.sess = if s.sysState = 5 then 0 else j.cmd.arg 2 1) ∧
      (j.kind = 1 → j.ok = true → s.on Reg.SEA_DBG_UNLOCKED = false →
        t.on Reg.SEA_DBG_UNLOCKED = true ∧ t.sea.unlockEnd = some (s.ltc + j.cmd.arg 4 2 * 60000000000)) ∧
      (j.kind = 2 → t.sea.rseq = s.sea.rseq + 1 ∧ t.f Reg.SEA_RPT_INFO_LEN = if s.hst.haAttest then 2580 else 3892)) ∧
  (∀ (n : Fin 16) (s : State) (c : Cmd), ready s n 0x51 c → s.level n = 0 → c.arg 1 1 ≤ 1 → c.arg 2 1 = 1 → c.arg 3 1 = 0 →
    1 ≤ c.arg 4 2 → c.arg 4 2 ≤ 1440 → c.zero 6 32 = true → s.on Reg.SEA_DBG_UNLOCKED = false →
      (c.arg 0 1 = 0 → rngFails s = false → ∃ t, exec (.debugUnlockPhase0 n) s = .next t ∧ (t.sess n).unlockNonce = some s.ltc ∧
        t.inkRead (n.val * 0x4000 + 0x2000) 32 = (List.range 32).map (fun i => Config.freeByte (s.freeCtr + i))) ∧
      (∀ v u, c.arg 0 1 = 1 → (s.sess n).unlockNonce = some u → s.ltc < u + 10000000000 → jobOf s n 1 = false → sealFull s = false →
        ∃ t, exec (.debugUnlockPhase1 n v) s = .next t ∧ t.sea.jobs = s.sea.jobs ++
          [⟨1, n.val, c.sqHead, c, signs [v] (sigArea s n) (tokenKey s c) (tokenMessage s n c)⟩])) ∧
  (∀ (s : State) (u : Nat), s.sea.unlockEnd = some u → u ≤ s.ltc → s.on Reg.SEA_DBG_UNLOCKED = true →
    ∃ t, exec .debugUnlockExpiry s = .next t ∧ t.on Reg.SEA_DBG_UNLOCKED = false ∧ t.sea.unlockEnd = none) ∧
  (∀ (a : Access) (s : State), accepts s a Reg.SEA_DBG false → s.on Reg.SEA_DBG_UNLOCKED = true →
    ∃ t, exec (.relock a) s = .next t ∧ t.on Reg.SEA_DBG_UNLOCKED = false ∧ t.sea.unlockEnd = none) ∧
  (∀ s : State, ∃ t, exec .seaRngFail s = .next t ∧ t.on Reg.SEA_STAT_RNG_FAIL = true) ∧
  (∀ s : State, ∃ t, exec .entropyHealthRestored s = .next t ∧ t.on Reg.SEA_STAT_RNG_FAIL = false) ∧
  (∀ (a : Access) (v : Word) (s : State), accepts s a Reg.SEA_OWN_CTRL true → s.running = true → s.on Reg.SEA_OWN_CTRL_BUSY = false →
    (slotUsed s (v.toNat % 4) = false → ∃ t, exec (.ownerSlotWrite a v) s = .next t ∧ t.on Reg.SEA_OWN_CTRL_BUSY = true ∧
      t.sea.fuse = some ⟨v.toNat % 4, 0, false, newHash s⟩) ∧
    (slotUsed s (v.toNat % 4) = true → ∃ t, exec (.ownerSlotWrite a v) s = .next t ∧ t.sea.fuse = s.sea.fuse ∧
      t.f Reg.SEA_OWN_CTRL_RESULT = 3)) ∧
  (∀ (a : Access) (v : Word) (s : State), accepts s a Reg.SEA_OWN_CTRL true → s.running = true → s.on Reg.SEA_OWN_CTRL_BUSY = false →
    (s.sea.folioLoaded = true → v.toNat % 4 ≠ s.sea.keyIdx) → (∃ i < 4, i ≠ v.toNat % 4 ∧ slotWritten s i = true) →
      ∃ t, exec (.ownerSlotRevoke a v) s = .next t ∧ t.on Reg.SEA_OWN_CTRL_BUSY = true ∧ t.sea.fuse = some ⟨v.toNat % 4, 1, false, []⟩) ∧
  (∀ (a : Access) (v : Word) (s : State) (k : Nat) (rest : List Nat), accepts s a Reg.SEA_VREV true → s.running = true →
    s.on Reg.SEA_OWN_CTRL_BUSY = false → bitsOf 2 v.toNat = k :: rest → (s.sea.folioLoaded = true → s.sea.vkey ≠ k) →
    (s.f Reg.SEA_STAT_VREV).testBit (1 - k) = false →
      ∃ t, exec (.vendorRootRevoke a v) s = .next t ∧ t.sea.fuse = some ⟨k, 2, false, []⟩) ∧
  (∀ (slot : Fin 4) (hash : List Word) (s : State), s.sys.v3p3Low = false →
    (unowned s = true → s.on Reg.SEA_OWN_CTRL_BUSY = false → slotUsed s slot = false →
      ∃ t, exec (.commission slot hash) s = .next t ∧ t.sea.fuse = some ⟨slot.val, 0, true, (List.range 8).map (fun w => hash.getD w 0)⟩ ∧
        t.dbg.ir = some 0x3C) ∧
    (unowned s = false → exec (.commission slot hash) s = .next (s.setDbg { s.dbg with ir := some 0xFF, dr := 0 }))) ∧
  (∀ (s : State) (f : SealFuse), s.sea.fuse = some f →
    (∃ t, exec (.fuseWriteDone false) s = .next t ∧ t.sea.fuse = none ∧ t.f Reg.SEA_OWN_CTRL_RESULT = 5 ∧ t.on Reg.SEA_OWN_CTRL_BUSY = false) ∧
    (f.slot < 4 → ∃ t, exec (.fuseWriteDone true) s = .next t ∧ t.sea.fuse = none ∧ t.f Reg.SEA_OWN_CTRL_RESULT = 2 ∧ t.on Reg.SEA_OWN_CTRL_BUSY = false ∧
      (f.op = 0 → (t.f Reg.SEA_STAT_OWN_WR).testBit f.slot = true ∧
        ∀ w < 8, t.word (Reg.SEA_OWN_HASH f.slot w) = f.hash.getD w 0) ∧
      (f.op = 1 → (t.f Reg.SEA_STAT_OWN_REV).testBit f.slot = true) ∧
      (f.op = 2 → f.slot < 2 → (t.f Reg.SEA_STAT_VREV).testBit f.slot = true)))

/-- R495, R498, R502: a repair enters MEM_REPk; a sweep begins and ends with its command; a fuse commit takes the repairs it names,
and each burn moves one into the next free fuse entry, or leaves that entry BAD and ends the commit. -/
def Obligations.MemoryCommandsComplete : Prop :=
  (∀ (s : State) (r : Repair) (rest : List Repair) (k : Nat), s.mem.repairing = r :: rest →
    (List.range 64).find? (fun k => !s.on (Reg.MEM_REP_VALID k)) = some k →
      ∃ t, exec .softRepairDone s = .next t ∧ t.mem.repairing = rest ∧ t.on (Reg.MEM_REP_VALID k) = true ∧
        t.f (Reg.MEM_REP_BANK k) = r.bank % 4096 ∧ t.f (Reg.MEM_REP_ROW k) = r.row % 1024 ∧ t.f (Reg.MEM_REP_SPARE k) = r.spare % 8) ∧
  (∀ (n : Fin 16) (s : State) (c : Cmd), ready s n 0x60 c → s.level n ≠ 2 → c.arg 0 4 ≠ 0 → c.arg 0 4 ||| regionMask = regionMask →
    c.zero 4 32 = true → s.running = true → s.mem.sweep = none →
      ∃ t, exec (.memSweep n) s = .next t ∧ t.mem.sweep = some (n.val, c.sqHead, c.arg 0 4) ∧ t.on Reg.MEM_STAT_SWEEP = true) ∧
  (∀ (found : List Ecc) (s : State) (p : Nat × Nat × Nat), s.mem.sweep = some p → s.running = true →
    ∃ t, exec (.memSweepDone found) s = .next t ∧ t.mem.sweep = none ∧ t.on Reg.MEM_STAT_SWEEP = false) ∧
  (∀ (n : Fin 16) (s : State) (c : Cmd), ready s n 0x61 c → s.level n = 0 → c.arg 0 1 ≤ 63 ∨ c.arg 0 1 = 255 → c.zero 1 32 = true →
    namedRepairs s (c.arg 0 1) ≠ [] → s.running = true → s.mem.fuse = none → s.sea.fuse = none →
    (namedRepairs s (c.arg 0 1)).length ≤ (freeFuses s).length →
      ∃ t, exec (.fuseCommit n) s = .next t ∧ t.mem.fuse = some ⟨n.val, c.sqHead, namedRepairs s (c.arg 0 1)⟩ ∧
        t.on Reg.MEM_STAT_FUSE_BUSY = true) ∧
  (∀ (s : State) (n head k : Nat) (rest : List Nat) (e : Nat) (es : List Nat), s.mem.fuse = some ⟨n, head, k :: rest⟩ → k < 64 →
    freeFuses s = e :: es →
      (∃ t, exec (.fuseBurnDone true) s = .next t ∧ t.mem.fuse = (if rest = [] then none else some ⟨n, head, rest⟩) ∧
        t.on (Reg.MEM_FUSE_USED e) = true ∧ t.on (Reg.MEM_FUSE_BAD e) = false ∧ t.f (Reg.MEM_FUSE_BANK e) = s.f (Reg.MEM_REP_BANK k) ∧
        t.f (Reg.MEM_FUSE_ROW e) = s.f (Reg.MEM_REP_ROW k) ∧ t.f (Reg.MEM_FUSE_SPARE e) = s.f (Reg.MEM_REP_SPARE k) ∧
        t.on (Reg.MEM_REP_VALID k) = false) ∧
      (∃ t, exec (.fuseBurnDone false) s = .next t ∧ t.mem.fuse = none ∧ t.on (Reg.MEM_FUSE_USED e) = true ∧
        t.on (Reg.MEM_FUSE_BAD e) = true ∧ t.on Reg.MEM_STAT_FUSE_BUSY = false))

/-- R515, R517, R519, R522: a rail outside its limits shows, a lost rail of PWRGD takes PWRGD low at once and a lost analogue rail stops
the front end; it comes back after its time, PWRGD only with V3P3 in its limits; the temperature shows (only these two commands bring
one: log entry 67).

R527, R532, R533: a P0 session takes and returns the grant; a self-check with Stroke and every engine moving moves HEALTH where its conditions
hold and stops it where one fails. -/
def Obligations.PackageAndHealthComplete : Prop :=
  (∀ (mask : BitVec 8) (s : State), mask.toNat &&& railsOk s ≠ 0 →
    ∃ t, exec (.railFault mask) s = .next t ∧ railsOk t = railsOk s - (mask.toNat &&& railsOk s) ∧
      (mask.toNat &&& railsOk s &&& pwrgdRails ≠ 0 → t.pkg.pwrgd = false ∧ t.pkg.goodAt = none) ∧
      (mask.toNat &&& railsOk s &&& analogueRails ≠ 0 → t.afe.stopped = true ∧ t.pkg.anaAt = none)) ∧
  (∀ (mask : BitVec 8) (s : State), mask.toNat &&& (0xFF - railsOk s) ≠ 0 →
    ∃ t, exec (.railRestored mask) s = .next t ∧ railsOk t = railsOk s + (mask.toNat &&& (0xFF - railsOk s)) ∧
      (railsOk t &&& pwrgdRails = pwrgdRails → s.pkg.goodAt = none → s.sys.v3p3Low = false → t.pkg.goodAt = some (s.ltc : Int)) ∧
      (railsOk t &&& analogueRails = analogueRails → s.pkg.anaAt = none → t.pkg.anaAt = some (s.ltc : Int))) ∧
  (∀ (s : State) (u : Int), s.pkg.anaAt = some u → s.afe.stopped = true → u + 10000000 ≤ s.ltc →
    ∃ t, exec .analogueResume s = .next t ∧ t.afe.stopped = false) ∧
  (∀ (s : State) (u : Int), s.pkg.goodAt = some u → u + 100000 ≤ s.ltc → s.sys.v3p3Low = false →
    exec .pwrgdRelease s = .next (s.setPkg { s.pkg with pwrgd := true })) ∧
  (∀ (tj : Int) (s : State),
    (∃ t, exec (.tjHigh tj) s = .next t ∧ t.f Reg.SYS_RAILS_TJ = tc 8 tj ∧ (105 < tj → t.pkg.tjHigh = true)) ∧
    (∃ t, exec (.tjNormal tj) s = .next t ∧ t.f Reg.SYS_RAILS_TJ = tc 8 tj ∧ (tj < 100 → t.pkg.tjHigh = false))) ∧
  (∀ (n : Fin 16) (v : Word) (s : State), s.running = true →
    ∃ t, exec (.grantWrite (.cmd n 0) v) s = .next t ∧ t.on Reg.DBG_GRANT_GRANT = v.toNat.testBit 0 ∧
      (v.toNat.testBit 0 = true → t.f Reg.DBG_GRANT_SESS = n.val)) ∧
  (∀ s : State, s.sysState ≠ 0 → s.dbg.checkAt < s.ltc → (List.range 16).all (engineMoves s) = true → strokeMoves s = true →
    ∃ t, exec .selfCheck s = .next t ∧ t.dbg.checkAt = s.ltc ∧ t.f Reg.DBG_HEALTH_CAUSE = healthCause s ∧
      t.on Reg.DBG_HEALTH_TOGGLING = decide (healthCause s = 0) ∧
      t.dbg.health = if healthCause s = 0 then !s.dbg.health else false)

/-- R522, R528, R529, R530: the instructions of the JTAG port, whole: those that a state does not accept act as BYPASS, and with V3P3
below its limit the port does nothing. SAMPLE takes the levels of the lands; the order of the cells in the chain stands outside the spec,
and the cell of a land whose level the state does not hold gets a free value (log entries 1 and 67). -/
def Obligations.JtagInstructionsResult : Prop :=
  ∀ s : State,
    (s.sys.v3p3Low = true → ∀ i ∈ [Instr.extest, .idcode, .samplePreload, .clamp, .highz, .extestPulse, .extestTrain, .bypass],
      exec i s = .next s) ∧
    (s.sys.v3p3Low = false →
      (∀ p ∈ [(Instr.extest, 0x00), (.clamp, 0x04), (.highz, 0x05), (.extestPulse, 0x0A), (.extestTrain, 0x0B)],
        exec p.1 s = .next (s.setDbg (if s.sysState = 0 then { s.dbg with ir := some p.2 }
          else { s.dbg with ir := some 0xFF, dr := 0 }))) ∧
      exec .idcode s = .next (s.setDbg { s.dbg with ir := some 0x01, dr := BitVec.ofNat 32 ((s.f Reg.SYS_ID_STEP + 191) % 16 * 2 ^ 28 +
        s.f Reg.SYS_ID_PART * 2 ^ 12 + 0x2E7 * 2 + 1) }) ∧
      exec .bypass s = .next (s.setDbg { s.dbg with ir := some 0xFF, dr := 0 }) ∧
      exec .samplePreload s = .next ({ s with freeCtr := s.freeCtr + 214 }.setDbg
        { s.dbg with ir := some 0x02, cells := (((List.range 214).map (fun i => Config.freeByte (s.freeCtr + i))).zip (cellLevels s)).map (fun (p : Byte × Option Bool) => p.2.getD (p.1.getLsbD 0)) }))

/-- R529: what IDCODE puts in the data register, field by field; SYS_ID shows the stepping as a letter. -/
def Obligations.IdcodeReturnsTheSteppingAndPart : Prop :=
  ∀ s : State, s.sys.v3p3Low = false → 0x41 ≤ s.f Reg.SYS_ID_STEP → s.f Reg.SYS_ID_STEP < 0x51 →
    ∃ t, exec .idcode s = .next t ∧ (t.dbg.dr.extractLsb' 28 4).toNat = s.f Reg.SYS_ID_STEP - 0x41 ∧
      (t.dbg.dr.extractLsb' 12 16).toNat = s.f Reg.SYS_ID_PART ∧ (t.dbg.dr.extractLsb' 1 11).toNat = 0x2E7 ∧
      t.dbg.dr.getLsbD 0 = true
end

