-- ==== Sys2Proof/Laws/Within.lean ====
section
/-! SUPPORT. What an operation can change: `Within cs s0 s` says that `s` differs from `s0` in the components `cs` at most,
and that the memories and the register file keep their canonical form. The lemmas of the units under this folder say it
once for every operation. -/

namespace Sys2Proof.Machine

set_option Elab.async false

theorem Comp.same_refl (s : State) (c : Comp) : Comp.same s s c := by cases c <;> rfl

theorem Comp.same_trans {s t u : State} {c : Comp} (h : Comp.same s t c) (k : Comp.same t u c) : Comp.same s u c := by
  cases c <;> exact Eq.trans k h

/-- `s` differs from `s0` in the components `cs` at most, and keeps the canonical forms. -/
structure Within (cs : List Comp) (s0 s : State) : Prop where
  same : ∀ c, c ∈ cs ∨ Comp.same s0 s c
  formed : s0.formed → s.formed

theorem Within.refl {cs : List Comp} (s : State) : Within cs s s := ⟨fun c => .inr (Comp.same_refl s c), id⟩

theorem Within.trans {cs : List Comp} {s t u : State} (h : Within cs s t) (k : Within cs t u) : Within cs s u where
  same c := (h.same c).elim .inl fun a => (k.same c).elim .inl fun b => .inr (Comp.same_trans a b)
  formed f := k.formed (h.formed f)

theorem Within.mono {cs ds : List Comp} {s t : State} (h : Within cs s t) (k : cs ⊆ ds := by decide) : Within ds s t :=
  ⟨fun c => (h.same c).imp (fun m => k m) id, h.formed⟩

theorem Within.pending {cs : List Comp} {s t : State} (h : Within cs s t) (k : Comp.pending ∉ cs := by decide) :
    t.pending = s.pending := (h.same .pending).elim (fun m => absurd m k) id

theorem Within.freeCtr {cs : List Comp} {s t : State} (h : Within cs s t) (k : Comp.freeCtr ∉ cs := by decide) :
    t.freeCtr = s.freeCtr := (h.same .freeCtr).elim (fun m => absurd m k) id

theorem Within.regs {cs : List Comp} {s t : State} (h : Within cs s t) (k : Comp.regs ∉ cs := by decide) :
    t.regs = s.regs := (h.same .regs).elim (fun m => absurd m k) id

theorem Within.clk {cs : List Comp} {s t : State} (h : Within cs s t) (k : Comp.clk ∉ cs := by decide) :
    t.rul.clk = s.rul.clk := (h.same .clk).elim (fun m => absurd m k) id

theorem Within.dom {cs : List Comp} {s t : State} (h : Within cs s t) (k : Comp.dom ∉ cs := by decide) :
    t.rul.dom = s.rul.dom := (h.same .dom).elim (fun m => absurd m k) id

theorem Within.ptp {cs : List Comp} {s t : State} (h : Within cs s t) (k : Comp.ptp ∉ cs := by decide) :
    t.rul.ptp = s.rul.ptp := (h.same .ptp).elim (fun m => absurd m k) id

theorem Within.ptpIn {cs : List Comp} {s t : State} (h : Within cs s t) (k : Comp.ptpIn ∉ cs := by decide) :
    t.rul.ptpIn = s.rul.ptpIn := (h.same .ptpIn).elim (fun m => absurd m k) id

theorem Within.offers {cs : List Comp} {s t : State} (h : Within cs s t) (k : Comp.offers ∉ cs := by decide) :
    t.scr.offers = s.scr.offers := (h.same .offers).elim (fun m => absurd m k) id

theorem Within.freeze {cs : List Comp} {s t : State} (h : Within cs s t) (k : Comp.freeze ∉ cs := by decide) :
    t.scr.freeze = s.scr.freeze := (h.same .freeze).elim (fun m => absurd m k) id

theorem Within.scr {cs : List Comp} {s t : State} (h : Within cs s t) (k : Comp.scr ∉ cs := by decide) :
    Comp.same s t .scr := (h.same .scr).elim (fun m => absurd m k) id

theorem Within.sess {cs : List Comp} {s t : State} (h : Within cs s t) (k : Comp.sess ∉ cs := by decide) :
    t.hst.sess = s.hst.sess := (h.same .sess).elim (fun m => absurd m k) id

theorem Within.inkwell {cs : List Comp} {s t : State} (h : Within cs s t) (k : Comp.inkwell ∉ cs := by decide) :
    t.hst.inkwell = s.hst.inkwell := (h.same .inkwell).elim (fun m => absurd m k) id

theorem Within.dram {cs : List Comp} {s t : State} (h : Within cs s t) (k : Comp.dram ∉ cs := by decide) :
    t.hst.dram = s.hst.dram := (h.same .dram).elim (fun m => absurd m k) id

theorem Within.msix {cs : List Comp} {s t : State} (h : Within cs s t) (k : Comp.msix ∉ cs := by decide) :
    t.hst.msix = s.hst.msix := (h.same .msix).elim (fun m => absurd m k) id

theorem Within.hst {cs : List Comp} {s t : State} (h : Within cs s t) (k : Comp.hst ∉ cs := by decide) :
    Comp.same s t .hst := (h.same .hst).elim (fun m => absurd m k) id

theorem Within.port {cs : List Comp} {s t : State} (h : Within cs s t) (k : Comp.port ∉ cs := by decide) :
    t.pbi.port = s.pbi.port := (h.same .port).elim (fun m => absurd m k) id

theorem Within.pair {cs : List Comp} {s t : State} (h : Within cs s t) (k : Comp.pair ∉ cs := by decide) :
    t.pbi.pair = s.pbi.pair := (h.same .pair).elim (fun m => absurd m k) id

theorem Within.sc {cs : List Comp} {s t : State} (h : Within cs s t) (k : Comp.sc ∉ cs := by decide) :
    t.pbi.sc = s.pbi.sc := (h.same .sc).elim (fun m => absurd m k) id

theorem Within.gs {cs : List Comp} {s t : State} (h : Within cs s t) (k : Comp.gs ∉ cs := by decide) :
    t.pbi.gs = s.pbi.gs := (h.same .gs).elim (fun m => absurd m k) id

theorem Within.svq {cs : List Comp} {s t : State} (h : Within cs s t) (k : Comp.svq ∉ cs := by decide) :
    t.pbi.svq = s.pbi.svq := (h.same .svq).elim (fun m => absurd m k) id

theorem Within.gq {cs : List Comp} {s t : State} (h : Within cs s t) (k : Comp.gq ∉ cs := by decide) :
    t.pbi.gq = s.pbi.gq := (h.same .gq).elim (fun m => absurd m k) id

theorem Within.pbi {cs : List Comp} {s t : State} (h : Within cs s t) (k : Comp.pbi ∉ cs := by decide) :
    Comp.same s t .pbi := (h.same .pbi).elim (fun m => absurd m k) id

theorem Within.recs {cs : List Comp} {s t : State} (h : Within cs s t) (k : Comp.recs ∉ cs := by decide) :
    t.vel.recs = s.vel.recs := (h.same .recs).elim (fun m => absurd m k) id

theorem Within.exporting {cs : List Comp} {s t : State} (h : Within cs s t) (k : Comp.exporting ∉ cs := by decide) :
    t.vel.exporting = s.vel.exporting := (h.same .exporting).elim (fun m => absurd m k) id

theorem Within.vel {cs : List Comp} {s t : State} (h : Within cs s t) (k : Comp.vel ∉ cs := by decide) :
    Comp.same s t .vel := (h.same .vel).elim (fun m => absurd m k) id

theorem Within.sweep {cs : List Comp} {s t : State} (h : Within cs s t) (k : Comp.sweep ∉ cs := by decide) :
    t.mem.sweep = s.mem.sweep := (h.same .sweep).elim (fun m => absurd m k) id

theorem Within.fuse {cs : List Comp} {s t : State} (h : Within cs s t) (k : Comp.fuse ∉ cs := by decide) :
    t.mem.fuse = s.mem.fuse := (h.same .fuse).elim (fun m => absurd m k) id

theorem Within.mem {cs : List Comp} {s t : State} (h : Within cs s t) (k : Comp.mem ∉ cs := by decide) :
    Comp.same s t .mem := (h.same .mem).elim (fun m => absurd m k) id

theorem Within.cv {cs : List Comp} {s t : State} (h : Within cs s t) (k : Comp.cv ∉ cs := by decide) :
    t.afe.cv = s.afe.cv := (h.same .cv).elim (fun m => absurd m k) id

theorem Within.wd {cs : List Comp} {s t : State} (h : Within cs s t) (k : Comp.wd ∉ cs := by decide) :
    t.afe.wd = s.afe.wd := (h.same .wd).elim (fun m => absurd m k) id

theorem Within.afe {cs : List Comp} {s t : State} (h : Within cs s t) (k : Comp.afe ∉ cs := by decide) :
    Comp.same s t .afe := (h.same .afe).elim (fun m => absurd m k) id

theorem Within.eng {cs : List Comp} {s t : State} (h : Within cs s t) (k : Comp.eng ∉ cs := by decide) :
    t.nib.eng = s.nib.eng := (h.same .eng).elim (fun m => absurd m k) id

theorem Within.nc {cs : List Comp} {s t : State} (h : Within cs s t) (k : Comp.nc ∉ cs := by decide) :
    t.nib.nc = s.nib.nc := (h.same .nc).elim (fun m => absurd m k) id

theorem Within.live {cs : List Comp} {s t : State} (h : Within cs s t) (k : Comp.live ∉ cs := by decide) :
    t.nib.live = s.nib.live := (h.same .live).elim (fun m => absurd m k) id

theorem Within.stamps {cs : List Comp} {s t : State} (h : Within cs s t) (k : Comp.stamps ∉ cs := by decide) :
    t.nib.stamps = s.nib.stamps := (h.same .stamps).elim (fun m => absurd m k) id

theorem Within.toStroke {cs : List Comp} {s t : State} (h : Within cs s t) (k : Comp.toStroke ∉ cs := by decide) :
    t.nib.toStroke = s.nib.toStroke := (h.same .toStroke).elim (fun m => absurd m k) id

theorem Within.ctxHa {cs : List Comp} {s t : State} (h : Within cs s t) (k : Comp.ctxHa ∉ cs := by decide) :
    t.nib.ctxHa = s.nib.ctxHa := (h.same .ctxHa).elim (fun m => absurd m k) id

theorem Within.so {cs : List Comp} {s t : State} (h : Within cs s t) (k : Comp.so ∉ cs := by decide) :
    t.stk.so = s.stk.so := (h.same .so).elim (fun m => absurd m k) id

theorem Within.logicQ {cs : List Comp} {s t : State} (h : Within cs s t) (k : Comp.logicQ ∉ cs := by decide) :
    t.stk.logicQ = s.stk.logicQ := (h.same .logicQ).elim (fun m => absurd m k) (congrArg Prod.fst)

theorem Within.vec {cs : List Comp} {s t : State} (h : Within cs s t) (k : Comp.vec ∉ cs := by decide) :
    t.stk.vec = s.stk.vec := (h.same .vec).elim (fun m => absurd m k) id

theorem Within.pub {cs : List Comp} {s t : State} (h : Within cs s t) (k : Comp.pub ∉ cs := by decide) :
    Comp.same s t .pub := (h.same .pub).elim (fun m => absurd m k) id

theorem Within.stk {cs : List Comp} {s t : State} (h : Within cs s t) (k : Comp.stk ∉ cs := by decide) :
    Comp.same s t .stk := (h.same .stk).elim (fun m => absurd m k) id

theorem Within.dl {cs : List Comp} {s t : State} (h : Within cs s t) (k : Comp.dl ∉ cs := by decide) :
    t.duc.dl = s.duc.dl := (h.same .dl).elim (fun m => absurd m k) id

theorem Within.gp {cs : List Comp} {s t : State} (h : Within cs s t) (k : Comp.gp ∉ cs := by decide) :
    t.duc.gp = s.duc.gp := (h.same .gp).elim (fun m => absurd m k) id

theorem Within.duc {cs : List Comp} {s t : State} (h : Within cs s t) (k : Comp.duc ∉ cs := by decide) :
    Comp.same s t .duc := (h.same .duc).elim (fun m => absurd m k) id

theorem Within.run {cs : List Comp} {s t : State} (h : Within cs s t) (k : Comp.run ∉ cs := by decide) :
    t.qil.run = s.qil.run := (h.same .run).elim (fun m => absurd m k) id

theorem Within.load {cs : List Comp} {s t : State} (h : Within cs s t) (k : Comp.load ∉ cs := by decide) :
    t.qil.load = s.qil.load := (h.same .load).elim (fun m => absurd m k) id

theorem Within.sw {cs : List Comp} {s t : State} (h : Within cs s t) (k : Comp.sw ∉ cs := by decide) :
    t.qil.sw = s.qil.sw := (h.same .sw).elim (fun m => absurd m k) id

theorem Within.force {cs : List Comp} {s t : State} (h : Within cs s t) (k : Comp.force ∉ cs := by decide) :
    t.qil.force = s.qil.force := (h.same .force).elim (fun m => absurd m k) id

theorem Within.qil {cs : List Comp} {s t : State} (h : Within cs s t) (k : Comp.qil ∉ cs := by decide) :
    Comp.same s t .qil := (h.same .qil).elim (fun m => absurd m k) id

theorem Within.fc {cs : List Comp} {s t : State} (h : Within cs s t) (k : Comp.fc ∉ cs := by decide) :
    t.fio.fc = s.fio.fc := (h.same .fc).elim (fun m => absurd m k) id

theorem Within.grp {cs : List Comp} {s t : State} (h : Within cs s t) (k : Comp.grp ∉ cs := by decide) :
    t.fio.grp = s.fio.grp := (h.same .grp).elim (fun m => absurd m k) id

theorem Within.jobs {cs : List Comp} {s t : State} (h : Within cs s t) (k : Comp.jobs ∉ cs := by decide) :
    t.sea.jobs = s.sea.jobs := (h.same .jobs).elim (fun m => absurd m k) id

theorem Within.burn {cs : List Comp} {s t : State} (h : Within cs s t) (k : Comp.burn ∉ cs := by decide) :
    t.sea.fuse = s.sea.fuse := (h.same .burn).elim (fun m => absurd m k) id

theorem Within.sea {cs : List Comp} {s t : State} (h : Within cs s t) (k : Comp.sea ∉ cs := by decide) :
    Comp.same s t .sea := (h.same .sea).elim (fun m => absurd m k) id

theorem Within.pkg {cs : List Comp} {s t : State} (h : Within cs s t) (k : Comp.pkg ∉ cs := by decide) :
    t.pkg = s.pkg := (h.same .pkg).elim (fun m => absurd m k) id

theorem Within.dbg {cs : List Comp} {s t : State} (h : Within cs s t) (k : Comp.dbg ∉ cs := by decide) :
    t.dbg = s.dbg := (h.same .dbg).elim (fun m => absurd m k) id

theorem Within.modePend {cs : List Comp} {s t : State} (h : Within cs s t) (k : Comp.modePend ∉ cs := by decide) :
    t.sys.modePend = s.sys.modePend := (h.same .modePend).elim (fun m => absurd m k) id

theorem Within.staged {cs : List Comp} {s t : State} (h : Within cs s t) (k : Comp.staged ∉ cs := by decide) :
    t.sys.staged = s.sys.staged := (h.same .staged).elim (fun m => absurd m k) id

theorem Within.committing {cs : List Comp} {s t : State} (h : Within cs s t) (k : Comp.committing ∉ cs := by decide) :
    t.sys.committing = s.sys.committing := (h.same .committing).elim (fun m => absurd m k) id

theorem Within.commit {cs : List Comp} {s t : State} (h : Within cs s t) (k : Comp.commit ∉ cs := by decide) :
    t.sys.commit = s.sys.commit := (h.same .commit).elim (fun m => absurd m k) id

theorem Within.startDue {cs : List Comp} {s t : State} (h : Within cs s t) (k : Comp.startDue ∉ cs := by decide) :
    t.sys.startDue = s.sys.startDue := (h.same .startDue).elim (fun m => absurd m k) id

theorem Within.sys {cs : List Comp} {s t : State} (h : Within cs s t) (k : Comp.sys ∉ cs := by decide) :
    Comp.same s t .sys := (h.same .sys).elim (fun m => absurd m k) id

/-- What a command within `cs` leaves alone. -/
theorem Within.onlyChanges {cs : List Comp} {s t : State} (h : Within cs s t) : onlyChanges cs s t :=
  fun c m => (h.same c).elim (fun k => absurd k m) id

/-- A record update of the components `cs`. -/
theorem Within.upd {cs : List Comp} {s0 s t : State} (h : Within cs s0 s) (k : ∀ c, c ∈ cs ∨ Comp.same s t c)
    (f : s.formed → t.formed) : Within cs s0 t := h.trans ⟨k, f⟩

theorem Within.foldl {α : Type} {cs : List Comp} {s0 : State} {f : State → α → State} {l : List α} {s : State}
    (h : Within cs s0 s) (k : ∀ t a, Within cs s0 t → Within cs s0 (f t a)) : Within cs s0 (l.foldl f s) := by
  induction l generalizing s with
  | nil => exact h
  | cons a l ih => exact ih (k s a h)

theorem Within.foldl1 {α β : Type} {cs : List Comp} {s0 : State} {f : State × β → α → State × β} {l : List α} {p : State × β}
    (h : Within cs s0 p.1) (k : ∀ t a, Within cs s0 t.1 → Within cs s0 (f t a).1) : Within cs s0 (l.foldl f p).1 := by
  induction l generalizing p with
  | nil => exact h
  | cons a l ih => exact ih (k p a h)

theorem Within.ite {p : Prop} [Decidable p] {cs : List Comp} {s0 a b : State} (ha : Within cs s0 a) (hb : Within cs s0 b) :
    Within cs s0 (if p then a else b) := by split <;> assumption

theorem Within.iteS {p : Prop} [Decidable p] {cs : List Comp} {s0 : State} {a b : CmdOut} (ha : Within cs s0 a.s)
    (hb : Within cs s0 b.s) : Within cs s0 (if p then a else b).s := by split <;> assumption

theorem Within.ite1 {β : Type} {p : Prop} [Decidable p] {cs : List Comp} {s0 : State} {a b : State × β} (ha : Within cs s0 a.1)
    (hb : Within cs s0 b.1) : Within cs s0 (if p then a else b).1 := by split <;> assumption

theorem Within.ite2 {β : Type} {p : Prop} [Decidable p] {cs : List Comp} {s0 : State} {a b : β × State} (ha : Within cs s0 a.2)
    (hb : Within cs s0 b.2) : Within cs s0 (if p then a else b).2 := by split <;> assumption

/-- Lists of components inside lists of components. -/
theorem sub {a b c : List Comp} (hb : b ⊆ c) (ha : a ⊆ b := by decide) : a ⊆ c := fun _ m => hb (ha m)

end Sys2Proof.Machine
end

