-- ==== Sys2Proof/Laws/Puts.lean ====
section
/-! SUPPORT. Updates of one unit: the components they touch. -/

namespace Sys2Proof.Machine

set_option Elab.async false

theorem Within.put_afe_asm {cs s0} {s : State} {x0} (hc : [.afe] ⊆ cs) (hs : Within cs s0 s) :
    Within cs s0 { s with afe := { s.afe with asm := x0 } } :=
  Within.upd hs (fun c => by cases c <;> first | exact .inl (hc (by decide)) | exact .inr rfl) (fun h => ⟨h.1, h.2.1, h.2.2⟩)

theorem Within.put_afe_asm_asmAt {cs s0} {s : State} {x0 x1} (hc : [.afe] ⊆ cs) (hs : Within cs s0 s) :
    Within cs s0 { s with afe := { s.afe with asm := x0, asmAt := x1 } } :=
  Within.upd hs (fun c => by cases c <;> first | exact .inl (hc (by decide)) | exact .inr rfl) (fun h => ⟨h.1, h.2.1, h.2.2⟩)

theorem Within.put_afe_asm_convQ {cs s0} {s : State} {x0 x1} (hc : [.afe] ⊆ cs) (hs : Within cs s0 s) :
    Within cs s0 { s with afe := { s.afe with asm := x0, convQ := x1 } } :=
  Within.upd hs (fun c => by cases c <;> first | exact .inl (hc (by decide)) | exact .inr rfl) (fun h => ⟨h.1, h.2.1, h.2.2⟩)

theorem Within.put_afe_asm_convQ_map {cs s0} {s : State} {x0 x1 x2} (hc : [.afe] ⊆ cs) (hs : Within cs s0 s) :
    Within cs s0 { s with afe := { s.afe with asm := x0, convQ := x1, map := x2 } } :=
  Within.upd hs (fun c => by cases c <;> first | exact .inl (hc (by decide)) | exact .inr rfl) (fun h => ⟨h.1, h.2.1, h.2.2⟩)

theorem Within.put_afe_convQ {cs s0} {s : State} {x0} (hc : [.afe] ⊆ cs) (hs : Within cs s0 s) :
    Within cs s0 { s with afe := { s.afe with convQ := x0 } } :=
  Within.upd hs (fun c => by cases c <;> first | exact .inl (hc (by decide)) | exact .inr rfl) (fun h => ⟨h.1, h.2.1, h.2.2⟩)

theorem Within.put_afe_crossed {cs s0} {s : State} {x0} (hc : [.afe] ⊆ cs) (hs : Within cs s0 s) :
    Within cs s0 { s with afe := { s.afe with crossed := x0 } } :=
  Within.upd hs (fun c => by cases c <;> first | exact .inl (hc (by decide)) | exact .inr rfl) (fun h => ⟨h.1, h.2.1, h.2.2⟩)

theorem Within.put_afe_cv {cs s0} {s : State} {x0} (hc : [.cv] ⊆ cs) (hs : Within cs s0 s) :
    Within cs s0 { s with afe := { s.afe with cv := x0 } } :=
  Within.upd hs (fun c => by cases c <;> first | exact .inl (hc (by decide)) | exact .inr rfl) (fun h => ⟨h.1, h.2.1, h.2.2⟩)

theorem Within.put_afe_map {cs s0} {s : State} {x0} (hc : [.afe] ⊆ cs) (hs : Within cs s0 s) :
    Within cs s0 { s with afe := { s.afe with map := x0 } } :=
  Within.upd hs (fun c => by cases c <;> first | exact .inl (hc (by decide)) | exact .inr rfl) (fun h => ⟨h.1, h.2.1, h.2.2⟩)

theorem Within.put_afe_stopped {cs s0} {s : State} {x0} (hc : [.afe] ⊆ cs) (hs : Within cs s0 s) :
    Within cs s0 { s with afe := { s.afe with stopped := x0 } } :=
  Within.upd hs (fun c => by cases c <;> first | exact .inl (hc (by decide)) | exact .inr rfl) (fun h => ⟨h.1, h.2.1, h.2.2⟩)

theorem Within.put_afe_wd {cs s0} {s : State} {x0} (hc : [.wd] ⊆ cs) (hs : Within cs s0 s) :
    Within cs s0 { s with afe := { s.afe with wd := x0 } } :=
  Within.upd hs (fun c => by cases c <;> first | exact .inl (hc (by decide)) | exact .inr rfl) (fun h => ⟨h.1, h.2.1, h.2.2⟩)

theorem Within.put_dbg_cells {cs s0} {s : State} {x0} (hc : [.dbg] ⊆ cs) (hs : Within cs s0 s) :
    Within cs s0 { s with dbg := { s.dbg with cells := x0 } } :=
  Within.upd hs (fun c => by cases c <;> first | exact .inl (hc (by decide)) | exact .inr rfl) (fun h => ⟨h.1, h.2.1, h.2.2⟩)

theorem Within.put_dbg_checkAt {cs s0} {s : State} {x0} (hc : [.dbg] ⊆ cs) (hs : Within cs s0 s) :
    Within cs s0 { s with dbg := { s.dbg with checkAt := x0 } } :=
  Within.upd hs (fun c => by cases c <;> first | exact .inl (hc (by decide)) | exact .inr rfl) (fun h => ⟨h.1, h.2.1, h.2.2⟩)

theorem Within.put_dbg_dr {cs s0} {s : State} {x0} (hc : [.dbg] ⊆ cs) (hs : Within cs s0 s) :
    Within cs s0 { s with dbg := { s.dbg with dr := x0 } } :=
  Within.upd hs (fun c => by cases c <;> first | exact .inl (hc (by decide)) | exact .inr rfl) (fun h => ⟨h.1, h.2.1, h.2.2⟩)

theorem Within.put_dbg_health {cs s0} {s : State} {x0} (hc : [.dbg] ⊆ cs) (hs : Within cs s0 s) :
    Within cs s0 { s with dbg := { s.dbg with health := x0 } } :=
  Within.upd hs (fun c => by cases c <;> first | exact .inl (hc (by decide)) | exact .inr rfl) (fun h => ⟨h.1, h.2.1, h.2.2⟩)

theorem Within.put_dbg_ir {cs s0} {s : State} {x0} (hc : [.dbg] ⊆ cs) (hs : Within cs s0 s) :
    Within cs s0 { s with dbg := { s.dbg with ir := x0 } } :=
  Within.upd hs (fun c => by cases c <;> first | exact .inl (hc (by decide)) | exact .inr rfl) (fun h => ⟨h.1, h.2.1, h.2.2⟩)

theorem Within.put_dbg_ir_dr {cs s0} {s : State} {x0 x1} (hc : [.dbg] ⊆ cs) (hs : Within cs s0 s) :
    Within cs s0 { s with dbg := { s.dbg with ir := x0, dr := x1 } } :=
  Within.upd hs (fun c => by cases c <;> first | exact .inl (hc (by decide)) | exact .inr rfl) (fun h => ⟨h.1, h.2.1, h.2.2⟩)

theorem Within.put_dbg_lands {cs s0} {s : State} {x0} (hc : [.dbg] ⊆ cs) (hs : Within cs s0 s) :
    Within cs s0 { s with dbg := { s.dbg with lands := x0 } } :=
  Within.upd hs (fun c => by cases c <;> first | exact .inl (hc (by decide)) | exact .inr rfl) (fun h => ⟨h.1, h.2.1, h.2.2⟩)

theorem Within.put_dbg_stopped {cs s0} {s : State} {x0} (hc : [.dbg] ⊆ cs) (hs : Within cs s0 s) :
    Within cs s0 { s with dbg := { s.dbg with stopped := x0 } } :=
  Within.upd hs (fun c => by cases c <;> first | exact .inl (hc (by decide)) | exact .inr rfl) (fun h => ⟨h.1, h.2.1, h.2.2⟩)

theorem Within.put_duc_dl {cs s0} {s : State} {x0} (hc : [.dl] ⊆ cs) (hs : Within cs s0 s) :
    Within cs s0 { s with duc := { s.duc with dl := x0 } } :=
  Within.upd hs (fun c => by cases c <;> first | exact .inl (hc (by decide)) | exact .inr rfl) (fun h => ⟨h.1, h.2.1, h.2.2⟩)

theorem Within.put_duc_gp {cs s0} {s : State} {x0} (hc : [.gp] ⊆ cs) (hs : Within cs s0 s) :
    Within cs s0 { s with duc := { s.duc with gp := x0 } } :=
  Within.upd hs (fun c => by cases c <;> first | exact .inl (hc (by decide)) | exact .inr rfl) (fun h => ⟨h.1, h.2.1, h.2.2⟩)

theorem Within.put_fio_fc {cs s0} {s : State} {x0} (hc : [.fc] ⊆ cs) (hs : Within cs s0 s) :
    Within cs s0 { s with fio := { s.fio with fc := x0 } } :=
  Within.upd hs (fun c => by cases c <;> first | exact .inl (hc (by decide)) | exact .inr rfl) (fun h => ⟨h.1, h.2.1, h.2.2⟩)

theorem Within.put_fio_grp {cs s0} {s : State} {x0} (hc : [.grp] ⊆ cs) (hs : Within cs s0 s) :
    Within cs s0 { s with fio := { s.fio with grp := x0 } } :=
  Within.upd hs (fun c => by cases c <;> first | exact .inl (hc (by decide)) | exact .inr rfl) (fun h => ⟨h.1, h.2.1, h.2.2⟩)

theorem Within.put_hst_badAcc {cs s0} {s : State} {x0} (hc : [.hst] ⊆ cs) (hs : Within cs s0 s) :
    Within cs s0 { s with hst := { s.hst with badAcc := x0 } } :=
  Within.upd hs (fun c => by cases c <;> first | exact .inl (hc (by decide)) | exact .inr rfl) (fun h => ⟨h.1, h.2.1, h.2.2⟩)

theorem Within.put_hst_bar2Out_bar2Poison {cs s0} {s : State} {x0 x1} (hc : [.hst] ⊆ cs) (hs : Within cs s0 s) :
    Within cs s0 { s with hst := { s.hst with bar2Out := x0, bar2Poison := x1 } } :=
  Within.upd hs (fun c => by cases c <;> first | exact .inl (hc (by decide)) | exact .inr rfl) (fun h => ⟨h.1, h.2.1, h.2.2⟩)

theorem Within.put_hst_cplValue {cs s0} {s : State} {x0} (hc : [.hst] ⊆ cs) (hs : Within cs s0 s) :
    Within cs s0 { s with hst := { s.hst with cplValue := x0 } } :=
  Within.upd hs (fun c => by cases c <;> first | exact .inl (hc (by decide)) | exact .inr rfl) (fun h => ⟨h.1, h.2.1, h.2.2⟩)

theorem Within.put_hst_directRej {cs s0} {s : State} {x0} (hc : [.hst] ⊆ cs) (hs : Within cs s0 s) :
    Within cs s0 { s with hst := { s.hst with directRej := x0 } } :=
  Within.upd hs (fun c => by cases c <;> first | exact .inl (hc (by decide)) | exact .inr rfl) (fun h => ⟨h.1, h.2.1, h.2.2⟩)

theorem Within.put_hst_ep {cs s0} {s : State} {x0} (hc : [.hst] ⊆ cs) (hs : Within cs s0 s) :
    Within cs s0 { s with hst := { s.hst with ep := x0 } } :=
  Within.upd hs (fun c => by cases c <;> first | exact .inl (hc (by decide)) | exact .inr rfl) (fun h => ⟨h.1, h.2.1, h.2.2⟩)

theorem Within.put_hst_haAttest {cs s0} {s : State} {x0} (hc : [.hst] ⊆ cs) (hs : Within cs s0 s) :
    Within cs s0 { s with hst := { s.hst with haAttest := x0 } } :=
  Within.upd hs (fun c => by cases c <;> first | exact .inl (hc (by decide)) | exact .inr rfl) (fun h => ⟨h.1, h.2.1, h.2.2⟩)

theorem Within.put_hst_haExport {cs s0} {s : State} {x0} (hc : [.hst] ⊆ cs) (hs : Within cs s0 s) :
    Within cs s0 { s with hst := { s.hst with haExport := x0 } } :=
  Within.upd hs (fun c => by cases c <;> first | exact .inl (hc (by decide)) | exact .inr rfl) (fun h => ⟨h.1, h.2.1, h.2.2⟩)

theorem Within.put_hst_haExport_haAttest_haField {cs s0} {s : State} {x0 x1 x2} (hc : [.hst] ⊆ cs) (hs : Within cs s0 s) :
    Within cs s0 { s with hst := { s.hst with haExport := x0, haAttest := x1, haField := x2 } } :=
  Within.upd hs (fun c => by cases c <;> first | exact .inl (hc (by decide)) | exact .inr rfl) (fun h => ⟨h.1, h.2.1, h.2.2⟩)

theorem Within.put_hst_haField {cs s0} {s : State} {x0} (hc : [.hst] ⊆ cs) (hs : Within cs s0 s) :
    Within cs s0 { s with hst := { s.hst with haField := x0 } } :=
  Within.upd hs (fun c => by cases c <;> first | exact .inl (hc (by decide)) | exact .inr rfl) (fun h => ⟨h.1, h.2.1, h.2.2⟩)

theorem Within.put_hst_msix {cs s0} {s : State} {x0} (hc : [.msix] ⊆ cs) (hs : Within cs s0 s) :
    Within cs s0 { s with hst := { s.hst with msix := x0 } } :=
  Within.upd hs (fun c => by cases c <;> first | exact .inl (hc (by decide)) | exact .inr rfl) (fun h => ⟨h.1, h.2.1, h.2.2⟩)

theorem Within.put_hst_msix_cplValue_ep {cs s0} {s : State} {x0 x1 x2} (hc : [.msix, .hst] ⊆ cs) (hs : Within cs s0 s) :
    Within cs s0 { s with hst := { s.hst with msix := x0, cplValue := x1, ep := x2 } } :=
  Within.upd hs (fun c => by cases c <;> first | exact .inl (hc (by decide)) | exact .inr rfl) (fun h => ⟨h.1, h.2.1, h.2.2⟩)

theorem Within.put_hst_msix_cplValue_ep_spiOut {cs s0} {s : State} {x0 x1 x2 x3} (hc : [.msix, .hst] ⊆ cs) (hs : Within cs s0 s) :
    Within cs s0 { s with hst := { s.hst with msix := x0, cplValue := x1, ep := x2, spiOut := x3 } } :=
  Within.upd hs (fun c => by cases c <;> first | exact .inl (hc (by decide)) | exact .inr rfl) (fun h => ⟨h.1, h.2.1, h.2.2⟩)

theorem Within.put_hst_perstN {cs s0} {s : State} {x0} (hc : [.hst] ⊆ cs) (hs : Within cs s0 s) :
    Within cs s0 { s with hst := { s.hst with perstN := x0 } } :=
  Within.upd hs (fun c => by cases c <;> first | exact .inl (hc (by decide)) | exact .inr rfl) (fun h => ⟨h.1, h.2.1, h.2.2⟩)

theorem Within.put_hst_pullErr {cs s0} {s : State} {x0} (hc : [.hst] ⊆ cs) (hs : Within cs s0 s) :
    Within cs s0 { s with hst := { s.hst with pullErr := x0 } } :=
  Within.upd hs (fun c => by cases c <;> first | exact .inl (hc (by decide)) | exact .inr rfl) (fun h => ⟨h.1, h.2.1, h.2.2⟩)

theorem Within.put_hst_rdOut {cs s0} {s : State} {x0} (hc : [.hst] ⊆ cs) (hs : Within cs s0 s) :
    Within cs s0 { s with hst := { s.hst with rdOut := x0 } } :=
  Within.upd hs (fun c => by cases c <;> first | exact .inl (hc (by decide)) | exact .inr rfl) (fun h => ⟨h.1, h.2.1, h.2.2⟩)

theorem Within.put_hst_readTurn {cs s0} {s : State} {x0} (hc : [.hst] ⊆ cs) (hs : Within cs s0 s) :
    Within cs s0 { s with hst := { s.hst with readTurn := x0 } } :=
  Within.upd hs (fun c => by cases c <;> first | exact .inl (hc (by decide)) | exact .inr rfl) (fun h => ⟨h.1, h.2.1, h.2.2⟩)

theorem Within.put_hst_sess {cs s0} {s : State} {x0} (hc : [.sess] ⊆ cs) (hs : Within cs s0 s) :
    Within cs s0 { s with hst := { s.hst with sess := x0 } } :=
  Within.upd hs (fun c => by cases c <;> first | exact .inl (hc (by decide)) | exact .inr rfl) (fun h => ⟨h.1, h.2.1, h.2.2⟩)

theorem Within.put_hst_spiOut {cs s0} {s : State} {x0} (hc : [.hst] ⊆ cs) (hs : Within cs s0 s) :
    Within cs s0 { s with hst := { s.hst with spiOut := x0 } } :=
  Within.upd hs (fun c => by cases c <;> first | exact .inl (hc (by decide)) | exact .inr rfl) (fun h => ⟨h.1, h.2.1, h.2.2⟩)

theorem Within.put_hst_spiRefused_spiOut {cs s0} {s : State} {x0 x1} (hc : [.hst] ⊆ cs) (hs : Within cs s0 s) :
    Within cs s0 { s with hst := { s.hst with spiRefused := x0, spiOut := x1 } } :=
  Within.upd hs (fun c => by cases c <;> first | exact .inl (hc (by decide)) | exact .inr rfl) (fun h => ⟨h.1, h.2.1, h.2.2⟩)

theorem Within.put_mem_errors {cs s0} {s : State} {x0} (hc : [.mem] ⊆ cs) (hs : Within cs s0 s) :
    Within cs s0 { s with mem := { s.mem with errors := x0 } } :=
  Within.upd hs (fun c => by cases c <;> first | exact .inl (hc (by decide)) | exact .inr rfl) (fun h => ⟨h.1, h.2.1, h.2.2⟩)

theorem Within.put_mem_exhausted {cs s0} {s : State} {x0} (hc : [.mem] ⊆ cs) (hs : Within cs s0 s) :
    Within cs s0 { s with mem := { s.mem with exhausted := x0 } } :=
  Within.upd hs (fun c => by cases c <;> first | exact .inl (hc (by decide)) | exact .inr rfl) (fun h => ⟨h.1, h.2.1, h.2.2⟩)

theorem Within.put_mem_factory {cs s0} {s : State} {x0} (hc : [.mem] ⊆ cs) (hs : Within cs s0 s) :
    Within cs s0 { s with mem := { s.mem with factory := x0 } } :=
  Within.upd hs (fun c => by cases c <;> first | exact .inl (hc (by decide)) | exact .inr rfl) (fun h => ⟨h.1, h.2.1, h.2.2⟩)

theorem Within.put_mem_fuse {cs s0} {s : State} {x0} (hc : [.fuse] ⊆ cs) (hs : Within cs s0 s) :
    Within cs s0 { s with mem := { s.mem with fuse := x0 } } :=
  Within.upd hs (fun c => by cases c <;> first | exact .inl (hc (by decide)) | exact .inr rfl) (fun h => ⟨h.1, h.2.1, h.2.2⟩)

theorem Within.put_mem_oosCv {cs s0} {s : State} {x0} (hc : [.mem] ⊆ cs) (hs : Within cs s0 s) :
    Within cs s0 { s with mem := { s.mem with oosCv := x0 } } :=
  Within.upd hs (fun c => by cases c <;> first | exact .inl (hc (by decide)) | exact .inr rfl) (fun h => ⟨h.1, h.2.1, h.2.2⟩)

theorem Within.put_mem_oosDl {cs s0} {s : State} {x0} (hc : [.mem] ⊆ cs) (hs : Within cs s0 s) :
    Within cs s0 { s with mem := { s.mem with oosDl := x0 } } :=
  Within.upd hs (fun c => by cases c <;> first | exact .inl (hc (by decide)) | exact .inr rfl) (fun h => ⟨h.1, h.2.1, h.2.2⟩)

theorem Within.put_mem_oosSo {cs s0} {s : State} {x0} (hc : [.mem] ⊆ cs) (hs : Within cs s0 s) :
    Within cs s0 { s with mem := { s.mem with oosSo := x0 } } :=
  Within.upd hs (fun c => by cases c <;> first | exact .inl (hc (by decide)) | exact .inr rfl) (fun h => ⟨h.1, h.2.1, h.2.2⟩)

theorem Within.put_mem_repairing {cs s0} {s : State} {x0} (hc : [.mem] ⊆ cs) (hs : Within cs s0 s) :
    Within cs s0 { s with mem := { s.mem with repairing := x0 } } :=
  Within.upd hs (fun c => by cases c <;> first | exact .inl (hc (by decide)) | exact .inr rfl) (fun h => ⟨h.1, h.2.1, h.2.2⟩)

theorem Within.put_mem_sweep {cs s0} {s : State} {x0} (hc : [.sweep] ⊆ cs) (hs : Within cs s0 s) :
    Within cs s0 { s with mem := { s.mem with sweep := x0 } } :=
  Within.upd hs (fun c => by cases c <;> first | exact .inl (hc (by decide)) | exact .inr rfl) (fun h => ⟨h.1, h.2.1, h.2.2⟩)

theorem Within.put_mem_sweep_fuse {cs s0} {s : State} {x0 x1} (hc : [.sweep, .fuse] ⊆ cs) (hs : Within cs s0 s) :
    Within cs s0 { s with mem := { s.mem with sweep := x0, fuse := x1 } } :=
  Within.upd hs (fun c => by cases c <;> first | exact .inl (hc (by decide)) | exact .inr rfl) (fun h => ⟨h.1, h.2.1, h.2.2⟩)

theorem Within.put_mem_track {cs s0} {s : State} {x0} (hc : [.mem] ⊆ cs) (hs : Within cs s0 s) :
    Within cs s0 { s with mem := { s.mem with track := x0 } } :=
  Within.upd hs (fun c => by cases c <;> first | exact .inl (hc (by decide)) | exact .inr rfl) (fun h => ⟨h.1, h.2.1, h.2.2⟩)

theorem Within.put_nib_eng {cs s0} {s : State} {x0} (hc : [.eng] ⊆ cs) (hs : Within cs s0 s) :
    Within cs s0 { s with nib := { s.nib with eng := x0 } } :=
  Within.upd hs (fun c => by cases c <;> first | exact .inl (hc (by decide)) | exact .inr rfl) (fun h => ⟨h.1, h.2.1, h.2.2⟩)

theorem Within.put_nib_live {cs s0} {s : State} {x0} (hc : [.live] ⊆ cs) (hs : Within cs s0 s) :
    Within cs s0 { s with nib := { s.nib with live := x0 } } :=
  Within.upd hs (fun c => by cases c <;> first | exact .inl (hc (by decide)) | exact .inr rfl) (fun h => ⟨h.1, h.2.1, h.2.2⟩)

theorem Within.put_nib_nc {cs s0} {s : State} {x0} (hc : [.nc] ⊆ cs) (hs : Within cs s0 s) :
    Within cs s0 { s with nib := { s.nib with nc := x0 } } :=
  Within.upd hs (fun c => by cases c <;> first | exact .inl (hc (by decide)) | exact .inr rfl) (fun h => ⟨h.1, h.2.1, h.2.2⟩)

theorem Within.put_nib_stamps {cs s0} {s : State} {x0} (hc : [.stamps] ⊆ cs) (hs : Within cs s0 s) :
    Within cs s0 { s with nib := { s.nib with stamps := x0 } } :=
  Within.upd hs (fun c => by cases c <;> first | exact .inl (hc (by decide)) | exact .inr rfl) (fun h => ⟨h.1, h.2.1, h.2.2⟩)

theorem Within.put_nib_toStroke {cs s0} {s : State} {x0} (hc : [.toStroke] ⊆ cs) (hs : Within cs s0 s) :
    Within cs s0 { s with nib := { s.nib with toStroke := x0 } } :=
  Within.upd hs (fun c => by cases c <;> first | exact .inl (hc (by decide)) | exact .inr rfl) (fun h => ⟨h.1, h.2.1, h.2.2⟩)

theorem Within.put_pbi_anDone {cs s0} {s : State} {x0} (hc : [.pbi] ⊆ cs) (hs : Within cs s0 s) :
    Within cs s0 { s with pbi := { s.pbi with anDone := x0 } } :=
  Within.upd hs (fun c => by cases c <;> first | exact .inl (hc (by decide)) | exact .inr rfl) (fun h => ⟨h.1, h.2.1, h.2.2⟩)

theorem Within.put_pbi_decoded {cs s0} {s : State} {x0} (hc : [.pbi] ⊆ cs) (hs : Within cs s0 s) :
    Within cs s0 { s with pbi := { s.pbi with decoded := x0 } } :=
  Within.upd hs (fun c => by cases c <;> first | exact .inl (hc (by decide)) | exact .inr rfl) (fun h => ⟨h.1, h.2.1, h.2.2⟩)

theorem Within.put_pbi_gb {cs s0} {s : State} {x0} (hc : [.pbi] ⊆ cs) (hs : Within cs s0 s) :
    Within cs s0 { s with pbi := { s.pbi with gb := x0 } } :=
  Within.upd hs (fun c => by cases c <;> first | exact .inl (hc (by decide)) | exact .inr rfl) (fun h => ⟨h.1, h.2.1, h.2.2⟩)

theorem Within.put_pbi_gq {cs s0} {s : State} {x0} (hc : [.gq] ⊆ cs) (hs : Within cs s0 s) :
    Within cs s0 { s with pbi := { s.pbi with gq := x0 } } :=
  Within.upd hs (fun c => by cases c <;> first | exact .inl (hc (by decide)) | exact .inr rfl) (fun h => ⟨h.1, h.2.1, h.2.2⟩)

theorem Within.put_pbi_gs {cs s0} {s : State} {x0} (hc : [.gs] ⊆ cs) (hs : Within cs s0 s) :
    Within cs s0 { s with pbi := { s.pbi with gs := x0 } } :=
  Within.upd hs (fun c => by cases c <;> first | exact .inl (hc (by decide)) | exact .inr rfl) (fun h => ⟨h.1, h.2.1, h.2.2⟩)

theorem Within.put_pbi_hostOvf {cs s0} {s : State} {x0} (hc : [.pbi] ⊆ cs) (hs : Within cs s0 s) :
    Within cs s0 { s with pbi := { s.pbi with hostOvf := x0 } } :=
  Within.upd hs (fun c => by cases c <;> first | exact .inl (hc (by decide)) | exact .inr rfl) (fun h => ⟨h.1, h.2.1, h.2.2⟩)

theorem Within.put_pbi_learnt {cs s0} {s : State} {x0} (hc : [.pbi] ⊆ cs) (hs : Within cs s0 s) :
    Within cs s0 { s with pbi := { s.pbi with learnt := x0 } } :=
  Within.upd hs (fun c => by cases c <;> first | exact .inl (hc (by decide)) | exact .inr rfl) (fun h => ⟨h.1, h.2.1, h.2.2⟩)

theorem Within.put_pbi_pair {cs s0} {s : State} {x0} (hc : [.pair] ⊆ cs) (hs : Within cs s0 s) :
    Within cs s0 { s with pbi := { s.pbi with pair := x0 } } :=
  Within.upd hs (fun c => by cases c <;> first | exact .inl (hc (by decide)) | exact .inr rfl) (fun h => ⟨h.1, h.2.1, h.2.2⟩)

theorem Within.put_pbi_port {cs s0} {s : State} {x0} (hc : [.port] ⊆ cs) (hs : Within cs s0 s) :
    Within cs s0 { s with pbi := { s.pbi with port := x0 } } :=
  Within.upd hs (fun c => by cases c <;> first | exact .inl (hc (by decide)) | exact .inr rfl) (fun h => ⟨h.1, h.2.1, h.2.2⟩)

theorem Within.put_pbi_sc {cs s0} {s : State} {x0} (hc : [.sc] ⊆ cs) (hs : Within cs s0 s) :
    Within cs s0 { s with pbi := { s.pbi with sc := x0 } } :=
  Within.upd hs (fun c => by cases c <;> first | exact .inl (hc (by decide)) | exact .inr rfl) (fun h => ⟨h.1, h.2.1, h.2.2⟩)

theorem Within.put_pbi_svq {cs s0} {s : State} {x0} (hc : [.svq] ⊆ cs) (hs : Within cs s0 s) :
    Within cs s0 { s with pbi := { s.pbi with svq := x0 } } :=
  Within.upd hs (fun c => by cases c <;> first | exact .inl (hc (by decide)) | exact .inr rfl) (fun h => ⟨h.1, h.2.1, h.2.2⟩)

theorem Within.put_pbi_svq_decoded {cs s0} {s : State} {x0 x1} (hc : [.svq, .pbi] ⊆ cs) (hs : Within cs s0 s) :
    Within cs s0 { s with pbi := { s.pbi with svq := x0, decoded := x1 } } :=
  Within.upd hs (fun c => by cases c <;> first | exact .inl (hc (by decide)) | exact .inr rfl) (fun h => ⟨h.1, h.2.1, h.2.2⟩)

theorem Within.put_pkg_anaAt {cs s0} {s : State} {x0} (hc : [.pkg] ⊆ cs) (hs : Within cs s0 s) :
    Within cs s0 { s with pkg := { s.pkg with anaAt := x0 } } :=
  Within.upd hs (fun c => by cases c <;> first | exact .inl (hc (by decide)) | exact .inr rfl) (fun h => ⟨h.1, h.2.1, h.2.2⟩)

theorem Within.put_pkg_goodAt_anaAt_vcoreAt {cs s0} {s : State} {x0 x1 x2} (hc : [.pkg] ⊆ cs) (hs : Within cs s0 s) :
    Within cs s0 { s with pkg := { s.pkg with goodAt := x0, anaAt := x1, vcoreAt := x2 } } :=
  Within.upd hs (fun c => by cases c <;> first | exact .inl (hc (by decide)) | exact .inr rfl) (fun h => ⟨h.1, h.2.1, h.2.2⟩)

theorem Within.put_pkg_goodAt_pwrgd {cs s0} {s : State} {x0 x1} (hc : [.pkg] ⊆ cs) (hs : Within cs s0 s) :
    Within cs s0 { s with pkg := { s.pkg with goodAt := x0, pwrgd := x1 } } :=
  Within.upd hs (fun c => by cases c <;> first | exact .inl (hc (by decide)) | exact .inr rfl) (fun h => ⟨h.1, h.2.1, h.2.2⟩)

theorem Within.put_pkg_pwrgd {cs s0} {s : State} {x0} (hc : [.pkg] ⊆ cs) (hs : Within cs s0 s) :
    Within cs s0 { s with pkg := { s.pkg with pwrgd := x0 } } :=
  Within.upd hs (fun c => by cases c <;> first | exact .inl (hc (by decide)) | exact .inr rfl) (fun h => ⟨h.1, h.2.1, h.2.2⟩)

theorem Within.put_pkg_tjHigh {cs s0} {s : State} {x0} (hc : [.pkg] ⊆ cs) (hs : Within cs s0 s) :
    Within cs s0 { s with pkg := { s.pkg with tjHigh := x0 } } :=
  Within.upd hs (fun c => by cases c <;> first | exact .inl (hc (by decide)) | exact .inr rfl) (fun h => ⟨h.1, h.2.1, h.2.2⟩)

theorem Within.put_pkg_vcoreAt {cs s0} {s : State} {x0} (hc : [.pkg] ⊆ cs) (hs : Within cs s0 s) :
    Within cs s0 { s with pkg := { s.pkg with vcoreAt := x0 } } :=
  Within.upd hs (fun c => by cases c <;> first | exact .inl (hc (by decide)) | exact .inr rfl) (fun h => ⟨h.1, h.2.1, h.2.2⟩)

theorem Within.put_qil_bank {cs s0} {s : State} {x0} (hc : [.qil] ⊆ cs) (hs : Within cs s0 s) :
    Within cs s0 { s with qil := { s.qil with bank := x0 } } :=
  Within.upd hs (fun c => by cases c <;> first | exact .inl (hc (by decide)) | exact .inr rfl) (fun h => ⟨h.1, h.2.1, h.2.2⟩)

theorem Within.put_qil_boundAt_restore {cs s0} {s : State} {x0 x1} (hc : [.qil] ⊆ cs) (hs : Within cs s0 s) :
    Within cs s0 { s with qil := { s.qil with boundAt := x0, restore := x1 } } :=
  Within.upd hs (fun c => by cases c <;> first | exact .inl (hc (by decide)) | exact .inr rfl) (fun h => ⟨h.1, h.2.1, h.2.2⟩)

theorem Within.put_qil_ct {cs s0} {s : State} {x0} (hc : [.qil] ⊆ cs) (hs : Within cs s0 s) :
    Within cs s0 { s with qil := { s.qil with ct := x0 } } :=
  Within.upd hs (fun c => by cases c <;> first | exact .inl (hc (by decide)) | exact .inr rfl) (fun h => ⟨h.1, h.2.1, h.2.2⟩)

theorem Within.put_qil_data {cs s0} {s : State} {x0} (hc : [.qil] ⊆ cs) (hs : Within cs s0 s) :
    Within cs s0 { s with qil := { s.qil with data := x0 } } :=
  Within.upd hs (fun c => by cases c <;> first | exact .inl (hc (by decide)) | exact .inr rfl) (fun h => ⟨h.1, h.2.1, h.2.2⟩)

theorem Within.put_qil_ed {cs s0} {s : State} {x0} (hc : [.qil] ⊆ cs) (hs : Within cs s0 s) :
    Within cs s0 { s with qil := { s.qil with ed := x0 } } :=
  Within.upd hs (fun c => by cases c <;> first | exact .inl (hc (by decide)) | exact .inr rfl) (fun h => ⟨h.1, h.2.1, h.2.2⟩)

theorem Within.put_qil_force {cs s0} {s : State} {x0} (hc : [.force] ⊆ cs) (hs : Within cs s0 s) :
    Within cs s0 { s with qil := { s.qil with force := x0 } } :=
  Within.upd hs (fun c => by cases c <;> first | exact .inl (hc (by decide)) | exact .inr rfl) (fun h => ⟨h.1, h.2.1, h.2.2⟩)

theorem Within.put_qil_force_restore {cs s0} {s : State} {x0 x1} (hc : [.force, .qil] ⊆ cs) (hs : Within cs s0 s) :
    Within cs s0 { s with qil := { s.qil with force := x0, restore := x1 } } :=
  Within.upd hs (fun c => by cases c <;> first | exact .inl (hc (by decide)) | exact .inr rfl) (fun h => ⟨h.1, h.2.1, h.2.2⟩)

theorem Within.put_qil_load {cs s0} {s : State} {x0} (hc : [.load] ⊆ cs) (hs : Within cs s0 s) :
    Within cs s0 { s with qil := { s.qil with load := x0 } } :=
  Within.upd hs (fun c => by cases c <;> first | exact .inl (hc (by decide)) | exact .inr rfl) (fun h => ⟨h.1, h.2.1, h.2.2⟩)

theorem Within.put_qil_qb_fcmd_ug_pv_force_restore {cs s0} {s : State} {x0 x1 x2 x3 x4 x5} (hc : [.force, .qil] ⊆ cs) (hs : Within cs s0 s) :
    Within cs s0 { s with qil := { s.qil with qb := x0, fcmd := x1, ug := x2, pv := x3, force := x4, restore := x5 } } :=
  Within.upd hs (fun c => by cases c <;> first | exact .inl (hc (by decide)) | exact .inr rfl) (fun h => ⟨h.1, h.2.1, h.2.2⟩)

theorem Within.put_qil_restore {cs s0} {s : State} {x0} (hc : [.qil] ⊆ cs) (hs : Within cs s0 s) :
    Within cs s0 { s with qil := { s.qil with restore := x0 } } :=
  Within.upd hs (fun c => by cases c <;> first | exact .inl (hc (by decide)) | exact .inr rfl) (fun h => ⟨h.1, h.2.1, h.2.2⟩)

theorem Within.put_qil_run {cs s0} {s : State} {x0} (hc : [.run] ⊆ cs) (hs : Within cs s0 s) :
    Within cs s0 { s with qil := { s.qil with run := x0 } } :=
  Within.upd hs (fun c => by cases c <;> first | exact .inl (hc (by decide)) | exact .inr rfl) (fun h => ⟨h.1, h.2.1, h.2.2⟩)

theorem Within.put_qil_sw {cs s0} {s : State} {x0} (hc : [.sw] ⊆ cs) (hs : Within cs s0 s) :
    Within cs s0 { s with qil := { s.qil with sw := x0 } } :=
  Within.upd hs (fun c => by cases c <;> first | exact .inl (hc (by decide)) | exact .inr rfl) (fun h => ⟨h.1, h.2.1, h.2.2⟩)

theorem Within.put_qil_sw_retDir {cs s0} {s : State} {x0 x1} (hc : [.sw, .qil] ⊆ cs) (hs : Within cs s0 s) :
    Within cs s0 { s with qil := { s.qil with sw := x0, retDir := x1 } } :=
  Within.upd hs (fun c => by cases c <;> first | exact .inl (hc (by decide)) | exact .inr rfl) (fun h => ⟨h.1, h.2.1, h.2.2⟩)

theorem Within.put_qil_tm {cs s0} {s : State} {x0} (hc : [.qil] ⊆ cs) (hs : Within cs s0 s) :
    Within cs s0 { s with qil := { s.qil with tm := x0 } } :=
  Within.upd hs (fun c => by cases c <;> first | exact .inl (hc (by decide)) | exact .inr rfl) (fun h => ⟨h.1, h.2.1, h.2.2⟩)

theorem Within.put_qil_tm_ct_ed {cs s0} {s : State} {x0 x1 x2} (hc : [.qil] ⊆ cs) (hs : Within cs s0 s) :
    Within cs s0 { s with qil := { s.qil with tm := x0, ct := x1, ed := x2 } } :=
  Within.upd hs (fun c => by cases c <;> first | exact .inl (hc (by decide)) | exact .inr rfl) (fun h => ⟨h.1, h.2.1, h.2.2⟩)

theorem Within.put_qil_tm_ct_ed_retDir {cs s0} {s : State} {x0 x1 x2 x3} (hc : [.qil] ⊆ cs) (hs : Within cs s0 s) :
    Within cs s0 { s with qil := { s.qil with tm := x0, ct := x1, ed := x2, retDir := x3 } } :=
  Within.upd hs (fun c => by cases c <;> first | exact .inl (hc (by decide)) | exact .inr rfl) (fun h => ⟨h.1, h.2.1, h.2.2⟩)

theorem Within.put_rul_clk {cs s0} {s : State} {x0} (hc : [.clk] ⊆ cs) (hs : Within cs s0 s) :
    Within cs s0 { s with rul := { s.rul with clk := x0 } } :=
  Within.upd hs (fun c => by cases c <;> first | exact .inl (hc (by decide)) | exact .inr rfl) (fun h => ⟨h.1, h.2.1, h.2.2⟩)

theorem Within.put_rul_dom {cs s0} {s : State} {x0} (hc : [.dom] ⊆ cs) (hs : Within cs s0 s) :
    Within cs s0 { s with rul := { s.rul with dom := x0 } } :=
  Within.upd hs (fun c => by cases c <;> first | exact .inl (hc (by decide)) | exact .inr rfl) (fun h => ⟨h.1, h.2.1, h.2.2⟩)

theorem Within.put_rul_ptp {cs s0} {s : State} {x0} (hc : [.ptp] ⊆ cs) (hs : Within cs s0 s) :
    Within cs s0 { s with rul := { s.rul with ptp := x0 } } :=
  Within.upd hs (fun c => by cases c <;> first | exact .inl (hc (by decide)) | exact .inr rfl) (fun h => ⟨h.1, h.2.1, h.2.2⟩)

theorem Within.put_rul_ptpIn {cs s0} {s : State} {x0} (hc : [.ptpIn] ⊆ cs) (hs : Within cs s0 s) :
    Within cs s0 { s with rul := { s.rul with ptpIn := x0 } } :=
  Within.upd hs (fun c => by cases c <;> first | exact .inl (hc (by decide)) | exact .inr rfl) (fun h => ⟨h.1, h.2.1, h.2.2⟩)

theorem Within.put_scr_buckets {cs s0} {s : State} {x0} (hc : [.scr] ⊆ cs) (hs : Within cs s0 s) :
    Within cs s0 { s with scr := { s.scr with buckets := x0 } } :=
  Within.upd hs (fun c => by cases c <;> first | exact .inl (hc (by decide)) | exact .inr rfl) (fun h => ⟨h.1, h.2.1, h.2.2⟩)

theorem Within.put_scr_commitAt_intake {cs s0} {s : State} {x0 x1} (hc : [.scr] ⊆ cs) (hs : Within cs s0 s) :
    Within cs s0 { s with scr := { s.scr with commitAt := x0, intake := x1 } } :=
  Within.upd hs (fun c => by cases c <;> first | exact .inl (hc (by decide)) | exact .inr rfl) (fun h => ⟨h.1, h.2.1, h.2.2⟩)

theorem Within.put_scr_freeze_frzDrops {cs s0} {s : State} {x0 x1} (hc : [.freeze, .scr] ⊆ cs) (hs : Within cs s0 s) :
    Within cs s0 { s with scr := { s.scr with freeze := x0, frzDrops := x1 } } :=
  Within.upd hs (fun c => by cases c <;> first | exact .inl (hc (by decide)) | exact .inr rfl) (fun h => ⟨h.1, h.2.1, h.2.2⟩)

theorem Within.put_scr_frzDrops {cs s0} {s : State} {x0} (hc : [.scr] ⊆ cs) (hs : Within cs s0 s) :
    Within cs s0 { s with scr := { s.scr with frzDrops := x0 } } :=
  Within.upd hs (fun c => by cases c <;> first | exact .inl (hc (by decide)) | exact .inr rfl) (fun h => ⟨h.1, h.2.1, h.2.2⟩)

theorem Within.put_scr_holding {cs s0} {s : State} {x0} (hc : [.scr] ⊆ cs) (hs : Within cs s0 s) :
    Within cs s0 { s with scr := { s.scr with holding := x0 } } :=
  Within.upd hs (fun c => by cases c <;> first | exact .inl (hc (by decide)) | exact .inr rfl) (fun h => ⟨h.1, h.2.1, h.2.2⟩)

theorem Within.put_scr_holding_freeze_frzDrops {cs s0} {s : State} {x0 x1 x2} (hc : [.freeze, .scr] ⊆ cs) (hs : Within cs s0 s) :
    Within cs s0 { s with scr := { s.scr with holding := x0, freeze := x1, frzDrops := x2 } } :=
  Within.upd hs (fun c => by cases c <;> first | exact .inl (hc (by decide)) | exact .inr rfl) (fun h => ⟨h.1, h.2.1, h.2.2⟩)

theorem Within.put_scr_intake {cs s0} {s : State} {x0} (hc : [.scr] ⊆ cs) (hs : Within cs s0 s) :
    Within cs s0 { s with scr := { s.scr with intake := x0 } } :=
  Within.upd hs (fun c => by cases c <;> first | exact .inl (hc (by decide)) | exact .inr rfl) (fun h => ⟨h.1, h.2.1, h.2.2⟩)

theorem Within.put_scr_lossPend {cs s0} {s : State} {x0} (hc : [.scr] ⊆ cs) (hs : Within cs s0 s) :
    Within cs s0 { s with scr := { s.scr with lossPend := x0 } } :=
  Within.upd hs (fun c => by cases c <;> first | exact .inl (hc (by decide)) | exact .inr rfl) (fun h => ⟨h.1, h.2.1, h.2.2⟩)

theorem Within.put_scr_offers {cs s0} {s : State} {x0} (hc : [.offers] ⊆ cs) (hs : Within cs s0 s) :
    Within cs s0 { s with scr := { s.scr with offers := x0 } } :=
  Within.upd hs (fun c => by cases c <;> first | exact .inl (hc (by decide)) | exact .inr rfl) (fun h => ⟨h.1, h.2.1, h.2.2⟩)

theorem Within.put_scr_offers_intake_holding_freeze_buckets_supp_lossPend_frzDrops {cs s0} {s : State} {x0 x1 x2 x3 x4 x5 x6 x7} (hc : [.offers, .freeze, .scr] ⊆ cs) (hs : Within cs s0 s) :
    Within cs s0 { s with scr := { s.scr with offers := x0, intake := x1, holding := x2, freeze := x3, buckets := x4, supp := x5, lossPend := x6, frzDrops := x7 } } :=
  Within.upd hs (fun c => by cases c <;> first | exact .inl (hc (by decide)) | exact .inr rfl) (fun h => ⟨h.1, h.2.1, h.2.2⟩)

theorem Within.put_scr_pages {cs s0} {s : State} {x0} (hc : [.scr] ⊆ cs) (hs : Within cs s0 s) :
    Within cs s0 { s with scr := { s.scr with pages := x0 } } :=
  Within.upd hs (fun c => by cases c <;> first | exact .inl (hc (by decide)) | exact .inr rfl) (fun h => ⟨h.1, h.2.1, h.2.2⟩)

theorem Within.put_scr_pages_openPage {cs s0} {s : State} {x0 x1} (hc : [.scr] ⊆ cs) (hs : Within cs s0 s) :
    Within cs s0 { s with scr := { s.scr with pages := x0, openPage := x1 } } :=
  Within.upd hs (fun c => by cases c <;> first | exact .inl (hc (by decide)) | exact .inr rfl) (fun h => ⟨h.1, h.2.1, h.2.2⟩)

theorem Within.put_scr_pages_openPage_nextPseq {cs s0} {s : State} {x0 x1 x2} (hc : [.scr] ⊆ cs) (hs : Within cs s0 s) :
    Within cs s0 { s with scr := { s.scr with pages := x0, openPage := x1, nextPseq := x2 } } :=
  Within.upd hs (fun c => by cases c <;> first | exact .inl (hc (by decide)) | exact .inr rfl) (fun h => ⟨h.1, h.2.1, h.2.2⟩)

theorem Within.put_scr_supp {cs s0} {s : State} {x0} (hc : [.scr] ⊆ cs) (hs : Within cs s0 s) :
    Within cs s0 { s with scr := { s.scr with supp := x0 } } :=
  Within.upd hs (fun c => by cases c <;> first | exact .inl (hc (by decide)) | exact .inr rfl) (fun h => ⟨h.1, h.2.1, h.2.2⟩)

theorem Within.put_scr_supp_lossPend {cs s0} {s : State} {x0 x1} (hc : [.scr] ⊆ cs) (hs : Within cs s0 s) :
    Within cs s0 { s with scr := { s.scr with supp := x0, lossPend := x1 } } :=
  Within.upd hs (fun c => by cases c <;> first | exact .inl (hc (by decide)) | exact .inr rfl) (fun h => ⟨h.1, h.2.1, h.2.2⟩)

theorem Within.put_sea_fuse {cs s0} {s : State} {x0} (hc : [.burn] ⊆ cs) (hs : Within cs s0 s) :
    Within cs s0 { s with sea := { s.sea with fuse := x0 } } :=
  Within.upd hs (fun c => by cases c <;> first | exact .inl (hc (by decide)) | exact .inr rfl) (fun h => ⟨h.1, h.2.1, h.2.2⟩)

theorem Within.put_sea_hashJobs {cs s0} {s : State} {x0} (hc : [.sea] ⊆ cs) (hs : Within cs s0 s) :
    Within cs s0 { s with sea := { s.sea with hashJobs := x0 } } :=
  Within.upd hs (fun c => by cases c <;> first | exact .inl (hc (by decide)) | exact .inr rfl) (fun h => ⟨h.1, h.2.1, h.2.2⟩)

theorem Within.put_sea_jobs {cs s0} {s : State} {x0} (hc : [.jobs] ⊆ cs) (hs : Within cs s0 s) :
    Within cs s0 { s with sea := { s.sea with jobs := x0 } } :=
  Within.upd hs (fun c => by cases c <;> first | exact .inl (hc (by decide)) | exact .inr rfl) (fun h => ⟨h.1, h.2.1, h.2.2⟩)

theorem Within.put_sea_sealedHash_keyIdx_vkey_fwVer_fwHash_folioLoaded_ownerPk_vendorPk {cs s0} {s : State} {x0 x1 x2 x3 x4 x5 x6 x7} (hc : [.sea] ⊆ cs) (hs : Within cs s0 s) :
    Within cs s0 { s with sea := { s.sea with sealedHash := x0, keyIdx := x1, vkey := x2, fwVer := x3, fwHash := x4, folioLoaded := x5, ownerPk := x6, vendorPk := x7 } } :=
  Within.upd hs (fun c => by cases c <;> first | exact .inl (hc (by decide)) | exact .inr rfl) (fun h => ⟨h.1, h.2.1, h.2.2⟩)

theorem Within.put_sea_unlockEnd {cs s0} {s : State} {x0} (hc : [.sea] ⊆ cs) (hs : Within cs s0 s) :
    Within cs s0 { s with sea := { s.sea with unlockEnd := x0 } } :=
  Within.upd hs (fun c => by cases c <;> first | exact .inl (hc (by decide)) | exact .inr rfl) (fun h => ⟨h.1, h.2.1, h.2.2⟩)

theorem Within.put_stk_dlQ {cs s0} {s : State} {x0} (hc : [.stk] ⊆ cs) (hs : Within cs s0 s) :
    Within cs s0 { s with stk := { s.stk with dlQ := x0 } } :=
  Within.upd hs (fun c => by cases c <;> first | exact .inl (hc (by decide)) | exact .inr rfl) (fun h => ⟨h.1, h.2.1, h.2.2⟩)

theorem Within.put_stk_logicHold {cs s0} {s : State} {x0} (hc : [.logicQ] ⊆ cs) (hs : Within cs s0 s) :
    Within cs s0 { s with stk := { s.stk with logicHold := x0 } } :=
  Within.upd hs (fun c => by cases c <;> first | exact .inl (hc (by decide)) | exact .inr rfl) (fun h => ⟨h.1, h.2.1, h.2.2⟩)

theorem Within.put_stk_logicQ {cs s0} {s : State} {x0} (hc : [.logicQ] ⊆ cs) (hs : Within cs s0 s) :
    Within cs s0 { s with stk := { s.stk with logicQ := x0 } } :=
  Within.upd hs (fun c => by cases c <;> first | exact .inl (hc (by decide)) | exact .inr rfl) (fun h => ⟨h.1, h.2.1, h.2.2⟩)

theorem Within.put_stk_logicQ_logicHold {cs s0} {s : State} {x0 x1} (hc : [.logicQ] ⊆ cs) (hs : Within cs s0 s) :
    Within cs s0 { s with stk := { s.stk with logicQ := x0, logicHold := x1 } } :=
  Within.upd hs (fun c => by cases c <;> first | exact .inl (hc (by decide)) | exact .inr rfl) (fun h => ⟨h.1, h.2.1, h.2.2⟩)

theorem Within.put_stk_pub {cs s0} {s : State} {x0} (hc : [.pub] ⊆ cs) (hs : Within cs s0 s) :
    Within cs s0 { s with stk := { s.stk with pub := x0 } } :=
  Within.upd hs (fun c => by cases c <;> first | exact .inl (hc (by decide)) | exact .inr rfl) (fun h => ⟨h.1, h.2.1, h.2.2⟩)

theorem Within.put_stk_pub_pubOut {cs s0} {s : State} {x0 x1} (hc : [.pub] ⊆ cs) (hs : Within cs s0 s) :
    Within cs s0 { s with stk := { s.stk with pub := x0, pubOut := x1 } } :=
  Within.upd hs (fun c => by cases c <;> first | exact .inl (hc (by decide)) | exact .inr rfl) (fun h => ⟨h.1, h.2.1, h.2.2⟩)

theorem Within.put_stk_pubOut {cs s0} {s : State} {x0} (hc : [.pub] ⊆ cs) (hs : Within cs s0 s) :
    Within cs s0 { s with stk := { s.stk with pubOut := x0 } } :=
  Within.upd hs (fun c => by cases c <;> first | exact .inl (hc (by decide)) | exact .inr rfl) (fun h => ⟨h.1, h.2.1, h.2.2⟩)

theorem Within.put_stk_sentAt {cs s0} {s : State} {x0} (hc : [.waits] ⊆ cs) (hs : Within cs s0 s) :
    Within cs s0 { s with stk := { s.stk with sentAt := x0 } } :=
  Within.upd hs (fun c => by cases c <;> first | exact .inl (hc (by decide)) | exact .inr rfl) (fun h => ⟨h.1, h.2.1, h.2.2⟩)

theorem Within.put_stk_so {cs s0} {s : State} {x0} (hc : [.so] ⊆ cs) (hs : Within cs s0 s) :
    Within cs s0 { s with stk := { s.stk with so := x0 } } :=
  Within.upd hs (fun c => by cases c <;> first | exact .inl (hc (by decide)) | exact .inr rfl) (fun h => ⟨h.1, h.2.1, h.2.2⟩)

theorem Within.put_stk_updAt_turn_sentAt {cs s0} {s : State} {x0 x1 x2} (hc : [.waits, .stk] ⊆ cs) (hs : Within cs s0 s) :
    Within cs s0 { s with stk := { s.stk with updAt := x0, turn := x1, sentAt := x2 } } :=
  Within.upd hs (fun c => by cases c <;> first | exact .inl (hc (by decide)) | exact .inr rfl) (fun h => ⟨h.1, h.2.1, h.2.2⟩)

theorem Within.put_sys_attempt_fails {cs s0} {s : State} {x0 x1} (hc : [.sys] ⊆ cs) (hs : Within cs s0 s) :
    Within cs s0 { s with sys := { s.sys with attempt := x0, fails := x1 } } :=
  Within.upd hs (fun c => by cases c <;> first | exact .inl (hc (by decide)) | exact .inr rfl) (fun h => ⟨h.1, h.2.1, h.2.2⟩)

theorem Within.put_sys_brown {cs s0} {s : State} {x0} (hc : [.sys] ⊆ cs) (hs : Within cs s0 s) :
    Within cs s0 { s with sys := { s.sys with brown := x0 } } :=
  Within.upd hs (fun c => by cases c <;> first | exact .inl (hc (by decide)) | exact .inr rfl) (fun h => ⟨h.1, h.2.1, h.2.2⟩)

theorem Within.put_sys_commit {cs s0} {s : State} {x0} (hc : [.commit] ⊆ cs) (hs : Within cs s0 s) :
    Within cs s0 { s with sys := { s.sys with commit := x0 } } :=
  Within.upd hs (fun c => by cases c <;> first | exact .inl (hc (by decide)) | exact .inr rfl) (fun h => ⟨h.1, h.2.1, h.2.2⟩)

theorem Within.put_sys_committed {cs s0} {s : State} {x0} (hc : [.sys] ⊆ cs) (hs : Within cs s0 s) :
    Within cs s0 { s with sys := { s.sys with committed := x0 } } :=
  Within.upd hs (fun c => by cases c <;> first | exact .inl (hc (by decide)) | exact .inr rfl) (fun h => ⟨h.1, h.2.1, h.2.2⟩)

theorem Within.put_sys_committing {cs s0} {s : State} {x0} (hc : [.committing] ⊆ cs) (hs : Within cs s0 s) :
    Within cs s0 { s with sys := { s.sys with committing := x0 } } :=
  Within.upd hs (fun c => by cases c <;> first | exact .inl (hc (by decide)) | exact .inr rfl) (fun h => ⟨h.1, h.2.1, h.2.2⟩)

theorem Within.put_sys_creds {cs s0} {s : State} {x0} (hc : [.sys] ⊆ cs) (hs : Within cs s0 s) :
    Within cs s0 { s with sys := { s.sys with creds := x0 } } :=
  Within.upd hs (fun c => by cases c <;> first | exact .inl (hc (by decide)) | exact .inr rfl) (fun h => ⟨h.1, h.2.1, h.2.2⟩)

theorem Within.put_sys_fails {cs s0} {s : State} {x0} (hc : [.sys] ⊆ cs) (hs : Within cs s0 s) :
    Within cs s0 { s with sys := { s.sys with fails := x0 } } :=
  Within.upd hs (fun c => by cases c <;> first | exact .inl (hc (by decide)) | exact .inr rfl) (fun h => ⟨h.1, h.2.1, h.2.2⟩)

theorem Within.put_sys_flash_flashGo_flashImg {cs s0} {s : State} {x0 x1 x2} (hc : [.sys] ⊆ cs) (hs : Within cs s0 s) :
    Within cs s0 { s with sys := { s.sys with flash := x0, flashGo := x1, flashImg := x2 } } :=
  Within.upd hs (fun c => by cases c <;> first | exact .inl (hc (by decide)) | exact .inr rfl) (fun h => ⟨h.1, h.2.1, h.2.2⟩)

theorem Within.put_sys_flashGo {cs s0} {s : State} {x0} (hc : [.sys] ⊆ cs) (hs : Within cs s0 s) :
    Within cs s0 { s with sys := { s.sys with flashGo := x0 } } :=
  Within.upd hs (fun c => by cases c <;> first | exact .inl (hc (by decide)) | exact .inr rfl) (fun h => ⟨h.1, h.2.1, h.2.2⟩)

theorem Within.put_sys_flashGo_flashImg {cs s0} {s : State} {x0 x1} (hc : [.sys] ⊆ cs) (hs : Within cs s0 s) :
    Within cs s0 { s with sys := { s.sys with flashGo := x0, flashImg := x1 } } :=
  Within.upd hs (fun c => by cases c <;> first | exact .inl (hc (by decide)) | exact .inr rfl) (fun h => ⟨h.1, h.2.1, h.2.2⟩)

theorem Within.put_sys_modePend {cs s0} {s : State} {x0} (hc : [.modePend] ⊆ cs) (hs : Within cs s0 s) :
    Within cs s0 { s with sys := { s.sys with modePend := x0 } } :=
  Within.upd hs (fun c => by cases c <;> first | exact .inl (hc (by decide)) | exact .inr rfl) (fun h => ⟨h.1, h.2.1, h.2.2⟩)

theorem Within.put_sys_released {cs s0} {s : State} {x0} (hc : [.sys] ⊆ cs) (hs : Within cs s0 s) :
    Within cs s0 { s with sys := { s.sys with released := x0 } } :=
  Within.upd hs (fun c => by cases c <;> first | exact .inl (hc (by decide)) | exact .inr rfl) (fun h => ⟨h.1, h.2.1, h.2.2⟩)

theorem Within.put_sys_resetN {cs s0} {s : State} {x0} (hc : [.sys] ⊆ cs) (hs : Within cs s0 s) :
    Within cs s0 { s with sys := { s.sys with resetN := x0 } } :=
  Within.upd hs (fun c => by cases c <;> first | exact .inl (hc (by decide)) | exact .inr rfl) (fun h => ⟨h.1, h.2.1, h.2.2⟩)

theorem Within.put_sys_staged {cs s0} {s : State} {x0} (hc : [.staged] ⊆ cs) (hs : Within cs s0 s) :
    Within cs s0 { s with sys := { s.sys with staged := x0 } } :=
  Within.upd hs (fun c => by cases c <;> first | exact .inl (hc (by decide)) | exact .inr rfl) (fun h => ⟨h.1, h.2.1, h.2.2⟩)

theorem Within.put_sys_startDue {cs s0} {s : State} {x0} (hc : [.startDue] ⊆ cs) (hs : Within cs s0 s) :
    Within cs s0 { s with sys := { s.sys with startDue := x0 } } :=
  Within.upd hs (fun c => by cases c <;> first | exact .inl (hc (by decide)) | exact .inr rfl) (fun h => ⟨h.1, h.2.1, h.2.2⟩)

theorem Within.put_sys_svcAt {cs s0} {s : State} {x0} (hc : [.sys] ⊆ cs) (hs : Within cs s0 s) :
    Within cs s0 { s with sys := { s.sys with svcAt := x0 } } :=
  Within.upd hs (fun c => by cases c <;> first | exact .inl (hc (by decide)) | exact .inr rfl) (fun h => ⟨h.1, h.2.1, h.2.2⟩)

theorem Within.put_sys_svcAt_startDue {cs s0} {s : State} {x0 x1} (hc : [.startDue, .sys] ⊆ cs) (hs : Within cs s0 s) :
    Within cs s0 { s with sys := { s.sys with svcAt := x0, startDue := x1 } } :=
  Within.upd hs (fun c => by cases c <;> first | exact .inl (hc (by decide)) | exact .inr rfl) (fun h => ⟨h.1, h.2.1, h.2.2⟩)

theorem Within.put_sys_testEnd {cs s0} {s : State} {x0} (hc : [.sys] ⊆ cs) (hs : Within cs s0 s) :
    Within cs s0 { s with sys := { s.sys with testEnd := x0 } } :=
  Within.upd hs (fun c => by cases c <;> first | exact .inl (hc (by decide)) | exact .inr rfl) (fun h => ⟨h.1, h.2.1, h.2.2⟩)

theorem Within.put_sys_trigAt {cs s0} {s : State} {x0} (hc : [.sys] ⊆ cs) (hs : Within cs s0 s) :
    Within cs s0 { s with sys := { s.sys with trigAt := x0 } } :=
  Within.upd hs (fun c => by cases c <;> first | exact .inl (hc (by decide)) | exact .inr rfl) (fun h => ⟨h.1, h.2.1, h.2.2⟩)

theorem Within.put_sys_trigAt_attempt_bFirst {cs s0} {s : State} {x0 x1 x2} (hc : [.sys] ⊆ cs) (hs : Within cs s0 s) :
    Within cs s0 { s with sys := { s.sys with trigAt := x0, attempt := x1, bFirst := x2 } } :=
  Within.upd hs (fun c => by cases c <;> first | exact .inl (hc (by decide)) | exact .inr rfl) (fun h => ⟨h.1, h.2.1, h.2.2⟩)

theorem Within.put_sys_v3p3Low_released_fails_committed {cs s0} {s : State} {x0 x1 x2 x3} (hc : [.sys] ⊆ cs) (hs : Within cs s0 s) :
    Within cs s0 { s with sys := { s.sys with v3p3Low := x0, released := x1, fails := x2, committed := x3 } } :=
  Within.upd hs (fun c => by cases c <;> first | exact .inl (hc (by decide)) | exact .inr rfl) (fun h => ⟨h.1, h.2.1, h.2.2⟩)

theorem Within.put_vel_bursts {cs s0} {s : State} {x0} (hc : [.vel] ⊆ cs) (hs : Within cs s0 s) :
    Within cs s0 { s with vel := { s.vel with bursts := x0 } } :=
  Within.upd hs (fun c => by cases c <;> first | exact .inl (hc (by decide)) | exact .inr rfl) (fun h => ⟨h.1, h.2.1, h.2.2⟩)

theorem Within.put_vel_exporting {cs s0} {s : State} {x0} (hc : [.exporting] ⊆ cs) (hs : Within cs s0 s) :
    Within cs s0 { s with vel := { s.vel with exporting := x0 } } :=
  Within.upd hs (fun c => by cases c <;> first | exact .inl (hc (by decide)) | exact .inr rfl) (fun h => ⟨h.1, h.2.1, h.2.2⟩)

theorem Within.put_vel_lanes {cs s0} {s : State} {x0} (hc : [.vel] ⊆ cs) (hs : Within cs s0 s) :
    Within cs s0 { s with vel := { s.vel with lanes := x0 } } :=
  Within.upd hs (fun c => by cases c <;> first | exact .inl (hc (by decide)) | exact .inr rfl) (fun h => ⟨h.1, h.2.1, h.2.2⟩)

theorem Within.put_vel_lanes_blkSeq_twSlot {cs s0} {s : State} {x0 x1 x2} (hc : [.vel] ⊆ cs) (hs : Within cs s0 s) :
    Within cs s0 { s with vel := { s.vel with lanes := x0, blkSeq := x1, twSlot := x2 } } :=
  Within.upd hs (fun c => by cases c <;> first | exact .inl (hc (by decide)) | exact .inr rfl) (fun h => ⟨h.1, h.2.1, h.2.2⟩)

theorem Within.put_vel_prof {cs s0} {s : State} {x0} (hc : [.vel] ⊆ cs) (hs : Within cs s0 s) :
    Within cs s0 { s with vel := { s.vel with prof := x0 } } :=
  Within.upd hs (fun c => by cases c <;> first | exact .inl (hc (by decide)) | exact .inr rfl) (fun h => ⟨h.1, h.2.1, h.2.2⟩)

theorem Within.put_vel_recs {cs s0} {s : State} {x0} (hc : [.recs] ⊆ cs) (hs : Within cs s0 s) :
    Within cs s0 { s with vel := { s.vel with recs := x0 } } :=
  Within.upd hs (fun c => by cases c <;> first | exact .inl (hc (by decide)) | exact .inr rfl) (fun h => ⟨h.1, h.2.1, h.2.2⟩)

theorem Within.put_vel_recs_nextId {cs s0} {s : State} {x0 x1} (hc : [.recs, .vel] ⊆ cs) (hs : Within cs s0 s) :
    Within cs s0 { s with vel := { s.vel with recs := x0, nextId := x1 } } :=
  Within.upd hs (fun c => by cases c <;> first | exact .inl (hc (by decide)) | exact .inr rfl) (fun h => ⟨h.1, h.2.1, h.2.2⟩)

theorem Within.put_vel_recs_nextId_prof_lanes_blkSeq_twSlot_bursts_exporting {cs s0} {s : State} {x0 x1 x2 x3 x4 x5 x6 x7} (hc : [.recs, .exporting, .vel] ⊆ cs) (hs : Within cs s0 s) :
    Within cs s0 { s with vel := { s.vel with recs := x0, nextId := x1, prof := x2, lanes := x3, blkSeq := x4, twSlot := x5, bursts := x6, exporting := x7 } } :=
  Within.upd hs (fun c => by cases c <;> first | exact .inl (hc (by decide)) | exact .inr rfl) (fun h => ⟨h.1, h.2.1, h.2.2⟩)

theorem Within.put_vel_recs_prof_exporting {cs s0} {s : State} {x0 x1 x2} (hc : [.recs, .exporting, .vel] ⊆ cs) (hs : Within cs s0 s) :
    Within cs s0 { s with vel := { s.vel with recs := x0, prof := x1, exporting := x2 } } :=
  Within.upd hs (fun c => by cases c <;> first | exact .inl (hc (by decide)) | exact .inr rfl) (fun h => ⟨h.1, h.2.1, h.2.2⟩)

end Sys2Proof.Machine
end

