-- ==== Sys2Proof/Laws/Tab.lean ====
section
/-! SUPPORT. Sparse tables: reading after writing, and the canonical form that every write keeps. -/

namespace Sys2Proof.Machine

set_option Elab.async false

variable {α : Type}

/-! ### Reading -/

theorem Tab.look_drop_same (d : α) (t : Tab α) (i : Nat) : Tab.look d (Tab.drop t i) i = d := by
  induction t with
  | nil => rfl
  | cons p t ih =>
    obtain ⟨k, v⟩ := p
    by_cases h : k = i <;> simp [Tab.drop, Tab.look, h, ih]

theorem Tab.look_drop_other (d : α) (t : Tab α) {i j : Nat} (h : j ≠ i) : Tab.look d (Tab.drop t i) j = Tab.look d t j := by
  induction t with
  | nil => rfl
  | cons p t ih =>
    obtain ⟨k, v⟩ := p
    by_cases hk : k = i
    · subst hk; simp [Tab.drop, Tab.look, ih, Ne.symm h]
    · simp [Tab.drop, Tab.look, hk, ih]

/-- No entry of the key is listed. -/
def Tab.free (t : Tab α) (i : Nat) : Prop := ∀ p ∈ t, p.1 ≠ i

theorem Tab.free_drop (t : Tab α) (i : Nat) : Tab.free (Tab.drop t i) i := by
  induction t with
  | nil => intro p hp; cases hp
  | cons p t ih =>
    obtain ⟨k, v⟩ := p
    by_cases h : k = i
    · simpa [Tab.drop, h] using ih
    · intro q hq
      simp only [Tab.drop, h, if_false] at hq
      rcases List.mem_cons.1 hq with rfl | hq
      · exact h
      · exact ih q hq

theorem Tab.look_place (d : α) (t : Tab α) (i : Nat) (x : α) (h : Tab.free t i) (j : Nat) :
    Tab.look d (Tab.place t i x) j = if i = j then x else Tab.look d t j := by
  induction t with
  | nil => simp [Tab.place, Tab.look]
  | cons p t ih =>
    obtain ⟨k, v⟩ := p
    have hk : k ≠ i := h (k, v) List.mem_cons_self
    have ht : Tab.free t i := fun q hq => h q (List.mem_cons_of_mem _ hq)
    by_cases hlt : i < k
    · simp [Tab.place, Tab.look, hlt]
    · by_cases hj : i = j
      · subst hj; simp [Tab.place, Tab.look, hlt, ih ht, hk]
      · simp [Tab.place, Tab.look, hlt, ih ht, hj]

variable [Inhabited α]

@[simp] theorem Tab.get_nil (i : Nat) : Tab.get ([] : Tab α) i = default := rfl

variable [DecidableEq α]

@[simp] theorem Tab.get_set_same (t : Tab α) (i : Nat) (x : α) : (t.set i x).get i = x := by
  unfold Tab.set Tab.get
  split
  · next h => rw [Tab.look_drop_same, h]
  · rw [Tab.look_place _ _ _ _ (Tab.free_drop t i), if_pos rfl]

theorem Tab.get_set_other (t : Tab α) {i j : Nat} (x : α) (h : j ≠ i) : (t.set i x).get j = t.get j := by
  unfold Tab.set Tab.get
  split
  · exact Tab.look_drop_other _ _ h
  · rw [Tab.look_place _ _ _ _ (Tab.free_drop t i), if_neg (Ne.symm h), Tab.look_drop_other _ _ h]

theorem Tab.get_set (t : Tab α) (i j : Nat) (x : α) : (t.set i x).get j = if j = i then x else t.get j := by
  split
  · next h => subst h; simp
  · next h => exact Tab.get_set_other t x h

@[simp] theorem Tab.get_upd_same (t : Tab α) (i : Nat) (f : α → α) : (t.upd i f).get i = f (t.get i) := by simp [Tab.upd]

theorem Tab.get_upd_other (t : Tab α) {i j : Nat} (f : α → α) (h : j ≠ i) : (t.upd i f).get j = t.get j := by
  simp [Tab.upd, Tab.get_set_other t _ h]

/-! ### The canonical form -/

/-- `lo` is below the key. -/
def Tab.low (lo : Option Nat) (k : Nat) : Prop := ∀ l, lo = some l → l < k

theorem Tab.above_cons {lo : Option Nat} {k : Nat} {v : α} {t : Tab α} :
    Tab.above lo ((k, v) :: t) = true ↔ Tab.low lo k ∧ v ≠ default ∧ Tab.above (some k) t = true := by
  cases lo <;> simp [Tab.above, Tab.low, and_assoc]

theorem Tab.above_mono {lo : Option Nat} {l : Nat} {t : Tab α} (h : Tab.above (some l) t = true) (k : Tab.low lo l) :
    Tab.above lo t = true := by
  cases t with
  | nil => rfl
  | cons p t =>
    obtain ⟨a, v⟩ := p
    obtain ⟨h1, h2, h3⟩ := Tab.above_cons.1 h
    exact Tab.above_cons.2 ⟨fun m e => Nat.lt_trans (k m e) (h1 l rfl), h2, h3⟩

theorem Tab.above_drop {lo : Option Nat} {t : Tab α} (i : Nat) (h : Tab.above lo t = true) : Tab.above lo (Tab.drop t i) = true := by
  induction t generalizing lo with
  | nil => rfl
  | cons p t ih =>
    obtain ⟨k, v⟩ := p
    obtain ⟨h1, h2, h3⟩ := Tab.above_cons.1 h
    by_cases hk : k = i
    · simp only [Tab.drop, hk, if_true]; exact ih (Tab.above_mono h3 h1)
    · simp only [Tab.drop, hk, if_false]; exact Tab.above_cons.2 ⟨h1, h2, ih h3⟩

theorem Tab.above_place {lo : Option Nat} {t : Tab α} {i : Nat} {x : α} (h : Tab.above lo t = true) (hl : Tab.low lo i)
    (hx : x ≠ default) (hf : Tab.free t i) : Tab.above lo (Tab.place t i x) = true := by
  induction t generalizing lo with
  | nil => exact Tab.above_cons.2 ⟨hl, hx, rfl⟩
  | cons p t ih =>
    obtain ⟨k, v⟩ := p
    obtain ⟨h1, h2, h3⟩ := Tab.above_cons.1 h
    have hk : k ≠ i := hf (k, v) List.mem_cons_self
    have ht : Tab.free t i := fun q hq => hf q (List.mem_cons_of_mem _ hq)
    unfold Tab.place
    split
    · next hlt => exact Tab.above_cons.2 ⟨hl, hx, Tab.above_cons.2 ⟨fun l e => by cases e; exact hlt, h2, h3⟩⟩
    · next hlt => exact Tab.above_cons.2 ⟨h1, h2, ih h3 (fun l e => by cases e; omega) ht⟩

/-- A write keeps the canonical form. -/
theorem Tab.wf_set (t : Tab α) (i : Nat) (x : α) (h : t.wf = true) : (t.set i x).wf = true := by
  unfold Tab.set Tab.wf
  split
  · exact Tab.above_drop i h
  · next hx => exact Tab.above_place (Tab.above_drop i h) (fun l e => by cases e) hx (Tab.free_drop t i)

theorem Tab.wf_upd (t : Tab α) (i : Nat) (f : α → α) (h : t.wf = true) : (t.upd i f).wf = true := Tab.wf_set t i _ h

theorem Tab.wf_nil : Tab.wf ([] : Tab α) = true := rfl

/-! ### Byte memories -/

theorem wf_writeBytes (m : Tab Byte) (a : Nat) (bs : List Byte) (h : m.wf = true) : (writeBytes m a bs).wf = true := by
  induction bs generalizing m a with
  | nil => exact h
  | cons b bs ih => exact ih _ _ (Tab.wf_set m a b h)

/-- A byte outside those stored reads as before. -/
theorem get_writeBytes_outside (m : Tab Byte) (a : Nat) (bs : List Byte) (i : Nat) (h : i < a ∨ a + bs.length ≤ i) :
    (writeBytes m a bs).get i = m.get i := by
  induction bs generalizing m a with
  | nil => rfl
  | cons b bs ih =>
    simp only [List.length_cons] at h
    rw [writeBytes, ih _ _ (by omega), Tab.get_set_other m b (by omega)]

/-- A stored byte reads as stored. -/
theorem get_writeBytes_inside (m : Tab Byte) (a : Nat) (bs : List Byte) (i : Nat) (h : i < bs.length) :
    (writeBytes m a bs).get (a + i) = bs.getD i 0 := by
  induction bs generalizing m a i with
  | nil => simp at h
  | cons b bs ih =>
    rw [writeBytes]
    cases i with
    | zero => rw [get_writeBytes_outside _ _ _ _ (by omega)]; simp
    | succ i =>
      have := ih (m.set a b) (a + 1) i (by simpa using h)
      rw [show a + (i + 1) = a + 1 + i by omega, this]; simp

theorem readBytes_length (m : Tab Byte) (a n : Nat) : (readBytes m a n).length = n := by
  induction n generalizing a with
  | zero => rfl
  | succ n ih => simp [readBytes, ih]

/-- What was stored reads back. -/
theorem readBytes_writeBytes (m : Tab Byte) (a : Nat) (bs : List Byte) : readBytes (writeBytes m a bs) a bs.length = bs := by
  induction bs generalizing m a with
  | nil => rfl
  | cons b bs ih =>
    rw [List.length_cons, readBytes, writeBytes, ih, get_writeBytes_outside _ _ _ _ (by omega)]; simp

end Sys2Proof.Machine
end

