-- ==== Sys2Proof/Laws/Ops.lean ====
section
/-! SUPPORT. What each operation of Machine/Ops.lean can change: one lemma per operation, cited in place of unfolding it. -/

namespace Sys2Proof.Machine

set_option Elab.async false

theorem State.dramWrite_within {cs s0} {s a bs} (hc : [.dram] ⊆ cs) (hs : Within cs s0 s) :
    Within cs s0 (State.dramWrite s a bs) := by
  unfold State.dramWrite
  exact Within.upd (s := s) (t := { s with hst := _ }) hs (fun c => by cases c <;> first | exact .inl (hc (by decide)) | exact .inr rfl)
    (fun h => ⟨h.1, h.2.1, wf_writeBytes _ _ _ h.2.2⟩)

theorem State.drawBytes_within {cs s0} {s n} (hc : [.freeCtr] ⊆ cs) (hs : Within cs s0 s) :
    Within cs s0 (State.drawBytes s n).2 := by
  unfold State.drawBytes
  exact Within.upd (s := s) (t := { s with freeCtr := _ }) hs (fun c => by cases c <;> first | exact .inl (hc (by decide)) | exact .inr rfl) (fun h => ⟨h.1, h.2.1, h.2.2⟩)

theorem State.setWord_within {cs s0} {s a w} (hc : [.regs] ⊆ cs) (hs : Within cs s0 s) :
    Within cs s0 (State.setWord s a w) := by
  unfold State.setWord
  exact Within.upd (s := s) (t := { s with regs := _ }) hs (fun c => by cases c <;> first | exact .inl (hc (by decide)) | exact .inr rfl)
    (fun h => ⟨Tab.wf_set _ _ _ h.1, h.2⟩)

theorem State.setF_within {cs s0} {s x v} (hc : [.regs] ⊆ cs) (hs : Within cs s0 s) :
    Within cs s0 (State.setF s x v) := by
  unfold State.setF
  exact State.setWord_within (sub hc) hs

theorem State.incW_within {cs s0} {s x n} (hc : [.regs] ⊆ cs) (hs : Within cs s0 s) :
    Within cs s0 (State.incW s x n) := by
  unfold State.incW
  exact State.setF_within (sub hc) hs

theorem State.setB_within {cs s0} {s x b} (hc : [.regs] ⊆ cs) (hs : Within cs s0 s) :
    Within cs s0 (State.setB s x b) := by
  unfold State.setB
  exact State.setF_within (sub hc) hs

theorem State.msixSend_within {cs s0} {s v} (hc : [.msix] ⊆ cs) (hs : Within cs s0 s) :
    Within cs s0 (State.msixSend s v) := by
  unfold State.msixSend
  extract_lets +onlyGivenNames -merge -underBinder m
  refine Within.ite hs ?_
  extract_lets +onlyGivenNames -merge -underBinder m1
  exact Within.put_hst_msix (sub hc) hs

theorem State.irq_within {cs s0} {s v} (hc : [.regs, .msix] ⊆ cs) (hs : Within cs s0 s) :
    Within cs s0 (State.irq s v) := by
  unfold State.irq
  exact State.msixSend_within (sub hc) (State.setF_within (sub hc) hs)

theorem State.health_within {cs s0} {s x} (hc : [.regs, .msix] ⊆ cs) (hs : Within cs s0 s) :
    Within cs s0 (State.health s x) := by
  unfold State.health
  exact State.irq_within (sub hc) (State.setB_within (sub hc) hs)

theorem State.incS_within {cs s0} {s x n} (hc : [.regs] ⊆ cs) (hs : Within cs s0 s) :
    Within cs s0 (State.incS s x n) := by
  unfold State.incS
  exact State.setF_within (sub hc) hs

theorem State.inkWrite_within {cs s0} {s a bs} (hc : [.inkwell] ⊆ cs) (hs : Within cs s0 s) :
    Within cs s0 (State.inkWrite s a bs) := by
  unfold State.inkWrite
  exact Within.upd (s := s) (t := { s with hst := _ }) hs (fun c => by cases c <;> first | exact .inl (hc (by decide)) | exact .inr rfl)
    (fun h => ⟨h.1, wf_writeBytes _ _ _ h.2.1, h.2.2⟩)

theorem State.offer_within {cs s0} {s r} (hc : [.offers] ⊆ cs) (hs : Within cs s0 s) :
    Within cs s0 (State.offer s r) := by
  unfold State.offer
  exact Within.put_scr_offers (sub hc) hs

theorem State.log_within {cs s0} {s ev inst items} (hc : [.offers] ⊆ cs) (hs : Within cs s0 s) :
    Within cs s0 (State.log s ev inst items) := by
  unfold State.log
  exact State.offer_within (sub hc) hs

theorem State.maxF_within {cs s0} {s x v} (hc : [.regs] ⊆ cs) (hs : Within cs s0 s) :
    Within cs s0 (State.maxF s x v) := by
  unfold State.maxF
  exact Within.ite (State.setF_within (sub hc) hs) hs

theorem State.setFs_within {cs s0} {s x} (hc : [.regs] ⊆ cs) (hs : Within cs s0 s) :
    Within cs s0 (State.setFs s x) := by
  induction x generalizing s with
  | nil =>
    rw [State.setFs]
    exact hs
  | cons a l ih =>
    rw [State.setFs]
    exact ih (State.setF_within (sub hc) hs)

theorem State.wr_within {cs s0} {s a v} (hc : [.regs] ⊆ cs) (hs : Within cs s0 s) :
    Within cs s0 (State.wr s a v) := by
  unfold State.wr
  exact State.setWord_within (sub hc) hs

end Sys2Proof.Machine
end

