-- ==== Sys2Proof/Laws/Inkwell.lean ====
section
/-! SUPPORT. What each operation of Machine/Inkwell.lean can change: one lemma per operation, cited in place of unfolding it. -/

namespace Sys2Proof.Machine

set_option Elab.async false

theorem CmdOut.s_within {cs s0} {self} (_hc : [] ⊆ cs) (hself : Within cs s0 self.s) :
    Within cs s0 (CmdOut.s self) := by
  unfold CmdOut.s
  exact hself

theorem State.setPort_within {cs s0} {s p x} (hc : [.port] ⊆ cs) (hs : Within cs s0 s) :
    Within cs s0 (State.setPort s p x) := by
  unfold State.setPort
  exact Within.put_pbi_port (sub hc) hs

theorem State.enqueue_within {cs s0} {s p i} (hc : [.regs, .port] ⊆ cs) (hs : Within cs s0 s) :
    Within cs s0 (State.enqueue s p i) := by
  unfold State.enqueue
  refine Within.ite (State.incW_within (sub hc) hs) ?_
  refine Within.ite hs ?_
  extract_lets +onlyGivenNames -merge -underBinder x
  exact State.setPort_within (sub hc) hs

theorem State.noteInflight_within {cs s0} {s n} (hc : [.regs] ⊆ cs) (hs : Within cs s0 s) :
    Within cs s0 (State.noteInflight s n) := by
  unfold State.noteInflight
  exact State.setF_within (sub hc) hs

theorem State.portCnt_within {cs s0} {s p kPb kSb} (hc : [.regs] ⊆ cs) (hs : Within cs s0 s) :
    Within cs s0 (State.portCnt s p kPb kSb) := by
  unfold State.portCnt
  exact Within.ite (State.incW_within (sub hc) hs) (State.incW_within (sub hc) hs)

theorem State.portRule_within {cs s0} {s p} (hc : [.regs] ⊆ cs) (hs : Within cs s0 s) :
    Within cs s0 (State.portRule s p) := by
  unfold State.portRule
  exact Within.ite (State.incW_within (sub hc) hs) hs

theorem State.setSess_within {cs s0} {s n x} (hc : [.sess] ⊆ cs) (hs : Within cs s0 s) :
    Within cs s0 (State.setSess s n x) := by
  unfold State.setSess
  exact Within.put_hst_sess (sub hc) hs

theorem postOne_within {cs s0} {s n c status res} (hc : [.regs, .offers, .sess, .inkwell, .msix] ⊆ cs) (hs : Within cs s0 s) :
    Within cs s0 (postOne s n c status res) := by
  unfold postOne
  extract_lets +onlyGivenNames -merge -underBinder x
  refine Within.ite ?_ hs
  extract_lets +onlyGivenNames -merge -underBinder phase
  extract_lets +onlyGivenNames -merge -underBinder s1
  have hs1 : Within cs s0 s1 := State.inkWrite_within (sub hc) hs
  clear_value s1
  extract_lets +onlyGivenNames -merge -underBinder s2
  have hs2 : Within cs s0 s2 := State.setSess_within (sub hc) hs1
  clear_value s2
  extract_lets +onlyGivenNames -merge -underBinder s3
  have hs3 : Within cs s0 s3 := State.incW_within (sub hc) (State.noteInflight_within (sub hc) hs2)
  clear_value s3
  extract_lets +onlyGivenNames -merge -underBinder s4
  have hs4 : Within cs s0 s4 := Within.ite (State.incS_within (sub hc) hs3) hs3
  clear_value s4
  extract_lets +onlyGivenNames -merge -underBinder s5
  have hs5 : Within cs s0 s5 := Within.ite (State.log_within (sub hc) hs4) hs4
  clear_value s5
  exact Within.ite hs5 (State.irq_within (sub hc) hs5)

theorem settleHeads_within {cs s0} {n x s} (hc : [.regs, .offers, .sess, .inkwell, .msix] ⊆ cs) (hs : Within cs s0 s) :
    Within cs s0 (settleHeads n x s) := by
  induction x generalizing n s with
  | zero =>
    rw [settleHeads]
    exact hs
  | succ k ih =>
    rw [settleHeads]
    split
    · split
      · exact Within.ite (ih (postOne_within (sub hc) hs)) hs
      · exact hs
    · exact hs

theorem post_within {cs s0} {s n c status res} (hc : [.regs, .offers, .sess, .inkwell, .msix] ⊆ cs) (hs : Within cs s0 s) :
    Within cs s0 (post s n c status res) := by
  unfold post
  exact settleHeads_within (sub hc) (postOne_within (sub hc) hs)

theorem postHead_within {cs s0} {s n head status res} (hc : [.regs, .offers, .sess, .inkwell, .msix] ⊆ cs) (hs : Within cs s0 s) :
    Within cs s0 (postHead s n head status res) := by
  unfold postHead
  split
  · exact post_within (sub hc) hs
  · exact hs

theorem refuse_within {cs s0} {s status} (_hc : [] ⊆ cs) (hs : Within cs s0 s) :
    Within cs s0 (refuse s status).s := by
  unfold refuse
  exact hs

theorem okay_within {cs s0} {s res} (_hc : [] ⊆ cs) (hs : Within cs s0 s) :
    Within cs s0 (okay s res).s := by
  unfold okay
  exact hs

theorem goesOn_within {cs s0} {s} (_hc : [] ⊆ cs) (hs : Within cs s0 s) :
    Within cs s0 (goesOn s).s := by
  unfold goesOn
  exact hs

theorem modeTaken_within {cs s0} {s fn inst} (hc : [.regs, .offers, .sess, .inkwell, .msix, .modePend] ⊆ cs) (hs : Within cs s0 s) :
    Within cs s0 (modeTaken s fn inst) := by
  unfold modeTaken
  split
  · extract_lets +onlyGivenNames -merge -underBinder w s1
    have hs1 : Within cs s0 s1 := Within.put_sys_modePend (sub hc) hs
    clear_value s1
    exact postHead_within (sub hc) hs1
  · exact hs

theorem markStarted_within {cs s0} {s n c} (hc : [.sess] ⊆ cs) (hs : Within cs s0 s) :
    Within cs s0 (markStarted s n c) := by
  unfold markStarted
  extract_lets +onlyGivenNames -merge -underBinder x
  exact State.setSess_within (sub hc) hs

theorem startCmd_within {cs s0} {s n c body} (hc : [.regs, .offers, .sess, .inkwell, .msix] ⊆ cs) (hs : Within cs s0 s) (hbody : ∀ y0, Within cs s0 y0 → ∀ y1, Within cs s0 (body y0 y1).s) :
    Within cs s0 (startCmd s n c body) := by
  unfold startCmd
  extract_lets +onlyGivenNames -merge -underBinder s1
  have hs1 : Within cs s0 s1 := markStarted_within (sub hc) hs
  clear_value s1
  split
  · exact post_within (sub hc) hs1
  · refine Within.ite (post_within (sub hc) hs1) ?_
    extract_lets +onlyGivenNames -merge -underBinder r
    have hr : Within cs s0 r.s := hbody _ hs1 _
    clear_value r
    exact Within.ite (post_within (sub hc) hr) (settleHeads_within (sub hc) hr)

theorem runWhen_within {cs s0} {s n op p body} (hc : [.regs, .offers, .sess, .inkwell, .msix] ⊆ cs) (hs : Within cs s0 s) (hbody : ∀ y0, Within cs s0 y0 → ∀ y1, Within cs s0 (body y0 y1).s) :
    Within cs s0 (runWhen s n op p body) := by
  unfold runWhen
  split
  · exact Within.ite (startCmd_within (sub hc) hs (fun t ht t_1 => hbody _ ht _)) hs
  · exact hs

theorem runCmd_within {cs s0} {s n op body} (hc : [.regs, .offers, .sess, .inkwell, .msix] ⊆ cs) (hs : Within cs s0 s) (hbody : ∀ y0, Within cs s0 y0 → ∀ y1, Within cs s0 (body y0 y1).s) :
    Within cs s0 (runCmd s n op body) := by
  unfold runCmd
  exact runWhen_within (sub hc) hs (fun t ht t_1 => hbody _ ht _)

theorem putCmd_within {cs s0} {s n c} (hc : [.sess] ⊆ cs) (hs : Within cs s0 s) :
    Within cs s0 (putCmd s n c) := by
  unfold putCmd
  exact State.setSess_within (sub hc) hs

theorem issueReads_within {cs s0} {x s} (hc : [.sess, .hst] ⊆ cs) (hs : Within cs s0 s) :
    Within cs s0 (issueReads x s) := by
  induction x generalizing s with
  | zero =>
    rw [issueReads]
    exact hs
  | succ k ih =>
    rw [issueReads]
    refine Within.ite hs ?_
    split
    · extract_lets +onlyGivenNames -merge -underBinder len
      extract_lets +onlyGivenNames -merge -underBinder t
      have ht : Within cs s0 t := putCmd_within (sub hc) hs
      clear_value t
      exact ih (Within.put_hst_readTurn (sub hc) ht)
    · exact hs

theorem takeSeq_within {cs s0} {s pair} (hc : [.pair] ⊆ cs) (hs : Within cs s0 s) :
    Within cs s0 (takeSeq s pair).1 := by
  unfold takeSeq
  extract_lets +onlyGivenNames -merge -underBinder x
  exact Within.put_pbi_pair (sub hc) hs

theorem sendPtp_within {cs s0} {s p m at'} (hc : [.regs, .port, .pair] ⊆ cs) (hs : Within cs s0 s) :
    Within cs s0 (sendPtp s p m at') := by
  unfold sendPtp
  extract_lets +onlyGivenNames -merge -underBinder len
  refine Within.ite ?_ (State.enqueue_within (sub hc) hs)
  extract_lets +onlyGivenNames -merge -underBinder t
  have ht : Within cs s0 t.1 := takeSeq_within (sub hc) hs
  clear_value t
  exact Within.foldl ht (fun t_1 a ht_1 => Within.ite (State.enqueue_within (sub hc) ht_1) ht_1)

end Sys2Proof.Machine
end

