-- ==== Sys2Proof/Laws/Access.lean ====
section
/-! SUPPORT. What each operation of Machine/Access.lean can change: one lemma per operation, cited in place of unfolding it. -/

namespace Sys2Proof.Machine

set_option Elab.async false

theorem directAccepted_within {cs s0} {s} (hc : [.hst] ⊆ cs) (hs : Within cs s0 s) :
    Within cs s0 (directAccepted s) := by
  unfold directAccepted
  exact Within.put_hst_directRej (sub hc) hs

theorem directRejected_within {cs s0} {s addr r} (hc : [.regs, .offers, .hst] ⊆ cs) (hs : Within cs s0 s) :
    Within cs s0 (directRejected s addr r) := by
  unfold directRejected
  extract_lets +onlyGivenNames -merge -underBinder s1
  have hs1 : Within cs s0 s1 := State.incS_within (sub hc) hs
  clear_value s1
  exact Within.ite hs1 (State.log_within (sub hc) (Within.put_hst_directRej (sub hc) hs1))

theorem gate_within {cs s0} {s a addr rwp k} (hc : [.regs, .offers, .hst] ⊆ cs) (hs : Within cs s0 s) (hk : ∀ y0, Within cs s0 y0 → Within cs s0 (k y0)) :
    Within cs s0 (gate s a addr rwp k) := by
  unfold gate
  refine Within.ite hs ?_
  split
  · exact Within.ite hs (Within.ite (hk _ (directAccepted_within (sub hc) hs)) (directRejected_within (sub hc) hs))
  · exact Within.ite hs (hk _ hs)
  · exact hs

end Sys2Proof.Machine
end

