-- ==== Sys2Proof/Laws/NibBase.lean ====
section
/-! SUPPORT. What each operation of Machine/NibBase.lean can change: one lemma per operation, cited in place of unfolding it. -/

namespace Sys2Proof.Machine

set_option Elab.async false

theorem State.setEng_within {cs s0} {s e x} (hc : [.eng] ⊆ cs) (hs : Within cs s0 s) :
    Within cs s0 (State.setEng s e x) := by
  unfold State.setEng
  exact Within.put_nib_eng (sub hc) hs

theorem State.setNc_within {cs s0} {s c x} (hc : [.nc] ⊆ cs) (hs : Within cs s0 s) :
    Within cs s0 (State.setNc s c x) := by
  unfold State.setNc
  exact Within.put_nib_nc (sub hc) hs

theorem State.setSc_within {cs s0} {s n x} (hc : [.sc] ⊆ cs) (hs : Within cs s0 s) :
    Within cs s0 (State.setSc s n x) := by
  unfold State.setSc
  exact Within.put_pbi_sc (sub hc) hs

theorem outputDue_within {cs s0} {s c w} (hc : [.eng] ⊆ cs) (hs : Within cs s0 s) :
    Within cs s0 (outputDue s c w) := by
  unfold outputDue
  extract_lets +onlyGivenNames -merge -underBinder x
  exact State.setEng_within (sub hc) hs

theorem svcEntered_within {cs s0} {s c svc} (hc : [.offers, .nc] ⊆ cs) (hs : Within cs s0 s) :
    Within cs s0 (svcEntered s c svc) := by
  unfold svcEntered
  exact State.log_within (sub hc) (State.setNc_within (sub hc) hs)

theorem creditStart_within {cs s0} {s sc c inst} (hc : [.sc] ⊆ cs) (hs : Within cs s0 s) :
    Within cs s0 (creditStart s sc c inst) := by
  unfold creditStart
  extract_lets +onlyGivenNames -merge -underBinder x
  exact State.setSc_within (sub hc) hs

theorem enqueueEval_within {cs s0} {s q} (hc : [.regs, .eng] ⊆ cs) (hs : Within cs s0 s) :
    Within cs s0 (enqueueEval s q) := by
  unfold enqueueEval
  extract_lets +onlyGivenNames -merge -underBinder e
  extract_lets +onlyGivenNames -merge -underBinder x
  extract_lets +onlyGivenNames -merge -underBinder s1
  have hs1 : Within cs s0 s1 := State.setEng_within (sub hc) hs
  clear_value s1
  exact State.maxF_within (sub hc) hs1

theorem linkUnsent_within {cs s0} {s sc} (hc : [.regs, .dl] ⊆ cs) (hs : Within cs s0 s) :
    Within cs s0 (linkUnsent s sc) := by
  unfold linkUnsent
  refine Within.foldl hs (fun t a ht => ?_)
  refine Within.ite ?_ ht
  extract_lets +onlyGivenNames -merge -underBinder x
  extract_lets +onlyGivenNames -merge -underBinder t1
  have ht1 : Within cs s0 t1 := Within.ite (State.incS_within (sub hc) ht) ht
  clear_value t1
  exact Within.put_duc_dl (sub hc) ht1

theorem sampleSetComplete_within {cs s0} {s sc} (hc : [.regs, .sc, .eng, .dl] ⊆ cs) (hs : Within cs s0 s) :
    Within cs s0 (sampleSetComplete s sc) := by
  unfold sampleSetComplete
  extract_lets +onlyGivenNames -merge -underBinder x
  split
  · refine Within.ite hs ?_
    extract_lets +onlyGivenNames -merge -underBinder cs_1
    extract_lets +onlyGivenNames -merge -underBinder s1
    have hs1 : Within cs s0 s1 := State.setSc_within (sub hc) (linkUnsent_within (sub hc) hs)
    clear_value s1
    exact Within.foldl hs1 (fun t a ht => enqueueEval_within (sub hc) ht)
  · exact hs

theorem twvRelease_within {cs s0} {s ev} (hc : [.regs, .eng] ⊆ cs) (hs : Within cs s0 s) :
    Within cs s0 (twvRelease s ev) := by
  unfold twvRelease
  exact Within.foldl hs (fun t a ht => enqueueEval_within (sub hc) ht)

theorem wavefrontSend_within {cs s0} {s k} (hc : [.regs, .wd, .eng] ⊆ cs) (hs : Within cs s0 s) :
    Within cs s0 (wavefrontSend s k) := by
  unfold wavefrontSend
  refine Within.foldl hs (fun t a ht => ?_)
  refine Within.ite ?_ ht
  extract_lets +onlyGivenNames -merge -underBinder x
  exact twvRelease_within (sub hc) (Within.put_afe_wd (sub hc) ht)

end Sys2Proof.Machine
end

