-- ==== Sys2Proof/Laws/Commit.lean ====
section
/-! SUPPORT. What each operation of Machine/Commit.lean can change: one lemma per operation, cited in place of unfolding it. -/

namespace Sys2Proof.Machine

set_option Elab.async false

theorem liveWord_within {cs s0} {s key v} (hc : [.regs, .live] ⊆ cs) (hs : Within cs s0 s) :
    Within cs s0 (liveWord s key v) := by
  unfold liveWord
  exact Within.ite (Within.put_nib_live (sub hc) hs) (State.wr_within (sub hc) hs)

theorem commitSettled_within {cs s0} {s} (hc : [.regs, .offers, .sess, .inkwell, .msix, .commit] ⊆ cs) (hs : Within cs s0 s) :
    Within cs s0 (commitSettled s) := by
  unfold commitSettled
  split
  · refine Within.ite ?_ hs
    extract_lets +onlyGivenNames -merge -underBinder w s1
    have hs1 : Within cs s0 s1 := Within.put_sys_commit (sub hc) hs
    clear_value s1
    exact postHead_within (sub hc) (State.setB_within (sub hc) (State.setB_within (sub hc) hs1))
  · exact hs

theorem takeCommit_within {cs s0} {s lo n} (hc : [.regs, .offers, .sess, .inkwell, .msix, .live, .committing, .commit] ⊆ cs) (hs : Within cs s0 s) :
    Within cs s0 (takeCommit s lo n) := by
  unfold takeCommit
  extract_lets +onlyGivenNames -merge -underBinder mine
  refine Within.ite hs ?_
  extract_lets +onlyGivenNames -merge -underBinder w s1
  have hs1 : Within cs s0 s1 := Within.put_sys_committing (sub hc) hs
  clear_value s1
  refine commitSettled_within (sub hc) ?_
  refine Within.foldl hs1 (fun t a ht => ?_)
  split
  · exact liveWord_within (sub hc) ht
  · exact ht

end Sys2Proof.Machine
end

