-- ==== Sys2Proof/Laws/Publish.lean ====
section
/-! SUPPORT. What each operation of Machine/Publish.lean can change: one lemma per operation, cited in place of unfolding it. -/

namespace Sys2Proof.Machine

set_option Elab.async false

theorem sendPair_within {cs s0} {s p prio len b} (hc : [.regs, .port, .pair] ⊆ cs) (hs : Within cs s0 s) :
    Within cs s0 (sendPair s p prio len b) := by
  unfold sendPair
  refine Within.ite hs ?_
  extract_lets +onlyGivenNames -merge -underBinder t
  have ht : Within cs s0 t.1 := takeSeq_within (sub hc) hs
  clear_value t
  exact Within.foldl ht (fun t_1 a ht_1 => Within.ite (State.enqueue_within (sub hc) ht_1) ht_1)

theorem sendPairs_within {cs s0} {s mask prio len b} (hc : [.regs, .port, .pair] ⊆ cs) (hs : Within cs s0 s) :
    Within cs s0 (sendPairs s mask prio len b) := by
  unfold sendPairs
  exact Within.foldl hs (fun t a ht => sendPair_within (sub hc) ht)

theorem publishSv_within {cs s0} {s st tick x} (hc : [.regs, .offers, .sess, .inkwell, .msix, .port, .pair, .live, .committing, .commit] ⊆ cs) (hs : Within cs s0 s) :
    Within cs s0 (publishSv s st tick x) := by
  unfold publishSv
  refine Within.ite ?_ hs
  refine Within.foldl hs (fun t a ht => ?_)
  extract_lets +onlyGivenNames -merge -underBinder t_1
  have ht_1 : Within cs s0 t_1 := takeCommit_within (sub hc) ht
  clear_value t_1
  refine Within.ite ?_ ht_1
  extract_lets +onlyGivenNames -merge -underBinder u
  have hu : Within cs s0 u := sendPairs_within (sub hc) ht_1
  clear_value u
  exact State.incW_within (sub hc) hu

end Sys2Proof.Machine
end

