-- ==== Sys2Proof/Laws/Sequence.lean ====
section
/-! SUPPORT. What each operation of Machine/Sequence.lean can change: one lemma per operation, cited in place of unfolding it. -/

namespace Sys2Proof.Machine

set_option Elab.async false

theorem latchMap_within {cs s0} {s tick} (hc : [.afe] ⊆ cs) (hs : Within cs s0 s) :
    Within cs s0 (latchMap s tick) := by
  unfold latchMap
  extract_lets +onlyGivenNames -merge -underBinder e
  exact Within.put_afe_map (sub hc) hs

end Sys2Proof.Machine
end

