-- ==== Sys2Proof/Laws/MemBase.lean ====
section
/-! SUPPORT. What each operation of Machine/MemBase.lean can change: one lemma per operation, cited in place of unfolding it. -/

namespace Sys2Proof.Machine

set_option Elab.async false

theorem State.setMem_within {cs s0} {s m} (hc : [.sweep, .fuse, .mem] ⊆ cs) (hs : Within cs s0 s) :
    Within cs s0 (State.setMem s m) := by
  unfold State.setMem
  exact Within.upd (s := s) (t := { s with mem := _ }) hs (fun c => by cases c <;> first | exact .inl (hc (by decide)) | exact .inr rfl) (fun h => ⟨h.1, h.2.1, h.2.2⟩)

theorem memUe_within {cs s0} {s l} (hc : [.regs, .offers, .msix] ⊆ cs) (hs : Within cs s0 s) :
    Within cs s0 (memUe s l) := by
  unfold memUe
  extract_lets +onlyGivenNames -merge -underBinder s1
  have hs1 : Within cs s0 s1 := State.incS_within (sub hc) (State.health_within (sub hc) hs)
  clear_value s1
  extract_lets +onlyGivenNames -merge -underBinder s2
  have hs2 : Within cs s0 s2 := State.setFs_within (sub hc) hs1
  clear_value s2
  exact State.log_within (sub hc) hs2

theorem suspectRow_within {cs s0} {s dram bank row} (hc : [.offers, .mem] ⊆ cs) (hs : Within cs s0 s) :
    Within cs s0 (suspectRow s dram bank row) := by
  unfold suspectRow
  extract_lets +onlyGivenNames -merge -underBinder s1
  have hs1 : Within cs s0 s1 := State.log_within (sub hc) hs
  clear_value s1
  extract_lets +onlyGivenNames -merge -underBinder used
  extract_lets +onlyGivenNames -merge -underBinder running
  clear_value running
  split
  · exact hs1
  · exact Within.ite (Within.put_mem_repairing (sub hc) hs1) (Within.ite hs1 (State.log_within (sub hc) (Within.put_mem_exhausted (sub hc) hs1)))
  · exact Within.ite hs1 (State.log_within (sub hc) (Within.put_mem_exhausted (sub hc) hs1))

theorem memCe_within {cs s0} {s l} (hc : [.regs, .offers, .mem] ⊆ cs) (hs : Within cs s0 s) :
    Within cs s0 (memCe s l) := by
  unfold memCe
  extract_lets +onlyGivenNames -merge -underBinder s1
  have hs1 : Within cs s0 s1 := State.log_within (sub hc) (State.incW_within (sub hc) hs)
  clear_value s1
  refine Within.ite hs1 ?_
  extract_lets +onlyGivenNames -merge -underBinder k
  extract_lets +onlyGivenNames -merge -underBinder r
  extract_lets +onlyGivenNames -merge -underBinder w s2
  have hs2 : Within cs s0 s2 := Within.put_mem_track (sub hc) hs1
  clear_value s2
  exact Within.ite (suspectRow_within (sub hc) hs2) hs2

theorem memNote_within {cs s0} {s e} (hc : [.regs, .offers, .msix, .mem] ⊆ cs) (hs : Within cs s0 s) :
    Within cs s0 (memNote s e) := by
  unfold memNote
  split
  · exact hs
  · exact memCe_within (sub hc) hs
  · exact memUe_within (sub hc) hs
  · exact memUe_within (sub hc) hs

theorem oosHealth_within {cs s0} {s} (hc : [.regs, .msix] ⊆ cs) (hs : Within cs s0 s) :
    Within cs s0 (oosHealth s) := by
  unfold oosHealth
  exact State.health_within (sub hc) hs

theorem softRepairDone_within {cs s0} {s} (hc : [.regs, .offers, .mem] ⊆ cs) (hs : Within cs s0 s) :
    Within cs s0 (softRepairDone s) := by
  unfold softRepairDone
  split
  · extract_lets +onlyGivenNames -merge -underBinder w s1
    have hs1 : Within cs s0 s1 := Within.put_mem_repairing (sub hc) hs
    clear_value s1
    extract_lets +onlyGivenNames -merge -underBinder s2
    have hs2 : Within cs s0 s2 := State.setFs_within (sub hc) hs1
    clear_value s2
    exact State.log_within (sub hc) hs2
  · exact hs

end Sys2Proof.Machine
end

