-- ==== Sys2Proof/Laws/Script.lean ====
section
/-! SUPPORT. What each operation of Machine/Script.lean can change: one lemma per operation, cited in place of unfolding it. -/

namespace Sys2Proof.Machine

set_option Elab.async false

theorem State.setScr_within {cs s0} {s x} (hc : [.offers, .freeze, .scr] ⊆ cs) (hs : Within cs s0 s) :
    Within cs s0 (State.setScr s x) := by
  unfold State.setScr
  exact Within.upd (s := s) (t := { s with scr := _ }) hs (fun c => by cases c <;> first | exact .inl (hc (by decide)) | exact .inr rfl) (fun h => ⟨h.1, h.2.1, h.2.2⟩)

theorem noteOldest_within {cs s0} {s} (hc : [.regs] ⊆ cs) (hs : Within cs s0 s) :
    Within cs s0 (noteOldest s) := by
  unfold noteOldest
  extract_lets +onlyGivenNames -merge -underBinder ps
  clear_value ps
  split
  · exact State.setF_within (sub hc) hs
  · exact State.setF_within (sub hc) hs

theorem afterCommit_within {cs s0} {s r} (hc : [.regs, .scr, .msix] ⊆ cs) (hs : Within cs s0 s) :
    Within cs s0 (afterCommit s r) := by
  unfold afterCommit
  extract_lets +onlyGivenNames -merge -underBinder s1
  have hs1 : Within cs s0 s1 := State.setF_within (sub hc) hs
  clear_value s1
  extract_lets +onlyGivenNames -merge -underBinder w s2
  have hs2 : Within cs s0 s2 := Within.put_scr_lossPend (sub hc) hs1
  clear_value s2
  extract_lets +onlyGivenNames -merge -underBinder s3
  have hs3 : Within cs s0 s3 := noteOldest_within (sub hc) hs2
  clear_value s3
  exact Within.ite (State.irq_within (sub hc) hs3) hs3

theorem dropRec_within {cs s0} {s r} (hc : [.regs, .scr] ⊆ cs) (hs : Within cs s0 s) :
    Within cs s0 (dropRec s r) := by
  unfold dropRec
  extract_lets +onlyGivenNames -merge -underBinder s1
  have hs1 : Within cs s0 s1 := State.incW_within (sub hc) hs
  clear_value s1
  exact Within.put_scr_lossPend (sub hc) hs1

theorem noteHold_within {cs s0} {s} (hc : [.regs] ⊆ cs) (hs : Within cs s0 s) :
    Within cs s0 (noteHold s) := by
  unfold noteHold
  exact State.setF_within (sub hc) hs

theorem noteIntake_within {cs s0} {s} (hc : [.regs] ⊆ cs) (hs : Within cs s0 s) :
    Within cs s0 (noteIntake s) := by
  unfold noteIntake
  extract_lets +onlyGivenNames -merge -underBinder u
  exact State.maxF_within (sub hc) (State.setF_within (sub hc) hs)

theorem scriptStart_within {cs s0} {s} (hc : [.regs, .offers, .freeze, .scr] ⊆ cs) (hs : Within cs s0 s) :
    Within cs s0 (scriptStart s) := by
  unfold scriptStart
  extract_lets +onlyGivenNames -merge -underBinder n
  extract_lets +onlyGivenNames -merge -underBinder s1
  have hs1 : Within cs s0 s1 := State.incS_within (sub hc) hs
  clear_value s1
  extract_lets +onlyGivenNames -merge -underBinder w s2
  have hs2 : Within cs s0 s2 := Within.put_scr_offers_intake_holding_freeze_buckets_supp_lossPend_frzDrops (sub hc) hs1
  clear_value s2
  exact noteHold_within (sub hc) (noteIntake_within (sub hc) (State.setB_within (sub hc) hs2))

theorem toMargin_within {cs s0} {s r flags} (hc : [.regs, .scr, .msix] ⊆ cs) (hs : Within cs s0 s) :
    Within cs s0 (toMargin s r flags) := by
  unfold toMargin
  extract_lets +onlyGivenNames -merge -underBinder c
  extract_lets +onlyGivenNames -merge -underBinder r1
  extract_lets +onlyGivenNames -merge -underBinder fits
  clear_value fits
  extract_lets +onlyGivenNames -merge -underBinder at'
  extract_lets +onlyGivenNames -merge -underBinder m
  refine Within.ite ?_ (dropRec_within (sub hc) (Within.upd (s := s.setB Reg.SCR_STAT_MARGIN_FULL true) (t := { s.setB Reg.SCR_STAT_MARGIN_FULL true with scr := _ }) (State.setB_within (sub hc) hs) (fun c => by cases c <;> first | exact .inl (hc (by decide)) | exact .inr rfl) (fun h => ⟨h.1, h.2.1, h.2.2⟩)))
  extract_lets +onlyGivenNames -merge -underBinder new
  extract_lets +onlyGivenNames -merge -underBinder p
  exact afterCommit_within (sub hc) (Within.upd (s := s) (t := { s with scr := _ }) hs (fun c => by cases c <;> first | exact .inl (hc (by decide)) | exact .inr rfl) (fun h => ⟨h.1, h.2.1, h.2.2⟩))

theorem openPageFor_within {cs s0} {s i r flags} (hc : [.regs, .scr, .msix] ⊆ cs) (hs : Within cs s0 s) :
    Within cs s0 (openPageFor s i r flags) := by
  unfold openPageFor
  extract_lets +onlyGivenNames -merge -underBinder r1
  exact afterCommit_within (sub hc) (Within.put_scr_pages_openPage_nextPseq (sub hc) hs)

theorem place_within {cs s0} {s r flags} (hc : [.regs, .scr, .msix] ⊆ cs) (hs : Within cs s0 s) :
    Within cs s0 (place s r flags) := by
  unfold place
  refine Within.ite (toMargin_within (sub hc) hs) ?_
  extract_lets +onlyGivenNames -merge -underBinder fit
  clear_value fit
  split
  · extract_lets +onlyGivenNames -merge -underBinder r1
    exact afterCommit_within (sub hc) (Within.put_scr_pages (sub hc) hs)
  · extract_lets +onlyGivenNames -merge -underBinder s1
    have hs1 : Within cs s0 s1 := by
      unfold s1
      split
      · exact Within.put_scr_pages_openPage (sub hc) hs
      · exact hs
    clear_value s1
    split
    · exact openPageFor_within (sub hc) (State.setF_within (sub hc) hs1)
    · split
      · exact openPageFor_within (sub hc) hs1
      · exact Within.ite (toMargin_within (sub hc) hs1) (dropRec_within (sub hc) hs1)

theorem endFreeze_within {cs s0} {s} (hc : [.regs, .freeze, .scr, .msix] ⊆ cs) (hs : Within cs s0 s) :
    Within cs s0 (endFreeze s) := by
  unfold endFreeze
  extract_lets +onlyGivenNames -merge -underBinder held
  extract_lets +onlyGivenNames -merge -underBinder w s1
  have hs1 : Within cs s0 s1 := State.setB_within (sub hc) (Within.put_scr_holding_freeze_frzDrops (sub hc) hs)
  clear_value s1
  exact noteHold_within (sub hc) (Within.foldl hs1 (fun t a ht => place_within (sub hc) ht))

theorem freezeSessionClosed_within {cs s0} {s n} (hc : [.regs, .freeze, .scr, .msix] ⊆ cs) (hs : Within cs s0 s) :
    Within cs s0 (freezeSessionClosed s n) := by
  unfold freezeSessionClosed
  split
  · exact Within.ite (endFreeze_within (sub hc) hs) hs
  · exact hs

theorem logPageFail_within {cs s0} {s offset} (hc : [.regs, .offers, .scr, .msix] ⊆ cs) (hs : Within cs s0 s) :
    Within cs s0 (logPageFail s offset) := by
  unfold logPageFail
  extract_lets +onlyGivenNames -merge -underBinder i
  refine Within.ite ?_ (State.health_within (sub hc) (State.setB_within (sub hc) hs))
  extract_lets +onlyGivenNames -merge -underBinder p
  extract_lets +onlyGivenNames -merge -underBinder s0_1
  have hs0_1 : Within cs s0 s0_1 := Within.ite (State.setF_within (sub hc) hs) hs
  clear_value s0_1
  extract_lets +onlyGivenNames -merge -underBinder s1
  have hs1 : Within cs s0 s1 := Within.ite hs0_1 (State.incW_within (sub hc) hs0_1)
  clear_value s1
  extract_lets +onlyGivenNames -merge -underBinder w s2
  have hs2 : Within cs s0 s2 := Within.put_scr_pages_openPage (sub hc) hs1
  clear_value s2
  exact State.log_within (sub hc) (noteOldest_within (sub hc) hs2)

theorem blot_within {cs s0} {s n} (hc : [.regs, .offers, .freeze, .scr, .sess, .inkwell, .msix] ⊆ cs) (hs : Within cs s0 s) :
    Within cs s0 (blot s n) := by
  unfold blot
  refine runCmd_within (sub hc) hs (fun s_1 hs_1 c => ?_)
  extract_lets +onlyGivenNames -merge -underBinder tmo
  refine Within.iteS (refuse_within (sub hc) hs_1) ?_
  refine Within.iteS (refuse_within (sub hc) hs_1) ?_
  refine Within.iteS (refuse_within (sub hc) hs_1) ?_
  extract_lets +onlyGivenNames -merge -underBinder ms
  exact okay_within (sub hc) (State.setB_within (sub hc) (Within.put_scr_freeze_frzDrops (sub hc) hs_1))

theorem blotTimeout_within {cs s0} {s} (hc : [.regs, .offers, .freeze, .scr, .msix] ⊆ cs) (hs : Within cs s0 s) :
    Within cs s0 (blotTimeout s) := by
  unfold blotTimeout
  split
  · exact Within.ite (endFreeze_within (sub hc) (State.log_within (sub hc) hs)) hs
  · exact hs

theorem suppress_within {cs s0} {s r} (hc : [.regs, .scr] ⊆ cs) (hs : Within cs s0 s) :
    Within cs s0 (suppress s r) := by
  unfold suppress
  extract_lets +onlyGivenNames -merge -underBinder s1
  have hs1 : Within cs s0 s1 := State.incW_within (sub hc) hs
  clear_value s1
  extract_lets +onlyGivenNames -merge -underBinder e
  exact Within.put_scr_supp_lossPend (sub hc) hs1

theorem takeToken_within {cs s0} {s r} (hc : [.scr] ⊆ cs) (hs : Within cs s0 s) :
    Within cs s0 (takeToken s r) := by
  unfold takeToken
  exact Within.ite hs (Within.put_scr_buckets (sub hc) hs)

theorem makeRoom_within {cs s0} {r x s} (hc : [.regs, .scr] ⊆ cs) (hs : Within cs s0 s) :
    Within cs s0 (makeRoom r x s) := by
  induction x generalizing r s with
  | zero =>
    rw [makeRoom]
    exact hs
  | succ k ih =>
    rw [makeRoom]
    refine Within.ite hs ?_
    extract_lets +onlyGivenNames -merge -underBinder lo
    refine Within.ite ?_ hs
    split
    · exact ih (dropRec_within (sub hc) (Within.put_scr_intake (sub hc) hs))
    · exact hs

theorem enterIntake_within {cs s0} {s r} (hc : [.regs, .scr] ⊆ cs) (hs : Within cs s0 s) :
    Within cs s0 (enterIntake s r) := by
  unfold enterIntake
  extract_lets +onlyGivenNames -merge -underBinder s1
  have hs1 : Within cs s0 s1 := makeRoom_within (sub hc) hs
  clear_value s1
  exact Within.ite (noteIntake_within (sub hc) (Within.put_scr_intake (sub hc) hs1)) (noteIntake_within (sub hc) (dropRec_within (sub hc) hs1))

theorem offerChecks_within {cs s0} {s r} (hc : [.regs, .scr] ⊆ cs) (hs : Within cs s0 s) :
    Within cs s0 (offerChecks s r) := by
  unfold offerChecks
  exact Within.ite (State.incS_within (sub hc) hs) (Within.ite (enterIntake_within (sub hc) (takeToken_within (sub hc) hs)) (suppress_within (sub hc) hs))

theorem scriptOffer_within {cs s0} {s dump} (hc : [.freeCtr, .regs, .offers, .scr] ⊆ cs) (hs : Within cs s0 s) :
    Within cs s0 (scriptOffer s dump) := by
  unfold scriptOffer
  split
  · extract_lets +onlyGivenNames -merge -underBinder words
    extract_lets +onlyGivenNames -merge -underBinder body
    extract_lets +onlyGivenNames -merge -underBinder r
    exact offerChecks_within (sub hc) (Within.upd (s := s) (t := { s with freeCtr := _ }) hs (fun c => by cases c <;> first | exact .inl (hc (by decide)) | exact .inr rfl) (fun h => ⟨h.1, h.2.1, h.2.2⟩))
  · split
    · exact offerChecks_within (sub hc) (Within.put_scr_offers (sub hc) hs)
    · exact hs

theorem logReadBody_within {cs s0} {s c} (hc : [.dram] ⊆ cs) (hs : Within cs s0 s) :
    Within cs s0 (logReadBody s c).s := by
  unfold logReadBody
  extract_lets +onlyGivenNames -merge -underBinder src
  extract_lets +onlyGivenNames -merge -underBinder off
  extract_lets +onlyGivenNames -merge -underBinder maxb
  refine Within.iteS (refuse_within (sub hc) hs) ?_
  extract_lets +onlyGivenNames -merge -underBinder rs
  extract_lets +onlyGivenNames -merge -underBinder bs
  exact okay_within (sub hc) (State.dramWrite_within (sub hc) hs)

theorem logRead_within {cs s0} {s n e} (hc : [.regs, .offers, .scr, .sess, .inkwell, .dram, .msix, .mem] ⊆ cs) (hs : Within cs s0 s) :
    Within cs s0 (logRead s n e) := by
  unfold logRead
  refine runCmd_within (sub hc) hs (fun t ht c => ?_)
  extract_lets +onlyGivenNames -merge -underBinder t1
  have ht1 : Within cs s0 t1 := memNote_within (sub hc) ht
  clear_value t1
  split
  · exact logReadBody_within (sub hc) (logPageFail_within (sub hc) ht1)
  · exact logReadBody_within (sub hc) ht1

theorem scriptCommit_within {cs s0} {s} (hc : [.regs, .offers, .freeze, .scr, .msix] ⊆ cs) (hs : Within cs s0 s) :
    Within cs s0 (scriptCommit s) := by
  unfold scriptCommit
  split
  · extract_lets +onlyGivenNames -merge -underBinder w s1
    have hs1 : Within cs s0 s1 := noteIntake_within (sub hc) (Within.put_scr_commitAt_intake (sub hc) hs)
    clear_value s1
    refine Within.ite ?_ (place_within (sub hc) hs1)
    refine Within.ite (noteHold_within (sub hc) (Within.put_scr_holding (sub hc) hs1)) ?_
    refine Within.ite ?_ ?_
    · extract_lets +onlyGivenNames -merge -underBinder s2
      have hs2 : Within cs s0 s2 := dropRec_within (sub hc) hs1
      clear_value s2
      exact Within.put_scr_frzDrops (sub hc) hs2
    · extract_lets +onlyGivenNames -merge -underBinder n
      extract_lets +onlyGivenNames -merge -underBinder d
      extract_lets +onlyGivenNames -merge -underBinder s2
      have hs2 : Within cs s0 s2 := place_within (sub hc) (endFreeze_within (sub hc) hs1)
      clear_value s2
      exact State.log_within (sub hc) (State.setB_within (sub hc) hs2)
  · exact hs

theorem suppressedDue_within {cs s0} {s code} (hc : [.offers, .scr] ⊆ cs) (hs : Within cs s0 s) :
    Within cs s0 (suppressedDue s code) := by
  unfold suppressedDue
  split
  · extract_lets +onlyGivenNames -merge -underBinder ends
    extract_lets +onlyGivenNames -merge -underBinder due
    refine Within.ite ?_ hs
    extract_lets +onlyGivenNames -merge -underBinder s1
    have hs1 : Within cs s0 s1 := Within.ite hs (State.offer_within (sub hc) hs)
    clear_value s1
    exact Within.put_scr_supp (sub hc) hs1
  · exact hs

theorem unblot_within {cs s0} {s n} (hc : [.regs, .offers, .freeze, .scr, .sess, .inkwell, .msix] ⊆ cs) (hs : Within cs s0 s) :
    Within cs s0 (unblot s n) := by
  unfold unblot
  refine runCmd_within (sub hc) hs (fun s_1 hs_1 c => ?_)
  refine Within.iteS (refuse_within (sub hc) hs_1) ?_
  refine Within.iteS (refuse_within (sub hc) hs_1) ?_
  split
  · exact Within.iteS (refuse_within (sub hc) hs_1) (okay_within (sub hc) (endFreeze_within (sub hc) hs_1))
  · exact refuse_within (sub hc) hs_1

end Sys2Proof.Machine
end

