-- ==== Sys2Proof/Laws/Vellum.lean ====
section
/-! SUPPORT. What each operation of Machine/Vellum.lean can change: one lemma per operation, cited in place of unfolding it. -/

namespace Sys2Proof.Machine

set_option Elab.async false



theorem State.setBursts_within {cs s0} {s l} (hc : [.vel] ⊆ cs) (hs : Within cs s0 s) :
    Within cs s0 (State.setBursts s l) := by
  unfold State.setBursts
  exact Within.put_vel_bursts (sub hc) hs

theorem State.setProf_within {cs s0} {s p x} (hc : [.vel] ⊆ cs) (hs : Within cs s0 s) :
    Within cs s0 (State.setProf s p x) := by
  unfold State.setProf
  exact Within.put_vel_prof (sub hc) hs

theorem State.setVel_within {cs s0} {s v} (hc : [.recs, .exporting, .vel] ⊆ cs) (hs : Within cs s0 s) :
    Within cs s0 (State.setVel s v) := by
  unfold State.setVel
  exact Within.upd (s := s) (t := { s with vel := _ }) hs (fun c => by cases c <;> first | exact .inl (hc (by decide)) | exact .inr rfl) (fun h => ⟨h.1, h.2.1, h.2.2⟩)

theorem noteVel_within {cs s0} {s} (hc : [.regs] ⊆ cs) (hs : Within cs s0 s) :
    Within cs s0 (noteVel s) := by
  unfold noteVel
  extract_lets +onlyGivenNames -merge -underBinder used
  extract_lets +onlyGivenNames -merge -underBinder locked
  exact State.setFs_within (sub hc) hs

theorem freeOldest_within {cs s0 s t} (hc : [.regs, .recs] ⊆ cs) (hs : Within cs s0 s) (h : freeOldest s = some t) :
    Within cs s0 t := by
  unfold freeOldest at h
  split at h
  · injection h with h
    exact h ▸ noteVel_within (sub hc) (Within.put_vel_recs (sub hc) hs)
  · cases h

theorem takeBlock_within {cs s0} {s own} (hc : [.regs, .recs] ⊆ cs) (hs : Within cs s0 s) :
    Within cs s0 (takeBlock s own).1 := by
  unfold takeBlock
  split
  · exact hs
  · split
    · next h => exact freeOldest_within (sub hc) hs h
    · exact hs

theorem spaceLost_within {cs s0} {s r} (hc : [.regs, .offers] ⊆ cs) (hs : Within cs s0 s) :
    Within cs s0 (spaceLost s r).1 := by
  unfold spaceLost
  exact Within.ite1 hs (State.log_within (sub hc) (State.incS_within (sub hc) hs))

theorem addBlock_within {cs s0} {s r g first} (hc : [.regs, .offers, .recs] ⊆ cs) (hs : Within cs s0 s) :
    Within cs s0 (addBlock s r g first).1 := by
  unfold addBlock
  extract_lets +onlyGivenNames -merge -underBinder t
  have ht : Within cs s0 t.1 := takeBlock_within (sub hc) hs
  clear_value t
  split
  · exact ht
  · extract_lets +onlyGivenNames -merge -underBinder l
    have hl : Within cs s0 l.1 := spaceLost_within (sub hc) ht
    clear_value l
    exact hl

theorem addBurst_within {cs s0} {s r g row} (hc : [.vel] ⊆ cs) (hs : Within cs s0 s) :
    Within cs s0 (addBurst s r g row) := by
  unfold addBurst
  exact State.setBursts_within (sub hc) hs

theorem addRow_within {cs s0} {s r row} (hc : [.regs, .offers, .recs, .vel] ⊆ cs) (hs : Within cs s0 s) :
    Within cs s0 (addRow s r row).1 := by
  unfold addRow
  extract_lets +onlyGivenNames -merge -underBinder na
  extract_lets +onlyGivenNames -merge -underBinder cap
  extract_lets +onlyGivenNames -merge -underBinder n
  extract_lets +onlyGivenNames -merge -underBinder full
  extract_lets +onlyGivenNames -merge -underBinder a
  have ha : Within cs s0 a.1 := Within.ite1 (addBlock_within (sub hc) hs) hs
  clear_value a
  extract_lets +onlyGivenNames -merge -underBinder lost
  extract_lets +onlyGivenNames -merge -underBinder step
  extract_lets +onlyGivenNames -merge -underBinder w r1
  exact Within.ite ha (addBurst_within (sub hc) ha)

theorem addTw_within {cs s0} {s r b} (hc : [.regs, .offers, .recs, .vel] ⊆ cs) (hs : Within cs s0 s) :
    Within cs s0 (addTw s r b).1 := by
  unfold addTw
  extract_lets +onlyGivenNames -merge -underBinder old
  extract_lets +onlyGivenNames -merge -underBinder room
  extract_lets +onlyGivenNames -merge -underBinder a
  have ha : Within cs s0 a.1 := Within.ite1 (addBlock_within (sub hc) hs) hs
  clear_value a
  extract_lets +onlyGivenNames -merge -underBinder w r1
  exact Within.ite ha (addBurst_within (sub hc) ha)

theorem putRec_within {cs s0} {s r} (hc : [.regs, .recs] ⊆ cs) (hs : Within cs s0 s) :
    Within cs s0 (putRec s r) := by
  unfold putRec
  exact noteVel_within (sub hc) (Within.put_vel_recs (sub hc) hs)

theorem openRecord_within {cs s0} {s p kind idx t1 stamp} (hc : [.regs, .offers, .recs, .vel] ⊆ cs) (hs : Within cs s0 s) :
    Within cs s0 (openRecord s p kind idx t1 stamp) := by
  unfold openRecord
  extract_lets +onlyGivenNames -merge -underBinder step
  extract_lets +onlyGivenNames -merge -underBinder pre
  extract_lets +onlyGivenNames -merge -underBinder from'
  extract_lets +onlyGivenNames -merge -underBinder rows
  extract_lets +onlyGivenNames -merge -underBinder short
  extract_lets +onlyGivenNames -merge -underBinder startI
  extract_lets +onlyGivenNames -merge -underBinder postEnd
  extract_lets +onlyGivenNames -merge -underBinder capEnd
  extract_lets +onlyGivenNames -merge -underBinder twPre
  extract_lets +onlyGivenNames -merge -underBinder twPost
  extract_lets +onlyGivenNames -merge -underBinder lanes
  extract_lets +onlyGivenNames -merge -underBinder id
  extract_lets +onlyGivenNames -merge -underBinder b
  have hb : Within cs s0 b.1 := takeBlock_within (sub hc) hs
  clear_value b
  extract_lets +onlyGivenNames -merge -underBinder r0
  extract_lets +onlyGivenNames -merge -underBinder l
  have hl : Within cs s0 l.1 := Within.ite1 (spaceLost_within (sub hc) hb) hb
  clear_value l
  extract_lets +onlyGivenNames -merge -underBinder w s1
  have hs1 : Within cs s0 s1 := Within.put_vel_recs_nextId (sub hc) hl
  clear_value s1
  extract_lets +onlyGivenNames -merge -underBinder s2
  have hs2 : Within cs s0 s2 := State.setFs_within (sub hc) hs1
  clear_value s2
  extract_lets +onlyGivenNames -merge -underBinder s3
  have hs3 : Within cs s0 s3 := State.log_within (sub hc) (State.incW_within (sub hc) hs2)
  clear_value s3
  extract_lets +onlyGivenNames -merge -underBinder inEnd
  clear_value inEnd
  extract_lets +onlyGivenNames -merge -underBinder a
  have ha : Within cs s0 a.1 := Within.foldl1 hs3 (fun t a ht => addRow_within (sub hc) ht)
  clear_value a
  extract_lets +onlyGivenNames -merge -underBinder on
  extract_lets +onlyGivenNames -merge -underBinder held
  extract_lets +onlyGivenNames -merge -underBinder lost
  extract_lets +onlyGivenNames -merge -underBinder gone
  extract_lets +onlyGivenNames -merge -underBinder b2
  have hb2 : Within cs s0 b2.1 := Within.foldl1 ha (fun t a_1 ht => addTw_within (sub hc) ht)
  clear_value b2
  extract_lets +onlyGivenNames -merge -underBinder late
  extract_lets +onlyGivenNames -merge -underBinder r3
  exact noteVel_within (sub hc) (putRec_within (sub hc) (Within.ite (State.incS_within (sub hc) hb2) hb2))

theorem velFire_within {cs s0} {s p kind idx t1 stamp} (hc : [.regs, .offers, .recs, .vel] ⊆ cs) (hs : Within cs s0 s) :
    Within cs s0 (velFire s p kind idx t1 stamp) := by
  unfold velFire
  refine Within.ite hs ?_
  split
  · refine Within.ite ?_ (State.incS_within (sub hc) hs)
    extract_lets +onlyGivenNames -merge -underBinder want
    extract_lets +onlyGivenNames -merge -underBinder cap
    extract_lets +onlyGivenNames -merge -underBinder r1
    exact putRec_within (sub hc) hs
  · split
    · exact Within.ite (State.incS_within (sub hc) hs) (openRecord_within (sub hc) hs)
    · exact openRecord_within (sub hc) hs

theorem velTerm_within {cs s0} {s kind idx t1 stamp} (hc : [.regs, .offers, .recs, .vel] ⊆ cs) (hs : Within cs s0 s) :
    Within cs s0 (velTerm s kind idx t1 stamp) := by
  unfold velTerm
  exact Within.foldl hs (fun t a ht => Within.ite (velFire_within (sub hc) ht) ht)

theorem velTermNow_within {cs s0} {s kind idx} (hc : [.regs, .offers, .recs, .vel] ⊆ cs) (hs : Within cs s0 s) :
    Within cs s0 (velTermNow s kind idx) := by
  unfold velTermNow
  exact velTerm_within (sub hc) hs

theorem velReadErr_within {cs s0} {s index} (hc : [.regs, .offers, .recs] ⊆ cs) (hs : Within cs s0 s) :
    Within cs s0 (velReadErr s index) := by
  unfold velReadErr
  split
  · extract_lets +onlyGivenNames -merge -underBinder bad
    refine Within.ite hs ?_
    extract_lets +onlyGivenNames -merge -underBinder r1
    exact State.log_within (sub hc) (State.incS_within (sub hc) (putRec_within (sub hc) hs))
  · exact hs

theorem velCold_within {cs s0} {s} (hc : [.regs, .recs, .exporting, .vel] ⊆ cs) (hs : Within cs s0 s) :
    Within cs s0 (velCold s) := by
  unfold velCold
  exact noteVel_within (sub hc) (Within.put_vel_recs_nextId_prof_lanes_blkSeq_twSlot_bursts_exporting (sub hc) hs)

theorem burstDone_within {cs s0} {s} (hc : [.vel] ⊆ cs) (hs : Within cs s0 s) :
    Within cs s0 (burstDone s) := by
  unfold burstDone
  exact State.setBursts_within (sub hc) hs

theorem closeRecord_within {cs s0} {s r hold} (hc : [.regs, .offers, .sess, .inkwell, .msix, .recs, .vel, .live, .committing, .commit] ⊆ cs) (hs : Within cs s0 s) :
    Within cs s0 (closeRecord s r hold) := by
  unfold closeRecord
  extract_lets +onlyGivenNames -merge -underBinder r1
  extract_lets +onlyGivenNames -merge -underBinder s1
  have hs1 : Within cs s0 s1 := State.setBursts_within (sub hc) (putRec_within (sub hc) hs)
  clear_value s1
  extract_lets +onlyGivenNames -merge -underBinder s2
  have hs2 : Within cs s0 s2 := State.setFs_within (sub hc) hs1
  clear_value s2
  extract_lets +onlyGivenNames -merge -underBinder w s3
  have hs3 : Within cs s0 s3 := State.setProf_within (sub hc) hs2
  clear_value s3
  exact takeCommit_within (sub hc) (State.log_within (sub hc) hs3)

theorem velTwBlock_within {cs s0} {s b} (hc : [.regs, .offers, .recs, .vel] ⊆ cs) (hs : Within cs s0 s) :
    Within cs s0 (velTwBlock s b) := by
  unfold velTwBlock
  refine Within.foldl hs (fun t a ht => ?_)
  refine Within.ite ?_ ht
  extract_lets +onlyGivenNames -merge -underBinder a_1
  have ha_1 : Within cs s0 a_1.1 := addTw_within (sub hc) ht
  clear_value a_1
  exact putRec_within (sub hc) ha_1

theorem exportMode_within {cs s0} {s} (hc : [.regs, .offers, .sess, .inkwell, .msix, .hst, .modePend] ⊆ cs) (hs : Within cs s0 s) :
    Within cs s0 (exportMode s) := by
  unfold exportMode
  split
  · exact modeTaken_within (sub hc) (Within.put_hst_haExport (sub hc) hs)
  · exact hs

theorem velTrigWrite_within {cs s0} {s v} (hc : [.regs, .offers, .recs, .vel] ⊆ cs) (hs : Within cs s0 s) :
    Within cs s0 (velTrigWrite s v) := by
  unfold velTrigWrite
  exact Within.foldl hs (fun t a ht => velFire_within (sub hc) ht)

theorem rowAssemble_within {cs s0} {s p} (hc : [.regs, .offers, .recs, .vel] ⊆ cs) (hs : Within cs s0 s) :
    Within cs s0 (rowAssemble s p) := by
  unfold rowAssemble
  extract_lets +onlyGivenNames -merge -underBinder tab
  extract_lets +onlyGivenNames -merge -underBinder n
  extract_lets +onlyGivenNames -merge -underBinder ready
  refine Within.ite ?_ hs
  extract_lets +onlyGivenNames -merge -underBinder got
  extract_lets +onlyGivenNames -merge -underBinder row
  extract_lets +onlyGivenNames -merge -underBinder keep
  extract_lets +onlyGivenNames -merge -underBinder pr
  extract_lets +onlyGivenNames -merge -underBinder ring
  extract_lets +onlyGivenNames -merge -underBinder s1
  have hs1 : Within cs s0 s1 := State.setProf_within (sub hc) hs
  clear_value s1
  split
  · refine Within.ite ?_ hs1
    extract_lets +onlyGivenNames -merge -underBinder a
    have ha : Within cs s0 a.1 := addRow_within (sub hc) hs1
    clear_value a
    exact putRec_within (sub hc) ha
  · exact hs1

theorem velClose_within {cs s0} {s p} (hc : [.regs, .offers, .sess, .inkwell, .msix, .recs, .vel, .live, .committing, .commit] ⊆ cs) (hs : Within cs s0 s) :
    Within cs s0 (velClose s p) := by
  unfold velClose
  split
  · extract_lets +onlyGivenNames -merge -underBinder rowsIn
    exact Within.ite (closeRecord_within (sub hc) hs) hs
  · exact hs

theorem velExportBody_within {cs s0} {n s c} (hc : [.regs, .offers, .sess, .inkwell, .msix, .hst, .recs, .exporting, .modePend] ⊆ cs) (hs : Within cs s0 s) :
    Within cs s0 (velExportBody n s c).s := by
  unfold velExportBody
  extract_lets +onlyGivenNames -merge -underBinder version
  extract_lets +onlyGivenNames -merge -underBinder format
  extract_lets +onlyGivenNames -merge -underBinder group
  extract_lets +onlyGivenNames -merge -underBinder off
  extract_lets +onlyGivenNames -merge -underBinder maxb
  split
  · exact refuse_within (sub hc) hs
  · refine Within.iteS (refuse_within (sub hc) hs) ?_
    refine Within.iteS hs ?_
    refine Within.iteS (refuse_within (sub hc) (exportMode_within (sub hc) hs)) ?_
    refine Within.iteS (refuse_within (sub hc) (exportMode_within (sub hc) hs)) ?_
    extract_lets +onlyGivenNames -merge -underBinder s0_1
    have hs0_1 : Within cs s0 s0_1 := exportMode_within (sub hc) hs
    clear_value s0_1
    extract_lets +onlyGivenNames -merge -underBinder s1
    have hs1 : Within cs s0 s1 := putRec_within (sub hc) hs0_1
    clear_value s1
    exact goesOn_within (sub hc) (State.setB_within (sub hc) (Within.put_vel_exporting (sub hc) hs1))

theorem velSeen_within {cs s0} {s e} (hc : [.regs, .offers, .msix, .recs, .mem] ⊆ cs) (hs : Within cs s0 s) :
    Within cs s0 (velSeen s e) := by
  unfold velSeen
  split
  · exact velReadErr_within (sub hc) (memNote_within (sub hc) hs)
  · exact memNote_within (sub hc) hs

theorem velExportDone_within {cs s0} {s e} (hc : [.regs, .offers, .sess, .inkwell, .dram, .msix, .recs, .exporting, .mem] ⊆ cs) (hs : Within cs s0 s) :
    Within cs s0 (velExportDone s e) := by
  unfold velExportDone
  split
  · extract_lets +onlyGivenNames -merge -underBinder s1
    have hs1 : Within cs s0 s1 := velSeen_within (sub hc) hs
    clear_value s1
    split
    · extract_lets +onlyGivenNames -merge -underBinder bs
      extract_lets +onlyGivenNames -merge -underBinder s2
      have hs2 : Within cs s0 s2 := State.dramWrite_within (sub hc) hs1
      clear_value s2
      extract_lets +onlyGivenNames -merge -underBinder s3
      have hs3 : Within cs s0 s3 := putRec_within (sub hc) hs2
      clear_value s3
      extract_lets +onlyGivenNames -merge -underBinder w s4
      have hs4 : Within cs s0 s4 := State.setB_within (sub hc) (Within.put_vel_exporting (sub hc) hs3)
      clear_value s4
      extract_lets +onlyGivenNames -merge -underBinder s5
      have hs5 : Within cs s0 s5 := State.log_within (sub hc) hs4
      clear_value s5
      exact postHead_within (sub hc) hs5
    · exact hs1
  · exact hs

theorem velListBody_within {cs s0} {s c} (hc : [.dram] ⊆ cs) (hs : Within cs s0 s) :
    Within cs s0 (velListBody s c).s := by
  unfold velListBody
  extract_lets +onlyGivenNames -merge -underBinder off
  extract_lets +onlyGivenNames -merge -underBinder maxb
  refine Within.iteS (refuse_within (sub hc) hs) ?_
  extract_lets +onlyGivenNames -merge -underBinder rs
  exact okay_within (sub hc) (State.dramWrite_within (sub hc) hs)

theorem velLockBody_within {cs s0} {n lock s c} (hc : [.regs, .recs] ⊆ cs) (hs : Within cs s0 s) :
    Within cs s0 (velLockBody n lock s c).s := by
  unfold velLockBody
  refine Within.iteS (refuse_within (sub hc) hs) ?_
  split
  · exact refuse_within (sub hc) hs
  · exact Within.iteS (refuse_within (sub hc) hs) (Within.iteS (Within.iteS (refuse_within (sub hc) hs) (okay_within (sub hc) (putRec_within (sub hc) hs))) (Within.iteS (okay_within (sub hc) (putRec_within (sub hc) hs)) (refuse_within (sub hc) hs)))

theorem velTrigQuill_within {cs s0} {s p task} (hc : [.regs, .offers, .recs, .vel] ⊆ cs) (hs : Within cs s0 s) :
    Within cs s0 (velTrigQuill s p task) := by
  unfold velTrigQuill
  exact velFire_within (sub hc) hs

theorem velWarm_within {cs s0} {s} (hc : [.regs, .offers, .sess, .inkwell, .msix, .recs, .exporting, .vel, .live, .committing, .commit] ⊆ cs) (hs : Within cs s0 s) :
    Within cs s0 (velWarm s) := by
  unfold velWarm
  extract_lets +onlyGivenNames -merge -underBinder opens
  extract_lets +onlyGivenNames -merge -underBinder s1
  have hs1 : Within cs s0 s1 := Within.foldl hs (fun t a ht => closeRecord_within (sub hc) ht)
  clear_value s1
  extract_lets +onlyGivenNames -merge -underBinder un
  exact noteVel_within (sub hc) (Within.put_vel_recs_prof_exporting (sub hc) hs1)

theorem velWriteTimeout_within {cs s0} {s p retrain} (hc : [.regs, .offers, .sess, .inkwell, .msix, .recs, .vel, .live, .committing, .commit] ⊆ cs) (hs : Within cs s0 s) :
    Within cs s0 (velWriteTimeout s p retrain) := by
  unfold velWriteTimeout
  split
  · extract_lets +onlyGivenNames -merge -underBinder late
    refine Within.ite ?_ hs
    extract_lets +onlyGivenNames -merge -underBinder s1
    have hs1 : Within cs s0 s1 := State.log_within (sub hc) (State.incS_within (sub hc) hs)
    clear_value s1
    exact closeRecord_within (sub hc) hs1
  · exact hs

end Sys2Proof.Machine
end

