-- ==== Sys2Proof/Laws/Afe.lean ====
section
/-! SUPPORT. What each operation of Machine/Afe.lean can change: one lemma per operation, cited in place of unfolding it. -/

namespace Sys2Proof.Machine

set_option Elab.async false

theorem State.setCv_within {cs s0} {s n x} (hc : [.cv] ⊆ cs) (hs : Within cs s0 s) :
    Within cs s0 (State.setCv s n x) := by
  unfold State.setCv
  exact Within.put_afe_cv (sub hc) hs

theorem State.setWd_within {cs s0} {s n x} (hc : [.wd] ⊆ cs) (hs : Within cs s0 s) :
    Within cs s0 (State.setWd s n x) := by
  unfold State.setWd
  exact Within.put_afe_wd (sub hc) hs

theorem actWrite_within {cs s0} {s n e w v} (hc : [.regs, .offers] ⊆ cs) (hs : Within cs s0 s) :
    Within cs s0 (actWrite s n e w v) := by
  unfold actWrite
  extract_lets +onlyGivenNames -merge -underBinder a
  split
  · exact State.log_within (sub hc) hs
  · exact State.wr_within (sub hc) hs

theorem cvStart_within {cs s0} {ev s n} (hc : [.regs, .cv] ⊆ cs) (hs : Within cs s0 s) :
    Within cs s0 (cvStart ev s n) := by
  unfold cvStart
  extract_lets +onlyGivenNames -merge -underBinder x
  extract_lets +onlyGivenNames -merge -underBinder m
  extract_lets +onlyGivenNames -merge -underBinder k
  exact State.setFs_within (sub hc) (State.setCv_within (sub hc) hs)

theorem wdStart_within {cs s0} {ev s k} (hc : [.wd] ⊆ cs) (hs : Within cs s0 s) :
    Within cs s0 (wdStart ev s k) := by
  unfold wdStart
  extract_lets +onlyGivenNames -merge -underBinder x
  exact State.setWd_within (sub hc) hs

theorem afeStart_within {cs s0} {s ev} (hc : [.regs, .cv, .wd, .afe] ⊆ cs) (hs : Within cs s0 s) :
    Within cs s0 (afeStart s ev) := by
  unfold afeStart
  extract_lets +onlyGivenNames -merge -underBinder s1
  have hs1 : Within cs s0 s1 := Within.foldl hs (fun t a ht => cvStart_within (sub hc) ht)
  clear_value s1
  extract_lets +onlyGivenNames -merge -underBinder s2
  have hs2 : Within cs s0 s2 := Within.foldl hs1 (fun t a ht => wdStart_within (sub hc) ht)
  clear_value s2
  exact Within.put_afe_asm_convQ_map (sub hc) hs2

theorem afeStop_within {cs s0} {s} (hc : [.regs, .cv, .wd, .afe] ⊆ cs) (hs : Within cs s0 s) :
    Within cs s0 (afeStop s) := by
  unfold afeStop
  exact afeStart_within (sub hc) hs

theorem reloadWrite_within {cs s0} {s n} (hc : [.regs, .offers, .cv] ⊆ cs) (hs : Within cs s0 s) :
    Within cs s0 (reloadWrite s n) := by
  unfold reloadWrite
  split
  · exact State.log_within (sub hc) hs
  · exact State.setB_within (sub hc) (State.setCv_within (sub hc) hs)

theorem copyShadow_within {cs s0} {s n} (hc : [.regs, .offers, .cv] ⊆ cs) (hs : Within cs s0 s) :
    Within cs s0 (copyShadow s n) := by
  unfold copyShadow
  extract_lets +onlyGivenNames -merge -underBinder w no
  have hno : Within cs s0 no := State.setB_within (sub hc) (State.setCv_within (sub hc) hs)
  clear_value no
  split
  · exact State.log_within (sub hc) hno
  · extract_lets +onlyGivenNames -merge -underBinder t
    have ht : Within cs s0 t := Within.foldl hs (fun t a ht => State.setWord_within (sub hc) (State.setWord_within (sub hc) ht))
    clear_value t
    extract_lets +onlyGivenNames -merge -underBinder x
    exact State.setB_within (sub hc) (State.setCv_within (sub hc) ht)

theorem startEntry_within {cs s0} {s n e} (hc : [.regs, .cv] ⊆ cs) (hs : Within cs s0 s) :
    Within cs s0 (startEntry s n e) := by
  unfold startEntry
  extract_lets +onlyGivenNames -merge -underBinder w0
  extract_lets +onlyGivenNames -merge -underBinder x
  exact State.setF_within (sub hc) (State.setCv_within (sub hc) hs)

theorem startPass_within {cs s0} {s n tick start} (hc : [.regs, .offers, .cv, .afe] ⊆ cs) (hs : Within cs s0 s) :
    Within cs s0 (startPass s n tick start) := by
  unfold startPass
  extract_lets +onlyGivenNames -merge -underBinder s1
  have hs1 : Within cs s0 s1 := Within.ite (latchMap_within (sub hc) (copyShadow_within (sub hc) hs)) hs
  clear_value s1
  extract_lets +onlyGivenNames -merge -underBinder x
  extract_lets +onlyGivenNames -merge -underBinder s2
  have hs2 : Within cs s0 s2 := State.setCv_within (sub hc) hs1
  clear_value s2
  exact State.setB_within (sub hc) (startEntry_within (sub hc) hs2)

theorem swTrigger_within {cs s0} {s n} (hc : [.regs, .offers, .cv, .afe] ⊆ cs) (hs : Within cs s0 s) :
    Within cs s0 (swTrigger s n) := by
  unfold swTrigger
  extract_lets +onlyGivenNames -merge -underBinder x
  exact Within.ite (Within.ite (State.incS_within (sub hc) hs) (Within.ite hs (startPass_within (sub hc) hs))) hs

theorem cvLost_within {cs s0} {s n} (hc : [.regs, .mem, .cv] ⊆ cs) (hs : Within cs s0 s) :
    Within cs s0 (cvLost s n) := by
  unfold cvLost
  extract_lets +onlyGivenNames -merge -underBinder x
  extract_lets +onlyGivenNames -merge -underBinder w s1
  have hs1 : Within cs s0 s1 := Within.put_mem_oosCv (sub hc) hs
  clear_value s1
  exact State.setFs_within (sub hc) (State.setCv_within (sub hc) hs1)

theorem urgentRequest_within {cs s0} {s n input} (hc : [.regs, .cv] ⊆ cs) (hs : Within cs s0 s) :
    Within cs s0 (urgentRequest s n input) := by
  unfold urgentRequest
  extract_lets +onlyGivenNames -merge -underBinder x
  exact Within.ite (Within.ite (State.incS_within (sub hc) hs) (State.setFs_within (sub hc) (State.setCv_within (sub hc) hs))) hs

theorem comparatorCrossing_within {cs s0} {s i} (hc : [.regs, .offers, .recs, .vel, .cv, .afe] ⊆ cs) (hs : Within cs s0 s) :
    Within cs s0 (comparatorCrossing s i) := by
  unfold comparatorCrossing
  refine Within.ite ?_ hs
  extract_lets +onlyGivenNames -merge -underBinder w s1
  have hs1 : Within cs s0 s1 := Within.put_afe_crossed (sub hc) hs
  clear_value s1
  extract_lets +onlyGivenNames -merge -underBinder r
  extract_lets +onlyGivenNames -merge -underBinder s2
  have hs2 : Within cs s0 s2 := State.log_within (sub hc) (State.setF_within (sub hc) hs1)
  clear_value s2
  extract_lets +onlyGivenNames -merge -underBinder s3
  have hs3 : Within cs s0 s3 := velTermNow_within (sub hc) hs2
  clear_value s3
  exact Within.ite (urgentRequest_within (sub hc) hs3) hs3

theorem comparatorRearm_within {cs s0} {s i} (hc : [.afe] ⊆ cs) (hs : Within cs s0 s) :
    Within cs s0 (comparatorRearm s i) := by
  unfold comparatorRearm
  exact Within.put_afe_crossed (sub hc) hs

theorem writeLane_within {cs s0} {s n epoch hold input seq codes} (hc : [.regs, .offers, .recs, .vel] ⊆ cs) (hs : Within cs s0 s) :
    Within cs s0 (writeLane s n epoch hold input seq codes) := by
  unfold writeLane
  extract_lets +onlyGivenNames -merge -underBinder k
  extract_lets +onlyGivenNames -merge -underBinder slot
  extract_lets +onlyGivenNames -merge -underBinder set
  extract_lets +onlyGivenNames -merge -underBinder ovr
  extract_lets +onlyGivenNames -merge -underBinder b
  extract_lets +onlyGivenNames -merge -underBinder lane
  exact velTwBlock_within (sub hc) (Within.put_vel_lanes_blkSeq_twSlot (sub hc) hs)

theorem releaseLocal_within {cs s0} {s st tick} (hc : [.regs, .offers, .sess, .inkwell, .msix, .port, .pair, .sc, .afe, .live, .committing, .commit] ⊆ cs) (hs : Within cs s0 s) :
    Within cs s0 (releaseLocal s st tick) := by
  unfold releaseLocal
  extract_lets +onlyGivenNames -merge -underBinder ep
  extract_lets +onlyGivenNames -merge -underBinder items
  extract_lets +onlyGivenNames -merge -underBinder n
  extract_lets +onlyGivenNames -merge -underBinder got
  clear_value got
  refine Within.ite ?_ hs
  extract_lets +onlyGivenNames -merge -underBinder vals
  extract_lets +onlyGivenNames -merge -underBinder quals
  extract_lets +onlyGivenNames -merge -underBinder inst
  extract_lets +onlyGivenNames -merge -underBinder x
  extract_lets +onlyGivenNames -merge -underBinder w s1
  have hs1 : Within cs s0 s1 := Within.put_afe_asm_asmAt (sub hc) hs
  clear_value s1
  extract_lets +onlyGivenNames -merge -underBinder c
  exact publishSv_within (sub hc) (State.setSc_within (sub hc) hs1)

theorem releaseStream_within {cs s0} {s st} (hc : [.regs, .offers, .sess, .inkwell, .msix, .port, .pair, .sc, .afe, .live, .committing, .commit] ⊆ cs) (hs : Within cs s0 s) :
    Within cs s0 (releaseStream s st) := by
  unfold releaseStream
  exact Within.foldl hs (fun t a ht => releaseLocal_within (sub hc) ht)

theorem drainConv_within {cs s0} {x s x1} (hc : [.regs, .offers, .sess, .inkwell, .msix, .port, .pair, .sc, .afe, .live, .committing, .commit] ⊆ cs) (hs : Within cs s0 s) :
    Within cs s0 (drainConv x s x1) := by
  induction x generalizing s x1 with
  | zero =>
    rw [drainConv]
    exact hs
  | succ k ih =>
    rw [drainConv]
    split
    · exact Within.ite hs (ih (releaseStream_within (sub hc) (Within.put_afe_asm_convQ (sub hc) hs)))
    · exact hs

theorem deliver_within {cs s0} {s n st ch tick v q} (hc : [.regs, .offers, .sess, .inkwell, .msix, .port, .pair, .sc, .afe, .live, .committing, .commit] ⊆ cs) (hs : Within cs s0 s) :
    Within cs s0 (deliver s n st ch tick v q) := by
  unfold deliver
  exact drainConv_within (sub hc) (Within.put_afe_convQ (sub hc) hs)

theorem entryResult_within {cs s0} {s n} (hc : [.regs, .offers, .sess, .inkwell, .msix, .port, .pair, .sc, .recs, .vel, .cv, .afe, .live, .committing, .commit] ⊆ cs) (hs : Within cs s0 s) :
    Within cs s0 (entryResult s n) := by
  unfold entryResult
  extract_lets +onlyGivenNames -merge -underBinder x
  extract_lets +onlyGivenNames -merge -underBinder v
  extract_lets +onlyGivenNames -merge -underBinder set
  extract_lets +onlyGivenNames -merge -underBinder s1
  have hs1 : Within cs s0 s1 := State.setF_within (sub hc) hs
  clear_value s1
  extract_lets +onlyGivenNames -merge -underBinder s2
  have hs2 : Within cs s0 s2 := State.setCv_within (sub hc) hs1
  clear_value s2
  extract_lets +onlyGivenNames -merge -underBinder y sv blk h_1 s3
  have hs3 : Within cs s0 s3 := Within.ite (Within.ite hs2 (deliver_within (sub hc) hs2)) (Within.ite (Within.ite (writeLane_within (sub hc) (State.setCv_within (sub hc) hs2)) (State.setCv_within (sub hc) hs2)) hs2)
  clear_value s3
  exact Within.ite (State.setB_within (sub hc) (State.setCv_within (sub hc) hs3)) (startEntry_within (sub hc) hs3)

theorem nextConversion_within {cs s0} {s n} (hc : [.regs, .offers, .sess, .inkwell, .msix, .port, .pair, .sc, .recs, .vel, .cv, .afe, .live, .committing, .commit] ⊆ cs) (hs : Within cs s0 s) :
    Within cs s0 (nextConversion s n) := by
  unfold nextConversion
  extract_lets +onlyGivenNames -merge -underBinder x
  extract_lets +onlyGivenNames -merge -underBinder w
  extract_lets +onlyGivenNames -merge -underBinder x2
  extract_lets +onlyGivenNames -merge -underBinder x3
  exact Within.ite (entryResult_within (sub hc) (State.setCv_within (sub hc) hs)) (State.setCv_within (sub hc) hs)

theorem seqConversion_within {cs s0} {s n vin} (hc : [.regs, .offers, .sess, .inkwell, .msix, .port, .pair, .sc, .recs, .vel, .cv, .afe, .live, .committing, .commit] ⊆ cs) (hs : Within cs s0 s) :
    Within cs s0 (seqConversion s n vin) := by
  unfold seqConversion
  extract_lets +onlyGivenNames -merge -underBinder x
  extract_lets +onlyGivenNames -merge -underBinder c
  extract_lets +onlyGivenNames -merge -underBinder x1
  extract_lets +onlyGivenNames -merge -underBinder s1
  have hs1 : Within cs s0 s1 := State.setCv_within (sub hc) hs
  clear_value s1
  exact Within.ite (entryResult_within (sub hc) hs1) (nextConversion_within (sub hc) hs1)

theorem openWindow_within {cs s0} {s n} (hc : [.cv] ⊆ cs) (hs : Within cs s0 s) :
    Within cs s0 (openWindow s n) := by
  unfold openWindow
  extract_lets +onlyGivenNames -merge -underBinder w0
  extract_lets +onlyGivenNames -merge -underBinder x
  exact State.setCv_within (sub hc) hs

theorem wdStep_within {cs s0} {s k m} (hc : [.regs, .wd] ⊆ cs) (hs : Within cs s0 s) :
    Within cs s0 (wdStep s k m) := by
  unfold wdStep
  extract_lets +onlyGivenNames -merge -underBinder x
  extract_lets +onlyGivenNames -merge -underBinder srcs
  extract_lets +onlyGivenNames -merge -underBinder lost
  clear_value lost
  extract_lets +onlyGivenNames -merge -underBinder ready
  extract_lets +onlyGivenNames -merge -underBinder fresh
  refine Within.ite ?_ hs
  extract_lets +onlyGivenNames -merge -underBinder mis
  extract_lets +onlyGivenNames -merge -underBinder code
  clear_value code
  extract_lets +onlyGivenNames -merge -underBinder used
  extract_lets +onlyGivenNames -merge -underBinder has
  clear_value has
  extract_lets +onlyGivenNames -merge -underBinder p
  extract_lets +onlyGivenNames -merge -underBinder held
  extract_lets +onlyGivenNames -merge -underBinder s1
  have hs1 : Within cs s0 s1 := State.setWd_within (sub hc) hs
  clear_value s1
  extract_lets +onlyGivenNames -merge -underBinder c
  extract_lets +onlyGivenNames -merge -underBinder w s2
  have hs2 : Within cs s0 s2 := State.setWd_within (sub hc) hs1
  clear_value s2
  exact Within.ite (Within.ite (State.setWd_within (sub hc) hs2) (State.incS_within (sub hc) hs2)) hs2

theorem streamConversion_within {cs s0} {s n w vin} (hc : [.regs, .cv, .wd] ⊆ cs) (hs : Within cs s0 s) :
    Within cs s0 (streamConversion s n w vin) := by
  unfold streamConversion
  extract_lets +onlyGivenNames -merge -underBinder old
  extract_lets +onlyGivenNames -merge -underBinder s0_1
  have hs0_1 : Within cs s0 s0_1 := Within.ite (openWindow_within (sub hc) (Within.ite hs (State.setCv_within (sub hc) hs))) hs
  clear_value s0_1
  extract_lets +onlyGivenNames -merge -underBinder x
  extract_lets +onlyGivenNames -merge -underBinder c
  extract_lets +onlyGivenNames -merge -underBinder m
  extract_lets +onlyGivenNames -merge -underBinder v
  extract_lets +onlyGivenNames -merge -underBinder w1
  extract_lets +onlyGivenNames -merge -underBinder x1
  extract_lets +onlyGivenNames -merge -underBinder s1
  have hs1 : Within cs s0 s1 := State.setCv_within (sub hc) hs0_1
  clear_value s1
  exact Within.foldl hs1 (fun t a ht => Within.ite (wdStep_within (sub hc) ht) ht)

theorem conversionComplete_within {cs s0} {s n vin} (hc : [.regs, .offers, .sess, .inkwell, .msix, .port, .pair, .sc, .recs, .vel, .cv, .wd, .afe, .live, .committing, .commit] ⊆ cs) (hs : Within cs s0 s) :
    Within cs s0 (conversionComplete s n vin) := by
  unfold conversionComplete
  extract_lets +onlyGivenNames -merge -underBinder x
  refine Within.ite hs ?_
  refine Within.ite ?_ (Within.ite (seqConversion_within (sub hc) hs) hs)
  split
  · exact streamConversion_within (sub hc) hs
  · exact hs

theorem localResume_within {cs s0} {s} (hc : [.regs, .offers, .sess, .inkwell, .msix, .port, .pair, .sc, .afe, .live, .committing, .commit] ⊆ cs) (hs : Within cs s0 s) :
    Within cs s0 (localResume s) := by
  unfold localResume
  extract_lets +onlyGivenNames -merge -underBinder s1
  have hs1 : Within cs s0 s1 := Within.foldl hs (fun t a ht => releaseStream_within (sub hc) ht)
  clear_value s1
  exact Within.foldl hs1 (fun t a ht => drainConv_within (sub hc) ht)

theorem wdCatchUp_within {cs s0} {s k} (hc : [.regs, .wd] ⊆ cs) (hs : Within cs s0 s) :
    Within cs s0 (wdCatchUp s k) := by
  unfold wdCatchUp
  split
  · exact Within.foldl hs (fun t a ht => wdStep_within (sub hc) ht)
  · exact hs

theorem wavefrontResume_within {cs s0} {s k} (hc : [.regs, .wd, .eng] ⊆ cs) (hs : Within cs s0 s) :
    Within cs s0 (wavefrontResume s k) := by
  unfold wavefrontResume
  extract_lets +onlyGivenNames -merge -underBinder t
  have ht : Within cs s0 t := wavefrontSend_within (sub hc) hs
  clear_value t
  exact Within.ite ht (wdCatchUp_within (sub hc) ht)

theorem deliverInvalid_within {cs s0} {s st ch tick q} (hc : [.regs, .offers, .sess, .inkwell, .msix, .port, .pair, .sc, .afe, .live, .committing, .commit] ⊆ cs) (hs : Within cs s0 s) :
    Within cs s0 (deliverInvalid s st ch tick q) := by
  unfold deliverInvalid
  exact releaseLocal_within (sub hc) (Within.put_afe_asm (sub hc) hs)

theorem deliverMissedFrom_within {cs s0} {s n tick k} (hc : [.regs, .offers, .sess, .inkwell, .msix, .port, .pair, .sc, .afe, .live, .committing, .commit] ⊆ cs) (hs : Within cs s0 s) :
    Within cs s0 (deliverMissedFrom s n tick k) := by
  unfold deliverMissedFrom
  extract_lets +onlyGivenNames -merge -underBinder mode
  exact Within.foldl hs (fun t a ht => deliverInvalid_within (sub hc) ht)

theorem tickMissedFrom_within {cs s0} {s n tick k} (hc : [.regs, .offers, .sess, .inkwell, .msix, .port, .pair, .sc, .cv, .afe, .live, .committing, .commit] ⊆ cs) (hs : Within cs s0 s) :
    Within cs s0 (tickMissedFrom s n tick k) := by
  unfold tickMissedFrom
  extract_lets +onlyGivenNames -merge -underBinder s1
  have hs1 : Within cs s0 s1 := State.incS_within (sub hc) hs
  clear_value s1
  extract_lets +onlyGivenNames -merge -underBinder x
  extract_lets +onlyGivenNames -merge -underBinder s2
  have hs2 : Within cs s0 s2 := Within.ite hs1 (State.log_within (sub hc) (State.setCv_within (sub hc) hs1))
  clear_value s2
  exact deliverMissedFrom_within (sub hc) hs2

theorem tickMissed_within {cs s0} {s n tick} (hc : [.regs, .offers, .sess, .inkwell, .msix, .port, .pair, .sc, .cv, .afe, .live, .committing, .commit] ⊆ cs) (hs : Within cs s0 s) :
    Within cs s0 (tickMissed s n tick) := by
  unfold tickMissed
  exact tickMissedFrom_within (sub hc) hs

theorem cutWork_within {cs s0} {s n} (hc : [.regs, .offers, .sess, .inkwell, .msix, .port, .pair, .sc, .cv, .afe, .live, .committing, .commit] ⊆ cs) (hs : Within cs s0 s) :
    Within cs s0 (cutWork s n) := by
  unfold cutWork
  extract_lets +onlyGivenNames -merge -underBinder x
  exact Within.ite hs (Within.ite (Within.foldl hs (fun t a ht => tickMissed_within (sub hc) ht)) (Within.ite (tickMissedFrom_within (sub hc) hs) hs))

theorem deliverMissed_within {cs s0} {s n tick} (hc : [.regs, .offers, .sess, .inkwell, .msix, .port, .pair, .sc, .afe, .live, .committing, .commit] ⊆ cs) (hs : Within cs s0 s) :
    Within cs s0 (deliverMissed s n tick) := by
  unfold deliverMissed
  exact deliverMissedFrom_within (sub hc) hs

theorem railStop_within {cs s0} {s} (hc : [.regs, .offers, .sess, .inkwell, .msix, .port, .pair, .sc, .cv, .wd, .afe, .live, .committing, .commit] ⊆ cs) (hs : Within cs s0 s) :
    Within cs s0 (railStop s) := by
  unfold railStop
  exact afeStop_within (sub hc) (Within.ite (Within.foldl hs (fun t a ht => cutWork_within (sub hc) ht)) hs)

theorem wdSources_within {cs s0} {s01 k} (hc : [.regs, .offers, .wd] ⊆ cs) (hs01 : Within cs s0 s01) :
    Within cs s0 (wdSources s01 k) := by
  unfold wdSources
  extract_lets +onlyGivenNames -merge -underBinder s
  have hs : Within cs s0 s := Within.ite (State.incS_within (sub hc) hs01) hs01
  clear_value s
  extract_lets +onlyGivenNames -merge -underBinder x
  extract_lets +onlyGivenNames -merge -underBinder bad
  exact Within.ite (State.log_within (sub hc) (State.setWd_within (sub hc) hs)) (Within.ite (State.setWd_within (sub hc) hs) hs)

theorem streamTick_within {cs s0} {s n tick} (hc : [.regs, .offers, .sess, .inkwell, .msix, .port, .pair, .sc, .cv, .afe, .live, .committing, .commit] ⊆ cs) (hs : Within cs s0 s) :
    Within cs s0 (streamTick s n tick) := by
  unfold streamTick
  extract_lets +onlyGivenNames -merge -underBinder s1
  have hs1 : Within cs s0 s1 := Within.ite (latchMap_within (sub hc) (copyShadow_within (sub hc) hs)) hs
  clear_value s1
  extract_lets +onlyGivenNames -merge -underBinder x
  extract_lets +onlyGivenNames -merge -underBinder ep
  extract_lets +onlyGivenNames -merge -underBinder have'
  extract_lets +onlyGivenNames -merge -underBinder cut
  extract_lets +onlyGivenNames -merge -underBinder stale
  extract_lets +onlyGivenNames -merge -underBinder x1
  extract_lets +onlyGivenNames -merge -underBinder w x2
  extract_lets +onlyGivenNames -merge -underBinder s2
  have hs2 : Within cs s0 s2 := State.setCv_within (sub hc) hs1
  clear_value s2
  exact Within.ite (tickMissed_within (sub hc) hs2) hs2

theorem takeMode_within {cs s0} {s n} (hc : [.regs, .cv] ⊆ cs) (hs : Within cs s0 s) :
    Within cs s0 (takeMode s n) := by
  unfold takeMode
  extract_lets +onlyGivenNames -merge -underBinder x
  extract_lets +onlyGivenNames -merge -underBinder m
  exact Within.ite hs (State.setFs_within (sub hc) (State.setCv_within (sub hc) hs))

theorem tickOne_within {cs s0} {tick s n} (hc : [.regs, .offers, .sess, .inkwell, .msix, .port, .pair, .sc, .cv, .afe, .live, .committing, .commit] ⊆ cs) (hs : Within cs s0 s) :
    Within cs s0 (tickOne tick s n) := by
  unfold tickOne
  extract_lets +onlyGivenNames -merge -underBinder due
  refine Within.ite (Within.ite (tickMissed_within (sub hc) hs) hs) ?_
  refine Within.ite (Within.ite (deliverMissed_within (sub hc) hs) hs) ?_
  extract_lets +onlyGivenNames -merge -underBinder s1
  have hs1 : Within cs s0 s1 := takeMode_within (sub hc) hs
  clear_value s1
  extract_lets +onlyGivenNames -merge -underBinder w x
  exact Within.ite (streamTick_within (sub hc) (State.setCv_within (sub hc) hs1)) (Within.ite (Within.ite (tickMissed_within (sub hc) (State.setCv_within (sub hc) hs1)) (startPass_within (sub hc) (State.setCv_within (sub hc) hs1))) (State.setCv_within (sub hc) hs1))

theorem sampleTick_within {cs s0} {s} (hc : [.regs, .clk, .offers, .sess, .inkwell, .msix, .port, .pair, .sc, .cv, .wd, .afe, .live, .committing, .commit] ⊆ cs) (hs : Within cs s0 s) :
    Within cs s0 (sampleTick s) := by
  unfold sampleTick
  extract_lets +onlyGivenNames -merge -underBinder c
  refine Within.ite ?_ hs
  extract_lets +onlyGivenNames -merge -underBinder n
  extract_lets +onlyGivenNames -merge -underBinder w s1
  have hs1 : Within cs s0 s1 := Within.put_rul_clk (sub hc) hs
  clear_value s1
  extract_lets +onlyGivenNames -merge -underBinder s2
  have hs2 : Within cs s0 s2 := Within.foldl (Within.ite (latchMap_within (sub hc) hs1) hs1) (fun t a ht => tickOne_within (sub hc) ht)
  clear_value s2
  exact Within.ite (Within.foldl hs2 (fun t a ht => wdSources_within (sub hc) ht)) hs2

theorem streamWindowClose_within {cs s0} {s n} (hc : [.regs, .offers, .sess, .inkwell, .msix, .port, .pair, .sc, .recs, .vel, .cv, .afe, .live, .committing, .commit] ⊆ cs) (hs : Within cs s0 s) :
    Within cs s0 (streamWindowClose s n) := by
  unfold streamWindowClose
  extract_lets +onlyGivenNames -merge -underBinder x
  split
  · refine Within.ite ?_ hs
    extract_lets +onlyGivenNames -merge -underBinder v
    extract_lets +onlyGivenNames -merge -underBinder ovr
    extract_lets +onlyGivenNames -merge -underBinder set
    extract_lets +onlyGivenNames -merge -underBinder now
    extract_lets +onlyGivenNames -merge -underBinder s1
    have hs1 : Within cs s0 s1 := State.setF_within (sub hc) (State.setCv_within (sub hc) hs)
    clear_value s1
    extract_lets +onlyGivenNames -merge -underBinder s2
    have hs2 : Within cs s0 s2 := writeLane_within (sub hc) hs1
    clear_value s2
    exact Within.ite (deliver_within (sub hc) hs2) hs2
  · exact hs

theorem urgentComplete_within {cs s0} {s n vin} (hc : [.regs, .offers, .sess, .inkwell, .msix, .port, .pair, .sc, .recs, .vel, .cv, .afe, .live, .committing, .commit] ⊆ cs) (hs : Within cs s0 s) :
    Within cs s0 (urgentComplete s n vin) := by
  unfold urgentComplete
  extract_lets +onlyGivenNames -merge -underBinder x
  split
  · refine Within.ite ?_ hs
    extract_lets +onlyGivenNames -merge -underBinder gain
    extract_lets +onlyGivenNames -merge -underBinder c
    extract_lets +onlyGivenNames -merge -underBinder w'
    extract_lets +onlyGivenNames -merge -underBinder per
    extract_lets +onlyGivenNames -merge -underBinder s1
    have hs1 : Within cs s0 s1 := State.setF_within (sub hc) hs
    clear_value s1
    extract_lets +onlyGivenNames -merge -underBinder s2
    have hs2 : Within cs s0 s2 := State.setCv_within (sub hc) hs1
    clear_value s2
    extract_lets +onlyGivenNames -merge -underBinder s3
    have hs3 : Within cs s0 s3 := State.setFs_within (sub hc) (State.incW_within (sub hc) hs2)
    clear_value s3
    extract_lets +onlyGivenNames -merge -underBinder s4
    have hs4 : Within cs s0 s4 := Within.ite (velTermNow_within (sub hc) hs3) hs3
    clear_value s4
    exact Within.ite (nextConversion_within (sub hc) hs4) hs4
  · exact hs

theorem wavefrontEvent_within {cs s0} {s k} (hc : [.regs, .offers, .recs, .vel, .wd, .eng] ⊆ cs) (hs : Within cs s0 s) :
    Within cs s0 (wavefrontEvent s k) := by
  unfold wavefrontEvent
  extract_lets +onlyGivenNames -merge -underBinder x
  extract_lets +onlyGivenNames -merge -underBinder kk
  split
  · refine Within.ite ?_ hs
    extract_lets +onlyGivenNames -merge -underBinder mp
    extract_lets +onlyGivenNames -merge -underBinder q
    extract_lets +onlyGivenNames -merge -underBinder at2
    extract_lets +onlyGivenNames -merge -underBinder ns
    extract_lets +onlyGivenNames -merge -underBinder X
    clear_value X
    extract_lets +onlyGivenNames -merge -underBinder Y
    clear_value Y
    extract_lets +onlyGivenNames -merge -underBinder ovr
    extract_lets +onlyGivenNames -merge -underBinder d
    extract_lets +onlyGivenNames -merge -underBinder ev
    extract_lets +onlyGivenNames -merge -underBinder s1
    have hs1 : Within cs s0 s1 := State.incW_within (sub hc) (State.setWd_within (sub hc) hs)
    clear_value s1
    exact velTerm_within (sub hc) (wavefrontSend_within (sub hc) hs1)
  · exact hs

theorem wdSrcWrite_within {cs s0} {s n v} (hc : [.regs, .offers] ⊆ cs) (hs : Within cs s0 s) :
    Within cs s0 (wdSrcWrite s n v) := by
  unfold wdSrcWrite
  split
  · exact State.log_within (sub hc) hs
  · exact State.wr_within (sub hc) hs

end Sys2Proof.Machine
end

