-- ==== Sys2Proof/Laws/Dc.lean ====
section
/-! SUPPORT. What each operation of Machine/Dc.lean can change: one lemma per operation, cited in place of unfolding it. -/

namespace Sys2Proof.Machine

set_option Elab.async false

theorem ddMode_within {cs s0} {s c rem loc} (hc : [.offers, .nc] ⊆ cs) (hs : Within cs s0 s) :
    Within cs s0 (ddMode s c rem loc) := by
  unfold ddMode
  extract_lets +onlyGivenNames -merge -underBinder x
  split
  · exact Within.ite (State.setNc_within (sub hc) hs) (State.log_within (sub hc) (State.setNc_within (sub hc) hs))
  · refine Within.ite ?_ hs
    extract_lets +onlyGivenNames -merge -underBinder since
    exact Within.ite (State.setNc_within (sub hc) hs) (Within.ite (State.setNc_within (sub hc) hs) (Within.ite (State.log_within (sub hc) (State.setNc_within (sub hc) hs)) hs))

theorem ddRead_within {cs s0} {s c inst} (hc : [.offers, .nc] ⊆ cs) (hs : Within cs s0 s) :
    Within cs s0 (ddRead s c inst).1 := by
  unfold ddRead
  extract_lets +onlyGivenNames -merge -underBinder rem
  extract_lets +onlyGivenNames -merge -underBinder loc
  extract_lets +onlyGivenNames -merge -underBinder s1
  have hs1 : Within cs s0 s1 := ddMode_within (sub hc) hs
  clear_value s1
  refine Within.ite1 ?_ hs1
  refine Within.ite1 hs1 ?_
  extract_lets +onlyGivenNames -merge -underBinder p
  exact hs1

end Sys2Proof.Machine
end

