-- ==== Sys2Proof/Laws/Stroke.lean ====
section
/-! SUPPORT. What each operation of Machine/Stroke.lean can change: one lemma per operation, cited in place of unfolding it. -/

namespace Sys2Proof.Machine

set_option Elab.async false

theorem State.setSo_within {cs s0} {s n x} (hc : [.so] ⊆ cs) (hs : Within cs s0 s) :
    Within cs s0 (State.setSo s n x) := by
  unfold State.setSo
  exact Within.put_stk_so (sub hc) hs

theorem State.setStk_within {cs s0} {s x} (hc : [.so, .logicQ, .vec, .pub, .waits, .stk] ⊆ cs) (hs : Within cs s0 s) :
    Within cs s0 (State.setStk s x) := by
  unfold State.setStk
  exact Within.upd (s := s) (t := { s with stk := _ }) hs (fun c => by cases c <;> first | exact .inl (hc (by decide)) | exact .inr rfl) (fun h => ⟨h.1, h.2.1, h.2.2⟩)

theorem waitsFrom_within {cs s0} {s src} (hc : [.waits] ⊆ cs) (hs : Within cs s0 s) :
    Within cs s0 (waitsFrom s src) := by
  unfold waitsFrom
  exact Within.put_stk_sentAt (sub hc) hs

theorem logicMove_within {cs s0} {x s} (hc : [.logicQ, .waits] ⊆ cs) (hs : Within cs s0 s) :
    Within cs s0 (logicMove x s) := by
  induction x generalizing s with
  | zero =>
    rw [logicMove]
    exact hs
  | succ k ih =>
    rw [logicMove]
    split
    · exact Within.ite hs (ih (waitsFrom_within (sub hc) (Within.put_stk_logicQ_logicHold (sub hc) hs)))
    · exact hs

theorem logicFlit_within {cs s0} {s l} (hc : [.logicQ, .waits] ⊆ cs) (hs : Within cs s0 s) :
    Within cs s0 (logicFlit s l) := by
  unfold logicFlit
  exact logicMove_within (sub hc) (Within.put_stk_logicHold (sub hc) hs)

theorem logicSend_within {cs s0} {s l} (hc : [.logicQ, .waits] ⊆ cs) (hs : Within cs s0 s) :
    Within cs s0 (logicSend s l) := by
  unfold logicSend
  split
  · exact hs
  · exact logicFlit_within (sub hc) hs

theorem dlChange_within {cs s0} {s n w} (hc : [.waits, .stk] ⊆ cs) (hs : Within cs s0 s) :
    Within cs s0 (dlChange s n w) := by
  unfold dlChange
  exact waitsFrom_within (sub hc) (Within.put_stk_dlQ (sub hc) hs)

theorem strokeCommit_within {cs s0} {s} (hc : [.regs, .offers, .sess, .inkwell, .msix, .live, .committing, .commit] ⊆ cs) (hs : Within cs s0 s) :
    Within cs s0 (strokeCommit s) := by
  unfold strokeCommit
  exact takeCommit_within (sub hc) hs

theorem releaseSo_within {cs s0} {s n} (hc : [.regs, .so] ⊆ cs) (hs : Within cs s0 s) :
    Within cs s0 (releaseSo s n) := by
  unfold releaseSo
  extract_lets +onlyGivenNames -merge -underBinder s1
  have hs1 : Within cs s0 s1 := State.setFs_within (sub hc) hs
  clear_value s1
  exact State.setSo_within (sub hc) hs1

theorem releaseFor_within {cs s0} {s n cause} (hc : [.regs, .offers, .so] ⊆ cs) (hs : Within cs s0 s) :
    Within cs s0 (releaseFor s n cause) := by
  unfold releaseFor
  exact State.log_within (sub hc) (releaseSo_within (sub hc) hs)

theorem sealCheck_within {cs s0} {s n} (hc : [.regs, .offers, .so] ⊆ cs) (hs : Within cs s0 s) :
    Within cs s0 (sealCheck s n) := by
  unfold sealCheck
  refine Within.ite ?_ (Within.ite (State.setB_within (sub hc) hs) hs)
  refine Within.ite (releaseFor_within (sub hc) hs) ?_
  refine Within.ite ?_ hs
  extract_lets +onlyGivenNames -merge -underBinder l
  exact Within.ite (Within.ite (releaseFor_within (sub hc) hs) (State.setB_within (sub hc) hs)) (Within.ite (Within.ite (releaseFor_within (sub hc) hs) (Within.ite (State.log_within (sub hc) (State.incS_within (sub hc) (releaseFor_within (sub hc) hs))) (State.setB_within (sub hc) hs))) (releaseFor_within (sub hc) hs))

theorem assertSo_within {cs s0} {s n} (hc : [.regs, .offers, .recs, .vel, .so] ⊆ cs) (hs : Within cs s0 s) :
    Within cs s0 (assertSo s n) := by
  unfold assertSo
  extract_lets +onlyGivenNames -merge -underBinder c
  extract_lets +onlyGivenNames -merge -underBinder first
  extract_lets +onlyGivenNames -merge -underBinder td
  extract_lets +onlyGivenNames -merge -underBinder s1
  have hs1 : Within cs s0 s1 := State.setFs_within (sub hc) hs
  clear_value s1
  extract_lets +onlyGivenNames -merge -underBinder w s2
  have hs2 : Within cs s0 s2 := State.setSo_within (sub hc) (State.incW_within (sub hc) hs1)
  clear_value s2
  exact velTermNow_within (sub hc) (State.log_within (sub hc) hs2)

theorem evalSo_within {cs s0} {s n} (hc : [.regs, .offers, .recs, .vel, .so] ⊆ cs) (hs : Within cs s0 s) :
    Within cs s0 (evalSo s n) := by
  unfold evalSo
  extract_lets +onlyGivenNames -merge -underBinder pre
  extract_lets +onlyGivenNames -merge -underBinder rises
  extract_lets +onlyGivenNames -merge -underBinder s1
  have hs1 : Within cs s0 s1 := State.setFs_within (sub hc) hs
  clear_value s1
  exact Within.ite (assertSo_within (sub hc) hs1) (sealCheck_within (sub hc) hs1)

theorem evalSos_within {cs s0} {s} (hc : [.regs, .offers, .recs, .vel, .so] ⊆ cs) (hs : Within cs s0 s) :
    Within cs s0 (evalSos s) := by
  unfold evalSos
  exact Within.foldl hs (fun t a ht => evalSo_within (sub hc) ht)

theorem latchReset_within {cs s0} {src s n} (hc : [.regs, .offers, .so] ⊆ cs) (hs : Within cs s0 s) :
    Within cs s0 (latchReset src s n) := by
  unfold latchReset
  exact Within.ite (sealCheck_within (sub hc) (State.log_within (sub hc) (State.setSo_within (sub hc) hs))) hs

theorem quillResets_within {cs s0} {old s} (hc : [.regs, .offers, .so] ⊆ cs) (hs : Within cs s0 s) :
    Within cs s0 (quillResets old s) := by
  unfold quillResets
  refine Within.foldl hs (fun t a ht => ?_)
  extract_lets +onlyGivenNames -merge -underBinder i
  exact Within.ite (latchReset_within (sub hc) ht) ht

theorem pubSlot_within {cs s0} {i s p} (hc : [.regs, .pub] ⊆ cs) (hs : Within cs s0 s) :
    Within cs s0 (pubSlot i s p) := by
  unfold pubSlot
  extract_lets +onlyGivenNames -merge -underBinder v
  extract_lets +onlyGivenNames -merge -underBinder x
  extract_lets +onlyGivenNames -merge -underBinder put
  have hput : ∀ put0, Within cs s0 put0 → ∀ put1, Within cs s0 (put put0 put1) := by
    intro put0 hput0 put1
    unfold put
    exact Within.put_stk_pub (sub hc) hput0
  clear_value put
  exact Within.ite hs (Within.ite (hput _ (State.incS_within (sub hc) hs) _) (hput _ hs _))

theorem pubNote_within {cs s0} {s i} (hc : [.regs, .pub] ⊆ cs) (hs : Within cs s0 s) :
    Within cs s0 (pubNote s i) := by
  unfold pubNote
  exact Within.foldl hs (fun t a ht => pubSlot_within (sub hc) ht)

theorem pubAll_within {cs s0} {s} (hc : [.regs, .pub] ⊆ cs) (hs : Within cs s0 s) :
    Within cs s0 (pubAll s) := by
  unfold pubAll
  exact Within.foldl hs (fun t a ht => pubNote_within (sub hc) ht)

theorem applyUpdate_within {cs s0} {s l} (hc : [.regs, .offers, .sess, .inkwell, .msix, .recs, .vel, .live, .so, .logicQ, .vec, .pub, .waits, .stk, .committing, .commit] ⊆ cs) (hs : Within cs s0 s) :
    Within cs s0 (applyUpdate s l) := by
  unfold applyUpdate
  extract_lets +onlyGivenNames -merge -underBinder s0_1
  have hs0_1 : Within cs s0 s0_1 := strokeCommit_within (sub hc) hs
  clear_value s0_1
  extract_lets +onlyGivenNames -merge -underBinder s1
  have hs1 : Within cs s0 s1 := State.incW_within (sub hc) (Within.upd (s := s0_1) (t := { s0_1 with stk := _ }) hs0_1 (fun c => by cases c <;> first | exact .inl (hc (by decide)) | exact .inr rfl) (fun h => ⟨h.1, h.2.1, h.2.2⟩))
  clear_value s1
  exact pubAll_within (sub hc) (quillResets_within (sub hc) (evalSos_within (sub hc) hs1))

theorem evalAll_within {cs s0} {s} (hc : [.regs, .offers, .recs, .vel, .so, .pub] ⊆ cs) (hs : Within cs s0 s) :
    Within cs s0 (evalAll s) := by
  unfold evalAll
  exact pubAll_within (sub hc) (evalSos_within (sub hc) hs)

theorem pulsesEnd_within {cs s0} {s} (hc : [.regs, .offers, .recs, .vel, .so, .pub] ⊆ cs) (hs : Within cs s0 s) :
    Within cs s0 (pulsesEnd s) := by
  unfold pulsesEnd
  exact Within.ite (evalAll_within (sub hc) (Within.foldl hs (fun t a ht => Within.ite (State.setSo_within (sub hc) ht) ht))) hs

theorem mscFall_within {cs s0} {s new} (hc : [.regs, .offers, .so, .pub] ⊆ cs) (hs : Within cs s0 s) :
    Within cs s0 (mscFall s new) := by
  unfold mscFall
  extract_lets +onlyGivenNames -merge -underBinder mask
  extract_lets +onlyGivenNames -merge -underBinder s1
  have hs1 : Within cs s0 s1 := by
    unfold s1
    refine Within.foldl hs (fun t a ht => ?_)
    extract_lets +onlyGivenNames -merge -underBinder u
    have hu : Within cs s0 u := Within.ite (releaseSo_within (sub hc) ht) ht
    clear_value u
    exact State.setFs_within (sub hc) (State.setSo_within (sub hc) hu)
  clear_value s1
  exact pubAll_within (sub hc) (State.log_within (sub hc) hs1)

theorem sealThen_within {cs s0} {s n} (hc : [.regs, .offers, .so, .pub] ⊆ cs) (hs : Within cs s0 s) :
    Within cs s0 (sealThen s n) := by
  unfold sealThen
  exact pubAll_within (sub hc) (sealCheck_within (sub hc) hs)

theorem cgTimeout_within {cs s0} {s n} (hc : [.regs, .offers, .so, .pub] ⊆ cs) (hs : Within cs s0 s) :
    Within cs s0 (cgTimeout s n) := by
  unfold cgTimeout
  exact Within.ite (sealThen_within (sub hc) hs) hs

theorem strokeStart_within {cs s0} {s} (hc : [.regs, .so, .logicQ, .vec, .pub, .waits, .stk] ⊆ cs) (hs : Within cs s0 s) :
    Within cs s0 (strokeStart s) := by
  unfold strokeStart
  extract_lets +onlyGivenNames -merge -underBinder w s1
  have hs1 : Within cs s0 s1 := Within.upd (s := s) (t := { s with stk := _ }) hs (fun c => by cases c <;> first | exact .inl (hc (by decide)) | exact .inr rfl) (fun h => ⟨h.1, h.2.1, h.2.2⟩)
  clear_value s1
  exact Within.foldl hs1 (fun t a ht => State.wr_within (sub hc) (State.wr_within (sub hc) ht))

theorem publicationRequest_within {cs s0} {s i} (hc : [.regs, .pub] ⊆ cs) (hs : Within cs s0 s) :
    Within cs s0 (publicationRequest s i) := by
  unfold publicationRequest
  extract_lets +onlyGivenNames -merge -underBinder x
  extract_lets +onlyGivenNames -merge -underBinder q
  refine Within.ite ?_ hs
  extract_lets +onlyGivenNames -merge -underBinder r
  extract_lets +onlyGivenNames -merge -underBinder w s1
  have hs1 : Within cs s0 s1 := Within.put_stk_pub_pubOut (sub hc) hs
  clear_value s1
  exact pubNote_within (sub hc) hs1

theorem decisionSend_within {cs s0} {s e l} (hc : [.toStroke, .waits] ⊆ cs) (hs : Within cs s0 s) :
    Within cs s0 (decisionSend s e l) := by
  unfold decisionSend
  exact waitsFrom_within (sub hc) (Within.put_nib_toStroke (sub hc) hs)

theorem currentGoneEnd_within {cs s0} {s n} (hc : [.regs, .offers, .so, .pub] ⊆ cs) (hs : Within cs s0 s) :
    Within cs s0 (currentGoneEnd s n) := by
  unfold currentGoneEnd
  exact Within.ite (sealThen_within (sub hc) hs) hs

theorem driveHalf_within {cs s0} {s n} (hc : [.so] ⊆ cs) (hs : Within cs s0 s) :
    Within cs s0 (driveHalf s n) := by
  unfold driveHalf
  extract_lets +onlyGivenNames -merge -underBinder x
  exact Within.ite hs (Within.ite (Within.ite hs (State.setSo_within (sub hc) hs)) (Within.ite hs (State.setSo_within (sub hc) hs)))

theorem feedbackFault_within {cs s0} {s n bit first e} (hc : [.regs, .offers, .pub] ⊆ cs) (hs : Within cs s0 s) :
    Within cs s0 (feedbackFault s n bit first e) := by
  unfold feedbackFault
  extract_lets +onlyGivenNames -merge -underBinder s1
  have hs1 : Within cs s0 s1 := State.wr_within (sub hc) hs
  clear_value s1
  extract_lets +onlyGivenNames -merge -underBinder s2
  have hs2 : Within cs s0 s2 := Within.ite (State.log_within (sub hc) (State.incS_within (sub hc) hs1)) hs1
  clear_value s2
  exact pubAll_within (sub hc) hs2

theorem fbNoRise_within {cs s0} {s n} (hc : [.regs, .offers, .so, .pub] ⊆ cs) (hs : Within cs s0 s) :
    Within cs s0 (fbNoRise s n) := by
  unfold fbNoRise
  extract_lets +onlyGivenNames -merge -underBinder x
  exact Within.ite (feedbackFault_within (sub hc) (State.setSo_within (sub hc) hs)) hs

theorem fbRest_within {cs s0} {s n} (hc : [.regs, .offers, .so, .pub] ⊆ cs) (hs : Within cs s0 s) :
    Within cs s0 (fbRest s n) := by
  unfold fbRest
  extract_lets +onlyGivenNames -merge -underBinder x
  exact Within.ite (feedbackFault_within (sub hc) (State.setSo_within (sub hc) hs)) hs

theorem feedbackLevel_within {cs s0} {s n level} (hc : [.regs, .so] ⊆ cs) (hs : Within cs s0 s) :
    Within cs s0 (feedbackLevel s n level) := by
  unfold feedbackLevel
  refine Within.ite hs ?_
  extract_lets +onlyGivenNames -merge -underBinder x
  extract_lets +onlyGivenNames -merge -underBinder x1
  exact State.setB_within (sub hc) (State.setSo_within (sub hc) hs)

theorem stkResetWrite_within {cs s0} {s v} (hc : [.regs, .offers, .so, .pub] ⊆ cs) (hs : Within cs s0 s) :
    Within cs s0 (stkResetWrite s v) := by
  unfold stkResetWrite
  exact pubAll_within (sub hc) (Within.foldl hs (fun t a ht => latchReset_within (sub hc) ht))

theorem serveSource_within {cs s0} {s src} (hc : [.regs, .offers, .sess, .inkwell, .msix, .recs, .vel, .live, .toStroke, .so, .logicQ, .vec, .pub, .waits, .stk, .committing, .commit] ⊆ cs) (hs : Within cs s0 s) :
    Within cs s0 (serveSource s src) := by
  unfold serveSource
  refine Within.ite ?_ ?_
  · split
    · extract_lets +onlyGivenNames -merge -underBinder w s1
      have hs1 : Within cs s0 s1 := applyUpdate_within (sub hc) (Within.put_nib_toStroke (sub hc) hs)
      clear_value s1
      refine Within.foldl hs1 (fun t a ht => ?_)
      extract_lets +onlyGivenNames -merge -underBinder u
      have hu : Within cs s0 u := Within.ite (velTerm_within (sub hc) ht) ht
      clear_value u
      exact Within.ite (velTerm_within (sub hc) hu) hu
    · exact hs
  · refine Within.ite ?_ ?_
    · split
      · exact applyUpdate_within (sub hc) (Within.put_stk_logicQ (sub hc) hs)
      · exact hs
    · split
      · exact applyUpdate_within (sub hc) (Within.put_stk_dlQ (sub hc) hs)
      · exact hs

theorem stkTestBody_within {cs s0} {n s c} (hc : [.regs, .offers, .recs, .vel, .so, .pub] ⊆ cs) (hs : Within cs s0 s) :
    Within cs s0 (stkTestBody n s c).s := by
  unfold stkTestBody
  extract_lets +onlyGivenNames -merge -underBinder mask
  extract_lets +onlyGivenNames -merge -underBinder width
  extract_lets +onlyGivenNames -merge -underBinder outs
  refine Within.iteS (refuse_within (sub hc) hs) ?_
  refine Within.iteS (refuse_within (sub hc) hs) ?_
  refine Within.iteS (refuse_within (sub hc) hs) ?_
  extract_lets +onlyGivenNames -merge -underBinder s1
  have hs1 : Within cs s0 s1 := Within.foldl hs (fun t a ht => State.log_within (sub hc) (State.setSo_within (sub hc) ht))
  clear_value s1
  exact okay_within (sub hc) (evalAll_within (sub hc) hs1)

theorem strokeUpdate_within {cs s0} {s src} (hc : [.regs, .offers, .sess, .inkwell, .msix, .recs, .vel, .live, .toStroke, .so, .logicQ, .vec, .pub, .waits, .stk, .committing, .commit] ⊆ cs) (hs : Within cs s0 s) :
    Within cs s0 (strokeUpdate s src) := by
  unfold strokeUpdate
  exact Within.ite (serveSource_within (sub hc) (Within.put_stk_updAt_turn_sentAt (sub hc) hs)) hs

theorem testPulseEnd_within {cs s0} {s n} (hc : [.regs, .offers, .recs, .vel, .so, .pub] ⊆ cs) (hs : Within cs s0 s) :
    Within cs s0 (testPulseEnd s n) := by
  unfold testPulseEnd
  split
  · exact Within.ite (evalAll_within (sub hc) (State.setSo_within (sub hc) hs)) hs
  · exact hs

theorem tminEnd_within {cs s0} {s n} (hc : [.regs, .offers, .so, .pub] ⊆ cs) (hs : Within cs s0 s) :
    Within cs s0 (tminEnd s n) := by
  unfold tminEnd
  exact Within.ite (sealThen_within (sub hc) hs) hs

end Sys2Proof.Machine
end

