-- ==== Sys2Proof/Laws/Sv.lean ====
section
/-! SUPPORT. What each operation of Machine/Sv.lean can change: one lemma per operation, cited in place of unfolding it. -/

namespace Sys2Proof.Machine

set_option Elab.async false

theorem freeIngress_within {cs s0} {s p len} (hc : [.port] ⊆ cs) (hs : Within cs s0 s) :
    Within cs s0 (freeIngress s p len) := by
  unfold freeIngress
  exact State.setPort_within (sub hc) hs

theorem svInvalid_within {cs s0} {s c} (hc : [.regs, .offers] ⊆ cs) (hs : Within cs s0 s) :
    Within cs s0 (svInvalid s c) := by
  unfold svInvalid
  exact Within.ite hs (State.log_within (sub hc) (State.incW_within (sub hc) (State.setF_within (sub hc) hs)))

theorem svPutSet_within {cs s0} {s c z} (hc : [.sc] ⊆ cs) (hs : Within cs s0 s) :
    Within cs s0 (svPutSet s c z) := by
  unfold svPutSet
  extract_lets +onlyGivenNames -merge -underBinder x
  exact State.setSc_within (sub hc) hs

theorem svPut_within {cs s0} {s c inst vals quals} (hc : [.sc] ⊆ cs) (hs : Within cs s0 s) :
    Within cs s0 (svPut s c inst vals quals) := by
  unfold svPut
  exact svPutSet_within (sub hc) hs

theorem svHold_within {cs s0} {s c inst q} (hc : [.sc] ⊆ cs) (hs : Within cs s0 s) :
    Within cs s0 (svHold s c inst q) := by
  unfold svHold
  extract_lets +onlyGivenNames -merge -underBinder h_1
  exact svPut_within (sub hc) hs

theorem svMissing_within {cs s0} {s c inst} (hc : [.regs, .offers, .sc] ⊆ cs) (hs : Within cs s0 s) :
    Within cs s0 (svMissing s c inst) := by
  unfold svMissing
  extract_lets +onlyGivenNames -merge -underBinder x
  extract_lets +onlyGivenNames -merge -underBinder s1
  have hs1 : Within cs s0 s1 := State.setF_within (sub hc) (State.setSc_within (sub hc) hs)
  clear_value s1
  exact Within.ite (State.incW_within (sub hc) (svHold_within (sub hc) hs1)) (svHold_within (sub hc) (svInvalid_within (sub hc) hs1))

theorem svMissingRun_within {cs s0} {c step x x1 s} (hc : [.regs, .offers, .sc] ⊆ cs) (hs : Within cs s0 s) :
    Within cs s0 (svMissingRun c step x x1 s) := by
  induction x generalizing c step x1 s with
  | zero =>
    rw [svMissingRun]
    exact hs
  | succ k ih =>
    rw [svMissingRun]
    refine Within.ite (ih (svMissing_within (sub hc) hs)) ?_
    extract_lets +onlyGivenNames -merge -underBinder s1
    have hs1 : Within cs s0 s1 := svMissing_within (sub hc) hs
    clear_value s1
    exact State.setSc_within (sub hc) hs1

theorem svComplete_within {cs s0} {s c m} (hc : [.regs, .offers, .sc] ⊆ cs) (hs : Within cs s0 s) :
    Within cs s0 (svComplete s c m) := by
  unfold svComplete
  extract_lets +onlyGivenNames -merge -underBinder run
  extract_lets +onlyGivenNames -merge -underBinder s1
  have hs1 : Within cs s0 s1 := Within.ite hs (Within.ite (State.log_within (sub hc) (State.setFs_within (sub hc) hs)) (State.setF_within (sub hc) hs))
  clear_value s1
  extract_lets +onlyGivenNames -merge -underBinder s2
  have hs2 : Within cs s0 s2 := State.setFs_within (sub hc) hs1
  clear_value s2
  extract_lets +onlyGivenNames -merge -underBinder w s3
  have hs3 : Within cs s0 s3 := svPutSet_within (sub hc) hs2
  clear_value s3
  exact State.setSc_within (sub hc) hs3

theorem svSample_within {cs s0} {c late s m} (hc : [.regs, .offers, .sc] ⊆ cs) (hlate : ∀ y0, Within cs s0 y0 → Within cs s0 (late y0)) (hs : Within cs s0 s) :
    Within cs s0 (svSample c late s m) := by
  unfold svSample
  extract_lets +onlyGivenNames -merge -underBinder step
  extract_lets +onlyGivenNames -merge -underBinder wrap
  extract_lets +onlyGivenNames -merge -underBinder inst
  extract_lets +onlyGivenNames -merge -underBinder x
  split
  · exact Within.ite (hlate _ hs) (svComplete_within (sub hc) (Within.ite (svHold_within (sub hc) hs) hs))
  · extract_lets +onlyGivenNames -merge -underBinder d
    exact Within.ite (svComplete_within (sub hc) hs) (Within.ite (svComplete_within (sub hc) (svMissingRun_within (sub hc) hs)) (hlate _ hs))

theorem svWaiting_within {cs s0} {s c} (hc : [.regs, .sc] ⊆ cs) (hs : Within cs s0 s) :
    Within cs s0 (svWaiting s c) := by
  unfold svWaiting
  extract_lets +onlyGivenNames -merge -underBinder x
  extract_lets +onlyGivenNames -merge -underBinder s1
  have hs1 : Within cs s0 s1 := State.setSc_within (sub hc) hs
  clear_value s1
  exact State.setFs_within (sub hc) hs1

theorem svTakeMode_within {cs s0} {s c} (hc : [.regs, .offers, .sess, .inkwell, .msix, .sc, .modePend] ⊆ cs) (hs : Within cs s0 s) :
    Within cs s0 (svTakeMode s c) := by
  unfold svTakeMode
  split
  · extract_lets +onlyGivenNames -merge -underBinder back
    extract_lets +onlyGivenNames -merge -underBinder s1
    have hs1 : Within cs s0 s1 := State.setB_within (sub hc) hs
    clear_value s1
    exact modeTaken_within (sub hc) (Within.ite (svWaiting_within (sub hc) hs1) hs1)
  · exact hs

theorem svCommit_within {cs s0} {s c} (hc : [.regs, .offers, .sess, .inkwell, .msix, .sc, .live, .committing, .commit] ⊆ cs) (hs : Within cs s0 s) :
    Within cs s0 (svCommit s c) := by
  unfold svCommit
  extract_lets +onlyGivenNames -merge -underBinder was
  extract_lets +onlyGivenNames -merge -underBinder s1
  have hs1 : Within cs s0 s1 := takeCommit_within (sub hc) hs
  clear_value s1
  exact Within.ite (Within.ite hs1 (svWaiting_within (sub hc) hs1)) (Within.ite (State.setF_within (sub hc) hs1) hs1)

theorem svLate_within {cs s0} {c port s} (hc : [.regs] ⊆ cs) (hs : Within cs s0 s) :
    Within cs s0 (svLate c port s) := by
  unfold svLate
  exact State.portRule_within (sub hc) (State.incW_within (sub hc) hs)

theorem svAsdu_within {cs s0} {c r s a} (hc : [.regs, .offers, .sc] ⊆ cs) (hs : Within cs s0 s) :
    Within cs s0 (svAsdu c r s a) := by
  unfold svAsdu
  extract_lets +onlyGivenNames -merge -underBinder inst
  extract_lets +onlyGivenNames -merge -underBinder quals
  exact svSample_within (sub hc) (fun s_1 hs_1 => svLate_within (sub hc) hs_1) hs

theorem svDecode_within {cs s0} {s} (hc : [.regs, .offers, .sess, .inkwell, .msix, .port, .sc, .svq, .pbi, .live, .committing, .commit] ⊆ cs) (hs : Within cs s0 s) :
    Within cs s0 (svDecode s) := by
  unfold svDecode
  split
  · extract_lets +onlyGivenNames -merge -underBinder c
    extract_lets +onlyGivenNames -merge -underBinder w s0_1
    have hs0_1 : Within cs s0 s0_1 := freeIngress_within (sub hc) (Within.put_pbi_svq_decoded (sub hc) hs)
    clear_value s0_1
    extract_lets +onlyGivenNames -merge -underBinder w_2 t w_3 s1
    have hs1 : Within cs s0 s1 := by
      unfold s1
      refine Within.ite (State.portCnt_within (sub hc) hs0_1) ?_
      refine Within.ite (Within.foldl (State.setSc_within (sub hc) hs0_1) (fun t_4 a ht_4 => svAsdu_within (sub hc) ht_4)) ?_
      have ht : Within cs s0 t := State.portRule_within (sub hc) (State.incW_within (sub hc) hs0_1)
      clear_value t
      exact Within.ite ht (State.log_within (sub hc) (State.setSc_within (sub hc) ht))
    clear_value s1
    exact svCommit_within (sub hc) hs1
  · exact hs

theorem svMissingDeadline_within {cs s0} {s c} (hc : [.regs, .offers, .sc] ⊆ cs) (hs : Within cs s0 s) :
    Within cs s0 (svMissingDeadline s c) := by
  unfold svMissingDeadline
  extract_lets +onlyGivenNames -merge -underBinder x
  split
  · extract_lets +onlyGivenNames -merge -underBinder k
    exact Within.ite (svMissing_within (sub hc) hs) hs
  · exact hs

theorem svWaitingDeadline_within {cs s0} {s c} (hc : [.sc] ⊆ cs) (hs : Within cs s0 s) :
    Within cs s0 (svWaitingDeadline s c) := by
  unfold svWaitingDeadline
  extract_lets +onlyGivenNames -merge -underBinder x
  extract_lets +onlyGivenNames -merge -underBinder t
  exact Within.ite (svHold_within (sub hc) hs) hs

end Sys2Proof.Machine
end

