-- ==== Sys2Proof/Laws/Goose.lean ====
section
/-! SUPPORT. What each operation of Machine/Goose.lean can change: one lemma per operation, cited in place of unfolding it. -/

namespace Sys2Proof.Machine

set_option Elab.async false

theorem State.setGs_within {cs s0} {s g x} (hc : [.gs] ⊆ cs) (hs : Within cs s0 s) :
    Within cs s0 (State.setGs s g x) := by
  unfold State.setGs
  exact Within.put_pbi_gs (sub hc) hs

theorem gsApplyPending_within {cs s0} {s} (hc : [.gs] ⊆ cs) (hs : Within cs s0 s) :
    Within cs s0 (gsApplyPending s) := by
  unfold gsApplyPending
  refine Within.foldl hs (fun t a ht => ?_)
  split
  · exact State.setGs_within (sub hc) ht
  · exact ht

theorem gbUpdate_within {cs s0} {s} (hc : [.regs, .offers, .pbi, .recs, .vel, .logicQ, .waits] ⊆ cs) (hs : Within cs s0 s) :
    Within cs s0 (gbUpdate s) := by
  unfold gbUpdate
  extract_lets +onlyGivenNames -merge -underBinder l
  refine Within.foldl (logicSend_within (sub hc) hs) (fun t a ht => ?_)
  extract_lets +onlyGivenNames -merge -underBinder k
  exact Within.ite ht (velTermNow_within (sub hc) (Within.put_pbi_gb (sub hc) ht))

theorem gsTakeMode_within {cs s0} {s g} (hc : [.regs, .offers, .sess, .inkwell, .msix, .modePend] ⊆ cs) (hs : Within cs s0 s) :
    Within cs s0 (gsTakeMode s g) := by
  unfold gsTakeMode
  split
  · exact modeTaken_within (sub hc) (State.setB_within (sub hc) hs)
  · exact hs

theorem gsWaiting_within {cs s0} {s g} (hc : [.regs, .offers, .gs, .pbi, .recs, .vel, .logicQ, .waits] ⊆ cs) (hs : Within cs s0 s) :
    Within cs s0 (gsWaiting s g) := by
  unfold gsWaiting
  extract_lets +onlyGivenNames -merge -underBinder n
  extract_lets +onlyGivenNames -merge -underBinder img
  exact gbUpdate_within (sub hc) (State.setF_within (sub hc) (State.setGs_within (sub hc) hs))

theorem gsCommit_within {cs s0} {s g} (hc : [.regs, .offers, .sess, .inkwell, .msix, .gs, .pbi, .recs, .vel, .live, .logicQ, .waits, .committing, .commit] ⊆ cs) (hs : Within cs s0 s) :
    Within cs s0 (gsCommit s g) := by
  unfold gsCommit
  extract_lets +onlyGivenNames -merge -underBinder was
  extract_lets +onlyGivenNames -merge -underBinder s1
  have hs1 : Within cs s0 s1 := takeCommit_within (sub hc) hs
  clear_value s1
  exact Within.ite (Within.ite hs1 (gsWaiting_within (sub hc) hs1)) (Within.ite (State.setF_within (sub hc) hs1) hs1)

theorem gsApply_within {cs s0} {s g img tal test nds ltc} (hc : [.regs, .offers, .gs, .pbi, .recs, .vel, .logicQ, .waits] ⊆ cs) (hs : Within cs s0 s) :
    Within cs s0 (gsApply s g img tal test nds ltc) := by
  unfold gsApply
  extract_lets +onlyGivenNames -merge -underBinder x
  extract_lets +onlyGivenNames -merge -underBinder s1
  have hs1 : Within cs s0 s1 := Within.ite (State.incS_within (sub hc) hs) hs
  clear_value s1
  extract_lets +onlyGivenNames -merge -underBinder s2
  have hs2 : Within cs s0 s2 := Within.ite (State.log_within (sub hc) hs1) hs1
  clear_value s2
  extract_lets +onlyGivenNames -merge -underBinder s3
  have hs3 : Within cs s0 s3 := Within.ite (State.log_within (sub hc) hs2) hs2
  clear_value s3
  extract_lets +onlyGivenNames -merge -underBinder s4
  have hs4 : Within cs s0 s4 := State.setFs_within (sub hc) hs3
  clear_value s4
  exact gbUpdate_within (sub hc) (State.setGs_within (sub hc) hs4)

theorem gsRepeat_within {cs s0} {s g m ltc} (hc : [.regs, .offers, .gs, .pbi, .recs, .vel, .logicQ, .waits] ⊆ cs) (hs : Within cs s0 s) :
    Within cs s0 (gsRepeat s g m ltc) := by
  unfold gsRepeat
  extract_lets +onlyGivenNames -merge -underBinder x
  extract_lets +onlyGivenNames -merge -underBinder img
  extract_lets +onlyGivenNames -merge -underBinder y
  extract_lets +onlyGivenNames -merge -underBinder s1
  have hs1 : Within cs s0 s1 := Within.ite hs (State.incS_within (sub hc) hs)
  clear_value s1
  extract_lets +onlyGivenNames -merge -underBinder s2
  have hs2 : Within cs s0 s2 := Within.ite (State.log_within (sub hc) hs1) hs1
  clear_value s2
  extract_lets +onlyGivenNames -merge -underBinder s3
  have hs3 : Within cs s0 s3 := State.setFs_within (sub hc) hs2
  clear_value s3
  exact Within.ite (State.setGs_within (sub hc) hs3) (gbUpdate_within (sub hc) (State.setGs_within (sub hc) hs3))

theorem gsAccept_within {cs s0} {s g m ltc} (hc : [.regs, .offers, .gs, .pbi, .recs, .vel, .logicQ, .waits] ⊆ cs) (hs : Within cs s0 s) :
    Within cs s0 (gsAccept s g m ltc) := by
  unfold gsAccept
  extract_lets +onlyGivenNames -merge -underBinder st
  extract_lets +onlyGivenNames -merge -underBinder sq
  extract_lets +onlyGivenNames -merge -underBinder num
  have hnum : ∀ num0, Within cs s0 num0 → Within cs s0 (num num0) := by
    intro num0 hnum0
    unfold num
    exact State.wr_within (sub hc) (State.wr_within (sub hc) hnum0)
  clear_value num
  extract_lets +onlyGivenNames -merge -underBinder new
  have hnew : ∀ new0, Within cs s0 new0 → Within cs s0 (new new0) := by
    intro new0 hnew0
    unfold new
    exact hnum _ (gsApply_within (sub hc) hnew0)
  clear_value new
  refine Within.ite (hnew _ hs) ?_
  refine Within.ite ?_ (Within.ite (hnew _ hs) (hnew _ (State.log_within (sub hc) (State.incS_within (sub hc) hs))))
  extract_lets +onlyGivenNames -merge -underBinder d
  exact Within.ite (hnum _ (gsRepeat_within (sub hc) hs)) (State.incS_within (sub hc) hs)

theorem gooseTake_within {cs s0} {s r rest} (hc : [.regs, .offers, .sess, .inkwell, .msix, .port, .gs, .gq, .pbi, .recs, .vel, .live, .logicQ, .waits, .committing, .commit] ⊆ cs) (hs : Within cs s0 s) :
    Within cs s0 (gooseTake s r rest) := by
  unfold gooseTake
  extract_lets +onlyGivenNames -merge -underBinder g
  extract_lets +onlyGivenNames -merge -underBinder w s0_1
  have hs0_1 : Within cs s0 s0_1 := freeIngress_within (sub hc) (Within.put_pbi_gq (sub hc) hs)
  clear_value s0_1
  extract_lets +onlyGivenNames -merge -underBinder t t1 s1
  have hs1 : Within cs s0 s1 := by
    unfold s1
    refine Within.ite (State.portCnt_within (sub hc) hs0_1) ?_
    refine Within.ite (gsAccept_within (sub hc) (State.setB_within (sub hc) hs0_1)) ?_
    have ht : Within cs s0 t := State.portRule_within (sub hc) (State.incS_within (sub hc) hs0_1)
    clear_value t
    have ht1 : Within cs s0 t1 := Within.ite ht (State.log_within (sub hc) ht)
    clear_value t1
    exact Within.ite ht1 (State.log_within (sub hc) (State.setB_within (sub hc) ht1))
  clear_value s1
  exact gsCommit_within (sub hc) hs1

theorem gooseDecode_within {cs s0} {s} (hc : [.regs, .offers, .sess, .inkwell, .msix, .port, .gs, .gq, .pbi, .recs, .vel, .live, .logicQ, .waits, .committing, .commit] ⊆ cs) (hs : Within cs s0 s) :
    Within cs s0 (gooseDecode s) := by
  unfold gooseDecode
  split
  · extract_lets +onlyGivenNames -merge -underBinder t
    have ht : Within cs s0 t := gooseTake_within (sub hc) hs
    clear_value t
    exact Within.ite hs ht
  · exact hs

theorem hostEntryTaken_within {cs s0} {s g} (hc : [.regs, .offers, .gs, .pbi, .recs, .vel, .logicQ, .waits] ⊆ cs) (hs : Within cs s0 s) :
    Within cs s0 (hostEntryTaken s g) := by
  unfold hostEntryTaken
  extract_lets +onlyGivenNames -merge -underBinder base
  extract_lets +onlyGivenNames -merge -underBinder seq
  extract_lets +onlyGivenNames -merge -underBinder x
  refine Within.ite ?_ hs
  extract_lets +onlyGivenNames -merge -underBinder n
  extract_lets +onlyGivenNames -merge -underBinder s0_1
  have hs0_1 : Within cs s0 s0_1 := State.setGs_within (sub hc) hs
  clear_value s0_1
  extract_lets +onlyGivenNames -merge -underBinder tal
  extract_lets +onlyGivenNames -merge -underBinder flags
  extract_lets +onlyGivenNames -merge -underBinder extra
  refine Within.ite (State.incS_within (sub hc) hs0_1) ?_
  extract_lets +onlyGivenNames -merge -underBinder test
  extract_lets +onlyGivenNames -merge -underBinder nds
  extract_lets +onlyGivenNames -merge -underBinder img
  exact gsApply_within (sub hc) hs0_1

theorem gooseHostEntry_within {cs s0} {s g} (hc : [.regs, .offers, .gs, .pbi, .recs, .vel, .logicQ, .waits] ⊆ cs) (hs : Within cs s0 s) :
    Within cs s0 (gooseHostEntry s g) := by
  unfold gooseHostEntry
  extract_lets +onlyGivenNames -merge -underBinder t
  have ht : Within cs s0 t := hostEntryTaken_within (sub hc) hs
  clear_value t
  exact Within.ite hs ht

theorem gooseStale_within {cs s0} {s g} (hc : [.regs, .offers, .gs, .pbi, .recs, .vel, .logicQ, .waits] ⊆ cs) (hs : Within cs s0 s) :
    Within cs s0 (gooseStale s g) := by
  unfold gooseStale
  extract_lets +onlyGivenNames -merge -underBinder x
  refine Within.ite ?_ hs
  extract_lets +onlyGivenNames -merge -underBinder d
  extract_lets +onlyGivenNames -merge -underBinder vals
  extract_lets +onlyGivenNames -merge -underBinder w img
  exact gbUpdate_within (sub hc) (State.log_within (sub hc) (State.setF_within (sub hc) (State.setGs_within (sub hc) hs)))

end Sys2Proof.Machine
end

