-- ==== Sys2Proof/Laws/Ruling.lean ====
section
/-! SUPPORT. What each operation of Machine/Ruling.lean can change: one lemma per operation, cited in place of unfolding it. -/

namespace Sys2Proof.Machine

set_option Elab.async false

theorem State.setClk_within {cs s0} {s c} (hc : [.clk] ⊆ cs) (hs : Within cs s0 s) :
    Within cs s0 (State.setClk s c) := by
  unfold State.setClk
  exact Within.put_rul_clk (sub hc) hs

theorem State.setDom_within {cs s0} {s d x} (hc : [.dom] ⊆ cs) (hs : Within cs s0 s) :
    Within cs s0 (State.setDom s d x) := by
  unfold State.setDom
  exact Within.put_rul_dom (sub hc) hs

theorem State.setPtpPort_within {cs s0} {s p x} (hc : [.ptp] ⊆ cs) (hs : Within cs s0 s) :
    Within cs s0 (State.setPtpPort s p x) := by
  unfold State.setPtpPort
  exact Within.put_rul_ptp (sub hc) hs

theorem State.setShadow_within {cs s0} {s r a v} (hc : [.clk] ⊆ cs) (hs : Within cs s0 s) :
    Within cs s0 (State.setShadow s r a v) := by
  unfold State.setShadow
  exact State.setClk_within (sub hc) hs

theorem acceptDelay_within {cs s0} {s d} (hc : [.regs, .dom, .ptp] ⊆ cs) (hs : Within cs s0 s) :
    Within cs s0 (acceptDelay s d) := by
  unfold acceptDelay
  split
  · split
    · exact State.setDom_within (sub hc) (State.setF_within (sub hc) (State.setPtpPort_within (sub hc) hs))
    · exact hs
  · exact hs

theorem popPtp_within {cs s0} {s} (hc : [.ptpIn] ⊆ cs) (hs : Within cs s0 s) :
    Within cs s0 (popPtp s) := by
  unfold popPtp
  exact Within.put_rul_ptpIn (sub hc) hs

theorem takeInacc_within {cs s0} {s d inacc} (hc : [.dom] ⊆ cs) (hs : Within cs s0 s) :
    Within cs s0 (takeInacc s d inacc) := by
  unfold takeInacc
  split
  · exact State.setDom_within (sub hc) hs
  · exact hs

theorem closeSpell_within {cs s0} {s d} (hc : [.dom] ⊆ cs) (hs : Within cs s0 s) :
    Within cs s0 (closeSpell s d) := by
  unfold closeSpell
  extract_lets +onlyGivenNames -merge -underBinder x
  exact Within.ite (State.setDom_within (sub hc) hs) (State.setDom_within (sub hc) hs)

theorem setDomSt_within {cs s0} {s d st} (hc : [.regs] ⊆ cs) (hs : Within cs s0 s) :
    Within cs s0 (setDomSt s d st) := by
  unfold setDomSt
  exact State.setF_within (sub hc) hs

theorem showFreq_within {cs s0} {s d} (hc : [.regs] ⊆ cs) (hs : Within cs s0 s) :
    Within cs s0 (showFreq s d) := by
  unfold showFreq
  exact State.setF_within (sub hc) hs

theorem setFreq_within {cs s0} {s d f} (hc : [.regs, .dom] ⊆ cs) (hs : Within cs s0 s) :
    Within cs s0 (setFreq s d f) := by
  unfold setFreq
  extract_lets +onlyGivenNames -merge -underBinder s1
  have hs1 : Within cs s0 s1 := closeSpell_within (sub hc) hs
  clear_value s1
  exact showFreq_within (sub hc) (State.setDom_within (sub hc) hs1)

theorem noteUsable_within {cs s0} {s d} (hc : [.regs, .dom] ⊆ cs) (hs : Within cs s0 s) :
    Within cs s0 (noteUsable s d) := by
  unfold noteUsable
  extract_lets +onlyGivenNames -merge -underBinder u
  extract_lets +onlyGivenNames -merge -underBinder s1
  have hs1 : Within cs s0 s1 := State.setB_within (sub hc) hs
  clear_value s1
  extract_lets +onlyGivenNames -merge -underBinder x
  exact State.setDom_within (sub hc) hs1

theorem enterHoldover_within {cs s0} {s d} (hc : [.regs, .dom] ⊆ cs) (hs : Within cs s0 s) :
    Within cs s0 (enterHoldover s d) := by
  unfold enterHoldover
  extract_lets +onlyGivenNames -merge -underBinder e0
  extract_lets +onlyGivenNames -merge -underBinder s1
  have hs1 : Within cs s0 s1 := closeSpell_within (sub hc) hs
  clear_value s1
  extract_lets +onlyGivenNames -merge -underBinder x
  extract_lets +onlyGivenNames -merge -underBinder long
  extract_lets +onlyGivenNames -merge -underBinder s2
  have hs2 : Within cs s0 s2 := setDomSt_within (sub hc) hs1
  clear_value s2
  extract_lets +onlyGivenNames -merge -underBinder s3
  have hs3 : Within cs s0 s3 := State.setDom_within (sub hc) hs2
  clear_value s3
  exact noteUsable_within (sub hc) (setFreq_within (sub hc) hs3)

theorem reselect_within {cs s0} {s d} (hc : [.regs, .dom] ⊆ cs) (hs : Within cs s0 s) :
    Within cs s0 (reselect s d) := by
  unfold reselect
  extract_lets +onlyGivenNames -merge -underBinder x
  extract_lets +onlyGivenNames -merge -underBinder cands
  split
  · extract_lets +onlyGivenNames -merge -underBinder s1
    have hs1 : Within cs s0 s1 := State.setF_within (sub hc) hs
    clear_value s1
    refine Within.ite hs1 ?_
    extract_lets +onlyGivenNames -merge -underBinder s2
    have hs2 : Within cs s0 s2 := State.setDom_within (sub hc) hs1
    clear_value s2
    extract_lets +onlyGivenNames -merge -underBinder s3
    have hs3 : Within cs s0 s3 := State.setF_within (sub hc) hs2
    clear_value s3
    split
    · exact State.setF_within (sub hc) hs3
    · exact hs3
  · extract_lets +onlyGivenNames -merge -underBinder s1
    have hs1 : Within cs s0 s1 := State.setDom_within (sub hc) hs
    clear_value s1
    extract_lets +onlyGivenNames -merge -underBinder st
    exact Within.ite (enterHoldover_within (sub hc) hs1) hs1

theorem domAnnounce_within {cs s0} {r ds logInt inacc s d} (hc : [.regs, .dom] ⊆ cs) (hs : Within cs s0 s) :
    Within cs s0 (domAnnounce r ds logInt inacc s d) := by
  unfold domAnnounce
  extract_lets +onlyGivenNames -merge -underBinder x
  extract_lets +onlyGivenNames -merge -underBinder s1
  have hs1 : Within cs s0 s1 := State.setDom_within (sub hc) hs
  clear_value s1
  exact reselect_within (sub hc) (Within.ite (takeInacc_within (sub hc) hs1) hs1)

theorem noteSlew_within {cs s0} {s} (hc : [.regs] ⊆ cs) (hs : Within cs s0 s) :
    Within cs s0 (noteSlew s) := by
  unfold noteSlew
  exact State.setB_within (sub hc) hs

theorem endHold_within {cs s0} {s} (hc : [.regs, .clk] ⊆ cs) (hs : Within cs s0 s) :
    Within cs s0 (endHold s) := by
  unfold endHold
  exact noteSlew_within (sub hc) (State.setB_within (sub hc) (State.setClk_within (sub hc) hs))

theorem dtcStep_within {cs s0} {s useGrant} (hc : [.regs, .clk, .dom, .offers, .sc, .recs, .exporting, .vel] ⊆ cs) (hs : Within cs s0 s) :
    Within cs s0 (dtcStep s useGrant) := by
  unfold dtcStep
  extract_lets +onlyGivenNames -merge -underBinder d
  extract_lets +onlyGivenNames -merge -underBinder before
  extract_lets +onlyGivenNames -merge -underBinder c
  extract_lets +onlyGivenNames -merge -underBinder target
  extract_lets +onlyGivenNames -merge -underBinder s1
  have hs1 : Within cs s0 s1 := State.setClk_within (sub hc) hs
  clear_value s1
  extract_lets +onlyGivenNames -merge -underBinder w s2
  have hs2 : Within cs s0 s2 := Within.ite (State.setB_within (sub hc) (State.setDom_within (sub hc) hs1)) hs1
  clear_value s2
  extract_lets +onlyGivenNames -merge -underBinder s3
  have hs3 : Within cs s0 s3 := State.setF_within (sub hc) (State.setB_within (sub hc) (Within.upd (s := s2) (t := { s2 with vel := _ }) hs2 (fun c => by cases c <;> first | exact .inl (hc (by decide)) | exact .inr rfl) (fun h => ⟨h.1, h.2.1, h.2.2⟩)))
  clear_value s3
  extract_lets +onlyGivenNames -merge -underBinder w_1 s4
  have hs4 : Within cs s0 s4 := Within.put_pbi_sc (sub hc) hs3
  clear_value s4
  exact noteSlew_within (sub hc) (State.log_within (sub hc) hs4)

theorem freeStep_within {cs s0} {s} (hc : [.regs, .clk, .dom, .offers, .sc, .recs, .exporting, .vel] ⊆ cs) (hs : Within cs s0 s) :
    Within cs s0 (freeStep s) := by
  unfold freeStep
  extract_lets +onlyGivenNames -merge -underBinder d
  extract_lets +onlyGivenNames -merge -underBinder c
  extract_lets +onlyGivenNames -merge -underBinder locked
  extract_lets +onlyGivenNames -merge -underBinder old
  refine Within.ite ?_ hs
  refine Within.ite (State.setClk_within (sub hc) hs) ?_
  extract_lets +onlyGivenNames -merge -underBinder s1
  have hs1 : Within cs s0 s1 := dtcStep_within (sub hc) hs
  clear_value s1
  exact State.setClk_within (sub hc) hs1

theorem noteAsym_within {cs s0} {s} (hc : [.regs] ⊆ cs) (hs : Within cs s0 s) :
    Within cs s0 (noteAsym s) := by
  unfold noteAsym
  exact State.setB_within (sub hc) hs

theorem switchTo_within {cs s0} {s d} (hc : [.regs, .clk, .dom, .offers, .sc, .recs, .exporting, .vel] ⊆ cs) (hs : Within cs s0 s) :
    Within cs s0 (switchTo s d) := by
  unfold switchTo
  extract_lets +onlyGivenNames -merge -underBinder diff
  extract_lets +onlyGivenNames -merge -underBinder s1
  have hs1 : Within cs s0 s1 := State.setF_within (sub hc) hs
  clear_value s1
  extract_lets +onlyGivenNames -merge -underBinder w s2
  have hs2 : Within cs s0 s2 := State.setB_within (sub hc) (State.setClk_within (sub hc) hs1)
  clear_value s2
  extract_lets +onlyGivenNames -merge -underBinder s3
  have hs3 : Within cs s0 s3 := State.log_within (sub hc) hs2
  clear_value s3
  exact noteSlew_within (sub hc) (noteAsym_within (sub hc) (freeStep_within (sub hc) hs3))

theorem autoSwitch_within {cs s0} {s} (hc : [.regs, .clk, .dom, .offers, .sc, .recs, .exporting, .vel] ⊆ cs) (hs : Within cs s0 s) :
    Within cs s0 (autoSwitch s) := by
  unfold autoSwitch
  extract_lets +onlyGivenNames -merge -underBinder d
  exact Within.ite (switchTo_within (sub hc) hs) hs

theorem noteTq3_within {cs s0} {s} (hc : [.clk] ⊆ cs) (hs : Within cs s0 s) :
    Within cs s0 (noteTq3 s) := by
  unfold noteTq3
  extract_lets +onlyGivenNames -merge -underBinder c
  exact Within.ite (State.setClk_within (sub hc) hs) (State.setClk_within (sub hc) hs)

theorem rulSettle_within {cs s0} {s} (hc : [.regs, .clk, .dom, .offers, .sc, .recs, .exporting, .vel] ⊆ cs) (hs : Within cs s0 s) :
    Within cs s0 (rulSettle s) := by
  unfold rulSettle
  extract_lets +onlyGivenNames -merge -underBinder s1
  have hs1 : Within cs s0 s1 := noteUsable_within (sub hc) (noteUsable_within (sub hc) hs)
  clear_value s1
  extract_lets +onlyGivenNames -merge -underBinder st
  extract_lets +onlyGivenNames -merge -underBinder s2
  have hs2 : Within cs s0 s2 := Within.ite (endHold_within (sub hc) hs1) hs1
  clear_value s2
  exact noteTq3_within (sub hc) (noteSlew_within (sub hc) (noteAsym_within (sub hc) (freeStep_within (sub hc) (autoSwitch_within (sub hc) hs2))))

theorem announceReceived_within {cs s0} {s} (hc : [.regs, .clk, .dom, .ptpIn, .offers, .sc, .recs, .exporting, .vel] ⊆ cs) (hs : Within cs s0 s) :
    Within cs s0 (announceReceived s) := by
  unfold announceReceived
  split
  · split
    · exact Within.ite (rulSettle_within (sub hc) (Within.foldl (popPtp_within (sub hc) hs) (fun t a ht => domAnnounce_within (sub hc) ht))) (popPtp_within (sub hc) hs)
    · exact hs
  · exact hs

theorem announceTimeout_within {cs s0} {s d} (hc : [.regs, .clk, .dom, .offers, .sc, .recs, .exporting, .vel] ⊆ cs) (hs : Within cs s0 s) :
    Within cs s0 (announceTimeout s d) := by
  unfold announceTimeout
  extract_lets +onlyGivenNames -merge -underBinder x
  split
  · refine Within.ite ?_ hs
    extract_lets +onlyGivenNames -merge -underBinder s1
    have hs1 : Within cs s0 s1 := State.incS_within (sub hc) (State.setDom_within (sub hc) hs)
    clear_value s1
    exact rulSettle_within (sub hc) (reselect_within (sub hc) hs1)
  · exact hs

theorem clearAsym_within {cs s0} {s d} (hc : [.regs, .dom, .offers] ⊆ cs) (hs : Within cs s0 s) :
    Within cs s0 (clearAsym s d) := by
  unfold clearAsym
  exact State.log_within (sub hc) (State.setDom_within (sub hc) (State.setB_within (sub hc) hs))

theorem asymAgree_within {cs s0} {s d} (hc : [.regs, .dom, .offers] ⊆ cs) (hs : Within cs s0 s) :
    Within cs s0 (asymAgree s d) := by
  unfold asymAgree
  refine Within.ite ?_ hs
  extract_lets +onlyGivenNames -merge -underBinder x
  extract_lets +onlyGivenNames -merge -underBinder near
  extract_lets +onlyGivenNames -merge -underBinder n
  extract_lets +onlyGivenNames -merge -underBinder s1
  have hs1 : Within cs s0 s1 := State.setDom_within (sub hc) hs
  clear_value s1
  exact Within.ite (clearAsym_within (sub hc) hs1) hs1

theorem lowWordRead_within {cs s0} {s r a} (hc : [.clk] ⊆ cs) (hs : Within cs s0 s) :
    Within cs s0 (lowWordRead s r a) := by
  unfold lowWordRead
  split
  · exact State.setShadow_within (sub hc) hs
  · exact hs

theorem dtcSnapshot_within {cs s0} {s r} (hc : [.clk] ⊆ cs) (hs : Within cs s0 s) :
    Within cs s0 (dtcSnapshot s r) := by
  unfold dtcSnapshot
  extract_lets +onlyGivenNames -merge -underBinder ns
  extract_lets +onlyGivenNames -merge -underBinder sec
  extract_lets +onlyGivenNames -merge -underBinder s1
  have hs1 : Within cs s0 s1 := State.setShadow_within (sub hc) hs
  clear_value s1
  extract_lets +onlyGivenNames -merge -underBinder s2
  have hs2 : Within cs s0 s2 := State.setShadow_within (sub hc) hs1
  clear_value s2
  exact State.setShadow_within (sub hc) hs2

theorem sourceChanged_within {cs s0} {s d} (hc : [.regs, .clk, .dom, .offers, .sc, .recs, .exporting, .vel] ⊆ cs) (hs : Within cs s0 s) :
    Within cs s0 (sourceChanged s d) := by
  unfold sourceChanged
  extract_lets +onlyGivenNames -merge -underBinder src
  refine Within.ite ?_ (Within.ite (rulSettle_within (sub hc) (State.setDom_within (sub hc) (setDomSt_within (sub hc) hs))) (rulSettle_within (sub hc) (Within.ite (reselect_within (sub hc) hs) hs)))
  refine Within.ite hs ?_
  extract_lets +onlyGivenNames -merge -underBinder s1
  have hs1 : Within cs s0 s1 := closeSpell_within (sub hc) hs
  clear_value s1
  extract_lets +onlyGivenNames -merge -underBinder s2
  have hs2 : Within cs s0 s2 := State.setFs_within (sub hc) (setDomSt_within (sub hc) hs1)
  clear_value s2
  exact rulSettle_within (sub hc) (State.setDom_within (sub hc) hs2)

theorem ctrlWritten_within {cs s0} {pref s} (hc : [.regs, .clk, .dom, .offers, .sc, .recs, .exporting, .vel] ⊆ cs) (hs : Within cs s0 s) :
    Within cs s0 (ctrlWritten pref s) := by
  unfold ctrlWritten
  extract_lets +onlyGivenNames -merge -underBinder s1
  have hs1 : Within cs s0 s1 := State.setB_within (sub hc) hs
  clear_value s1
  extract_lets +onlyGivenNames -merge -underBinder p
  exact rulSettle_within (sub hc) (Within.ite (switchTo_within (sub hc) hs1) hs1)

theorem domDelay_within {cs s0} {p mpd filt s d} (hc : [.regs, .dom, .offers] ⊆ cs) (hs : Within cs s0 s) :
    Within cs s0 (domDelay p mpd filt s d) := by
  unfold domDelay
  extract_lets +onlyGivenNames -merge -underBinder x
  refine Within.ite ?_ hs
  extract_lets +onlyGivenNames -merge -underBinder thr
  extract_lets +onlyGivenNames -merge -underBinder s0_1
  have hs0_1 : Within cs s0 s0_1 := State.setF_within (sub hc) hs
  clear_value s0_1
  extract_lets +onlyGivenNames -merge -underBinder far
  extract_lets +onlyGivenNames -merge -underBinder n
  extract_lets +onlyGivenNames -merge -underBinder base
  extract_lets +onlyGivenNames -merge -underBinder s1
  have hs1 : Within cs s0 s1 := State.setDom_within (sub hc) hs0_1
  clear_value s1
  refine Within.ite ?_ (Within.ite (clearAsym_within (sub hc) hs1) hs1)
  extract_lets +onlyGivenNames -merge -underBinder s2
  have hs2 : Within cs s0 s2 := State.incS_within (sub hc) (setDomSt_within (sub hc) (closeSpell_within (sub hc) hs1))
  clear_value s2
  extract_lets +onlyGivenNames -merge -underBinder y
  extract_lets +onlyGivenNames -merge -underBinder s3
  have hs3 : Within cs s0 s3 := State.setDom_within (sub hc) hs2
  clear_value s3
  exact State.log_within (sub hc) hs3

theorem delayMeasured_within {cs s0} {s p trip turn} (hc : [.regs, .clk, .dom, .ptp, .offers, .sc, .recs, .exporting, .vel] ⊆ cs) (hs : Within cs s0 s) :
    Within cs s0 (delayMeasured s p trip turn) := by
  unfold delayMeasured
  extract_lets +onlyGivenNames -merge -underBinder pp
  extract_lets +onlyGivenNames -merge -underBinder mpd
  extract_lets +onlyGivenNames -merge -underBinder old
  extract_lets +onlyGivenNames -merge -underBinder filt
  extract_lets +onlyGivenNames -merge -underBinder s1
  have hs1 : Within cs s0 s1 := State.setPtpPort_within (sub hc) hs
  clear_value s1
  extract_lets +onlyGivenNames -merge -underBinder s2
  have hs2 : Within cs s0 s2 := Within.foldl hs1 (fun t a ht => domDelay_within (sub hc) ht)
  clear_value s2
  extract_lets +onlyGivenNames -merge -underBinder s3
  have hs3 : Within cs s0 s3 := Within.foldl hs2 (fun t a ht => Within.ite (State.setF_within (sub hc) ht) ht)
  clear_value s3
  exact rulSettle_within (sub hc) hs3

theorem domWord_within {cs s0} {s d ports v} (hc : [.regs] ⊆ cs) (hs : Within cs s0 s) :
    Within cs s0 (domWord s d ports v) := by
  unfold domWord
  refine Within.ite (State.wr_within (sub hc) hs) ?_
  extract_lets +onlyGivenNames -merge -underBinder src
  exact State.setFs_within (sub hc) hs

theorem numberChanged_within {cs s0} {s d} (hc : [.dom] ⊆ cs) (hs : Within cs s0 s) :
    Within cs s0 (numberChanged s d) := by
  unfold numberChanged
  exact State.setDom_within (sub hc) hs

theorem domCfgWrite_within {cs s0} {s d ports v} (hc : [.regs, .clk, .dom, .offers, .sc, .recs, .exporting, .vel] ⊆ cs) (hs : Within cs s0 s) :
    Within cs s0 (domCfgWrite s d ports v) := by
  unfold domCfgWrite
  extract_lets +onlyGivenNames -merge -underBinder s1
  have hs1 : Within cs s0 s1 := domWord_within (sub hc) hs
  clear_value s1
  exact Within.ite (State.log_within (sub hc) hs) (sourceChanged_within (sub hc) (Within.ite hs1 (numberChanged_within (sub hc) hs1)))

theorem stampRing_within {cs s0} {s seq msg d port t corr origin} (hc : [.regs, .inkwell, .msix] ⊆ cs) (hs : Within cs s0 s) :
    Within cs s0 (stampRing s seq msg d port t corr origin) := by
  unfold stampRing
  refine Within.ite ?_ hs
  extract_lets +onlyGivenNames -merge -underBinder pi
  extract_lets +onlyGivenNames -merge -underBinder slot
  extract_lets +onlyGivenNames -merge -underBinder full
  extract_lets +onlyGivenNames -merge -underBinder s1
  have hs1 : Within cs s0 s1 := State.inkWrite_within (sub hc) hs
  clear_value s1
  extract_lets +onlyGivenNames -merge -underBinder s2
  have hs2 : Within cs s0 s2 := State.setF_within (sub hc) hs1
  clear_value s2
  exact State.irq_within (sub hc) (Within.ite (State.incS_within (sub hc) hs2) hs2)

theorem enterTracking_within {cs s0} {s d} (hc : [.regs, .dom] ⊆ cs) (hs : Within cs s0 s) :
    Within cs s0 (enterTracking s d) := by
  unfold enterTracking
  extract_lets +onlyGivenNames -merge -underBinder x
  extract_lets +onlyGivenNames -merge -underBinder fromHold
  extract_lets +onlyGivenNames -merge -underBinder s1
  have hs1 : Within cs s0 s1 := State.setDom_within (sub hc) (setDomSt_within (sub hc) hs)
  clear_value s1
  extract_lets +onlyGivenNames -merge -underBinder s2
  have hs2 : Within cs s0 s2 := Within.ite (State.setB_within (sub hc) hs1) hs1
  clear_value s2
  exact noteUsable_within (sub hc) hs2

theorem servo_within {cs s0} {s d o} (hc : [.regs, .dom] ⊆ cs) (hs : Within cs s0 s) :
    Within cs s0 (servo s d o).1 := by
  unfold servo
  extract_lets +onlyGivenNames -merge -underBinder x
  refine Within.ite1 ?_ ?_
  · extract_lets +onlyGivenNames -merge -underBinder s1
    have hs1 : Within cs s0 s1 := State.setDom_within (sub hc) hs
    clear_value s1
    exact State.incS_within (sub hc) hs1
  · extract_lets +onlyGivenNames -merge -underBinder kp
    extract_lets +onlyGivenNames -merge -underBinder ki
    extract_lets +onlyGivenNames -merge -underBinder s'
    extract_lets +onlyGivenNames -merge -underBinder f
    refine Within.ite1 (setFreq_within (sub hc) hs) ?_
    extract_lets +onlyGivenNames -merge -underBinder s1
    have hs1 : Within cs s0 s1 := setFreq_within (sub hc) hs
    clear_value s1
    exact State.setDom_within (sub hc) hs1

theorem lockCount_within {cs s0} {s d o} (hc : [.regs, .dom] ⊆ cs) (hs : Within cs s0 s) :
    Within cs s0 (lockCount s d o) := by
  unfold lockCount
  extract_lets +onlyGivenNames -merge -underBinder x
  refine Within.ite ?_ ?_
  · extract_lets +onlyGivenNames -merge -underBinder g
    extract_lets +onlyGivenNames -merge -underBinder s1
    have hs1 : Within cs s0 s1 := State.setDom_within (sub hc) hs
    clear_value s1
    exact Within.ite (State.setB_within (sub hc) hs1) hs1
  · extract_lets +onlyGivenNames -merge -underBinder b
    extract_lets +onlyGivenNames -merge -underBinder s1
    have hs1 : Within cs s0 s1 := State.setDom_within (sub hc) hs
    clear_value s1
    exact Within.ite (State.setB_within (sub hc) hs1) hs1

theorem startHold_within {cs s0} {s} (hc : [.regs, .clk] ⊆ cs) (hs : Within cs s0 s) :
    Within cs s0 (startHold s) := by
  unfold startHold
  exact noteSlew_within (sub hc) (State.setB_within (sub hc) (State.setClk_within (sub hc) hs))

theorem dtcSync_within {cs s0} {s stepped} (hc : [.regs, .clk, .dom, .offers, .sc, .recs, .exporting, .vel] ⊆ cs) (hs : Within cs s0 s) :
    Within cs s0 (dtcSync s stepped) := by
  unfold dtcSync
  extract_lets +onlyGivenNames -merge -underBinder d
  extract_lets +onlyGivenNames -merge -underBinder c
  split
  · refine Within.ite (endHold_within (sub hc) hs) ?_
    refine Within.ite ?_ (State.setClk_within (sub hc) hs)
    extract_lets +onlyGivenNames -merge -underBinder s1
    have hs1 : Within cs s0 s1 := endHold_within (sub hc) hs
    clear_value s1
    refine Within.ite ?_ (dtcStep_within (sub hc) hs1)
    refine Within.ite (dtcStep_within (sub hc) hs1) ?_
    extract_lets +onlyGivenNames -merge -underBinder w s2
    have hs2 : Within cs s0 s2 := State.setClk_within (sub hc) hs1
    clear_value s2
    exact noteSlew_within (sub hc) (State.log_within (sub hc) hs2)
  · exact Within.ite (startHold_within (sub hc) hs) (Within.ite (Within.ite (dtcStep_within (sub hc) hs) hs) hs)

theorem useOffset_within {cs s0} {s d o} (hc : [.regs, .clk, .dom, .offers, .sc, .recs, .exporting, .vel] ⊆ cs) (hs : Within cs s0 s) :
    Within cs s0 (useOffset s d o) := by
  unfold useOffset
  extract_lets +onlyGivenNames -merge -underBinder s0_1
  have hs0_1 : Within cs s0 s0_1 := State.setF_within (sub hc) (State.incW_within (sub hc) hs)
  clear_value s0_1
  extract_lets +onlyGivenNames -merge -underBinder st
  extract_lets +onlyGivenNames -merge -underBinder s1
  have hs1 : Within cs s0 s1 := Within.ite (enterTracking_within (sub hc) hs0_1) hs0_1
  clear_value s1
  extract_lets +onlyGivenNames -merge -underBinder other
  extract_lets +onlyGivenNames -merge -underBinder s2
  have hs2 : Within cs s0 s2 := by
    unfold s2
    split
    · exact State.setDom_within (sub hc) hs1
    · exact hs1
  clear_value s2
  extract_lets +onlyGivenNames -merge -underBinder ha
  extract_lets +onlyGivenNames -merge -underBinder r
  have hr : Within cs s0 r.1 := Within.ite1 (servo_within (sub hc) hs2) hs2
  clear_value r
  extract_lets +onlyGivenNames -merge -underBinder x
  extract_lets +onlyGivenNames -merge -underBinder s3
  have hs3 : Within cs s0 s3 := lockCount_within (sub hc) (State.setDom_within (sub hc) hr)
  clear_value s3
  extract_lets +onlyGivenNames -merge -underBinder s4
  have hs4 : Within cs s0 s4 := noteUsable_within (sub hc) (asymAgree_within (sub hc) hs3)
  clear_value s4
  extract_lets +onlyGivenNames -merge -underBinder s5
  have hs5 : Within cs s0 s5 := Within.ite (freeStep_within (sub hc) hs4) hs4
  clear_value s5
  extract_lets +onlyGivenNames -merge -underBinder s6
  have hs6 : Within cs s0 s6 := Within.ite (dtcSync_within (sub hc) hs5) hs5
  clear_value s6
  exact rulSettle_within (sub hc) hs6

theorem domFollowUp_within {cs s0} {r seq origin corr inacc s d} (hc : [.regs, .clk, .dom, .offers, .inkwell, .msix, .sc, .recs, .exporting, .vel] ⊆ cs) (hs : Within cs s0 s) :
    Within cs s0 (domFollowUp r seq origin corr inacc s d) := by
  unfold domFollowUp
  extract_lets +onlyGivenNames -merge -underBinder x
  extract_lets +onlyGivenNames -merge -underBinder s0_1
  have hs0_1 : Within cs s0 s0_1 := stampRing_within (sub hc) (Within.ite (takeInacc_within (sub hc) hs) hs)
  clear_value s0_1
  split
  · refine Within.ite ?_ hs0_1
    extract_lets +onlyGivenNames -merge -underBinder w s1
    have hs1 : Within cs s0 s1 := State.setDom_within (sub hc) hs0_1
    clear_value s1
    split
    · exact useOffset_within (sub hc) hs1
    · exact hs1
  · exact hs0_1

theorem servoModeBoundary_within {cs s0} {s d} (hc : [.regs, .dom, .offers, .sess, .inkwell, .msix, .modePend] ⊆ cs) (hs : Within cs s0 s) :
    Within cs s0 (servoModeBoundary s d) := by
  unfold servoModeBoundary
  split
  · exact modeTaken_within (sub hc) (State.setDom_within (sub hc) (State.setB_within (sub hc) hs))
  · exact hs

theorem domSync_within {cs s0} {r seq twoStep origin corr logInt inacc s d} (hc : [.regs, .clk, .dom, .offers, .sess, .inkwell, .msix, .sc, .recs, .exporting, .vel, .modePend] ⊆ cs) (hs : Within cs s0 s) :
    Within cs s0 (domSync r seq twoStep origin corr logInt inacc s d) := by
  unfold domSync
  extract_lets +onlyGivenNames -merge -underBinder x0
  extract_lets +onlyGivenNames -merge -underBinder s0_1
  have hs0_1 : Within cs s0 s0_1 := Within.ite (reselect_within (sub hc) (State.setDom_within (sub hc) hs)) hs
  clear_value s0_1
  extract_lets +onlyGivenNames -merge -underBinder x
  refine Within.ite ?_ (stampRing_within (sub hc) hs0_1)
  extract_lets +onlyGivenNames -merge -underBinder s1
  have hs1 : Within cs s0 s1 := takeInacc_within (sub hc) (servoModeBoundary_within (sub hc) hs0_1)
  clear_value s1
  extract_lets +onlyGivenNames -merge -underBinder s2
  have hs2 : Within cs s0 s2 := stampRing_within (sub hc) hs1
  clear_value s2
  extract_lets +onlyGivenNames -merge -underBinder s3
  have hs3 : Within cs s0 s3 := Within.ite (State.incW_within (sub hc) hs2) hs2
  clear_value s3
  extract_lets +onlyGivenNames -merge -underBinder y
  refine Within.ite (State.setDom_within (sub hc) hs3) ?_
  extract_lets +onlyGivenNames -merge -underBinder s4
  have hs4 : Within cs s0 s4 := State.setDom_within (sub hc) hs3
  clear_value s4
  split
  · exact useOffset_within (sub hc) hs4
  · exact hs4

theorem domainRevert_within {cs s0} {s} (hc : [.regs, .clk, .dom, .offers, .sc, .recs, .exporting, .vel] ⊆ cs) (hs : Within cs s0 s) :
    Within cs s0 (domainRevert s) := by
  unfold domainRevert
  extract_lets +onlyGivenNames -merge -underBinder pref
  split
  · exact Within.ite (noteTq3_within (sub hc) (switchTo_within (sub hc) hs)) hs
  · exact hs

theorem ppsGate_within {cs s0} {s} (hc : [.clk] ⊆ cs) (hs : Within cs s0 s) :
    Within cs s0 (ppsGate s) := by
  unfold ppsGate
  exact Within.ite (State.setClk_within (sub hc) hs) hs

theorem followUpReceived_within {cs s0} {s} (hc : [.regs, .clk, .dom, .ptpIn, .offers, .inkwell, .msix, .sc, .recs, .exporting, .vel] ⊆ cs) (hs : Within cs s0 s) :
    Within cs s0 (followUpReceived s) := by
  unfold followUpReceived
  split
  · split
    · exact Within.foldl (popPtp_within (sub hc) hs) (fun t a ht => domFollowUp_within (sub hc) ht)
    · exact hs
  · exact hs

theorem pdelayReqSent_within {cs s0} {s p seq} (hc : [.regs, .ptp, .inkwell, .msix] ⊆ cs) (hs : Within cs s0 s) :
    Within cs s0 (pdelayReqSent s p seq) := by
  unfold pdelayReqSent
  extract_lets +onlyGivenNames -merge -underBinder pp
  extract_lets +onlyGivenNames -merge -underBinder s1
  have hs1 : Within cs s0 s1 := by
    unfold s1
    split
    · exact Within.ite (State.setPtpPort_within (sub hc) hs) hs
    · exact hs
  clear_value s1
  exact Within.foldl hs1 (fun t a ht => Within.ite (stampRing_within (sub hc) ht) ht)

theorem haFreq_within {cs s0} {s d v} (hc : [.regs] ⊆ cs) (hs : Within cs s0 s) :
    Within cs s0 (haFreq s d v) := by
  unfold haFreq
  exact Within.ite (State.setF_within (sub hc) hs) hs

theorem haPhase_within {cs s0} {s d v} (hc : [.regs, .clk, .dom, .offers, .sc, .recs, .exporting, .vel] ⊆ cs) (hs : Within cs s0 s) :
    Within cs s0 (haPhase s d v) := by
  unfold haPhase
  refine Within.ite ?_ hs
  extract_lets +onlyGivenNames -merge -underBinder s0_1
  have hs0_1 : Within cs s0 s0_1 := State.setF_within (sub hc) hs
  clear_value s0_1
  extract_lets +onlyGivenNames -merge -underBinder s1
  have hs1 : Within cs s0 s1 := Within.ite (enterTracking_within (sub hc) hs0_1) hs0_1
  clear_value s1
  extract_lets +onlyGivenNames -merge -underBinder f
  extract_lets +onlyGivenNames -merge -underBinder s2
  have hs2 : Within cs s0 s2 := setFreq_within (sub hc) hs1
  clear_value s2
  extract_lets +onlyGivenNames -merge -underBinder x
  extract_lets +onlyGivenNames -merge -underBinder s3
  have hs3 : Within cs s0 s3 := State.setDom_within (sub hc) hs2
  clear_value s3
  exact rulSettle_within (sub hc) (Within.ite (endHold_within (sub hc) hs3) (Within.ite (startHold_within (sub hc) hs3) hs3))

theorem hostServoTimeout_within {cs s0} {s d} (hc : [.regs, .clk, .dom, .offers, .sc, .recs, .exporting, .vel] ⊆ cs) (hs : Within cs s0 s) :
    Within cs s0 (hostServoTimeout s d) := by
  unfold hostServoTimeout
  extract_lets +onlyGivenNames -merge -underBinder st
  exact Within.ite (rulSettle_within (sub hc) (State.log_within (sub hc) (enterHoldover_within (sub hc) hs))) hs

theorem tickNs_within {cs s0} {s} (hc : [.clk, .dom] ⊆ cs) (hs : Within cs s0 s) :
    Within cs s0 (tickNs s) := by
  unfold tickNs
  extract_lets +onlyGivenNames -merge -underBinder c
  extract_lets +onlyGivenNames -merge -underBinder fSel
  extract_lets +onlyGivenNames -merge -underBinder sl
  extract_lets +onlyGivenNames -merge -underBinder s1
  have hs1 : Within cs s0 s1 := State.setClk_within (sub hc) hs
  clear_value s1
  extract_lets +onlyGivenNames -merge -underBinder w s2
  have hs2 : Within cs s0 s2 := State.setDom_within (sub hc) hs1
  clear_value s2
  exact noteTq3_within (sub hc) (State.setDom_within (sub hc) hs2)

theorem legacyEdge_within {cs s0} {tai s d} (hc : [.regs, .clk, .dom, .offers, .sess, .inkwell, .msix, .sc, .recs, .exporting, .vel, .modePend] ⊆ cs) (hs : Within cs s0 s) :
    Within cs s0 (legacyEdge tai s d) := by
  unfold legacyEdge
  refine Within.ite ?_ hs
  extract_lets +onlyGivenNames -merge -underBinder s1
  have hs1 : Within cs s0 s1 := servoModeBoundary_within (sub hc) hs
  clear_value s1
  extract_lets +onlyGivenNames -merge -underBinder w s2
  have hs2 : Within cs s0 s2 := State.setDom_within (sub hc) hs1
  clear_value s2
  exact useOffset_within (sub hc) hs2

theorem irigbFrame_within {cs s0} {s fmt secOfYear year} (hc : [.regs, .clk, .dom, .offers, .sess, .inkwell, .msix, .sc, .recs, .exporting, .vel, .modePend] ⊆ cs) (hs : Within cs s0 s) :
    Within cs s0 (irigbFrame s fmt secOfYear year) := by
  unfold irigbFrame
  refine Within.ite hs ?_
  extract_lets +onlyGivenNames -merge -underBinder y
  refine Within.ite (State.log_within (sub hc) hs) ?_
  extract_lets +onlyGivenNames -merge -underBinder tai
  extract_lets +onlyGivenNames -merge -underBinder w s1
  have hs1 : Within cs s0 s1 := State.setClk_within (sub hc) hs
  clear_value s1
  refine Within.ite ?_ (State.log_within (sub hc) hs1)
  extract_lets +onlyGivenNames -merge -underBinder w_1 s2
  have hs2 : Within cs s0 s2 := State.setClk_within (sub hc) hs1
  clear_value s2
  exact Within.ite hs2 (Within.foldl hs2 (fun t a ht => legacyEdge_within (sub hc) ht))

theorem pdelayRecord_within {cs s0} {r seq msg corr origin s} (hc : [.regs, .inkwell, .msix] ⊆ cs) (hs : Within cs s0 s) :
    Within cs s0 (pdelayRecord r seq msg corr origin s) := by
  unfold pdelayRecord
  exact Within.foldl hs (fun t a ht => Within.ite (stampRing_within (sub hc) ht) ht)

theorem pdelayReqReceived_within {cs s0} {s} (hc : [.regs, .ptpIn, .port, .pair] ⊆ cs) (hs : Within cs s0 s) :
    Within cs s0 (pdelayReqReceived s) := by
  unfold pdelayReqReceived
  split
  · split
    · exact sendPtp_within (sub hc) (popPtp_within (sub hc) hs)
    · exact hs
  · exact hs

theorem pdelayReqSend_within {cs s0} {s p} (hc : [.regs, .ptp, .port, .pair] ⊆ cs) (hs : Within cs s0 s) :
    Within cs s0 (pdelayReqSend s p) := by
  unfold pdelayReqSend
  refine Within.ite ?_ hs
  extract_lets +onlyGivenNames -merge -underBinder pp
  extract_lets +onlyGivenNames -merge -underBinder s1
  have hs1 : Within cs s0 s1 := State.setPtpPort_within (sub hc) hs
  clear_value s1
  extract_lets +onlyGivenNames -merge -underBinder d
  exact sendPtp_within (sub hc) hs1

theorem pdelayRespReceived_within {cs s0} {s} (hc : [.regs, .clk, .dom, .ptp, .ptpIn, .offers, .inkwell, .msix, .sc, .recs, .exporting, .vel] ⊆ cs) (hs : Within cs s0 s) :
    Within cs s0 (pdelayRespReceived s) := by
  unfold pdelayRespReceived
  split
  · split
    · extract_lets +onlyGivenNames -merge -underBinder s1
      have hs1 : Within cs s0 s1 := pdelayRecord_within (sub hc) (popPtp_within (sub hc) hs)
      clear_value s1
      extract_lets +onlyGivenNames -merge -underBinder pp
      split
      · exact Within.ite hs1 (Within.ite (State.setPtpPort_within (sub hc) hs1) (delayMeasured_within (sub hc) hs1))
      · exact hs1
    · extract_lets +onlyGivenNames -merge -underBinder s1
      have hs1 : Within cs s0 s1 := pdelayRecord_within (sub hc) (popPtp_within (sub hc) hs)
      clear_value s1
      extract_lets +onlyGivenNames -merge -underBinder pp
      split
      · exact Within.ite (delayMeasured_within (sub hc) hs1) hs1
      · exact hs1
    · exact hs
  · exact hs

theorem ppsFall_within {cs s0} {s} (hc : [.clk] ⊆ cs) (hs : Within cs s0 s) :
    Within cs s0 (ppsFall s) := by
  unfold ppsFall
  extract_lets +onlyGivenNames -merge -underBinder c
  exact Within.ite (State.setClk_within (sub hc) hs) hs

theorem ppsInEdge_within {cs s0} {s} (hc : [.regs, .clk, .dom, .offers, .sess, .inkwell, .msix, .sc, .recs, .exporting, .vel, .modePend] ⊆ cs) (hs : Within cs s0 s) :
    Within cs s0 (ppsInEdge s) := by
  unfold ppsInEdge
  refine Within.ite ?_ hs
  split
  · exact Within.foldl hs (fun t a ht => legacyEdge_within (sub hc) ht)
  · exact hs

theorem ppsRise_within {cs s0} {s} (hc : [.clk] ⊆ cs) (hs : Within cs s0 s) :
    Within cs s0 (ppsRise s) := by
  unfold ppsRise
  extract_lets +onlyGivenNames -merge -underBinder c
  extract_lets +onlyGivenNames -merge -underBinder sec
  refine Within.ite ?_ hs
  extract_lets +onlyGivenNames -merge -underBinder go
  exact State.setClk_within (sub hc) hs

theorem refLost_within {cs s0} {s} (hc : [.regs, .clk, .offers] ⊆ cs) (hs : Within cs s0 s) :
    Within cs s0 (refLost s) := by
  unfold refLost
  exact Within.ite (State.log_within (sub hc) (State.setClk_within (sub hc) (State.setB_within (sub hc) hs))) hs

theorem refRestored_within {cs s0} {s} (hc : [.regs, .clk, .offers] ⊆ cs) (hs : Within cs s0 s) :
    Within cs s0 (refRestored s) := by
  unfold refRestored
  split
  · exact Within.ite (State.log_within (sub hc) (State.setClk_within (sub hc) (State.setB_within (sub hc) hs))) hs
  · exact hs

theorem slewEnd_within {cs s0} {s} (hc : [.regs, .clk] ⊆ cs) (hs : Within cs s0 s) :
    Within cs s0 (slewEnd s) := by
  unfold slewEnd
  exact Within.ite (State.setClk_within (sub hc) (State.setB_within (sub hc) hs)) hs

theorem stepGrantExpired_within {cs s0} {s d} (hc : [.regs, .dom, .offers] ⊆ cs) (hs : Within cs s0 s) :
    Within cs s0 (stepGrantExpired s d) := by
  unfold stepGrantExpired
  split
  · exact Within.ite (State.log_within (sub hc) (State.setB_within (sub hc) (State.setDom_within (sub hc) hs))) hs
  · exact hs

theorem suspectEnd_within {cs s0} {s d} (hc : [.regs, .clk, .dom, .ptp, .offers, .sc, .recs, .exporting, .vel] ⊆ cs) (hs : Within cs s0 s) :
    Within cs s0 (suspectEnd s d) := by
  unfold suspectEnd
  extract_lets +onlyGivenNames -merge -underBinder x
  split
  · refine Within.ite ?_ hs
    extract_lets +onlyGivenNames -merge -underBinder thr
    extract_lets +onlyGivenNames -merge -underBinder ok
    extract_lets +onlyGivenNames -merge -underBinder s1
    have hs1 : Within cs s0 s1 := acceptDelay_within (sub hc) (enterTracking_within (sub hc) hs)
    clear_value s1
    extract_lets +onlyGivenNames -merge -underBinder s2
    have hs2 : Within cs s0 s2 := Within.ite (State.log_within (sub hc) hs1) (State.log_within (sub hc) (State.setB_within (sub hc) hs1))
    clear_value s2
    exact rulSettle_within (sub hc) hs2
  · exact hs

theorem syncMissing_within {cs s0} {s d} (hc : [.regs, .clk, .dom, .offers, .sc, .recs, .exporting, .vel] ⊆ cs) (hs : Within cs s0 s) :
    Within cs s0 (syncMissing s d) := by
  unfold syncMissing
  extract_lets +onlyGivenNames -merge -underBinder x
  refine Within.ite hs ?_
  refine Within.ite ?_ ?_
  · extract_lets +onlyGivenNames -merge -underBinder st
    exact Within.ite (rulSettle_within (sub hc) (enterHoldover_within (sub hc) hs)) hs
  · split
    · extract_lets +onlyGivenNames -merge -underBinder s0_1
      have hs0_1 : Within cs s0 s0_1 := Within.ite (State.incW_within (sub hc) hs) hs
      clear_value s0_1
      exact rulSettle_within (sub hc) (reselect_within (sub hc) (State.setDom_within (sub hc) hs0_1))
    · exact hs

theorem syncReceived_within {cs s0} {s} (hc : [.regs, .clk, .dom, .ptpIn, .offers, .sess, .inkwell, .msix, .sc, .recs, .exporting, .vel, .modePend] ⊆ cs) (hs : Within cs s0 s) :
    Within cs s0 (syncReceived s) := by
  unfold syncReceived
  split
  · split
    · exact Within.ite (Within.foldl (popPtp_within (sub hc) hs) (fun t a ht => domSync_within (sub hc) ht)) (popPtp_within (sub hc) hs)
    · exact hs
  · exact hs

theorem timeStepAllowBody_within {cs s0} {n s c} (hc : [.regs, .dom, .offers] ⊆ cs) (hs : Within cs s0 s) :
    Within cs s0 (timeStepAllowBody n s c).s := by
  unfold timeStepAllowBody
  extract_lets +onlyGivenNames -merge -underBinder mask
  extract_lets +onlyGivenNames -merge -underBinder named
  exact Within.iteS (refuse_within (sub hc) hs) (Within.iteS (refuse_within (sub hc) hs) (Within.iteS (refuse_within (sub hc) hs) (okay_within (sub hc) (Within.foldl hs (fun t a ht => State.log_within (sub hc) (State.setB_within (sub hc) (State.setDom_within (sub hc) ht)))))))

theorem tqChange_within {cs s0} {s} (hc : [.regs, .clk, .offers] ⊆ cs) (hs : Within cs s0 s) :
    Within cs s0 (tqChange s) := by
  unfold tqChange
  extract_lets +onlyGivenNames -merge -underBinder q
  refine Within.ite hs ?_
  extract_lets +onlyGivenNames -merge -underBinder w s1
  have hs1 : Within cs s0 s1 := State.setClk_within (sub hc) hs
  clear_value s1
  exact ppsGate_within (sub hc) (noteTq3_within (sub hc) (State.log_within (sub hc) (State.setF_within (sub hc) hs1)))

end Sys2Proof.Machine
end

