-- ==== Sys2Proof/Laws/Ductus.lean ====
section
/-! SUPPORT. What each operation of Machine/Ductus.lean can change: one lemma per operation, cited in place of unfolding it. -/

namespace Sys2Proof.Machine

set_option Elab.async false

theorem State.setDl_within {cs s0} {s n x} (hc : [.dl] ⊆ cs) (hs : Within cs s0 s) :
    Within cs s0 (State.setDl s n x) := by
  unfold State.setDl
  exact Within.put_duc_dl (sub hc) hs

theorem deliverRx_within {cs s0} {s n} (hc : [.regs, .waits, .stk] ⊆ cs) (hs : Within cs s0 s) :
    Within cs s0 (deliverRx s n) := by
  unfold deliverRx
  extract_lets +onlyGivenNames -merge -underBinder w
  exact Within.ite hs (dlChange_within (sub hc) (State.setF_within (sub hc) hs))

theorem applyCmd_within {cs s0} {n s w} (hc : [.regs, .waits, .stk, .dl] ⊆ cs) (hs : Within cs s0 s) :
    Within cs s0 (applyCmd n s w) := by
  unfold applyCmd
  exact deliverRx_within (sub hc) (State.setDl_within (sub hc) hs)

theorem showRx_within {cs s0} {s n} (hc : [.regs, .waits, .stk, .dl] ⊆ cs) (hs : Within cs s0 s) :
    Within cs s0 (showRx s n) := by
  unfold showRx
  exact deliverRx_within (sub hc) (Within.ite (State.setDl_within (sub hc) hs) hs)

theorem leaveRun_within {cs s0} {s n st} (hc : [.regs, .waits, .stk, .dl] ⊆ cs) (hs : Within cs s0 s) :
    Within cs s0 (leaveRun s n st) := by
  unfold leaveRun
  extract_lets +onlyGivenNames -merge -underBinder s1
  have hs1 : Within cs s0 s1 := State.setFs_within (sub hc) hs
  clear_value s1
  exact showRx_within (sub hc) (State.setDl_within (sub hc) hs1)

theorem dlSettle_within {cs s0} {s n} (hc : [.regs, .waits, .stk, .dl] ⊆ cs) (hs : Within cs s0 s) :
    Within cs s0 (dlSettle s n) := by
  unfold dlSettle
  extract_lets +onlyGivenNames -merge -underBinder st
  exact Within.ite (Within.ite hs (Within.ite (leaveRun_within (sub hc) hs) (State.setF_within (sub hc) hs))) (Within.ite (Within.ite (leaveRun_within (sub hc) hs) (State.setF_within (sub hc) (State.setDl_within (sub hc) hs))) (Within.ite (State.setF_within (sub hc) (State.setDl_within (sub hc) hs)) hs))

theorem countBad_within {cs s0} {s n kind endBit} (hc : [.regs, .offers, .dl] ⊆ cs) (hs : Within cs s0 s) :
    Within cs s0 (countBad s n kind endBit) := by
  unfold countBad
  extract_lets +onlyGivenNames -merge -underBinder x
  refine Within.ite (State.incW_within (sub hc) hs) ?_
  refine Within.ite ?_ (State.incS_within (sub hc) hs)
  extract_lets +onlyGivenNames -merge -underBinder s1
  have hs1 : Within cs s0 s1 := State.incS_within (sub hc) hs
  clear_value s1
  exact Within.ite (Within.ite hs1 (State.log_within (sub hc) (State.setDl_within (sub hc) hs1))) (Within.ite hs1 (State.log_within (sub hc) (State.setDl_within (sub hc) hs1)))

theorem endEpisodes_within {cs s0} {s n} (hc : [.dl] ⊆ cs) (hs : Within cs s0 s) :
    Within cs s0 (endEpisodes s n) := by
  unfold endEpisodes
  exact State.setDl_within (sub hc) hs

theorem enterRun_within {cs s0} {s n ver} (hc : [.regs, .offers, .dl] ⊆ cs) (hs : Within cs s0 s) :
    Within cs s0 (enterRun s n ver) := by
  unfold enterRun
  extract_lets +onlyGivenNames -merge -underBinder x
  extract_lets +onlyGivenNames -merge -underBinder s1
  have hs1 : Within cs s0 s1 := State.setFs_within (sub hc) hs
  clear_value s1
  extract_lets +onlyGivenNames -merge -underBinder q
  extract_lets +onlyGivenNames -merge -underBinder s2
  have hs2 : Within cs s0 s2 := State.setDl_within (sub hc) hs1
  clear_value s2
  exact State.log_within (sub hc) hs2

theorem offer_within {cs s0} {s n ver fseq need} (hc : [.regs, .offers, .dl] ⊆ cs) (hs : Within cs s0 s) :
    Within cs s0 (offer s n ver fseq need) := by
  unfold offer
  extract_lets +onlyGivenNames -merge -underBinder x
  extract_lets +onlyGivenNames -merge -underBinder next
  extract_lets +onlyGivenNames -merge -underBinder os
  refine Within.ite ?_ (State.setDl_within (sub hc) hs)
  extract_lets +onlyGivenNames -merge -underBinder agreed
  exact enterRun_within (sub hc) (State.setDl_within (sub hc) hs)

theorem takeStatus_within {cs s0} {s n nosvc test} (hc : [.regs, .offers, .dl] ⊆ cs) (hs : Within cs s0 s) :
    Within cs s0 (takeStatus s n nosvc test) := by
  unfold takeStatus
  extract_lets +onlyGivenNames -merge -underBinder x
  extract_lets +onlyGivenNames -merge -underBinder bad
  extract_lets +onlyGivenNames -merge -underBinder s1
  have hs1 : Within cs s0 s1 := State.setB_within (sub hc) (State.setDl_within (sub hc) hs)
  clear_value s1
  exact Within.ite (State.log_within (sub hc) hs1) hs1

theorem takeGap_within {cs s0} {s n fseq} (hc : [.regs, .offers, .dl] ⊆ cs) (hs : Within cs s0 s) :
    Within cs s0 (takeGap s n fseq) := by
  unfold takeGap
  extract_lets +onlyGivenNames -merge -underBinder x
  extract_lets +onlyGivenNames -merge -underBinder s0_1
  have hs0_1 : Within cs s0 s0_1 := State.setDl_within (sub hc) hs
  clear_value s0_1
  split
  · exact hs0_1
  · extract_lets +onlyGivenNames -merge -underBinder g
    refine Within.ite ?_ ?_
    · extract_lets +onlyGivenNames -merge -underBinder w s1
      have hs1 : Within cs s0 s1 := State.setDl_within (sub hc) hs0_1
      clear_value s1
      exact Within.ite hs1 (State.incS_within (sub hc) hs1)
    · extract_lets +onlyGivenNames -merge -underBinder s1
      have hs1 : Within cs s0 s1 := State.incS_within (sub hc) hs0_1
      clear_value s1
      exact Within.ite hs1 (State.log_within (sub hc) (State.setDl_within (sub hc) hs1))

theorem takeBits_within {cs s0} {s n fseq cmd p1 p2} (hc : [.regs, .offers, .waits, .stk, .dl] ⊆ cs) (hs : Within cs s0 s) :
    Within cs s0 (takeBits s n fseq cmd p1 p2) := by
  unfold takeBits
  extract_lets +onlyGivenNames -merge -underBinder words
  extract_lets +onlyGivenNames -merge -underBinder s1
  have hs1 : Within cs s0 s1 := takeGap_within (sub hc) hs
  clear_value s1
  exact Within.ite (showRx_within (sub hc) hs1) (Within.foldl (State.setDl_within (sub hc) hs1) (fun t a ht => applyCmd_within (sub hc) ht))

theorem takeSample_within {cs s0} {s n f rxNs} (hc : [.regs, .offers, .sc] ⊆ cs) (hs : Within cs s0 s) :
    Within cs s0 (takeSample s n f rxNs) := by
  unfold takeSample
  extract_lets +onlyGivenNames -merge -underBinder c
  refine Within.ite ?_ hs
  extract_lets +onlyGivenNames -merge -underBinder rate
  extract_lets +onlyGivenNames -merge -underBinder frac
  extract_lets +onlyGivenNames -merge -underBinder k
  extract_lets +onlyGivenNames -merge -underBinder off
  refine Within.ite (State.incW_within (sub hc) hs) ?_
  extract_lets +onlyGivenNames -merge -underBinder sec
  extract_lets +onlyGivenNames -merge -underBinder more
  extract_lets +onlyGivenNames -merge -underBinder epoch
  extract_lets +onlyGivenNames -merge -underBinder quals
  exact svSample_within (sub hc) (fun t ht => State.incW_within (sub hc) ht) hs

theorem takeHalf_within {cs s0} {s n h1} (hc : [.regs, .offers, .dl] ⊆ cs) (hs : Within cs s0 s) :
    Within cs s0 (takeHalf s n h1) := by
  unfold takeHalf
  extract_lets +onlyGivenNames -merge -underBinder x
  extract_lets +onlyGivenNames -merge -underBinder dstep
  extract_lets +onlyGivenNames -merge -underBinder recent
  refine Within.ite ?_ ?_
  · refine Within.ite ?_ ?_
    · extract_lets +onlyGivenNames -merge -underBinder hs_1
      exact State.setF_within (sub hc) (State.setDl_within (sub hc) hs)
    · extract_lets +onlyGivenNames -merge -underBinder s1
      have hs1 : Within cs s0 s1 := State.incS_within (sub hc) (State.setDl_within (sub hc) hs)
      clear_value s1
      exact Within.ite (State.setB_within (sub hc) hs1) hs1
  · extract_lets +onlyGivenNames -merge -underBinder m
    refine Within.ite ?_ (State.setDl_within (sub hc) hs)
    extract_lets +onlyGivenNames -merge -underBinder s1
    have hs1 : Within cs s0 s1 := State.setFs_within (sub hc) (State.setDl_within (sub hc) hs)
    clear_value s1
    split
    · exact State.log_within (sub hc) hs1
    · exact hs1

theorem takeM_within {cs s0} {s n f rxNs tq} (hc : [.regs, .offers, .dl] ⊆ cs) (hs : Within cs s0 s) :
    Within cs s0 (takeM s n f rxNs tq) := by
  unfold takeM
  refine Within.ite ?_ hs
  extract_lets +onlyGivenNames -merge -underBinder x
  extract_lets +onlyGivenNames -merge -underBinder ms
  refine Within.ite (State.setDl_within (sub hc) hs) ?_
  extract_lets +onlyGivenNames -merge -underBinder m
  extract_lets +onlyGivenNames -merge -underBinder s1
  have hs1 : Within cs s0 s1 := State.setF_within (sub hc) (State.setDl_within (sub hc) hs)
  clear_value s1
  extract_lets +onlyGivenNames -merge -underBinder thr
  exact Within.ite (State.log_within (sub hc) (State.setB_within (sub hc) hs1)) (Within.ite (State.log_within (sub hc) (State.setB_within (sub hc) hs1)) hs1)

theorem takeTiming_within {cs s0} {s n f rx rxNs tq} (hc : [.regs, .offers, .dl] ⊆ cs) (hs : Within cs s0 s) :
    Within cs s0 (takeTiming s n f rx rxNs tq) := by
  unfold takeTiming
  extract_lets +onlyGivenNames -merge -underBinder rt
  extract_lets +onlyGivenNames -merge -underBinder s1
  have hs1 : Within cs s0 s1 := Within.ite (takeHalf_within (sub hc) hs) hs
  clear_value s1
  exact takeM_within (sub hc) hs1

theorem countTries_within {cs s0} {s n m} (hc : [.regs] ⊆ cs) (hs : Within cs s0 s) :
    Within cs s0 (countTries s n m) := by
  unfold countTries
  split
  · exact Within.ite (State.incS_within (sub hc) hs) hs
  · exact hs

theorem takeMessage_within {cs s0} {s n f} (hc : [.regs, .offers, .stamps, .dl] ⊆ cs) (hs : Within cs s0 s) :
    Within cs s0 (takeMessage s n f) := by
  unfold takeMessage
  refine Within.ite ?_ ?_
  · extract_lets +onlyGivenNames -merge -underBinder line
    refine Within.ite ?_ (Within.put_nib_stamps (sub hc) hs)
    extract_lets +onlyGivenNames -merge -underBinder x
    extract_lets +onlyGivenNames -merge -underBinder s1
    have hs1 : Within cs s0 s1 := State.incS_within (sub hc) hs
    clear_value s1
    exact Within.ite hs1 (State.log_within (sub hc) (State.setDl_within (sub hc) hs1))
  · refine Within.ite ?_ (State.incS_within (sub hc) hs)
    extract_lets +onlyGivenNames -merge -underBinder x
    refine Within.ite ?_ ?_
    · extract_lets +onlyGivenNames -merge -underBinder s1
      have hs1 : Within cs s0 s1 := State.setDl_within (sub hc) hs
      clear_value s1
      exact Within.ite (State.log_within (sub hc) (State.setB_within (sub hc) hs1)) hs1
    · extract_lets +onlyGivenNames -merge -underBinder s1
      have hs1 : Within cs s0 s1 := State.setDl_within (sub hc) hs
      clear_value s1
      exact Within.ite (State.log_within (sub hc) (State.setB_within (sub hc) hs1)) hs1

theorem takeChannel_within {cs s0} {s n f} (hc : [.regs, .offers, .stamps, .dl] ⊆ cs) (hs : Within cs s0 s) :
    Within cs s0 (takeChannel s n f) := by
  unfold takeChannel
  extract_lets +onlyGivenNames -merge -underBinder x
  extract_lets +onlyGivenNames -merge -underBinder s1
  have hs1 : Within cs s0 s1 := by
    unfold s1
    split
    · exact Within.ite (countTries_within (sub hc) (State.setDl_within (sub hc) hs)) hs
    · exact hs
  clear_value s1
  extract_lets +onlyGivenNames -merge -underBinder y
  exact Within.ite (takeMessage_within (sub hc) (State.setDl_within (sub hc) hs1)) hs1

theorem goodFrame_within {cs s0} {s n r} (hc : [.regs, .offers, .sc, .stamps, .waits, .stk, .dl] ⊆ cs) (hs : Within cs s0 s) :
    Within cs s0 (goodFrame s n r) := by
  unfold goodFrame
  extract_lets +onlyGivenNames -merge -underBinder f
  extract_lets +onlyGivenNames -merge -underBinder s1
  have hs1 : Within cs s0 s1 := takeBits_within (sub hc) (takeStatus_within (sub hc) (endEpisodes_within (sub hc) hs))
  clear_value s1
  extract_lets +onlyGivenNames -merge -underBinder s2
  have hs2 : Within cs s0 s2 := takeSample_within (sub hc) hs1
  clear_value s2
  refine Within.ite ?_ hs2
  extract_lets +onlyGivenNames -merge -underBinder s3
  have hs3 : Within cs s0 s3 := State.setFs_within (sub hc) hs2
  clear_value s3
  extract_lets +onlyGivenNames -merge -underBinder w s4
  have hs4 : Within cs s0 s4 := State.setDl_within (sub hc) hs3
  clear_value s4
  exact takeChannel_within (sub hc) (takeTiming_within (sub hc) hs4)

theorem useData_within {cs s0} {s n r} (hc : [.regs, .offers, .sc, .stamps, .waits, .stk, .dl] ⊆ cs) (hs : Within cs s0 s) :
    Within cs s0 (useData s n r) := by
  unfold useData
  extract_lets +onlyGivenNames -merge -underBinder st
  refine Within.ite ?_ ?_
  · extract_lets +onlyGivenNames -merge -underBinder k
    exact Within.ite (goodFrame_within (sub hc) hs) (countBad_within (sub hc) hs)
  · refine Within.ite ?_ hs
    extract_lets +onlyGivenNames -merge -underBinder d
    extract_lets +onlyGivenNames -merge -underBinder k
    exact Within.ite (offer_within (sub hc) (endEpisodes_within (sub hc) hs)) (countBad_within (sub hc) hs)

theorem useNeg_within {cs s0} {s n f} (hc : [.regs, .offers, .dl] ⊆ cs) (hs : Within cs s0 s) :
    Within cs s0 (useNeg s n f) := by
  unfold useNeg
  extract_lets +onlyGivenNames -merge -underBinder k
  refine Within.ite (countBad_within (sub hc) hs) ?_
  extract_lets +onlyGivenNames -merge -underBinder s1
  have hs1 : Within cs s0 s1 := endEpisodes_within (sub hc) hs
  clear_value s1
  exact Within.ite (offer_within (sub hc) hs1) hs1

theorem goodBlock_within {cs s0} {s n b} (hc : [.regs, .offers, .waits, .stk, .dl] ⊆ cs) (hs : Within cs s0 s) :
    Within cs s0 (goodBlock s n b) := by
  unfold goodBlock
  exact takeBits_within (sub hc) (takeStatus_within (sub hc) (endEpisodes_within (sub hc) hs))

theorem useBlock_within {cs s0} {s n f} (hc : [.regs, .offers, .waits, .stk, .dl] ⊆ cs) (hs : Within cs s0 s) :
    Within cs s0 (useBlock s n f) := by
  unfold useBlock
  extract_lets +onlyGivenNames -merge -underBinder k
  exact Within.ite (countBad_within (sub hc) hs) (Within.ite (goodBlock_within (sub hc) hs) (Within.ite (offer_within (sub hc) hs) hs))

theorem useFrame_within {cs s0} {s n r} (hc : [.regs, .offers, .sc, .stamps, .waits, .stk, .dl] ⊆ cs) (hs : Within cs s0 s) :
    Within cs s0 (useFrame s n r) := by
  unfold useFrame
  exact Within.ite (useBlock_within (sub hc) hs) (Within.ite (useNeg_within (sub hc) hs) (useData_within (sub hc) hs))

theorem drainLink_within {cs s0} {n x s} (hc : [.regs, .offers, .sc, .stamps, .waits, .stk, .dl] ⊆ cs) (hs : Within cs s0 s) :
    Within cs s0 (drainLink n x s) := by
  induction x generalizing n s with
  | zero =>
    rw [drainLink]
    exact hs
  | succ k ih =>
    rw [drainLink]
    split
    · exact Within.ite hs (ih (useFrame_within (sub hc) (State.setDl_within (sub hc) hs)))
    · exact hs

theorem dlCommit_within {cs s0} {s n} (hc : [.regs, .offers, .sess, .inkwell, .msix, .live, .waits, .stk, .dl, .committing, .commit] ⊆ cs) (hs : Within cs s0 s) :
    Within cs s0 (dlCommit s n) := by
  unfold dlCommit
  exact showRx_within (sub hc) (dlSettle_within (sub hc) (takeCommit_within (sub hc) hs))

theorem intoBuffer_within {cs s0} {s n f block} (hc : [.regs, .offers, .sess, .inkwell, .msix, .sc, .live, .stamps, .waits, .stk, .dl, .committing, .commit] ⊆ cs) (hs : Within cs s0 s) :
    Within cs s0 (intoBuffer s n f block) := by
  unfold intoBuffer
  extract_lets +onlyGivenNames -merge -underBinder x
  refine Within.ite (State.incS_within (sub hc) hs) ?_
  extract_lets +onlyGivenNames -merge -underBinder s1
  have hs1 : Within cs s0 s1 := State.setDl_within (sub hc) hs
  clear_value s1
  exact dlCommit_within (sub hc) (drainLink_within (sub hc) hs1)

theorem blockReceived_within {cs s0} {s n b} (hc : [.regs, .offers, .sess, .inkwell, .msix, .sc, .live, .stamps, .waits, .stk, .dl, .committing, .commit] ⊆ cs) (hs : Within cs s0 s) :
    Within cs s0 (blockReceived s n b) := by
  unfold blockReceived
  exact Within.ite (intoBuffer_within (sub hc) (State.setB_within (sub hc) hs)) hs

theorem takeUpdate_within {cs s0} {s n} (hc : [.pub, .dl] ⊆ cs) (hs : Within cs s0 s) :
    Within cs s0 (takeUpdate s n) := by
  unfold takeUpdate
  extract_lets +onlyGivenNames -merge -underBinder x
  split
  · exact Within.ite (State.setDl_within (sub hc) (Within.put_stk_pubOut (sub hc) hs)) (State.setDl_within (sub hc) hs)
  · exact State.setDl_within (sub hc) hs

theorem blockStart_within {cs s0} {s01 n} (hc : [.regs, .offers, .sess, .inkwell, .msix, .live, .pub, .waits, .stk, .dl, .committing, .commit] ⊆ cs) (hs01 : Within cs s0 s01) :
    Within cs s0 (blockStart s01 n) := by
  unfold blockStart
  extract_lets +onlyGivenNames -merge -underBinder s
  have hs : Within cs s0 s := dlCommit_within (sub hc) hs01
  clear_value s
  extract_lets +onlyGivenNames -merge -underBinder due
  refine Within.ite ?_ hs
  extract_lets +onlyGivenNames -merge -underBinder w s1
  have hs1 : Within cs s0 s1 := takeUpdate_within (sub hc) (State.setDl_within (sub hc) hs)
  clear_value s1
  extract_lets +onlyGivenNames -merge -underBinder x
  exact State.setDl_within (sub hc) hs1

theorem cancelMsgs_within {cs s0} {s n} (hc : [.regs, .dl] ⊆ cs) (hs : Within cs s0 s) :
    Within cs s0 (cancelMsgs s n) := by
  unfold cancelMsgs
  extract_lets +onlyGivenNames -merge -underBinder x
  extract_lets +onlyGivenNames -merge -underBinder s1
  have hs1 : Within cs s0 s1 := State.incS_within (sub hc) (Within.foldl hs (fun t a ht => countTries_within (sub hc) ht))
  clear_value s1
  exact State.setB_within (sub hc) (State.setDl_within (sub hc) hs1)

theorem carryMsg_within {cs s0} {s n} (hc : [.dl] ⊆ cs) (hs : Within cs s0 s) :
    Within cs s0 (carryMsg s n).1 := by
  unfold carryMsg
  extract_lets +onlyGivenNames -merge -underBinder x
  split
  · split
    · extract_lets +onlyGivenNames -merge -underBinder m'
      exact State.setDl_within (sub hc) hs
    · refine Within.ite1 ?_ hs
      extract_lets +onlyGivenNames -merge -underBinder m'
      exact State.setDl_within (sub hc) hs
  · exact hs

theorem carrySet_within {cs s0} {s n} (hc : [.dl] ⊆ cs) (hs : Within cs s0 s) :
    Within cs s0 (carrySet s n).1 := by
  unfold carrySet
  extract_lets +onlyGivenNames -merge -underBinder x
  exact Within.ite1 (State.setDl_within (sub hc) hs) hs

theorem linksStart_within {cs s0} {s} (hc : [.regs, .waits, .stk, .dl] ⊆ cs) (hs : Within cs s0 s) :
    Within cs s0 (linksStart s) := by
  unfold linksStart
  extract_lets +onlyGivenNames -merge -underBinder s1
  have hs1 : Within cs s0 s1 := Within.foldl hs (fun t a ht => State.setDl_within (sub hc) ht)
  clear_value s1
  refine Within.foldl hs1 (fun t a ht => ?_)
  extract_lets +onlyGivenNames -merge -underBinder w
  extract_lets +onlyGivenNames -merge -underBinder w_1 u
  have hu : Within cs s0 u := State.setFs_within (sub hc) (State.setDl_within (sub hc) ht)
  clear_value u
  exact dlSettle_within (sub hc) (Within.ite hu (dlChange_within (sub hc) hu))

theorem putLine_within {cs s0} {s n b} (hc : [.dl] ⊆ cs) (hs : Within cs s0 s) :
    Within cs s0 (putLine s n b) := by
  unfold putLine
  exact State.setDl_within (sub hc) hs

theorem dlStart_within {cs s0} {s01 n} (hc : [.regs, .offers, .sess, .inkwell, .msix, .live, .pub, .waits, .stk, .dl, .committing, .commit] ⊆ cs) (hs01 : Within cs s0 s01) :
    Within cs s0 (dlStart s01 n) := by
  unfold dlStart
  extract_lets +onlyGivenNames -merge -underBinder s
  have hs : Within cs s0 s := dlCommit_within (sub hc) hs01
  clear_value s
  extract_lets +onlyGivenNames -merge -underBinder st
  refine Within.ite ?_ hs
  extract_lets +onlyGivenNames -merge -underBinder w s1
  have hs1 : Within cs s0 s1 := State.setDl_within (sub hc) hs
  clear_value s1
  refine Within.ite ?_ (putLine_within (sub hc) hs1)
  extract_lets +onlyGivenNames -merge -underBinder s2
  have hs2 : Within cs s0 s2 := takeUpdate_within (sub hc) hs1
  clear_value s2
  extract_lets +onlyGivenNames -merge -underBinder a
  have ha : Within cs s0 a.1 := carrySet_within (sub hc) hs2
  clear_value a
  extract_lets +onlyGivenNames -merge -underBinder b
  have hb : Within cs s0 b.1 := Within.ite1 (carryMsg_within (sub hc) ha) ha
  clear_value b
  exact putLine_within (sub hc) hb

theorem queueMsg_within {cs s0} {s n mtype data} (hc : [.dl] ⊆ cs) (hs : Within cs s0 s) :
    Within cs s0 (queueMsg s n mtype data) := by
  unfold queueMsg
  extract_lets +onlyGivenNames -merge -underBinder x
  exact Within.ite (State.setDl_within (sub hc) hs) hs

theorem lineReceived_within {cs s0} {s n f} (hc : [.regs, .offers, .sess, .inkwell, .msix, .sc, .live, .stamps, .waits, .stk, .dl, .committing, .commit] ⊆ cs) (hs : Within cs s0 s) :
    Within cs s0 (lineReceived s n f) := by
  unfold lineReceived
  exact Within.ite (intoBuffer_within (sub hc) hs) hs

theorem linkLost_within {cs s0} {s n} (hc : [.regs, .offers, .waits, .stk, .dl] ⊆ cs) (hs : Within cs s0 s) :
    Within cs s0 (linkLost s n) := by
  unfold linkLost
  extract_lets +onlyGivenNames -merge -underBinder x
  refine Within.ite ?_ hs
  extract_lets +onlyGivenNames -merge -underBinder tries
  extract_lets +onlyGivenNames -merge -underBinder s1
  have hs1 : Within cs s0 s1 := State.setDl_within (sub hc) hs
  clear_value s1
  extract_lets +onlyGivenNames -merge -underBinder s2
  have hs2 : Within cs s0 s2 := cancelMsgs_within (sub hc) (Within.ite (leaveRun_within (sub hc) hs1) hs1)
  clear_value s2
  exact State.log_within (sub hc) (State.incS_within (sub hc) hs2)

theorem messageRetry_within {cs s0} {s n} (hc : [.dl] ⊆ cs) (hs : Within cs s0 s) :
    Within cs s0 (messageRetry s n) := by
  unfold messageRetry
  extract_lets +onlyGivenNames -merge -underBinder x
  split
  · exact Within.ite (State.setDl_within (sub hc) hs) hs
  · exact hs

theorem msgLost_within {cs s0} {s n} (hc : [.regs, .offers, .dl] ⊆ cs) (hs : Within cs s0 s) :
    Within cs s0 (msgLost s n) := by
  unfold msgLost
  extract_lets +onlyGivenNames -merge -underBinder x
  split
  · split
    · exact Within.ite (State.log_within (sub hc) (State.incS_within (sub hc) (countTries_within (sub hc) (State.setDl_within (sub hc) hs)))) hs
    · exact hs
  · exact hs

theorem rxSyncChange_within {cs s0} {s n sync los} (hc : [.regs, .waits, .stk, .dl] ⊆ cs) (hs : Within cs s0 s) :
    Within cs s0 (rxSyncChange s n sync los) := by
  unfold rxSyncChange
  exact dlSettle_within (sub hc) (State.setDl_within (sub hc) hs)

theorem settingsCheck_within {cs s0} {s n} (hc : [.dl] ⊆ cs) (hs : Within cs s0 s) :
    Within cs s0 (settingsCheck s n) := by
  unfold settingsCheck
  extract_lets +onlyGivenNames -merge -underBinder x
  exact Within.ite (queueMsg_within (sub hc) (State.setDl_within (sub hc) hs)) hs

end Sys2Proof.Machine
end

