-- ==== Sys2Proof/Laws/Nib.lean ====
section
/-! SUPPORT. What each operation of Machine/Nib.lean can change: one lemma per operation, cited in place of unfolding it. -/

namespace Sys2Proof.Machine

set_option Elab.async false

theorem wantWord_within {cs s0} {s c w} (hc : [.eng] ⊆ cs) (hs : Within cs s0 s) :
    Within cs s0 (wantWord s c w) := by
  unfold wantWord
  exact Within.ite hs (outputDue_within (sub hc) hs)

theorem applyWord_within {cs s0} {s c w} (hc : [.eng, .nc] ⊆ cs) (hs : Within cs s0 s) :
    Within cs s0 (applyWord s c w) := by
  unfold applyWord
  extract_lets +onlyGivenNames -merge -underBinder w_1 s1
  have hs1 : Within cs s0 s1 := State.setNc_within (sub hc) hs
  clear_value s1
  exact wantWord_within (sub hc) hs1

theorem applyAccepted_within {cs s0} {s c} (hc : [.regs, .offers, .eng, .nc] ⊆ cs) (hs : Within cs s0 s) :
    Within cs s0 (applyAccepted s c) := by
  unfold applyAccepted
  extract_lets +onlyGivenNames -merge -underBinder x
  split
  · extract_lets +onlyGivenNames -merge -underBinder s1
    have hs1 : Within cs s0 s1 := State.setNc_within (sub hc) hs
    clear_value s1
    extract_lets +onlyGivenNames -merge -underBinder s2
    have hs2 : Within cs s0 s2 := Within.ite (State.log_within (sub hc) (State.setB_within (sub hc) hs1)) hs1
    clear_value s2
    exact applyWord_within (sub hc) hs2
  · exact hs

theorem endRecord_within {cs s0} {s c reason} (hc : [.regs, .nc] ⊆ cs) (hs : Within cs s0 s) :
    Within cs s0 (endRecord s c reason) := by
  unfold endRecord
  extract_lets +onlyGivenNames -merge -underBinder x
  split
  · extract_lets +onlyGivenNames -merge -underBinder reg
    exact State.setF_within (sub hc) (State.setNc_within (sub hc) hs)
  · exact hs

theorem initState_within {cs s0} {s c} (hc : [.regs, .nc] ⊆ cs) (hs : Within cs s0 s) :
    Within cs s0 (initState s c) := by
  unfold initState
  extract_lets +onlyGivenNames -merge -underBinder s1
  have hs1 : Within cs s0 s1 := endRecord_within (sub hc) hs
  clear_value s1
  extract_lets +onlyGivenNames -merge -underBinder x
  exact State.setFs_within (sub hc) (State.setNc_within (sub hc) hs1)

theorem leaveHa_within {cs s0} {s c} (hc : [.regs, .offers, .nc] ⊆ cs) (hs : Within cs s0 s) :
    Within cs s0 (leaveHa s c) := by
  unfold leaveHa
  refine Within.ite ?_ hs
  extract_lets +onlyGivenNames -merge -underBinder s1
  have hs1 : Within cs s0 s1 := endRecord_within (sub hc) hs
  clear_value s1
  exact State.log_within (sub hc) (State.setB_within (sub hc) (State.setNc_within (sub hc) hs1))

theorem dropQueued_within {cs s0} {s c} (hc : [.sc, .eng] ⊆ cs) (hs : Within cs s0 s) :
    Within cs s0 (dropQueued s c) := by
  unfold dropQueued
  extract_lets +onlyGivenNames -merge -underBinder x
  extract_lets +onlyGivenNames -merge -underBinder mine
  extract_lets +onlyGivenNames -merge -underBinder s1
  have hs1 : Within cs s0 s1 := State.setEng_within (sub hc) hs
  clear_value s1
  exact Within.foldl hs1 (fun t a ht => Within.ite ht (creditStart_within (sub hc) ht))

theorem goOut_within {cs s0} {s c} (hc : [.regs, .offers, .sc, .eng, .nc] ⊆ cs) (hs : Within cs s0 s) :
    Within cs s0 (goOut s c) := by
  unfold goOut
  exact Within.ite hs (outputDue_within (sub hc) (dropQueued_within (sub hc) (svcEntered_within (sub hc) (leaveHa_within (sub hc) hs))))

theorem applySvc_within {cs s0} {s c v} (hc : [.regs, .offers, .sc, .eng, .nc] ⊆ cs) (hs : Within cs s0 s) :
    Within cs s0 (applySvc s c v) := by
  unfold applySvc
  extract_lets +onlyGivenNames -merge -underBinder now
  exact Within.ite (goOut_within (sub hc) hs) (Within.ite (Within.ite hs (svcEntered_within (sub hc) (leaveHa_within (sub hc) (Within.ite (initState_within (sub hc) hs) hs)))) (Within.ite (Within.ite (svcEntered_within (sub hc) (initState_within (sub hc) hs)) (Within.ite (svcEntered_within (sub hc) hs) hs)) hs))

theorem assertLate_within {cs s0} {s c} (hc : [.regs, .offers, .nc] ⊆ cs) (hs : Within cs s0 s) :
    Within cs s0 (assertLate s c).s := by
  unfold assertLate
  extract_lets +onlyGivenNames -merge -underBinder x
  extract_lets +onlyGivenNames -merge -underBinder s1
  have hs1 : Within cs s0 s1 := State.incS_within (sub hc) hs
  clear_value s1
  exact refuse_within (sub hc) (Within.ite hs1 (State.log_within (sub hc) (State.setNc_within (sub hc) hs1)))

theorem assertBody_within {cs s0} {n s k} (hc : [.regs, .offers, .nc] ⊆ cs) (hs : Within cs s0 s) :
    Within cs s0 (assertBody n s k).s := by
  unfold assertBody
  extract_lets +onlyGivenNames -merge -underBinder c
  extract_lets +onlyGivenNames -merge -underBinder w
  extract_lets +onlyGivenNames -merge -underBinder rseq
  extract_lets +onlyGivenNames -merge -underBinder x
  refine Within.iteS (refuse_within (sub hc) hs) ?_
  extract_lets +onlyGivenNames -merge -underBinder done
  extract_lets +onlyGivenNames -merge -underBinder live
  refine Within.iteS (refuse_within (sub hc) hs) ?_
  refine Within.iteS (refuse_within (sub hc) hs) ?_
  refine Within.iteS (assertLate_within (sub hc) hs) ?_
  split
  · refine Within.iteS (refuse_within (sub hc) hs) ?_
    refine Within.iteS (assertLate_within (sub hc) hs) ?_
    extract_lets +onlyGivenNames -merge -underBinder s1
    have hs1 : Within cs s0 s1 := endRecord_within (sub hc) hs
    clear_value s1
    exact okay_within (sub hc) (State.setNc_within (sub hc) hs1)
  · exact refuse_within (sub hc) hs

theorem noteCtrl_within {cs s0} {s c} (hc : [.regs] ⊆ cs) (hs : Within cs s0 s) :
    Within cs s0 (noteCtrl s c) := by
  unfold noteCtrl
  exact State.setFs_within (sub hc) hs

theorem contextOos_within {cs s0} {s c} (hc : [.regs, .offers, .msix, .sc, .eng, .nc] ⊆ cs) (hs : Within cs s0 s) :
    Within cs s0 (contextOos s c) := by
  unfold contextOos
  exact noteCtrl_within (sub hc) (oosHealth_within (sub hc) (State.log_within (sub hc) (goOut_within (sub hc) hs)))

theorem takeHw_within {cs s0} {s c w} (hc : [.nc] ⊆ cs) (hs : Within cs s0 s) :
    Within cs s0 (takeHw s c w) := by
  unfold takeHw
  extract_lets +onlyGivenNames -merge -underBinder x
  extract_lets +onlyGivenNames -merge -underBinder follow
  exact State.setNc_within (sub hc) hs

theorem hwChange_within {cs s0} {s c w} (hc : [.eng, .nc] ⊆ cs) (hs : Within cs s0 s) :
    Within cs s0 (hwChange s c w) := by
  unfold hwChange
  extract_lets +onlyGivenNames -merge -underBinder s1
  have hs1 : Within cs s0 s1 := takeHw_within (sub hc) hs
  clear_value s1
  exact wantWord_within (sub hc) hs1

theorem twUnconfirmed_within {cs s0} {s c} (hc : [.offers, .eng, .nc] ⊆ cs) (hs : Within cs s0 s) :
    Within cs s0 (twUnconfirmed s c) := by
  unfold twUnconfirmed
  extract_lets +onlyGivenNames -merge -underBinder x
  split
  · exact hwChange_within (sub hc) (State.log_within (sub hc) (State.setNc_within (sub hc) hs))
  · exact hs

theorem settingsEffect_within {cs s0} {o s c} (hc : [.regs, .offers, .eng, .nc] ⊆ cs) (ho : Within cs s0 o) (hs : Within cs s0 s) :
    Within cs s0 (settingsEffect o s c) := by
  unfold settingsEffect
  extract_lets +onlyGivenNames -merge -underBinder t
  extract_lets +onlyGivenNames -merge -underBinder moved
  clear_value moved
  extract_lets +onlyGivenNames -merge -underBinder s1
  have hs1 : Within cs s0 s1 := Within.ite (initState_within (sub hc) hs) hs
  clear_value s1
  extract_lets +onlyGivenNames -merge -underBinder x
  extract_lets +onlyGivenNames -merge -underBinder e1
  extract_lets +onlyGivenNames -merge -underBinder e2
  extract_lets +onlyGivenNames -merge -underBinder s2
  have hs2 : Within cs s0 s2 := State.setNc_within (sub hc) hs1
  clear_value s2
  extract_lets +onlyGivenNames -merge -underBinder w s3
  have hs3 : Within cs s0 s3 := Within.ite (State.setNc_within (sub hc) hs2) hs2
  clear_value s3
  exact Within.ite (twUnconfirmed_within (sub hc) hs3) hs3

theorem contextSwitch_within {cs s0} {s c} (hc : [.regs, .offers, .sess, .inkwell, .msix, .sc, .eng, .nc, .live, .committing, .commit] ⊆ cs) (hs : Within cs s0 s) :
    Within cs s0 (contextSwitch s c) := by
  unfold contextSwitch
  refine Within.ite ?_ hs
  extract_lets +onlyGivenNames -merge -underBinder svc
  extract_lets +onlyGivenNames -merge -underBinder s1
  have hs1 : Within cs s0 s1 := takeCommit_within (sub hc) hs
  clear_value s1
  extract_lets +onlyGivenNames -merge -underBinder s2
  have hs2 : Within cs s0 s2 := settingsEffect_within (sub hc) hs hs1
  clear_value s2
  exact noteCtrl_within (sub hc) (Within.ite (applySvc_within (sub hc) hs2) hs2)

theorem contextSettingsSwitch_within {cs s0} {s c} (hc : [.regs, .offers, .sess, .inkwell, .msix, .sc, .eng, .nc, .live, .committing, .commit] ⊆ cs) (hs : Within cs s0 s) :
    Within cs s0 (contextSettingsSwitch s c) := by
  unfold contextSettingsSwitch
  split
  · exact Within.ite (contextSwitch_within (sub hc) hs) hs
  · exact hs

theorem makeEntry_within {cs s0} {s c w} (hc : [.regs, .nc] ⊆ cs) (hs : Within cs s0 s) :
    Within cs s0 (makeEntry s c w).1 := by
  unfold makeEntry
  extract_lets +onlyGivenNames -merge -underBinder x
  extract_lets +onlyGivenNames -merge -underBinder s1
  have hs1 : Within cs s0 s1 := State.setF_within (sub hc) (State.setNc_within (sub hc) hs)
  clear_value s1
  exact hs1

theorem makeEntries_within {cs s0} {s x} (hc : [.regs, .nc] ⊆ cs) (hs : Within cs s0 s) :
    Within cs s0 (makeEntries s x).1 := by
  induction x generalizing s with
  | nil =>
    rw [makeEntries]
    exact hs
  | cons a l ih =>
    rw [makeEntries]
    exact ih (makeEntry_within (sub hc) hs)

theorem sendFlit_within {cs s0} {s e n} (hc : [.regs, .eng, .nc, .toStroke, .waits] ⊆ cs) (hs : Within cs s0 s) :
    Within cs s0 (sendFlit s e n) := by
  unfold sendFlit
  extract_lets +onlyGivenNames -merge -underBinder x
  refine Within.ite hs ?_
  extract_lets +onlyGivenNames -merge -underBinder r
  have hr : Within cs s0 r.1 := makeEntries_within (sub hc) (State.setEng_within (sub hc) hs)
  clear_value r
  exact decisionSend_within (sub hc) hr

theorem outputLogicFlit_within {cs s0} {s e} (hc : [.regs, .eng, .nc, .toStroke, .waits] ⊆ cs) (hs : Within cs s0 s) :
    Within cs s0 (outputLogicFlit s e) := by
  unfold outputLogicFlit
  extract_lets +onlyGivenNames -merge -underBinder x
  exact Within.ite (sendFlit_within (sub hc) hs) hs

theorem enterFallback_within {cs s0} {s c signals rseq} (hc : [.regs, .offers, .eng, .nc] ⊆ cs) (hs : Within cs s0 s) :
    Within cs s0 (enterFallback s c signals rseq) := by
  unfold enterFallback
  extract_lets +onlyGivenNames -merge -underBinder k
  extract_lets +onlyGivenNames -merge -underBinder x
  extract_lets +onlyGivenNames -merge -underBinder s1
  have hs1 : Within cs s0 s1 := State.incS_within (sub hc) (State.setB_within (sub hc) (State.setNc_within (sub hc) hs))
  clear_value s1
  extract_lets +onlyGivenNames -merge -underBinder s2
  have hs2 : Within cs s0 s2 := State.log_within (sub hc) hs1
  clear_value s2
  exact Within.ite (applyWord_within (sub hc) hs2) (Within.ite (applyWord_within (sub hc) hs2) hs2)

theorem twdetTest_within {cs s0} {s roc ns} (hc : [.offers, .eng, .nc] ⊆ cs) (hs : Within cs s0 s) :
    Within cs s0 (twdetTest s roc ns) := by
  unfold twdetTest
  refine Within.foldl hs (fun t a ht => ?_)
  refine Within.ite ?_ ht
  split
  · refine Within.ite ?_ (Within.ite (twUnconfirmed_within (sub hc) ht) ht)
    extract_lets +onlyGivenNames -merge -underBinder x
    exact hwChange_within (sub hc) (State.setNc_within (sub hc) ht)
  · exact ht

theorem evalFlit_within {cs s0} {s e c w} (hc : [.regs, .offers, .eng, .nc, .toStroke, .waits] ⊆ cs) (hs : Within cs s0 s) :
    Within cs s0 (evalFlit s e c w) := by
  unfold evalFlit
  extract_lets +onlyGivenNames -merge -underBinder due
  extract_lets +onlyGivenNames -merge -underBinder mine
  extract_lets +onlyGivenNames -merge -underBinder rest
  extract_lets +onlyGivenNames -merge -underBinder test
  have htest : ∀ test0, Within cs s0 test0 → Within cs s0 (test test0) := by
    intro test0 htest0
    unfold test
    exact Within.ite (twdetTest_within (sub hc) htest0) htest0
  clear_value test
  refine Within.ite ?_ ?_
  · extract_lets +onlyGivenNames -merge -underBinder w_1 a
    have ha : Within cs s0 a.1 := makeEntries_within (sub hc) (State.setEng_within (sub hc) hs)
    clear_value a
    extract_lets +onlyGivenNames -merge -underBinder t
    have ht : Within cs s0 t := htest _ ha
    clear_value t
    extract_lets +onlyGivenNames -merge -underBinder k
    extract_lets +onlyGivenNames -merge -underBinder w_2 b
    have hb : Within cs s0 b.1 := makeEntries_within (sub hc) (State.setEng_within (sub hc) ht)
    clear_value b
    exact decisionSend_within (sub hc) hb
  · extract_lets +onlyGivenNames -merge -underBinder w_3 a
    have ha : Within cs s0 a.1 := makeEntries_within (sub hc) (State.setEng_within (sub hc) hs)
    clear_value a
    exact htest _ (decisionSend_within (sub hc) ha)

theorem noteFault_within {cs s0} {s c fault} (hc : [.regs, .offers, .nc] ⊆ cs) (hs : Within cs s0 s) :
    Within cs s0 (noteFault s c fault) := by
  unfold noteFault
  extract_lets +onlyGivenNames -merge -underBinder x
  extract_lets +onlyGivenNames -merge -underBinder s1
  have hs1 : Within cs s0 s1 := State.setNc_within (sub hc) hs
  clear_value s1
  refine Within.ite ?_ hs1
  extract_lets +onlyGivenNames -merge -underBinder s2
  have hs2 : Within cs s0 s2 := State.incS_within (sub hc) hs1
  clear_value s2
  exact Within.ite hs2 (State.log_within (sub hc) hs2)

theorem writeMeas_within {cs s0} {s c stamp epoch hw qsum flags meas} (hc : [.regs] ⊆ cs) (hs : Within cs s0 s) :
    Within cs s0 (writeMeas s c stamp epoch hw qsum flags meas) := by
  unfold writeMeas
  extract_lets +onlyGivenNames -merge -underBinder m
  exact State.setFs_within (sub hc) hs

theorem issueRecord_within {cs s0} {s c qsum stamp epoch flags meas} (hc : [.regs, .inkwell, .msix, .nc] ⊆ cs) (hs : Within cs s0 s) :
    Within cs s0 (issueRecord s c qsum stamp epoch flags meas) := by
  unfold issueRecord
  extract_lets +onlyGivenNames -merge -underBinder x
  extract_lets +onlyGivenNames -merge -underBinder s0_1
  have hs0_1 : Within cs s0 s0_1 := State.setNc_within (sub hc) hs
  clear_value s0_1
  refine Within.ite hs0_1 ?_
  refine Within.ite (State.incS_within (sub hc) hs0_1) ?_
  extract_lets +onlyGivenNames -merge -underBinder e
  extract_lets +onlyGivenNames -merge -underBinder reg
  split
  · extract_lets +onlyGivenNames -merge -underBinder last
    extract_lets +onlyGivenNames -merge -underBinder rseq
    extract_lets +onlyGivenNames -merge -underBinder w s1
    have hs1 : Within cs s0 s1 := State.setNc_within (sub hc) hs0_1
    clear_value s1
    extract_lets +onlyGivenNames -merge -underBinder s2
    have hs2 : Within cs s0 s2 := State.setF_within (sub hc) (State.setF_within (sub hc) hs1)
    clear_value s2
    extract_lets +onlyGivenNames -merge -underBinder s3
    have hs3 : Within cs s0 s3 := State.inkWrite_within (sub hc) hs2
    clear_value s3
    exact State.irq_within (sub hc) hs3
  · exact State.incS_within (sub hc) hs0_1

theorem evalResult_within {cs s0} {s c word ns stamp epoch qsum flags fault meas} (hc : [.regs, .offers, .inkwell, .msix, .nc] ⊆ cs) (hs : Within cs s0 s) :
    Within cs s0 (evalResult s c word ns stamp epoch qsum flags fault meas) := by
  unfold evalResult
  extract_lets +onlyGivenNames -merge -underBinder s1
  have hs1 : Within cs s0 s1 := takeHw_within (sub hc) (noteFault_within (sub hc) hs)
  clear_value s1
  extract_lets +onlyGivenNames -merge -underBinder w s2
  have hs2 : Within cs s0 s2 := State.setNc_within (sub hc) hs1
  clear_value s2
  extract_lets +onlyGivenNames -merge -underBinder s3
  have hs3 : Within cs s0 s3 := State.setFs_within (sub hc) hs2
  clear_value s3
  extract_lets +onlyGivenNames -merge -underBinder s4
  have hs4 : Within cs s0 s4 := writeMeas_within (sub hc) hs3
  clear_value s4
  exact Within.ite (issueRecord_within (sub hc) hs4) hs4

theorem sampleEval_within {cs s0} {s r} (hc : [.regs, .offers, .inkwell, .msix, .nc] ⊆ cs) (hs : Within cs s0 s) :
    Within cs s0 (sampleEval s r) := by
  unfold sampleEval
  extract_lets +onlyGivenNames -merge -underBinder c
  extract_lets +onlyGivenNames -merge -underBinder x
  extract_lets +onlyGivenNames -merge -underBinder o
  extract_lets +onlyGivenNames -merge -underBinder h_1
  extract_lets +onlyGivenNames -merge -underBinder qsum
  extract_lets +onlyGivenNames -merge -underBinder s1
  have hs1 : Within cs s0 s1 := State.setB_within (sub hc) (State.setNc_within (sub hc) hs)
  clear_value s1
  exact evalResult_within (sub hc) hs1

theorem twExamine_within {cs s0} {s c ev x} (hc : [.offers] ⊆ cs) (hs : Within cs s0 s) :
    Within cs s0 (twExamine s c ev x).1 := by
  induction x generalizing s c ev with
  | nil =>
    rw [twExamine]
    exact hs
  | cons a l ih =>
    rw [twExamine]
    split
    · exact ih (State.log_within (sub hc) hs)
    · exact hs

theorem twProduce_within {cs s0} {s c ev z q} (hc : [.regs, .offers, .inkwell, .msix, .nc] ⊆ cs) (hs : Within cs s0 s) :
    Within cs s0 (twProduce s c ev z q) := by
  unfold twProduce
  extract_lets +onlyGivenNames -merge -underBinder r
  extract_lets +onlyGivenNames -merge -underBinder asym
  extract_lets +onlyGivenNames -merge -underBinder clamp
  extract_lets +onlyGivenNames -merge -underBinder zone
  extract_lets +onlyGivenNames -merge -underBinder op
  extract_lets +onlyGivenNames -merge -underBinder fl
  extract_lets +onlyGivenNames -merge -underBinder bad
  extract_lets +onlyGivenNames -merge -underBinder w w_1 s1
  have hs1 : Within cs s0 s1 := Within.ite hs (State.log_within (sub hc) (State.setNc_within (sub hc) hs))
  clear_value s1
  exact evalResult_within (sub hc) hs1

theorem twSearch_within {cs s0} {s c ev q} (hc : [.regs, .offers, .inkwell, .msix, .nc] ⊆ cs) (hs : Within cs s0 s) :
    Within cs s0 (twSearch s c ev q) := by
  unfold twSearch
  extract_lets +onlyGivenNames -merge -underBinder x
  extract_lets +onlyGivenNames -merge -underBinder keep
  extract_lets +onlyGivenNames -merge -underBinder r
  have hr : Within cs s0 r.1 := twExamine_within (sub hc) hs
  clear_value r
  extract_lets +onlyGivenNames -merge -underBinder w s1
  have hs1 : Within cs s0 s1 := State.setNc_within (sub hc) hr
  clear_value s1
  split
  · exact twProduce_within (sub hc) hs1
  · exact evalResult_within (sub hc) hs1

theorem twlocEval_within {cs s0} {s r ev} (hc : [.regs, .offers, .inkwell, .msix, .nc, .dl] ⊆ cs) (hs : Within cs s0 s) :
    Within cs s0 (twlocEval s r ev) := by
  unfold twlocEval
  extract_lets +onlyGivenNames -merge -underBinder c
  extract_lets +onlyGivenNames -merge -underBinder x
  extract_lets +onlyGivenNames -merge -underBinder q
  extract_lets +onlyGivenNames -merge -underBinder stop
  have hstop : ∀ stop0, Within cs s0 (stop stop0) := by
    intro stop0
    unfold stop
    exact evalResult_within (sub hc) hs
  clear_value stop
  split
  · exact Within.ite (hstop _) (Within.ite (evalResult_within (sub hc) hs) (twSearch_within (sub hc) hs))
  · refine Within.ite (evalResult_within (sub hc) hs) ?_
    refine Within.ite (hstop _) ?_
    extract_lets +onlyGivenNames -merge -underBinder w s1
    have hs1 : Within cs s0 s1 := State.setNc_within (sub hc) hs
    clear_value s1
    exact twSearch_within (sub hc) (queueMsg_within (sub hc) hs1)

theorem twdetEval_within {cs s0} {s r ev} (hc : [.regs, .offers, .inkwell, .msix, .nc] ⊆ cs) (hs : Within cs s0 s) :
    Within cs s0 (twdetEval s r ev) := by
  unfold twdetEval
  extract_lets +onlyGivenNames -merge -underBinder c
  extract_lets +onlyGivenNames -merge -underBinder x
  extract_lets +onlyGivenNames -merge -underBinder q
  extract_lets +onlyGivenNames -merge -underBinder usable
  extract_lets +onlyGivenNames -merge -underBinder d
  extract_lets +onlyGivenNames -merge -underBinder ksl
  extract_lets +onlyGivenNames -merge -underBinder slope
  extract_lets +onlyGivenNames -merge -underBinder bad
  extract_lets +onlyGivenNames -merge -underBinder big
  extract_lets +onlyGivenNames -merge -underBinder fwd
  extract_lets +onlyGivenNames -merge -underBinder n
  extract_lets +onlyGivenNames -merge -underBinder word
  extract_lets +onlyGivenNames -merge -underBinder wave
  extract_lets +onlyGivenNames -merge -underBinder s1
  have hs1 : Within cs s0 s1 := State.setNc_within (sub hc) hs
  clear_value s1
  extract_lets +onlyGivenNames -merge -underBinder fl
  exact evalResult_within (sub hc) hs1

theorem noteTerm_within {cs s0} {s e r} (hc : [.regs] ⊆ cs) (hs : Within cs s0 s) :
    Within cs s0 (noteTerm s e r) := by
  unfold noteTerm
  extract_lets +onlyGivenNames -merge -underBinder t
  exact Within.ite (State.setFs_within (sub hc) hs) hs

theorem evaluationComplete_within {cs s0} {s e} (hc : [.regs, .offers, .inkwell, .msix, .eng, .nc, .toStroke, .waits, .dl] ⊆ cs) (hs : Within cs s0 s) :
    Within cs s0 (evaluationComplete s e) := by
  unfold evaluationComplete
  extract_lets +onlyGivenNames -merge -underBinder x
  split
  · exact hs
  · refine Within.ite hs ?_
    extract_lets +onlyGivenNames -merge -underBinder c
    extract_lets +onlyGivenNames -merge -underBinder s1
    have hs1 : Within cs s0 s1 := State.setB_within (sub hc) (State.setEng_within (sub hc) hs)
    clear_value s1
    extract_lets +onlyGivenNames -merge -underBinder s2
    have hs2 : Within cs s0 s2 := State.incW_within (sub hc) (noteTerm_within (sub hc) hs1)
    clear_value s2
    extract_lets +onlyGivenNames -merge -underBinder s3
    have hs3 : Within cs s0 s3 := by
      unfold s3
      split
      · exact Within.ite (twdetEval_within (sub hc) hs2) (twlocEval_within (sub hc) hs2)
      · exact sampleEval_within (sub hc) hs2
    clear_value s3
    extract_lets +onlyGivenNames -merge -underBinder w
    exact Within.ite (sendFlit_within (sub hc) (Within.ite (twdetTest_within (sub hc) hs3) hs3)) (evalFlit_within (sub hc) hs3)

theorem readInputs_within {cs s0} {s c inst epoch} (hc : [.offers, .nc] ⊆ cs) (hs : Within cs s0 s) :
    Within cs s0 (readInputs s c inst epoch).1 := by
  unfold readInputs
  refine Within.ite1 ?_ ?_
  · extract_lets +onlyGivenNames -merge -underBinder r
    have hr : Within cs s0 r.1 := ddRead_within (sub hc) hs
    clear_value r
    exact hr
  · extract_lets +onlyGivenNames -merge -underBinder l
    exact hs

theorem noteMiss_within {cs s0} {s c missed} (hc : [.regs, .offers, .nc] ⊆ cs) (hs : Within cs s0 s) :
    Within cs s0 (noteMiss s c missed) := by
  unfold noteMiss
  extract_lets +onlyGivenNames -merge -underBinder x
  extract_lets +onlyGivenNames -merge -underBinder s1
  have hs1 : Within cs s0 s1 := State.setNc_within (sub hc) (State.incS_within (sub hc) hs)
  clear_value s1
  exact Within.ite (State.log_within (sub hc) hs1) hs1

theorem startEval_within {cs s0} {s e q} (hc : [.regs, .offers, .sc, .eng, .nc] ⊆ cs) (hs : Within cs s0 s) :
    Within cs s0 (startEval s e q) := by
  unfold startEval
  extract_lets +onlyGivenNames -merge -underBinder c
  extract_lets +onlyGivenNames -merge -underBinder wav
  extract_lets +onlyGivenNames -merge -underBinder s1
  have hs1 : Within cs s0 s1 := Within.ite hs (creditStart_within (sub hc) hs)
  clear_value s1
  extract_lets +onlyGivenNames -merge -underBinder r
  have hr : Within cs s0 r.1 := Within.ite1 hs1 (readInputs_within (sub hc) hs1)
  clear_value r
  extract_lets +onlyGivenNames -merge -underBinder s2
  have hs2 : Within cs s0 s2 := Within.ite hr (noteMiss_within (sub hc) hr)
  clear_value s2
  extract_lets +onlyGivenNames -merge -underBinder x
  exact State.setB_within (sub hc) (State.setEng_within (sub hc) hs2)

theorem takeEvalMode_within {cs s0} {s c} (hc : [.regs, .offers, .sess, .inkwell, .msix, .nc, .modePend] ⊆ cs) (hs : Within cs s0 s) :
    Within cs s0 (takeEvalMode s c) := by
  unfold takeEvalMode
  split
  · extract_lets +onlyGivenNames -merge -underBinder x
    extract_lets +onlyGivenNames -merge -underBinder t w s1
    have hs1 : Within cs s0 s1 := by
      unfold s1
      refine Within.ite (State.log_within (sub hc) (State.setNc_within (sub hc) hs)) ?_
      refine Within.ite ?_ hs
      have ht : Within cs s0 t := leaveHa_within (sub hc) hs
      clear_value t
      exact State.setNc_within (sub hc) ht
    clear_value s1
    exact modeTaken_within (sub hc) (noteCtrl_within (sub hc) hs1)
  · exact hs

theorem evaluationDispatch_within {cs s0} {s e settings state} (hc : [.regs, .offers, .sess, .inkwell, .msix, .sc, .mem, .eng, .nc, .live, .modePend, .committing, .commit] ⊆ cs) (hs : Within cs s0 s) :
    Within cs s0 (evaluationDispatch s e settings state) := by
  unfold evaluationDispatch
  extract_lets +onlyGivenNames -merge -underBinder x
  refine Within.ite hs ?_
  split
  · exact hs
  · extract_lets +onlyGivenNames -merge -underBinder c
    extract_lets +onlyGivenNames -merge -underBinder s1
    have hs1 : Within cs s0 s1 := memNote_within (sub hc) hs
    clear_value s1
    refine Within.ite (contextOos_within (sub hc) hs1) ?_
    extract_lets +onlyGivenNames -merge -underBinder s2
    have hs2 : Within cs s0 s2 := takeEvalMode_within (sub hc) (contextSwitch_within (sub hc) hs1)
    clear_value s2
    extract_lets +onlyGivenNames -merge -underBinder s3
    have hs3 : Within cs s0 s3 := memNote_within (sub hc) hs2
    clear_value s3
    extract_lets +onlyGivenNames -merge -underBinder s4
    have hs4 : Within cs s0 s4 := Within.ite (State.log_within (sub hc) (initState_within (sub hc) hs3)) hs3
    clear_value s4
    refine Within.ite (dropQueued_within (sub hc) hs4) ?_
    extract_lets +onlyGivenNames -merge -underBinder y
    exact startEval_within (sub hc) (State.setEng_within (sub hc) hs4)

theorem haFallback_within {cs s0} {s c} (hc : [.regs, .offers, .eng, .nc] ⊆ cs) (hs : Within cs s0 s) :
    Within cs s0 (haFallback s c) := by
  unfold haFallback
  split
  · exact Within.ite (enterFallback_within (sub hc) (endRecord_within (sub hc) hs)) hs
  · exact hs

theorem haResignal_within {cs s0} {s c} (hc : [.regs, .msix, .nc] ⊆ cs) (hs : Within cs s0 s) :
    Within cs s0 (haResignal s c) := by
  unfold haResignal
  extract_lets +onlyGivenNames -merge -underBinder x
  split
  · exact Within.ite (State.irq_within (sub hc) (State.setNc_within (sub hc) hs)) hs
  · exact hs

theorem haWordApply_within {cs s0} {s e} (hc : [.regs, .offers, .eng, .nc] ⊆ cs) (hs : Within cs s0 s) :
    Within cs s0 (haWordApply s e) := by
  unfold haWordApply
  exact Within.ite (Within.foldl hs (fun t a ht => applyAccepted_within (sub hc) ht)) hs

theorem noteUtil_within {cs s0} {s e} (hc : [.regs, .eng] ⊆ cs) (hs : Within cs s0 s) :
    Within cs s0 (noteUtil s e) := by
  unfold noteUtil
  extract_lets +onlyGivenNames -merge -underBinder x
  extract_lets +onlyGivenNames -merge -underBinder more
  extract_lets +onlyGivenNames -merge -underBinder s1
  have hs1 : Within cs s0 s1 := State.setF_within (sub hc) hs
  clear_value s1
  exact State.setEng_within (sub hc) hs1

theorem paceFallback_within {cs s0} {s c} (hc : [.regs, .offers, .eng, .nc] ⊆ cs) (hs : Within cs s0 s) :
    Within cs s0 (paceFallback s c) := by
  unfold paceFallback
  extract_lets +onlyGivenNames -merge -underBinder x
  refine Within.ite (endRecord_within (sub hc) hs) ?_
  refine Within.ite ?_ hs
  split
  · exact enterFallback_within (sub hc) (endRecord_within (sub hc) hs)
  · exact enterFallback_within (sub hc) hs

theorem paceWindow_within {cs s0} {s01 p} (hc : [.regs, .clk, .offers, .msix, .pbi, .eng, .nc] ⊆ cs) (hs01 : Within cs s0 s01) :
    Within cs s0 (paceWindow s01 p) := by
  unfold paceWindow
  extract_lets +onlyGivenNames -merge -underBinder w w_1 s
  have hs : Within cs s0 s := Within.put_rul_clk (sub hc) hs01
  clear_value s
  extract_lets +onlyGivenNames -merge -underBinder q
  extract_lets +onlyGivenNames -merge -underBinder s1
  have hs1 : Within cs s0 s1 := State.setFs_within (sub hc) hs
  clear_value s1
  extract_lets +onlyGivenNames -merge -underBinder s2
  have hs2 : Within cs s0 s2 := Within.foldl hs1 (fun t a ht => noteUtil_within (sub hc) ht)
  clear_value s2
  extract_lets +onlyGivenNames -merge -underBinder s2d
  have hs2d : Within cs s0 s2d := State.setF_within (sub hc) (State.maxF_within (sub hc) hs2)
  clear_value s2d
  extract_lets +onlyGivenNames -merge -underBinder w_2 s3
  have hs3 : Within cs s0 s3 := Within.put_pbi_decoded (sub hc) hs2d
  clear_value s3
  refine Within.ite ?_ ?_
  · extract_lets +onlyGivenNames -merge -underBinder good
    exact Within.ite (State.log_within (sub hc) (State.irq_within (sub hc) (State.setFs_within (sub hc) hs3))) (State.setF_within (sub hc) hs3)
  · refine Within.ite ?_ hs3
    extract_lets +onlyGivenNames -merge -underBinder s4
    have hs4 : Within cs s0 s4 := State.incW_within (sub hc) (State.setFs_within (sub hc) hs3)
    clear_value s4
    extract_lets +onlyGivenNames -merge -underBinder s5
    have hs5 : Within cs s0 s5 := State.log_within (sub hc) (State.health_within (sub hc) hs4)
    clear_value s5
    exact Within.foldl hs5 (fun t a ht => paceFallback_within (sub hc) ht)

theorem paceWindowEnd_within {cs s0} {s p} (hc : [.regs, .clk, .offers, .msix, .pbi, .eng, .nc] ⊆ cs) (hs : Within cs s0 s) :
    Within cs s0 (paceWindowEnd s p) := by
  unfold paceWindowEnd
  exact Within.ite (paceWindow_within (sub hc) hs) hs

theorem twDeliver_within {cs s0} {z s c} (hc : [.regs, .eng, .nc] ⊆ cs) (hs : Within cs s0 s) :
    Within cs s0 (twDeliver z s c) := by
  unfold twDeliver
  extract_lets +onlyGivenNames -merge -underBinder x
  refine Within.ite hs ?_
  extract_lets +onlyGivenNames -merge -underBinder l
  extract_lets +onlyGivenNames -merge -underBinder s1
  have hs1 : Within cs s0 s1 := State.setNc_within (sub hc) hs
  clear_value s1
  split
  · exact enqueueEval_within (sub hc) hs1
  · exact hs1

theorem twdetHoldEnd_within {cs s0} {s c} (hc : [.eng, .nc] ⊆ cs) (hs : Within cs s0 s) :
    Within cs s0 (twdetHoldEnd s c) := by
  unfold twdetHoldEnd
  extract_lets +onlyGivenNames -merge -underBinder x
  split
  · exact Within.ite (hwChange_within (sub hc) (State.setNc_within (sub hc) hs)) hs
  · exact hs

theorem twdetUnconfirmed_within {cs s0} {s c} (hc : [.offers, .eng, .nc] ⊆ cs) (hs : Within cs s0 s) :
    Within cs s0 (twdetUnconfirmed s c) := by
  unfold twdetUnconfirmed
  split
  · exact Within.ite (twUnconfirmed_within (sub hc) hs) hs
  · exact hs

theorem twlocStampDelivery_within {cs s0} {s n} (hc : [.regs, .eng, .nc, .stamps] ⊆ cs) (hs : Within cs s0 s) :
    Within cs s0 (twlocStampDelivery s n) := by
  unfold twlocStampDelivery
  split
  · extract_lets +onlyGivenNames -merge -underBinder w s1
    have hs1 : Within cs s0 s1 := Within.put_nib_stamps (sub hc) hs
    clear_value s1
    exact Within.foldl hs1 (fun t a ht => twDeliver_within (sub hc) ht)
  · exact hs

theorem twlocUnlock_within {cs s0} {s c} (hc : [.offers, .eng, .nc] ⊆ cs) (hs : Within cs s0 s) :
    Within cs s0 (twlocUnlock s c) := by
  unfold twlocUnlock
  extract_lets +onlyGivenNames -merge -underBinder x
  split
  · refine Within.ite ?_ hs
    extract_lets +onlyGivenNames -merge -underBinder w s1
    have hs1 : Within cs s0 s1 := State.setNc_within (sub hc) hs
    clear_value s1
    exact hwChange_within (sub hc) (Within.ite hs1 (State.log_within (sub hc) hs1))
  · exact hs

end Sys2Proof.Machine
end

