-- ==== Sys2Proof/Laws/Fio.lean ====
section
/-! SUPPORT. What each operation of Machine/Fio.lean can change: one lemma per operation, cited in place of unfolding it. -/

namespace Sys2Proof.Machine

set_option Elab.async false

theorem State.setFc_within {cs s0} {s n x} (hc : [.fc] ⊆ cs) (hs : Within cs s0 s) :
    Within cs s0 (State.setFc s n x) := by
  unfold State.setFc
  exact Within.put_fio_fc (sub hc) hs

theorem State.setGrp_within {cs s0} {s g x} (hc : [.grp] ⊆ cs) (hs : Within cs s0 s) :
    Within cs s0 (State.setGrp s g x) := by
  unfold State.setGrp
  exact Within.put_fio_grp (sub hc) hs

theorem fcSettle_within {cs s0} {s n} (hc : [.fc] ⊆ cs) (hs : Within cs s0 s) :
    Within cs s0 (fcSettle s n) := by
  unfold fcSettle
  extract_lets +onlyGivenNames -merge -underBinder x
  extract_lets +onlyGivenNames -merge -underBinder keep
  exact State.setFc_within (sub hc) hs

theorem fcInput_within {cs s0} {s n} (hc : [.regs, .logicQ, .waits] ⊆ cs) (hs : Within cs s0 s) :
    Within cs s0 (fcInput s n) := by
  unfold fcInput
  extract_lets +onlyGivenNames -merge -underBinder q
  extract_lets +onlyGivenNames -merge -underBinder s1
  have hs1 : Within cs s0 s1 := State.setFs_within (sub hc) hs
  clear_value s1
  exact logicSend_within (sub hc) hs1

theorem fcReport_within {cs s0} {s n} (hc : [.regs, .offers, .logicQ, .waits, .fc] ⊆ cs) (hs : Within cs s0 s) :
    Within cs s0 (fcReport s n) := by
  unfold fcReport
  refine Within.ite ?_ (fcInput_within (sub hc) hs)
  extract_lets +onlyGivenNames -merge -underBinder x
  extract_lets +onlyGivenNames -merge -underBinder s1
  have hs1 : Within cs s0 s1 := State.setFs_within (sub hc) hs
  clear_value s1
  extract_lets +onlyGivenNames -merge -underBinder s2
  have hs2 : Within cs s0 s2 := State.incS_within (sub hc) (State.incS_within (sub hc) (State.incS_within (sub hc) hs1))
  clear_value s2
  extract_lets +onlyGivenNames -merge -underBinder s3
  have hs3 : Within cs s0 s3 := Within.foldl hs2 (fun t a ht => State.log_within (sub hc) ht)
  clear_value s3
  extract_lets +onlyGivenNames -merge -underBinder s4
  have hs4 : Within cs s0 s4 := Within.ite (State.log_within (sub hc) hs3) hs3
  clear_value s4
  exact fcInput_within (sub hc) (State.setFc_within (sub hc) hs4)

theorem fcShow_within {cs s0} {s n} (hc : [.regs, .offers, .logicQ, .waits, .fc] ⊆ cs) (hs : Within cs s0 s) :
    Within cs s0 (fcShow s n) := by
  unfold fcShow
  exact fcReport_within (sub hc) (fcSettle_within (sub hc) hs)

theorem fcShowAll_within {cs s0} {s ns} (hc : [.regs, .offers, .logicQ, .waits, .fc] ⊆ cs) (hs : Within cs s0 s) :
    Within cs s0 (fcShowAll s ns) := by
  unfold fcShowAll
  exact Within.foldl hs (fun t a ht => fcShow_within (sub hc) ht)

theorem grpEnter_within {cs s0} {s g st} (hc : [.regs, .offers, .logicQ, .waits, .fc, .grp] ⊆ cs) (hs : Within cs s0 s) :
    Within cs s0 (grpEnter s g st) := by
  unfold grpEnter
  extract_lets +onlyGivenNames -merge -underBinder w s1
  have hs1 : Within cs s0 s1 := State.setF_within (sub hc) (State.setGrp_within (sub hc) hs)
  clear_value s1
  extract_lets +onlyGivenNames -merge -underBinder s2
  have hs2 : Within cs s0 s2 := Within.ite (State.incS_within (sub hc) hs1) (Within.ite (State.incS_within (sub hc) hs1) (Within.ite (State.incS_within (sub hc) hs1) hs1))
  clear_value s2
  exact fcShowAll_within (sub hc) hs2

theorem fioAck_within {cs s0} {s g} (hc : [.regs, .offers, .logicQ, .waits, .fc, .grp] ⊆ cs) (hs : Within cs s0 s) :
    Within cs s0 (fioAck s g) := by
  unfold fioAck
  exact Within.ite (State.log_within (sub hc) (grpEnter_within (sub hc) hs)) hs

theorem fioQuillAck_within {cs s0} {qb s} (hc : [.regs, .offers, .logicQ, .waits, .fc, .grp] ⊆ cs) (hs : Within cs s0 s) :
    Within cs s0 (fioQuillAck qb s) := by
  unfold fioQuillAck
  refine Within.foldl hs (fun t a ht => ?_)
  extract_lets +onlyGivenNames -merge -underBinder i
  exact Within.ite (fioAck_within (sub hc) ht) ht

theorem fioShift_within {cs s0} {s d} (hc : [.fc] ⊆ cs) (hs : Within cs s0 s) :
    Within cs s0 (fioShift s d) := by
  unfold fioShift
  refine Within.foldl hs (fun t a ht => ?_)
  extract_lets +onlyGivenNames -merge -underBinder x
  exact Within.ite ht (State.setFc_within (sub hc) ht)

theorem fioStop_within {cs s0} {s} (hc : [.regs, .offers, .logicQ, .waits, .fc] ⊆ cs) (hs : Within cs s0 s) :
    Within cs s0 (fioStop s) := by
  unfold fioStop
  exact Within.foldl hs (fun t a ht => Within.ite (fcShow_within (sub hc) (State.setFc_within (sub hc) ht)) ht)

theorem fioShowGroups_within {cs s0} {s} (hc : [.regs] ⊆ cs) (hs : Within cs s0 s) :
    Within cs s0 (fioShowGroups s) := by
  unfold fioShowGroups
  refine Within.foldl hs (fun t a ht => ?_)
  extract_lets +onlyGivenNames -merge -underBinder x
  exact Within.ite (State.setFs_within (sub hc) ht) ht

theorem grpConfigure_within {cs s0} {s g} (hc : [.regs, .offers, .grp] ⊆ cs) (hs : Within cs s0 s) :
    Within cs s0 (grpConfigure s g) := by
  unfold grpConfigure
  extract_lets +onlyGivenNames -merge -underBinder x
  refine Within.ite hs ?_
  extract_lets +onlyGivenNames -merge -underBinder block
  extract_lets +onlyGivenNames -merge -underBinder s1
  have hs1 : Within cs s0 s1 := State.setB_within (sub hc) (State.setGrp_within (sub hc) hs)
  clear_value s1
  exact Within.ite (State.log_within (sub hc) (State.setF_within (sub hc) hs1)) hs1

theorem fcConfigure_within {cs s0} {s n} (hc : [.regs, .offers, .fc, .grp] ⊆ cs) (hs : Within cs s0 s) :
    Within cs s0 (fcConfigure s n) := by
  unfold fcConfigure
  extract_lets +onlyGivenNames -merge -underBinder w
  extract_lets +onlyGivenNames -merge -underBinder x
  extract_lets +onlyGivenNames -merge -underBinder s1
  have hs1 : Within cs s0 s1 := State.setFc_within (sub hc) hs
  clear_value s1
  exact grpConfigure_within (sub hc) hs1

theorem fioResume_within {cs s0} {s} (hc : [.regs, .offers, .logicQ, .waits, .fc, .grp] ⊆ cs) (hs : Within cs s0 s) :
    Within cs s0 (fioResume s) := by
  unfold fioResume
  refine Within.foldl hs (fun t a ht => ?_)
  refine Within.ite ?_ ht
  extract_lets +onlyGivenNames -merge -underBinder x
  extract_lets +onlyGivenNames -merge -underBinder t1
  have ht1 : Within cs s0 t1 := Within.ite (State.setF_within (sub hc) (State.log_within (sub hc) ht)) ht
  clear_value t1
  exact fcReport_within (sub hc) (Within.ite (fcConfigure_within (sub hc) ht1) ht1)

theorem fioCommitOpens_within {cs s0} {s} (hc : [.regs, .offers, .logicQ, .waits, .fc] ⊆ cs) (hs : Within cs s0 s) :
    Within cs s0 (fioCommitOpens s) := by
  unfold fioCommitOpens
  refine Within.foldl hs (fun t a ht => ?_)
  split
  · exact Within.ite (fcShow_within (sub hc) (State.setFc_within (sub hc) ht)) ht
  · exact ht

theorem strokeSwitchFlit_within {cs s0} {s} (hc : [.logicQ, .waits] ⊆ cs) (hs : Within cs s0 s) :
    Within cs s0 (strokeSwitchFlit s) := by
  unfold strokeSwitchFlit
  exact logicFlit_within (sub hc) hs

theorem diChange_within {cs s0} {s n level} (hc : [.regs, .offers, .logicQ, .waits, .fc] ⊆ cs) (hs : Within cs s0 s) :
    Within cs s0 (diChange s n level) := by
  unfold diChange
  extract_lets +onlyGivenNames -merge -underBinder x
  exact Within.ite (fcReport_within (sub hc) (State.setFc_within (sub hc) hs)) hs

theorem fcEnable_within {cs s0} {s n auto} (hc : [.fc] ⊆ cs) (hs : Within cs s0 s) :
    Within cs s0 (fcEnable s n auto) := by
  unfold fcEnable
  refine Within.foldl hs (fun t a ht => ?_)
  extract_lets +onlyGivenNames -merge -underBinder x
  exact State.setFc_within (sub hc) ht

theorem fcRetryDue_within {cs s0} {s n} (hc : [.regs, .offers, .logicQ, .waits, .fc] ⊆ cs) (hs : Within cs s0 s) :
    Within cs s0 (fcRetryDue s n) := by
  unfold fcRetryDue
  exact Within.ite (fcShowAll_within (sub hc) (fcEnable_within (sub hc) hs)) hs

theorem fioTakeMode_within {cs s0} {s} (hc : [.regs, .offers, .sess, .inkwell, .msix, .hst, .logicQ, .waits, .fc, .modePend] ⊆ cs) (hs : Within cs s0 s) :
    Within cs s0 (fioTakeMode s) := by
  unfold fioTakeMode
  split
  · extract_lets +onlyGivenNames -merge -underBinder w s1
    have hs1 : Within cs s0 s1 := Within.foldl (Within.put_hst_haField (sub hc) hs) (fun t a ht => State.setB_within (sub hc) (State.setB_within (sub hc) ht))
    clear_value s1
    exact Within.foldl (modeTaken_within (sub hc) hs1) (fun t a ht => fcRetryDue_within (sub hc) ht)
  · exact hs

theorem fcClear_within {cs s0} {s01 n b} (hc : [.regs, .offers, .sess, .inkwell, .msix, .hst, .logicQ, .waits, .fc, .modePend] ⊆ cs) (hs01 : Within cs s0 s01) :
    Within cs s0 (fcClear s01 n b) := by
  unfold fcClear
  refine Within.ite ?_ hs01
  extract_lets +onlyGivenNames -merge -underBinder s
  have hs : Within cs s0 s := fioTakeMode_within (sub hc) hs01
  clear_value s
  exact fcReport_within (sub hc) (State.setFc_within (sub hc) hs)

theorem diagnosticClear_within {cs s0} {s n b} (hc : [.regs, .offers, .sess, .inkwell, .msix, .hst, .logicQ, .waits, .fc, .modePend] ⊆ cs) (hs : Within cs s0 s) :
    Within cs s0 (diagnosticClear s n b) := by
  unfold diagnosticClear
  exact Within.ite (fcClear_within (sub hc) hs) hs

theorem fcCommit_within {cs s0} {s n} (hc : [.regs, .offers, .sess, .inkwell, .msix, .live, .committing, .commit] ⊆ cs) (hs : Within cs s0 s) :
    Within cs s0 (fcCommit s n) := by
  unfold fcCommit
  exact takeCommit_within (sub hc) (takeCommit_within (sub hc) hs)

theorem fcDetect_within {cs s0} {s01 n b} (hc : [.regs, .offers, .sess, .inkwell, .msix, .hst, .logicQ, .waits, .fc, .modePend] ⊆ cs) (hs01 : Within cs s0 s01) :
    Within cs s0 (fcDetect s01 n b) := by
  unfold fcDetect
  extract_lets +onlyGivenNames -merge -underBinder s
  have hs : Within cs s0 s := fioTakeMode_within (sub hc) hs01
  clear_value s
  exact fcReport_within (sub hc) (State.setFc_within (sub hc) hs)

theorem fcTripOne_within {cs s0} {s n} (hc : [.fc] ⊆ cs) (hs : Within cs s0 s) :
    Within cs s0 (fcTripOne s n) := by
  unfold fcTripOne
  extract_lets +onlyGivenNames -merge -underBinder x
  refine Within.ite hs ?_
  extract_lets +onlyGivenNames -merge -underBinder k
  extract_lets +onlyGivenNames -merge -underBinder eighth
  exact State.setFc_within (sub hc) hs

theorem fcTrip_within {cs s0} {s n b} (hc : [.regs, .offers, .logicQ, .waits, .fc] ⊆ cs) (hs : Within cs s0 s) :
    Within cs s0 (fcTrip s n b) := by
  unfold fcTrip
  extract_lets +onlyGivenNames -merge -underBinder s1
  have hs1 : Within cs s0 s1 := State.setFc_within (sub hc) hs
  clear_value s1
  exact fcShowAll_within (sub hc) (Within.foldl hs1 (fun t a ht => fcTripOne_within (sub hc) ht))

theorem fcUnlatch_within {cs s0} {s n v} (hc : [.fc] ⊆ cs) (hs : Within cs s0 s) :
    Within cs s0 (fcUnlatch s n v) := by
  unfold fcUnlatch
  extract_lets +onlyGivenNames -merge -underBinder x
  exact Within.ite (Within.ite (State.setFc_within (sub hc) hs) (Within.ite (fcEnable_within (sub hc) hs) hs)) hs

theorem grpMeasure_within {cs s0} {s g mv} (hc : [.regs, .grp] ⊆ cs) (hs : Within cs s0 s) :
    Within cs s0 (grpMeasure s g mv) := by
  unfold grpMeasure
  exact State.setF_within (sub hc) (State.setGrp_within (sub hc) hs)

theorem grpSees_within {cs s0} {s g mv} (hc : [.regs, .grp] ⊆ cs) (hs : Within cs s0 s) :
    Within cs s0 (grpSees s g mv) := by
  unfold grpSees
  exact Within.ite (grpMeasure_within (sub hc) hs) hs

theorem fioGrpLockout_within {cs s0} {s g mv} (hc : [.regs, .offers, .logicQ, .waits, .fc, .grp] ⊆ cs) (hs : Within cs s0 s) :
    Within cs s0 (fioGrpLockout s g mv) := by
  unfold fioGrpLockout
  extract_lets +onlyGivenNames -merge -underBinder st
  exact Within.ite (State.log_within (sub hc) (grpEnter_within (sub hc) (grpMeasure_within (sub hc) hs))) (grpSees_within (sub hc) hs)

theorem fioGrpNormal_within {cs s0} {s g mv} (hc : [.regs, .offers, .logicQ, .waits, .fc, .grp] ⊆ cs) (hs : Within cs s0 s) :
    Within cs s0 (fioGrpNormal s g mv) := by
  unfold fioGrpNormal
  exact Within.ite (State.log_within (sub hc) (grpEnter_within (sub hc) (grpMeasure_within (sub hc) hs))) (grpSees_within (sub hc) hs)

theorem fioGrpNosupply_within {cs s0} {s g mv} (hc : [.regs, .offers, .logicQ, .waits, .fc, .grp] ⊆ cs) (hs : Within cs s0 s) :
    Within cs s0 (fioGrpNosupply s g mv) := by
  unfold fioGrpNosupply
  refine Within.ite ?_ (grpSees_within (sub hc) hs)
  extract_lets +onlyGivenNames -merge -underBinder s1
  have hs1 : Within cs s0 s1 := grpMeasure_within (sub hc) hs
  clear_value s1
  extract_lets +onlyGivenNames -merge -underBinder s2
  have hs2 : Within cs s0 s2 := Within.foldl hs1 (fun t a ht => State.setFc_within (sub hc) ht)
  clear_value s2
  extract_lets +onlyGivenNames -merge -underBinder w s3
  have hs3 : Within cs s0 s3 := State.setB_within (sub hc) (State.setGrp_within (sub hc) hs2)
  clear_value s3
  exact State.log_within (sub hc) (grpEnter_within (sub hc) hs3)

theorem fioGrpRecover_within {cs s0} {s g mv} (hc : [.regs, .offers, .logicQ, .waits, .fc, .grp] ⊆ cs) (hs : Within cs s0 s) :
    Within cs s0 (fioGrpRecover s g mv) := by
  unfold fioGrpRecover
  refine Within.ite ?_ (grpSees_within (sub hc) hs)
  extract_lets +onlyGivenNames -merge -underBinder s1
  have hs1 : Within cs s0 s1 := grpMeasure_within (sub hc) hs
  clear_value s1
  exact Within.ite (State.log_within (sub hc) (grpEnter_within (sub hc) hs1)) (State.log_within (sub hc) (grpEnter_within (sub hc) hs1))

theorem fioGrpWarn_within {cs s0} {s g mv} (hc : [.regs, .offers, .logicQ, .waits, .fc, .grp] ⊆ cs) (hs : Within cs s0 s) :
    Within cs s0 (fioGrpWarn s g mv) := by
  unfold fioGrpWarn
  exact Within.ite (State.log_within (sub hc) (grpEnter_within (sub hc) (grpMeasure_within (sub hc) hs))) (grpSees_within (sub hc) hs)

theorem fioImbalance_within {cs s0} {s01 n} (hc : [.regs, .offers, .sess, .inkwell, .msix, .hst, .logicQ, .waits, .fc, .modePend] ⊆ cs) (hs01 : Within cs s0 s01) :
    Within cs s0 (fioImbalance s01 n) := by
  unfold fioImbalance
  refine Within.ite ?_ hs01
  extract_lets +onlyGivenNames -merge -underBinder s
  have hs : Within cs s0 s := fioTakeMode_within (sub hc) hs01
  clear_value s
  extract_lets +onlyGivenNames -merge -underBinder s1
  have hs1 : Within cs s0 s1 := State.setFc_within (sub hc) hs
  clear_value s1
  extract_lets +onlyGivenNames -merge -underBinder s2
  have hs2 : Within cs s0 s2 := Within.ite hs1 (Within.foldl hs1 (fun t a ht => State.setFc_within (sub hc) ht))
  clear_value s2
  exact fcShowAll_within (sub hc) hs2

theorem fioInhibit_within {cs s0} {s n on} (hc : [.regs, .offers, .logicQ, .waits, .fc] ⊆ cs) (hs : Within cs s0 s) :
    Within cs s0 (fioInhibit s n on) := by
  unfold fioInhibit
  exact Within.ite (fcShow_within (sub hc) (State.setB_within (sub hc) (State.setB_within (sub hc) hs))) hs

theorem fioLinkLost_within {cs s0} {s n} (hc : [.regs, .offers, .logicQ, .waits] ⊆ cs) (hs : Within cs s0 s) :
    Within cs s0 (fioLinkLost s n) := by
  unfold fioLinkLost
  refine Within.ite ?_ hs
  extract_lets +onlyGivenNames -merge -underBinder s1
  have hs1 : Within cs s0 s1 := State.setFs_within (sub hc) hs
  clear_value s1
  exact fcInput_within (sub hc) (State.log_within (sub hc) (State.incS_within (sub hc) hs1))

theorem fioOpenWire_within {cs s0} {s n} (hc : [.regs, .offers, .sess, .inkwell, .msix, .hst, .logicQ, .waits, .fc, .modePend] ⊆ cs) (hs : Within cs s0 s) :
    Within cs s0 (fioOpenWire s n) := by
  unfold fioOpenWire
  exact Within.ite hs (Within.ite (fcDetect_within (sub hc) hs) (Within.ite (fcDetect_within (sub hc) hs) hs))

theorem fioOverload_within {cs s0} {s01 n} (hc : [.regs, .offers, .sess, .inkwell, .msix, .hst, .logicQ, .waits, .fc, .modePend] ⊆ cs) (hs01 : Within cs s0 s01) :
    Within cs s0 (fioOverload s01 n) := by
  unfold fioOverload
  exact Within.ite (fcTrip_within (sub hc) (fioTakeMode_within (sub hc) hs01)) hs01

theorem fioOvertemp_within {cs s0} {s01 n} (hc : [.regs, .offers, .sess, .inkwell, .msix, .hst, .logicQ, .waits, .fc, .modePend] ⊆ cs) (hs01 : Within cs s0 s01) :
    Within cs s0 (fioOvertemp s01 n) := by
  unfold fioOvertemp
  exact Within.ite (fcTrip_within (sub hc) (fioTakeMode_within (sub hc) hs01)) hs01

theorem fioRetry_within {cs s0} {s n} (hc : [.regs, .offers, .logicQ, .waits, .fc] ⊆ cs) (hs : Within cs s0 s) :
    Within cs s0 (fioRetry s n) := by
  unfold fioRetry
  extract_lets +onlyGivenNames -merge -underBinder x
  exact Within.ite (fcShowAll_within (sub hc) (fcEnable_within (sub hc) hs)) hs

theorem fioShort_within {cs s0} {s n} (hc : [.regs, .offers, .sess, .inkwell, .msix, .hst, .logicQ, .waits, .fc, .modePend] ⊆ cs) (hs : Within cs s0 s) :
    Within cs s0 (fioShort s n) := by
  unfold fioShort
  exact Within.ite (fcDetect_within (sub hc) hs) hs

theorem fioWireBreak_within {cs s0} {s n} (hc : [.regs, .offers, .sess, .inkwell, .msix, .hst, .logicQ, .waits, .fc, .modePend] ⊆ cs) (hs : Within cs s0 s) :
    Within cs s0 (fioWireBreak s n) := by
  unfold fioWireBreak
  exact Within.ite (fcDetect_within (sub hc) hs) hs

theorem groupSupplyReturn_within {cs s0} {s g mv} (hc : [.regs, .offers, .logicQ, .waits, .fc, .grp] ⊆ cs) (hs : Within cs s0 s) :
    Within cs s0 (groupSupplyReturn s g mv) := by
  unfold groupSupplyReturn
  refine Within.ite ?_ (grpSees_within (sub hc) hs)
  extract_lets +onlyGivenNames -merge -underBinder s1
  have hs1 : Within cs s0 s1 := grpMeasure_within (sub hc) hs
  clear_value s1
  exact grpEnter_within (sub hc) (State.setB_within (sub hc) (State.setGrp_within (sub hc) hs1))

theorem keepAlive_within {cs s0} {s01 n} (hc : [.regs, .offers, .sess, .inkwell, .msix, .live, .logicQ, .waits, .fc, .grp, .committing, .commit] ⊆ cs) (hs01 : Within cs s0 s01) :
    Within cs s0 (keepAlive s01 n) := by
  unfold keepAlive
  refine Within.ite (fcCommit_within (sub hc) hs01) ?_
  refine Within.ite ?_ hs01
  extract_lets +onlyGivenNames -merge -underBinder s
  have hs : Within cs s0 s := fcCommit_within (sub hc) hs01
  clear_value s
  extract_lets +onlyGivenNames -merge -underBinder x
  extract_lets +onlyGivenNames -merge -underBinder s1
  have hs1 : Within cs s0 s1 := Within.ite (fcConfigure_within (sub hc) hs) hs
  clear_value s1
  extract_lets +onlyGivenNames -merge -underBinder v
  extract_lets +onlyGivenNames -merge -underBinder s2
  have hs2 : Within cs s0 s2 := State.setB_within (sub hc) hs1
  clear_value s2
  extract_lets +onlyGivenNames -merge -underBinder w s3
  have hs3 : Within cs s0 s3 := State.setFc_within (sub hc) hs2
  clear_value s3
  exact fcShowAll_within (sub hc) (fcUnlatch_within (sub hc) hs3)

theorem overloadRetry_within {cs s0} {s n} (hc : [.regs, .offers, .logicQ, .waits, .fc] ⊆ cs) (hs : Within cs s0 s) :
    Within cs s0 (overloadRetry s n) := by
  unfold overloadRetry
  exact Within.ite (fcRetryDue_within (sub hc) hs) hs

theorem overtempClear_within {cs s0} {s01 n} (hc : [.regs, .offers, .sess, .inkwell, .msix, .hst, .logicQ, .waits, .fc, .modePend] ⊆ cs) (hs01 : Within cs s0 s01) :
    Within cs s0 (overtempClear s01 n) := by
  unfold overtempClear
  refine Within.ite ?_ hs01
  extract_lets +onlyGivenNames -merge -underBinder s
  have hs : Within cs s0 s := fioTakeMode_within (sub hc) hs01
  clear_value s
  extract_lets +onlyGivenNames -merge -underBinder w s1
  have hs1 : Within cs s0 s1 := State.setFc_within (sub hc) hs
  clear_value s1
  exact fcShowAll_within (sub hc) (fcRetryDue_within (sub hc) hs1)

theorem statusFrame_within {cs s0} {s n iload} (hc : [.regs, .offers, .logicQ, .waits, .fc, .grp] ⊆ cs) (hs : Within cs s0 s) :
    Within cs s0 (statusFrame s n iload) := by
  unfold statusFrame
  refine Within.ite ?_ hs
  extract_lets +onlyGivenNames -merge -underBinder x
  extract_lets +onlyGivenNames -merge -underBinder mute
  extract_lets +onlyGivenNames -merge -underBinder s1
  have hs1 : Within cs s0 s1 := State.setFs_within (sub hc) (State.setFc_within (sub hc) hs)
  clear_value s1
  extract_lets +onlyGivenNames -merge -underBinder s2
  have hs2 : Within cs s0 s2 := Within.ite (fcConfigure_within (sub hc) hs1) hs1
  clear_value s2
  exact fcReport_within (sub hc) hs2

theorem watchdogExpiry_within {cs s0} {s n} (hc : [.regs, .offers, .logicQ, .waits, .fc] ⊆ cs) (hs : Within cs s0 s) :
    Within cs s0 (watchdogExpiry s n) := by
  unfold watchdogExpiry
  extract_lets +onlyGivenNames -merge -underBinder x
  exact Within.ite (fcShow_within (sub hc) (State.setFc_within (sub hc) hs)) hs

end Sys2Proof.Machine
end

