-- ==== Sys2Proof/Laws/SealBase.lean ====
section
/-! SUPPORT. What each operation of Machine/SealBase.lean can change: one lemma per operation, cited in place of unfolding it. -/

namespace Sys2Proof.Machine

set_option Elab.async false

theorem State.setSea_within {cs s0} {s x} (hc : [.jobs, .burn, .sea] ⊆ cs) (hs : Within cs s0 s) :
    Within cs s0 (State.setSea s x) := by
  unfold State.setSea
  exact Within.upd (s := s) (t := { s with sea := _ }) hs (fun c => by cases c <;> first | exact .inl (hc (by decide)) | exact .inr rfl) (fun h => ⟨h.1, h.2.1, h.2.2⟩)

theorem sealNote_within {cs s0} {s} (hc : [.regs] ⊆ cs) (hs : Within cs s0 s) :
    Within cs s0 (sealNote s) := by
  unfold sealNote
  exact State.setFs_within (sub hc) hs

theorem sealPush_within {cs s0} {s j} (hc : [.regs, .jobs] ⊆ cs) (hs : Within cs s0 s) :
    Within cs s0 (sealPush s j) := by
  unfold sealPush
  exact sealNote_within (sub hc) (Within.put_sea_jobs (sub hc) hs)

theorem sealBusy_within {cs s0} {s} (hc : [.regs] ⊆ cs) (hs : Within cs s0 s) :
    Within cs s0 (sealBusy s).s := by
  unfold sealBusy
  exact refuse_within (sub hc) (State.incS_within (sub hc) hs)

theorem hashDone_within {cs s0} {s kind} (hc : [.sea] ⊆ cs) (hs : Within cs s0 s) :
    Within cs s0 (hashDone s kind) := by
  unfold hashDone
  exact Within.put_sea_hashJobs (sub hc) hs

theorem sealCancel_within {cs s0} {s n head} (hc : [.regs, .jobs] ⊆ cs) (hs : Within cs s0 s) :
    Within cs s0 (sealCancel s n head) := by
  unfold sealCancel
  exact sealNote_within (sub hc) (Within.put_sea_jobs (sub hc) hs)

theorem hashPush_within {cs s0} {s kind} (hc : [.sea] ⊆ cs) (hs : Within cs s0 s) :
    Within cs s0 (hashPush s kind) := by
  unfold hashPush
  exact Within.put_sea_hashJobs (sub hc) hs

end Sys2Proof.Machine
end

