-- ==== Sys2Proof/Laws/QuillBase.lean ====
section
/-! SUPPORT. What each operation of Machine/QuillBase.lean can change: one lemma per operation, cited in place of unfolding it. -/

namespace Sys2Proof.Machine

set_option Elab.async false

theorem State.setQil_within {cs s0} {s x} (hc : [.run, .load, .sw, .force, .qil] ⊆ cs) (hs : Within cs s0 s) :
    Within cs s0 (State.setQil s x) := by
  unfold State.setQil
  exact Within.upd (s := s) (t := { s with qil := _ }) hs (fun c => by cases c <;> first | exact .inl (hc (by decide)) | exact .inr rfl) (fun h => ⟨h.1, h.2.1, h.2.2⟩)

theorem State.setQrun_within {cs s0} {s t r} (hc : [.run] ⊆ cs) (hs : Within cs s0 s) :
    Within cs s0 (State.setQrun s t r) := by
  unfold State.setQrun
  exact Within.put_qil_run (sub hc) hs

theorem State.setTaskSt_within {cs s0} {s t n} (hc : [.regs] ⊆ cs) (hs : Within cs s0 s) :
    Within cs s0 (State.setTaskSt s t n) := by
  unfold State.setTaskSt
  exact State.setF_within (sub hc) hs

theorem State.stData_within {cs s0} {s a v} (hc : [.qil] ⊆ cs) (hs : Within cs s0 s) :
    Within cs s0 (State.stData s a v) := by
  unfold State.stData
  exact Within.put_qil_data (sub hc) hs

theorem qbSend_within {cs s0} {s} (hc : [.logicQ, .waits] ⊆ cs) (hs : Within cs s0 s) :
    Within cs s0 (qbSend s) := by
  unfold qbSend
  exact Within.ite hs (logicFlit_within (sub hc) hs)

theorem pvNoteAt_within {cs s0} {s g now} (hc : [.gp] ⊆ cs) (hs : Within cs s0 s) :
    Within cs s0 (pvNoteAt s g now) := by
  unfold pvNoteAt
  exact Within.put_duc_gp (sub hc) hs

theorem pvNoteOne_within {cs s0} {s g} (hc : [.gp] ⊆ cs) (hs : Within cs s0 s) :
    Within cs s0 (pvNoteOne s g) := by
  unfold pvNoteOne
  exact pvNoteAt_within (sub hc) hs

theorem pvNote_within {cs s0} {s} (hc : [.gp] ⊆ cs) (hs : Within cs s0 s) :
    Within cs s0 (pvNote s) := by
  unfold pvNote
  exact Within.foldl hs (fun t a ht => Within.ite (pvNoteOne_within (sub hc) ht) ht)

theorem afterWrite_within {cs s0} {old s} (hc : [.regs, .offers, .logicQ, .waits, .gp, .fc, .grp] ⊆ cs) (hold : Within cs s0 old) (hs : Within cs s0 s) :
    Within cs s0 (afterWrite old s) := by
  unfold afterWrite
  exact pvNote_within (sub hc) (fioQuillAck_within (sub hc) (qbSend_within (sub hc) hs))

theorem forgetRestore_within {cs s0} {s x} (hc : [.qil] ⊆ cs) (hs : Within cs s0 s) :
    Within cs s0 (forgetRestore s x) := by
  unfold forgetRestore
  exact Within.put_qil_restore (sub hc) hs

theorem sigPut_within {cs s0} {s x v} (hc : [.qil] ⊆ cs) (hs : Within cs s0 s) :
    Within cs s0 (sigPut s x v) := by
  unfold sigPut
  extract_lets +onlyGivenNames -merge -underBinder q
  exact Within.ite (Within.upd (s := s) (t := { s with qil := _ }) hs (fun c => by cases c <;> first | exact .inl (hc (by decide)) | exact .inr rfl) (fun h => ⟨h.1, h.2.1, h.2.2⟩)) (Within.ite (Within.upd (s := s) (t := { s with qil := _ }) hs (fun c => by cases c <;> first | exact .inl (hc (by decide)) | exact .inr rfl) (fun h => ⟨h.1, h.2.1, h.2.2⟩)) (Within.ite (Within.upd (s := s) (t := { s with qil := _ }) hs (fun c => by cases c <;> first | exact .inl (hc (by decide)) | exact .inr rfl) (fun h => ⟨h.1, h.2.1, h.2.2⟩)) (Within.ite (Within.upd (s := s) (t := { s with qil := _ }) hs (fun c => by cases c <;> first | exact .inl (hc (by decide)) | exact .inr rfl) (fun h => ⟨h.1, h.2.1, h.2.2⟩)) hs)))

theorem sigWrite_within {cs s0} {s x v} (hc : [.force, .qil] ⊆ cs) (hs : Within cs s0 s) :
    Within cs s0 (sigWrite s x v) := by
  unfold sigWrite
  split
  · exact sigPut_within (sub hc) (Within.put_qil_force (sub hc) hs)
  · exact sigPut_within (sub hc) (forgetRestore_within (sub hc) hs)

theorem allOuts_within {cs s0} {s v} (hc : [.regs, .offers, .logicQ, .waits, .gp, .force, .qil, .fc, .grp] ⊆ cs) (hs : Within cs s0 s) :
    Within cs s0 (allOuts s v) := by
  unfold allOuts
  exact afterWrite_within (sub hc) hs (Within.foldl hs (fun t a ht => Within.foldl ht (fun t_1 a_2 ht_1 => sigWrite_within (sub hc) ht_1)))

theorem forceSync_within {cs s0} {s} (hc : [.qil] ⊆ cs) (hs : Within cs s0 s) :
    Within cs s0 (forceSync s) := by
  unfold forceSync
  extract_lets +onlyGivenNames -merge -underBinder s1
  have hs1 : Within cs s0 s1 := Within.foldl hs (fun t a ht => sigPut_within (sub hc) ht)
  clear_value s1
  extract_lets +onlyGivenNames -merge -underBinder w s2
  have hs2 : Within cs s0 s2 := Within.put_qil_boundAt_restore (sub hc) hs1
  clear_value s2
  refine Within.foldl hs2 (fun t a ht => ?_)
  split
  · exact sigPut_within (sub hc) ht
  · exact ht

theorem writeBack_within {cs s0} {s outs vals} (hc : [.force, .qil] ⊆ cs) (hs : Within cs s0 s) :
    Within cs s0 (writeBack s outs vals) := by
  unfold writeBack
  exact Within.foldl (forceSync_within (sub hc) hs) (fun t a ht => sigWrite_within (sub hc) ht)

theorem writeSafe_within {cs s0} {s t} (hc : [.force, .qil] ⊆ cs) (hs : Within cs s0 s) :
    Within cs s0 (writeSafe s t) := by
  unfold writeSafe
  exact writeBack_within (sub hc) hs

theorem safeEnd_within {cs s0} {s t} (hc : [.regs, .offers, .gs, .logicQ, .waits, .gp, .force, .qil, .fc, .grp] ⊆ cs) (hs : Within cs s0 s) :
    Within cs s0 (safeEnd s t) := by
  unfold safeEnd
  exact gsApplyPending_within (sub hc) (afterWrite_within (sub hc) hs (writeSafe_within (sub hc) hs))

theorem runEnds_within {cs s0} {s t} (hc : [.regs, .run] ⊆ cs) (hs : Within cs s0 s) :
    Within cs s0 (runEnds s t) := by
  unfold runEnds
  extract_lets +onlyGivenNames -merge -underBinder r
  exact State.setQrun_within (sub hc) (State.maxF_within (sub hc) hs)

theorem stWords_within {cs s0} {s a x} (hc : [.qil] ⊆ cs) (hs : Within cs s0 s) :
    Within cs s0 (stWords s a x) := by
  induction x generalizing s a with
  | nil =>
    rw [stWords]
    exact hs
  | cons a l ih =>
    rw [stWords]
    exact ih (State.stData_within (sub hc) hs)

theorem initRet_within {cs s0} {s v} (hc : [.qil] ⊆ cs) (hs : Within cs s0 s) :
    Within cs s0 (initRet s v) := by
  unfold initRet
  exact stWords_within (sub hc) hs

theorem placeRet_within {cs s0} {dir old s v} (hc : [.qil] ⊆ cs) (hs : Within cs s0 s) :
    Within cs s0 (placeRet dir old s v) := by
  unfold placeRet
  split
  · exact stWords_within (sub hc) hs
  · exact initRet_within (sub hc) hs

theorem initWindow_within {cs s0} {s p t} (hc : [.qil] ⊆ cs) (hs : Within cs s0 s) :
    Within cs s0 (initWindow s p t) := by
  unfold initWindow
  extract_lets +onlyGivenNames -merge -underBinder k
  extract_lets +onlyGivenNames -merge -underBinder kept
  extract_lets +onlyGivenNames -merge -underBinder d
  exact Within.put_qil_data (sub hc) hs

theorem noteForces_within {cs s0} {s} (hc : [.regs] ⊆ cs) (hs : Within cs s0 s) :
    Within cs s0 (noteForces s) := by
  unfold noteForces
  exact State.setF_within (sub hc) hs

theorem noteTask_within {cs s0} {s t b} (hc : [.regs] ⊆ cs) (hs : Within cs s0 s) :
    Within cs s0 (noteTask s t b) := by
  unfold noteTask
  extract_lets +onlyGivenNames -merge -underBinder k
  exact State.setFs_within (sub hc) hs

theorem switchSlot_within {cs s0} {s t} (hc : [.regs, .run] ⊆ cs) (hs : Within cs s0 s) :
    Within cs s0 (switchSlot s t) := by
  unfold switchSlot
  extract_lets +onlyGivenNames -merge -underBinder b
  extract_lets +onlyGivenNames -merge -underBinder s1
  have hs1 : Within cs s0 s1 := State.setB_within (sub hc) (noteTask_within (sub hc) hs)
  clear_value s1
  extract_lets +onlyGivenNames -merge -underBinder was
  extract_lets +onlyGivenNames -merge -underBinder new
  extract_lets +onlyGivenNames -merge -underBinder r
  exact State.setQrun_within (sub hc) (State.setTaskSt_within (sub hc) hs1)

theorem switchTasks_within {cs s0} {s ts} (hc : [.regs, .offers, .run, .force, .qil] ⊆ cs) (hs : Within cs s0 s) :
    Within cs s0 (switchTasks s ts) := by
  unfold switchTasks
  extract_lets +onlyGivenNames -merge -underBinder p
  extract_lets +onlyGivenNames -merge -underBinder n
  extract_lets +onlyGivenNames -merge -underBinder q
  extract_lets +onlyGivenNames -merge -underBinder sl
  clear_value sl
  extract_lets +onlyGivenNames -merge -underBinder oldRet
  extract_lets +onlyGivenNames -merge -underBinder newRet
  extract_lets +onlyGivenNames -merge -underBinder lost
  extract_lets +onlyGivenNames -merge -underBinder gone
  extract_lets +onlyGivenNames -merge -underBinder tm
  extract_lets +onlyGivenNames -merge -underBinder ct
  extract_lets +onlyGivenNames -merge -underBinder ed
  extract_lets +onlyGivenNames -merge -underBinder s1
  have hs1 : Within cs s0 s1 := Within.foldl (Within.upd (s := s) (t := { s with qil := _ }) hs (fun c => by cases c <;> first | exact .inl (hc (by decide)) | exact .inr rfl) (fun h => ⟨h.1, h.2.1, h.2.2⟩)) (fun t a ht => State.log_within (sub hc) ht)
  clear_value s1
  extract_lets +onlyGivenNames -merge -underBinder s2
  have hs2 : Within cs s0 s2 := Within.foldl hs1 (fun t a ht => placeRet_within (sub hc) ht)
  clear_value s2
  extract_lets +onlyGivenNames -merge -underBinder s3
  have hs3 : Within cs s0 s3 := Within.foldl hs2 (fun t a ht => initWindow_within (sub hc) ht)
  clear_value s3
  extract_lets +onlyGivenNames -merge -underBinder outs
  extract_lets +onlyGivenNames -merge -underBinder s4
  have hs4 : Within cs s0 s4 := Within.foldl hs3 (fun t a ht => sigPut_within (sub hc) (forgetRestore_within (sub hc) ht))
  clear_value s4
  extract_lets +onlyGivenNames -merge -underBinder s5
  have hs5 : Within cs s0 s5 := by
    unfold s5
    refine Within.foldl hs4 (fun t a ht => ?_)
    split
    · exact Within.ite (State.log_within (sub hc) (Within.put_qil_force (sub hc) ht)) ht
    · exact ht
  clear_value s5
  exact Within.foldl (noteForces_within (sub hc) hs5) (fun t a ht => switchSlot_within (sub hc) ht)

theorem noteBanks_within {cs s0} {s} (hc : [.regs] ⊆ cs) (hs : Within cs s0 s) :
    Within cs s0 (noteBanks s) := by
  unfold noteBanks
  extract_lets +onlyGivenNames -merge -underBinder b
  extract_lets +onlyGivenNames -merge -underBinder valid
  extract_lets +onlyGivenNames -merge -underBinder other
  exact State.setFs_within (sub hc) hs

theorem switchDone_within {cs s0} {s w} (hc : [.regs, .offers, .sess, .inkwell, .msix, .sw, .qil] ⊆ cs) (hs : Within cs s0 s) :
    Within cs s0 (switchDone s w) := by
  unfold switchDone
  extract_lets +onlyGivenNames -merge -underBinder b
  extract_lets +onlyGivenNames -merge -underBinder s1
  have hs1 : Within cs s0 s1 := State.setFs_within (sub hc) hs
  clear_value s1
  extract_lets +onlyGivenNames -merge -underBinder w_1 s2
  have hs2 : Within cs s0 s2 := noteBanks_within (sub hc) (Within.put_qil_sw_retDir (sub hc) hs1)
  clear_value s2
  exact postHead_within (sub hc) (State.log_within (sub hc) hs2)

theorem switchCheck_within {cs s0} {s} (hc : [.regs, .offers, .sess, .inkwell, .msix, .sw, .qil] ⊆ cs) (hs : Within cs s0 s) :
    Within cs s0 (switchCheck s) := by
  unfold switchCheck
  split
  · exact Within.ite (switchDone_within (sub hc) hs) hs
  · exact hs

theorem switchOne_within {cs s0} {s t} (hc : [.regs, .offers, .sess, .inkwell, .msix, .run, .sw, .force, .qil] ⊆ cs) (hs : Within cs s0 s) :
    Within cs s0 (switchOne s t) := by
  unfold switchOne
  exact Within.ite (switchCheck_within (sub hc) (switchTasks_within (sub hc) hs)) hs

theorem haltedSwitch_within {cs s0} {s t} (hc : [.regs, .offers, .sess, .inkwell, .msix, .logicQ, .waits, .gp, .run, .sw, .force, .qil, .fc, .grp] ⊆ cs) (hs : Within cs s0 s) :
    Within cs s0 (haltedSwitch s t) := by
  unfold haltedSwitch
  exact Within.ite (afterWrite_within (sub hc) hs (switchOne_within (sub hc) hs)) hs

theorem resumeNext_within {cs s0} {s} (hc : [.regs] ⊆ cs) (hs : Within cs s0 s) :
    Within cs s0 (resumeNext s) := by
  unfold resumeNext
  refine Within.ite hs ?_
  split
  · exact Within.ite hs (State.setTaskSt_within (sub hc) hs)
  · exact hs

theorem taskFault_within {cs s0} {s t cause pc} (hc : [.regs, .offers, .sess, .inkwell, .msix, .gs, .logicQ, .waits, .gp, .run, .sw, .force, .qil, .fc, .grp] ⊆ cs) (hs : Within cs s0 s) :
    Within cs s0 (taskFault s t cause pc) := by
  unfold taskFault
  extract_lets +onlyGivenNames -merge -underBinder s1
  have hs1 : Within cs s0 s1 := runEnds_within (sub hc) (safeEnd_within (sub hc) hs)
  clear_value s1
  extract_lets +onlyGivenNames -merge -underBinder s2
  have hs2 : Within cs s0 s2 := State.setFs_within (sub hc) hs1
  clear_value s2
  extract_lets +onlyGivenNames -merge -underBinder s3
  have hs3 : Within cs s0 s3 := State.log_within (sub hc) hs2
  clear_value s3
  exact resumeNext_within (sub hc) (Within.ite (State.setTaskSt_within (sub hc) (initWindow_within (sub hc) hs3)) (haltedSwitch_within (sub hc) (State.setTaskSt_within (sub hc) hs3)))

theorem arrive_within {cs s0} {s t pc} (hc : [.regs, .offers, .sess, .inkwell, .msix, .gs, .logicQ, .waits, .gp, .run, .sw, .force, .qil, .fc, .grp] ⊆ cs) (hs : Within cs s0 s) :
    Within cs s0 (arrive s t pc) := by
  unfold arrive
  split
  · exact Within.ite hs (taskFault_within (sub hc) hs)
  · exact taskFault_within (sub hc) hs

theorem quillLeave_within {cs s0} {s} (hc : [.regs, .offers, .logicQ, .waits, .gp, .run, .force, .qil, .fc, .grp] ⊆ cs) (hs : Within cs s0 s) :
    Within cs s0 (quillLeave s) := by
  unfold quillLeave
  extract_lets +onlyGivenNames -merge -underBinder s1
  have hs1 : Within cs s0 s1 := by
    unfold s1
    refine Within.foldl hs (fun t a ht => ?_)
    extract_lets +onlyGivenNames -merge -underBinder w u
    have hu : Within cs s0 u := State.setQrun_within (sub hc) ht
    clear_value u
    exact Within.ite (State.setTaskSt_within (sub hc) hu) hu
  clear_value s1
  exact allOuts_within (sub hc) hs1

theorem taskHalt_within {cs s0} {s t} (hc : [.regs, .offers, .sess, .inkwell, .msix, .gs, .logicQ, .waits, .gp, .run, .sw, .force, .qil, .fc, .grp] ⊆ cs) (hs : Within cs s0 s) :
    Within cs s0 (taskHalt s t) := by
  unfold taskHalt
  extract_lets +onlyGivenNames -merge -underBinder s1
  have hs1 : Within cs s0 s1 := safeEnd_within (sub hc) hs
  clear_value s1
  extract_lets +onlyGivenNames -merge -underBinder s2
  have hs2 : Within cs s0 s2 := Within.ite (runEnds_within (sub hc) hs1) hs1
  clear_value s2
  extract_lets +onlyGivenNames -merge -underBinder w s3
  have hs3 : Within cs s0 s3 := State.setQrun_within (sub hc) hs2
  clear_value s3
  exact resumeNext_within (sub hc) (haltedSwitch_within (sub hc) (oosHealth_within (sub hc) (State.log_within (sub hc) (State.setTaskSt_within (sub hc) hs3))))

theorem clearForce_within {cs s0} {s k} (hc : [.regs, .offers, .force, .qil] ⊆ cs) (hs : Within cs s0 s) :
    Within cs s0 (clearForce s k) := by
  unfold clearForce
  split
  · exact State.log_within (sub hc) (noteForces_within (sub hc) (Within.put_qil_force_restore (sub hc) hs))
  · exact hs

theorem quillEnter_within {cs s0} {s ha} (hc : [.regs, .offers, .logicQ, .waits, .gp, .run, .force, .qil, .fc, .grp] ⊆ cs) (hs : Within cs s0 s) :
    Within cs s0 (quillEnter s ha) := by
  unfold quillEnter
  extract_lets +onlyGivenNames -merge -underBinder s1
  have hs1 : Within cs s0 s1 := allOuts_within (sub hc) hs
  clear_value s1
  refine Within.foldl hs1 (fun t a ht => ?_)
  extract_lets +onlyGivenNames -merge -underBinder dis
  extract_lets +onlyGivenNames -merge -underBinder h_1
  extract_lets +onlyGivenNames -merge -underBinder u
  have hu : Within cs s0 u := State.setB_within (sub hc) (State.setTaskSt_within (sub hc) ht)
  clear_value u
  exact State.setQrun_within (sub hc) hu

theorem quillRestart_within {cs s0} {s p} (hc : [.regs, .run, .load, .sw, .force, .qil] ⊆ cs) (hs : Within cs s0 s) :
    Within cs s0 (quillRestart s p) := by
  unfold quillRestart
  extract_lets +onlyGivenNames -merge -underBinder q
  extract_lets +onlyGivenNames -merge -underBinder s1
  have hs1 : Within cs s0 s1 := Within.upd (s := s) (t := { s with qil := _ }) hs (fun c => by cases c <;> first | exact .inl (hc (by decide)) | exact .inr rfl) (fun h => ⟨h.1, h.2.1, h.2.2⟩)
  clear_value s1
  extract_lets +onlyGivenNames -merge -underBinder s2
  have hs2 : Within cs s0 s2 := State.wr_within (sub hc) hs1
  clear_value s2
  extract_lets +onlyGivenNames -merge -underBinder s3
  have hs3 : Within cs s0 s3 := by
    unfold s3
    refine Within.foldl hs2 (fun t a ht => ?_)
    extract_lets +onlyGivenNames -merge -underBinder u
    have hu : Within cs s0 u := Within.foldl ht (fun t_1 a_2 ht_1 => State.wr_within (sub hc) ht_1)
    clear_value u
    exact noteTask_within (sub hc) hu
  clear_value s3
  exact noteBanks_within (sub hc) hs3

theorem initAll_within {cs s0} {s p} (hc : [.qil] ⊆ cs) (hs : Within cs s0 s) :
    Within cs s0 (initAll s p) := by
  unfold initAll
  exact Within.foldl hs (fun t a ht => initWindow_within (sub hc) ht)

theorem quillCold_within {cs s0} {s p} (hc : [.regs, .offers, .logicQ, .waits, .gp, .run, .load, .sw, .force, .qil, .fc, .grp] ⊆ cs) (hs : Within cs s0 s) :
    Within cs s0 (quillCold s p) := by
  unfold quillCold
  extract_lets +onlyGivenNames -merge -underBinder w s1
  have hs1 : Within cs s0 s1 := initAll_within (sub hc) (Within.put_qil_data (sub hc) (quillRestart_within (sub hc) hs))
  clear_value s1
  extract_lets +onlyGivenNames -merge -underBinder s2
  have hs2 : Within cs s0 s2 := Within.foldl hs1 (fun t a ht => initRet_within (sub hc) ht)
  clear_value s2
  extract_lets +onlyGivenNames -merge -underBinder tm
  extract_lets +onlyGivenNames -merge -underBinder ct
  extract_lets +onlyGivenNames -merge -underBinder ed
  exact allOuts_within (sub hc) (Within.put_qil_tm_ct_ed_retDir (sub hc) hs2)

theorem quillWarm_within {cs s0} {s p} (hc : [.regs, .offers, .logicQ, .waits, .gp, .run, .load, .sw, .force, .qil, .fc, .grp] ⊆ cs) (hs : Within cs s0 s) :
    Within cs s0 (quillWarm s p) := by
  unfold quillWarm
  extract_lets +onlyGivenNames -merge -underBinder old
  extract_lets +onlyGivenNames -merge -underBinder dir
  extract_lets +onlyGivenNames -merge -underBinder s1
  have hs1 : Within cs s0 s1 := initAll_within (sub hc) (quillRestart_within (sub hc) hs)
  clear_value s1
  extract_lets +onlyGivenNames -merge -underBinder s2
  have hs2 : Within cs s0 s2 := Within.foldl hs1 (fun t a ht => placeRet_within (sub hc) ht)
  clear_value s2
  extract_lets +onlyGivenNames -merge -underBinder fresh
  extract_lets +onlyGivenNames -merge -underBinder s3
  have hs3 : Within cs s0 s3 := Within.ite hs2 (State.log_within (sub hc) hs2)
  clear_value s3
  extract_lets +onlyGivenNames -merge -underBinder tm
  extract_lets +onlyGivenNames -merge -underBinder ct
  extract_lets +onlyGivenNames -merge -underBinder ed
  exact allOuts_within (sub hc) (Within.put_qil_tm_ct_ed (sub hc) hs3)

theorem quillEmpty_within {cs s0} {s} (hc : [.force, .qil] ⊆ cs) (hs : Within cs s0 s) :
    Within cs s0 (quillEmpty s) := by
  unfold quillEmpty
  exact Within.put_qil_qb_fcmd_ug_pv_force_restore (sub hc) hs

theorem forceClearBody_within {cs s0} {n s c} (hc : [.regs, .offers, .force, .qil] ⊆ cs) (hs : Within cs s0 s) :
    Within cs s0 (forceClearBody n s c).s := by
  unfold forceClearBody
  extract_lets +onlyGivenNames -merge -underBinder id
  refine Within.iteS (refuse_within (sub hc) hs) ?_
  refine Within.iteS (refuse_within (sub hc) hs) ?_
  refine Within.iteS (okay_within (sub hc) (Within.foldl hs (fun t a ht => clearForce_within (sub hc) ht))) ?_
  split
  · exact okay_within (sub hc) (clearForce_within (sub hc) hs)
  · exact refuse_within (sub hc) hs

theorem forceSetBody_within {cs s0} {n s c} (hc : [.regs, .offers, .force, .qil] ⊆ cs) (hs : Within cs s0 s) :
    Within cs s0 (forceSetBody n s c).s := by
  unfold forceSetBody
  extract_lets +onlyGivenNames -merge -underBinder id
  extract_lets +onlyGivenNames -merge -underBinder v
  refine Within.iteS (refuse_within (sub hc) hs) ?_
  split
  · exact refuse_within (sub hc) hs
  · refine Within.iteS (refuse_within (sub hc) hs) ?_
    extract_lets +onlyGivenNames -merge -underBinder free
    extract_lets +onlyGivenNames -merge -underBinder put
    have hput : ∀ put0, ∀ put1, Within cs s0 (put put0 put1).s := by
      intro put0 put1
      unfold put
      exact okay_within (sub hc) (State.log_within (sub hc) (noteForces_within (sub hc) (Within.put_qil_force_restore (sub hc) hs)))
    clear_value put
    clear_value free
    split
    · exact hput _ _
    · exact hput _ _
    · exact refuse_within (sub hc) hs

theorem freshTask_within {cs s0} {s t} (hc : [.qil] ⊆ cs) (hs : Within cs s0 s) :
    Within cs s0 (freshTask s t) := by
  unfold freshTask
  extract_lets +onlyGivenNames -merge -underBinder p
  extract_lets +onlyGivenNames -merge -underBinder q
  exact Within.upd (s := s) (t := { s with qil := _ }) hs (fun c => by cases c <;> first | exact .inl (hc (by decide)) | exact .inr rfl) (fun h => ⟨h.1, h.2.1, h.2.2⟩)

theorem startBoundary_within {cs s0} {s t} (hc : [.regs, .offers, .sess, .inkwell, .msix, .gs, .run, .sw, .force, .qil] ⊆ cs) (hs : Within cs s0 s) :
    Within cs s0 (startBoundary s t).1 := by
  unfold startBoundary
  extract_lets +onlyGivenNames -merge -underBinder s1
  have hs1 : Within cs s0 s1 := gsApplyPending_within (sub hc) (forceSync_within (sub hc) hs)
  clear_value s1
  exact switchOne_within (sub hc) hs1

theorem placeImage_within {cs s0} {s t img} (hc : [.regs, .inkwell, .msix] ⊆ cs) (hs : Within cs s0 s) :
    Within cs s0 (placeImage s t img) := by
  unfold placeImage
  exact State.irq_within (sub hc) (State.inkWrite_within (sub hc) hs)

theorem hostEnd_within {cs s0} {s t} (hc : [.regs, .offers, .run, .force, .qil] ⊆ cs) (hs : Within cs s0 s) :
    Within cs s0 (hostEnd s t) := by
  unfold hostEnd
  extract_lets +onlyGivenNames -merge -underBinder base
  extract_lets +onlyGivenNames -merge -underBinder seq
  extract_lets +onlyGivenNames -merge -underBinder r
  extract_lets +onlyGivenNames -merge -underBinder ws
  extract_lets +onlyGivenNames -merge -underBinder new
  refine Within.ite ?_ ?_
  · extract_lets +onlyGivenNames -merge -underBinder s1
    have hs1 : Within cs s0 s1 := Within.ite (State.log_within (sub hc) (State.setB_within (sub hc) hs)) hs
    clear_value s1
    extract_lets +onlyGivenNames -merge -underBinder s2
    have hs2 : Within cs s0 s2 := State.setQrun_within (sub hc) (State.setF_within (sub hc) hs1)
    clear_value s2
    exact writeBack_within (sub hc) hs2
  · extract_lets +onlyGivenNames -merge -underBinder s1
    have hs1 : Within cs s0 s1 := Within.ite (State.incS_within (sub hc) hs) hs
    clear_value s1
    refine Within.ite ?_ (forceSync_within (sub hc) hs1)
    extract_lets +onlyGivenNames -merge -underBinder s2
    have hs2 : Within cs s0 s2 := Within.ite hs1 (State.log_within (sub hc) (State.setB_within (sub hc) hs1))
    clear_value s2
    exact writeSafe_within (sub hc) hs2

theorem hostCycle_within {cs s0} {s t} (hc : [.regs, .offers, .sess, .inkwell, .msix, .gs, .run, .sw, .force, .qil] ⊆ cs) (hs : Within cs s0 s) :
    Within cs s0 (hostCycle s t) := by
  unfold hostCycle
  extract_lets +onlyGivenNames -merge -underBinder b
  have hb : Within cs s0 b.1 := startBoundary_within (sub hc) hs
  clear_value b
  refine Within.ite hb ?_
  extract_lets +onlyGivenNames -merge -underBinder s1
  have hs1 : Within cs s0 s1 := hostEnd_within (sub hc) (placeImage_within (sub hc) hb)
  clear_value s1
  extract_lets +onlyGivenNames -merge -underBinder w s2
  have hs2 : Within cs s0 s2 := State.setQrun_within (sub hc) hs1
  clear_value s2
  exact gsApplyPending_within (sub hc) (runEnds_within (sub hc) (State.incW_within (sub hc) hs2))

theorem slotSel_within {cs s0} {s r v} (hc : [.clk] ⊆ cs) (hs : Within cs s0 s) :
    Within cs s0 (slotSel s r v) := by
  unfold slotSel
  extract_lets +onlyGivenNames -merge -underBinder ws
  extract_lets +onlyGivenNames -merge -underBinder s1
  have hs1 : Within cs s0 s1 := State.setShadow_within (sub hc) hs
  clear_value s1
  exact Within.foldl hs1 (fun t a ht => State.setShadow_within (sub hc) ht)

theorem qilLoadBody_within {cs s0} {n e img s c} (hc : [.regs, .offers, .msix, .mem, .load, .jobs, .sea] ⊆ cs) (hs : Within cs s0 s) :
    Within cs s0 (qilLoadBody n e img s c).s := by
  unfold qilLoadBody
  extract_lets +onlyGivenNames -merge -underBinder off
  extract_lets +onlyGivenNames -merge -underBinder len
  refine Within.iteS (refuse_within (sub hc) hs) ?_
  refine Within.iteS (refuse_within (sub hc) hs) ?_
  refine Within.iteS (refuse_within (sub hc) hs) ?_
  refine Within.iteS (sealBusy_within (sub hc) hs) ?_
  refine Within.iteS (refuse_within (sub hc) (memNote_within (sub hc) hs)) ?_
  extract_lets +onlyGivenNames -merge -underBinder s_1
  have hs_1 : Within cs s0 s_1 := memNote_within (sub hc) hs
  clear_value s_1
  exact goesOn_within (sub hc) (sealPush_within (sub hc) (State.setB_within (sub hc) (hashPush_within (sub hc) (Within.put_qil_load (sub hc) hs_1))))

theorem qilLoadDone_within {cs s0} {s} (hc : [.regs, .offers, .sess, .inkwell, .msix, .load, .qil, .sea] ⊆ cs) (hs : Within cs s0 s) :
    Within cs s0 (qilLoadDone s) := by
  unfold qilLoadDone
  split
  · extract_lets +onlyGivenNames -merge -underBinder b
    extract_lets +onlyGivenNames -merge -underBinder w s1
    have hs1 : Within cs s0 s1 := State.setB_within (sub hc) (hashDone_within (sub hc) (Within.put_qil_load (sub hc) hs))
    clear_value s1
    split
    · extract_lets +onlyGivenNames -merge -underBinder w_1 s2
      have hs2 : Within cs s0 s2 := noteBanks_within (sub hc) (State.setB_within (sub hc) (Within.put_qil_bank (sub hc) hs1))
      clear_value s2
      exact postHead_within (sub hc) (State.log_within (sub hc) hs2)
    · extract_lets +onlyGivenNames -merge -underBinder w_2 s2
      have hs2 : Within cs s0 s2 := noteBanks_within (sub hc) (State.setB_within (sub hc) (Within.put_qil_bank (sub hc) hs1))
      clear_value s2
      exact postHead_within (sub hc) (State.log_within (sub hc) hs2)
  · exact hs

theorem qilSwitchBody_within {cs s0} {n s c} (hc : [.regs, .offers, .sess, .inkwell, .msix, .logicQ, .waits, .gp, .run, .sw, .force, .qil, .fc, .grp] ⊆ cs) (hs : Within cs s0 s) :
    Within cs s0 (qilSwitchBody n s c).s := by
  unfold qilSwitchBody
  extract_lets +onlyGivenNames -merge -underBinder mode
  refine Within.iteS (refuse_within (sub hc) hs) ?_
  refine Within.iteS (refuse_within (sub hc) hs) ?_
  refine Within.iteS (refuse_within (sub hc) hs) ?_
  extract_lets +onlyGivenNames -merge -underBinder w s1
  have hs1 : Within cs s0 s1 := State.setB_within (sub hc) (Within.put_qil_sw (sub hc) hs)
  clear_value s1
  refine Within.iteS (goesOn_within (sub hc) hs1) ?_
  extract_lets +onlyGivenNames -merge -underBinder s2
  have hs2 : Within cs s0 s2 := Within.foldl hs1 (fun t a ht => State.setB_within (sub hc) ht)
  clear_value s2
  exact goesOn_within (sub hc) (afterWrite_within (sub hc) hs2 (Within.foldl hs2 (fun t a ht => Within.ite (switchOne_within (sub hc) ht) ht)))

theorem qilSwitchInstant_within {cs s0} {s} (hc : [.regs, .offers, .sess, .inkwell, .msix, .logicQ, .waits, .gp, .run, .sw, .force, .qil, .fc, .grp] ⊆ cs) (hs : Within cs s0 s) :
    Within cs s0 (qilSwitchInstant s) := by
  unfold qilSwitchInstant
  split
  · refine Within.ite hs ?_
    refine Within.ite (postHead_within (sub hc) (State.setB_within (sub hc) (Within.put_qil_sw (sub hc) hs))) ?_
    refine Within.ite hs ?_
    refine Within.ite ?_ hs
    extract_lets +onlyGivenNames -merge -underBinder s1
    have hs1 : Within cs s0 s1 := switchTasks_within (sub hc) hs
    clear_value s1
    exact Within.ite hs (switchDone_within (sub hc) (afterWrite_within (sub hc) hs hs1))
  · exact hs

theorem runStart_within {cs s0} {s t} (hc : [.regs, .offers, .sess, .inkwell, .msix, .gs, .run, .sw, .force, .qil] ⊆ cs) (hs : Within cs s0 s) :
    Within cs s0 (runStart s t) := by
  unfold runStart
  extract_lets +onlyGivenNames -merge -underBinder b
  have hb : Within cs s0 b.1 := startBoundary_within (sub hc) hs
  clear_value b
  refine Within.ite hb ?_
  extract_lets +onlyGivenNames -merge -underBinder s1
  have hs1 : Within cs s0 s1 := stWords_within (sub hc) hb
  clear_value s1
  exact State.setTaskSt_within (sub hc) (State.setQrun_within (sub hc) hs1)

theorem taskMode_within {cs s0} {s t} (hc : [.regs, .offers, .sess, .inkwell, .msix, .run, .qil, .modePend] ⊆ cs) (hs : Within cs s0 s) :
    Within cs s0 (taskMode s t) := by
  unfold taskMode
  split
  · extract_lets +onlyGivenNames -merge -underBinder r
    extract_lets +onlyGivenNames -merge -underBinder was
    extract_lets +onlyGivenNames -merge -underBinder s1
    have hs1 : Within cs s0 s1 := State.setB_within (sub hc) hs
    clear_value s1
    extract_lets +onlyGivenNames -merge -underBinder s2
    have hs2 : Within cs s0 s2 := Within.ite (State.setTaskSt_within (sub hc) (State.setQrun_within (sub hc) hs1)) (Within.ite (State.setB_within (sub hc) (State.setTaskSt_within (sub hc) (State.setQrun_within (sub hc) (freshTask_within (sub hc) hs1)))) hs1)
    clear_value s2
    exact modeTaken_within (sub hc) hs2
  · exact hs

theorem taskRelease_within {cs s0} {s t} (hc : [.regs, .offers, .run] ⊆ cs) (hs : Within cs s0 s) :
    Within cs s0 (taskRelease s t) := by
  unfold taskRelease
  extract_lets +onlyGivenNames -merge -underBinder r
  refine Within.ite hs ?_
  extract_lets +onlyGivenNames -merge -underBinder rel
  extract_lets +onlyGivenNames -merge -underBinder st
  extract_lets +onlyGivenNames -merge -underBinder r1
  refine Within.ite (State.setTaskSt_within (sub hc) (State.setQrun_within (sub hc) hs)) ?_
  refine Within.ite ?_ (Within.ite (State.setQrun_within (sub hc) hs) (State.setQrun_within (sub hc) hs))
  extract_lets +onlyGivenNames -merge -underBinder s1
  have hs1 : Within cs s0 s1 := State.incS_within (sub hc) (State.setQrun_within (sub hc) hs)
  clear_value s1
  exact Within.ite hs1 (State.log_within (sub hc) hs1)

theorem withCredit_within {cs s0} {old s} (hc : [.regs, .offers, .logicQ, .waits, .gp, .fc, .grp] ⊆ cs) (hold : Within cs s0 old) (hs : Within cs s0 s) :
    Within cs s0 (withCredit old s) := by
  unfold withCredit
  exact Within.ite hold (afterWrite_within (sub hc) hold hs)

theorem taskStart_within {cs s0} {s t prog} (hc : [.regs, .offers, .sess, .inkwell, .msix, .gs, .mem, .logicQ, .waits, .gp, .run, .sw, .force, .qil, .fc, .grp, .modePend] ⊆ cs) (hs : Within cs s0 s) :
    Within cs s0 (taskStart s t prog) := by
  unfold taskStart
  extract_lets +onlyGivenNames -merge -underBinder waits
  extract_lets +onlyGivenNames -merge -underBinder busy
  extract_lets +onlyGivenNames -merge -underBinder first
  refine Within.ite hs ?_
  extract_lets +onlyGivenNames -merge -underBinder s0_1
  have hs0_1 : Within cs s0 s0_1 := memNote_within (sub hc) hs
  clear_value s0_1
  refine Within.ite (taskHalt_within (sub hc) hs0_1) ?_
  extract_lets +onlyGivenNames -merge -underBinder s1
  have hs1 : Within cs s0 s1 := taskMode_within (sub hc) hs0_1
  clear_value s1
  refine Within.ite (resumeNext_within (sub hc) (withCredit_within (sub hc) hs (hostCycle_within (sub hc) hs1))) ?_
  extract_lets +onlyGivenNames -merge -underBinder s2
  have hs2 : Within cs s0 s2 := runStart_within (sub hc) hs1
  clear_value s2
  refine Within.ite hs ?_
  refine Within.ite (resumeNext_within (sub hc) (afterWrite_within (sub hc) hs hs2)) ?_
  extract_lets +onlyGivenNames -merge -underBinder s3
  have hs3 : Within cs s0 s3 := Within.foldl (afterWrite_within (sub hc) hs hs2) (fun t_2 a ht_2 => Within.ite (State.setTaskSt_within (sub hc) ht_2) ht_2)
  clear_value s3
  exact arrive_within (sub hc) hs3

end Sys2Proof.Machine
end

