-- ==== Sys2Proof/Laws/Credits.lean ====
section
/-! SUPPORT. What each operation of Machine/Credits.lean can change: one lemma per operation, cited in place of unfolding it. -/

namespace Sys2Proof.Machine

set_option Elab.async false

theorem meshSend_within {cs s0} {s q i} (hc : [.freeCtr, .regs, .offers, .scr, .sess, .inkwell, .msix, .hst, .port, .pair, .sc, .vel, .wd, .afe, .eng, .nc, .live, .stamps, .toStroke, .logicQ, .pub, .waits, .stk, .dl, .committing, .commit] ⊆ cs) (hs : Within cs s0 s) :
    Within cs s0 (meshSend s q i) := by
  unfold meshSend
  split
  · exact localResume_within (sub hc) hs
  · exact hs
  · exact wavefrontResume_within (sub hc) hs
  · exact sampleSetComplete_within (sub hc) hs
  · exact localResume_within (sub hc) hs
  · exact burstDone_within (sub hc) hs
  · exact outputLogicFlit_within (sub hc) hs
  · exact logicMove_within (sub hc) hs
  · exact publicationRequest_within (sub hc) hs
  · exact publicationRequest_within (sub hc) hs
  · exact drainLink_within (sub hc) hs
  · exact scriptOffer_within (sub hc) hs
  · exact issueReads_within (sub hc) hs
  · exact hs
  · exact hs
  · exact hs
  · exact hs

theorem creditReturn_within {cs s0} {s q i} (hc : [.freeCtr, .regs, .offers, .scr, .sess, .inkwell, .msix, .hst, .port, .pair, .sc, .vel, .wd, .afe, .eng, .nc, .live, .stamps, .toStroke, .logicQ, .pub, .waits, .stk, .dl, .committing, .commit] ⊆ cs) (hs : Within cs s0 s) :
    Within cs s0 (creditReturn s q i) := by
  unfold creditReturn
  exact Within.ite (meshSend_within (sub hc) hs) hs

end Sys2Proof.Machine
end

