-- ==== Sys2Proof/Laws/Debug.lean ====
section
/-! SUPPORT. What each operation of Machine/Debug.lean can change: one lemma per operation, cited in place of unfolding it. -/

namespace Sys2Proof.Machine

set_option Elab.async false

theorem State.setDbg_within {cs s0} {s x} (hc : [.dbg] ⊆ cs) (hs : Within cs s0 s) :
    Within cs s0 (State.setDbg s x) := by
  unfold State.setDbg
  exact Within.upd (s := s) (t := { s with dbg := _ }) hs (fun c => by cases c <;> first | exact .inl (hc (by decide)) | exact .inr rfl) (fun h => ⟨h.1, h.2.1, h.2.2⟩)

theorem stylusCheck_within {cs s0} {s} (hc : [.regs, .offers] ⊆ cs) (hs : Within cs s0 s) :
    Within cs s0 (stylusCheck s) := by
  unfold stylusCheck
  extract_lets +onlyGivenNames -merge -underBinder s1
  have hs1 : Within cs s0 s1 := State.setB_within (sub hc) hs
  clear_value s1
  extract_lets +onlyGivenNames -merge -underBinder now
  refine Within.ite hs1 ?_
  extract_lets +onlyGivenNames -merge -underBinder s2
  have hs2 : Within cs s0 s2 := State.setB_within (sub hc) hs1
  clear_value s2
  exact Within.ite (State.log_within (sub hc) hs2) (State.log_within (sub hc) hs2)

theorem healthCheck_within {cs s0} {s} (hc : [.regs, .offers, .dbg] ⊆ cs) (hs : Within cs s0 s) :
    Within cs s0 (healthCheck s) := by
  unfold healthCheck
  extract_lets +onlyGivenNames -merge -underBinder c
  extract_lets +onlyGivenNames -merge -underBinder s1
  have hs1 : Within cs s0 s1 := State.setF_within (sub hc) hs
  clear_value s1
  refine Within.ite ?_ ?_
  · refine Within.ite hs1 ?_
    extract_lets +onlyGivenNames -merge -underBinder s2
    have hs2 : Within cs s0 s2 := State.setB_within (sub hc) hs1
    clear_value s2
    exact Within.ite (State.log_within (sub hc) (Within.put_dbg_stopped (sub hc) hs2)) hs2
  · extract_lets +onlyGivenNames -merge -underBinder w s2
    have hs2 : Within cs s0 s2 := Within.put_dbg_health (sub hc) hs1
    clear_value s2
    refine Within.ite ?_ hs2
    extract_lets +onlyGivenNames -merge -underBinder s3
    have hs3 : Within cs s0 s3 := State.incW_within (sub hc) (State.setB_within (sub hc) hs2)
    clear_value s3
    exact State.log_within (sub hc) (Within.put_dbg_stopped (sub hc) hs3)

theorem grantEnd_within {cs s0} {s cause} (hc : [.regs, .offers] ⊆ cs) (hs : Within cs s0 s) :
    Within cs s0 (grantEnd s cause) := by
  unfold grantEnd
  exact Within.ite (stylusCheck_within (sub hc) (State.log_within (sub hc) (State.wr_within (sub hc) hs))) hs

theorem jtagLeaveReset_within {cs s0} {s} (hc : [.dbg] ⊆ cs) (hs : Within cs s0 s) :
    Within cs s0 (jtagLeaveReset s) := by
  unfold jtagLeaveReset
  split
  · exact Within.ite (Within.put_dbg_ir_dr (sub hc) hs) hs
  · exact hs

theorem jtagLoad_within {cs s0} {s code accepted} (hc : [.dbg] ⊆ cs) (hs : Within cs s0 s) :
    Within cs s0 (jtagLoad s code accepted) := by
  unfold jtagLoad
  exact Within.ite hs (Within.ite (Within.put_dbg_ir (sub hc) hs) (Within.put_dbg_ir_dr (sub hc) hs))

theorem grantWrite_within {cs s0} {n on s} (hc : [.regs, .offers] ⊆ cs) (hs : Within cs s0 s) :
    Within cs s0 (grantWrite n on s) := by
  unfold grantWrite
  exact Within.ite (State.log_within (sub hc) hs) (Within.ite (stylusCheck_within (sub hc) (State.log_within (sub hc) (State.setFs_within (sub hc) hs))) (grantEnd_within (sub hc) hs))

theorem landsTick_within {cs s0} {s} (hc : [.dbg] ⊆ cs) (hs : Within cs s0 s) :
    Within cs s0 (landsTick s) := by
  unfold landsTick
  exact Within.ite (Within.put_dbg_lands (sub hc) hs) (Within.ite hs (Within.put_dbg_lands (sub hc) hs))

theorem jtagIdcode_within {cs s0} {s} (hc : [.dbg] ⊆ cs) (hs : Within cs s0 s) :
    Within cs s0 (jtagIdcode s) := by
  unfold jtagIdcode
  extract_lets +onlyGivenNames -merge -underBinder t
  have ht : Within cs s0 t := jtagLoad_within (sub hc) hs
  clear_value t
  exact Within.ite ht (Within.put_dbg_dr (sub hc) ht)

theorem jtagSample_within {cs s0} {s} (hc : [.freeCtr, .dbg] ⊆ cs) (hs : Within cs s0 s) :
    Within cs s0 (jtagSample s) := by
  unfold jtagSample
  extract_lets +onlyGivenNames -merge -underBinder t
  have ht : Within cs s0 t := jtagLoad_within (sub hc) hs
  clear_value t
  refine Within.ite ht ?_
  extract_lets +onlyGivenNames -merge -underBinder d
  have hd : Within cs s0 d.2 := State.drawBytes_within (sub hc) ht
  clear_value d
  exact Within.put_dbg_cells (sub hc) hd

theorem jtagInstr_within {cs s0} {s code} (hc : [.freeCtr, .dbg] ⊆ cs) (hs : Within cs s0 s) :
    Within cs s0 (jtagInstr s code) := by
  unfold jtagInstr
  exact Within.ite (jtagIdcode_within (sub hc) hs) (Within.ite (jtagSample_within (sub hc) hs) (Within.ite (jtagLoad_within (sub hc) hs) (jtagLoad_within (sub hc) hs)))

theorem jtagReset_within {cs s0} {s} (hc : [.dbg] ⊆ cs) (hs : Within cs s0 s) :
    Within cs s0 (jtagReset s) := by
  unfold jtagReset
  exact Within.put_dbg_ir (sub hc) hs

theorem selfCheck_within {cs s0} {s} (hc : [.regs, .offers, .dbg] ⊆ cs) (hs : Within cs s0 s) :
    Within cs s0 (selfCheck s) := by
  unfold selfCheck
  refine Within.ite ?_ hs
  extract_lets +onlyGivenNames -merge -underBinder w s1
  have hs1 : Within cs s0 s1 := healthCheck_within (sub hc) (Within.put_dbg_checkAt (sub hc) hs)
  clear_value s1
  exact Within.ite (Within.put_dbg_health (sub hc) hs1) hs1

end Sys2Proof.Machine
end

