-- ==== Sys2Proof/Laws/Fields.lean ====
section
/-! SUPPORT. Registers and their fields: what a write of a word or a field does to every word and field. -/

namespace Sys2Proof.Machine

set_option Elab.async false

/-- A field lies within the 32 bits of its register. -/
def Fld.fits (x : Fld) : Prop := x.lo + x.width ≤ 32

/-- Two fields share no bit. -/
def Fld.apart (x y : Fld) : Prop := x.addr ≠ y.addr ∨ x.lo + x.width ≤ y.lo ∨ y.lo + y.width ≤ x.lo

namespace State

@[simp] theorem word_setWord_same (s : State) (a : Nat) (w : Word) : (s.setWord a w).word a = w := by simp [setWord, word]

theorem word_setWord_other (s : State) {a b : Nat} (w : Word) (h : b ≠ a) : (s.setWord a w).word b = s.word b := by
  simp [setWord, word, Tab.get_set_other _ _ h]

@[simp] theorem word_wr_same (s : State) (a v : Nat) : (s.wr a v).word a = BitVec.ofNat 32 v := by simp [wr]

theorem word_wr_other (s : State) {a b : Nat} (v : Nat) (h : b ≠ a) : (s.wr a v).word b = s.word b := word_setWord_other s _ h

theorem word_setF_other (s : State) {x : Fld} {b : Nat} (v : Nat) (h : b ≠ x.addr) : (s.setF x v).word b = s.word b :=
  word_setWord_other s _ h

theorem word_setB_other (s : State) {x : Fld} {b : Nat} (v : Bool) (h : b ≠ x.addr) : (s.setB x v).word b = s.word b :=
  word_setWord_other s _ h

theorem word_incW_other (s : State) {x : Fld} {b : Nat} (n : Nat) (h : b ≠ x.addr) : (s.incW x n).word b = s.word b :=
  word_setWord_other s _ h

theorem word_incS_other (s : State) {x : Fld} {b : Nat} (n : Nat) (h : b ≠ x.addr) : (s.incS x n).word b = s.word b :=
  word_setWord_other s _ h

end State

theorem getLsbD_fieldMask (lo width i : Nat) (h : lo + width ≤ 32) :
    (fieldMask lo width).getLsbD i = (decide (lo ≤ i) && decide (i < lo + width)) := by
  unfold fieldMask
  simp only [BitVec.getLsbD_shiftLeft, BitVec.getLsbD_setWidth, BitVec.getLsbD_allOnes]
  by_cases h1 : lo ≤ i <;> by_cases h2 : i < lo + width <;> simp [h1, h2] <;> omega

theorem getLsbD_insertField (w : Word) (lo width v i : Nat) (h : lo + width ≤ 32) (hi : i < 32) :
    (insertField w lo width v).getLsbD i = if lo ≤ i ∧ i < lo + width then v.testBit (i - lo) else w.getLsbD i := by
  unfold insertField
  simp only [BitVec.getLsbD_or, BitVec.getLsbD_and, BitVec.getLsbD_not, getLsbD_fieldMask _ _ _ h, BitVec.getLsbD_shiftLeft,
    BitVec.getLsbD_setWidth, BitVec.getLsbD_ofNat]
  by_cases h1 : lo ≤ i <;> by_cases h2 : i < lo + width
  · have : i - lo < width := by omega
    have h3 : ¬ i < lo := by omega
    simp [h1, h2, this, h3, hi]
    intro; omega
  · have : ¬ i - lo < width := by omega
    simp [h1, h2, this, hi]
  · have : i < lo := by omega
    simp [h1, h2, this, hi]
  · have : i < lo := by omega
    simp [h1, h2, this, hi]

/-- A field reads back as written, cut to its width. -/
theorem State.f_setF_same (s : State) (x : Fld) (v : Nat) (h : x.fits) : (s.setF x v).f x = v % 2 ^ x.width := by
  have e : (insertField (s.word x.addr) x.lo x.width v).extractLsb' x.lo x.width = BitVec.ofNat x.width v := by
    apply BitVec.eq_of_getLsbD_eq
    intro i hi
    unfold Fld.fits at h
    rw [BitVec.getLsbD_extractLsb', getLsbD_insertField _ _ _ _ _ h (by omega), if_pos (by omega), BitVec.getLsbD_ofNat]
    simp [hi]
  unfold State.setF State.f
  rw [State.word_setWord_same, e, BitVec.toNat_ofNat]

/-- A field that shares no bit with the written one reads as before. -/
theorem State.f_setF_apart (s : State) {x y : Fld} (v : Nat) (hx : x.fits) (hy : y.fits) (h : x.apart y) :
    (s.setF x v).f y = s.f y := by
  unfold State.f
  by_cases ha : y.addr = x.addr
  · have e : (insertField (s.word x.addr) x.lo x.width v).extractLsb' y.lo y.width = (s.word y.addr).extractLsb' y.lo y.width := by
      apply BitVec.eq_of_getLsbD_eq
      intro i hi
      unfold Fld.fits at hx hy
      rw [BitVec.getLsbD_extractLsb', BitVec.getLsbD_extractLsb', getLsbD_insertField _ _ _ _ _ hx (by omega), if_neg, ha]
      rcases h with h | h
      · exact absurd ha.symm h
      · omega
    unfold State.setF
    rw [ha, State.word_setWord_same, ← ha] at *
    rw [e]
  · rw [State.word_setF_other s v ha]

theorem State.on_setB_same (s : State) (x : Fld) (b : Bool) (h : x.fits) (w : x.width = 1) : (s.setB x b).on x = b := by
  unfold State.setB State.on
  rw [State.f_setF_same s x _ h, w]
  cases b <;> rfl

end Sys2Proof.Machine
end

