-- ==== Sys2Proof/Laws/Mode.lean ====
section
/-! SUPPORT. What each operation of Machine/Mode.lean can change: one lemma per operation, cited in place of unfolding it. -/

namespace Sys2Proof.Machine

set_option Elab.async false

theorem State.setSys_within {cs s0} {s x} (hc : [.modePend, .staged, .committing, .commit, .startDue, .sys] ⊆ cs) (hs : Within cs s0 s) :
    Within cs s0 (State.setSys s x) := by
  unfold State.setSys
  exact Within.upd (s := s) (t := { s with sys := _ }) hs (fun c => by cases c <;> first | exact .inl (hc (by decide)) | exact .inr rfl) (fun h => ⟨h.1, h.2.1, h.2.2⟩)

theorem enterState_within {cs s0} {s new} (hc : [.regs, .offers, .msix, .pbi, .recs, .vel, .so, .logicQ, .pub, .waits, .stk, .dl, .dbg] ⊆ cs) (hs : Within cs s0 s) :
    Within cs s0 (enterState s new) := by
  unfold enterState
  extract_lets +onlyGivenNames -merge -underBinder s1
  have hs1 : Within cs s0 s1 := State.irq_within (sub hc) (State.setF_within (sub hc) hs)
  clear_value s1
  extract_lets +onlyGivenNames -merge -underBinder s2
  have hs2 : Within cs s0 s2 := Within.foldl (gbUpdate_within (sub hc) hs1) (fun t a ht => showRx_within (sub hc) ht)
  clear_value s2
  extract_lets +onlyGivenNames -merge -underBinder s3
  have hs3 : Within cs s0 s3 := Within.ite (pulsesEnd_within (sub hc) hs2) hs2
  clear_value s3
  exact healthCheck_within (sub hc) (stylusCheck_within (sub hc) hs3)

theorem stagingClear_within {cs s0} {s} (hc : [.regs, .staged] ⊆ cs) (hs : Within cs s0 s) :
    Within cs s0 (stagingClear s) := by
  unfold stagingClear
  exact State.setFs_within (sub hc) (Within.put_sys_staged (sub hc) hs)

theorem stagingAbort_within {cs s0} {s cause} (hc : [.regs, .offers, .staged] ⊆ cs) (hs : Within cs s0 s) :
    Within cs s0 (stagingAbort s cause) := by
  unfold stagingAbort
  exact Within.ite (State.log_within (sub hc) (stagingClear_within (sub hc) hs)) hs

theorem testLeave_within {cs s0} {s} (hc : [.regs, .offers, .msix, .pbi, .recs, .vel, .so, .logicQ, .pub, .waits, .stk, .dl, .gp, .force, .qil, .fc, .grp, .dbg] ⊆ cs) (hs : Within cs s0 s) :
    Within cs s0 (testLeave s) := by
  unfold testLeave
  extract_lets +onlyGivenNames -merge -underBinder s1
  have hs1 : Within cs s0 s1 := State.setFs_within (sub hc) hs
  clear_value s1
  exact State.log_within (sub hc) (allOuts_within (sub hc) (enterState_within (sub hc) hs1))

theorem orphan_within {cs s0} {s n} (hc : [.exporting, .sweep, .fuse, .load, .sw, .jobs, .modePend, .commit] ⊆ cs) (hs : Within cs s0 s) :
    Within cs s0 (orphan s n) := by
  unfold orphan
  extract_lets +onlyGivenNames -merge -underBinder y
  extract_lets +onlyGivenNames -merge -underBinder y1
  extract_lets +onlyGivenNames -merge -underBinder q
  extract_lets +onlyGivenNames -merge -underBinder q1
  extract_lets +onlyGivenNames -merge -underBinder w a1
  extract_lets +onlyGivenNames -merge -underBinder w_1 m1
  extract_lets +onlyGivenNames -merge -underBinder w_2 v1
  exact Within.upd (s := s) (t := { s with vel := _, mem := _, qil := _, sea := _, sys := _ }) hs (fun c => by cases c <;> first | exact .inl (hc (by decide)) | exact .inr rfl) (fun h => ⟨h.1, h.2.1, h.2.2⟩)

theorem closeSession_within {cs s0} {s n cause} (hc : [.regs, .offers, .freeze, .scr, .sess, .msix, .pbi, .recs, .exporting, .vel, .sweep, .fuse, .so, .logicQ, .pub, .waits, .stk, .dl, .gp, .load, .sw, .force, .qil, .fc, .grp, .jobs, .dbg, .modePend, .staged, .commit] ⊆ cs) (hs : Within cs s0 s) :
    Within cs s0 (closeSession s n cause) := by
  unfold closeSession
  extract_lets +onlyGivenNames -merge -underBinder x
  extract_lets +onlyGivenNames -merge -underBinder was
  extract_lets +onlyGivenNames -merge -underBinder w s1
  have hs1 : Within cs s0 s1 := State.setSess_within (sub hc) (orphan_within (sub hc) hs)
  clear_value s1
  extract_lets +onlyGivenNames -merge -underBinder s2
  have hs2 : Within cs s0 s2 := State.noteInflight_within (sub hc) (State.setFs_within (sub hc) hs1)
  clear_value s2
  refine Within.ite hs2 ?_
  extract_lets +onlyGivenNames -merge -underBinder s3
  have hs3 : Within cs s0 s3 := Within.ite (stagingAbort_within (sub hc) hs2) hs2
  clear_value s3
  extract_lets +onlyGivenNames -merge -underBinder s4
  have hs4 : Within cs s0 s4 := Within.ite (testLeave_within (sub hc) hs3) hs3
  clear_value s4
  extract_lets +onlyGivenNames -merge -underBinder s5
  have hs5 : Within cs s0 s5 := freezeSessionClosed_within (sub hc) hs4
  clear_value s5
  extract_lets +onlyGivenNames -merge -underBinder s6
  have hs6 : Within cs s0 s6 := Within.ite (grantEnd_within (sub hc) hs5) hs5
  clear_value s6
  exact State.log_within (sub hc) hs6

theorem closeSessions_within {cs s0} {s cause p} (hc : [.regs, .offers, .freeze, .scr, .sess, .msix, .pbi, .recs, .exporting, .vel, .sweep, .fuse, .so, .logicQ, .pub, .waits, .stk, .dl, .gp, .load, .sw, .force, .qil, .fc, .grp, .jobs, .dbg, .modePend, .staged, .commit] ⊆ cs) (hs : Within cs s0 s) :
    Within cs s0 (closeSessions s cause p) := by
  unfold closeSessions
  exact Within.foldl hs (fun t a ht => Within.ite (closeSession_within (sub hc) ht) ht)

theorem testTmoWrite_within {cs s0} {v s} (hc : [.regs] ⊆ cs) (hs : Within cs s0 s) :
    Within cs s0 (testTmoWrite v s) := by
  unfold testTmoWrite
  exact Within.ite (State.setF_within (sub hc) hs) hs

theorem testEnter_within {cs s0} {s n} (hc : [.regs, .offers, .msix, .pbi, .recs, .vel, .so, .logicQ, .pub, .waits, .stk, .dl, .dbg, .sys] ⊆ cs) (hs : Within cs s0 s) :
    Within cs s0 (testEnter s n) := by
  unfold testEnter
  extract_lets +onlyGivenNames -merge -underBinder s1
  have hs1 : Within cs s0 s1 := State.setFs_within (sub hc) hs
  clear_value s1
  extract_lets +onlyGivenNames -merge -underBinder w s2
  have hs2 : Within cs s0 s2 := Within.put_sys_testEnd (sub hc) hs1
  clear_value s2
  exact State.log_within (sub hc) (enterState_within (sub hc) hs2)

theorem testWrite_within {cs s0} {n on s} (hc : [.regs, .offers, .msix, .pbi, .recs, .vel, .so, .logicQ, .pub, .waits, .stk, .dl, .gp, .force, .qil, .fc, .grp, .dbg, .sys] ⊆ cs) (hs : Within cs s0 s) :
    Within cs s0 (testWrite n on s) := by
  unfold testWrite
  exact Within.ite (State.log_within (sub hc) hs) (Within.ite (testEnter_within (sub hc) hs) (Within.ite (testLeave_within (sub hc) hs) hs))

theorem sysCtrlWrite_within {cs s0} {n mask v s} (hc : [.regs, .offers, .msix, .pbi, .recs, .vel, .so, .logicQ, .pub, .waits, .stk, .dl, .gp, .force, .qil, .fc, .grp, .dbg, .sys] ⊆ cs) (hs : Within cs s0 s) :
    Within cs s0 (sysCtrlWrite n mask v s) := by
  unfold sysCtrlWrite
  extract_lets +onlyGivenNames -merge -underBinder s1
  have hs1 : Within cs s0 s1 := Within.ite hs (testTmoWrite_within (sub hc) hs)
  clear_value s1
  exact Within.ite (testWrite_within (sub hc) hs1) hs1

theorem testTimeout_within {cs s0} {s} (hc : [.regs, .offers, .msix, .pbi, .recs, .vel, .so, .logicQ, .pub, .waits, .stk, .dl, .gp, .force, .qil, .fc, .grp, .dbg] ⊆ cs) (hs : Within cs s0 s) :
    Within cs s0 (testTimeout s) := by
  unfold testTimeout
  exact Within.ite (testLeave_within (sub hc) hs) hs

end Sys2Proof.Machine
end

