-- ==== Sys2Proof/Laws/Ports.lean ====
section
/-! SUPPORT. What each operation of Machine/Ports.lean can change: one lemma per operation, cited in place of unfolding it. -/

namespace Sys2Proof.Machine

set_option Elab.async false

theorem portsStop_within {cs s0} {s} (hc : [.ptp, .ptpIn, .port, .pair, .sc, .gs, .svq, .gq, .pbi] ⊆ cs) (hs : Within cs s0 s) :
    Within cs s0 (portsStop s) := by
  unfold portsStop
  exact Within.upd (s := s) (t := { s with rul := _, pbi := _ }) hs (fun c => by cases c <;> first | exact .inl (hc (by decide)) | exact .inr rfl) (fun h => ⟨h.1, h.2.1, h.2.2⟩)

theorem queueForward_within {cs s0} {s p f} (hc : [.port] ⊆ cs) (hs : Within cs s0 s) :
    Within cs s0 (queueForward s p f) := by
  unfold queueForward
  extract_lets +onlyGivenNames -merge -underBinder x
  exact State.setPort_within (sub hc) hs

theorem learn_within {cs s0} {s g src p} (hc : [.pbi] ⊆ cs) (hs : Within cs s0 s) :
    Within cs s0 (learn s g src p) := by
  unfold learn
  extract_lets +onlyGivenNames -merge -underBinder live
  extract_lets +onlyGivenNames -merge -underBinder mine
  exact Within.put_pbi_learnt (sub hc) hs

theorem bridge_within {cs s0} {s p f} (hc : [.port, .pbi] ⊆ cs) (hs : Within cs s0 s) :
    Within cs s0 (bridge s p f) := by
  unfold bridge
  extract_lets +onlyGivenNames -merge -underBinder g
  refine Within.ite hs ?_
  extract_lets +onlyGivenNames -merge -underBinder s1
  have hs1 : Within cs s0 s1 := Within.ite (learn_within (sub hc) hs) hs
  clear_value s1
  exact Within.ite hs1 (queueForward_within (sub hc) hs1)

theorem hostRing_within {cs s0} {s p kind f trailer} (hc : [.regs, .offers, .inkwell, .msix, .hst, .pbi] ⊆ cs) (hs : Within cs s0 s) :
    Within cs s0 (hostRing s p kind f trailer) := by
  unfold hostRing
  extract_lets +onlyGivenNames -merge -underBinder pi
  refine Within.ite ?_ ?_
  · extract_lets +onlyGivenNames -merge -underBinder s1
    have hs1 : Within cs s0 s1 := Within.ite (State.incW_within (sub hc) hs) hs
    clear_value s1
    exact Within.ite hs1 (State.log_within (sub hc) (Within.put_pbi_hostOvf (sub hc) hs1))
  · extract_lets +onlyGivenNames -merge -underBinder s1
    have hs1 : Within cs s0 s1 := State.inkWrite_within (sub hc) hs
    clear_value s1
    extract_lets +onlyGivenNames -merge -underBinder w w_1 s2
    have hs2 : Within cs s0 s2 := Within.upd (s := s1) (t := { s1 with hst := _, pbi := _ }) hs1 (fun c => by cases c <;> first | exact .inl (hc (by decide)) | exact .inr rfl) (fun h => ⟨h.1, h.2.1, h.2.2⟩)
    clear_value s2
    exact State.irq_within (sub hc) (State.incW_within (sub hc) hs2)

theorem otherFrame_within {cs s0} {s p f trailer} (hc : [.regs, .offers, .inkwell, .msix, .hst, .pbi] ⊆ cs) (hs : Within cs s0 s) :
    Within cs s0 (otherFrame s p f trailer) := by
  unfold otherFrame
  exact Within.ite (hostRing_within (sub hc) hs) (State.portCnt_within (sub hc) hs)

theorem noMatch_within {cs s0} {s p f trailer} (hc : [.regs, .offers, .inkwell, .msix, .hst, .pbi] ⊆ cs) (hs : Within cs s0 s) :
    Within cs s0 (noMatch s p f trailer) := by
  unfold noMatch
  extract_lets +onlyGivenNames -merge -underBinder s1
  have hs1 : Within cs s0 s1 := State.portCnt_within (sub hc) hs
  clear_value s1
  exact Within.ite (hostRing_within (sub hc) hs1) hs1

theorem takeIngress_within {cs s0} {s p len} (hc : [.port] ⊆ cs) (hs : Within cs s0 s) :
    Within cs s0 (takeIngress s p len) := by
  unfold takeIngress
  exact State.setPort_within (sub hc) hs

theorem classify_within {cs s0} {s p f trailer} (hc : [.regs, .ptpIn, .offers, .sess, .inkwell, .msix, .hst, .port, .sc, .svq, .gq, .pbi, .modePend] ⊆ cs) (hs : Within cs s0 s) :
    Within cs s0 (classify s p f trailer) := by
  unfold classify
  refine Within.ite (otherFrame_within (sub hc) hs) ?_
  split
  · split
    · extract_lets +onlyGivenNames -merge -underBinder s1
      have hs1 : Within cs s0 s1 := svTakeMode_within (sub hc) hs
      clear_value s1
      refine Within.ite (hostRing_within (sub hc) hs1) ?_
      extract_lets +onlyGivenNames -merge -underBinder s2
      have hs2 : Within cs s0 s2 := takeIngress_within (sub hc) hs1
      clear_value s2
      exact Within.put_pbi_svq (sub hc) hs2
    · exact noMatch_within (sub hc) hs
  · split
    · extract_lets +onlyGivenNames -merge -underBinder s1
      have hs1 : Within cs s0 s1 := gsTakeMode_within (sub hc) hs
      clear_value s1
      refine Within.ite (hostRing_within (sub hc) hs1) ?_
      extract_lets +onlyGivenNames -merge -underBinder s2
      have hs2 : Within cs s0 s2 := takeIngress_within (sub hc) hs1
      clear_value s2
      exact Within.put_pbi_gq (sub hc) hs2
    · exact noMatch_within (sub hc) hs
  · exact Within.ite (Within.ite hs (Within.put_rul_ptpIn (sub hc) hs)) (State.portCnt_within (sub hc) hs)
  · exact Within.ite (Within.ite (hostRing_within (sub hc) hs) hs) (otherFrame_within (sub hc) hs)
  · exact otherFrame_within (sub hc) hs

theorem portsStart_within {cs s0} {s} (hc : [.regs, .offers, .sc, .gs, .pbi, .recs, .vel, .logicQ, .waits] ⊆ cs) (hs : Within cs s0 s) :
    Within cs s0 (portsStart s) := by
  unfold portsStart
  extract_lets +onlyGivenNames -merge -underBinder s1
  have hs1 : Within cs s0 s1 := Within.foldl hs (fun t a ht => Within.ite (svWaiting_within (sub hc) ht) ht)
  clear_value s1
  exact Within.foldl hs1 (fun t a ht => Within.ite (gsWaiting_within (sub hc) ht) ht)

theorem linkEvent_within {cs s0} {s p up} (hc : [.offers] ⊆ cs) (hs : Within cs s0 s) :
    Within cs s0 (linkEvent s p up) := by
  unfold linkEvent
  exact Within.ite (State.log_within (sub hc) hs) (State.log_within (sub hc) hs)

theorem setLinkBits_within {cs s0} {s p link los pcs an} (hc : [.regs] ⊆ cs) (hs : Within cs s0 s) :
    Within cs s0 (setLinkBits s p link los pcs an) := by
  unfold setLinkBits
  refine Within.ite (State.setFs_within (sub hc) hs) ?_
  extract_lets +onlyGivenNames -merge -underBinder a
  exact State.wr_within (sub hc) hs

theorem linkSignals_within {cs s0} {s p los pcs an} (hc : [.regs, .offers, .pbi] ⊆ cs) (hs : Within cs s0 s) :
    Within cs s0 (linkSignals s p los pcs an) := by
  unfold linkSignals
  refine Within.ite ?_ hs
  extract_lets +onlyGivenNames -merge -underBinder up
  extract_lets +onlyGivenNames -merge -underBinder w s1
  have hs1 : Within cs s0 s1 := setLinkBits_within (sub hc) (Within.put_pbi_anDone (sub hc) hs)
  clear_value s1
  exact Within.ite hs1 (linkEvent_within (sub hc) hs1)

theorem linksFollow_within {cs s0} {s} (hc : [.regs, .offers, .pbi] ⊆ cs) (hs : Within cs s0 s) :
    Within cs s0 (linksFollow s) := by
  unfold linksFollow
  refine Within.foldl hs (fun t a ht => ?_)
  extract_lets +onlyGivenNames -merge -underBinder x
  exact linkSignals_within (sub hc) ht

theorem correctFrame_within {cs s0} {s q i f} (hc : [.regs, .ptp] ⊆ cs) (hs : Within cs s0 s) :
    Within cs s0 (correctFrame s q i f).1 := by
  unfold correctFrame
  extract_lets +onlyGivenNames -merge -underBinder t
  extract_lets +onlyGivenNames -merge -underBinder note
  have hnote : ∀ note0, Within cs s0 note0 → Within cs s0 (note note0) := by
    intro note0 hnote0
    unfold note
    exact Within.ite hnote0 (State.incW_within (sub hc) hnote0)
  clear_value note
  split
  · exact hnote _ hs
  · extract_lets +onlyGivenNames -merge -underBinder pp
    exact hnote _ (State.setPtpPort_within (sub hc) hs)
  · extract_lets +onlyGivenNames -merge -underBinder pp
    split
    · exact State.setPtpPort_within (sub hc) hs
    · exact hs
  · exact hs

theorem dupEnter_within {cs s0} {s pair src seq} (hc : [.pair] ⊆ cs) (hs : Within cs s0 s) :
    Within cs s0 (dupEnter s pair src seq) := by
  unfold dupEnter
  extract_lets +onlyGivenNames -merge -underBinder x
  exact Within.put_pbi_pair (sub hc) hs

theorem forwardTo_within {cs s0} {inPort f at' s q} (hc : [.regs, .port] ⊆ cs) (hs : Within cs s0 s) :
    Within cs s0 (forwardTo inPort f at' s q) := by
  unfold forwardTo
  refine Within.ite (State.incW_within (sub hc) hs) ?_
  refine Within.ite hs ?_
  refine Within.ite (State.portCnt_within (sub hc) hs) ?_
  extract_lets +onlyGivenNames -merge -underBinder w s1
  have hs1 : Within cs s0 s1 := State.setPort_within (sub hc) hs
  clear_value s1
  exact Within.ite (State.incW_within (sub hc) hs1) hs1

theorem frameForward_within {cs s0} {s p} (hc : [.regs, .port] ⊆ cs) (hs : Within cs s0 s) :
    Within cs s0 (frameForward s p) := by
  unfold frameForward
  extract_lets +onlyGivenNames -merge -underBinder x
  split
  · exact Within.foldl (State.setPort_within (sub hc) hs) (fun t a ht => forwardTo_within (sub hc) ht)
  · exact hs

theorem wrongLan_within {cs s0} {s p bad} (hc : [.regs, .offers, .port] ⊆ cs) (hs : Within cs s0 s) :
    Within cs s0 (wrongLan s p bad) := by
  unfold wrongLan
  extract_lets +onlyGivenNames -merge -underBinder x
  extract_lets +onlyGivenNames -merge -underBinder s1
  have hs1 : Within cs s0 s1 := State.setPort_within (sub hc) hs
  clear_value s1
  refine Within.ite ?_ hs1
  extract_lets +onlyGivenNames -merge -underBinder s2
  have hs2 : Within cs s0 s2 := State.portCnt_within (sub hc) hs1
  clear_value s2
  exact Within.ite hs2 (State.log_within (sub hc) hs2)

theorem prpReceive_within {cs s0} {s p pair f} (hc : [.regs, .ptpIn, .offers, .sess, .inkwell, .msix, .hst, .port, .pair, .sc, .svq, .gq, .pbi, .modePend] ⊆ cs) (hs : Within cs s0 s) :
    Within cs s0 (prpReceive s p pair f) := by
  unfold prpReceive
  split
  · refine Within.ite ?_ (classify_within (sub hc) hs)
    extract_lets +onlyGivenNames -merge -underBinder s1
    have hs1 : Within cs s0 s1 := wrongLan_within (sub hc) hs
    clear_value s1
    exact Within.ite (classify_within (sub hc) hs1) (Within.ite (State.portCnt_within (sub hc) hs1) (classify_within (sub hc) (dupEnter_within (sub hc) hs1)))
  · exact classify_within (sub hc) hs

theorem hsrReceive_within {cs s0} {s p f} (hc : [.regs, .ptpIn, .offers, .sess, .inkwell, .msix, .hst, .port, .pair, .sc, .svq, .gq, .pbi, .modePend] ⊆ cs) (hs : Within cs s0 s) :
    Within cs s0 (hsrReceive s p f) := by
  unfold hsrReceive
  extract_lets +onlyGivenNames -merge -underBinder k
  extract_lets +onlyGivenNames -merge -underBinder own
  extract_lets +onlyGivenNames -merge -underBinder ok
  have hok : ∀ ok0, Within cs s0 ok0 → Within cs s0 (ok ok0) := by
    intro ok0 hok0
    unfold ok
    exact State.incW_within (sub hc) hok0
  clear_value ok
  refine Within.ite (State.incW_within (sub hc) (hok _ hs)) ?_
  refine Within.ite (classify_within (sub hc) (hok _ hs)) ?_
  split
  · refine Within.ite (State.incW_within (sub hc) (hok _ hs)) ?_
    extract_lets +onlyGivenNames -merge -underBinder s1
    have hs1 : Within cs s0 s1 := dupEnter_within (sub hc) (hok _ hs)
    clear_value s1
    exact Within.ite (classify_within (sub hc) (queueForward_within (sub hc) hs1)) (Within.ite (classify_within (sub hc) hs1) (queueForward_within (sub hc) hs1))
  · exact State.portCnt_within (sub hc) hs

theorem hsrBad_within {cs s0} {s p f} (hc : [.port] ⊆ cs) (hs : Within cs s0 s) :
    Within cs s0 (hsrBad s p f) := by
  unfold hsrBad
  extract_lets +onlyGivenNames -merge -underBinder k
  extract_lets +onlyGivenNames -merge -underBinder own
  split
  · exact Within.ite hs (queueForward_within (sub hc) hs)
  · exact hs

theorem frameReceived_within {cs s0} {s p f} (hc : [.regs, .ptpIn, .offers, .sess, .inkwell, .msix, .hst, .port, .pair, .sc, .svq, .gq, .pbi, .modePend] ⊆ cs) (hs : Within cs s0 s) :
    Within cs s0 (frameReceived s p f) := by
  unfold frameReceived
  refine Within.ite ?_ hs
  extract_lets +onlyGivenNames -merge -underBinder maxLen
  refine Within.ite (State.portCnt_within (sub hc) hs) ?_
  refine Within.ite (State.portCnt_within (sub hc) hs) ?_
  refine Within.ite (State.portCnt_within (sub hc) hs) ?_
  refine Within.ite (Within.ite (hsrBad_within (sub hc) (State.portCnt_within (sub hc) hs)) (bridge_within (sub hc) (State.portCnt_within (sub hc) hs))) ?_
  refine Within.ite (hsrReceive_within (sub hc) hs) ?_
  extract_lets +onlyGivenNames -merge -underBinder s1
  have hs1 : Within cs s0 s1 := bridge_within (sub hc) (State.portCnt_within (sub hc) hs)
  clear_value s1
  split
  · exact prpReceive_within (sub hc) hs1
  · exact classify_within (sub hc) hs1

theorem startFrame_within {cs s0} {s p i} (hc : [.regs, .ptp, .inkwell, .msix] ⊆ cs) (hs : Within cs s0 s) :
    Within cs s0 (startFrame s p i).1 := by
  unfold startFrame
  split
  · refine Within.ite1 (State.incW_within (sub hc) hs) ?_
    extract_lets +onlyGivenNames -merge -underBinder r
    have hr : Within cs s0 r.1 := correctFrame_within (sub hc) hs
    clear_value r
    exact hr
  · exact Within.ite (pdelayReqSent_within (sub hc) hs) hs
  · exact hs
  · exact hs

theorem frameTxStart_within {cs s0} {s p} (hc : [.regs, .ptp, .inkwell, .msix, .port] ⊆ cs) (hs : Within cs s0 s) :
    Within cs s0 (frameTxStart s p) := by
  unfold frameTxStart
  extract_lets +onlyGivenNames -merge -underBinder x
  split
  · refine Within.ite hs ?_
    refine Within.ite (Within.ite (State.incW_within (sub hc) (State.setPort_within (sub hc) hs)) hs) ?_
    refine Within.ite hs ?_
    extract_lets +onlyGivenNames -merge -underBinder r
    have hr : Within cs s0 r.1 := startFrame_within (sub hc) hs
    clear_value r
    extract_lets +onlyGivenNames -merge -underBinder w s1
    have hs1 : Within cs s0 s1 := State.setPort_within (sub hc) hr
    clear_value s1
    exact Within.ite (State.incW_within (sub hc) hs1) hs1
  · exact hs

theorem portLinkDown_within {cs s0} {s p los pcs an} (hc : [.regs, .offers, .pbi] ⊆ cs) (hs : Within cs s0 s) :
    Within cs s0 (portLinkDown s p los pcs an) := by
  unfold portLinkDown
  exact linkSignals_within (sub hc) hs

theorem portLinkUp_within {cs s0} {s p gigabit} (hc : [.regs, .offers, .pbi] ⊆ cs) (hs : Within cs s0 s) :
    Within cs s0 (portLinkUp s p gigabit) := by
  unfold portLinkUp
  exact Within.ite (linkSignals_within (sub hc) hs) (Within.ite (State.incS_within (sub hc) hs) hs)

theorem sfpWrite_within {cs s0} {s v} (hc : [.regs] ⊆ cs) (hs : Within cs s0 s) :
    Within cs s0 (sfpWrite s v) := by
  unfold sfpWrite
  extract_lets +onlyGivenNames -merge -underBinder w
  clear_value w
  extract_lets +onlyGivenNames -merge -underBinder s1
  have hs1 : Within cs s0 s1 := State.setFs_within (sub hc) hs
  clear_value s1
  exact Within.ite (State.setB_within (sub hc) hs1) hs1

theorem sfpDone_within {cs s0} {s nack data} (hc : [.regs] ⊆ cs) (hs : Within cs s0 s) :
    Within cs s0 (sfpDone s nack data) := by
  unfold sfpDone
  refine Within.ite ?_ hs
  extract_lets +onlyGivenNames -merge -underBinder s1
  have hs1 : Within cs s0 s1 := State.setFs_within (sub hc) hs
  clear_value s1
  exact Within.ite (State.setF_within (sub hc) hs1) hs1

theorem supervisionSend_within {cs s0} {s k} (hc : [.regs, .port, .pair] ⊆ cs) (hs : Within cs s0 s) :
    Within cs s0 (supervisionSend s k) := by
  unfold supervisionSend
  extract_lets +onlyGivenNames -merge -underBinder x
  refine Within.ite ?_ hs
  extract_lets +onlyGivenNames -merge -underBinder len
  extract_lets +onlyGivenNames -merge -underBinder w s0_1
  have hs0_1 : Within cs s0 s0_1 := Within.put_pbi_pair (sub hc) hs
  clear_value s0_1
  refine Within.ite ?_ (Within.ite (sendPair_within (sub hc) hs0_1) hs)
  refine Within.ite ?_ hs
  extract_lets +onlyGivenNames -merge -underBinder t
  have ht : Within cs s0 t.1 := takeSeq_within (sub hc) hs0_1
  clear_value t
  exact Within.foldl ht (fun t_2 a ht_2 => Within.ite (State.enqueue_within (sub hc) ht_2) ht_2)

end Sys2Proof.Machine
end

