-- ==== Sys2Proof/Laws/Quill.lean ====
section
/-! SUPPORT. What each operation of Machine/Quill.lean can change: one lemma per operation, cited in place of unfolding it. -/

namespace Sys2Proof.Machine

set_option Elab.async false

/-- The state that a step of an instruction brings. -/
def QStep.st : QStep → State
  | .go s _ _ => s
  | .fault s _ _ _ => s

theorem Within.iteQ {p : Prop} [Decidable p] {cs : List Comp} {s0 : State} {a b : QStep} (ha : Within cs s0 a.st)
    (hb : Within cs s0 b.st) : Within cs s0 (if p then a else b).st := by split <;> assumption

theorem storeAt_within {cs s0} {s a d} (hc : [.qil] ⊆ cs) (hs : Within cs s0 s) :
    Within cs s0 (storeAt s a d) := by
  unfold storeAt
  split
  · exact hs
  · exact State.stData_within (sub hc) hs
  · exact State.stData_within (sub hc) hs

theorem qexec_within {cs s0} {s op x legal cost act} (hc : [.regs, .offers, .sess, .inkwell, .msix, .gs, .logicQ, .waits, .gp, .run, .sw, .force, .qil, .fc, .grp] ⊆ cs) (hs : Within cs s0 s)
    (hact : ∀ y0, Within cs s0 y0 → ∀ y1 y2, Within cs s0 (act y0 y1 y2).st) : Within cs s0 (qexec s op x legal cost act) := by
  unfold qexec
  split
  · exact hs
  · next t _ =>
    extract_lets r
    refine Within.ite hs ?_
    refine Within.ite (taskFault_within (sub hc) hs) ?_
    refine Within.ite (taskFault_within (sub hc) hs) ?_
    have h := hact s hs t r
    split
    · next he => rw [he] at h; exact storeAt_within (sub hc) (taskFault_within (sub hc) h)
    · next he => rw [he] at h; exact arrive_within (sub hc) (State.setQrun_within (sub hc) h)

theorem qpure_within {cs s0} {s op x legal cost f} (hc : [.regs, .offers, .sess, .inkwell, .msix, .gs, .logicQ, .waits, .gp, .run, .sw, .force, .qil, .fc, .grp] ⊆ cs) (hs : Within cs s0 s) :
    Within cs s0 (qpure s op x legal cost f) := by
  unfold qpure
  exact qexec_within (sub hc) hs (fun _ hu _ _ => hu)

theorem aluOp_within {cs s0} {s op cost x f} (hc : [.regs, .offers, .sess, .inkwell, .msix, .gs, .logicQ, .waits, .gp, .run, .sw, .force, .qil, .fc, .grp] ⊆ cs) (hs : Within cs s0 s) :
    Within cs s0 (aluOp s op cost x f) := by
  unfold aluOp
  exact qpure_within (sub hc) hs

theorem retainError_within {cs s0} {s t a} (hc : [.offers, .qil] ⊆ cs) (hs : Within cs s0 s) :
    Within cs s0 (retainError s t a) := by
  unfold retainError
  split
  · exact State.log_within (sub hc) (initRet_within (sub hc) hs)
  · exact State.log_within (sub hc) (State.stData_within (sub hc) hs)

theorem qfault_within {cs s0} {s cause} (_hc : [] ⊆ cs) (hs : Within cs s0 s) :
    Within cs s0 (qfault s cause).st := by
  unfold qfault
  exact hs

theorem dataAt_within {cs s0} {u t a c store act} (hc : [.regs, .offers, .msix, .mem, .qil] ⊆ cs) (hu : Within cs s0 u) (hact : ∀ y0, Within cs s0 y0 → Within cs s0 (act y0).st) :
    Within cs s0 (dataAt u t a c store act).st := by
  unfold dataAt
  exact Within.iteQ (qfault_within (sub hc) hu) (Within.iteQ (hact _ (memNote_within (sub hc) hu)) (Within.iteQ (hact _ (retainError_within (sub hc) (memNote_within (sub hc) hu))) (memNote_within (sub hc) hu)))

theorem bitOp_within {cs s0} {s op x c f} (hc : [.regs, .offers, .sess, .inkwell, .msix, .gs, .mem, .logicQ, .waits, .gp, .run, .sw, .force, .qil, .fc, .grp] ⊆ cs) (hs : Within cs s0 s) :
    Within cs s0 (bitOp s op x c f) := by
  unfold bitOp
  exact qexec_within (sub hc) hs (fun u hu t r => dataAt_within (sub hc) hu (fun v hv => hv))

theorem bitStore_within {cs s0} {s op x c f} (hc : [.regs, .offers, .sess, .inkwell, .msix, .gs, .mem, .logicQ, .waits, .gp, .run, .sw, .force, .qil, .fc, .grp] ⊆ cs) (hs : Within cs s0 s) :
    Within cs s0 (bitStore s op x c f) := by
  unfold bitStore
  refine qexec_within (sub hc) hs (fun u hu t r => ?_)
  extract_lets +onlyGivenNames -merge -underBinder d
  exact dataAt_within (sub hc) hu (fun v hv => storeAt_within (sub hc) hv)

theorem counterOp_within {cs s0} {s op x kinds f} (hc : [.regs, .offers, .sess, .inkwell, .msix, .gs, .logicQ, .waits, .gp, .run, .sw, .force, .qil, .fc, .grp] ⊆ cs) (hs : Within cs s0 s) :
    Within cs s0 (counterOp s op x kinds f) := by
  unfold counterOp
  refine qexec_within (sub hc) hs (fun u hu t r => ?_)
  split
  · extract_lets +onlyGivenNames -merge -underBinder p
    exact Within.put_qil_ct (sub hc) hu
  · exact qfault_within (sub hc) hu

theorem edgeOp_within {cs s0} {s op kind x f} (hc : [.regs, .offers, .sess, .inkwell, .msix, .gs, .logicQ, .waits, .gp, .run, .sw, .force, .qil, .fc, .grp] ⊆ cs) (hs : Within cs s0 s) :
    Within cs s0 (edgeOp s op kind x f) := by
  unfold edgeOp
  refine qexec_within (sub hc) hs (fun u hu t r => ?_)
  split
  · extract_lets +onlyGivenNames -merge -underBinder y
    exact Within.put_qil_ed (sub hc) hu
  · exact qfault_within (sub hc) hu

theorem emitRec_within {cs s0} {s t sev code r v} (hc : [.offers] ⊆ cs) (hs : Within cs s0 s) :
    Within cs s0 (emitRec s t sev code r v) := by
  unfold emitRec
  exact State.offer_within (sub hc) hs

theorem fltOp_within {cs s0} {s op cost x f} (hc : [.regs, .offers, .sess, .inkwell, .msix, .gs, .logicQ, .waits, .gp, .run, .sw, .force, .qil, .fc, .grp] ⊆ cs) (hs : Within cs s0 s) :
    Within cs s0 (fltOp s op cost x f) := by
  unfold fltOp
  exact aluOp_within (sub hc) hs

theorem immOp_within {cs s0} {s op x f} (hc : [.regs, .offers, .sess, .inkwell, .msix, .gs, .logicQ, .waits, .gp, .run, .sw, .force, .qil, .fc, .grp] ⊆ cs) (hs : Within cs s0 s) :
    Within cs s0 (immOp s op x f) := by
  unfold immOp
  exact qpure_within (sub hc) hs

theorem jumpTo_within {cs s0} {s t target r} (hc : [] ⊆ cs) (hs : Within cs s0 s) :
    Within cs s0 (jumpTo s t target r).st := by
  unfold jumpTo
  exact Within.iteQ hs (qfault_within hc hs)

theorem memOp_within {cs s0} {s op x c store f} (hc : [.regs, .offers, .sess, .inkwell, .msix, .gs, .mem, .logicQ, .waits, .gp, .run, .sw, .force, .qil, .fc, .grp] ⊆ cs) (hs : Within cs s0 s) :
    Within cs s0 (memOp s op x c store f) := by
  unfold memOp
  exact qexec_within (sub hc) hs (fun u hu t r => dataAt_within (sub hc) hu (fun v hv => storeAt_within (sub hc) hv))

theorem qend_within {cs s0} {s x} (hc : [.regs, .offers, .sess, .inkwell, .msix, .gs, .logicQ, .waits, .gp, .run, .sw, .force, .qil, .fc, .grp] ⊆ cs) (hs : Within cs s0 s) :
    Within cs s0 (qend s x) := by
  unfold qend
  split
  · exact hs
  · extract_lets +onlyGivenNames -merge -underBinder r
    refine Within.ite hs ?_
    refine Within.ite (taskFault_within (sub hc) hs) ?_
    refine Within.ite (taskFault_within (sub hc) hs) ?_
    extract_lets +onlyGivenNames -merge -underBinder s1
    have hs1 : Within cs s0 s1 := writeBack_within (sub hc) hs
    clear_value s1
    refine Within.ite hs ?_
    extract_lets +onlyGivenNames -merge -underBinder s2
    have hs2 : Within cs s0 s2 := gsApplyPending_within (sub hc) (afterWrite_within (sub hc) hs hs1)
    clear_value s2
    extract_lets +onlyGivenNames -merge -underBinder s3
    have hs3 : Within cs s0 s3 := runEnds_within (sub hc) (State.setQrun_within (sub hc) (State.incW_within (sub hc) hs2))
    clear_value s3
    exact resumeNext_within (sub hc) (State.setTaskSt_within (sub hc) hs3)

theorem timerOp_within {cs s0} {s op kind x} (hc : [.regs, .offers, .sess, .inkwell, .msix, .gs, .logicQ, .waits, .gp, .run, .sw, .force, .qil, .fc, .grp] ⊆ cs) (hs : Within cs s0 s) :
    Within cs s0 (timerOp s op kind x) := by
  unfold timerOp
  refine qexec_within (sub hc) hs (fun u hu t r => ?_)
  split
  · extract_lets +onlyGivenNames -merge -underBinder y
    exact Within.put_qil_tm (sub hc) hu
  · exact qfault_within (sub hc) hu

end Sys2Proof.Machine
end

