-- ==== Sys2Proof/Laws/Seal.lean ====
section
/-! SUPPORT. What each operation of Machine/Seal.lean can change: one lemma per operation, cited in place of unfolding it. -/

namespace Sys2Proof.Machine

set_option Elab.async false

theorem attestBody_within {cs s0} {n s c} (hc : [.regs, .offers, .sess, .inkwell, .msix, .hst, .jobs, .modePend] ⊆ cs) (hs : Within cs s0 s) :
    Within cs s0 (attestBody n s c).s := by
  unfold attestBody
  refine Within.iteS (sealBusy_within (sub hc) hs) ?_
  refine Within.iteS (refuse_within (sub hc) hs) ?_
  extract_lets +onlyGivenNames -merge -underBinder s1
  have hs1 : Within cs s0 s1 := by
    unfold s1
    split
    · exact modeTaken_within (sub hc) (Within.put_hst_haAttest (sub hc) hs)
    · exact hs
  clear_value s1
  exact goesOn_within (sub hc) (sealPush_within (sub hc) hs1)

theorem attestDone_within {cs s0} {s j} (hc : [.freeCtr, .regs, .offers, .sess, .inkwell, .msix, .sea] ⊆ cs) (hs : Within cs s0 s) :
    Within cs s0 (attestDone s j) := by
  unfold attestDone
  extract_lets +onlyGivenNames -merge -underBinder rseq body sig len rep w s1
  have hs1 : Within cs s0 s1 := by
    unfold s1
    clear_value rep rseq
    exact Within.upd (s := s) hs (fun c => by cases c <;> first | exact .inl (hc (by decide)) | exact .inr rfl) (fun h => ⟨h.1, h.2.1, h.2.2⟩)
  clear_value s1 rep len
  extract_lets +onlyGivenNames -merge -underBinder s2
  have hs2 : Within cs s0 s2 := State.incW_within (sub hc) (State.setFs_within (sub hc) hs1)
  clear_value s2
  exact postHead_within (sub hc) (State.log_within (sub hc) hs2)

theorem unlockEnds_within {cs s0} {s cause} (hc : [.regs, .offers, .sea] ⊆ cs) (hs : Within cs s0 s) :
    Within cs s0 (unlockEnds s cause) := by
  unfold unlockEnds
  refine Within.ite ?_ hs
  extract_lets +onlyGivenNames -merge -underBinder s1
  have hs1 : Within cs s0 s1 := State.setFs_within (sub hc) hs
  clear_value s1
  extract_lets +onlyGivenNames -merge -underBinder w s2
  have hs2 : Within cs s0 s2 := State.log_within (sub hc) (Within.put_sea_unlockEnd (sub hc) hs1)
  clear_value s2
  exact stylusCheck_within (sub hc) (grantEnd_within (sub hc) hs2)

theorem greet_within {cs s0} {s n} (hc : [.regs, .sess] ⊆ cs) (hs : Within cs s0 s) :
    Within cs s0 (greet s n) := by
  unfold greet
  exact State.setF_within (sub hc) (State.setSess_within (sub hc) hs)

theorem challengeTimeout_within {cs s0} {s n} (hc : [.regs, .sess] ⊆ cs) (hs : Within cs s0 s) :
    Within cs s0 (challengeTimeout s n) := by
  unfold challengeTimeout
  split
  · exact Within.ite (greet_within (sub hc) hs) hs
  · exact hs

theorem ownResult_within {cs s0} {s busy res} (hc : [.regs] ⊆ cs) (hs : Within cs s0 s) :
    Within cs s0 (ownResult s busy res) := by
  unfold ownResult
  exact State.setFs_within (sub hc) hs

theorem fuseBegin_within {cs s0} {s f} (hc : [.regs, .burn] ⊆ cs) (hs : Within cs s0 s) :
    Within cs s0 (fuseBegin s f) := by
  unfold fuseBegin
  exact ownResult_within (sub hc) (Within.put_sea_fuse (sub hc) hs)

theorem commission_within {cs s0} {s slot hash} (hc : [.regs, .burn, .dbg] ⊆ cs) (hs : Within cs s0 s) :
    Within cs s0 (commission s slot hash) := by
  unfold commission
  extract_lets +onlyGivenNames -merge -underBinder t
  have ht : Within cs s0 t := jtagLoad_within (sub hc) hs
  clear_value t
  refine Within.ite ht ?_
  extract_lets +onlyGivenNames -merge -underBinder t1
  have ht1 : Within cs s0 t1 := Within.foldl ht (fun t_1 a ht_1 => State.setWord_within (sub hc) ht_1)
  clear_value t1
  extract_lets +onlyGivenNames -merge -underBinder t2
  have ht2 : Within cs s0 t2 := State.setF_within (sub hc) ht1
  clear_value t2
  exact Within.ite (ownResult_within (sub hc) ht2) (fuseBegin_within (sub hc) ht2)

theorem drawNonce_within {cs s0} {s n} (hc : [.freeCtr, .inkwell] ⊆ cs) (hs : Within cs s0 s) :
    Within cs s0 (drawNonce s n) := by
  unfold drawNonce
  extract_lets +onlyGivenNames -merge -underBinder d
  have hd : Within cs s0 d.2 := State.drawBytes_within (sub hc) hs
  clear_value d
  exact State.inkWrite_within (sub hc) hd

theorem fuseWriteDone_within {cs s0} {s ok} (hc : [.regs, .offers, .burn] ⊆ cs) (hs : Within cs s0 s) :
    Within cs s0 (fuseWriteDone s ok) := by
  unfold fuseWriteDone
  split
  · extract_lets +onlyGivenNames -merge -underBinder w s1
    have hs1 : Within cs s0 s1 := Within.put_sea_fuse (sub hc) hs
    clear_value s1
    refine Within.ite (State.log_within (sub hc) (ownResult_within (sub hc) hs1)) ?_
    extract_lets +onlyGivenNames -merge -underBinder s2
    have hs2 : Within cs s0 s2 := ownResult_within (sub hc) hs1
    clear_value s2
    refine Within.ite ?_ (Within.ite (State.log_within (sub hc) (State.setF_within (sub hc) hs2)) (State.log_within (sub hc) (State.setF_within (sub hc) hs2)))
    extract_lets +onlyGivenNames -merge -underBinder s3
    have hs3 : Within cs s0 s3 := Within.foldl hs2 (fun t a ht => State.setWord_within (sub hc) ht)
    clear_value s3
    exact State.log_within (sub hc) (State.setF_within (sub hc) hs3)
  · exact hs

theorem openBody_within {cs s0} {n slot k s c} (hc : [.regs, .sess] ⊆ cs) (hk : ∀ y0, Within cs s0 y0 → ∀ y1, Within cs s0 (k y0 y1).s) (hs : Within cs s0 s) :
    Within cs s0 (openBody n slot k s c).s := by
  unfold openBody
  extract_lets +onlyGivenNames -merge -underBinder lv
  refine Within.iteS (refuse_within (sub hc) hs) ?_
  split
  · exact refuse_within (sub hc) hs
  · exact Within.iteS (refuse_within (sub hc) hs) (Within.iteS (refuse_within (sub hc) hs) (Within.iteS (refuse_within (sub hc) (greet_within (sub hc) hs)) (hk _ hs _)))

theorem openDone_within {cs s0} {s j} (hc : [.regs, .offers, .sess, .inkwell, .msix] ⊆ cs) (hs : Within cs s0 s) :
    Within cs s0 (openDone s j) := by
  unfold openDone
  split
  · extract_lets +onlyGivenNames -merge -underBinder cr
    extract_lets +onlyGivenNames -merge -underBinder lv
    extract_lets +onlyGivenNames -merge -underBinder g
    have hg : Within cs s0 g := greet_within (sub hc) hs
    clear_value g
    refine Within.ite ?_ ?_
    · extract_lets +onlyGivenNames -merge -underBinder s1
      have hs1 : Within cs s0 s1 := State.setFs_within (sub hc) hg
      clear_value s1
      extract_lets +onlyGivenNames -merge -underBinder w s2
      have hs2 : Within cs s0 s2 := State.setSess_within (sub hc) hs1
      clear_value s2
      exact post_within (sub hc) (State.log_within (sub hc) hs2)
    · extract_lets +onlyGivenNames -merge -underBinder w s1
      have hs1 : Within cs s0 s1 := State.setSess_within (sub hc) hg
      clear_value s1
      extract_lets +onlyGivenNames -merge -underBinder s2
      have hs2 : Within cs s0 s2 := State.incS_within (sub hc) (State.incS_within (sub hc) hs1)
      clear_value s2
      exact post_within (sub hc) (State.log_within (sub hc) hs2)
  · exact hs

theorem openPhase0_within {cs s0} {n s x} (hc : [.freeCtr, .regs, .sess, .inkwell] ⊆ cs) (hs : Within cs s0 s) :
    Within cs s0 (openPhase0 n s x).s := by
  unfold openPhase0
  refine Within.iteS (refuse_within (sub hc) hs) ?_
  extract_lets +onlyGivenNames -merge -underBinder t
  have ht : Within cs s0 t := drawNonce_within (sub hc) hs
  clear_value t
  exact okay_within (sub hc) (State.setF_within (sub hc) (State.setSess_within (sub hc) ht))

theorem openPhase1_within {cs s0} {n v s c} (hc : [.regs, .jobs] ⊆ cs) (hs : Within cs s0 s) :
    Within cs s0 (openPhase1 n v s c).s := by
  unfold openPhase1
  extract_lets +onlyGivenNames -merge -underBinder key
  exact Within.iteS (sealBusy_within (sub hc) hs) (goesOn_within (sub hc) (sealPush_within (sub hc) hs))

theorem ownRevoke_within {cs s0} {s k} (hc : [.regs, .burn] ⊆ cs) (hs : Within cs s0 s) :
    Within cs s0 (ownRevoke s k) := by
  unfold ownRevoke
  extract_lets +onlyGivenNames -merge -underBinder last
  exact Within.ite hs (Within.ite (ownResult_within (sub hc) hs) (Within.ite (ownResult_within (sub hc) hs) (fuseBegin_within (sub hc) hs)))

theorem ownGo_within {cs s0} {s k} (hc : [.regs, .burn] ⊆ cs) (hs : Within cs s0 s) :
    Within cs s0 (ownGo s k) := by
  unfold ownGo
  exact Within.ite hs (Within.ite (ownResult_within (sub hc) hs) (Within.ite (ownResult_within (sub hc) hs) (fuseBegin_within (sub hc) hs)))

theorem ownCtrlWrite_within {cs s0} {go revoke slot s} (hc : [.regs, .burn] ⊆ cs) (hs : Within cs s0 s) :
    Within cs s0 (ownCtrlWrite go revoke slot s) := by
  unfold ownCtrlWrite
  extract_lets +onlyGivenNames -merge -underBinder s1
  have hs1 : Within cs s0 s1 := State.setF_within (sub hc) hs
  clear_value s1
  exact Within.ite (ownGo_within (sub hc) hs1) (Within.ite (ownRevoke_within (sub hc) hs1) hs1)

theorem vendorRevoke_within {cs s0} {s n} (hc : [.regs, .burn] ⊆ cs) (hs : Within cs s0 s) :
    Within cs s0 (vendorRevoke s n) := by
  unfold vendorRevoke
  exact Within.ite hs (Within.ite (ownResult_within (sub hc) hs) (Within.ite (ownResult_within (sub hc) hs) (fuseBegin_within (sub hc) hs)))

theorem vrevWrite_within {cs s0} {v s} (hc : [.regs, .burn] ⊆ cs) (hs : Within cs s0 s) :
    Within cs s0 (vrevWrite v s) := by
  unfold vrevWrite
  exact Within.foldl hs (fun t a ht => vendorRevoke_within (sub hc) ht)

theorem rngFail_within {cs s0} {s} (hc : [.regs, .offers] ⊆ cs) (hs : Within cs s0 s) :
    Within cs s0 (rngFail s) := by
  unfold rngFail
  exact Within.ite hs (State.log_within (sub hc) (State.setB_within (sub hc) hs))

theorem unlockDone_within {cs s0} {s j} (hc : [.regs, .offers, .sess, .inkwell, .msix, .sea] ⊆ cs) (hs : Within cs s0 s) :
    Within cs s0 (unlockDone s j) := by
  unfold unlockDone
  extract_lets +onlyGivenNames -merge -underBinder sg
  extract_lets +onlyGivenNames -merge -underBinder dur
  extract_lets +onlyGivenNames -merge -underBinder w s1
  have hs1 : Within cs s0 s1 := Within.ite (State.setSess_within (sub hc) hs) hs
  clear_value s1
  refine Within.ite (postHead_within (sub hc) hs1) ?_
  refine Within.ite ?_ (postHead_within (sub hc) (State.log_within (sub hc) (State.incS_within (sub hc) hs1)))
  extract_lets +onlyGivenNames -merge -underBinder s2
  have hs2 : Within cs s0 s2 := State.setFs_within (sub hc) hs1
  clear_value s2
  extract_lets +onlyGivenNames -merge -underBinder w_1 s3
  have hs3 : Within cs s0 s3 := Within.put_sea_unlockEnd (sub hc) hs2
  clear_value s3
  exact postHead_within (sub hc) (stylusCheck_within (sub hc) (State.log_within (sub hc) hs3))

theorem unlockBody_within {cs s0} {n phase v s c} (hc : [.freeCtr, .regs, .sess, .inkwell, .jobs] ⊆ cs) (hs : Within cs s0 s) :
    Within cs s0 (unlockBody n phase v s c).s := by
  unfold unlockBody
  extract_lets +onlyGivenNames -merge -underBinder dur
  extract_lets +onlyGivenNames -merge -underBinder fresh
  refine Within.iteS (refuse_within (sub hc) hs) ?_
  refine Within.iteS (refuse_within (sub hc) hs) ?_
  refine Within.iteS (refuse_within (sub hc) hs) ?_
  refine Within.iteS (Within.iteS (sealBusy_within (sub hc) hs) (goesOn_within (sub hc) (sealPush_within (sub hc) hs))) ?_
  refine Within.iteS (refuse_within (sub hc) hs) ?_
  extract_lets +onlyGivenNames -merge -underBinder t
  have ht : Within cs s0 t := drawNonce_within (sub hc) hs
  clear_value t
  exact okay_within (sub hc) (State.setSess_within (sub hc) ht)

theorem unlockExpiry_within {cs s0} {s} (hc : [.regs, .offers, .sea] ⊆ cs) (hs : Within cs s0 s) :
    Within cs s0 (unlockExpiry s) := by
  unfold unlockExpiry
  split
  · exact Within.ite (unlockEnds_within (sub hc) hs) hs
  · exact hs

end Sys2Proof.Machine
end

