-- ==== Sys2Proof/Laws/RegFile.lean ====
section
/-! SUPPORT. What each operation of Machine/RegFile.lean can change: one lemma per operation, cited in place of unfolding it. -/

namespace Sys2Proof.Machine

set_option Elab.async false

theorem readLatch_within {cs s0} {s r a} (hc : [.clk] ⊆ cs) (hs : Within cs s0 s) :
    Within cs s0 (readLatch s r a) := by
  unfold readLatch
  exact Within.ite (dtcSnapshot_within (sub hc) hs) (lowWordRead_within (sub hc) hs)

theorem clearOnes_within {cs s0} {s a r ones} (hc : [.regs] ⊆ cs) (hs : Within cs s0 s) :
    Within cs s0 (clearOnes s a r ones) := by
  unfold clearOnes
  extract_lets +onlyGivenNames -merge -underBinder s1
  have hs1 : Within cs s0 s1 := State.wr_within (sub hc) hs
  clear_value s1
  exact Within.foldl hs1 (fun t a_1 ht => Within.ite ht (State.setF_within (sub hc) ht))

theorem loadReg_within {cs s0} {s p} (hc : [.regs] ⊆ cs) (hs : Within cs s0 s) :
    Within cs s0 (loadReg s p) := by
  unfold loadReg
  split
  · exact Within.ite hs (State.wr_within (sub hc) hs)
  · exact hs

theorem loadRegs_within {cs s0} {s l} (hc : [.regs] ⊆ cs) (hs : Within cs s0 s) :
    Within cs s0 (loadRegs s l) := by
  unfold loadRegs
  exact Within.foldl hs (fun t a ht => loadReg_within (sub hc) ht)

theorem plainWrite_within {cs s0} {s a r mask v} (hc : [.regs] ⊆ cs) (hs : Within cs s0 s) :
    Within cs s0 (plainWrite s a r mask v) := by
  unfold plainWrite
  extract_lets +onlyGivenNames -merge -underBinder m
  extract_lets +onlyGivenNames -merge -underBinder new
  extract_lets +onlyGivenNames -merge -underBinder s1
  have hs1 : Within cs s0 s1 := Within.ite hs (State.wr_within (sub hc) hs)
  clear_value s1
  exact clearOnes_within (sub hc) hs1

theorem readReg_within {cs s0} {s r a} (hc : [.clk] ⊆ cs) (hs : Within cs s0 s) :
    Within cs s0 (readReg s r a).2 := by
  unfold readReg
  extract_lets +onlyGivenNames -merge -underBinder t
  have ht : Within cs s0 t := readLatch_within (sub hc) hs
  clear_value t
  exact ht

end Sys2Proof.Machine
end

