-- ==== Sys2Proof/Laws/Station.lean ====
section
/-! SUPPORT. What each operation of Machine/Station.lean can change: one lemma per operation, cited in place of unfolding it. -/

namespace Sys2Proof.Machine

set_option Elab.async false

theorem State.setGp_within {cs s0} {s g x} (hc : [.gp] ⊆ cs) (hs : Within cs s0 s) :
    Within cs s0 (State.setGp s g x) := by
  unfold State.setGp
  exact Within.put_duc_gp (sub hc) hs

theorem gpSend_within {cs s0} {s g prio st sq k x} (hc : [.regs, .port, .pair, .gp] ⊆ cs) (hs : Within cs s0 s) :
    Within cs s0 (gpSend s g prio st sq k x) := by
  unfold gpSend
  extract_lets +onlyGivenNames -merge -underBinder s1
  have hs1 : Within cs s0 s1 := State.wr_within (sub hc) (State.wr_within (sub hc) hs)
  clear_value s1
  extract_lets +onlyGivenNames -merge -underBinder s2
  have hs2 : Within cs s0 s2 := State.setGp_within (sub hc) (State.setB_within (sub hc) hs1)
  clear_value s2
  exact sendPairs_within (sub hc) hs2

theorem gpNewState_within {cs s0} {s g x} (hc : [.regs, .port, .pair, .gp] ⊆ cs) (hs : Within cs s0 s) :
    Within cs s0 (gpNewState s g x) := by
  unfold gpNewState
  exact gpSend_within (sub hc) (State.incW_within (sub hc) hs)

theorem gpBegin_within {cs s0} {s g} (hc : [.regs, .port, .pair, .gp] ⊆ cs) (hs : Within cs s0 s) :
    Within cs s0 (gpBegin s g) := by
  unfold gpBegin
  extract_lets +onlyGivenNames -merge -underBinder img
  extract_lets +onlyGivenNames -merge -underBinder x
  exact gpNewState_within (sub hc) (State.wr_within (sub hc) hs)

theorem gpStart_within {cs s0} {s} (hc : [.regs, .port, .pair, .gp] ⊆ cs) (hs : Within cs s0 s) :
    Within cs s0 (gpStart s) := by
  unfold gpStart
  exact Within.foldl hs (fun t a ht => Within.ite (gpBegin_within (sub hc) ht) ht)

theorem gpCommit_within {cs s0} {s g} (hc : [.regs, .offers, .sess, .inkwell, .msix, .live, .gp, .committing, .commit] ⊆ cs) (hs : Within cs s0 s) :
    Within cs s0 (gpCommit s g) := by
  unfold gpCommit
  extract_lets +onlyGivenNames -merge -underBinder s1
  have hs1 : Within cs s0 s1 := takeCommit_within (sub hc) (takeCommit_within (sub hc) hs)
  clear_value s1
  exact Within.ite hs1 (State.setGp_within (sub hc) hs1)

theorem gpTakePv_within {cs s0} {s g ns tq} (hc : [.regs, .port, .pair, .gp] ⊆ cs) (hs : Within cs s0 s) :
    Within cs s0 (gpTakePv s g ns tq) := by
  unfold gpTakePv
  extract_lets +onlyGivenNames -merge -underBinder x
  exact pvNoteAt_within (sub hc) (gpNewState_within (sub hc) hs)

theorem gpTakeReq_within {cs s0} {s g r} (hc : [.regs, .port, .pair, .pub, .gp] ⊆ cs) (hs : Within cs s0 s) :
    Within cs s0 (gpTakeReq s g r) := by
  unfold gpTakeReq
  extract_lets +onlyGivenNames -merge -underBinder w s1
  have hs1 : Within cs s0 s1 := Within.put_stk_pubOut (sub hc) hs
  clear_value s1
  exact gpNewState_within (sub hc) hs1

theorem gooseNewState_within {cs s0} {s01 g} (hc : [.regs, .offers, .sess, .inkwell, .msix, .port, .pair, .live, .pub, .gp, .committing, .commit] ⊆ cs) (hs01 : Within cs s0 s01) :
    Within cs s0 (gooseNewState s01 g) := by
  unfold gooseNewState
  extract_lets +onlyGivenNames -merge -underBinder asked
  extract_lets +onlyGivenNames -merge -underBinder s
  have hs : Within cs s0 s := Within.ite (gpCommit_within (sub hc) hs01) hs01
  clear_value s
  refine Within.ite ?_ hs
  split
  · exact Within.ite (gpTakeReq_within (sub hc) hs) (gpTakePv_within (sub hc) hs)
  · exact gpTakeReq_within (sub hc) hs
  · exact gpTakePv_within (sub hc) hs
  · exact hs

theorem gooseRepetition_within {cs s0} {s01 g} (hc : [.regs, .offers, .sess, .inkwell, .msix, .port, .pair, .live, .gp, .committing, .commit] ⊆ cs) (hs01 : Within cs s0 s01) :
    Within cs s0 (gooseRepetition s01 g) := by
  unfold gooseRepetition
  extract_lets +onlyGivenNames -merge -underBinder due
  extract_lets +onlyGivenNames -merge -underBinder s
  have hs : Within cs s0 s := Within.ite (gpCommit_within (sub hc) hs01) hs01
  clear_value s
  exact Within.ite (gpSend_within (sub hc) hs) hs

end Sys2Proof.Machine
end

