-- ==== Sys2Proof/Laws/Start.lean ====
section
/-! SUPPORT. What each operation of Machine/Start.lean can change: one lemma per operation, cited in place of unfolding it. -/

namespace Sys2Proof.Machine

set_option Elab.async false

theorem wf_resetRegs : Tab.wf resetRegs = true := by decide +kernel

theorem wf_regsAfter (warm : Bool) (s : State) : Tab.wf (regsAfter warm s) = true := by
  have go : ∀ (l : Tab Word) (t : Tab Word), Tab.wf t = true → Tab.wf (l.foldl (fun (t : Tab Word) (p : Nat × Word) =>
      let m := BitVec.ofNat 32 (keepMask warm p.1)
      if m = 0 then t else t.set p.1 ((t.get p.1 &&& ~~~m) ||| (p.2 &&& m))) t) = true := by
    intro l
    induction l with
    | nil => exact fun _ h => h
    | cons p l ih =>
      intro t h
      refine ih _ ?_
      dsimp only
      split
      · exact h
      · exact Tab.wf_set _ _ _ h
  exact go s.regs resetRegs wf_resetRegs

theorem unitsReset_within {cs s0} {warm s} (hc : [.regs, .sess, .inkwell, .dram, .msix, .hst, .pair, .sc, .gs, .svq, .gq, .pbi, .sweep, .fuse, .mem, .cv, .wd, .afe, .eng, .live, .stamps, .toStroke, .ctxHa, .gp, .duc, .run, .load, .sw, .force, .qil, .jobs, .burn, .sea, .modePend, .staged, .committing, .commit, .startDue, .sys] ⊆ cs) (hs : Within cs s0 s) :
    Within cs s0 (unitsReset warm s) := by
  unfold unitsReset
  exact Within.upd (s := s) hs (fun c => by cases c <;> first | exact .inl (hc (by decide)) | exact .inr rfl)
    (fun h => ⟨wf_regsAfter warm s, rfl, by cases warm <;> first | rfl | exact h.2.2⟩)

theorem bulkSize_within {cs s0} {s} (hc : [.regs] ⊆ cs) (hs : Within cs s0 s) :
    Within cs s0 (bulkSize s) := by
  unfold bulkSize
  exact Within.ite (State.wr_within (sub hc) (State.wr_within (sub hc) hs)) hs

theorem coldReset_within {cs s0} {s} (hc : [.regs, .clk, .dom, .ptp, .ptpIn, .offers, .freeze, .scr, .sess, .inkwell, .dram, .msix, .hst, .pair, .sc, .gs, .svq, .gq, .pbi, .recs, .exporting, .vel, .sweep, .fuse, .mem, .cv, .wd, .afe, .eng, .live, .stamps, .toStroke, .ctxHa, .gp, .duc, .run, .load, .sw, .force, .qil, .fc, .jobs, .burn, .sea, .pkg, .dbg, .modePend, .staged, .committing, .commit, .startDue, .sys] ⊆ cs) (hs : Within cs s0 s) :
    Within cs s0 (coldReset s) := by
  unfold coldReset
  extract_lets +onlyGivenNames -merge -underBinder n
  extract_lets +onlyGivenNames -merge -underBinder loss
  extract_lets +onlyGivenNames -merge -underBinder w w_1 w_2 s1
  have hs1 : Within cs s0 s1 := unitsReset_within (sub hc) (Within.upd (s := s) (t := { s with pkg := _, dbg := _, sys := _ }) hs (fun c => by cases c <;> first | exact .inl (hc (by decide)) | exact .inr rfl) (fun h => ⟨h.1, h.2.1, h.2.2⟩))
  clear_value s1
  extract_lets +onlyGivenNames -merge -underBinder w_3 w_4 w_5 w_6 s2
  have hs2 : Within cs s0 s2 := Within.upd (s := s1) (t := { s1 with rul := _, scr := _, mem := _, sys := _ }) hs1 (fun c => by cases c <;> first | exact .inl (hc (by decide)) | exact .inr rfl) (fun h => ⟨h.1, h.2.1, h.2.2⟩)
  clear_value s2
  exact bulkSize_within (sub hc) (velCold_within (sub hc) (fioShift_within (sub hc) (State.incS_within (sub hc) hs2)))

theorem logFails_within {cs s0} {s} (hc : [.offers, .sys] ⊆ cs) (hs : Within cs s0 s) :
    Within cs s0 (logFails s) := by
  unfold logFails
  extract_lets +onlyGivenNames -merge -underBinder s1
  have hs1 : Within cs s0 s1 := Within.ite (State.log_within (sub hc) hs) hs
  clear_value s1
  extract_lets +onlyGivenNames -merge -underBinder s2
  have hs2 : Within cs s0 s2 := Within.foldl hs1 (fun t a ht => State.log_within (sub hc) ht)
  clear_value s2
  exact Within.put_sys_fails (sub hc) hs2

theorem faultSafe_within {cs s0} {s step} (hc : [.regs, .offers, .msix, .pbi, .recs, .vel, .so, .logicQ, .pub, .waits, .stk, .dl, .dbg, .sys] ⊆ cs) (hs : Within cs s0 s) :
    Within cs s0 (faultSafe s step) := by
  unfold faultSafe
  exact State.log_within (sub hc) (logFails_within (sub hc) (enterState_within (sub hc) hs))

theorem flashAbort_within {cs s0} {s} (hc : [.regs, .offers, .sys] ⊆ cs) (hs : Within cs s0 s) :
    Within cs s0 (flashAbort s) := by
  unfold flashAbort
  refine Within.ite ?_ (State.setF_within (sub hc) hs)
  extract_lets +onlyGivenNames -merge -underBinder bank
  extract_lets +onlyGivenNames -merge -underBinder y
  extract_lets +onlyGivenNames -merge -underBinder s1
  have hs1 : Within cs s0 s1 := Within.upd (s := s) (t := { s with sys := _ }) hs (fun c => by cases c <;> first | exact .inl (hc (by decide)) | exact .inr rfl) (fun h => ⟨h.1, h.2.1, h.2.2⟩)
  clear_value s1
  exact State.log_within (sub hc) (State.setFs_within (sub hc) hs1)

theorem endJobs_within {cs s0} {s} (hc : [.regs, .offers, .sweep, .fuse, .mem, .startDue, .sys] ⊆ cs) (hs : Within cs s0 s) :
    Within cs s0 (endJobs s) := by
  unfold endJobs
  extract_lets +onlyGivenNames -merge -underBinder s1
  have hs1 : Within cs s0 s1 := flashAbort_within (sub hc) hs
  clear_value s1
  extract_lets +onlyGivenNames -merge -underBinder w s2
  have hs2 : Within cs s0 s2 := Within.put_mem_sweep_fuse (sub hc) hs1
  clear_value s2
  exact State.setFs_within (sub hc) (Within.put_sys_svcAt_startDue (sub hc) hs2)

theorem endService_within {cs s0} {s new orders} (hc : [.regs, .ptp, .ptpIn, .offers, .freeze, .scr, .sess, .msix, .port, .pair, .sc, .gs, .svq, .gq, .pbi, .recs, .exporting, .vel, .sweep, .fuse, .cv, .wd, .afe, .so, .logicQ, .pub, .waits, .stk, .dl, .gp, .run, .load, .sw, .force, .qil, .fc, .grp, .jobs, .sea, .dbg, .modePend, .staged, .commit] ⊆ cs) (hs : Within cs s0 s) :
    Within cs s0 (endService s new orders) := by
  unfold endService
  extract_lets +onlyGivenNames -merge -underBinder was
  extract_lets +onlyGivenNames -merge -underBinder inTest
  extract_lets +onlyGivenNames -merge -underBinder s1
  have hs1 : Within cs s0 s1 := Within.ite (mscFall_within (sub hc) hs) hs
  clear_value s1
  extract_lets +onlyGivenNames -merge -underBinder s2
  have hs2 : Within cs s0 s2 := Within.ite (State.log_within (sub hc) (State.setFs_within (sub hc) hs1)) hs1
  clear_value s2
  extract_lets +onlyGivenNames -merge -underBinder s2a
  have hs2a : Within cs s0 s2a := stagingAbort_within (sub hc) hs2
  clear_value s2a
  extract_lets +onlyGivenNames -merge -underBinder s3
  have hs3 : Within cs s0 s3 := Within.ite (grantEnd_within (sub hc) hs2a) (grantEnd_within (sub hc) (unlockEnds_within (sub hc) hs2a))
  clear_value s3
  extract_lets +onlyGivenNames -merge -underBinder s4
  have hs4 : Within cs s0 s4 := enterState_within (sub hc) hs3
  clear_value s4
  extract_lets +onlyGivenNames -merge -underBinder s5
  have hs5 : Within cs s0 s5 := Within.ite (quillLeave_within (sub hc) hs4) hs4
  clear_value s5
  extract_lets +onlyGivenNames -merge -underBinder s6
  have hs6 : Within cs s0 s6 := Within.ite (fioStop_within (sub hc) hs5) hs5
  clear_value s6
  exact portsStop_within (sub hc) (afeStop_within (sub hc) (closeSessions_within (sub hc) hs6))

theorem beginCold_within {cs s0} {s type bFirst orders} (hc : [.regs, .ptp, .ptpIn, .offers, .freeze, .scr, .sess, .msix, .port, .pair, .sc, .gs, .svq, .gq, .pbi, .recs, .exporting, .vel, .sweep, .fuse, .mem, .cv, .wd, .afe, .so, .logicQ, .pub, .waits, .stk, .dl, .gp, .run, .load, .sw, .force, .qil, .fc, .grp, .jobs, .sea, .dbg, .modePend, .staged, .commit, .startDue, .sys] ⊆ cs) (hs : Within cs s0 s) :
    Within cs s0 (beginCold s type bFirst orders) := by
  unfold beginCold
  extract_lets +onlyGivenNames -merge -underBinder s0_1
  have hs0_1 : Within cs s0 s0_1 := scriptStart_within (sub hc) (State.setF_within (sub hc) hs)
  clear_value s0_1
  extract_lets +onlyGivenNames -merge -underBinder s1
  have hs1 : Within cs s0 s1 := endService_within (sub hc) (endJobs_within (sub hc) hs0_1)
  clear_value s1
  extract_lets +onlyGivenNames -merge -underBinder s2
  have hs2 : Within cs s0 s2 := State.setFs_within (sub hc) hs1
  clear_value s2
  exact jtagLeaveReset_within (sub hc) (Within.put_sys_trigAt_attempt_bFirst (sub hc) hs2)

theorem warmFail_within {cs s0} {s} (hc : [.regs, .ptp, .ptpIn, .offers, .freeze, .scr, .sess, .msix, .port, .pair, .sc, .gs, .svq, .gq, .pbi, .recs, .exporting, .vel, .sweep, .fuse, .mem, .cv, .wd, .afe, .so, .logicQ, .pub, .waits, .stk, .dl, .gp, .run, .load, .sw, .force, .qil, .fc, .grp, .jobs, .sea, .dbg, .modePend, .staged, .commit, .startDue, .sys] ⊆ cs) (hs : Within cs s0 s) :
    Within cs s0 (warmFail s) := by
  unfold warmFail
  extract_lets +onlyGivenNames -merge -underBinder s1
  have hs1 : Within cs s0 s1 := State.incS_within (sub hc) hs
  clear_value s1
  exact Within.ite (beginCold_within (sub hc) hs1) hs1

theorem liveLost_within {cs s0} {s epoch} (hc : [.regs, .offers, .msix, .sys] ⊆ cs) (hs : Within cs s0 s) :
    Within cs s0 (liveLost s epoch) := by
  unfold liveLost
  refine Within.ite ?_ (State.setB_within (sub hc) hs)
  extract_lets +onlyGivenNames -merge -underBinder w s1
  have hs1 : Within cs s0 s1 := State.setB_within (sub hc) (Within.put_sys_committed (sub hc) hs)
  clear_value s1
  exact State.log_within (sub hc) (State.health_within (sub hc) hs1)

theorem serviceHold_within {cs s0} {s} (hc : [.regs, .offers, .msix, .pbi, .recs, .vel, .so, .logicQ, .pub, .waits, .stk, .dl, .dbg, .sys] ⊆ cs) (hs : Within cs s0 s) :
    Within cs s0 (serviceHold s) := by
  unfold serviceHold
  extract_lets +onlyGivenNames -merge -underBinder epoch
  extract_lets +onlyGivenNames -merge -underBinder s1
  have hs1 : Within cs s0 s1 := enterState_within (sub hc) (State.wr_within (sub hc) (State.wr_within (sub hc) hs))
  clear_value s1
  exact liveLost_within (sub hc) (State.log_within (sub hc) (logFails_within (sub hc) hs1))

theorem coldSpoilt_within {cs s0} {s} (hc : [.regs, .clk, .dom, .ptp, .ptpIn, .offers, .freeze, .scr, .sess, .inkwell, .dram, .msix, .hst, .port, .pair, .sc, .gs, .svq, .gq, .pbi, .recs, .exporting, .vel, .sweep, .fuse, .mem, .cv, .wd, .afe, .eng, .live, .stamps, .toStroke, .ctxHa, .so, .logicQ, .pub, .waits, .stk, .dl, .gp, .duc, .run, .load, .sw, .force, .qil, .fc, .grp, .jobs, .burn, .sea, .pkg, .dbg, .modePend, .staged, .committing, .commit, .startDue, .sys] ⊆ cs) (hs : Within cs s0 s) :
    Within cs s0 (coldSpoilt s) := by
  unfold coldSpoilt
  extract_lets +onlyGivenNames -merge -underBinder y
  extract_lets +onlyGivenNames -merge -underBinder entry
  extract_lets +onlyGivenNames -merge -underBinder s1
  have hs1 : Within cs s0 s1 := State.incS_within (sub hc) (beginCold_within (sub hc) hs)
  clear_value s1
  extract_lets +onlyGivenNames -merge -underBinder w s2
  have hs2 : Within cs s0 s2 := Within.put_sys_attempt_fails (sub hc) hs1
  clear_value s2
  exact Within.ite (serviceHold_within (sub hc) (coldReset_within (sub hc) hs2)) hs2

theorem fatalFault_within {cs s0} {s} (hc : [.freeCtr, .regs, .clk, .dom, .ptp, .ptpIn, .offers, .freeze, .scr, .sess, .inkwell, .dram, .msix, .hst, .port, .pair, .sc, .gs, .svq, .gq, .pbi, .recs, .exporting, .vel, .sweep, .fuse, .mem, .cv, .wd, .afe, .eng, .live, .stamps, .toStroke, .ctxHa, .so, .logicQ, .pub, .waits, .stk, .dl, .gp, .duc, .run, .load, .sw, .force, .qil, .fc, .grp, .jobs, .burn, .sea, .pkg, .dbg, .modePend, .staged, .committing, .commit, .startDue, .sys] ⊆ cs) (hs : Within cs s0 s) :
    Within cs s0 (fatalFault s) := by
  unfold fatalFault
  refine Within.ite ?_ (Within.ite (warmFail_within (sub hc) hs) (Within.ite (faultSafe_within (sub hc) (coldReset_within (sub hc) (Within.upd (s := s) (t := { s with freeCtr := _ }) hs (fun c => by cases c <;> first | exact .inl (hc (by decide)) | exact .inr rfl) (fun h => ⟨h.1, h.2.1, h.2.2⟩)))) hs))
  extract_lets +onlyGivenNames -merge -underBinder early
  exact Within.ite (coldSpoilt_within (sub hc) hs) (beginCold_within (sub hc) hs)

theorem warmDomain_within {cs s0} {s d} (hc : [.regs, .dom] ⊆ cs) (hs : Within cs s0 s) :
    Within cs s0 (warmDomain s d) := by
  unfold warmDomain
  extract_lets +onlyGivenNames -merge -underBinder s1
  have hs1 : Within cs s0 s1 := Within.ite (enterHoldover_within (sub hc) hs) hs
  clear_value s1
  exact State.setB_within (sub hc) (State.setDom_within (sub hc) hs1)

theorem beginWarm_within {cs s0} {s type orders} (hc : [.regs, .clk, .dom, .ptp, .ptpIn, .offers, .freeze, .scr, .sess, .msix, .port, .pair, .sc, .gs, .svq, .gq, .pbi, .recs, .exporting, .vel, .sweep, .fuse, .mem, .cv, .wd, .afe, .so, .logicQ, .pub, .waits, .stk, .dl, .gp, .run, .load, .sw, .force, .qil, .fc, .grp, .jobs, .sea, .dbg, .modePend, .staged, .commit, .startDue, .sys] ⊆ cs) (hs : Within cs s0 s) :
    Within cs s0 (beginWarm s type orders) := by
  unfold beginWarm
  extract_lets +onlyGivenNames -merge -underBinder s1
  have hs1 : Within cs s0 s1 := scriptStart_within (sub hc) hs
  clear_value s1
  extract_lets +onlyGivenNames -merge -underBinder s2
  have hs2 : Within cs s0 s2 := endService_within (sub hc) (endJobs_within (sub hc) hs1)
  clear_value s2
  extract_lets +onlyGivenNames -merge -underBinder s3
  have hs3 : Within cs s0 s3 := rulSettle_within (sub hc) (Within.foldl hs2 (fun t a ht => warmDomain_within (sub hc) ht))
  clear_value s3
  extract_lets +onlyGivenNames -merge -underBinder s4
  have hs4 : Within cs s0 s4 := State.setFs_within (sub hc) hs3
  clear_value s4
  extract_lets +onlyGivenNames -merge -underBinder s5
  have hs5 : Within cs s0 s5 := Within.ite (State.health_within (sub hc) hs4) hs4
  clear_value s5
  exact Within.put_sys_trigAt (sub hc) hs5

theorem warmTrigger_within {cs s0} {s type orders} (hc : [.regs, .clk, .dom, .ptp, .ptpIn, .offers, .freeze, .scr, .sess, .msix, .port, .pair, .sc, .gs, .svq, .gq, .pbi, .recs, .exporting, .vel, .sweep, .fuse, .mem, .cv, .wd, .afe, .so, .logicQ, .pub, .waits, .stk, .dl, .gp, .run, .load, .sw, .force, .qil, .fc, .grp, .jobs, .sea, .dbg, .modePend, .staged, .commit, .startDue, .sys] ⊆ cs) (hs : Within cs s0 s) :
    Within cs s0 (warmTrigger s type orders) := by
  unfold warmTrigger
  exact Within.ite (beginCold_within (sub hc) hs) (beginWarm_within (sub hc) hs)

theorem coreLost_within {cs s0} {s} (hc : [.regs, .pkg] ⊆ cs) (hs : Within cs s0 s) :
    Within cs s0 (coreLost s) := by
  unfold coreLost
  extract_lets +onlyGivenNames -merge -underBinder v
  have hv : Within cs s0 v := State.setF_within (sub hc) hs
  skip
  exact Within.put_pkg_vcoreAt (sub hc) hv

theorem coldFail_within {cs s0} {s cause} (hc : [.regs, .offers, .msix, .pbi, .recs, .vel, .so, .logicQ, .pub, .waits, .stk, .dl, .dbg, .sys] ⊆ cs) (hs : Within cs s0 s) :
    Within cs s0 (coldFail s cause) := by
  unfold coldFail
  extract_lets +onlyGivenNames -merge -underBinder y
  extract_lets +onlyGivenNames -merge -underBinder s1
  have hs1 : Within cs s0 s1 := State.setF_within (sub hc) (State.incS_within (sub hc) hs)
  clear_value s1
  extract_lets +onlyGivenNames -merge -underBinder w s2
  have hs2 : Within cs s0 s2 := Within.put_sys_attempt_fails (sub hc) hs1
  clear_value s2
  exact Within.ite (serviceHold_within (sub hc) hs2) hs2

theorem brownOut_within {cs s0} {s} (hc : [.regs, .clk, .dom, .ptp, .ptpIn, .offers, .freeze, .scr, .sess, .inkwell, .dram, .msix, .hst, .port, .pair, .sc, .gs, .svq, .gq, .pbi, .recs, .exporting, .vel, .sweep, .fuse, .mem, .cv, .wd, .afe, .eng, .live, .stamps, .toStroke, .ctxHa, .so, .logicQ, .pub, .waits, .stk, .dl, .gp, .duc, .run, .load, .sw, .force, .qil, .fc, .grp, .jobs, .burn, .sea, .pkg, .dbg, .modePend, .staged, .committing, .commit, .startDue, .sys] ⊆ cs) (hs : Within cs s0 s) :
    Within cs s0 (brownOut s) := by
  unfold brownOut
  extract_lets +onlyGivenNames -merge -underBinder t
  have ht : Within cs s0 t := coreLost_within (sub hc) hs
  clear_value t
  refine Within.ite (warmTrigger_within (sub hc) ht) ?_
  refine Within.ite (warmFail_within (sub hc) ht) ?_
  refine Within.ite ?_ ht
  extract_lets +onlyGivenNames -merge -underBinder u
  have hu : Within cs s0 u := coldFail_within (sub hc) (coldReset_within (sub hc) ht)
  clear_value u
  exact Within.put_sys_brown (sub hc) hu

theorem noteLoadUe_within {cs s0} {s f cause} (hc : [.regs, .offers, .msix] ⊆ cs) (hs : Within cs s0 s) :
    Within cs s0 (noteLoadUe s f cause) := by
  unfold noteLoadUe
  extract_lets +onlyGivenNames -merge -underBinder note
  have hnote : ∀ note0, Within cs s0 note0 → ∀ note1, Within cs s0 (note note0 note1) := by
    intro note0 hnote0 note1
    unfold note
    exact Within.foldl hnote0 (fun t a ht => memUe_within (sub hc) ht)
  clear_value note
  extract_lets +onlyGivenNames -merge -underBinder s1
  have hs1 : Within cs s0 s1 := Within.ite (hnote _ hs _) hs
  clear_value s1
  exact Within.ite (hnote _ hs1 _) hs1

theorem enterService_within {cs s0} {s} (hc : [.regs, .offers, .msix, .port, .pair, .pbi, .recs, .vel, .cv, .wd, .afe, .so, .logicQ, .pub, .waits, .stk, .dl, .gp, .run, .force, .qil, .fc, .grp, .dbg] ⊆ cs) (hs : Within cs s0 s) :
    Within cs s0 (enterService s) := by
  unfold enterService
  extract_lets +onlyGivenNames -merge -underBinder s1
  have hs1 : Within cs s0 s1 := enterState_within (sub hc) hs
  clear_value s1
  extract_lets +onlyGivenNames -merge -underBinder s2
  have hs2 : Within cs s0 s2 := gpStart_within (sub hc) (quillEnter_within (sub hc) hs1)
  clear_value s2
  exact fcShowAll_within (sub hc) (fioResume_within (sub hc) (fioShowGroups_within (sub hc) (afeStart_within (sub hc) hs2)))

theorem reached_within {cs s0} {warm s epoch} (hc : [.regs, .offers, .msix, .port, .pair, .pbi, .recs, .vel, .cv, .wd, .afe, .so, .logicQ, .pub, .waits, .stk, .dl, .gp, .run, .force, .qil, .fc, .grp, .dbg, .sys] ⊆ cs) (hs : Within cs s0 s) :
    Within cs s0 (reached warm s epoch) := by
  unfold reached
  extract_lets +onlyGivenNames -merge -underBinder s1
  have hs1 : Within cs s0 s1 := State.setF_within (sub hc) hs
  clear_value s1
  extract_lets +onlyGivenNames -merge -underBinder s2
  have hs2 : Within cs s0 s2 := enterService_within (sub hc) hs1
  clear_value s2
  extract_lets +onlyGivenNames -merge -underBinder w s3
  have hs3 : Within cs s0 s3 := logFails_within (sub hc) (Within.put_sys_svcAt (sub hc) hs2)
  clear_value s3
  extract_lets +onlyGivenNames -merge -underBinder s4
  have hs4 : Within cs s0 s4 := Within.ite (State.log_within (sub hc) hs3) hs3
  clear_value s4
  exact State.log_within (sub hc) (liveLost_within (sub hc) hs4)

theorem loadContent_within {cs s0} {warm s c} (hc : [.regs, .hst, .pbi, .vel, .live, .ctxHa, .duc, .qil, .sys] ⊆ cs) (hs : Within cs s0 s) :
    Within cs s0 (loadContent warm s c) := by
  unfold loadContent
  extract_lets +onlyGivenNames -merge -underBinder words
  extract_lets +onlyGivenNames -merge -underBinder s1
  have hs1 : Within cs s0 s1 := loadRegs_within (sub hc) hs
  clear_value s1
  extract_lets +onlyGivenNames -merge -underBinder w w_1 w_2 w_3 w_4 w_5 s2
  have hs2 : Within cs s0 s2 := Within.upd (s := s1) (t := { s1 with pbi := _, vel := _, nib := _, duc := _, qil := _, sys := _ }) hs1 (fun c => by cases c <;> first | exact .inl (hc (by decide)) | exact .inr rfl) (fun h => ⟨h.1, h.2.1, h.2.2⟩)
  clear_value s2
  extract_lets +onlyGivenNames -merge -underBinder s3
  have hs3 : Within cs s0 s3 := Within.foldl hs2 (fun t a ht => State.setB_within (sub hc) ht)
  clear_value s3
  extract_lets +onlyGivenNames -merge -underBinder s4
  have hs4 : Within cs s0 s4 := Within.foldl hs3 (fun t a ht => State.setB_within (sub hc) ht)
  clear_value s4
  extract_lets +onlyGivenNames -merge -underBinder s5
  have hs5 : Within cs s0 s5 := Within.ite hs4 (Within.foldl hs4 (fun t a ht => State.setB_within (sub hc) ht))
  clear_value s5
  exact Within.put_hst_haExport_haAttest_haField (sub hc) hs5

theorem noteImage_within {cs s0} {s img} (hc : [.regs, .sea, .modePend, .staged, .committing, .commit, .startDue, .sys] ⊆ cs) (hs : Within cs s0 s) :
    Within cs s0 (noteImage s img) := by
  unfold noteImage
  extract_lets +onlyGivenNames -merge -underBinder s1
  have hs1 : Within cs s0 s1 := State.wr_within (sub hc) (State.wr_within (sub hc) hs)
  clear_value s1
  extract_lets +onlyGivenNames -merge -underBinder w s2
  have hs2 : Within cs s0 s2 := Within.put_sys_creds (sub hc) hs1
  clear_value s2
  exact Within.put_sea_sealedHash_keyIdx_vkey_fwVer_fwHash_folioLoaded_ownerPk_vendorPk (sub hc) hs2

theorem startContext_within {cs s0} {kept s c} (hc : [.regs, .nc, .modePend] ⊆ cs) (hs : Within cs s0 s) :
    Within cs s0 (startContext kept s c) := by
  unfold startContext
  refine Within.ite hs ?_
  extract_lets +onlyGivenNames -merge -underBinder v
  extract_lets +onlyGivenNames -merge -underBinder w s1
  have hs1 : Within cs s0 s1 := State.setNc_within (sub hc) hs
  clear_value s1
  extract_lets +onlyGivenNames -merge -underBinder s2
  have hs2 : Within cs s0 s2 := State.setB_within (sub hc) (noteCtrl_within (sub hc) hs1)
  clear_value s2
  exact Within.ite (Within.put_sys_modePend (sub hc) hs2) hs2

theorem startContexts_within {cs s0} {s kept} (hc : [.regs, .nc, .modePend] ⊆ cs) (hs : Within cs s0 s) :
    Within cs s0 (startContexts s kept) := by
  unfold startContexts
  extract_lets +onlyGivenNames -merge -underBinder k
  clear_value k
  exact Within.foldl (Within.put_nib_nc (sub hc) hs) (fun t a ht => startContext_within (sub hc) ht)

theorem startDomains_within {cs s0} {s} (hc : [.regs, .clk, .dom, .offers, .sc, .recs, .exporting, .vel] ⊆ cs) (hs : Within cs s0 s) :
    Within cs s0 (startDomains s) := by
  unfold startDomains
  extract_lets +onlyGivenNames -merge -underBinder s1
  have hs1 : Within cs s0 s1 := State.setFs_within (sub hc) hs
  clear_value s1
  exact Within.foldl hs1 (fun t a ht => sourceChanged_within (sub hc) ht)

theorem startUnits_within {cs s0} {warm s img kept} (hc : [.regs, .clk, .dom, .offers, .hst, .sc, .gs, .pbi, .recs, .exporting, .vel, .nc, .live, .ctxHa, .so, .logicQ, .vec, .pub, .waits, .stk, .dl, .gp, .duc, .run, .load, .sw, .force, .qil, .fc, .grp, .sea, .modePend, .staged, .committing, .commit, .startDue, .sys] ⊆ cs) (hs : Within cs s0 s) :
    Within cs s0 (startUnits warm s img kept) := by
  unfold startUnits
  extract_lets +onlyGivenNames -merge -underBinder s1
  have hs1 : Within cs s0 s1 := noteImage_within (sub hc) (loadContent_within (sub hc) hs)
  clear_value s1
  extract_lets +onlyGivenNames -merge -underBinder s2
  have hs2 : Within cs s0 s2 := startContexts_within (sub hc) (strokeStart_within (sub hc) hs1)
  clear_value s2
  extract_lets +onlyGivenNames -merge -underBinder s3
  have hs3 : Within cs s0 s3 := Within.ite (quillWarm_within (sub hc) hs2) (quillCold_within (sub hc) hs2)
  clear_value s3
  exact linksFollow_within (sub hc) (portsStart_within (sub hc) (linksStart_within (sub hc) (Within.ite hs3 (startDomains_within (sub hc) hs3))))

theorem coldUnits_within {cs s0} {s f bank img} (hc : [.regs, .clk, .dom, .offers, .msix, .hst, .port, .pair, .sc, .gs, .pbi, .recs, .exporting, .vel, .cv, .wd, .afe, .nc, .live, .ctxHa, .so, .logicQ, .vec, .pub, .waits, .stk, .dl, .gp, .duc, .run, .load, .sw, .force, .qil, .fc, .grp, .sea, .dbg, .modePend, .staged, .committing, .commit, .startDue, .sys] ⊆ cs) (hs : Within cs s0 s) :
    Within cs s0 (coldUnits s f bank img) := by
  unfold coldUnits
  refine Within.ite (faultSafe_within (sub hc) hs) ?_
  refine Within.ite (faultSafe_within (sub hc) hs) ?_
  extract_lets +onlyGivenNames -merge -underBinder epoch
  extract_lets +onlyGivenNames -merge -underBinder s1
  have hs1 : Within cs s0 s1 := startUnits_within (sub hc) hs
  clear_value s1
  exact reached_within (sub hc) (State.setB_within (sub hc) (State.setF_within (sub hc) hs1))

theorem coldLoad_within {cs s0} {s f bank} (hc : [.regs, .clk, .dom, .offers, .msix, .hst, .port, .pair, .sc, .gs, .pbi, .recs, .exporting, .vel, .cv, .wd, .afe, .nc, .live, .ctxHa, .so, .logicQ, .vec, .pub, .waits, .stk, .dl, .gp, .duc, .run, .load, .sw, .force, .qil, .fc, .grp, .sea, .dbg, .modePend, .staged, .committing, .commit, .startDue, .sys] ⊆ cs) (hs : Within cs s0 s) :
    Within cs s0 (coldLoad s f bank) := by
  unfold coldLoad
  split
  · exact coldUnits_within (sub hc) (noteLoadUe_within (sub hc) hs)
  · exact coldFail_within (sub hc) (noteLoadUe_within (sub hc) hs)

theorem coldTrained_within {cs s0} {s f} (hc : [.regs] ⊆ cs) (hs : Within cs s0 s) :
    Within cs s0 (coldTrained s f) := by
  unfold coldTrained
  exact State.setFs_within (sub hc) hs

theorem coldTested_within {cs s0} {s f} (hc : [.regs, .mem] ⊆ cs) (hs : Within cs s0 s) :
    Within cs s0 (coldTested s f) := by
  unfold coldTested
  exact State.setFs_within (sub hc) (Within.put_mem_factory (sub hc) hs)

theorem coldFused_within {cs s0} {s} (hc : [.mem] ⊆ cs) (hs : Within cs s0 s) :
    Within cs s0 (coldFused s) := by
  unfold coldFused
  exact Within.put_mem_factory (sub hc) hs

theorem coldAttempt_within {cs s0} {s01 f} (hc : [.regs, .clk, .dom, .ptp, .ptpIn, .offers, .freeze, .scr, .sess, .inkwell, .dram, .msix, .hst, .port, .pair, .sc, .gs, .svq, .gq, .pbi, .recs, .exporting, .vel, .sweep, .fuse, .mem, .cv, .wd, .afe, .eng, .nc, .live, .stamps, .toStroke, .ctxHa, .so, .logicQ, .vec, .pub, .waits, .stk, .dl, .gp, .duc, .run, .load, .sw, .force, .qil, .fc, .grp, .jobs, .burn, .sea, .pkg, .dbg, .modePend, .staged, .committing, .commit, .startDue, .sys] ⊆ cs) (hs01 : Within cs s0 s01) :
    Within cs s0 (coldAttempt s01 f) := by
  unfold coldAttempt
  extract_lets +onlyGivenNames -merge -underBinder s
  have hs : Within cs s0 s := coldReset_within (sub hc) hs01
  clear_value s
  refine Within.ite (faultSafe_within (sub hc) hs) ?_
  extract_lets +onlyGivenNames -merge -underBinder s1
  have hs1 : Within cs s0 s1 := coldFused_within (sub hc) hs
  clear_value s1
  refine Within.ite (faultSafe_within (sub hc) hs1) ?_
  extract_lets +onlyGivenNames -merge -underBinder s2
  have hs2 : Within cs s0 s2 := coldTested_within (sub hc) hs1
  clear_value s2
  refine Within.ite (faultSafe_within (sub hc) hs2) ?_
  extract_lets +onlyGivenNames -merge -underBinder s3
  have hs3 : Within cs s0 s3 := coldTrained_within (sub hc) hs2
  clear_value s3
  exact Within.ite (faultSafe_within (sub hc) hs3) (coldLoad_within (sub hc) hs3)

theorem coldStart_within {cs s0} {s f} (hc : [.regs, .clk, .dom, .ptp, .ptpIn, .offers, .freeze, .scr, .sess, .inkwell, .dram, .msix, .hst, .port, .pair, .sc, .gs, .svq, .gq, .pbi, .recs, .exporting, .vel, .sweep, .fuse, .mem, .cv, .wd, .afe, .eng, .nc, .live, .stamps, .toStroke, .ctxHa, .so, .logicQ, .vec, .pub, .waits, .stk, .dl, .gp, .duc, .run, .load, .sw, .force, .qil, .fc, .grp, .jobs, .burn, .sea, .pkg, .dbg, .modePend, .staged, .committing, .commit, .startDue, .sys] ⊆ cs) (hs : Within cs s0 s) :
    Within cs s0 (coldStart s f) := by
  unfold coldStart
  exact Within.ite (coldAttempt_within (sub hc) hs) hs

theorem enterReset_within {cs s0} {s} (hc : [.regs, .clk, .ptp, .ptpIn, .offers, .freeze, .scr, .sess, .msix, .hst, .port, .pair, .sc, .gs, .svq, .gq, .pbi, .recs, .exporting, .vel, .sweep, .fuse, .mem, .cv, .wd, .afe, .so, .logicQ, .pub, .waits, .stk, .dl, .gp, .run, .load, .sw, .force, .qil, .fc, .grp, .jobs, .sea, .dbg, .modePend, .staged, .commit, .startDue, .sys] ⊆ cs) (hs : Within cs s0 s) :
    Within cs s0 (enterReset s) := by
  unfold enterReset
  extract_lets +onlyGivenNames -merge -underBinder s1
  have hs1 : Within cs s0 s1 := quillEmpty_within (sub hc) (Within.ite hs (endService_within (sub hc) (endJobs_within (sub hc) hs)))
  clear_value s1
  extract_lets +onlyGivenNames -merge -underBinder w s2
  have hs2 : Within cs s0 s2 := Within.put_sys_brown (sub hc) (State.wr_within (sub hc) hs1)
  clear_value s2
  exact ppsGate_within (sub hc) (Within.put_hst_msix_cplValue_ep_spiOut (sub hc) hs2)

theorem startDue_within {cs s0} {s} (hc : [.regs, .clk, .dom, .ptp, .ptpIn, .offers, .freeze, .scr, .sess, .msix, .port, .pair, .sc, .gs, .svq, .gq, .pbi, .recs, .exporting, .vel, .sweep, .fuse, .mem, .cv, .wd, .afe, .so, .logicQ, .pub, .waits, .stk, .dl, .gp, .run, .load, .sw, .force, .qil, .fc, .grp, .jobs, .sea, .dbg, .modePend, .staged, .commit, .startDue, .sys] ⊆ cs) (hs : Within cs s0 s) :
    Within cs s0 (startDue s) := by
  unfold startDue
  split
  · exact Within.ite (Within.ite (Within.ite (beginCold_within (sub hc) hs) hs) (Within.ite (warmTrigger_within (sub hc) hs) hs)) hs
  · exact hs

theorem leaveReset_within {cs s0} {s} (hc : [.regs, .ptp, .ptpIn, .offers, .freeze, .scr, .sess, .msix, .port, .pair, .sc, .gs, .svq, .gq, .pbi, .recs, .exporting, .vel, .sweep, .fuse, .mem, .cv, .wd, .afe, .so, .logicQ, .pub, .waits, .stk, .dl, .gp, .run, .load, .sw, .force, .qil, .fc, .grp, .jobs, .sea, .dbg, .modePend, .staged, .commit, .startDue, .sys] ⊆ cs) (hs : Within cs s0 s) :
    Within cs s0 (leaveReset s) := by
  unfold leaveReset
  refine Within.ite (beginCold_within (sub hc) hs) ?_
  extract_lets +onlyGivenNames -merge -underBinder s1
  have hs1 : Within cs s0 s1 := State.wr_within (sub hc) (State.wr_within (sub hc) hs)
  clear_value s1
  exact beginCold_within (sub hc) (Within.put_sys_released (sub hc) hs1)

theorem powerOn_within {cs s0} {s} (hc : [.regs, .ptp, .ptpIn, .offers, .freeze, .scr, .sess, .msix, .port, .pair, .sc, .gs, .svq, .gq, .pbi, .recs, .exporting, .vel, .sweep, .fuse, .mem, .cv, .wd, .afe, .so, .logicQ, .pub, .waits, .stk, .dl, .gp, .run, .load, .sw, .force, .qil, .fc, .grp, .jobs, .sea, .pkg, .dbg, .modePend, .staged, .commit, .startDue, .sys] ⊆ cs) (hs : Within cs s0 s) :
    Within cs s0 (powerOn s) := by
  unfold powerOn
  refine Within.ite ?_ hs
  extract_lets +onlyGivenNames -merge -underBinder good
  extract_lets +onlyGivenNames -merge -underBinder w w_1 s1
  have hs1 : Within cs s0 s1 := Within.upd (s := s) (t := { s with pkg := _, sys := _ }) hs (fun c => by cases c <;> first | exact .inl (hc (by decide)) | exact .inr rfl) (fun h => ⟨h.1, h.2.1, h.2.2⟩)
  clear_value s1
  exact Within.ite (leaveReset_within (sub hc) hs1) hs1

theorem resetAssert_within {cs s0} {s} (hc : [.regs, .clk, .ptp, .ptpIn, .offers, .freeze, .scr, .sess, .msix, .hst, .port, .pair, .sc, .gs, .svq, .gq, .pbi, .recs, .exporting, .vel, .sweep, .fuse, .mem, .cv, .wd, .afe, .so, .logicQ, .pub, .waits, .stk, .dl, .gp, .run, .load, .sw, .force, .qil, .fc, .grp, .jobs, .sea, .dbg, .modePend, .staged, .commit, .startDue, .sys] ⊆ cs) (hs : Within cs s0 s) :
    Within cs s0 (resetAssert s) := by
  unfold resetAssert
  exact enterReset_within (sub hc) (Within.put_sys_resetN (sub hc) hs)

theorem resetRelease_within {cs s0} {s} (hc : [.regs, .ptp, .ptpIn, .offers, .freeze, .scr, .sess, .msix, .port, .pair, .sc, .gs, .svq, .gq, .pbi, .recs, .exporting, .vel, .sweep, .fuse, .mem, .cv, .wd, .afe, .so, .logicQ, .pub, .waits, .stk, .dl, .gp, .run, .load, .sw, .force, .qil, .fc, .grp, .jobs, .sea, .dbg, .modePend, .staged, .commit, .startDue, .sys] ⊆ cs) (hs : Within cs s0 s) :
    Within cs s0 (resetRelease s) := by
  unfold resetRelease
  extract_lets +onlyGivenNames -merge -underBinder w s1
  have hs1 : Within cs s0 s1 := Within.put_sys_resetN (sub hc) hs
  clear_value s1
  exact Within.ite (leaveReset_within (sub hc) hs1) hs1

theorem startBody_within {cs s0} {n cold s c} (hc : [.startDue] ⊆ cs) (hs : Within cs s0 s) :
    Within cs s0 (startBody n cold s c).s := by
  unfold startBody
  extract_lets +onlyGivenNames -merge -underBinder bank
  refine Within.iteS (refuse_within (sub hc) hs) ?_
  refine Within.iteS (refuse_within (sub hc) hs) ?_
  refine Within.iteS (refuse_within (sub hc) hs) ?_
  extract_lets +onlyGivenNames -merge -underBinder due
  exact okay_within (sub hc) (Within.put_sys_startDue (sub hc) hs)

theorem v3p3Loss_within {cs s0} {s} (hc : [.regs, .clk, .ptp, .ptpIn, .offers, .freeze, .scr, .sess, .msix, .hst, .port, .pair, .sc, .gs, .svq, .gq, .pbi, .recs, .exporting, .vel, .sweep, .fuse, .mem, .cv, .wd, .afe, .so, .logicQ, .pub, .waits, .stk, .dl, .gp, .run, .load, .sw, .force, .qil, .fc, .grp, .jobs, .sea, .pkg, .dbg, .modePend, .staged, .commit, .startDue, .sys] ⊆ cs) (hs : Within cs s0 s) :
    Within cs s0 (v3p3Loss s) := by
  unfold v3p3Loss
  extract_lets +onlyGivenNames -merge -underBinder s1
  have hs1 : Within cs s0 s1 := enterReset_within (sub hc) hs
  clear_value s1
  extract_lets +onlyGivenNames -merge -underBinder s2
  have hs2 : Within cs s0 s2 := State.setFs_within (sub hc) (State.wr_within (sub hc) (State.wr_within (sub hc) hs1))
  clear_value s2
  extract_lets +onlyGivenNames -merge -underBinder w s3
  have hs3 : Within cs s0 s3 := Within.put_sys_v3p3Low_released_fails_committed (sub hc) hs2
  clear_value s3
  exact jtagReset_within (sub hc) (Within.upd (s := s3) (t := { s3 with scr := _, sea := _, pkg := _, dbg := _ }) hs3 (fun c => by cases c <;> first | exact .inl (hc (by decide)) | exact .inr rfl) (fun h => ⟨h.1, h.2.1, h.2.2⟩))

theorem warmUnits_within {cs s0} {s img same} (hc : [.regs, .clk, .dom, .offers, .sess, .inkwell, .dram, .msix, .hst, .port, .pair, .sc, .gs, .svq, .gq, .pbi, .recs, .exporting, .vel, .sweep, .fuse, .mem, .cv, .wd, .afe, .eng, .nc, .live, .stamps, .toStroke, .ctxHa, .so, .logicQ, .vec, .pub, .waits, .stk, .dl, .gp, .duc, .run, .load, .sw, .force, .qil, .fc, .grp, .jobs, .burn, .sea, .dbg, .modePend, .staged, .committing, .commit, .startDue, .sys] ⊆ cs) (hs : Within cs s0 s) :
    Within cs s0 (warmUnits s img same) := by
  unfold warmUnits
  extract_lets +onlyGivenNames -merge -underBinder kept
  extract_lets +onlyGivenNames -merge -underBinder epoch
  extract_lets +onlyGivenNames -merge -underBinder s1
  have hs1 : Within cs s0 s1 := bulkSize_within (sub hc) (velWarm_within (sub hc) (unitsReset_within (sub hc) hs))
  clear_value s1
  extract_lets +onlyGivenNames -merge -underBinder s2
  have hs2 : Within cs s0 s2 := startUnits_within (sub hc) hs1
  clear_value s2
  exact reached_within (sub hc) (State.setFs_within (sub hc) hs2)

theorem warmLoadFail_within {cs s0} {s cause} (hc : [.regs, .ptp, .ptpIn, .offers, .freeze, .scr, .sess, .msix, .port, .pair, .sc, .gs, .svq, .gq, .pbi, .recs, .exporting, .vel, .sweep, .fuse, .mem, .cv, .wd, .afe, .so, .logicQ, .pub, .waits, .stk, .dl, .gp, .run, .load, .sw, .force, .qil, .fc, .grp, .jobs, .sea, .dbg, .modePend, .staged, .commit, .startDue, .sys] ⊆ cs) (hs : Within cs s0 s) :
    Within cs s0 (warmLoadFail s cause) := by
  unfold warmLoadFail
  extract_lets +onlyGivenNames -merge -underBinder s1
  have hs1 : Within cs s0 s1 := warmFail_within (sub hc) (State.setF_within (sub hc) hs)
  clear_value s1
  exact Within.put_sys_fails (sub hc) hs1

theorem warmAttempt_within {cs s0} {s f unitsOk} (hc : [.regs, .clk, .dom, .ptp, .ptpIn, .offers, .freeze, .scr, .sess, .inkwell, .dram, .msix, .hst, .port, .pair, .sc, .gs, .svq, .gq, .pbi, .recs, .exporting, .vel, .sweep, .fuse, .mem, .cv, .wd, .afe, .eng, .nc, .live, .stamps, .toStroke, .ctxHa, .so, .logicQ, .vec, .pub, .waits, .stk, .dl, .gp, .duc, .run, .load, .sw, .force, .qil, .fc, .grp, .jobs, .burn, .sea, .dbg, .modePend, .staged, .committing, .commit, .startDue, .sys] ⊆ cs) (hs : Within cs s0 s) :
    Within cs s0 (warmAttempt s f unitsOk) := by
  unfold warmAttempt
  extract_lets +onlyGivenNames -merge -underBinder same
  clear_value same
  split
  · exact warmLoadFail_within (sub hc) (noteLoadUe_within (sub hc) hs)
  · extract_lets +onlyGivenNames -merge -underBinder s1
    have hs1 : Within cs s0 s1 := Within.ite hs (noteLoadUe_within (sub hc) hs)
    clear_value s1
    exact Within.ite (warmFail_within (sub hc) hs1) (warmUnits_within (sub hc) hs1)

theorem warmStart_within {cs s0} {s f unitsOk} (hc : [.regs, .clk, .dom, .ptp, .ptpIn, .offers, .freeze, .scr, .sess, .inkwell, .dram, .msix, .hst, .port, .pair, .sc, .gs, .svq, .gq, .pbi, .recs, .exporting, .vel, .sweep, .fuse, .mem, .cv, .wd, .afe, .eng, .nc, .live, .stamps, .toStroke, .ctxHa, .so, .logicQ, .vec, .pub, .waits, .stk, .dl, .gp, .duc, .run, .load, .sw, .force, .qil, .fc, .grp, .jobs, .burn, .sea, .dbg, .modePend, .staged, .committing, .commit, .startDue, .sys] ⊆ cs) (hs : Within cs s0 s) :
    Within cs s0 (warmStart s f unitsOk) := by
  unfold warmStart
  exact Within.ite (warmAttempt_within (sub hc) hs) hs

theorem watchdogStart_within {cs s0} {s} (hc : [.regs, .clk, .dom, .ptp, .ptpIn, .offers, .freeze, .scr, .sess, .inkwell, .dram, .msix, .hst, .port, .pair, .sc, .gs, .svq, .gq, .pbi, .recs, .exporting, .vel, .sweep, .fuse, .mem, .cv, .wd, .afe, .eng, .live, .stamps, .toStroke, .ctxHa, .so, .logicQ, .pub, .waits, .stk, .dl, .gp, .duc, .run, .load, .sw, .force, .qil, .fc, .grp, .jobs, .burn, .sea, .pkg, .dbg, .modePend, .staged, .committing, .commit, .startDue, .sys] ⊆ cs) (hs : Within cs s0 s) :
    Within cs s0 (watchdogStart s) := by
  unfold watchdogStart
  refine Within.ite ?_ (Within.ite (warmFail_within (sub hc) hs) (Within.ite (coldFail_within (sub hc) (coldReset_within (sub hc) hs)) hs))
  extract_lets +onlyGivenNames -merge -underBinder early
  exact warmTrigger_within (sub hc) (Within.ite (State.incS_within (sub hc) hs) hs)

theorem wfailClear_within {cs s0} {s} (hc : [.regs] ⊆ cs) (hs : Within cs s0 s) :
    Within cs s0 (wfailClear s) := by
  unfold wfailClear
  split
  · exact Within.ite (State.setF_within (sub hc) hs) hs
  · exact hs

end Sys2Proof.Machine
end

