-- ==== Sys2Proof/Laws/Flash.lean ====
section
/-! SUPPORT. What each operation of Machine/Flash.lean can change: one lemma per operation, cited in place of unfolding it. -/

namespace Sys2Proof.Machine

set_option Elab.async false

theorem flashFails_within {cs s0} {s result cause} (hc : [.regs, .offers, .sys] ⊆ cs) (hs : Within cs s0 s) :
    Within cs s0 (flashFails s result cause) := by
  unfold flashFails
  extract_lets +onlyGivenNames -merge -underBinder bank
  extract_lets +onlyGivenNames -merge -underBinder s1
  have hs1 : Within cs s0 s1 := State.setFs_within (sub hc) hs
  clear_value s1
  exact State.log_within (sub hc) (Within.put_sys_flash_flashGo_flashImg (sub hc) hs1)

theorem flashVerify_within {cs s0} {s} (hc : [.regs, .jobs] ⊆ cs) (hs : Within cs s0 s) :
    Within cs s0 (flashVerify s) := by
  unfold flashVerify
  split
  · exact Within.ite hs (sealPush_within (sub hc) hs)
  · exact hs

theorem flashCheck_within {cs s0} {s img} (hc : [.regs, .offers, .jobs, .sea, .sys] ⊆ cs) (hs : Within cs s0 s) :
    Within cs s0 (flashCheck s img) := by
  unfold flashCheck
  refine Within.ite ?_ hs
  extract_lets +onlyGivenNames -merge -underBinder x
  extract_lets +onlyGivenNames -merge -underBinder head
  extract_lets +onlyGivenNames -merge -underBinder s1
  have hs1 : Within cs s0 s1 := hashDone_within (sub hc) hs
  clear_value s1
  exact Within.ite (flashFails_within (sub hc) hs1) (Within.ite (flashFails_within (sub hc) hs1) (flashVerify_within (sub hc) (Within.put_sys_flashGo_flashImg (sub hc) hs1)))

theorem flashGo_within {cs s0} {s} (hc : [.regs, .offers, .sea, .sys] ⊆ cs) (hs : Within cs s0 s) :
    Within cs s0 (flashGo s) := by
  unfold flashGo
  extract_lets +onlyGivenNames -merge -underBinder src
  extract_lets +onlyGivenNames -merge -underBinder len
  exact Within.ite hs (Within.ite (flashFails_within (sub hc) hs) (Within.ite (flashFails_within (sub hc) hs) (State.setFs_within (sub hc) (hashPush_within (sub hc) (Within.put_sys_flashGo (sub hc) hs)))))

theorem flashCtrlWrite_within {cs s0} {s a mask v} (hc : [.regs, .offers, .hst, .sea, .sys] ⊆ cs) (hs : Within cs s0 s) :
    Within cs s0 (flashCtrlWrite s a mask v) := by
  unfold flashCtrlWrite
  extract_lets +onlyGivenNames -merge -underBinder s1
  have hs1 : Within cs s0 s1 := Within.ite (gate_within (sub hc) hs (fun t ht => State.setF_within (sub hc) ht)) hs
  clear_value s1
  exact Within.ite (gate_within (sub hc) hs1 (fun s_1 hs_1 => flashGo_within (sub hc) hs_1)) hs1

theorem flashDone_within {cs s0} {s ok} (hc : [.regs, .offers, .sys] ⊆ cs) (hs : Within cs s0 s) :
    Within cs s0 (flashDone s ok) := by
  unfold flashDone
  split
  · refine Within.ite ?_ (flashFails_within (sub hc) hs)
    extract_lets +onlyGivenNames -merge -underBinder y
    extract_lets +onlyGivenNames -merge -underBinder s1
    have hs1 : Within cs s0 s1 := Within.upd (s := s) (t := { s with sys := _ }) hs (fun c => by cases c <;> first | exact .inl (hc (by decide)) | exact .inr rfl) (fun h => ⟨h.1, h.2.1, h.2.2⟩)
    clear_value s1
    exact State.log_within (sub hc) (State.setFs_within (sub hc) hs1)
  · exact hs

theorem flashOwner_within {cs s0} {s img ok} (hc : [.regs, .offers, .jobs, .sys] ⊆ cs) (hs : Within cs s0 s) :
    Within cs s0 (flashOwner s img ok) := by
  unfold flashOwner
  exact Within.ite (flashFails_within (sub hc) hs) (Within.ite (flashFails_within (sub hc) hs) (sealPush_within (sub hc) hs))

theorem flashVendor_within {cs s0} {s img ok} (hc : [.regs, .offers, .sys] ⊆ cs) (hs : Within cs s0 s) :
    Within cs s0 (flashVendor s img ok) := by
  unfold flashVendor
  refine Within.ite (flashFails_within (sub hc) hs) ?_
  refine Within.ite (flashFails_within (sub hc) hs) ?_
  extract_lets +onlyGivenNames -merge -underBinder bank
  extract_lets +onlyGivenNames -merge -underBinder y
  exact Within.upd (s := s) (t := { s with sys := _ }) hs (fun c => by cases c <;> first | exact .inl (hc (by decide)) | exact .inr rfl) (fun h => ⟨h.1, h.2.1, h.2.2⟩)

theorem flashSigned_within {cs s0} {s j} (hc : [.regs, .offers, .jobs, .sys] ⊆ cs) (hs : Within cs s0 s) :
    Within cs s0 (flashSigned s j) := by
  unfold flashSigned
  split
  · exact Within.ite (flashOwner_within (sub hc) hs) (flashVendor_within (sub hc) hs)
  · exact hs

theorem sealDone_within {cs s0} {s j} (hc : [.freeCtr, .regs, .offers, .sess, .inkwell, .msix, .jobs, .sea, .sys] ⊆ cs) (hs : Within cs s0 s) :
    Within cs s0 (sealDone s j) := by
  unfold sealDone
  exact Within.ite (openDone_within (sub hc) hs) (Within.ite (unlockDone_within (sub hc) hs) (Within.ite (attestDone_within (sub hc) hs) (Within.ite hs (flashSigned_within (sub hc) hs))))

theorem sealJobComplete_within {cs s0} {s} (hc : [.freeCtr, .regs, .offers, .sess, .inkwell, .msix, .jobs, .sea, .sys] ⊆ cs) (hs : Within cs s0 s) :
    Within cs s0 (sealJobComplete s) := by
  unfold sealJobComplete
  split
  · exact flashVerify_within (sub hc) (sealDone_within (sub hc) (sealNote_within (sub hc) (Within.put_sea_jobs (sub hc) hs)))
  · exact hs

end Sys2Proof.Machine
end

