-- ==== Sys2Proof/Laws/Settings.lean ====
section
/-! SUPPORT. What each operation of Machine/Settings.lean can change: one lemma per operation, cited in place of unfolding it. -/

namespace Sys2Proof.Machine

set_option Elab.async false

theorem gpSwitch_within {cs s0} {s g} (hc : [.regs, .offers, .sess, .inkwell, .msix, .port, .pair, .live, .gp, .committing, .commit] ⊆ cs) (hs : Within cs s0 s) :
    Within cs s0 (gpSwitch s g) := by
  unfold gpSwitch
  extract_lets +onlyGivenNames -merge -underBinder was
  extract_lets +onlyGivenNames -merge -underBinder s1
  have hs1 : Within cs s0 s1 := gpCommit_within (sub hc) hs
  clear_value s1
  exact Within.ite (gpBegin_within (sub hc) hs1) hs1

theorem commitAtOnce_within {cs s0} {s} (hc : [.regs, .offers, .sess, .inkwell, .msix, .port, .pair, .sc, .gs, .pbi, .recs, .vel, .live, .logicQ, .waits, .stk, .dl, .gp, .committing, .commit] ⊆ cs) (hs : Within cs s0 s) :
    Within cs s0 (commitAtOnce s) := by
  unfold commitAtOnce
  extract_lets +onlyGivenNames -merge -underBinder s1
  have hs1 : Within cs s0 s1 := Within.foldl hs (fun t a ht => Within.ite (dlCommit_within (sub hc) ht) ht)
  clear_value s1
  extract_lets +onlyGivenNames -merge -underBinder s2
  have hs2 : Within cs s0 s2 := takeCommit_within (sub hc) hs1
  clear_value s2
  extract_lets +onlyGivenNames -merge -underBinder s3
  have hs3 : Within cs s0 s3 := Within.foldl hs2 (fun t a ht => Within.ite (svCommit_within (sub hc) ht) ht)
  clear_value s3
  extract_lets +onlyGivenNames -merge -underBinder s4
  have hs4 : Within cs s0 s4 := Within.foldl hs3 (fun t a ht => Within.ite (gsCommit_within (sub hc) ht) ht)
  clear_value s4
  extract_lets +onlyGivenNames -merge -underBinder s5
  have hs5 : Within cs s0 s5 := Within.foldl hs4 (fun t a ht => Within.ite (gpSwitch_within (sub hc) ht) ht)
  clear_value s5
  exact Within.foldl hs5 (fun t a ht => Within.ite (takeCommit_within (sub hc) ht) ht)

theorem commitBegin_within {cs s0} {s n c} (hc : [.regs, .offers, .sess, .inkwell, .msix, .port, .pair, .sc, .gs, .pbi, .recs, .vel, .live, .logicQ, .waits, .stk, .dl, .gp, .fc, .staged, .committing, .commit, .sys] ⊆ cs) (hs : Within cs s0 s) :
    Within cs s0 (commitBegin s n c) := by
  unfold commitBegin
  extract_lets +onlyGivenNames -merge -underBinder objs
  extract_lets +onlyGivenNames -merge -underBinder s1
  have hs1 : Within cs s0 s1 := State.incW_within (sub hc) hs
  clear_value s1
  extract_lets +onlyGivenNames -merge -underBinder s2
  have hs2 : Within cs s0 s2 := State.log_within (sub hc) hs1
  clear_value s2
  extract_lets +onlyGivenNames -merge -underBinder y
  extract_lets +onlyGivenNames -merge -underBinder s3
  have hs3 : Within cs s0 s3 := stagingClear_within (sub hc) (Within.upd (s := s2) (t := { s2 with sys := _ }) hs2 (fun c => by cases c <;> first | exact .inl (hc (by decide)) | exact .inr rfl) (fun h => ⟨h.1, h.2.1, h.2.2⟩))
  clear_value s3
  extract_lets +onlyGivenNames -merge -underBinder s4
  have hs4 : Within cs s0 s4 := fioCommitOpens_within (sub hc) (State.setB_within (sub hc) hs3)
  clear_value s4
  extract_lets +onlyGivenNames -merge -underBinder s5
  have hs5 : Within cs s0 s5 := Within.ite (strokeSwitchFlit_within (sub hc) hs4) hs4
  clear_value s5
  exact commitSettled_within (sub hc) (commitAtOnce_within (sub hc) hs5)

theorem epochAbortBody_within {cs s0} {n s c} (hc : [.regs, .staged] ⊆ cs) (hs : Within cs s0 s) :
    Within cs s0 (epochAbortBody n s c).s := by
  unfold epochAbortBody
  split
  · exact refuse_within (sub hc) hs
  · exact okay_within (sub hc) (stagingClear_within (sub hc) hs)

theorem epochCommitBody_within {cs s0} {n s c} (hc : [.regs, .offers, .sess, .inkwell, .msix, .port, .pair, .sc, .gs, .pbi, .recs, .vel, .live, .logicQ, .waits, .stk, .dl, .gp, .fc, .staged, .committing, .commit, .sys] ⊆ cs) (hs : Within cs s0 s) :
    Within cs s0 (epochCommitBody n s c).s := by
  unfold epochCommitBody
  split
  · exact refuse_within (sub hc) hs
  · exact goesOn_within (sub hc) (commitBegin_within (sub hc) hs)

theorem lateCommit_within {cs s0} {s} (hc : [.regs, .offers, .sess, .inkwell, .msix, .port, .pair, .live, .gp, .committing, .commit] ⊆ cs) (hs : Within cs s0 s) :
    Within cs s0 (lateCommit s) := by
  unfold lateCommit
  split
  · refine Within.ite ?_ hs
    extract_lets +onlyGivenNames -merge -underBinder s1
    have hs1 : Within cs s0 s1 := Within.foldl hs (fun t a ht => takeCommit_within (sub hc) ht)
    clear_value s1
    exact Within.foldl hs1 (fun t a ht => Within.ite (gpSwitch_within (sub hc) ht) ht)
  · exact hs

theorem liveWords_within {cs s0} {s st} (hc : [.regs, .live] ⊆ cs) (hs : Within cs s0 s) :
    Within cs s0 (liveWords s st) := by
  unfold liveWords
  refine Within.foldl hs (fun t a ht => ?_)
  split
  · exact liveWord_within (sub hc) ht
  · exact ht

theorem settingsReject_within {cs s0} {s index check} (hc : [.freeCtr, .offers] ⊆ cs) (hs : Within cs s0 s) :
    Within cs s0 (settingsReject s index check).s := by
  unfold settingsReject
  extract_lets +onlyGivenNames -merge -underBinder i
  extract_lets +onlyGivenNames -merge -underBinder s1
  have hs1 : Within cs s0 s1 := Within.ite hs (Within.upd (s := s) (t := { s with freeCtr := _ }) hs (fun c => by cases c <;> first | exact .inl (hc (by decide)) | exact .inr rfl) (fun h => ⟨h.1, h.2.1, h.2.2⟩))
  clear_value s1
  exact refuse_within (sub hc) (State.log_within (sub hc) hs1)

theorem setWriteBody_within {cs s0} {n e s c} (hc : [.freeCtr, .regs, .offers, .msix, .mem, .staged] ⊆ cs) (hs : Within cs s0 s) :
    Within cs s0 (setWriteBody n e s c).s := by
  unfold setWriteBody
  extract_lets +onlyGivenNames -merge -underBinder off
  extract_lets +onlyGivenNames -merge -underBinder len
  refine Within.iteS (refuse_within (sub hc) hs) ?_
  refine Within.iteS (settingsReject_within (sub hc) hs) ?_
  refine Within.iteS (settingsReject_within (sub hc) hs) ?_
  refine Within.iteS (refuse_within (sub hc) (memNote_within (sub hc) hs)) ?_
  extract_lets +onlyGivenNames -merge -underBinder s_1
  have hs_1 : Within cs s0 s_1 := memNote_within (sub hc) hs
  clear_value s_1
  split
  · exact settingsReject_within (sub hc) hs_1
  · split
    · exact settingsReject_within (sub hc) hs_1
    · split
      · exact settingsReject_within (sub hc) hs_1
      · exact Within.iteS (refuse_within (sub hc) hs_1) (Within.iteS (refuse_within (sub hc) hs_1) (okay_within (sub hc) (State.setFs_within (sub hc) (Within.put_sys_staged (sub hc) hs_1))))

theorem shadowResyncDone_within {cs s0} {s} (hc : [.regs] ⊆ cs) (hs : Within cs s0 s) :
    Within cs s0 (shadowResyncDone s) := by
  unfold shadowResyncDone
  exact State.setB_within (sub hc) hs

theorem withStaged_within {cs s0} {s st} (hc : [.regs, .live] ⊆ cs) (hs : Within cs s0 s) :
    Within cs s0 (withStaged s st) := by
  unfold withStaged
  exact liveWords_within (sub hc) (liveWords_within (sub hc) hs)

end Sys2Proof.Machine
end

