-- ==== Sys2Proof/Laws/MemOps.lean ====
section
/-! SUPPORT. What each operation of Machine/MemOps.lean can change: one lemma per operation, cited in place of unfolding it. -/

namespace Sys2Proof.Machine

set_option Elab.async false

theorem rowLost_within {cs s0} {s k} (hc : [.regs, .recs, .vel] ⊆ cs) (hs : Within cs s0 s) :
    Within cs s0 (rowLost s k) := by
  unfold rowLost
  extract_lets +onlyGivenNames -merge -underBinder p
  extract_lets +onlyGivenNames -merge -underBinder w s1
  have hs1 : Within cs s0 s1 := State.setProf_within (sub hc) hs
  clear_value s1
  split
  · exact putRec_within (sub hc) hs1
  · exact hs1

theorem laneLost_within {cs s0} {s off} (hc : [.vel] ⊆ cs) (hs : Within cs s0 s) :
    Within cs s0 (laneLost s off) := by
  unfold laneLost
  extract_lets +onlyGivenNames -merge -underBinder c
  exact Within.put_vel_lanes (sub hc) hs

theorem heldLost_within {cs s0} {s k} (hc : [.regs, .scr] ⊆ cs) (hs : Within cs s0 s) :
    Within cs s0 (heldLost s k) := by
  unfold heldLost
  split
  · exact noteHold_within (sub hc) (dropRec_within (sub hc) (Within.put_scr_holding (sub hc) hs))
  · exact hs

theorem pubLost_within {cs s0} {s i} (hc : [.pub] ⊆ cs) (hs : Within cs s0 s) :
    Within cs s0 (pubLost s i) := by
  unfold pubLost
  extract_lets +onlyGivenNames -merge -underBinder slots
  extract_lets +onlyGivenNames -merge -underBinder x
  extract_lets +onlyGivenNames -merge -underBinder img
  exact Within.put_stk_pub (sub hc) hs

theorem frameLost_within {cs s0} {s p} (hc : [.regs, .port, .pair, .sc, .gs, .svq, .gq, .pbi] ⊆ cs) (hs : Within cs s0 s) :
    Within cs s0 (frameLost s p) := by
  unfold frameLost
  extract_lets +onlyGivenNames -merge -underBinder b
  refine Within.ite hs ?_
  split
  · exact State.portCnt_within (sub hc) (State.setPort_within (sub hc) hs)
  · exact State.portCnt_within (sub hc) (freeIngress_within (sub hc) (Within.upd (s := s) (t := { s with pbi := _ }) hs (fun c => by cases c <;> first | exact .inl (hc (by decide)) | exact .inr rfl) (fun h => ⟨h.1, h.2.1, h.2.2⟩)))
  · exact State.portCnt_within (sub hc) (freeIngress_within (sub hc) (Within.upd (s := s) (t := { s with pbi := _ }) hs (fun c => by cases c <;> first | exact .inl (hc (by decide)) | exact .inr rfl) (fun h => ⟨h.1, h.2.1, h.2.2⟩)))
  · exact hs

theorem sealJobLost_within {cs s0} {s} (hc : [.regs, .offers, .sess, .inkwell, .msix, .load, .jobs, .sea, .sys] ⊆ cs) (hs : Within cs s0 s) :
    Within cs s0 (sealJobLost s) := by
  unfold sealJobLost
  split
  · extract_lets +onlyGivenNames -merge -underBinder w s1
    have hs1 : Within cs s0 s1 := sealNote_within (sub hc) (Within.put_sea_jobs (sub hc) hs)
    clear_value s1
    extract_lets +onlyGivenNames -merge -underBinder w_1 s2
    have hs2 : Within cs s0 s2 := Within.ite (State.setB_within (sub hc) (hashDone_within (sub hc) (Within.put_qil_load (sub hc) hs1))) (Within.ite (flashFails_within (sub hc) hs1) (Within.ite (flashFails_within (sub hc) hs1) hs1))
    clear_value s2
    exact postHead_within (sub hc) hs2
  · exact hs

theorem inkLost_within {cs s0} {s off} (hc : [.regs, .offers, .freeze, .scr, .sess, .inkwell, .msix, .pbi, .recs, .exporting, .vel, .sweep, .fuse, .so, .logicQ, .pub, .waits, .stk, .dl, .gp, .load, .sw, .force, .qil, .fc, .grp, .jobs, .dbg, .modePend, .staged, .commit] ⊆ cs) (hs : Within cs s0 s) :
    Within cs s0 (inkLost s off) := by
  unfold inkLost
  exact Within.ite (closeSession_within (sub hc) hs) (State.inkWrite_within (sub hc) hs)

theorem ringInvalid_within {cs s0} {s k} (hc : [.sc] ⊆ cs) (hs : Within cs s0 s) :
    Within cs s0 (ringInvalid s k) := by
  unfold ringInvalid
  extract_lets +onlyGivenNames -merge -underBinder sc
  extract_lets +onlyGivenNames -merge -underBinder i
  extract_lets +onlyGivenNames -merge -underBinder ch
  extract_lets +onlyGivenNames -merge -underBinder x
  extract_lets +onlyGivenNames -merge -underBinder mark
  clear_value mark
  exact State.setSc_within (sub hc) hs

theorem quillDataLost_within {cs s0} {s a} (hc : [.regs, .offers, .sess, .inkwell, .msix, .gs, .logicQ, .waits, .gp, .run, .sw, .force, .qil, .fc, .grp] ⊆ cs) (hs : Within cs s0 s) :
    Within cs s0 (quillDataLost s a) := by
  unfold quillDataLost
  split
  · extract_lets +onlyGivenNames -merge -underBinder k
    exact Within.ite (retainError_within (sub hc) hs) (Within.ite (taskFault_within (sub hc) hs) (initWindow_within (sub hc) hs))
  · exact hs

theorem taskLost_within {cs s0} {s t} (hc : [.regs, .offers, .sess, .inkwell, .msix, .gs, .logicQ, .waits, .gp, .run, .sw, .force, .qil, .fc, .grp] ⊆ cs) (hs : Within cs s0 s) :
    Within cs s0 (taskLost s t) := by
  unfold taskLost
  exact Within.ite hs (taskHalt_within (sub hc) hs)

theorem ownerOos_within {cs s0} {s kind n} (hc : [.regs, .offers, .msix] ⊆ cs) (hs : Within cs s0 s) :
    Within cs s0 (ownerOos s kind n) := by
  unfold ownerOos
  exact State.log_within (sub hc) (oosHealth_within (sub hc) hs)

theorem converterLost_within {cs s0} {s n} (hc : [.regs, .offers, .msix, .mem, .cv] ⊆ cs) (hs : Within cs s0 s) :
    Within cs s0 (converterLost s n) := by
  unfold converterLost
  exact Within.ite hs (ownerOos_within (sub hc) (cvLost_within (sub hc) hs))

theorem dlLost_within {cs s0} {s n} (hc : [.regs, .offers, .msix, .mem, .waits, .stk, .dl] ⊆ cs) (hs : Within cs s0 s) :
    Within cs s0 (dlLost s n) := by
  unfold dlLost
  exact Within.ite hs (ownerOos_within (sub hc) (showRx_within (sub hc) (dlSettle_within (sub hc) (Within.put_mem_oosDl (sub hc) hs))))

theorem soLost_within {cs s0} {s n} (hc : [.regs, .offers, .msix, .recs, .vel, .mem, .so, .pub] ⊆ cs) (hs : Within cs s0 s) :
    Within cs s0 (soLost s n) := by
  unfold soLost
  refine Within.ite hs ?_
  extract_lets +onlyGivenNames -merge -underBinder w s1
  have hs1 : Within cs s0 s1 := Within.put_mem_oosSo (sub hc) hs
  clear_value s1
  extract_lets +onlyGivenNames -merge -underBinder s2
  have hs2 : Within cs s0 s2 := evalSo_within (sub hc) hs1
  clear_value s2
  exact ownerOos_within (sub hc) (Within.foldl (Within.ite (releaseSo_within (sub hc) hs2) hs2) (fun t a ht => pubNote_within (sub hc) ht))

theorem settingsLost_within {cs s0} {s key} (hc : [.regs, .offers, .msix, .sc, .recs, .vel, .mem, .cv, .eng, .nc, .so, .pub, .waits, .stk, .dl] ⊆ cs) (hs : Within cs s0 s) :
    Within cs s0 (settingsLost s key) := by
  unfold settingsLost
  exact Within.ite (Within.ite hs (contextOos_within (sub hc) hs)) (Within.ite (soLost_within (sub hc) hs) (Within.ite (dlLost_within (sub hc) hs) (Within.ite (converterLost_within (sub hc) hs) hs)))

theorem ueAction_within {cs s0} {s l both} (hc : [.freeCtr, .regs, .clk, .dom, .ptp, .ptpIn, .offers, .freeze, .scr, .sess, .inkwell, .dram, .msix, .hst, .port, .pair, .sc, .gs, .svq, .gq, .pbi, .recs, .exporting, .vel, .sweep, .fuse, .mem, .cv, .wd, .afe, .eng, .nc, .live, .stamps, .toStroke, .ctxHa, .so, .logicQ, .pub, .waits, .stk, .dl, .gp, .duc, .run, .load, .sw, .force, .qil, .fc, .grp, .jobs, .burn, .sea, .pkg, .dbg, .modePend, .staged, .committing, .commit, .startDue, .sys] ⊆ cs) (hs : Within cs s0 s) :
    Within cs s0 (ueAction s l both) := by
  unfold ueAction
  extract_lets +onlyGivenNames -merge -underBinder o
  split
  · exact Within.ite (settingsLost_within (sub hc) hs) hs
  · exact Within.ite (taskLost_within (sub hc) hs) hs
  · exact quillDataLost_within (sub hc) hs
  · exact State.log_within (sub hc) (initState_within (sub hc) hs)
  · exact ringInvalid_within (sub hc) (ringInvalid_within (sub hc) hs)
  · exact logPageFail_within (sub hc) hs
  · exact inkLost_within (sub hc) hs
  · exact fatalFault_within (sub hc) hs
  · exact Within.ite (warmTrigger_within (sub hc) hs) hs
  · exact sealJobLost_within (sub hc) hs
  · exact fatalFault_within (sub hc) hs
  · exact frameLost_within (sub hc) hs
  · exact pubLost_within (sub hc) hs
  · exact heldLost_within (sub hc) hs
  · exact velReadErr_within (sub hc) hs
  · exact laneLost_within (sub hc) hs
  · exact rowLost_within (sub hc) hs
  · exact hs

theorem memRead_within {cs s0} {s e} (hc : [.freeCtr, .regs, .clk, .dom, .ptp, .ptpIn, .offers, .freeze, .scr, .sess, .inkwell, .dram, .msix, .hst, .port, .pair, .sc, .gs, .svq, .gq, .pbi, .recs, .exporting, .vel, .sweep, .fuse, .mem, .cv, .wd, .afe, .eng, .nc, .live, .stamps, .toStroke, .ctxHa, .so, .logicQ, .pub, .waits, .stk, .dl, .gp, .duc, .run, .load, .sw, .force, .qil, .fc, .grp, .jobs, .burn, .sea, .pkg, .dbg, .modePend, .staged, .committing, .commit, .startDue, .sys] ⊆ cs) (hs : Within cs s0 s) :
    Within cs s0 (memRead s e) := by
  unfold memRead
  extract_lets +onlyGivenNames -merge -underBinder s1
  have hs1 : Within cs s0 s1 := memNote_within (sub hc) hs
  clear_value s1
  split
  · exact ueAction_within (sub hc) hs1
  · exact ueAction_within (sub hc) hs1
  · exact hs1
  · exact hs1

theorem fuseEnds_within {cs s0} {s j status} (hc : [.regs, .offers, .sess, .inkwell, .msix, .fuse] ⊆ cs) (hs : Within cs s0 s) :
    Within cs s0 (fuseEnds s j status) := by
  unfold fuseEnds
  exact postHead_within (sub hc) (State.setB_within (sub hc) (Within.put_mem_fuse (sub hc) hs))

theorem fuseBurnDone_within {cs s0} {s ok} (hc : [.freeCtr, .regs, .offers, .sess, .inkwell, .msix, .fuse] ⊆ cs) (hs : Within cs s0 s) :
    Within cs s0 (fuseBurnDone s ok) := by
  unfold fuseBurnDone
  split
  · split
    · refine Within.ite ?_ ?_
      · extract_lets +onlyGivenNames -merge -underBinder bank
        extract_lets +onlyGivenNames -merge -underBinder row
        extract_lets +onlyGivenNames -merge -underBinder s1
        have hs1 : Within cs s0 s1 := State.setFs_within (sub hc) hs
        clear_value s1
        extract_lets +onlyGivenNames -merge -underBinder s2
        have hs2 : Within cs s0 s2 := State.setFs_within (sub hc) (State.wr_within (sub hc) hs1)
        clear_value s2
        extract_lets +onlyGivenNames -merge -underBinder s3
        have hs3 : Within cs s0 s3 := State.log_within (sub hc) hs2
        clear_value s3
        exact Within.ite (fuseEnds_within (sub hc) hs3) (Within.put_mem_fuse (sub hc) hs3)
      · extract_lets +onlyGivenNames -merge -underBinder w
        extract_lets +onlyGivenNames -merge -underBinder s1
        have hs1 : Within cs s0 s1 := State.setWord_within (sub hc) (Within.upd (s := s) (t := { s with freeCtr := _ }) hs (fun c => by cases c <;> first | exact .inl (hc (by decide)) | exact .inr rfl) (fun h => ⟨h.1, h.2.1, h.2.2⟩))
        clear_value s1
        extract_lets +onlyGivenNames -merge -underBinder s2
        have hs2 : Within cs s0 s2 := State.setFs_within (sub hc) hs1
        clear_value s2
        exact fuseEnds_within (sub hc) (State.log_within (sub hc) hs2)
    · exact hs
  · exact hs

theorem fuseCommitBody_within {cs s0} {n s c} (hc : [.regs, .fuse] ⊆ cs) (hs : Within cs s0 s) :
    Within cs s0 (fuseCommitBody n s c).s := by
  unfold fuseCommitBody
  extract_lets +onlyGivenNames -merge -underBinder sel
  extract_lets +onlyGivenNames -merge -underBinder named
  exact Within.iteS (refuse_within (sub hc) hs) (Within.iteS (refuse_within (sub hc) hs) (Within.iteS (refuse_within (sub hc) hs) (goesOn_within (sub hc) (State.setB_within (sub hc) (Within.put_mem_fuse (sub hc) hs)))))

theorem ownerRead_within {cs s0} {s} (hc : [.freeCtr, .regs, .clk, .dom, .ptp, .ptpIn, .offers, .freeze, .scr, .sess, .inkwell, .dram, .msix, .hst, .port, .pair, .sc, .gs, .svq, .gq, .pbi, .recs, .exporting, .vel, .sweep, .fuse, .mem, .cv, .wd, .afe, .eng, .nc, .live, .stamps, .toStroke, .ctxHa, .so, .logicQ, .pub, .waits, .stk, .dl, .gp, .duc, .run, .load, .sw, .force, .qil, .fc, .grp, .jobs, .burn, .sea, .pkg, .dbg, .modePend, .staged, .committing, .commit, .startDue, .sys] ⊆ cs) (hs : Within cs s0 s) :
    Within cs s0 (ownerRead s) := by
  unfold ownerRead
  split
  · exact memRead_within (sub hc) (Within.put_mem_errors (sub hc) hs)
  · exact hs

theorem idleTick_within {cs s0} {s} (hc : [.freeCtr, .regs, .clk, .dom, .ptp, .ptpIn, .offers, .freeze, .scr, .sess, .inkwell, .dram, .msix, .hst, .port, .pair, .sc, .gs, .svq, .gq, .pbi, .recs, .exporting, .vel, .sweep, .fuse, .mem, .cv, .wd, .afe, .eng, .nc, .live, .stamps, .toStroke, .ctxHa, .so, .logicQ, .pub, .waits, .stk, .dl, .gp, .duc, .run, .load, .sw, .force, .qil, .fc, .grp, .jobs, .burn, .sea, .pkg, .dbg, .modePend, .staged, .committing, .commit, .startDue, .sys] ⊆ cs) (hs : Within cs s0 s) :
    Within cs s0 (idleTick s) := by
  unfold idleTick
  exact landsTick_within (sub hc) (ownerRead_within (sub hc) (startDue_within (sub hc) (lateCommit_within (sub hc) (tickNs_within (sub hc) hs))))

theorem memSweepBody_within {cs s0} {n s c} (hc : [.regs, .sweep] ⊆ cs) (hs : Within cs s0 s) :
    Within cs s0 (memSweepBody n s c).s := by
  unfold memSweepBody
  extract_lets +onlyGivenNames -merge -underBinder m
  exact Within.iteS (refuse_within (sub hc) hs) (Within.iteS (refuse_within (sub hc) hs) (Within.iteS (refuse_within (sub hc) hs) (Within.iteS (refuse_within (sub hc) hs) (goesOn_within (sub hc) (State.setFs_within (sub hc) (Within.put_mem_sweep (sub hc) hs))))))

theorem sweepRegion_within {cs s0} {found s r} (hc : [.freeCtr, .regs, .clk, .dom, .ptp, .ptpIn, .offers, .freeze, .scr, .sess, .inkwell, .dram, .msix, .hst, .port, .pair, .sc, .gs, .svq, .gq, .pbi, .recs, .exporting, .vel, .sweep, .fuse, .mem, .cv, .wd, .afe, .eng, .nc, .live, .stamps, .toStroke, .ctxHa, .so, .logicQ, .pub, .waits, .stk, .dl, .gp, .duc, .run, .load, .sw, .force, .qil, .fc, .grp, .jobs, .burn, .sea, .pkg, .dbg, .modePend, .staged, .committing, .commit, .startDue, .sys] ⊆ cs) (hs : Within cs s0 s) :
    Within cs s0 (sweepRegion found s r) := by
  unfold sweepRegion
  exact Within.foldl (Within.ite (State.setF_within (sub hc) hs) hs) (fun t a ht => Within.ite (memRead_within (sub hc) ht) ht)

theorem memSweepDone_within {cs s0} {s found} (hc : [.freeCtr, .regs, .clk, .dom, .ptp, .ptpIn, .offers, .freeze, .scr, .sess, .inkwell, .dram, .msix, .hst, .port, .pair, .sc, .gs, .svq, .gq, .pbi, .recs, .exporting, .vel, .sweep, .fuse, .mem, .cv, .wd, .afe, .eng, .nc, .live, .stamps, .toStroke, .ctxHa, .so, .logicQ, .pub, .waits, .stk, .dl, .gp, .duc, .run, .load, .sw, .force, .qil, .fc, .grp, .jobs, .burn, .sea, .pkg, .dbg, .modePend, .staged, .committing, .commit, .startDue, .sys] ⊆ cs) (hs : Within cs s0 s) :
    Within cs s0 (memSweepDone s found) := by
  unfold memSweepDone
  split
  · extract_lets +onlyGivenNames -merge -underBinder hits
    extract_lets +onlyGivenNames -merge -underBinder s1
    have hs1 : Within cs s0 s1 := Within.foldl hs (fun t a ht => sweepRegion_within (sub hc) ht)
    clear_value s1
    refine Within.ite ?_ hs1
    extract_lets +onlyGivenNames -merge -underBinder ue
    extract_lets +onlyGivenNames -merge -underBinder ce
    extract_lets +onlyGivenNames -merge -underBinder mib
    extract_lets +onlyGivenNames -merge -underBinder w s2
    have hs2 : Within cs s0 s2 := State.setFs_within (sub hc) (Within.put_mem_sweep (sub hc) hs1)
    clear_value s2
    split
    · exact postHead_within (sub hc) (State.log_within (sub hc) hs2)
    · exact hs2
  · exact hs

end Sys2Proof.Machine
end

