-- ==== Sys2Proof/Laws/Pkg.lean ====
section
/-! SUPPORT. What each operation of Machine/Pkg.lean can change: one lemma per operation, cited in place of unfolding it. -/

namespace Sys2Proof.Machine

set_option Elab.async false

theorem State.setPkg_within {cs s0} {s x} (hc : [.pkg] ⊆ cs) (hs : Within cs s0 s) :
    Within cs s0 (State.setPkg s x) := by
  unfold State.setPkg
  exact Within.upd (s := s) (t := { s with pkg := _ }) hs (fun c => by cases c <;> first | exact .inl (hc (by decide)) | exact .inr rfl) (fun h => ⟨h.1, h.2.1, h.2.2⟩)

theorem analogueResume_within {cs s0} {s} (hc : [.regs, .cv, .wd, .afe] ⊆ cs) (hs : Within cs s0 s) :
    Within cs s0 (analogueResume s) := by
  unfold analogueResume
  split
  · exact Within.ite (afeStart_within (sub hc) (Within.put_afe_stopped (sub hc) hs)) hs
  · exact hs

theorem noteTj_within {cs s0} {s tj} (hc : [.regs] ⊆ cs) (hs : Within cs s0 s) :
    Within cs s0 (noteTj s tj) := by
  unfold noteTj
  extract_lets +onlyGivenNames -merge -underBinder s1
  have hs1 : Within cs s0 s1 := State.setF_within (sub hc) hs
  clear_value s1
  exact Within.ite (State.setF_within (sub hc) hs1) hs1

theorem pwrgdRelease_within {cs s0} {s} (hc : [.pkg] ⊆ cs) (hs : Within cs s0 s) :
    Within cs s0 (pwrgdRelease s) := by
  unfold pwrgdRelease
  split
  · exact Within.ite (Within.put_pkg_pwrgd (sub hc) hs) hs
  · exact hs

theorem railFault_within {cs s0} {s mask} (hc : [.regs, .offers, .sess, .inkwell, .msix, .port, .pair, .sc, .cv, .wd, .afe, .live, .pkg, .committing, .commit] ⊆ cs) (hs : Within cs s0 s) :
    Within cs s0 (railFault s mask) := by
  unfold railFault
  extract_lets +onlyGivenNames -merge -underBinder lost
  refine Within.ite hs ?_
  extract_lets +onlyGivenNames -merge -underBinder ok
  extract_lets +onlyGivenNames -merge -underBinder s1
  have hs1 : Within cs s0 s1 := State.wr_within (sub hc) hs
  clear_value s1
  extract_lets +onlyGivenNames -merge -underBinder w s0_1
  have hs0_1 : Within cs s0 s0_1 := Within.ite hs1 (Within.put_pkg_vcoreAt (sub hc) hs1)
  clear_value s0_1
  extract_lets +onlyGivenNames -merge -underBinder w_2 s2
  have hs2 : Within cs s0 s2 := Within.ite hs0_1 (Within.put_pkg_goodAt_pwrgd (sub hc) hs0_1)
  clear_value s2
  extract_lets +onlyGivenNames -merge -underBinder w_3 t w_4 s3
  have hs3 : Within cs s0 s3 := by
    unfold s3
    refine Within.ite hs2 ?_
    have ht : Within cs s0 t := Within.put_pkg_anaAt (sub hc) hs2
    clear_value t
    exact Within.ite ht (railStop_within (sub hc) (Within.put_afe_stopped (sub hc) ht))
  clear_value s3
  exact Within.ite hs3 (State.log_within (sub hc) hs3)

theorem railRestored_within {cs s0} {s mask} (hc : [.regs, .offers, .pkg] ⊆ cs) (hs : Within cs s0 s) :
    Within cs s0 (railRestored s mask) := by
  unfold railRestored
  extract_lets +onlyGivenNames -merge -underBinder back
  refine Within.ite hs ?_
  extract_lets +onlyGivenNames -merge -underBinder ok
  extract_lets +onlyGivenNames -merge -underBinder s1
  have hs1 : Within cs s0 s1 := State.wr_within (sub hc) hs
  clear_value s1
  extract_lets +onlyGivenNames -merge -underBinder since
  clear_value since
  extract_lets +onlyGivenNames -merge -underBinder w s2
  have hs2 : Within cs s0 s2 := Within.put_pkg_goodAt_anaAt_vcoreAt (sub hc) hs1
  clear_value s2
  exact Within.ite hs2 (State.log_within (sub hc) hs2)

theorem tjFalls_within {cs s0} {s tj} (hc : [.regs, .offers, .pkg] ⊆ cs) (hs : Within cs s0 s) :
    Within cs s0 (tjFalls s tj) := by
  unfold tjFalls
  extract_lets +onlyGivenNames -merge -underBinder t
  have ht : Within cs s0 t := noteTj_within (sub hc) hs
  clear_value t
  exact Within.ite (State.log_within (sub hc) (Within.put_pkg_tjHigh (sub hc) ht)) ht

theorem tjRises_within {cs s0} {s tj} (hc : [.regs, .offers, .pkg] ⊆ cs) (hs : Within cs s0 s) :
    Within cs s0 (tjRises s tj) := by
  unfold tjRises
  extract_lets +onlyGivenNames -merge -underBinder t
  have ht : Within cs s0 t := noteTj_within (sub hc) hs
  clear_value t
  exact Within.ite (State.log_within (sub hc) (Within.put_pkg_tjHigh (sub hc) ht)) ht

end Sys2Proof.Machine
end

