-- ==== Sys2Proof/Laws/Port.lean ====
section
/-! SUPPORT. What each operation of Machine/Port.lean can change: one lemma per operation, cited in place of unfolding it. -/

namespace Sys2Proof.Machine

set_option Elab.async false

theorem State.setHst_within {cs s0} {s x} (hc : [.sess, .inkwell, .dram, .msix, .hst] ⊆ cs) (hs : Within cs s0 s) (hi : x.inkwell = s.hst.inkwell := by rfl)
    (hd : x.dram = s.hst.dram := by rfl) : Within cs s0 (State.setHst s x) := by
  unfold State.setHst
  exact Within.upd (s := s) (t := { s with hst := _ }) hs (fun c => by cases c <;> first | exact .inl (hc (by decide)) | exact .inr rfl)
    (fun h => ⟨h.1, hi ▸ h.2.1, hd ▸ h.2.2⟩)

theorem aerNote_within {cs s0} {s bit} (hc : [.hst] ⊆ cs) (hs : Within cs s0 s) :
    Within cs s0 (aerNote s bit) := by
  unfold aerNote
  exact Within.put_hst_ep (sub hc) hs

theorem afeWrite_within {cs s0} {s a r mask v} (hc : [.regs, .offers, .cv, .afe] ⊆ cs) (hs : Within cs s0 s) :
    Within cs s0 (afeWrite s a r mask v) := by
  unfold afeWrite
  extract_lets +onlyGivenNames -merge -underBinder n
  extract_lets +onlyGivenNames -merge -underBinder m
  extract_lets +onlyGivenNames -merge -underBinder new
  extract_lets +onlyGivenNames -merge -underBinder s1
  have hs1 : Within cs s0 s1 := by
    unfold s1
    refine Within.ite hs ?_
    refine Within.ite (actWrite_within (sub hc) hs) ?_
    split
    · exact State.log_within (sub hc) hs
    · exact State.wr_within (sub hc) hs
  clear_value s1
  refine Within.ite hs1 ?_
  extract_lets +onlyGivenNames -merge -underBinder ones
  extract_lets +onlyGivenNames -merge -underBinder s2
  have hs2 : Within cs s0 s2 := Within.ite (swTrigger_within (sub hc) hs1) hs1
  clear_value s2
  exact Within.ite (reloadWrite_within (sub hc) hs2) hs2

theorem badAccess_within {cs s0} {s kind addr} (hc : [.regs, .offers, .hst] ⊆ cs) (hs : Within cs s0 s) :
    Within cs s0 (badAccess s kind addr) := by
  unfold badAccess
  extract_lets +onlyGivenNames -merge -underBinder s1
  have hs1 : Within cs s0 s1 := State.incS_within (sub hc) hs
  clear_value s1
  exact Within.ite hs1 (State.log_within (sub hc) (Within.put_hst_badAcc (sub hc) hs1))

theorem goodAccess_within {cs s0} {s} (hc : [.hst] ⊆ cs) (hs : Within cs s0 s) :
    Within cs s0 (goodAccess s) := by
  unfold goodAccess
  exact Within.put_hst_badAcc (sub hc) hs

theorem bar2Read_within {cs s0} {s off words c} (hc : [.freeCtr, .regs, .clk, .dom, .ptp, .ptpIn, .offers, .freeze, .scr, .sess, .inkwell, .dram, .msix, .hst, .port, .pair, .sc, .gs, .svq, .gq, .pbi, .recs, .exporting, .vel, .sweep, .fuse, .mem, .cv, .wd, .afe, .eng, .nc, .live, .stamps, .toStroke, .ctxHa, .so, .logicQ, .pub, .waits, .stk, .dl, .gp, .duc, .run, .load, .sw, .force, .qil, .fc, .grp, .jobs, .burn, .sea, .pkg, .dbg, .modePend, .staged, .committing, .commit, .startDue, .sys] ⊆ cs) (hs : Within cs s0 s) :
    Within cs s0 (bar2Read s off words c) := by
  unfold bar2Read
  refine Within.ite ?_ ?_
  · extract_lets +onlyGivenNames -merge -underBinder t
    have ht : Within cs s0 t := Within.ite (aerNote_within (sub hc) (badAccess_within (sub hc) hs)) hs
    clear_value t
    exact Within.put_hst_bar2Out_bar2Poison (sub hc) ht
  · refine Within.ite ?_ ?_
    · extract_lets +onlyGivenNames -merge -underBinder ws
      exact Within.upd (s := s) (t := { s with freeCtr := _, hst := _ }) hs (fun c => by cases c <;> first | exact .inl (hc (by decide)) | exact .inr rfl) (fun h => ⟨h.1, h.2.1, h.2.2⟩)
    · extract_lets +onlyGivenNames -merge -underBinder s1
      have hs1 : Within cs s0 s1 := memRead_within (sub hc) (goodAccess_within (sub hc) hs)
      clear_value s1
      extract_lets +onlyGivenNames -merge -underBinder bad
      extract_lets +onlyGivenNames -merge -underBinder ws
      exact Within.put_hst_bar2Out_bar2Poison (sub hc) hs1

theorem bar2Write_within {cs s0} {s w} (hc : [.regs, .offers, .hst] ⊆ cs) (hs : Within cs s0 s) :
    Within cs s0 (bar2Write s w) := by
  unfold bar2Write
  exact Within.ite (State.incS_within (sub hc) (Within.ite (badAccess_within (sub hc) hs) (goodAccess_within (sub hc) hs))) hs

theorem cfgReadOut_within {cs s0} {s a} (hc : [.hst] ⊆ cs) (hs : Within cs s0 s) :
    Within cs s0 (cfgReadOut s a) := by
  unfold cfgReadOut
  exact Within.ite (Within.put_hst_rdOut (sub hc) hs) hs

theorem busRead_within {cs s0} {s r a bytes} (hc : [.regs, .clk, .offers, .hst] ⊆ cs) (hs : Within cs s0 s) :
    Within cs s0 (busRead s r a bytes) := by
  unfold busRead
  refine Within.ite (cfgReadOut_within (sub hc) hs) ?_
  refine Within.ite ?_ ?_
  · extract_lets +onlyGivenNames -merge -underBinder t
    have ht : Within cs s0 t := Within.ite (aerNote_within (sub hc) (badAccess_within (sub hc) hs)) hs
    clear_value t
    exact Within.put_hst_rdOut (sub hc) ht
  · extract_lets +onlyGivenNames -merge -underBinder t
    have ht : Within cs s0 t := readLatch_within (sub hc) hs
    clear_value t
    extract_lets +onlyGivenNames -merge -underBinder word
    clear_value word
    exact Within.put_hst_rdOut (sub hc) ht

theorem msixControl_within {cs s0} {s en mask} (hc : [.regs, .msix, .hst] ⊆ cs) (hs : Within cs s0 s) :
    Within cs s0 (msixControl s en mask) := by
  unfold msixControl
  extract_lets +onlyGivenNames -merge -underBinder s1
  have hs1 : Within cs s0 s1 := State.setB_within (sub hc) hs
  clear_value s1
  extract_lets +onlyGivenNames -merge -underBinder w w_1 s2
  have hs2 : Within cs s0 s2 := Within.put_hst_ep (sub hc) hs1
  clear_value s2
  exact Within.foldl hs2 (fun t a ht => Within.ite (State.msixSend_within (sub hc) ht) ht)

theorem pcieReset_within {cs s0} {s} (hc : [.regs, .offers, .freeze, .scr, .sess, .msix, .hst, .pbi, .recs, .exporting, .vel, .sweep, .fuse, .so, .logicQ, .pub, .waits, .stk, .dl, .gp, .load, .sw, .force, .qil, .fc, .grp, .jobs, .dbg, .modePend, .staged, .commit] ⊆ cs) (hs : Within cs s0 s) :
    Within cs s0 (pcieReset s) := by
  unfold pcieReset
  extract_lets +onlyGivenNames -merge -underBinder s1
  have hs1 : Within cs s0 s1 := closeSessions_within (sub hc) hs
  clear_value s1
  exact State.setB_within (sub hc) (Within.put_hst_msix_cplValue_ep (sub hc) hs1)

theorem cfgPut_within {cs s0} {s a w} (hc : [.regs, .offers, .freeze, .scr, .sess, .msix, .hst, .pbi, .recs, .exporting, .vel, .sweep, .fuse, .so, .logicQ, .pub, .waits, .stk, .dl, .gp, .load, .sw, .force, .qil, .fc, .grp, .jobs, .dbg, .modePend, .staged, .commit] ⊆ cs) (hs : Within cs s0 s) :
    Within cs s0 (cfgPut s a w) := by
  unfold cfgPut
  extract_lets +onlyGivenNames -merge -underBinder e
  extract_lets +onlyGivenNames -merge -underBinder put
  have hput : ∀ put0, Within cs s0 (put put0) := by
    intro put0
    unfold put
    exact Within.put_hst_ep (sub hc) hs
  clear_value put
  extract_lets +onlyGivenNames -merge -underBinder pe
  exact Within.ite (hput _) (Within.ite (hput _) (Within.ite (hput _) (Within.ite (Within.ite (pcieReset_within (sub hc) hs) (hput _)) (Within.ite (Within.put_hst_cplValue (sub hc) hs) (Within.ite (msixControl_within (sub hc) hs) (Within.ite (hput _) hs))))))

theorem cfgWrite_within {cs s0} {s addr bytes v} (hc : [.regs, .offers, .freeze, .scr, .sess, .msix, .hst, .pbi, .recs, .exporting, .vel, .sweep, .fuse, .so, .logicQ, .pub, .waits, .stk, .dl, .gp, .load, .sw, .force, .qil, .fc, .grp, .jobs, .dbg, .modePend, .staged, .commit] ⊆ cs) (hs : Within cs s0 s) :
    Within cs s0 (cfgWrite s addr bytes v) := by
  unfold cfgWrite
  extract_lets +onlyGivenNames -merge -underBinder a
  extract_lets +onlyGivenNames -merge -underBinder lo
  extract_lets +onlyGivenNames -merge -underBinder old
  exact Within.ite (cfgPut_within (sub hc) hs) hs

theorem takeEntries_within {cs s0} {n x s} (hc : [.regs, .sess] ⊆ cs) (hs : Within cs s0 s) :
    Within cs s0 (takeEntries n x s) := by
  induction x generalizing n s with
  | zero =>
    rw [takeEntries]
    exact hs
  | succ k ih =>
    rw [takeEntries]
    refine Within.ite hs ?_
    extract_lets +onlyGivenNames -merge -underBinder c
    extract_lets +onlyGivenNames -merge -underBinder w s1
    have hs1 : Within cs s0 s1 := State.setSess_within (sub hc) hs
    clear_value s1
    exact ih (State.noteInflight_within (sub hc) (State.setF_within (sub hc) hs1))

theorem serveQueue_within {cs s0} {s n} (hc : [.regs, .offers, .sess, .inkwell, .msix, .hst] ⊆ cs) (hs : Within cs s0 s) :
    Within cs s0 (serveQueue s n) := by
  unfold serveQueue
  exact issueReads_within (sub hc) (settleHeads_within (sub hc) (takeEntries_within (sub hc) hs))

theorem completionDoorbell_within {cs s0} {s r n head} (hc : [.regs, .offers, .sess, .inkwell, .msix, .hst] ⊆ cs) (hs : Within cs s0 s) :
    Within cs s0 (completionDoorbell s r n head) := by
  unfold completionDoorbell
  refine Within.ite (State.incS_within (sub hc) hs) ?_
  extract_lets +onlyGivenNames -merge -underBinder w s1
  have hs1 : Within cs s0 s1 := State.setSess_within (sub hc) hs
  clear_value s1
  exact serveQueue_within (sub hc) (State.noteInflight_within (sub hc) (State.setF_within (sub hc) hs1))

theorem doorbell_within {cs s0} {s r n tail} (hc : [.regs, .offers, .sess, .inkwell, .msix, .hst] ⊆ cs) (hs : Within cs s0 s) :
    Within cs s0 (doorbell s r n tail) := by
  unfold doorbell
  extract_lets +onlyGivenNames -merge -underBinder x
  extract_lets +onlyGivenNames -merge -underBinder t
  refine Within.ite (State.incS_within (sub hc) hs) ?_
  refine Within.ite ?_ ?_
  · extract_lets +onlyGivenNames -merge -underBinder s1
    have hs1 : Within cs s0 s1 := State.incS_within (sub hc) hs
    clear_value s1
    exact Within.ite hs1 (State.log_within (sub hc) (State.setSess_within (sub hc) hs1))
  · extract_lets +onlyGivenNames -merge -underBinder s1
    have hs1 : Within cs s0 s1 := State.setSess_within (sub hc) hs
    clear_value s1
    exact serveQueue_within (sub hc) (State.setFs_within (sub hc) hs1)

theorem inkHostWrite_within {cs s0} {s o v} (hc : [.regs, .inkwell] ⊆ cs) (hs : Within cs s0 s) :
    Within cs s0 (inkHostWrite s o v) := by
  unfold inkHostWrite
  refine Within.ite hs ?_
  split
  · exact State.inkWrite_within (sub hc) hs
  · exact State.incS_within (sub hc) hs
  · exact hs

theorem msixWrite_within {cs s0} {s a mask v} (hc : [.msix] ⊆ cs) (hs : Within cs s0 s) :
    Within cs s0 (msixWrite s a mask v) := by
  unfold msixWrite
  extract_lets +onlyGivenNames -merge -underBinder i
  extract_lets +onlyGivenNames -merge -underBinder k
  extract_lets +onlyGivenNames -merge -underBinder m
  extract_lets +onlyGivenNames -merge -underBinder w
  extract_lets +onlyGivenNames -merge -underBinder m1
  extract_lets +onlyGivenNames -merge -underBinder w_1 s1
  have hs1 : Within cs s0 s1 := Within.put_hst_msix (sub hc) hs
  clear_value s1
  exact Within.ite (State.msixSend_within (sub hc) hs1) hs1

theorem pcieLinkLost_within {cs s0} {s} (hc : [.regs, .offers] ⊆ cs) (hs : Within cs s0 s) :
    Within cs s0 (pcieLinkLost s) := by
  unfold pcieLinkLost
  exact Within.ite (State.log_within (sub hc) (State.setFs_within (sub hc) hs)) hs

theorem pcieDown_within {cs s0} {s} (hc : [.regs, .offers, .freeze, .scr, .sess, .msix, .pbi, .recs, .exporting, .vel, .sweep, .fuse, .so, .logicQ, .pub, .waits, .stk, .dl, .gp, .load, .sw, .force, .qil, .fc, .grp, .jobs, .dbg, .modePend, .staged, .commit] ⊆ cs) (hs : Within cs s0 s) :
    Within cs s0 (pcieDown s) := by
  unfold pcieDown
  exact Within.ite (closeSessions_within (sub hc) (pcieLinkLost_within (sub hc) hs)) hs

theorem pcieUp_within {cs s0} {s speed width} (hc : [.regs, .offers, .hst] ⊆ cs) (hs : Within cs s0 s) :
    Within cs s0 (pcieUp s speed width) := by
  unfold pcieUp
  exact Within.ite hs (State.log_within (sub hc) (State.setFs_within (sub hc) (Within.put_hst_perstN (sub hc) hs)))

theorem perstFall_within {cs s0} {s} (hc : [.regs, .offers, .freeze, .scr, .sess, .msix, .hst, .pbi, .recs, .exporting, .vel, .sweep, .fuse, .so, .logicQ, .pub, .waits, .stk, .dl, .gp, .load, .sw, .force, .qil, .fc, .grp, .jobs, .dbg, .modePend, .staged, .commit] ⊆ cs) (hs : Within cs s0 s) :
    Within cs s0 (perstFall s) := by
  unfold perstFall
  exact pcieReset_within (sub hc) (pcieLinkLost_within (sub hc) (Within.put_hst_perstN (sub hc) hs))

theorem portRead_within {cs s0} {s r a} (hc : [.clk] ⊆ cs) (hs : Within cs s0 s) :
    Within cs s0 (portRead s r a).2 := by
  unfold portRead
  exact Within.ite2 (Within.ite2 (readReg_within (sub hc) hs) hs) (Within.ite2 hs hs)

theorem regEffect_within {cs s0} {s acc a r mask v} (hc : [.regs, .clk, .dom, .offers, .sess, .inkwell, .msix, .hst, .sc, .pbi, .recs, .exporting, .vel, .cv, .afe, .so, .logicQ, .pub, .waits, .stk, .dl, .gp, .force, .qil, .fc, .grp, .burn, .sea, .dbg, .sys] ⊆ cs) (hs : Within cs s0 s) :
    Within cs s0 (regEffect s acc a r mask v) := by
  unfold regEffect
  extract_lets +onlyGivenNames -merge -underBinder q
  extract_lets +onlyGivenNames -merge -underBinder sess
  extract_lets +onlyGivenNames -merge -underBinder ones
  refine Within.ite ?_ ?_
  · clear_value sess
    split
    · exact sysCtrlWrite_within (sub hc) hs
    · exact hs
  · refine Within.ite ?_ ?_
    · clear_value sess
      split
      · exact Within.ite (grantWrite_within (sub hc) hs) hs
      · exact hs
    · refine Within.ite (flashCtrlWrite_within (sub hc) hs) ?_
      refine Within.ite (Within.ite hs (domCfgWrite_within (sub hc) hs)) ?_
      refine Within.ite (Within.ite hs (domCfgWrite_within (sub hc) hs)) ?_
      refine Within.ite (Within.ite hs (haPhase_within (sub hc) hs)) ?_
      refine Within.ite (Within.ite hs (haFreq_within (sub hc) hs)) ?_
      refine Within.ite (ctrlWritten_within (sub hc) (plainWrite_within (sub hc) hs)) ?_
      refine Within.ite (rulSettle_within (sub hc) (plainWrite_within (sub hc) hs)) ?_
      refine Within.ite (ppsGate_within (sub hc) (plainWrite_within (sub hc) hs)) ?_
      refine Within.ite (afeWrite_within (sub hc) hs) ?_
      refine Within.ite (sfpWrite_within (sub hc) hs) ?_
      refine Within.ite (pubAll_within (sub hc) (plainWrite_within (sub hc) hs)) ?_
      refine Within.ite (stkResetWrite_within (sub hc) hs) ?_
      refine Within.ite (velTrigWrite_within (sub hc) hs) ?_
      refine Within.ite (slotSel_within (sub hc) hs) ?_
      refine Within.ite ?_ (Within.ite (Within.ite (fioAck_within (sub hc) hs) hs) (Within.ite (Within.ite hs (ownCtrlWrite_within (sub hc) hs)) (Within.ite (vrevWrite_within (sub hc) hs) (Within.ite (Within.ite (unlockEnds_within (sub hc) hs) hs) (Within.ite (Within.ite hs (doorbell_within (sub hc) hs)) (Within.ite (Within.ite hs (completionDoorbell_within (sub hc) hs)) (plainWrite_within (sub hc) hs)))))))
      extract_lets +onlyGivenNames -merge -underBinder n
      extract_lets +onlyGivenNames -merge -underBinder s1
      have hs1 : Within cs s0 s1 := Within.ite (fioInhibit_within (sub hc) hs) hs
      clear_value s1
      exact Within.ite (fioRetry_within (sub hc) hs1) hs1

theorem regWrite_within {cs s0} {s acc a mask v} (hc : [.regs, .clk, .dom, .offers, .sess, .inkwell, .msix, .hst, .sc, .pbi, .recs, .exporting, .vel, .cv, .afe, .so, .logicQ, .pub, .waits, .stk, .dl, .gp, .force, .qil, .fc, .grp, .burn, .sea, .dbg, .sys] ⊆ cs) (hs : Within cs s0 s) :
    Within cs s0 (regWrite s acc a mask v) := by
  unfold regWrite
  refine Within.ite hs ?_
  refine Within.ite (msixWrite_within (sub hc) hs) ?_
  refine Within.ite hs ?_
  split
  · exact Within.ite (directRejected_within (sub hc) hs) (regEffect_within (sub hc) (directAccepted_within (sub hc) hs))
  · exact regEffect_within (sub hc) hs
  · exact hs
  · exact hs

theorem portWrite_within {cs s0} {s r a v} (hc : [.regs, .clk, .dom, .offers, .sess, .inkwell, .msix, .hst, .sc, .pbi, .recs, .exporting, .vel, .cv, .afe, .so, .logicQ, .pub, .waits, .stk, .dl, .gp, .force, .qil, .fc, .grp, .burn, .sea, .dbg, .sys] ⊆ cs) (hs : Within cs s0 s) :
    Within cs s0 (portWrite s r a v) := by
  unfold portWrite
  exact Within.ite (inkHostWrite_within (sub hc) hs) (Within.ite (regWrite_within (sub hc) hs) hs)

theorem registerWrite_within {cs s0} {s r addr bytes v} (hc : [.regs, .clk, .dom, .offers, .freeze, .scr, .sess, .inkwell, .msix, .hst, .sc, .pbi, .recs, .exporting, .vel, .sweep, .fuse, .cv, .afe, .so, .logicQ, .pub, .waits, .stk, .dl, .gp, .load, .sw, .force, .qil, .fc, .grp, .jobs, .burn, .sea, .dbg, .modePend, .staged, .commit, .sys] ⊆ cs) (hs : Within cs s0 s) :
    Within cs s0 (registerWrite s r addr bytes v) := by
  unfold registerWrite
  refine Within.ite (cfgWrite_within (sub hc) hs) ?_
  refine Within.ite hs ?_
  refine Within.ite (badAccess_within (sub hc) hs) ?_
  extract_lets +onlyGivenNames -merge -underBinder s1
  have hs1 : Within cs s0 s1 := portWrite_within (sub hc) (goodAccess_within (sub hc) hs)
  clear_value s1
  exact Within.ite (portWrite_within (sub hc) hs1) hs1

theorem spiReadWords_within {cs s0} {x x1 s} (hc : [.clk] ⊆ cs) (hs : Within cs s0 s) :
    Within cs s0 (spiReadWords x x1 s).2 := by
  induction x generalizing x1 s with
  | zero =>
    rw [spiReadWords]
    exact hs
  | succ k ih =>
    rw [spiReadWords]
    exact ih (portRead_within (sub hc) hs)

theorem spiWriteWords_within {cs s0} {x x1 s} (hc : [.regs, .clk, .dom, .offers, .sess, .inkwell, .msix, .hst, .sc, .pbi, .recs, .exporting, .vel, .cv, .afe, .so, .logicQ, .pub, .waits, .stk, .dl, .gp, .force, .qil, .fc, .grp, .burn, .sea, .dbg, .sys] ⊆ cs) (hs : Within cs s0 s) :
    Within cs s0 (spiWriteWords x x1 s) := by
  induction x generalizing x1 s with
  | nil =>
    rw [spiWriteWords]
    exact hs
  | cons a l ih =>
    rw [spiWriteWords]
    exact ih (portWrite_within (sub hc) hs)

theorem spiTransaction_within {cs s0} {s cmd data} (hc : [.regs, .clk, .dom, .offers, .sess, .inkwell, .msix, .hst, .sc, .pbi, .recs, .exporting, .vel, .cv, .afe, .so, .logicQ, .pub, .waits, .stk, .dl, .gp, .force, .qil, .fc, .grp, .burn, .sea, .dbg, .sys] ⊆ cs) (hs : Within cs s0 s) :
    Within cs s0 (spiTransaction s cmd data) := by
  unfold spiTransaction
  refine Within.ite (Within.put_hst_spiOut (sub hc) hs) ?_
  extract_lets +onlyGivenNames -merge -underBinder n
  extract_lets +onlyGivenNames -merge -underBinder a
  extract_lets +onlyGivenNames -merge -underBinder status
  refine Within.ite ?_ ?_
  · extract_lets +onlyGivenNames -merge -underBinder p
    have hp : Within cs s0 p.2 := spiReadWords_within (sub hc) hs
    clear_value p
    exact Within.put_hst_spiRefused_spiOut (sub hc) hp
  · refine Within.ite (Within.put_hst_spiRefused_spiOut (sub hc) hs) ?_
    extract_lets +onlyGivenNames -merge -underBinder t
    have ht : Within cs s0 t := spiWriteWords_within (sub hc) hs
    clear_value t
    exact Within.put_hst_spiRefused_spiOut (sub hc) ht

end Sys2Proof.Machine
end

