-- ==== Sys2Proof/Laws/Session.lean ====
section
/-! SUPPORT. What each operation of Machine/Session.lean can change: one lemma per operation, cited in place of unfolding it. -/

namespace Sys2Proof.Machine

set_option Elab.async false

theorem allIdleTimeout_within {cs s0} {s} (hc : [.regs, .offers, .sess, .inkwell, .msix, .sw] ⊆ cs) (hs : Within cs s0 s) :
    Within cs s0 (allIdleTimeout s) := by
  unfold allIdleTimeout
  split
  · exact Within.ite (postHead_within (sub hc) (State.setB_within (sub hc) (Within.put_qil_sw (sub hc) hs))) hs
  · exact hs

theorem dropAsked_within {cs s0} {s n c} (hc : [.regs, .run, .load, .sw, .force, .qil, .jobs, .sea] ⊆ cs) (hs : Within cs s0 s) :
    Within cs s0 (dropAsked s n c) := by
  unfold dropAsked
  extract_lets +onlyGivenNames -merge -underBinder mine
  clear_value mine
  extract_lets +onlyGivenNames -merge -underBinder s1
  have hs1 : Within cs s0 s1 := by
    unfold s1
    split
    · exact Within.ite (State.setB_within (sub hc) (Within.put_qil_sw (sub hc) hs)) hs
    · exact hs
  clear_value s1
  extract_lets +onlyGivenNames -merge -underBinder s2
  have hs2 : Within cs s0 s2 := by
    unfold s2
    split
    · exact Within.ite (State.setB_within (sub hc) (hashDone_within (sub hc) (Within.put_qil_load (sub hc) hs1))) hs1
    · exact hs1
  clear_value s2
  exact sealCancel_within (sub hc) hs2

theorem cmdTimeout_within {cs s0} {s n cid} (hc : [.regs, .offers, .sess, .inkwell, .msix, .hst, .run, .load, .sw, .force, .qil, .jobs, .sea] ⊆ cs) (hs : Within cs s0 s) :
    Within cs s0 (cmdTimeout s n cid) := by
  unfold cmdTimeout
  split
  · refine Within.ite ?_ hs
    extract_lets +onlyGivenNames -merge -underBinder s1
    have hs1 : Within cs s0 s1 := Within.ite (dropAsked_within (sub hc) hs) hs
    clear_value s1
    exact issueReads_within (sub hc) (post_within (sub hc) (State.log_within (sub hc) hs1))
  · exact hs

theorem cplTimeout_within {cs s0} {s n} (hc : [.regs, .sess, .hst] ⊆ cs) (hs : Within cs s0 s) :
    Within cs s0 (cplTimeout s n) := by
  unfold cplTimeout
  split
  · exact Within.ite (aerNote_within (sub hc) (State.incW_within (sub hc) (putCmd_within (sub hc) hs))) hs
  · exact hs

theorem helloBody_within {cs s0} {n s c} (hc : [.regs] ⊆ cs) (hs : Within cs s0 s) :
    Within cs s0 (helloBody n s c).s := by
  unfold helloBody
  extract_lets +onlyGivenNames -merge -underBinder offer
  refine Within.iteS (refuse_within (sub hc) hs) ?_
  refine Within.iteS (refuse_within (sub hc) hs) ?_
  extract_lets +onlyGivenNames -merge -underBinder ver
  exact okay_within (sub hc) (State.setFs_within (sub hc) hs)

theorem modeSetBody_within {cs s0} {n s c} (hc : [.modePend] ⊆ cs) (hs : Within cs s0 s) :
    Within cs s0 (modeSetBody n s c).s := by
  unfold modeSetBody
  extract_lets +onlyGivenNames -merge -underBinder fn
  extract_lets +onlyGivenNames -merge -underBinder ha
  extract_lets +onlyGivenNames -merge -underBinder inst
  exact Within.iteS (refuse_within (sub hc) hs) (Within.iteS (refuse_within (sub hc) hs) (Within.iteS (refuse_within (sub hc) hs) (Within.iteS (refuse_within (sub hc) hs) (Within.iteS (okay_within (sub hc) hs) (goesOn_within (sub hc) (Within.put_sys_modePend (sub hc) hs))))))

theorem pullFails_within {cs s0} {s kind addr} (hc : [.offers, .hst] ⊆ cs) (hs : Within cs s0 s) :
    Within cs s0 (pullFails s kind addr) := by
  unfold pullFails
  exact Within.ite hs (State.log_within (sub hc) (Within.put_hst_pullErr (sub hc) hs))

theorem pullDone_within {cs s0} {s n p data} (hc : [.regs, .offers, .sess, .inkwell, .dram, .msix, .hst] ⊆ cs) (hs : Within cs s0 s) :
    Within cs s0 (pullDone s n p data) := by
  unfold pullDone
  split
  · split
    · refine Within.ite ?_ (Within.ite (issueReads_within (sub hc) (post_within (sub hc) (pullFails_within (sub hc) (State.incS_within (sub hc) hs)))) (issueReads_within (sub hc) (post_within (sub hc) (pullFails_within (sub hc) (aerNote_within (sub hc) (State.incS_within (sub hc) hs))))))
      extract_lets +onlyGivenNames -merge -underBinder d
      extract_lets +onlyGivenNames -merge -underBinder s1
      have hs1 : Within cs s0 s1 := State.dramWrite_within (sub hc) hs
      clear_value s1
      exact issueReads_within (sub hc) (settleHeads_within (sub hc) (putCmd_within (sub hc) (Within.put_hst_pullErr (sub hc) hs1)))
    · exact aerNote_within (sub hc) hs
  · exact aerNote_within (sub hc) hs

theorem readWords_within {cs s0} {r x x1 s} (hc : [.clk] ⊆ cs) (hs : Within cs s0 s) :
    Within cs s0 (readWords r x x1 s).2 := by
  induction x generalizing r x1 s with
  | zero =>
    rw [readWords]
    exact hs
  | succ k ih =>
    rw [readWords]
    exact ih (readReg_within (sub hc) hs)

theorem readRegBody_within {cs s0} {n s c} (hc : [.clk] ⊆ cs) (hs : Within cs s0 s) :
    Within cs s0 (readRegBody n s c).s := by
  unfold readRegBody
  extract_lets +onlyGivenNames -merge -underBinder count
  refine Within.iteS (refuse_within (sub hc) hs) ?_
  extract_lets +onlyGivenNames -merge -underBinder p
  have hp : Within cs s0 p.2 := readWords_within (sub hc) hs
  clear_value p
  exact okay_within (sub hc) hp

theorem sessionClose_within {cs s0} {s n} (hc : [.regs, .offers, .freeze, .scr, .sess, .inkwell, .msix, .pbi, .recs, .exporting, .vel, .sweep, .fuse, .so, .logicQ, .pub, .waits, .stk, .dl, .gp, .load, .sw, .force, .qil, .fc, .grp, .jobs, .dbg, .modePend, .staged, .commit] ⊆ cs) (hs : Within cs s0 s) :
    Within cs s0 (sessionClose s n) := by
  unfold sessionClose
  split
  · refine Within.ite ?_ hs
    extract_lets +onlyGivenNames -merge -underBinder s1
    have hs1 : Within cs s0 s1 := markStarted_within (sub hc) hs
    clear_value s1
    split
    · exact post_within (sub hc) hs1
    · exact Within.ite (post_within (sub hc) hs1) (closeSession_within (sub hc) (postOne_within (sub hc) hs1))
  · exact hs

theorem sessionIdle_within {cs s0} {s n} (hc : [.regs, .offers, .freeze, .scr, .sess, .msix, .pbi, .recs, .exporting, .vel, .sweep, .fuse, .so, .logicQ, .pub, .waits, .stk, .dl, .gp, .load, .sw, .force, .qil, .fc, .grp, .jobs, .dbg, .modePend, .staged, .commit] ⊆ cs) (hs : Within cs s0 s) :
    Within cs s0 (sessionIdle s n) := by
  unfold sessionIdle
  extract_lets +onlyGivenNames -merge -underBinder tmo
  exact Within.ite (closeSession_within (sub hc) hs) hs

theorem writeRegBody_within {cs s0} {n s c} (hc : [.regs, .clk, .dom, .offers, .sess, .inkwell, .msix, .hst, .sc, .pbi, .recs, .exporting, .vel, .cv, .afe, .so, .logicQ, .pub, .waits, .stk, .dl, .gp, .force, .qil, .fc, .grp, .burn, .sea, .dbg, .sys] ⊆ cs) (hs : Within cs s0 s) :
    Within cs s0 (writeRegBody n s c).s := by
  unfold writeRegBody
  extract_lets +onlyGivenNames -merge -underBinder a
  extract_lets +onlyGivenNames -merge -underBinder mask
  exact Within.iteS (refuse_within (sub hc) hs) (Within.iteS (refuse_within (sub hc) hs) (Within.iteS (refuse_within (sub hc) hs) (okay_within (sub hc) (regWrite_within (sub hc) hs))))

end Sys2Proof.Machine
end

