-- ==== Sys2Proof/Laws/State.lean ====
section
/-! SUPPORT. The updates of State: one lemma for each component that an update leaves alone, and the value it puts. -/

namespace Sys2Proof.Machine.State

set_option Elab.async false

variable (s : State)

@[simp] theorem setWord_pending (a : Nat) (w : Word) : (s.setWord a w).pending = s.pending := rfl
@[simp] theorem setWord_freeCtr (a : Nat) (w : Word) : (s.setWord a w).freeCtr = s.freeCtr := rfl
@[simp] theorem setWord_rul (a : Nat) (w : Word) : (s.setWord a w).rul = s.rul := rfl
@[simp] theorem setWord_scr (a : Nat) (w : Word) : (s.setWord a w).scr = s.scr := rfl
@[simp] theorem setWord_hst (a : Nat) (w : Word) : (s.setWord a w).hst = s.hst := rfl
@[simp] theorem setWord_pbi (a : Nat) (w : Word) : (s.setWord a w).pbi = s.pbi := rfl
@[simp] theorem setWord_vel (a : Nat) (w : Word) : (s.setWord a w).vel = s.vel := rfl
@[simp] theorem setWord_mem (a : Nat) (w : Word) : (s.setWord a w).mem = s.mem := rfl
@[simp] theorem setWord_afe (a : Nat) (w : Word) : (s.setWord a w).afe = s.afe := rfl
@[simp] theorem setWord_nib (a : Nat) (w : Word) : (s.setWord a w).nib = s.nib := rfl
@[simp] theorem setWord_stk (a : Nat) (w : Word) : (s.setWord a w).stk = s.stk := rfl
@[simp] theorem setWord_duc (a : Nat) (w : Word) : (s.setWord a w).duc = s.duc := rfl
@[simp] theorem setWord_qil (a : Nat) (w : Word) : (s.setWord a w).qil = s.qil := rfl
@[simp] theorem setWord_fio (a : Nat) (w : Word) : (s.setWord a w).fio = s.fio := rfl
@[simp] theorem setWord_sea (a : Nat) (w : Word) : (s.setWord a w).sea = s.sea := rfl
@[simp] theorem setWord_pkg (a : Nat) (w : Word) : (s.setWord a w).pkg = s.pkg := rfl
@[simp] theorem setWord_dbg (a : Nat) (w : Word) : (s.setWord a w).dbg = s.dbg := rfl
@[simp] theorem setWord_sys (a : Nat) (w : Word) : (s.setWord a w).sys = s.sys := rfl

@[simp] theorem wr_pending (a v : Nat) : (s.wr a v).pending = s.pending := rfl
@[simp] theorem wr_freeCtr (a v : Nat) : (s.wr a v).freeCtr = s.freeCtr := rfl
@[simp] theorem wr_rul (a v : Nat) : (s.wr a v).rul = s.rul := rfl
@[simp] theorem wr_scr (a v : Nat) : (s.wr a v).scr = s.scr := rfl
@[simp] theorem wr_hst (a v : Nat) : (s.wr a v).hst = s.hst := rfl
@[simp] theorem wr_pbi (a v : Nat) : (s.wr a v).pbi = s.pbi := rfl
@[simp] theorem wr_vel (a v : Nat) : (s.wr a v).vel = s.vel := rfl
@[simp] theorem wr_mem (a v : Nat) : (s.wr a v).mem = s.mem := rfl
@[simp] theorem wr_afe (a v : Nat) : (s.wr a v).afe = s.afe := rfl
@[simp] theorem wr_nib (a v : Nat) : (s.wr a v).nib = s.nib := rfl
@[simp] theorem wr_stk (a v : Nat) : (s.wr a v).stk = s.stk := rfl
@[simp] theorem wr_duc (a v : Nat) : (s.wr a v).duc = s.duc := rfl
@[simp] theorem wr_qil (a v : Nat) : (s.wr a v).qil = s.qil := rfl
@[simp] theorem wr_fio (a v : Nat) : (s.wr a v).fio = s.fio := rfl
@[simp] theorem wr_sea (a v : Nat) : (s.wr a v).sea = s.sea := rfl
@[simp] theorem wr_pkg (a v : Nat) : (s.wr a v).pkg = s.pkg := rfl
@[simp] theorem wr_dbg (a v : Nat) : (s.wr a v).dbg = s.dbg := rfl
@[simp] theorem wr_sys (a v : Nat) : (s.wr a v).sys = s.sys := rfl

@[simp] theorem setF_pending (x : Fld) (v : Nat) : (s.setF x v).pending = s.pending := rfl
@[simp] theorem setF_freeCtr (x : Fld) (v : Nat) : (s.setF x v).freeCtr = s.freeCtr := rfl
@[simp] theorem setF_rul (x : Fld) (v : Nat) : (s.setF x v).rul = s.rul := rfl
@[simp] theorem setF_scr (x : Fld) (v : Nat) : (s.setF x v).scr = s.scr := rfl
@[simp] theorem setF_hst (x : Fld) (v : Nat) : (s.setF x v).hst = s.hst := rfl
@[simp] theorem setF_pbi (x : Fld) (v : Nat) : (s.setF x v).pbi = s.pbi := rfl
@[simp] theorem setF_vel (x : Fld) (v : Nat) : (s.setF x v).vel = s.vel := rfl
@[simp] theorem setF_mem (x : Fld) (v : Nat) : (s.setF x v).mem = s.mem := rfl
@[simp] theorem setF_afe (x : Fld) (v : Nat) : (s.setF x v).afe = s.afe := rfl
@[simp] theorem setF_nib (x : Fld) (v : Nat) : (s.setF x v).nib = s.nib := rfl
@[simp] theorem setF_stk (x : Fld) (v : Nat) : (s.setF x v).stk = s.stk := rfl
@[simp] theorem setF_duc (x : Fld) (v : Nat) : (s.setF x v).duc = s.duc := rfl
@[simp] theorem setF_qil (x : Fld) (v : Nat) : (s.setF x v).qil = s.qil := rfl
@[simp] theorem setF_fio (x : Fld) (v : Nat) : (s.setF x v).fio = s.fio := rfl
@[simp] theorem setF_sea (x : Fld) (v : Nat) : (s.setF x v).sea = s.sea := rfl
@[simp] theorem setF_pkg (x : Fld) (v : Nat) : (s.setF x v).pkg = s.pkg := rfl
@[simp] theorem setF_dbg (x : Fld) (v : Nat) : (s.setF x v).dbg = s.dbg := rfl
@[simp] theorem setF_sys (x : Fld) (v : Nat) : (s.setF x v).sys = s.sys := rfl

@[simp] theorem setB_pending (x : Fld) (b : Bool) : (s.setB x b).pending = s.pending := rfl
@[simp] theorem setB_freeCtr (x : Fld) (b : Bool) : (s.setB x b).freeCtr = s.freeCtr := rfl
@[simp] theorem setB_rul (x : Fld) (b : Bool) : (s.setB x b).rul = s.rul := rfl
@[simp] theorem setB_scr (x : Fld) (b : Bool) : (s.setB x b).scr = s.scr := rfl
@[simp] theorem setB_hst (x : Fld) (b : Bool) : (s.setB x b).hst = s.hst := rfl
@[simp] theorem setB_pbi (x : Fld) (b : Bool) : (s.setB x b).pbi = s.pbi := rfl
@[simp] theorem setB_vel (x : Fld) (b : Bool) : (s.setB x b).vel = s.vel := rfl
@[simp] theorem setB_mem (x : Fld) (b : Bool) : (s.setB x b).mem = s.mem := rfl
@[simp] theorem setB_afe (x : Fld) (b : Bool) : (s.setB x b).afe = s.afe := rfl
@[simp] theorem setB_nib (x : Fld) (b : Bool) : (s.setB x b).nib = s.nib := rfl
@[simp] theorem setB_stk (x : Fld) (b : Bool) : (s.setB x b).stk = s.stk := rfl
@[simp] theorem setB_duc (x : Fld) (b : Bool) : (s.setB x b).duc = s.duc := rfl
@[simp] theorem setB_qil (x : Fld) (b : Bool) : (s.setB x b).qil = s.qil := rfl
@[simp] theorem setB_fio (x : Fld) (b : Bool) : (s.setB x b).fio = s.fio := rfl
@[simp] theorem setB_sea (x : Fld) (b : Bool) : (s.setB x b).sea = s.sea := rfl
@[simp] theorem setB_pkg (x : Fld) (b : Bool) : (s.setB x b).pkg = s.pkg := rfl
@[simp] theorem setB_dbg (x : Fld) (b : Bool) : (s.setB x b).dbg = s.dbg := rfl
@[simp] theorem setB_sys (x : Fld) (b : Bool) : (s.setB x b).sys = s.sys := rfl

@[simp] theorem incW_pending (x : Fld) (n : Nat) : (s.incW x n).pending = s.pending := rfl
@[simp] theorem incW_freeCtr (x : Fld) (n : Nat) : (s.incW x n).freeCtr = s.freeCtr := rfl
@[simp] theorem incW_rul (x : Fld) (n : Nat) : (s.incW x n).rul = s.rul := rfl
@[simp] theorem incW_scr (x : Fld) (n : Nat) : (s.incW x n).scr = s.scr := rfl
@[simp] theorem incW_hst (x : Fld) (n : Nat) : (s.incW x n).hst = s.hst := rfl
@[simp] theorem incW_pbi (x : Fld) (n : Nat) : (s.incW x n).pbi = s.pbi := rfl
@[simp] theorem incW_vel (x : Fld) (n : Nat) : (s.incW x n).vel = s.vel := rfl
@[simp] theorem incW_mem (x : Fld) (n : Nat) : (s.incW x n).mem = s.mem := rfl
@[simp] theorem incW_afe (x : Fld) (n : Nat) : (s.incW x n).afe = s.afe := rfl
@[simp] theorem incW_nib (x : Fld) (n : Nat) : (s.incW x n).nib = s.nib := rfl
@[simp] theorem incW_stk (x : Fld) (n : Nat) : (s.incW x n).stk = s.stk := rfl
@[simp] theorem incW_duc (x : Fld) (n : Nat) : (s.incW x n).duc = s.duc := rfl
@[simp] theorem incW_qil (x : Fld) (n : Nat) : (s.incW x n).qil = s.qil := rfl
@[simp] theorem incW_fio (x : Fld) (n : Nat) : (s.incW x n).fio = s.fio := rfl
@[simp] theorem incW_sea (x : Fld) (n : Nat) : (s.incW x n).sea = s.sea := rfl
@[simp] theorem incW_pkg (x : Fld) (n : Nat) : (s.incW x n).pkg = s.pkg := rfl
@[simp] theorem incW_dbg (x : Fld) (n : Nat) : (s.incW x n).dbg = s.dbg := rfl
@[simp] theorem incW_sys (x : Fld) (n : Nat) : (s.incW x n).sys = s.sys := rfl

@[simp] theorem incS_pending (x : Fld) (n : Nat) : (s.incS x n).pending = s.pending := rfl
@[simp] theorem incS_freeCtr (x : Fld) (n : Nat) : (s.incS x n).freeCtr = s.freeCtr := rfl
@[simp] theorem incS_rul (x : Fld) (n : Nat) : (s.incS x n).rul = s.rul := rfl
@[simp] theorem incS_scr (x : Fld) (n : Nat) : (s.incS x n).scr = s.scr := rfl
@[simp] theorem incS_hst (x : Fld) (n : Nat) : (s.incS x n).hst = s.hst := rfl
@[simp] theorem incS_pbi (x : Fld) (n : Nat) : (s.incS x n).pbi = s.pbi := rfl
@[simp] theorem incS_vel (x : Fld) (n : Nat) : (s.incS x n).vel = s.vel := rfl
@[simp] theorem incS_mem (x : Fld) (n : Nat) : (s.incS x n).mem = s.mem := rfl
@[simp] theorem incS_afe (x : Fld) (n : Nat) : (s.incS x n).afe = s.afe := rfl
@[simp] theorem incS_nib (x : Fld) (n : Nat) : (s.incS x n).nib = s.nib := rfl
@[simp] theorem incS_stk (x : Fld) (n : Nat) : (s.incS x n).stk = s.stk := rfl
@[simp] theorem incS_duc (x : Fld) (n : Nat) : (s.incS x n).duc = s.duc := rfl
@[simp] theorem incS_qil (x : Fld) (n : Nat) : (s.incS x n).qil = s.qil := rfl
@[simp] theorem incS_fio (x : Fld) (n : Nat) : (s.incS x n).fio = s.fio := rfl
@[simp] theorem incS_sea (x : Fld) (n : Nat) : (s.incS x n).sea = s.sea := rfl
@[simp] theorem incS_pkg (x : Fld) (n : Nat) : (s.incS x n).pkg = s.pkg := rfl
@[simp] theorem incS_dbg (x : Fld) (n : Nat) : (s.incS x n).dbg = s.dbg := rfl
@[simp] theorem incS_sys (x : Fld) (n : Nat) : (s.incS x n).sys = s.sys := rfl

@[simp] theorem offer_pending (r : LogRec) : (s.offer r).pending = s.pending := rfl
@[simp] theorem offer_freeCtr (r : LogRec) : (s.offer r).freeCtr = s.freeCtr := rfl
@[simp] theorem offer_regs (r : LogRec) : (s.offer r).regs = s.regs := rfl
@[simp] theorem offer_rul (r : LogRec) : (s.offer r).rul = s.rul := rfl
@[simp] theorem offer_hst (r : LogRec) : (s.offer r).hst = s.hst := rfl
@[simp] theorem offer_pbi (r : LogRec) : (s.offer r).pbi = s.pbi := rfl
@[simp] theorem offer_vel (r : LogRec) : (s.offer r).vel = s.vel := rfl
@[simp] theorem offer_mem (r : LogRec) : (s.offer r).mem = s.mem := rfl
@[simp] theorem offer_afe (r : LogRec) : (s.offer r).afe = s.afe := rfl
@[simp] theorem offer_nib (r : LogRec) : (s.offer r).nib = s.nib := rfl
@[simp] theorem offer_stk (r : LogRec) : (s.offer r).stk = s.stk := rfl
@[simp] theorem offer_duc (r : LogRec) : (s.offer r).duc = s.duc := rfl
@[simp] theorem offer_qil (r : LogRec) : (s.offer r).qil = s.qil := rfl
@[simp] theorem offer_fio (r : LogRec) : (s.offer r).fio = s.fio := rfl
@[simp] theorem offer_sea (r : LogRec) : (s.offer r).sea = s.sea := rfl
@[simp] theorem offer_pkg (r : LogRec) : (s.offer r).pkg = s.pkg := rfl
@[simp] theorem offer_dbg (r : LogRec) : (s.offer r).dbg = s.dbg := rfl
@[simp] theorem offer_sys (r : LogRec) : (s.offer r).sys = s.sys := rfl
@[simp] theorem f_offer (r : LogRec) (y : Fld) : (s.offer r).f y = s.f y := rfl
@[simp] theorem on_offer (r : LogRec) (y : Fld) : (s.offer r).on y = s.on y := rfl
@[simp] theorem rd_offer (r : LogRec) (y : Nat) : (s.offer r).rd y = s.rd y := rfl

@[simp] theorem log_pending (e : Event) (n : Nat) (l : List Item) : (s.log e n l).pending = s.pending := rfl
@[simp] theorem log_freeCtr (e : Event) (n : Nat) (l : List Item) : (s.log e n l).freeCtr = s.freeCtr := rfl
@[simp] theorem log_regs (e : Event) (n : Nat) (l : List Item) : (s.log e n l).regs = s.regs := rfl
@[simp] theorem log_rul (e : Event) (n : Nat) (l : List Item) : (s.log e n l).rul = s.rul := rfl
@[simp] theorem log_hst (e : Event) (n : Nat) (l : List Item) : (s.log e n l).hst = s.hst := rfl
@[simp] theorem log_pbi (e : Event) (n : Nat) (l : List Item) : (s.log e n l).pbi = s.pbi := rfl
@[simp] theorem log_vel (e : Event) (n : Nat) (l : List Item) : (s.log e n l).vel = s.vel := rfl
@[simp] theorem log_mem (e : Event) (n : Nat) (l : List Item) : (s.log e n l).mem = s.mem := rfl
@[simp] theorem log_afe (e : Event) (n : Nat) (l : List Item) : (s.log e n l).afe = s.afe := rfl
@[simp] theorem log_nib (e : Event) (n : Nat) (l : List Item) : (s.log e n l).nib = s.nib := rfl
@[simp] theorem log_stk (e : Event) (n : Nat) (l : List Item) : (s.log e n l).stk = s.stk := rfl
@[simp] theorem log_duc (e : Event) (n : Nat) (l : List Item) : (s.log e n l).duc = s.duc := rfl
@[simp] theorem log_qil (e : Event) (n : Nat) (l : List Item) : (s.log e n l).qil = s.qil := rfl
@[simp] theorem log_fio (e : Event) (n : Nat) (l : List Item) : (s.log e n l).fio = s.fio := rfl
@[simp] theorem log_sea (e : Event) (n : Nat) (l : List Item) : (s.log e n l).sea = s.sea := rfl
@[simp] theorem log_pkg (e : Event) (n : Nat) (l : List Item) : (s.log e n l).pkg = s.pkg := rfl
@[simp] theorem log_dbg (e : Event) (n : Nat) (l : List Item) : (s.log e n l).dbg = s.dbg := rfl
@[simp] theorem log_sys (e : Event) (n : Nat) (l : List Item) : (s.log e n l).sys = s.sys := rfl
@[simp] theorem f_log (e : Event) (n : Nat) (l : List Item) (y : Fld) : (s.log e n l).f y = s.f y := rfl
@[simp] theorem on_log (e : Event) (n : Nat) (l : List Item) (y : Fld) : (s.log e n l).on y = s.on y := rfl
@[simp] theorem rd_log (e : Event) (n : Nat) (l : List Item) (y : Nat) : (s.log e n l).rd y = s.rd y := rfl

@[simp] theorem setScr_pending (x : Scr) : (s.setScr x).pending = s.pending := rfl
@[simp] theorem setScr_freeCtr (x : Scr) : (s.setScr x).freeCtr = s.freeCtr := rfl
@[simp] theorem setScr_regs (x : Scr) : (s.setScr x).regs = s.regs := rfl
@[simp] theorem setScr_rul (x : Scr) : (s.setScr x).rul = s.rul := rfl
@[simp] theorem setScr_hst (x : Scr) : (s.setScr x).hst = s.hst := rfl
@[simp] theorem setScr_pbi (x : Scr) : (s.setScr x).pbi = s.pbi := rfl
@[simp] theorem setScr_vel (x : Scr) : (s.setScr x).vel = s.vel := rfl
@[simp] theorem setScr_mem (x : Scr) : (s.setScr x).mem = s.mem := rfl
@[simp] theorem setScr_afe (x : Scr) : (s.setScr x).afe = s.afe := rfl
@[simp] theorem setScr_nib (x : Scr) : (s.setScr x).nib = s.nib := rfl
@[simp] theorem setScr_stk (x : Scr) : (s.setScr x).stk = s.stk := rfl
@[simp] theorem setScr_duc (x : Scr) : (s.setScr x).duc = s.duc := rfl
@[simp] theorem setScr_qil (x : Scr) : (s.setScr x).qil = s.qil := rfl
@[simp] theorem setScr_fio (x : Scr) : (s.setScr x).fio = s.fio := rfl
@[simp] theorem setScr_sea (x : Scr) : (s.setScr x).sea = s.sea := rfl
@[simp] theorem setScr_pkg (x : Scr) : (s.setScr x).pkg = s.pkg := rfl
@[simp] theorem setScr_dbg (x : Scr) : (s.setScr x).dbg = s.dbg := rfl
@[simp] theorem setScr_sys (x : Scr) : (s.setScr x).sys = s.sys := rfl
@[simp] theorem setScr_scr (x : Scr) : (s.setScr x).scr = x := rfl
@[simp] theorem f_setScr (x : Scr) (y : Fld) : (s.setScr x).f y = s.f y := rfl
@[simp] theorem on_setScr (x : Scr) (y : Fld) : (s.setScr x).on y = s.on y := rfl
@[simp] theorem rd_setScr (x : Scr) (y : Nat) : (s.setScr x).rd y = s.rd y := rfl

@[simp] theorem inkWrite_pending (a : Nat) (l : List Byte) : (s.inkWrite a l).pending = s.pending := rfl
@[simp] theorem inkWrite_freeCtr (a : Nat) (l : List Byte) : (s.inkWrite a l).freeCtr = s.freeCtr := rfl
@[simp] theorem inkWrite_regs (a : Nat) (l : List Byte) : (s.inkWrite a l).regs = s.regs := rfl
@[simp] theorem inkWrite_rul (a : Nat) (l : List Byte) : (s.inkWrite a l).rul = s.rul := rfl
@[simp] theorem inkWrite_scr (a : Nat) (l : List Byte) : (s.inkWrite a l).scr = s.scr := rfl
@[simp] theorem inkWrite_pbi (a : Nat) (l : List Byte) : (s.inkWrite a l).pbi = s.pbi := rfl
@[simp] theorem inkWrite_vel (a : Nat) (l : List Byte) : (s.inkWrite a l).vel = s.vel := rfl
@[simp] theorem inkWrite_mem (a : Nat) (l : List Byte) : (s.inkWrite a l).mem = s.mem := rfl
@[simp] theorem inkWrite_afe (a : Nat) (l : List Byte) : (s.inkWrite a l).afe = s.afe := rfl
@[simp] theorem inkWrite_nib (a : Nat) (l : List Byte) : (s.inkWrite a l).nib = s.nib := rfl
@[simp] theorem inkWrite_stk (a : Nat) (l : List Byte) : (s.inkWrite a l).stk = s.stk := rfl
@[simp] theorem inkWrite_duc (a : Nat) (l : List Byte) : (s.inkWrite a l).duc = s.duc := rfl
@[simp] theorem inkWrite_qil (a : Nat) (l : List Byte) : (s.inkWrite a l).qil = s.qil := rfl
@[simp] theorem inkWrite_fio (a : Nat) (l : List Byte) : (s.inkWrite a l).fio = s.fio := rfl
@[simp] theorem inkWrite_sea (a : Nat) (l : List Byte) : (s.inkWrite a l).sea = s.sea := rfl
@[simp] theorem inkWrite_pkg (a : Nat) (l : List Byte) : (s.inkWrite a l).pkg = s.pkg := rfl
@[simp] theorem inkWrite_dbg (a : Nat) (l : List Byte) : (s.inkWrite a l).dbg = s.dbg := rfl
@[simp] theorem inkWrite_sys (a : Nat) (l : List Byte) : (s.inkWrite a l).sys = s.sys := rfl
@[simp] theorem f_inkWrite (a : Nat) (l : List Byte) (y : Fld) : (s.inkWrite a l).f y = s.f y := rfl
@[simp] theorem on_inkWrite (a : Nat) (l : List Byte) (y : Fld) : (s.inkWrite a l).on y = s.on y := rfl
@[simp] theorem rd_inkWrite (a : Nat) (l : List Byte) (y : Nat) : (s.inkWrite a l).rd y = s.rd y := rfl

@[simp] theorem dramWrite_pending (a : Nat) (l : List Byte) : (s.dramWrite a l).pending = s.pending := rfl
@[simp] theorem dramWrite_freeCtr (a : Nat) (l : List Byte) : (s.dramWrite a l).freeCtr = s.freeCtr := rfl
@[simp] theorem dramWrite_regs (a : Nat) (l : List Byte) : (s.dramWrite a l).regs = s.regs := rfl
@[simp] theorem dramWrite_rul (a : Nat) (l : List Byte) : (s.dramWrite a l).rul = s.rul := rfl
@[simp] theorem dramWrite_scr (a : Nat) (l : List Byte) : (s.dramWrite a l).scr = s.scr := rfl
@[simp] theorem dramWrite_pbi (a : Nat) (l : List Byte) : (s.dramWrite a l).pbi = s.pbi := rfl
@[simp] theorem dramWrite_vel (a : Nat) (l : List Byte) : (s.dramWrite a l).vel = s.vel := rfl
@[simp] theorem dramWrite_mem (a : Nat) (l : List Byte) : (s.dramWrite a l).mem = s.mem := rfl
@[simp] theorem dramWrite_afe (a : Nat) (l : List Byte) : (s.dramWrite a l).afe = s.afe := rfl
@[simp] theorem dramWrite_nib (a : Nat) (l : List Byte) : (s.dramWrite a l).nib = s.nib := rfl
@[simp] theorem dramWrite_stk (a : Nat) (l : List Byte) : (s.dramWrite a l).stk = s.stk := rfl
@[simp] theorem dramWrite_duc (a : Nat) (l : List Byte) : (s.dramWrite a l).duc = s.duc := rfl
@[simp] theorem dramWrite_qil (a : Nat) (l : List Byte) : (s.dramWrite a l).qil = s.qil := rfl
@[simp] theorem dramWrite_fio (a : Nat) (l : List Byte) : (s.dramWrite a l).fio = s.fio := rfl
@[simp] theorem dramWrite_sea (a : Nat) (l : List Byte) : (s.dramWrite a l).sea = s.sea := rfl
@[simp] theorem dramWrite_pkg (a : Nat) (l : List Byte) : (s.dramWrite a l).pkg = s.pkg := rfl
@[simp] theorem dramWrite_dbg (a : Nat) (l : List Byte) : (s.dramWrite a l).dbg = s.dbg := rfl
@[simp] theorem dramWrite_sys (a : Nat) (l : List Byte) : (s.dramWrite a l).sys = s.sys := rfl
@[simp] theorem f_dramWrite (a : Nat) (l : List Byte) (y : Fld) : (s.dramWrite a l).f y = s.f y := rfl
@[simp] theorem on_dramWrite (a : Nat) (l : List Byte) (y : Fld) : (s.dramWrite a l).on y = s.on y := rfl
@[simp] theorem rd_dramWrite (a : Nat) (l : List Byte) (y : Nat) : (s.dramWrite a l).rd y = s.rd y := rfl

@[simp] theorem setSess_pending (n : Nat) (x : Session) : (s.setSess n x).pending = s.pending := rfl
@[simp] theorem setSess_freeCtr (n : Nat) (x : Session) : (s.setSess n x).freeCtr = s.freeCtr := rfl
@[simp] theorem setSess_regs (n : Nat) (x : Session) : (s.setSess n x).regs = s.regs := rfl
@[simp] theorem setSess_rul (n : Nat) (x : Session) : (s.setSess n x).rul = s.rul := rfl
@[simp] theorem setSess_scr (n : Nat) (x : Session) : (s.setSess n x).scr = s.scr := rfl
@[simp] theorem setSess_pbi (n : Nat) (x : Session) : (s.setSess n x).pbi = s.pbi := rfl
@[simp] theorem setSess_vel (n : Nat) (x : Session) : (s.setSess n x).vel = s.vel := rfl
@[simp] theorem setSess_mem (n : Nat) (x : Session) : (s.setSess n x).mem = s.mem := rfl
@[simp] theorem setSess_afe (n : Nat) (x : Session) : (s.setSess n x).afe = s.afe := rfl
@[simp] theorem setSess_nib (n : Nat) (x : Session) : (s.setSess n x).nib = s.nib := rfl
@[simp] theorem setSess_stk (n : Nat) (x : Session) : (s.setSess n x).stk = s.stk := rfl
@[simp] theorem setSess_duc (n : Nat) (x : Session) : (s.setSess n x).duc = s.duc := rfl
@[simp] theorem setSess_qil (n : Nat) (x : Session) : (s.setSess n x).qil = s.qil := rfl
@[simp] theorem setSess_fio (n : Nat) (x : Session) : (s.setSess n x).fio = s.fio := rfl
@[simp] theorem setSess_sea (n : Nat) (x : Session) : (s.setSess n x).sea = s.sea := rfl
@[simp] theorem setSess_pkg (n : Nat) (x : Session) : (s.setSess n x).pkg = s.pkg := rfl
@[simp] theorem setSess_dbg (n : Nat) (x : Session) : (s.setSess n x).dbg = s.dbg := rfl
@[simp] theorem setSess_sys (n : Nat) (x : Session) : (s.setSess n x).sys = s.sys := rfl
@[simp] theorem f_setSess (n : Nat) (x : Session) (y : Fld) : (s.setSess n x).f y = s.f y := rfl
@[simp] theorem on_setSess (n : Nat) (x : Session) (y : Fld) : (s.setSess n x).on y = s.on y := rfl
@[simp] theorem rd_setSess (n : Nat) (x : Session) (y : Nat) : (s.setSess n x).rd y = s.rd y := rfl

@[simp] theorem setHst_pending (x : Hst) : (s.setHst x).pending = s.pending := rfl
@[simp] theorem setHst_freeCtr (x : Hst) : (s.setHst x).freeCtr = s.freeCtr := rfl
@[simp] theorem setHst_regs (x : Hst) : (s.setHst x).regs = s.regs := rfl
@[simp] theorem setHst_rul (x : Hst) : (s.setHst x).rul = s.rul := rfl
@[simp] theorem setHst_scr (x : Hst) : (s.setHst x).scr = s.scr := rfl
@[simp] theorem setHst_pbi (x : Hst) : (s.setHst x).pbi = s.pbi := rfl
@[simp] theorem setHst_vel (x : Hst) : (s.setHst x).vel = s.vel := rfl
@[simp] theorem setHst_mem (x : Hst) : (s.setHst x).mem = s.mem := rfl
@[simp] theorem setHst_afe (x : Hst) : (s.setHst x).afe = s.afe := rfl
@[simp] theorem setHst_nib (x : Hst) : (s.setHst x).nib = s.nib := rfl
@[simp] theorem setHst_stk (x : Hst) : (s.setHst x).stk = s.stk := rfl
@[simp] theorem setHst_duc (x : Hst) : (s.setHst x).duc = s.duc := rfl
@[simp] theorem setHst_qil (x : Hst) : (s.setHst x).qil = s.qil := rfl
@[simp] theorem setHst_fio (x : Hst) : (s.setHst x).fio = s.fio := rfl
@[simp] theorem setHst_sea (x : Hst) : (s.setHst x).sea = s.sea := rfl
@[simp] theorem setHst_pkg (x : Hst) : (s.setHst x).pkg = s.pkg := rfl
@[simp] theorem setHst_dbg (x : Hst) : (s.setHst x).dbg = s.dbg := rfl
@[simp] theorem setHst_sys (x : Hst) : (s.setHst x).sys = s.sys := rfl
@[simp] theorem setHst_hst (x : Hst) : (s.setHst x).hst = x := rfl
@[simp] theorem f_setHst (x : Hst) (y : Fld) : (s.setHst x).f y = s.f y := rfl
@[simp] theorem on_setHst (x : Hst) (y : Fld) : (s.setHst x).on y = s.on y := rfl
@[simp] theorem rd_setHst (x : Hst) (y : Nat) : (s.setHst x).rd y = s.rd y := rfl

@[simp] theorem setClk_pending (x : Clock) : (s.setClk x).pending = s.pending := rfl
@[simp] theorem setClk_freeCtr (x : Clock) : (s.setClk x).freeCtr = s.freeCtr := rfl
@[simp] theorem setClk_regs (x : Clock) : (s.setClk x).regs = s.regs := rfl
@[simp] theorem setClk_scr (x : Clock) : (s.setClk x).scr = s.scr := rfl
@[simp] theorem setClk_hst (x : Clock) : (s.setClk x).hst = s.hst := rfl
@[simp] theorem setClk_pbi (x : Clock) : (s.setClk x).pbi = s.pbi := rfl
@[simp] theorem setClk_vel (x : Clock) : (s.setClk x).vel = s.vel := rfl
@[simp] theorem setClk_mem (x : Clock) : (s.setClk x).mem = s.mem := rfl
@[simp] theorem setClk_afe (x : Clock) : (s.setClk x).afe = s.afe := rfl
@[simp] theorem setClk_nib (x : Clock) : (s.setClk x).nib = s.nib := rfl
@[simp] theorem setClk_stk (x : Clock) : (s.setClk x).stk = s.stk := rfl
@[simp] theorem setClk_duc (x : Clock) : (s.setClk x).duc = s.duc := rfl
@[simp] theorem setClk_qil (x : Clock) : (s.setClk x).qil = s.qil := rfl
@[simp] theorem setClk_fio (x : Clock) : (s.setClk x).fio = s.fio := rfl
@[simp] theorem setClk_sea (x : Clock) : (s.setClk x).sea = s.sea := rfl
@[simp] theorem setClk_pkg (x : Clock) : (s.setClk x).pkg = s.pkg := rfl
@[simp] theorem setClk_dbg (x : Clock) : (s.setClk x).dbg = s.dbg := rfl
@[simp] theorem setClk_sys (x : Clock) : (s.setClk x).sys = s.sys := rfl
@[simp] theorem f_setClk (x : Clock) (y : Fld) : (s.setClk x).f y = s.f y := rfl
@[simp] theorem on_setClk (x : Clock) (y : Fld) : (s.setClk x).on y = s.on y := rfl
@[simp] theorem rd_setClk (x : Clock) (y : Nat) : (s.setClk x).rd y = s.rd y := rfl

@[simp] theorem setDom_pending (n : Nat) (x : DomState) : (s.setDom n x).pending = s.pending := rfl
@[simp] theorem setDom_freeCtr (n : Nat) (x : DomState) : (s.setDom n x).freeCtr = s.freeCtr := rfl
@[simp] theorem setDom_regs (n : Nat) (x : DomState) : (s.setDom n x).regs = s.regs := rfl
@[simp] theorem setDom_scr (n : Nat) (x : DomState) : (s.setDom n x).scr = s.scr := rfl
@[simp] theorem setDom_hst (n : Nat) (x : DomState) : (s.setDom n x).hst = s.hst := rfl
@[simp] theorem setDom_pbi (n : Nat) (x : DomState) : (s.setDom n x).pbi = s.pbi := rfl
@[simp] theorem setDom_vel (n : Nat) (x : DomState) : (s.setDom n x).vel = s.vel := rfl
@[simp] theorem setDom_mem (n : Nat) (x : DomState) : (s.setDom n x).mem = s.mem := rfl
@[simp] theorem setDom_afe (n : Nat) (x : DomState) : (s.setDom n x).afe = s.afe := rfl
@[simp] theorem setDom_nib (n : Nat) (x : DomState) : (s.setDom n x).nib = s.nib := rfl
@[simp] theorem setDom_stk (n : Nat) (x : DomState) : (s.setDom n x).stk = s.stk := rfl
@[simp] theorem setDom_duc (n : Nat) (x : DomState) : (s.setDom n x).duc = s.duc := rfl
@[simp] theorem setDom_qil (n : Nat) (x : DomState) : (s.setDom n x).qil = s.qil := rfl
@[simp] theorem setDom_fio (n : Nat) (x : DomState) : (s.setDom n x).fio = s.fio := rfl
@[simp] theorem setDom_sea (n : Nat) (x : DomState) : (s.setDom n x).sea = s.sea := rfl
@[simp] theorem setDom_pkg (n : Nat) (x : DomState) : (s.setDom n x).pkg = s.pkg := rfl
@[simp] theorem setDom_dbg (n : Nat) (x : DomState) : (s.setDom n x).dbg = s.dbg := rfl
@[simp] theorem setDom_sys (n : Nat) (x : DomState) : (s.setDom n x).sys = s.sys := rfl
@[simp] theorem f_setDom (n : Nat) (x : DomState) (y : Fld) : (s.setDom n x).f y = s.f y := rfl
@[simp] theorem on_setDom (n : Nat) (x : DomState) (y : Fld) : (s.setDom n x).on y = s.on y := rfl
@[simp] theorem rd_setDom (n : Nat) (x : DomState) (y : Nat) : (s.setDom n x).rd y = s.rd y := rfl

@[simp] theorem setPtpPort_pending (n : Nat) (x : PtpPort) : (s.setPtpPort n x).pending = s.pending := rfl
@[simp] theorem setPtpPort_freeCtr (n : Nat) (x : PtpPort) : (s.setPtpPort n x).freeCtr = s.freeCtr := rfl
@[simp] theorem setPtpPort_regs (n : Nat) (x : PtpPort) : (s.setPtpPort n x).regs = s.regs := rfl
@[simp] theorem setPtpPort_scr (n : Nat) (x : PtpPort) : (s.setPtpPort n x).scr = s.scr := rfl
@[simp] theorem setPtpPort_hst (n : Nat) (x : PtpPort) : (s.setPtpPort n x).hst = s.hst := rfl
@[simp] theorem setPtpPort_pbi (n : Nat) (x : PtpPort) : (s.setPtpPort n x).pbi = s.pbi := rfl
@[simp] theorem setPtpPort_vel (n : Nat) (x : PtpPort) : (s.setPtpPort n x).vel = s.vel := rfl
@[simp] theorem setPtpPort_mem (n : Nat) (x : PtpPort) : (s.setPtpPort n x).mem = s.mem := rfl
@[simp] theorem setPtpPort_afe (n : Nat) (x : PtpPort) : (s.setPtpPort n x).afe = s.afe := rfl
@[simp] theorem setPtpPort_nib (n : Nat) (x : PtpPort) : (s.setPtpPort n x).nib = s.nib := rfl
@[simp] theorem setPtpPort_stk (n : Nat) (x : PtpPort) : (s.setPtpPort n x).stk = s.stk := rfl
@[simp] theorem setPtpPort_duc (n : Nat) (x : PtpPort) : (s.setPtpPort n x).duc = s.duc := rfl
@[simp] theorem setPtpPort_qil (n : Nat) (x : PtpPort) : (s.setPtpPort n x).qil = s.qil := rfl
@[simp] theorem setPtpPort_fio (n : Nat) (x : PtpPort) : (s.setPtpPort n x).fio = s.fio := rfl
@[simp] theorem setPtpPort_sea (n : Nat) (x : PtpPort) : (s.setPtpPort n x).sea = s.sea := rfl
@[simp] theorem setPtpPort_pkg (n : Nat) (x : PtpPort) : (s.setPtpPort n x).pkg = s.pkg := rfl
@[simp] theorem setPtpPort_dbg (n : Nat) (x : PtpPort) : (s.setPtpPort n x).dbg = s.dbg := rfl
@[simp] theorem setPtpPort_sys (n : Nat) (x : PtpPort) : (s.setPtpPort n x).sys = s.sys := rfl
@[simp] theorem f_setPtpPort (n : Nat) (x : PtpPort) (y : Fld) : (s.setPtpPort n x).f y = s.f y := rfl
@[simp] theorem on_setPtpPort (n : Nat) (x : PtpPort) (y : Fld) : (s.setPtpPort n x).on y = s.on y := rfl
@[simp] theorem rd_setPtpPort (n : Nat) (x : PtpPort) (y : Nat) : (s.setPtpPort n x).rd y = s.rd y := rfl

@[simp] theorem setPort_pending (n : Nat) (x : PortState) : (s.setPort n x).pending = s.pending := rfl
@[simp] theorem setPort_freeCtr (n : Nat) (x : PortState) : (s.setPort n x).freeCtr = s.freeCtr := rfl
@[simp] theorem setPort_regs (n : Nat) (x : PortState) : (s.setPort n x).regs = s.regs := rfl
@[simp] theorem setPort_rul (n : Nat) (x : PortState) : (s.setPort n x).rul = s.rul := rfl
@[simp] theorem setPort_scr (n : Nat) (x : PortState) : (s.setPort n x).scr = s.scr := rfl
@[simp] theorem setPort_hst (n : Nat) (x : PortState) : (s.setPort n x).hst = s.hst := rfl
@[simp] theorem setPort_vel (n : Nat) (x : PortState) : (s.setPort n x).vel = s.vel := rfl
@[simp] theorem setPort_mem (n : Nat) (x : PortState) : (s.setPort n x).mem = s.mem := rfl
@[simp] theorem setPort_afe (n : Nat) (x : PortState) : (s.setPort n x).afe = s.afe := rfl
@[simp] theorem setPort_nib (n : Nat) (x : PortState) : (s.setPort n x).nib = s.nib := rfl
@[simp] theorem setPort_stk (n : Nat) (x : PortState) : (s.setPort n x).stk = s.stk := rfl
@[simp] theorem setPort_duc (n : Nat) (x : PortState) : (s.setPort n x).duc = s.duc := rfl
@[simp] theorem setPort_qil (n : Nat) (x : PortState) : (s.setPort n x).qil = s.qil := rfl
@[simp] theorem setPort_fio (n : Nat) (x : PortState) : (s.setPort n x).fio = s.fio := rfl
@[simp] theorem setPort_sea (n : Nat) (x : PortState) : (s.setPort n x).sea = s.sea := rfl
@[simp] theorem setPort_pkg (n : Nat) (x : PortState) : (s.setPort n x).pkg = s.pkg := rfl
@[simp] theorem setPort_dbg (n : Nat) (x : PortState) : (s.setPort n x).dbg = s.dbg := rfl
@[simp] theorem setPort_sys (n : Nat) (x : PortState) : (s.setPort n x).sys = s.sys := rfl
@[simp] theorem f_setPort (n : Nat) (x : PortState) (y : Fld) : (s.setPort n x).f y = s.f y := rfl
@[simp] theorem on_setPort (n : Nat) (x : PortState) (y : Fld) : (s.setPort n x).on y = s.on y := rfl
@[simp] theorem rd_setPort (n : Nat) (x : PortState) (y : Nat) : (s.setPort n x).rd y = s.rd y := rfl

@[simp] theorem setSc_pending (n : Nat) (x : ScState) : (s.setSc n x).pending = s.pending := rfl
@[simp] theorem setSc_freeCtr (n : Nat) (x : ScState) : (s.setSc n x).freeCtr = s.freeCtr := rfl
@[simp] theorem setSc_regs (n : Nat) (x : ScState) : (s.setSc n x).regs = s.regs := rfl
@[simp] theorem setSc_rul (n : Nat) (x : ScState) : (s.setSc n x).rul = s.rul := rfl
@[simp] theorem setSc_scr (n : Nat) (x : ScState) : (s.setSc n x).scr = s.scr := rfl
@[simp] theorem setSc_hst (n : Nat) (x : ScState) : (s.setSc n x).hst = s.hst := rfl
@[simp] theorem setSc_vel (n : Nat) (x : ScState) : (s.setSc n x).vel = s.vel := rfl
@[simp] theorem setSc_mem (n : Nat) (x : ScState) : (s.setSc n x).mem = s.mem := rfl
@[simp] theorem setSc_afe (n : Nat) (x : ScState) : (s.setSc n x).afe = s.afe := rfl
@[simp] theorem setSc_nib (n : Nat) (x : ScState) : (s.setSc n x).nib = s.nib := rfl
@[simp] theorem setSc_stk (n : Nat) (x : ScState) : (s.setSc n x).stk = s.stk := rfl
@[simp] theorem setSc_duc (n : Nat) (x : ScState) : (s.setSc n x).duc = s.duc := rfl
@[simp] theorem setSc_qil (n : Nat) (x : ScState) : (s.setSc n x).qil = s.qil := rfl
@[simp] theorem setSc_fio (n : Nat) (x : ScState) : (s.setSc n x).fio = s.fio := rfl
@[simp] theorem setSc_sea (n : Nat) (x : ScState) : (s.setSc n x).sea = s.sea := rfl
@[simp] theorem setSc_pkg (n : Nat) (x : ScState) : (s.setSc n x).pkg = s.pkg := rfl
@[simp] theorem setSc_dbg (n : Nat) (x : ScState) : (s.setSc n x).dbg = s.dbg := rfl
@[simp] theorem setSc_sys (n : Nat) (x : ScState) : (s.setSc n x).sys = s.sys := rfl
@[simp] theorem f_setSc (n : Nat) (x : ScState) (y : Fld) : (s.setSc n x).f y = s.f y := rfl
@[simp] theorem on_setSc (n : Nat) (x : ScState) (y : Fld) : (s.setSc n x).on y = s.on y := rfl
@[simp] theorem rd_setSc (n : Nat) (x : ScState) (y : Nat) : (s.setSc n x).rd y = s.rd y := rfl

@[simp] theorem setGs_pending (n : Nat) (x : GsState) : (s.setGs n x).pending = s.pending := rfl
@[simp] theorem setGs_freeCtr (n : Nat) (x : GsState) : (s.setGs n x).freeCtr = s.freeCtr := rfl
@[simp] theorem setGs_regs (n : Nat) (x : GsState) : (s.setGs n x).regs = s.regs := rfl
@[simp] theorem setGs_rul (n : Nat) (x : GsState) : (s.setGs n x).rul = s.rul := rfl
@[simp] theorem setGs_scr (n : Nat) (x : GsState) : (s.setGs n x).scr = s.scr := rfl
@[simp] theorem setGs_hst (n : Nat) (x : GsState) : (s.setGs n x).hst = s.hst := rfl
@[simp] theorem setGs_vel (n : Nat) (x : GsState) : (s.setGs n x).vel = s.vel := rfl
@[simp] theorem setGs_mem (n : Nat) (x : GsState) : (s.setGs n x).mem = s.mem := rfl
@[simp] theorem setGs_afe (n : Nat) (x : GsState) : (s.setGs n x).afe = s.afe := rfl
@[simp] theorem setGs_nib (n : Nat) (x : GsState) : (s.setGs n x).nib = s.nib := rfl
@[simp] theorem setGs_stk (n : Nat) (x : GsState) : (s.setGs n x).stk = s.stk := rfl
@[simp] theorem setGs_duc (n : Nat) (x : GsState) : (s.setGs n x).duc = s.duc := rfl
@[simp] theorem setGs_qil (n : Nat) (x : GsState) : (s.setGs n x).qil = s.qil := rfl
@[simp] theorem setGs_fio (n : Nat) (x : GsState) : (s.setGs n x).fio = s.fio := rfl
@[simp] theorem setGs_sea (n : Nat) (x : GsState) : (s.setGs n x).sea = s.sea := rfl
@[simp] theorem setGs_pkg (n : Nat) (x : GsState) : (s.setGs n x).pkg = s.pkg := rfl
@[simp] theorem setGs_dbg (n : Nat) (x : GsState) : (s.setGs n x).dbg = s.dbg := rfl
@[simp] theorem setGs_sys (n : Nat) (x : GsState) : (s.setGs n x).sys = s.sys := rfl
@[simp] theorem f_setGs (n : Nat) (x : GsState) (y : Fld) : (s.setGs n x).f y = s.f y := rfl
@[simp] theorem on_setGs (n : Nat) (x : GsState) (y : Fld) : (s.setGs n x).on y = s.on y := rfl
@[simp] theorem rd_setGs (n : Nat) (x : GsState) (y : Nat) : (s.setGs n x).rd y = s.rd y := rfl

@[simp] theorem setVel_pending (x : Vel) : (s.setVel x).pending = s.pending := rfl
@[simp] theorem setVel_freeCtr (x : Vel) : (s.setVel x).freeCtr = s.freeCtr := rfl
@[simp] theorem setVel_regs (x : Vel) : (s.setVel x).regs = s.regs := rfl
@[simp] theorem setVel_rul (x : Vel) : (s.setVel x).rul = s.rul := rfl
@[simp] theorem setVel_scr (x : Vel) : (s.setVel x).scr = s.scr := rfl
@[simp] theorem setVel_hst (x : Vel) : (s.setVel x).hst = s.hst := rfl
@[simp] theorem setVel_pbi (x : Vel) : (s.setVel x).pbi = s.pbi := rfl
@[simp] theorem setVel_mem (x : Vel) : (s.setVel x).mem = s.mem := rfl
@[simp] theorem setVel_afe (x : Vel) : (s.setVel x).afe = s.afe := rfl
@[simp] theorem setVel_nib (x : Vel) : (s.setVel x).nib = s.nib := rfl
@[simp] theorem setVel_stk (x : Vel) : (s.setVel x).stk = s.stk := rfl
@[simp] theorem setVel_duc (x : Vel) : (s.setVel x).duc = s.duc := rfl
@[simp] theorem setVel_qil (x : Vel) : (s.setVel x).qil = s.qil := rfl
@[simp] theorem setVel_fio (x : Vel) : (s.setVel x).fio = s.fio := rfl
@[simp] theorem setVel_sea (x : Vel) : (s.setVel x).sea = s.sea := rfl
@[simp] theorem setVel_pkg (x : Vel) : (s.setVel x).pkg = s.pkg := rfl
@[simp] theorem setVel_dbg (x : Vel) : (s.setVel x).dbg = s.dbg := rfl
@[simp] theorem setVel_sys (x : Vel) : (s.setVel x).sys = s.sys := rfl
@[simp] theorem setVel_vel (x : Vel) : (s.setVel x).vel = x := rfl
@[simp] theorem f_setVel (x : Vel) (y : Fld) : (s.setVel x).f y = s.f y := rfl
@[simp] theorem on_setVel (x : Vel) (y : Fld) : (s.setVel x).on y = s.on y := rfl
@[simp] theorem rd_setVel (x : Vel) (y : Nat) : (s.setVel x).rd y = s.rd y := rfl

@[simp] theorem setProf_pending (n : Nat) (x : VelProf) : (s.setProf n x).pending = s.pending := rfl
@[simp] theorem setProf_freeCtr (n : Nat) (x : VelProf) : (s.setProf n x).freeCtr = s.freeCtr := rfl
@[simp] theorem setProf_regs (n : Nat) (x : VelProf) : (s.setProf n x).regs = s.regs := rfl
@[simp] theorem setProf_rul (n : Nat) (x : VelProf) : (s.setProf n x).rul = s.rul := rfl
@[simp] theorem setProf_scr (n : Nat) (x : VelProf) : (s.setProf n x).scr = s.scr := rfl
@[simp] theorem setProf_hst (n : Nat) (x : VelProf) : (s.setProf n x).hst = s.hst := rfl
@[simp] theorem setProf_pbi (n : Nat) (x : VelProf) : (s.setProf n x).pbi = s.pbi := rfl
@[simp] theorem setProf_mem (n : Nat) (x : VelProf) : (s.setProf n x).mem = s.mem := rfl
@[simp] theorem setProf_afe (n : Nat) (x : VelProf) : (s.setProf n x).afe = s.afe := rfl
@[simp] theorem setProf_nib (n : Nat) (x : VelProf) : (s.setProf n x).nib = s.nib := rfl
@[simp] theorem setProf_stk (n : Nat) (x : VelProf) : (s.setProf n x).stk = s.stk := rfl
@[simp] theorem setProf_duc (n : Nat) (x : VelProf) : (s.setProf n x).duc = s.duc := rfl
@[simp] theorem setProf_qil (n : Nat) (x : VelProf) : (s.setProf n x).qil = s.qil := rfl
@[simp] theorem setProf_fio (n : Nat) (x : VelProf) : (s.setProf n x).fio = s.fio := rfl
@[simp] theorem setProf_sea (n : Nat) (x : VelProf) : (s.setProf n x).sea = s.sea := rfl
@[simp] theorem setProf_pkg (n : Nat) (x : VelProf) : (s.setProf n x).pkg = s.pkg := rfl
@[simp] theorem setProf_dbg (n : Nat) (x : VelProf) : (s.setProf n x).dbg = s.dbg := rfl
@[simp] theorem setProf_sys (n : Nat) (x : VelProf) : (s.setProf n x).sys = s.sys := rfl
@[simp] theorem f_setProf (n : Nat) (x : VelProf) (y : Fld) : (s.setProf n x).f y = s.f y := rfl
@[simp] theorem on_setProf (n : Nat) (x : VelProf) (y : Fld) : (s.setProf n x).on y = s.on y := rfl
@[simp] theorem rd_setProf (n : Nat) (x : VelProf) (y : Nat) : (s.setProf n x).rd y = s.rd y := rfl

@[simp] theorem setMem_pending (x : Mem) : (s.setMem x).pending = s.pending := rfl
@[simp] theorem setMem_freeCtr (x : Mem) : (s.setMem x).freeCtr = s.freeCtr := rfl
@[simp] theorem setMem_regs (x : Mem) : (s.setMem x).regs = s.regs := rfl
@[simp] theorem setMem_rul (x : Mem) : (s.setMem x).rul = s.rul := rfl
@[simp] theorem setMem_scr (x : Mem) : (s.setMem x).scr = s.scr := rfl
@[simp] theorem setMem_hst (x : Mem) : (s.setMem x).hst = s.hst := rfl
@[simp] theorem setMem_pbi (x : Mem) : (s.setMem x).pbi = s.pbi := rfl
@[simp] theorem setMem_vel (x : Mem) : (s.setMem x).vel = s.vel := rfl
@[simp] theorem setMem_afe (x : Mem) : (s.setMem x).afe = s.afe := rfl
@[simp] theorem setMem_nib (x : Mem) : (s.setMem x).nib = s.nib := rfl
@[simp] theorem setMem_stk (x : Mem) : (s.setMem x).stk = s.stk := rfl
@[simp] theorem setMem_duc (x : Mem) : (s.setMem x).duc = s.duc := rfl
@[simp] theorem setMem_qil (x : Mem) : (s.setMem x).qil = s.qil := rfl
@[simp] theorem setMem_fio (x : Mem) : (s.setMem x).fio = s.fio := rfl
@[simp] theorem setMem_sea (x : Mem) : (s.setMem x).sea = s.sea := rfl
@[simp] theorem setMem_pkg (x : Mem) : (s.setMem x).pkg = s.pkg := rfl
@[simp] theorem setMem_dbg (x : Mem) : (s.setMem x).dbg = s.dbg := rfl
@[simp] theorem setMem_sys (x : Mem) : (s.setMem x).sys = s.sys := rfl
@[simp] theorem setMem_mem (x : Mem) : (s.setMem x).mem = x := rfl
@[simp] theorem f_setMem (x : Mem) (y : Fld) : (s.setMem x).f y = s.f y := rfl
@[simp] theorem on_setMem (x : Mem) (y : Fld) : (s.setMem x).on y = s.on y := rfl
@[simp] theorem rd_setMem (x : Mem) (y : Nat) : (s.setMem x).rd y = s.rd y := rfl

@[simp] theorem setCv_pending (n : Nat) (x : CvState) : (s.setCv n x).pending = s.pending := rfl
@[simp] theorem setCv_freeCtr (n : Nat) (x : CvState) : (s.setCv n x).freeCtr = s.freeCtr := rfl
@[simp] theorem setCv_regs (n : Nat) (x : CvState) : (s.setCv n x).regs = s.regs := rfl
@[simp] theorem setCv_rul (n : Nat) (x : CvState) : (s.setCv n x).rul = s.rul := rfl
@[simp] theorem setCv_scr (n : Nat) (x : CvState) : (s.setCv n x).scr = s.scr := rfl
@[simp] theorem setCv_hst (n : Nat) (x : CvState) : (s.setCv n x).hst = s.hst := rfl
@[simp] theorem setCv_pbi (n : Nat) (x : CvState) : (s.setCv n x).pbi = s.pbi := rfl
@[simp] theorem setCv_vel (n : Nat) (x : CvState) : (s.setCv n x).vel = s.vel := rfl
@[simp] theorem setCv_mem (n : Nat) (x : CvState) : (s.setCv n x).mem = s.mem := rfl
@[simp] theorem setCv_nib (n : Nat) (x : CvState) : (s.setCv n x).nib = s.nib := rfl
@[simp] theorem setCv_stk (n : Nat) (x : CvState) : (s.setCv n x).stk = s.stk := rfl
@[simp] theorem setCv_duc (n : Nat) (x : CvState) : (s.setCv n x).duc = s.duc := rfl
@[simp] theorem setCv_qil (n : Nat) (x : CvState) : (s.setCv n x).qil = s.qil := rfl
@[simp] theorem setCv_fio (n : Nat) (x : CvState) : (s.setCv n x).fio = s.fio := rfl
@[simp] theorem setCv_sea (n : Nat) (x : CvState) : (s.setCv n x).sea = s.sea := rfl
@[simp] theorem setCv_pkg (n : Nat) (x : CvState) : (s.setCv n x).pkg = s.pkg := rfl
@[simp] theorem setCv_dbg (n : Nat) (x : CvState) : (s.setCv n x).dbg = s.dbg := rfl
@[simp] theorem setCv_sys (n : Nat) (x : CvState) : (s.setCv n x).sys = s.sys := rfl
@[simp] theorem f_setCv (n : Nat) (x : CvState) (y : Fld) : (s.setCv n x).f y = s.f y := rfl
@[simp] theorem on_setCv (n : Nat) (x : CvState) (y : Fld) : (s.setCv n x).on y = s.on y := rfl
@[simp] theorem rd_setCv (n : Nat) (x : CvState) (y : Nat) : (s.setCv n x).rd y = s.rd y := rfl

@[simp] theorem setWd_pending (n : Nat) (x : WdState) : (s.setWd n x).pending = s.pending := rfl
@[simp] theorem setWd_freeCtr (n : Nat) (x : WdState) : (s.setWd n x).freeCtr = s.freeCtr := rfl
@[simp] theorem setWd_regs (n : Nat) (x : WdState) : (s.setWd n x).regs = s.regs := rfl
@[simp] theorem setWd_rul (n : Nat) (x : WdState) : (s.setWd n x).rul = s.rul := rfl
@[simp] theorem setWd_scr (n : Nat) (x : WdState) : (s.setWd n x).scr = s.scr := rfl
@[simp] theorem setWd_hst (n : Nat) (x : WdState) : (s.setWd n x).hst = s.hst := rfl
@[simp] theorem setWd_pbi (n : Nat) (x : WdState) : (s.setWd n x).pbi = s.pbi := rfl
@[simp] theorem setWd_vel (n : Nat) (x : WdState) : (s.setWd n x).vel = s.vel := rfl
@[simp] theorem setWd_mem (n : Nat) (x : WdState) : (s.setWd n x).mem = s.mem := rfl
@[simp] theorem setWd_nib (n : Nat) (x : WdState) : (s.setWd n x).nib = s.nib := rfl
@[simp] theorem setWd_stk (n : Nat) (x : WdState) : (s.setWd n x).stk = s.stk := rfl
@[simp] theorem setWd_duc (n : Nat) (x : WdState) : (s.setWd n x).duc = s.duc := rfl
@[simp] theorem setWd_qil (n : Nat) (x : WdState) : (s.setWd n x).qil = s.qil := rfl
@[simp] theorem setWd_fio (n : Nat) (x : WdState) : (s.setWd n x).fio = s.fio := rfl
@[simp] theorem setWd_sea (n : Nat) (x : WdState) : (s.setWd n x).sea = s.sea := rfl
@[simp] theorem setWd_pkg (n : Nat) (x : WdState) : (s.setWd n x).pkg = s.pkg := rfl
@[simp] theorem setWd_dbg (n : Nat) (x : WdState) : (s.setWd n x).dbg = s.dbg := rfl
@[simp] theorem setWd_sys (n : Nat) (x : WdState) : (s.setWd n x).sys = s.sys := rfl
@[simp] theorem f_setWd (n : Nat) (x : WdState) (y : Fld) : (s.setWd n x).f y = s.f y := rfl
@[simp] theorem on_setWd (n : Nat) (x : WdState) (y : Fld) : (s.setWd n x).on y = s.on y := rfl
@[simp] theorem rd_setWd (n : Nat) (x : WdState) (y : Nat) : (s.setWd n x).rd y = s.rd y := rfl

@[simp] theorem setNc_pending (n : Nat) (x : NcState) : (s.setNc n x).pending = s.pending := rfl
@[simp] theorem setNc_freeCtr (n : Nat) (x : NcState) : (s.setNc n x).freeCtr = s.freeCtr := rfl
@[simp] theorem setNc_regs (n : Nat) (x : NcState) : (s.setNc n x).regs = s.regs := rfl
@[simp] theorem setNc_rul (n : Nat) (x : NcState) : (s.setNc n x).rul = s.rul := rfl
@[simp] theorem setNc_scr (n : Nat) (x : NcState) : (s.setNc n x).scr = s.scr := rfl
@[simp] theorem setNc_hst (n : Nat) (x : NcState) : (s.setNc n x).hst = s.hst := rfl
@[simp] theorem setNc_pbi (n : Nat) (x : NcState) : (s.setNc n x).pbi = s.pbi := rfl
@[simp] theorem setNc_vel (n : Nat) (x : NcState) : (s.setNc n x).vel = s.vel := rfl
@[simp] theorem setNc_mem (n : Nat) (x : NcState) : (s.setNc n x).mem = s.mem := rfl
@[simp] theorem setNc_afe (n : Nat) (x : NcState) : (s.setNc n x).afe = s.afe := rfl
@[simp] theorem setNc_stk (n : Nat) (x : NcState) : (s.setNc n x).stk = s.stk := rfl
@[simp] theorem setNc_duc (n : Nat) (x : NcState) : (s.setNc n x).duc = s.duc := rfl
@[simp] theorem setNc_qil (n : Nat) (x : NcState) : (s.setNc n x).qil = s.qil := rfl
@[simp] theorem setNc_fio (n : Nat) (x : NcState) : (s.setNc n x).fio = s.fio := rfl
@[simp] theorem setNc_sea (n : Nat) (x : NcState) : (s.setNc n x).sea = s.sea := rfl
@[simp] theorem setNc_pkg (n : Nat) (x : NcState) : (s.setNc n x).pkg = s.pkg := rfl
@[simp] theorem setNc_dbg (n : Nat) (x : NcState) : (s.setNc n x).dbg = s.dbg := rfl
@[simp] theorem setNc_sys (n : Nat) (x : NcState) : (s.setNc n x).sys = s.sys := rfl
@[simp] theorem f_setNc (n : Nat) (x : NcState) (y : Fld) : (s.setNc n x).f y = s.f y := rfl
@[simp] theorem on_setNc (n : Nat) (x : NcState) (y : Fld) : (s.setNc n x).on y = s.on y := rfl
@[simp] theorem rd_setNc (n : Nat) (x : NcState) (y : Nat) : (s.setNc n x).rd y = s.rd y := rfl

@[simp] theorem setEng_pending (n : Nat) (x : Engine) : (s.setEng n x).pending = s.pending := rfl
@[simp] theorem setEng_freeCtr (n : Nat) (x : Engine) : (s.setEng n x).freeCtr = s.freeCtr := rfl
@[simp] theorem setEng_regs (n : Nat) (x : Engine) : (s.setEng n x).regs = s.regs := rfl
@[simp] theorem setEng_rul (n : Nat) (x : Engine) : (s.setEng n x).rul = s.rul := rfl
@[simp] theorem setEng_scr (n : Nat) (x : Engine) : (s.setEng n x).scr = s.scr := rfl
@[simp] theorem setEng_hst (n : Nat) (x : Engine) : (s.setEng n x).hst = s.hst := rfl
@[simp] theorem setEng_pbi (n : Nat) (x : Engine) : (s.setEng n x).pbi = s.pbi := rfl
@[simp] theorem setEng_vel (n : Nat) (x : Engine) : (s.setEng n x).vel = s.vel := rfl
@[simp] theorem setEng_mem (n : Nat) (x : Engine) : (s.setEng n x).mem = s.mem := rfl
@[simp] theorem setEng_afe (n : Nat) (x : Engine) : (s.setEng n x).afe = s.afe := rfl
@[simp] theorem setEng_stk (n : Nat) (x : Engine) : (s.setEng n x).stk = s.stk := rfl
@[simp] theorem setEng_duc (n : Nat) (x : Engine) : (s.setEng n x).duc = s.duc := rfl
@[simp] theorem setEng_qil (n : Nat) (x : Engine) : (s.setEng n x).qil = s.qil := rfl
@[simp] theorem setEng_fio (n : Nat) (x : Engine) : (s.setEng n x).fio = s.fio := rfl
@[simp] theorem setEng_sea (n : Nat) (x : Engine) : (s.setEng n x).sea = s.sea := rfl
@[simp] theorem setEng_pkg (n : Nat) (x : Engine) : (s.setEng n x).pkg = s.pkg := rfl
@[simp] theorem setEng_dbg (n : Nat) (x : Engine) : (s.setEng n x).dbg = s.dbg := rfl
@[simp] theorem setEng_sys (n : Nat) (x : Engine) : (s.setEng n x).sys = s.sys := rfl
@[simp] theorem f_setEng (n : Nat) (x : Engine) (y : Fld) : (s.setEng n x).f y = s.f y := rfl
@[simp] theorem on_setEng (n : Nat) (x : Engine) (y : Fld) : (s.setEng n x).on y = s.on y := rfl
@[simp] theorem rd_setEng (n : Nat) (x : Engine) (y : Nat) : (s.setEng n x).rd y = s.rd y := rfl

@[simp] theorem setStk_pending (x : Stk) : (s.setStk x).pending = s.pending := rfl
@[simp] theorem setStk_freeCtr (x : Stk) : (s.setStk x).freeCtr = s.freeCtr := rfl
@[simp] theorem setStk_regs (x : Stk) : (s.setStk x).regs = s.regs := rfl
@[simp] theorem setStk_rul (x : Stk) : (s.setStk x).rul = s.rul := rfl
@[simp] theorem setStk_scr (x : Stk) : (s.setStk x).scr = s.scr := rfl
@[simp] theorem setStk_hst (x : Stk) : (s.setStk x).hst = s.hst := rfl
@[simp] theorem setStk_pbi (x : Stk) : (s.setStk x).pbi = s.pbi := rfl
@[simp] theorem setStk_vel (x : Stk) : (s.setStk x).vel = s.vel := rfl
@[simp] theorem setStk_mem (x : Stk) : (s.setStk x).mem = s.mem := rfl
@[simp] theorem setStk_afe (x : Stk) : (s.setStk x).afe = s.afe := rfl
@[simp] theorem setStk_nib (x : Stk) : (s.setStk x).nib = s.nib := rfl
@[simp] theorem setStk_duc (x : Stk) : (s.setStk x).duc = s.duc := rfl
@[simp] theorem setStk_qil (x : Stk) : (s.setStk x).qil = s.qil := rfl
@[simp] theorem setStk_fio (x : Stk) : (s.setStk x).fio = s.fio := rfl
@[simp] theorem setStk_sea (x : Stk) : (s.setStk x).sea = s.sea := rfl
@[simp] theorem setStk_pkg (x : Stk) : (s.setStk x).pkg = s.pkg := rfl
@[simp] theorem setStk_dbg (x : Stk) : (s.setStk x).dbg = s.dbg := rfl
@[simp] theorem setStk_sys (x : Stk) : (s.setStk x).sys = s.sys := rfl
@[simp] theorem setStk_stk (x : Stk) : (s.setStk x).stk = x := rfl
@[simp] theorem f_setStk (x : Stk) (y : Fld) : (s.setStk x).f y = s.f y := rfl
@[simp] theorem on_setStk (x : Stk) (y : Fld) : (s.setStk x).on y = s.on y := rfl
@[simp] theorem rd_setStk (x : Stk) (y : Nat) : (s.setStk x).rd y = s.rd y := rfl

@[simp] theorem setSo_pending (n : Nat) (x : SoState) : (s.setSo n x).pending = s.pending := rfl
@[simp] theorem setSo_freeCtr (n : Nat) (x : SoState) : (s.setSo n x).freeCtr = s.freeCtr := rfl
@[simp] theorem setSo_regs (n : Nat) (x : SoState) : (s.setSo n x).regs = s.regs := rfl
@[simp] theorem setSo_rul (n : Nat) (x : SoState) : (s.setSo n x).rul = s.rul := rfl
@[simp] theorem setSo_scr (n : Nat) (x : SoState) : (s.setSo n x).scr = s.scr := rfl
@[simp] theorem setSo_hst (n : Nat) (x : SoState) : (s.setSo n x).hst = s.hst := rfl
@[simp] theorem setSo_pbi (n : Nat) (x : SoState) : (s.setSo n x).pbi = s.pbi := rfl
@[simp] theorem setSo_vel (n : Nat) (x : SoState) : (s.setSo n x).vel = s.vel := rfl
@[simp] theorem setSo_mem (n : Nat) (x : SoState) : (s.setSo n x).mem = s.mem := rfl
@[simp] theorem setSo_afe (n : Nat) (x : SoState) : (s.setSo n x).afe = s.afe := rfl
@[simp] theorem setSo_nib (n : Nat) (x : SoState) : (s.setSo n x).nib = s.nib := rfl
@[simp] theorem setSo_duc (n : Nat) (x : SoState) : (s.setSo n x).duc = s.duc := rfl
@[simp] theorem setSo_qil (n : Nat) (x : SoState) : (s.setSo n x).qil = s.qil := rfl
@[simp] theorem setSo_fio (n : Nat) (x : SoState) : (s.setSo n x).fio = s.fio := rfl
@[simp] theorem setSo_sea (n : Nat) (x : SoState) : (s.setSo n x).sea = s.sea := rfl
@[simp] theorem setSo_pkg (n : Nat) (x : SoState) : (s.setSo n x).pkg = s.pkg := rfl
@[simp] theorem setSo_dbg (n : Nat) (x : SoState) : (s.setSo n x).dbg = s.dbg := rfl
@[simp] theorem setSo_sys (n : Nat) (x : SoState) : (s.setSo n x).sys = s.sys := rfl
@[simp] theorem f_setSo (n : Nat) (x : SoState) (y : Fld) : (s.setSo n x).f y = s.f y := rfl
@[simp] theorem on_setSo (n : Nat) (x : SoState) (y : Fld) : (s.setSo n x).on y = s.on y := rfl
@[simp] theorem rd_setSo (n : Nat) (x : SoState) (y : Nat) : (s.setSo n x).rd y = s.rd y := rfl

@[simp] theorem setDl_pending (n : Nat) (x : DlState) : (s.setDl n x).pending = s.pending := rfl
@[simp] theorem setDl_freeCtr (n : Nat) (x : DlState) : (s.setDl n x).freeCtr = s.freeCtr := rfl
@[simp] theorem setDl_regs (n : Nat) (x : DlState) : (s.setDl n x).regs = s.regs := rfl
@[simp] theorem setDl_rul (n : Nat) (x : DlState) : (s.setDl n x).rul = s.rul := rfl
@[simp] theorem setDl_scr (n : Nat) (x : DlState) : (s.setDl n x).scr = s.scr := rfl
@[simp] theorem setDl_hst (n : Nat) (x : DlState) : (s.setDl n x).hst = s.hst := rfl
@[simp] theorem setDl_pbi (n : Nat) (x : DlState) : (s.setDl n x).pbi = s.pbi := rfl
@[simp] theorem setDl_vel (n : Nat) (x : DlState) : (s.setDl n x).vel = s.vel := rfl
@[simp] theorem setDl_mem (n : Nat) (x : DlState) : (s.setDl n x).mem = s.mem := rfl
@[simp] theorem setDl_afe (n : Nat) (x : DlState) : (s.setDl n x).afe = s.afe := rfl
@[simp] theorem setDl_nib (n : Nat) (x : DlState) : (s.setDl n x).nib = s.nib := rfl
@[simp] theorem setDl_stk (n : Nat) (x : DlState) : (s.setDl n x).stk = s.stk := rfl
@[simp] theorem setDl_qil (n : Nat) (x : DlState) : (s.setDl n x).qil = s.qil := rfl
@[simp] theorem setDl_fio (n : Nat) (x : DlState) : (s.setDl n x).fio = s.fio := rfl
@[simp] theorem setDl_sea (n : Nat) (x : DlState) : (s.setDl n x).sea = s.sea := rfl
@[simp] theorem setDl_pkg (n : Nat) (x : DlState) : (s.setDl n x).pkg = s.pkg := rfl
@[simp] theorem setDl_dbg (n : Nat) (x : DlState) : (s.setDl n x).dbg = s.dbg := rfl
@[simp] theorem setDl_sys (n : Nat) (x : DlState) : (s.setDl n x).sys = s.sys := rfl
@[simp] theorem f_setDl (n : Nat) (x : DlState) (y : Fld) : (s.setDl n x).f y = s.f y := rfl
@[simp] theorem on_setDl (n : Nat) (x : DlState) (y : Fld) : (s.setDl n x).on y = s.on y := rfl
@[simp] theorem rd_setDl (n : Nat) (x : DlState) (y : Nat) : (s.setDl n x).rd y = s.rd y := rfl

@[simp] theorem setGp_pending (n : Nat) (x : GpState) : (s.setGp n x).pending = s.pending := rfl
@[simp] theorem setGp_freeCtr (n : Nat) (x : GpState) : (s.setGp n x).freeCtr = s.freeCtr := rfl
@[simp] theorem setGp_regs (n : Nat) (x : GpState) : (s.setGp n x).regs = s.regs := rfl
@[simp] theorem setGp_rul (n : Nat) (x : GpState) : (s.setGp n x).rul = s.rul := rfl
@[simp] theorem setGp_scr (n : Nat) (x : GpState) : (s.setGp n x).scr = s.scr := rfl
@[simp] theorem setGp_hst (n : Nat) (x : GpState) : (s.setGp n x).hst = s.hst := rfl
@[simp] theorem setGp_pbi (n : Nat) (x : GpState) : (s.setGp n x).pbi = s.pbi := rfl
@[simp] theorem setGp_vel (n : Nat) (x : GpState) : (s.setGp n x).vel = s.vel := rfl
@[simp] theorem setGp_mem (n : Nat) (x : GpState) : (s.setGp n x).mem = s.mem := rfl
@[simp] theorem setGp_afe (n : Nat) (x : GpState) : (s.setGp n x).afe = s.afe := rfl
@[simp] theorem setGp_nib (n : Nat) (x : GpState) : (s.setGp n x).nib = s.nib := rfl
@[simp] theorem setGp_stk (n : Nat) (x : GpState) : (s.setGp n x).stk = s.stk := rfl
@[simp] theorem setGp_qil (n : Nat) (x : GpState) : (s.setGp n x).qil = s.qil := rfl
@[simp] theorem setGp_fio (n : Nat) (x : GpState) : (s.setGp n x).fio = s.fio := rfl
@[simp] theorem setGp_sea (n : Nat) (x : GpState) : (s.setGp n x).sea = s.sea := rfl
@[simp] theorem setGp_pkg (n : Nat) (x : GpState) : (s.setGp n x).pkg = s.pkg := rfl
@[simp] theorem setGp_dbg (n : Nat) (x : GpState) : (s.setGp n x).dbg = s.dbg := rfl
@[simp] theorem setGp_sys (n : Nat) (x : GpState) : (s.setGp n x).sys = s.sys := rfl
@[simp] theorem f_setGp (n : Nat) (x : GpState) (y : Fld) : (s.setGp n x).f y = s.f y := rfl
@[simp] theorem on_setGp (n : Nat) (x : GpState) (y : Fld) : (s.setGp n x).on y = s.on y := rfl
@[simp] theorem rd_setGp (n : Nat) (x : GpState) (y : Nat) : (s.setGp n x).rd y = s.rd y := rfl

@[simp] theorem setQil_pending (x : Qil) : (s.setQil x).pending = s.pending := rfl
@[simp] theorem setQil_freeCtr (x : Qil) : (s.setQil x).freeCtr = s.freeCtr := rfl
@[simp] theorem setQil_regs (x : Qil) : (s.setQil x).regs = s.regs := rfl
@[simp] theorem setQil_rul (x : Qil) : (s.setQil x).rul = s.rul := rfl
@[simp] theorem setQil_scr (x : Qil) : (s.setQil x).scr = s.scr := rfl
@[simp] theorem setQil_hst (x : Qil) : (s.setQil x).hst = s.hst := rfl
@[simp] theorem setQil_pbi (x : Qil) : (s.setQil x).pbi = s.pbi := rfl
@[simp] theorem setQil_vel (x : Qil) : (s.setQil x).vel = s.vel := rfl
@[simp] theorem setQil_mem (x : Qil) : (s.setQil x).mem = s.mem := rfl
@[simp] theorem setQil_afe (x : Qil) : (s.setQil x).afe = s.afe := rfl
@[simp] theorem setQil_nib (x : Qil) : (s.setQil x).nib = s.nib := rfl
@[simp] theorem setQil_stk (x : Qil) : (s.setQil x).stk = s.stk := rfl
@[simp] theorem setQil_duc (x : Qil) : (s.setQil x).duc = s.duc := rfl
@[simp] theorem setQil_fio (x : Qil) : (s.setQil x).fio = s.fio := rfl
@[simp] theorem setQil_sea (x : Qil) : (s.setQil x).sea = s.sea := rfl
@[simp] theorem setQil_pkg (x : Qil) : (s.setQil x).pkg = s.pkg := rfl
@[simp] theorem setQil_dbg (x : Qil) : (s.setQil x).dbg = s.dbg := rfl
@[simp] theorem setQil_sys (x : Qil) : (s.setQil x).sys = s.sys := rfl
@[simp] theorem setQil_qil (x : Qil) : (s.setQil x).qil = x := rfl
@[simp] theorem f_setQil (x : Qil) (y : Fld) : (s.setQil x).f y = s.f y := rfl
@[simp] theorem on_setQil (x : Qil) (y : Fld) : (s.setQil x).on y = s.on y := rfl
@[simp] theorem rd_setQil (x : Qil) (y : Nat) : (s.setQil x).rd y = s.rd y := rfl

@[simp] theorem setQrun_pending (n : Nat) (x : QRun) : (s.setQrun n x).pending = s.pending := rfl
@[simp] theorem setQrun_freeCtr (n : Nat) (x : QRun) : (s.setQrun n x).freeCtr = s.freeCtr := rfl
@[simp] theorem setQrun_regs (n : Nat) (x : QRun) : (s.setQrun n x).regs = s.regs := rfl
@[simp] theorem setQrun_rul (n : Nat) (x : QRun) : (s.setQrun n x).rul = s.rul := rfl
@[simp] theorem setQrun_scr (n : Nat) (x : QRun) : (s.setQrun n x).scr = s.scr := rfl
@[simp] theorem setQrun_hst (n : Nat) (x : QRun) : (s.setQrun n x).hst = s.hst := rfl
@[simp] theorem setQrun_pbi (n : Nat) (x : QRun) : (s.setQrun n x).pbi = s.pbi := rfl
@[simp] theorem setQrun_vel (n : Nat) (x : QRun) : (s.setQrun n x).vel = s.vel := rfl
@[simp] theorem setQrun_mem (n : Nat) (x : QRun) : (s.setQrun n x).mem = s.mem := rfl
@[simp] theorem setQrun_afe (n : Nat) (x : QRun) : (s.setQrun n x).afe = s.afe := rfl
@[simp] theorem setQrun_nib (n : Nat) (x : QRun) : (s.setQrun n x).nib = s.nib := rfl
@[simp] theorem setQrun_stk (n : Nat) (x : QRun) : (s.setQrun n x).stk = s.stk := rfl
@[simp] theorem setQrun_duc (n : Nat) (x : QRun) : (s.setQrun n x).duc = s.duc := rfl
@[simp] theorem setQrun_fio (n : Nat) (x : QRun) : (s.setQrun n x).fio = s.fio := rfl
@[simp] theorem setQrun_sea (n : Nat) (x : QRun) : (s.setQrun n x).sea = s.sea := rfl
@[simp] theorem setQrun_pkg (n : Nat) (x : QRun) : (s.setQrun n x).pkg = s.pkg := rfl
@[simp] theorem setQrun_dbg (n : Nat) (x : QRun) : (s.setQrun n x).dbg = s.dbg := rfl
@[simp] theorem setQrun_sys (n : Nat) (x : QRun) : (s.setQrun n x).sys = s.sys := rfl
@[simp] theorem f_setQrun (n : Nat) (x : QRun) (y : Fld) : (s.setQrun n x).f y = s.f y := rfl
@[simp] theorem on_setQrun (n : Nat) (x : QRun) (y : Fld) : (s.setQrun n x).on y = s.on y := rfl
@[simp] theorem rd_setQrun (n : Nat) (x : QRun) (y : Nat) : (s.setQrun n x).rd y = s.rd y := rfl

@[simp] theorem setFc_pending (n : Nat) (x : FcState) : (s.setFc n x).pending = s.pending := rfl
@[simp] theorem setFc_freeCtr (n : Nat) (x : FcState) : (s.setFc n x).freeCtr = s.freeCtr := rfl
@[simp] theorem setFc_regs (n : Nat) (x : FcState) : (s.setFc n x).regs = s.regs := rfl
@[simp] theorem setFc_rul (n : Nat) (x : FcState) : (s.setFc n x).rul = s.rul := rfl
@[simp] theorem setFc_scr (n : Nat) (x : FcState) : (s.setFc n x).scr = s.scr := rfl
@[simp] theorem setFc_hst (n : Nat) (x : FcState) : (s.setFc n x).hst = s.hst := rfl
@[simp] theorem setFc_pbi (n : Nat) (x : FcState) : (s.setFc n x).pbi = s.pbi := rfl
@[simp] theorem setFc_vel (n : Nat) (x : FcState) : (s.setFc n x).vel = s.vel := rfl
@[simp] theorem setFc_mem (n : Nat) (x : FcState) : (s.setFc n x).mem = s.mem := rfl
@[simp] theorem setFc_afe (n : Nat) (x : FcState) : (s.setFc n x).afe = s.afe := rfl
@[simp] theorem setFc_nib (n : Nat) (x : FcState) : (s.setFc n x).nib = s.nib := rfl
@[simp] theorem setFc_stk (n : Nat) (x : FcState) : (s.setFc n x).stk = s.stk := rfl
@[simp] theorem setFc_duc (n : Nat) (x : FcState) : (s.setFc n x).duc = s.duc := rfl
@[simp] theorem setFc_qil (n : Nat) (x : FcState) : (s.setFc n x).qil = s.qil := rfl
@[simp] theorem setFc_sea (n : Nat) (x : FcState) : (s.setFc n x).sea = s.sea := rfl
@[simp] theorem setFc_pkg (n : Nat) (x : FcState) : (s.setFc n x).pkg = s.pkg := rfl
@[simp] theorem setFc_dbg (n : Nat) (x : FcState) : (s.setFc n x).dbg = s.dbg := rfl
@[simp] theorem setFc_sys (n : Nat) (x : FcState) : (s.setFc n x).sys = s.sys := rfl
@[simp] theorem f_setFc (n : Nat) (x : FcState) (y : Fld) : (s.setFc n x).f y = s.f y := rfl
@[simp] theorem on_setFc (n : Nat) (x : FcState) (y : Fld) : (s.setFc n x).on y = s.on y := rfl
@[simp] theorem rd_setFc (n : Nat) (x : FcState) (y : Nat) : (s.setFc n x).rd y = s.rd y := rfl

@[simp] theorem setGrp_pending (n : Nat) (x : GrpState) : (s.setGrp n x).pending = s.pending := rfl
@[simp] theorem setGrp_freeCtr (n : Nat) (x : GrpState) : (s.setGrp n x).freeCtr = s.freeCtr := rfl
@[simp] theorem setGrp_regs (n : Nat) (x : GrpState) : (s.setGrp n x).regs = s.regs := rfl
@[simp] theorem setGrp_rul (n : Nat) (x : GrpState) : (s.setGrp n x).rul = s.rul := rfl
@[simp] theorem setGrp_scr (n : Nat) (x : GrpState) : (s.setGrp n x).scr = s.scr := rfl
@[simp] theorem setGrp_hst (n : Nat) (x : GrpState) : (s.setGrp n x).hst = s.hst := rfl
@[simp] theorem setGrp_pbi (n : Nat) (x : GrpState) : (s.setGrp n x).pbi = s.pbi := rfl
@[simp] theorem setGrp_vel (n : Nat) (x : GrpState) : (s.setGrp n x).vel = s.vel := rfl
@[simp] theorem setGrp_mem (n : Nat) (x : GrpState) : (s.setGrp n x).mem = s.mem := rfl
@[simp] theorem setGrp_afe (n : Nat) (x : GrpState) : (s.setGrp n x).afe = s.afe := rfl
@[simp] theorem setGrp_nib (n : Nat) (x : GrpState) : (s.setGrp n x).nib = s.nib := rfl
@[simp] theorem setGrp_stk (n : Nat) (x : GrpState) : (s.setGrp n x).stk = s.stk := rfl
@[simp] theorem setGrp_duc (n : Nat) (x : GrpState) : (s.setGrp n x).duc = s.duc := rfl
@[simp] theorem setGrp_qil (n : Nat) (x : GrpState) : (s.setGrp n x).qil = s.qil := rfl
@[simp] theorem setGrp_sea (n : Nat) (x : GrpState) : (s.setGrp n x).sea = s.sea := rfl
@[simp] theorem setGrp_pkg (n : Nat) (x : GrpState) : (s.setGrp n x).pkg = s.pkg := rfl
@[simp] theorem setGrp_dbg (n : Nat) (x : GrpState) : (s.setGrp n x).dbg = s.dbg := rfl
@[simp] theorem setGrp_sys (n : Nat) (x : GrpState) : (s.setGrp n x).sys = s.sys := rfl
@[simp] theorem f_setGrp (n : Nat) (x : GrpState) (y : Fld) : (s.setGrp n x).f y = s.f y := rfl
@[simp] theorem on_setGrp (n : Nat) (x : GrpState) (y : Fld) : (s.setGrp n x).on y = s.on y := rfl
@[simp] theorem rd_setGrp (n : Nat) (x : GrpState) (y : Nat) : (s.setGrp n x).rd y = s.rd y := rfl

@[simp] theorem setSea_pending (x : Sea) : (s.setSea x).pending = s.pending := rfl
@[simp] theorem setSea_freeCtr (x : Sea) : (s.setSea x).freeCtr = s.freeCtr := rfl
@[simp] theorem setSea_regs (x : Sea) : (s.setSea x).regs = s.regs := rfl
@[simp] theorem setSea_rul (x : Sea) : (s.setSea x).rul = s.rul := rfl
@[simp] theorem setSea_scr (x : Sea) : (s.setSea x).scr = s.scr := rfl
@[simp] theorem setSea_hst (x : Sea) : (s.setSea x).hst = s.hst := rfl
@[simp] theorem setSea_pbi (x : Sea) : (s.setSea x).pbi = s.pbi := rfl
@[simp] theorem setSea_vel (x : Sea) : (s.setSea x).vel = s.vel := rfl
@[simp] theorem setSea_mem (x : Sea) : (s.setSea x).mem = s.mem := rfl
@[simp] theorem setSea_afe (x : Sea) : (s.setSea x).afe = s.afe := rfl
@[simp] theorem setSea_nib (x : Sea) : (s.setSea x).nib = s.nib := rfl
@[simp] theorem setSea_stk (x : Sea) : (s.setSea x).stk = s.stk := rfl
@[simp] theorem setSea_duc (x : Sea) : (s.setSea x).duc = s.duc := rfl
@[simp] theorem setSea_qil (x : Sea) : (s.setSea x).qil = s.qil := rfl
@[simp] theorem setSea_fio (x : Sea) : (s.setSea x).fio = s.fio := rfl
@[simp] theorem setSea_pkg (x : Sea) : (s.setSea x).pkg = s.pkg := rfl
@[simp] theorem setSea_dbg (x : Sea) : (s.setSea x).dbg = s.dbg := rfl
@[simp] theorem setSea_sys (x : Sea) : (s.setSea x).sys = s.sys := rfl
@[simp] theorem setSea_sea (x : Sea) : (s.setSea x).sea = x := rfl
@[simp] theorem f_setSea (x : Sea) (y : Fld) : (s.setSea x).f y = s.f y := rfl
@[simp] theorem on_setSea (x : Sea) (y : Fld) : (s.setSea x).on y = s.on y := rfl
@[simp] theorem rd_setSea (x : Sea) (y : Nat) : (s.setSea x).rd y = s.rd y := rfl

@[simp] theorem setPkg_pending (x : Pkg) : (s.setPkg x).pending = s.pending := rfl
@[simp] theorem setPkg_freeCtr (x : Pkg) : (s.setPkg x).freeCtr = s.freeCtr := rfl
@[simp] theorem setPkg_regs (x : Pkg) : (s.setPkg x).regs = s.regs := rfl
@[simp] theorem setPkg_rul (x : Pkg) : (s.setPkg x).rul = s.rul := rfl
@[simp] theorem setPkg_scr (x : Pkg) : (s.setPkg x).scr = s.scr := rfl
@[simp] theorem setPkg_hst (x : Pkg) : (s.setPkg x).hst = s.hst := rfl
@[simp] theorem setPkg_pbi (x : Pkg) : (s.setPkg x).pbi = s.pbi := rfl
@[simp] theorem setPkg_vel (x : Pkg) : (s.setPkg x).vel = s.vel := rfl
@[simp] theorem setPkg_mem (x : Pkg) : (s.setPkg x).mem = s.mem := rfl
@[simp] theorem setPkg_afe (x : Pkg) : (s.setPkg x).afe = s.afe := rfl
@[simp] theorem setPkg_nib (x : Pkg) : (s.setPkg x).nib = s.nib := rfl
@[simp] theorem setPkg_stk (x : Pkg) : (s.setPkg x).stk = s.stk := rfl
@[simp] theorem setPkg_duc (x : Pkg) : (s.setPkg x).duc = s.duc := rfl
@[simp] theorem setPkg_qil (x : Pkg) : (s.setPkg x).qil = s.qil := rfl
@[simp] theorem setPkg_fio (x : Pkg) : (s.setPkg x).fio = s.fio := rfl
@[simp] theorem setPkg_sea (x : Pkg) : (s.setPkg x).sea = s.sea := rfl
@[simp] theorem setPkg_dbg (x : Pkg) : (s.setPkg x).dbg = s.dbg := rfl
@[simp] theorem setPkg_sys (x : Pkg) : (s.setPkg x).sys = s.sys := rfl
@[simp] theorem setPkg_pkg (x : Pkg) : (s.setPkg x).pkg = x := rfl
@[simp] theorem f_setPkg (x : Pkg) (y : Fld) : (s.setPkg x).f y = s.f y := rfl
@[simp] theorem on_setPkg (x : Pkg) (y : Fld) : (s.setPkg x).on y = s.on y := rfl
@[simp] theorem rd_setPkg (x : Pkg) (y : Nat) : (s.setPkg x).rd y = s.rd y := rfl

@[simp] theorem setDbg_pending (x : Dbg) : (s.setDbg x).pending = s.pending := rfl
@[simp] theorem setDbg_freeCtr (x : Dbg) : (s.setDbg x).freeCtr = s.freeCtr := rfl
@[simp] theorem setDbg_regs (x : Dbg) : (s.setDbg x).regs = s.regs := rfl
@[simp] theorem setDbg_rul (x : Dbg) : (s.setDbg x).rul = s.rul := rfl
@[simp] theorem setDbg_scr (x : Dbg) : (s.setDbg x).scr = s.scr := rfl
@[simp] theorem setDbg_hst (x : Dbg) : (s.setDbg x).hst = s.hst := rfl
@[simp] theorem setDbg_pbi (x : Dbg) : (s.setDbg x).pbi = s.pbi := rfl
@[simp] theorem setDbg_vel (x : Dbg) : (s.setDbg x).vel = s.vel := rfl
@[simp] theorem setDbg_mem (x : Dbg) : (s.setDbg x).mem = s.mem := rfl
@[simp] theorem setDbg_afe (x : Dbg) : (s.setDbg x).afe = s.afe := rfl
@[simp] theorem setDbg_nib (x : Dbg) : (s.setDbg x).nib = s.nib := rfl
@[simp] theorem setDbg_stk (x : Dbg) : (s.setDbg x).stk = s.stk := rfl
@[simp] theorem setDbg_duc (x : Dbg) : (s.setDbg x).duc = s.duc := rfl
@[simp] theorem setDbg_qil (x : Dbg) : (s.setDbg x).qil = s.qil := rfl
@[simp] theorem setDbg_fio (x : Dbg) : (s.setDbg x).fio = s.fio := rfl
@[simp] theorem setDbg_sea (x : Dbg) : (s.setDbg x).sea = s.sea := rfl
@[simp] theorem setDbg_pkg (x : Dbg) : (s.setDbg x).pkg = s.pkg := rfl
@[simp] theorem setDbg_sys (x : Dbg) : (s.setDbg x).sys = s.sys := rfl
@[simp] theorem setDbg_dbg (x : Dbg) : (s.setDbg x).dbg = x := rfl
@[simp] theorem f_setDbg (x : Dbg) (y : Fld) : (s.setDbg x).f y = s.f y := rfl
@[simp] theorem on_setDbg (x : Dbg) (y : Fld) : (s.setDbg x).on y = s.on y := rfl
@[simp] theorem rd_setDbg (x : Dbg) (y : Nat) : (s.setDbg x).rd y = s.rd y := rfl

@[simp] theorem setSys_pending (x : Sys) : (s.setSys x).pending = s.pending := rfl
@[simp] theorem setSys_freeCtr (x : Sys) : (s.setSys x).freeCtr = s.freeCtr := rfl
@[simp] theorem setSys_regs (x : Sys) : (s.setSys x).regs = s.regs := rfl
@[simp] theorem setSys_rul (x : Sys) : (s.setSys x).rul = s.rul := rfl
@[simp] theorem setSys_scr (x : Sys) : (s.setSys x).scr = s.scr := rfl
@[simp] theorem setSys_hst (x : Sys) : (s.setSys x).hst = s.hst := rfl
@[simp] theorem setSys_pbi (x : Sys) : (s.setSys x).pbi = s.pbi := rfl
@[simp] theorem setSys_vel (x : Sys) : (s.setSys x).vel = s.vel := rfl
@[simp] theorem setSys_mem (x : Sys) : (s.setSys x).mem = s.mem := rfl
@[simp] theorem setSys_afe (x : Sys) : (s.setSys x).afe = s.afe := rfl
@[simp] theorem setSys_nib (x : Sys) : (s.setSys x).nib = s.nib := rfl
@[simp] theorem setSys_stk (x : Sys) : (s.setSys x).stk = s.stk := rfl
@[simp] theorem setSys_duc (x : Sys) : (s.setSys x).duc = s.duc := rfl
@[simp] theorem setSys_qil (x : Sys) : (s.setSys x).qil = s.qil := rfl
@[simp] theorem setSys_fio (x : Sys) : (s.setSys x).fio = s.fio := rfl
@[simp] theorem setSys_sea (x : Sys) : (s.setSys x).sea = s.sea := rfl
@[simp] theorem setSys_pkg (x : Sys) : (s.setSys x).pkg = s.pkg := rfl
@[simp] theorem setSys_dbg (x : Sys) : (s.setSys x).dbg = s.dbg := rfl
@[simp] theorem setSys_sys (x : Sys) : (s.setSys x).sys = x := rfl
@[simp] theorem f_setSys (x : Sys) (y : Fld) : (s.setSys x).f y = s.f y := rfl
@[simp] theorem on_setSys (x : Sys) (y : Fld) : (s.setSys x).on y = s.on y := rfl
@[simp] theorem rd_setSys (x : Sys) (y : Nat) : (s.setSys x).rd y = s.rd y := rfl

end Sys2Proof.Machine.State
end

