-- ==== Sys2Proof/Laws/Step.lean ====
section
/-! SUPPORT. What each operation of Machine/Step.lean can change: one lemma per operation, cited in place of unfolding it. -/

namespace Sys2Proof.Machine

set_option Elab.async false

theorem State.withFetchWord_within {cs s0} {s nbits w} (hc : [.pending] ⊆ cs) (hs : Within cs s0 s) :
    Within cs s0 (State.withFetchWord s nbits w) := by
  unfold State.withFetchWord
  split
  · exact Within.upd (s := s) (t := { s with pending := _ }) hs (fun c => by cases c <;> first | exact .inl (hc (by decide)) | exact .inr rfl) (fun h => ⟨h.1, h.2.1, h.2.2⟩)
  · exact hs

end Sys2Proof.Machine
end

