-- ==== Sys2Proof/Tests/Slice0.lean ====
section
/-! SUPPORT. Small tests: words and single steps with results from the spec, and for every statement of Certificates/Slice0 with
hypotheses a state and operands that meet them, clause by clause, at the ends of its ranges. -/

namespace Sys2Proof.Machine.Tests

set_option Elab.async false

open Sys2Proof Sys2Proof.Machine

/-- The state that a command answers. -/
def after (i : Instr) (s : State) : State := match exec i s with | .next t => t | .fault _ => s | .refused _ => s

/-- Reset, with SYS_STATE at a value and LTC at a time. -/
def atState (st ltc : Nat) : State :=
  let s := State.reset.setF Reg.SYS_STATE_STATE st
  { s with rul := { s.rul with clk := { s.rul.clk with ltc := ltc } } }

/-- A small register file that holds SYS_STATE alone. -/
def bare (st ltc : Nat) : State :=
  let s := ({ State.reset with regs := [] } : State).setF Reg.SYS_STATE_STATE st
  { s with rul := { s.rul with clk := { s.rul.clk with ltc := ltc } } }

/-- IN_SERVICE at an LTC of 1,000 s. -/
def live : State := bare 3 1000000000000

/-- An entry of the command queue: opcode, FLAGS, CID, the first bytes of ARGS. -/
def entry (op flags cid : Nat) (args : List Nat) : Cmd :=
  { bytes := [op, flags, cid, 0] ++ List.replicate 12 0 ++ args ++ List.replicate (48 - args.length) 0, deadline := 2000000000000, sqHead := 1,
    tries := 0, started := false, pull := false, asked := 0, reads := [] }

/-- One wrong bit in a word, two of them, and two in both copies. -/
def ce (region offset : Nat) : Ecc := .err ⟨region, offset⟩ 1 0
def ue (region offset : Nat) : Ecc := .err ⟨region, offset⟩ 2 0
def ueBoth (region offset : Nat) : Ecc := .err ⟨region, offset⟩ 2 2

/-- Session 1, open with a level, holding one command. -/
def asks (s : State) (level : Nat) (c : Cmd) : State :=
  (s.setSess 1 { (default : Session) with owner := some 0, cmds := [c] }).setFs [(Reg.HST_SESS_STAT_STATE 1, 3), (Reg.HST_SESS_STAT_LEVEL 1, level),
    (Reg.HST_SESS_STAT_VER 1, 3)]

theorem accepts_p1 (s : State) (addr : Nat) (h : inkServed s = true) : accepts s (.cmd 15 1) addr false := ⟨h, fun h => nomatch h⟩

theorem accepts_p0 (s : State) (addr : Nat) (b : Bool) (h : inkServed s = true) : accepts s (.cmd 15 0) addr b := ⟨h, fun _ => rfl⟩

/-! ### The block as a whole -/

theorem witness_formed : State.reset.formed ∧ live.formed ∧ State.reset.pending = [] ∧ (match step { live with pending := [.refLost, .refRestored] } with | .next t => decide (t.pending = [.refRestored]) | _ => false) = true := by
  unfold State.formed; decide +kernel

theorem test_idle : (match step State.reset with | .next t => t.ltc | _ => 0) = 1 := by decide +kernel

theorem not_served {s : State} (a : Access) (addr : Nat) (b : Bool) (h : inkServed s = false) : ¬ accepts s a addr b := fun k =>
  Bool.false_ne_true (h.symm.trans k.1)

/-- Refused writes: in RESET, an RWP register over the bus and by P1, and a JTAG access. -/
theorem witness_refused : ¬ accepts State.reset (.direct .pcie) Reg.STK_RESET false ∧ ¬ accepts live (.direct .spi) (Reg.FIO_G_ACK 3) true ∧
    ¬ accepts live (.cmd 15 1) (Reg.FIO_G_ACK 3) true ∧ ¬ accepts live .jtag Reg.SEA_DBG false ∧
    (after (.ack (.direct .spi) 3) live).rd Reg.HST_CNT = (refusedWrite live (.direct .spi) (Reg.FIO_G_ACK 3)).rd Reg.HST_CNT := by
  exact ⟨not_served _ _ _ (by decide +kernel), fun h => (nomatch h.2.2.1), fun h => (nomatch h.2 rfl), fun h => h.2, by decide +kernel⟩

/-- The commands of the frames answer a next state. -/
theorem witness_frames : exec (.hello 1) live = .next (after (.hello 1) live) ∧ exec (.setWrite ⟨15, .ok⟩) live = .next (after (.setWrite ⟨15, .ok⟩) live) ∧
    exec (.memSweep 15) live = .next (after (.memSweep 15) live) ∧ exec (.timeStepAllow 15) live = .next (after (.timeStepAllow 15) live) ∧
    exec (.sessionOpenPhase0 15) live = .next (after (.sessionOpenPhase0 15) live) ∧ exec .selfCheck live = .next (after .selfCheck live) ∧
    exec (.pullReadCompletion 15 ⟨1, 0⟩ [1]) live = .next (after (.pullReadCompletion 15 ⟨1, 0⟩ [1]) live) :=
  ⟨rfl, rfl, rfl, rfl, rfl, rfl, rfl⟩

/-- A read of SYS_ID and of HST_LOGSEV over SPI in RESET, where the pins are ignored, in COLD_START, FAULT_SAFE and in service. -/
theorem witness_shows : (atState 6 0).sysState = 6 ∧ State.reset.sysState ≤ 2 ∧ (0x80000000 : Word).getLsbD 31 = true ∧
    (0x80000000 : Word).toNat / 2 ^ 25 % 64 = 0 ∧ (0x80000000 : Word).toNat % 4 = 0 ∧ State.reset.sys.flashGo = false ∧
    ((after (.spiTransaction 0x80000000 []) State.reset).hst.spiOut)[2]? = none ∧ (atState 1 0).sysState = 1 ∧
    ((after (.spiTransaction 0x80000000 []) (atState 1 0)).hst.spiOut)[2]? = some 0x81600041 ∧
    ((after (.spiTransaction 0x80130028 []) (atState 6 0)).hst.spiOut)[2]? = some 0 ∧
    ((after (.spiTransaction 0x80130028 []) (atState 3 1000000000000)).hst.spiOut)[2]? = some 5 := by decide +kernel

/-- The tie of the time-out with the deadline. -/
theorem witness_deadline : let c : Cmd := { entry 0x50 2 5 [] with pull := true, reads := [⟨0, 64, 0, 999950000000⟩], deadline := 1000000000000 }
    let s := asks live 0 c
    inkServed s = true ∧ (s.sess 1).cmds = [c] ∧ c.started = false ∧ c.pull = true ∧ (∃ r ∈ c.reads, r.at' + cplNs s.hst.cplValue = s.ltc) ∧ c.deadline = s.ltc ∧
      ((after (.hstCmdTimeout 1 5) s).sess 1).cmds = [] ∧ (after (.hstCmdTimeout 1 5) s).f (Reg.HST_SESS_CNT_TIMEOUTS 1) = 1 := by decide +kernel

theorem witness_droppedRelease : let s := (live.setQrun 7 { (default : QRun) with next := 1000000000000, overs := 4294967295 }).setFs [(Reg.QIL_T_STAT_STATE 7, 3),
      (Reg.QIL_T_CFG_PERIOD 7, 16), (Reg.QIL_T_CNT_OVERRUN 7, 255)]
    s.running = true ∧ periodNs s 7 ≠ 0 ∧ (s.qrun 7).next ≤ s.ltc ∧ phaseNs s 7 ≤ s.ltc ∧ s.taskSt 7 = 3 ∧ ((after (.taskRelease 7) s).qrun 7).overs = 0 ∧
      (after (.taskRelease 7) s).f (Reg.QIL_T_CNT_OVERRUN 7) = 255 ∧ (after (.taskRelease 7) s).scr.offers.map (fun r => r.inst) = [7] := by decide +kernel

theorem witness_idcode : (atState 3 1000000000000).sys.v3p3Low = false ∧ (atState 3 1000000000000).f Reg.SYS_ID_STEP = 0x41 ∧ ((atState 3 1000000000000).setF Reg.SYS_ID_STEP 0x50).f Reg.SYS_ID_STEP = 0x50 ∧
    (after .idcode ((atState 3 1000000000000).setF Reg.SYS_ID_STEP 0x50)).dbg.dr = 0xF81605CF := by decide +kernel

/-! ### Well-formedness: a term that each check refuses -/

/-- A frame with 52 octets after its addresses. -/
def plain (dst src : Nat) (b : Body) : Frame := ⟨64, true, 0, dst, src, none, none, false, b, List.replicate 52 0⟩

theorem smoke_wellFormed : ([.swtrig (.cmd 0 3) 0, .lowWordRead ⟨.pcie, 8⟩ 0x10002, .taskStart 0 (ce 20 0), .taskStart 0 (ce 15 0), .taskStart 0 (ue 2 0x200000), .scriptLogOffer (some (32, 7)),
    .irigbFrame 4 0 0 1970, .irigbFrame 4 367 0 1970, .irigbFrame 4 1 86401 1970,
    .frameReceived 0 (plain (2 ^ 48) 0 .other), .frameReceived 0 (plain 0 (2 ^ 48) .other),
    .frameReceived 0 (plain 0 0 (.sv ⟨0x4000, 1, false, [⟨[256], 0, 0, 0, none, none, []⟩]⟩)),
    .frameReceived 0 (plain 0 0 (.goose ⟨0, [256], [], [], 0, 0, 0, 0, false, false, false, false, 0, []⟩)),
    .frameReceived 0 { plain 0 0 .other with len := 63 }, .frameReceived 0 { plain 0 0 .other with octets := [] },
    .c3794BlockReceived 0 ⟨true, false, List.replicate 10 0⟩, .c3794BlockReceived 0 ⟨true, false, List.replicate 23 0⟩,
    .pullReadCompletion 0 ⟨3, 0⟩ [], .pullReadCompletion 0 ⟨0, 0⟩ (List.replicate 4097 0),
    .memSweepDone [ue 20 0], .setWrite ⟨0, ce 20 0⟩, .velList ⟨0, ce 20 0⟩, .velExportDone (ue 20 0), .qilLoad ⟨0, ue 20 0⟩ default, .hstPcieLinkUp 0 1, .hstPcieLinkUp 4 1, .hstPcieLinkUp 1 3, .tjHigh 128, .tjNormal (-129), .commission 0 [],
    .ldb ⟨0, ce 20 0⟩, .rstb ⟨0, ue 20 0⟩, .ductusFrameReceived 0 ⟨true, true, List.replicate 4097 0⟩,
    .evaluationDispatch 0 (ueBoth 20 0) .ok] : List Instr).all (fun i => !i.wf) = true := by decide +kernel

theorem smoke_wellFormed_accepts : ([.swtrig (.cmd 15 2) 15, .lowWordRead ⟨.pcie, 4⟩ 0x10004, .taskStart 7 (ce 19 0x3FFFFF8), .taskStart 7 (ueBoth 2 0x1FFFF8), .scriptLogOffer (some (32, 6)),
    .frameReceived 27 (plain (2 ^ 48 - 1) 0 .other), .ductusFrameReceived 3 ⟨true, true, List.replicate 128 0⟩,
    .c3794BlockReceived 0 ⟨true, false, List.replicate 11 0⟩, .c3794BlockReceived 3 ⟨true, true, List.replicate 22 0⟩,
    .irigbFrame 4 366 86400 2016, .hstPcieLinkUp 3 2, .tjHigh 127, .commission 3 (List.replicate 8 0)] : List Instr).all Instr.wf = true := by decide +kernel

theorem test_noWordSpellsACommand : decodeTableWord 32 0 = none ∧ ((State.reset.withFetchWord 32 0).pending = []) := ⟨rfl, rfl⟩

/-! ### Element contexts and engines -/

def aSet : SampleSet := { (default : SampleSet) with instant := 1152000 }

theorem witness_sampleSetComplete : let s := live.setSc 223 { (default : ScState) with out := [aSet], slots := List.replicate 15 ⟨0, [1]⟩ }
    (s.sc 223).out = aSet :: [] ∧ (s.sc 223).slots.length < 16 ∧
      ((after (.sampleSetComplete 223) s).sc 223).out = [] ∧ ((after (.sampleSetComplete 223) s).sc 223).ring = [aSet] := by decide +kernel

theorem witness_creditReturn : let s := live.setSc 223 { (default : ScState) with out := [aSet] }
    (223 : Fin 256).val < 224 ∧ (s.sc 223).out = aSet :: [] ∧ (s.sc 223).slots.length < 16 ∧
      ((after (.creditReturn .sampleSets 223) s).sc 223).ring = [aSet] := by decide +kernel

theorem witness_evaluationDispatch : let q : Queued := ⟨255, 1152000, 5, none, false, 0⟩
    let s := (live.setEng 15 { (default : Engine) with queue := [q] }).setNc 255 { (default : NcState) with svc := 1 }
    s.running = true ∧ (s.eng 15).run = none ∧ pickQueued s (s.eng 15).queue = some q ∧ commitWaits s (nibKey q.ctx 0) 128 = false ∧
      modePending s 4 q.ctx = none ∧ (s.nc q.ctx).svc ≠ 0 ∧ ((after (.evaluationDispatch 15 .ok .ok) s).eng 15).queue = [] ∧
      ((after (.evaluationDispatch 15 .ok .ok) s).eng 15).run.map (fun r => (r.q, r.start)) = some (q, s.ltc) := by decide +kernel

theorem witness_evaluationComplete : let r : Running := { (default : Running) with q := ⟨255, 1152000, 5, some default, true, 0⟩ }
    let s := (live.setEng 15 { (default : Engine) with run := some r }).setNc 255 { (default : NcState) with svc := 1 }
    (s.eng 15).run = some r ∧ flitBlocked s 15 = false ∧ ((after (.evaluationComplete 15) s).eng 15).run = none := by decide +kernel

theorem witness_outputLogicFlit : let x : Engine := { (default : Engine) with lastFlit := 999999999700 }
    let s := live.setEng 15 { x with due := [(240, 1), (241, 2), (242, 3), (243, 4), (244, 5)] }
    (s.eng 15).run = none ∧ (s.eng 15).due ≠ [] ∧ (s.eng 15).lastFlit + 300 ≤ s.ltc ∧ flitBlocked s 15 = false ∧
      ((after (.outputLogicFlit 15) s).nib.toStroke.map (fun p => (p.1, p.2.map (fun d => (d.ctx, d.word))))) =
        [(15, [(240, 1), (241, 2), (242, 3), (243, 4)])] ∧
      ((after (.outputLogicFlit 15) s).eng 15).due = [(244, 5)] ∧ ((after (.outputLogicFlit 15) s).eng 15).lastFlit = s.ltc := by decide +kernel

/-- Context 255 with a record outstanding. -/
def asked (r : MRec) : State := live.setNc 255 { (default : NcState) with svc := 3, out := some r }

theorem witness_haResignal : let r : MRec := ⟨7, 0, 999999998500, 2, 1000000000500⟩
    let s := asked r
    (s.nc 255).out = some r ∧ r.signals < 3 ∧ r.at' + (r.signals + 1) * ((r.deadline - r.at') / 4) ≤ s.ltc ∧ s.ltc < r.deadline ∧
      ((after (.haResignal 255) s).nc 255).out = some { r with signals := 3 } ∧
      ((after (.haResignal 255) s).f Reg.HST_IRQ_PEND_PEND).testBit 23 = true := by decide +kernel

theorem witness_haFallback : let r : MRec := ⟨7, 0, 999999998000, 3, 1000000000000⟩
    let s := asked r
    (s.nc 255).out = some r ∧ r.deadline ≤ s.ltc ∧ ((after (.haFallback 255) s).nc 255).out = none ∧
      ((after (.haFallback 255) s).nc 255).accept = none ∧ inFallback (after (.haFallback 255) s) 255 = true ∧
      ((after (.haFallback 255) s).nc 255).resolved = [(7, 0)] := by decide +kernel

theorem witness_assertCmd : let k := entry 0x20 0 5 [255, 0, 0x41, 0, 7]
    let r : MRec := ⟨7, 0, 999999999000, 0, 1000000000001⟩
    let s := asks (asked r) 1 k
    ready s 1 0x20 k ∧ s.level 1 ≠ 2 ∧ k.arg 0 2 < contexts s ∧ (k.arg 2 1).testBit 7 = false ∧ k.zero 3 4 = true ∧ k.zero 8 32 = true ∧
      (s.nc (k.arg 0 2)).svc = 3 ∧ (s.nc (k.arg 0 2)).out = some r ∧ r.rseq = k.arg 4 4 ∧ s.ltc < r.deadline ∧
      ((after (.assertCmd 1) s).nc 255).accept = some 0x41 ∧ ((after (.assertCmd 1) s).nc 255).out = none := by
  unfold ready; decide +kernel

theorem witness_haWordApply : let s := (live.setNc 255 { (default : NcState) with svc := 3, accept := some 0x43 }).setB (Reg.NIB_NC_CTRL_FB 255) true
    (s.eng 15).run = none ∧ 255 / 16 = (15 : Fin 16).val ∧ (s.nc 255).accept = some 0x43 ∧ ((after (.haWordApply 15) s).nc 255).accept = none ∧
      ((after (.haWordApply 15) s).nc 255).applied = 0x40 ∧ hostWord 0x43 = 0x40 ∧ inFallback (after (.haWordApply 15) s) 255 = false := by
  decide +kernel

def waving (w : Wave) : State := live.setNc 255 { (default : NcState) with svc := 1, hw := 2, wave := w }

theorem witness_twdetUnconfirmed : let s := waving { (default : Wave) with pend := some (default, 999999900000) }
    (s.nc 255).wave.pend = some (default, 999999900000) ∧ 999999900000 + nsCeil (s.live 255 36) + 100000 ≤ s.ltc ∧
      ((after (.twdetUnconfirmed 255) s).nc 255).wave.pend = none ∧ ((after (.twdetUnconfirmed 255) s).nc 255).hw = 0 := by decide +kernel

theorem witness_twdetHoldEnd : let s := waving { (default : Wave) with hold := some 1000000000000 }
    (s.nc 255).wave.hold = some 1000000000000 ∧ 1000000000000 ≤ s.ltc ∧ ((after (.twdetHoldEnd 255) s).nc 255).wave.hold = none ∧
      ((after (.twdetHoldEnd 255) s).nc 255).hw = 0 := by decide +kernel

theorem witness_twlocStampDelivery : let p : Nat × Nat × TwStamp := (3, 1, default)
    let s : State := { live with nib := { live.nib with stamps := [(0, 1, default), p] } }
    s.nib.stamps.find? (fun p => p.1 = 3) = some p ∧ (after (.twlocStampDelivery 3) s).nib.stamps = [(0, 1, default)] := by decide +kernel

theorem witness_twlocUnlock : let s := waving { (default : Wave) with lock := some (default, 1000000000000), located := true }
    (s.nc 255).wave.lock = some (default, 1000000000000) ∧ 1000000000000 ≤ s.ltc ∧ ((after (.twlocUnlock 255) s).nc 255).wave.lock = none ∧
      ((after (.twlocUnlock 255) s).nc 255).wave.located = false ∧ ((after (.twlocUnlock 255) s).nc 255).hw = 0 := by decide +kernel

theorem witness_paceWindowEnd : let s : State := { live with rul := { live.rul with clk := { live.rul.clk with paceK := 999999 } } }
    (s.rul.clk.paceK + 1) * 1000000 ≤ s.ltc ∧ (after (.paceWindowEnd 2048) s).f Reg.SYS_PACE_P = 2047 ∧
      (after (.paceWindowEnd 2048) s).rul.clk.paceK = 1000000 := by decide +kernel

theorem witness_contextSettingsSwitch : let s := live.setSys { live.sys with committing := [(nibKey 255 40, some 9)], commit := some (1, 3, 999999791700) }
    s.sys.commit = some (1, 3, 999999791700) ∧ 999999791700 + 208300 ≤ s.ltc ∧ (s.eng (255 / 16)).run = none ∧
      commitWaits s (nibKey 255 0) 128 = true ∧ commitWaits (after (.contextSettingsSwitch 255) s) (nibKey 255 0) 128 = false := by decide +kernel

/-! ### Ruling unit -/

/-- Domain d follows PTP on SB3 with domainNumber 255. -/
def ptpDom (d : Nat) (x : DomState) : State :=
  (live.setDom d x).setFs [(Reg.RUL_DOM_CFG_DOMNUM d, 255), (Reg.RUL_DOM_CFG_SOURCE d, 1), (Reg.RUL_DOM_PORTS_SB d, 8), (Reg.RUL_DOM_STATE_STATE d, 1)]

def hears (s : State) (m : PtpMsg) : State := { s with rul := { s.rul with ptpIn := [⟨27, 1000000000000, 5, 7, m⟩] } }

def anAnnounce : Announce := ⟨128, 6, 0x20, 0x4E5D, 128, 9, 0, 9⟩

def held : DomState := { (default : DomState) with port := some 27 }

theorem witness_syncReceived : let s := hears (ptpDom 1 held) (.sync 255 65535 true 0 9 (-4) none)
    s.rul.ptpIn = ⟨27, 1000000000000, 5, 7, .sync 255 65535 true 0 9 (-4) none⟩ :: [] ∧ 1 ∈ domsFor s 255 27 ∧ (s.dom 1).port = some 27 ∧
      (s.dom 1).barred.contains 27 = false ∧ (after .syncReceived s).rul.ptpIn = [] ∧
      ((after .syncReceived s).dom 1).wait = some ⟨65535, 27, 7, 9⟩ := by decide +kernel

theorem witness_followUpReceived : let s := hears (ptpDom 1 { held with wait := some ⟨65535, 27, 7, 9⟩ }) (.followUp 255 65535 0 0 (some 0x20))
    s.rul.ptpIn = ⟨27, 1000000000000, 5, 7, .followUp 255 65535 0 0 (some 0x20)⟩ :: [] ∧ 1 ∈ domsFor s 255 27 ∧ (s.dom 1).port = some 27 ∧
      (s.dom 1).wait = some ⟨65535, 27, 7, 9⟩ ∧ (after .followUpReceived s).rul.ptpIn = [] ∧
      ((after .followUpReceived s).dom 1).wait = none ∧ ((after .followUpReceived s).dom 1).lastSync = s.ltc := by decide +kernel

theorem witness_announceReceived : let s := hears (ptpDom 1 default) (.announce 255 anAnnounce 1 (some 100))
    s.rul.ptpIn = ⟨27, 1000000000000, 5, 7, .announce 255 anAnnounce 1 (some 100)⟩ :: [] ∧ 1 ∈ domsFor s 255 27 ∧
      (after .announceReceived s).rul.ptpIn = [] ∧ ⟨27, anAnnounce, s.ltc, 1, some 100⟩ ∈ ((after .announceReceived s).dom 1).anns := by decide +kernel

theorem witness_pdelayReqReceived : let s := (hears live (.pdelayReq 255 65535)).setFs [(Reg.STN_SB_CFG_EN 3, 1), (Reg.STN_SB_STAT_LINK 3, 1)]
    s.rul.ptpIn = ⟨27, 1000000000000, 5, 7, .pdelayReq 255 65535⟩ :: [] ∧ s.linkUp 27 = true ∧ s.on (Reg.STN_SB_CFG_EN (27 - 24)) = true ∧
      (after .pdelayReqReceived s).rul.ptpIn = [] ∧
      ((after .pdelayReqReceived s).port 27).egress.map (fun i => (i.body, i.inLtc)) = [(.ptp (.pdelayResp 255 65535 false 0 0), 1000000000000)] := by decide +kernel

theorem witness_pdelayRespReceived :
    let s := hears (live.setPtpPort 27 { (default : PtpPort) with out := some (65535, 999999999000) }) (.pdelayResp 255 65535 false 0 65536)
    s.rul.ptpIn = ⟨27, 1000000000000, 5, 7, .pdelayResp 255 65535 false 0 65536⟩ :: [] ∧ (s.ptpPort 27).out = some (65535, 999999999000) ∧
      (after .pdelayRespReceived s).rul.ptpIn = [] ∧ ((after .pdelayRespReceived s).ptpPort 27).delay = some ((1000 * 65536 - 65536) / 2) ∧
      ((after .pdelayRespReceived s).ptpPort 27).out = none := by decide +kernel

theorem witness_pdelayRespReceived_twoStep :
    let s := hears (live.setPtpPort 27 { (default : PtpPort) with out := some (65535, 999999999000) }) (.pdelayResp 255 65535 true 500 65536)
    s.rul.ptpIn = ⟨27, 1000000000000, 5, 7, .pdelayResp 255 65535 true 500 65536⟩ :: [] ∧ (s.ptpPort 27).out = some (65535, 999999999000) ∧
      (after .pdelayRespReceived s).rul.ptpIn = [] ∧ ((after .pdelayRespReceived s).ptpPort 27).resp = some (1000000000000, 500, 65536) := by
  decide +kernel

theorem witness_pdelayRespFuReceived :
    let x : PtpPort := { (default : PtpPort) with out := some (65535, 999999999000), resp := some (999999999900, 500, 65536) }
    let s := hears (live.setPtpPort 27 x) (.pdelayRespFu 255 65535 600 131072)
    s.rul.ptpIn = ⟨27, 1000000000000, 5, 7, .pdelayRespFu 255 65535 600 131072⟩ :: [] ∧ (s.ptpPort 27).out = some (65535, 999999999000) ∧
      (s.ptpPort 27).resp = some (999999999900, 500, 65536) ∧ (after .pdelayRespReceived s).rul.ptpIn = [] ∧
      ((after .pdelayRespReceived s).ptpPort 27).delay = some ((900 * 65536 - (100 * 65536 + 65536 + 131072)) / 2) := by decide +kernel

theorem witness_pdelayReqSend : let s := (ptpDom 1 held).setPtpPort 27 { (default : PtpPort) with seq := 65535, sentAt := some 999000000000 }
    (s.domPorts 1).testBit 27 = true ∧ s.f (Reg.RUL_DOM_CFG_SOURCE 1) = 1 ∧ pdelayDue s 27 = true ∧ ((after (.pdelayReqSend 27) s).ptpPort 27).out = some (65535, s.ltc) ∧
      ((after (.pdelayReqSend 27) s).ptpPort 27).seq = 0 ∧ ((after (.pdelayReqSend 27) s).ptpPort 27).sentAt = some s.ltc := by decide +kernel

theorem witness_announceReceiptTimeout : let e : AnnEntry := ⟨27, anAnnounce, 994000000000, 1, none⟩
    let s := ptpDom 1 { held with anns := [e] }
    (s.dom 1).port = some 27 ∧ (s.dom 1).anns.find? (fun e => some e.port = (s.dom 1).port) = some e ∧ e.ltc + announceLife e ≤ s.ltc ∧
      ∀ a ∈ ((after (.announceReceiptTimeout 1) s).dom 1).anns, a.port ≠ 27 := by decide +kernel

theorem witness_syncMissingTimeout : let s := ptpDom 1 { held with lastSync := 997000000000, anns := [⟨27, anAnnounce, 999000000000, 1, none⟩] }
    (s.dom 1).port = some 27 ∧ s.f (Reg.RUL_DOM_CFG_SOURCE 1) = 1 ∧ (s.dom 1).lastSync + 3 * (s.dom 1).interval ≤ s.ltc ∧
      ((after (.syncMissingTimeout 1) s).dom 1).barred = [27] := by decide +kernel

theorem witness_suspectHoldEnd : let h : Suspect := ⟨1000000000000, 0, 0, false⟩
    let s := (ptpDom 1 { held with susp := some h }).setF (Reg.RUL_DOM_STATE_STATE 1) 3
    (s.dom 1).susp = some h ∧ s.domSt 1 = domSuspect ∧ h.ends ≤ s.ltc ∧ ((after (.suspectHoldEnd 1) s).dom 1).susp = none ∧
      (after (.suspectHoldEnd 1) s).domSt 1 = domTracking := by decide +kernel

theorem witness_hostServoTimeout : let s := (ptpDom 1 { held with haLast := 996000000000 }).setFs [(Reg.RUL_DOM_STATE_STATE 1, 2), (Reg.RUL_DOM_CFG_HA 1, 1)]
    s.on (Reg.RUL_DOM_CFG_HA 1) = true ∧ s.domSt 1 = domTracking ∧ (s.dom 1).haLast + 4000000000 ≤ s.ltc ∧
      (after (.hostServoTimeout 1) s).domSt 1 = domHoldover ∧ ((after (.hostServoTimeout 1) s).dom 1).susp = none := by decide +kernel

theorem witness_domainRevert : let s := (ptpDom 0 { held with usableSince := some 940000000000 }).setFs [(Reg.RUL_DOM_STATE_STATE 0, 2),
      (Reg.RUL_DOM_STATE_LOCK 0, 1), (Reg.RUL_TQ_SEL, 1), (Reg.RUL_CTRL_REVERT, 1)]
    (s.dom (s.f Reg.RUL_CTRL_PREF)).usableSince = some 940000000000 ∧ s.on Reg.RUL_CTRL_REVERT = true ∧ s.sel ≠ s.f Reg.RUL_CTRL_PREF ∧
      s.usable (s.f Reg.RUL_CTRL_PREF) = true ∧ 940000000000 + 60000000000 ≤ s.ltc ∧ (after .domainRevert s).sel = s.f Reg.RUL_CTRL_PREF := by
  decide +kernel

theorem witness_stepGrantExpired : let s := ptpDom 1 { held with grant := some 400000000000 }
    (s.dom 1).grant = some 400000000000 ∧ 400000000000 + 600000000000 ≤ s.ltc ∧ ((after (.stepGrantExpired 1) s).dom 1).grant = none := by
  decide +kernel

theorem witness_rulDomCfgWrite : let s := ptpDom 0 held
    accepts s (.cmd 15 0) (Reg.RUL_DOM_CFG 1) true ∧ portOverlap (domWord s 1 true 0xFFFFFFFF) = false ∧
      (after (.rulDomCfgWrite (.cmd 15 0) 1 true 0xFFFFFFFF) s).rd (Reg.RUL_DOM_PORTS 1) = 0xFFFFFFF := by
  refine ⟨⟨by decide +kernel, fun _ => rfl⟩, by decide +kernel⟩

theorem witness_rulDomHaPhaseWrite : let s := (ptpDom 1 held).setF (Reg.RUL_DOM_CFG_HA 1) 1
    accepts s (.cmd 15 0) (Reg.RUL_DOM_HA_PHASE 1) true ∧ s.on (Reg.RUL_DOM_CFG_HA 1) = true ∧
      (after (.rulDomHaPhaseWrite (.cmd 15 0) 1 0xFFFFFFFF) s).f (Reg.RUL_DOM_HA_PHASE_HPHASE 1) = 0xFFFFFFFF ∧
      ((after (.rulDomHaPhaseWrite (.cmd 15 0) 1 0xFFFFFFFF) s).dom 1).haLast = s.ltc ∧
      ((after (.rulDomHaPhaseWrite (.cmd 15 0) 1 0xFFFFFFFF) s).dom 1).copy = (s.dom 1).copy - (uPerNs : Int) := by
  refine ⟨⟨by decide +kernel, fun _ => rfl⟩, by decide +kernel⟩

theorem witness_timeStepAllow : let c := entry 0x21 0 5 [3]
    let s := asks ((ptpDom 0 held).setFs [(Reg.RUL_DOM_STATE_STATE 1, 4)]) 0 c
    ready s 1 0x21 c ∧ s.level 1 = 0 ∧ c.arg 0 1 ≠ 0 ∧ c.arg 0 1 < 4 ∧ c.zero 1 32 = true ∧
      (∀ d ∈ bitsOf 2 (c.arg 0 1), s.domSt d ≠ domDisabled ∧ (s.dom d).grant = none) ∧
      ∀ d ∈ bitsOf 2 (c.arg 0 1), ((after (.timeStepAllow 1) s).dom d).grant = some s.ltc := by
  unfold ready; decide +kernel

theorem witness_refLost : let s := live.setF Reg.RUL_TQ_REF 1
    s.on Reg.RUL_TQ_REF = true ∧ (after .refLost s).on Reg.RUL_TQ_REF = false ∧ (after .refLost s).rul.clk.refLost = some s.ltc := by decide +kernel

theorem witness_refRestored : let s := (live.setClk { live.rul.clk with refLost := some 990000000000 }).setFs [(Reg.RUL_CTRL_REF_SEL, 1), (Reg.RUL_TQ_REF, 0)]
    s.rul.clk.refLost = some 990000000000 ∧ s.on Reg.RUL_CTRL_REF_SEL = true ∧ s.on Reg.RUL_TQ_REF = false ∧ 990000000000 + 10000000000 ≤ s.ltc ∧
      (after .refRestored s).on Reg.RUL_TQ_REF = true ∧ (after .refRestored s).rul.clk.refLost = none := by decide +kernel

theorem witness_irigbFrame : let s := live.setFs [(Reg.RUL_LEG_CFG_IRIG_EN, 1), (Reg.RUL_LEG_CFG_TAI_UTC, 37)]
    let u := (s.setClk { s.rul.clk with irigLast := some (729 * 86400 + 86399 + 37, 999000000000) }).setF Reg.RUL_LEG_CFG_YEAR 72
    s.on Reg.RUL_LEG_CFG_IRIG_EN = true ∧ irigFollows s 37 = true ∧ (after (.irigbFrame 4 1 0 1970) s).rul.clk.irig = some (37, s.ltc) ∧
      (after (.irigbFrame 4 366 86399 1972) s).rul.clk.irig = some (1095 * 86400 + 86399 + 37, s.ltc) ∧
      u.f Reg.RUL_LEG_CFG_YEAR ≠ 0 ∧ irigFollows u (daysToYear 72 * 86400 + 37) = false ∧
      irigFollows u (daysToYear 1972 * 86400 + 37) = true ∧
      (after (.irigbFrame 7 1 0 1972) u).rul.clk.irig = some (730 * 86400 + 37, s.ltc) ∧
      irigFollows (s.setF Reg.RUL_LEG_CFG_YEAR 1) (daysToYear 1 * 86400 + 37) = true := by decide +kernel

theorem witness_ppsInEdge : let s := (live.setClk { live.rul.clk with irig := some (100, 999999999000) }).setFs [(Reg.RUL_LEG_CFG_PPS_EN, 1), (Reg.RUL_DOM_CFG_SOURCE 1, 2)]
    s.on Reg.RUL_LEG_CFG_PPS_EN = true ∧ s.rul.clk.irig = some (100, 999999999000) ∧ s.f (Reg.RUL_DOM_CFG_SOURCE 1) = 2 ∧
      ((after .ppsInEdge s).dom 1).lastSync = s.ltc := by decide +kernel

theorem witness_ppsOutRise : let s := (live.setClk { live.rul.clk with dtc := (uPerNs : Int) * 1000000000, dtcSet := true }).setFs [(Reg.RUL_PPS_OUT_EN, 1),
      (Reg.RUL_PPS_OUT_GATE, 1), (Reg.RUL_TQ_TQ, 1)]
    s.rul.clk.ppsSec < dtcSecond s ∧ s.rul.clk.dtcSet = true ∧ s.on Reg.RUL_PPS_OUT_EN = true ∧ s.tq ≤ 1 ∧
      (after .ppsOutRise s).rul.clk.ppsOut = true ∧ (after .ppsOutRise s).rul.clk.ppsRise = s.ltc ∧ (after .ppsOutRise s).rul.clk.ppsSec = 1 := by
  decide +kernel

theorem witness_ppsOutFall : let s := (live.setClk { live.rul.clk with ppsOut := true, ppsRise := 999500000000 }).setFs [(Reg.RUL_PPS_OUT_WIDTH, 500)]
    s.rul.clk.ppsOut = true ∧ s.rul.clk.ppsRise + s.f Reg.RUL_PPS_OUT_WIDTH * 1000000 ≤ s.ltc ∧ (after .ppsOutFall s).rul.clk.ppsOut = false := by
  decide +kernel

theorem witness_tqChange : let s := live.setF Reg.RUL_TQ_TQ 0
    tqOf s ≠ s.tq ∧ (after .tqChange s).tq = tqOf s := by decide +kernel

theorem witness_dtcSlewEnd : let s := (live.setClk { live.rul.clk with stepPend := true }).setF Reg.RUL_TQ_SLEWING 1
    s.on Reg.RUL_TQ_SLEWING = true ∧ s.delta = 0 ∧ (after .dtcSlewEnd s).on Reg.RUL_TQ_SLEWING = false ∧
      (after .dtcSlewEnd s).rul.clk.stepPend = false := by decide +kernel

theorem test_lowWordRead : let s := atState 3 (2 ^ 33 + 5)
    (after (.lowWordRead ⟨.spi, 4⟩ Reg.RUL_LTC_LO) s).shadowOf .spi Reg.RUL_LTC_HI = 2 ∧ illRead .spi Reg.RUL_LTC_LO 4 = false ∧ illRead .pcie Reg.RUL_LTC_LO 8 = false ∧ illRead .pcie Reg.RUL_DTC_NS 4 = false ∧ readServed s Reg.RUL_LTC_LO = true ∧
      (after (.lowWordRead ⟨.pcie, 8⟩ Reg.RUL_LTC_LO) s).hst.rdOut = [5, 2] := by
  decide +kernel

theorem test_dtcSnapshotRead : let s := live.setClk { live.rul.clk with dtc := (uPerNs : Int) * 2000000001, epoch := 9 }
    (after (.dtcSnapshotRead ⟨.pcie, 4⟩) s).shadowOf .pcie Reg.RUL_DTC_SEC_LO = 2 ∧
      (after (.dtcSnapshotRead ⟨.pcie, 8⟩) s).shadowOf .pcie Reg.RUL_DTC_SEC_HI = 9 * 65536 := by decide +kernel

theorem witness_qilSlotSelWrite : accepts live (.cmd 0 1) Reg.QIL_SLOT_SEL false ∧
    (after (.qilSlotSelWrite (.cmd 0 1) 0xFFFFFFFF) live).shadowOf (accessReq live (.cmd 0 1)) Reg.QIL_SLOT_SEL = 32767 := by
  refine ⟨⟨by decide +kernel, fun h => nomatch h⟩, by decide +kernel⟩

/-! ### Analogue front end -/

/-- IN_SERVICE with the analogue rails within limits, converter 15 in a state. -/
def converting (x : CvState) : State := ({ live with afe := { live.afe with stopped := false } } : State).setCv 15 x

theorem witness_sampleTick : let s := live.setClk { live.rul.clk with dtc := (uPerNs : Int) * 1000000000, tick := 95999, gridOff := true }
    tickTime s.rul.clk.tick ≤ s.rul.clk.dtc ∧ (after .sampleTick s).rul.clk.gridOff = false ∧ (after .sampleTick s).rul.clk.tick = 96001 := by
  decide +kernel

theorem witness_swtrig : let s := (converting default).setF (Reg.AFE_CV_CTRL_TRIG 15) 2
    accepts s (.cmd 15 1) (Reg.AFE_CV_CTRL 15) false ∧ s.cvRuns 15 = true ∧ s.rul.clk.gridOff = false ∧ (s.cv 15).mode = 0 ∧ s.f (Reg.AFE_CV_CTRL_TRIG 15) = 2 ∧
      (15 : Fin 16).val < s.converters ∧ (s.cv 15).busy = false ∧ ((after (.swtrig (.cmd 15 1) 15) s).cv 15).busy = true ∧
      ((after (.swtrig (.cmd 15 1) 15) s).cv 15).entry = 0 ∧ ((after (.swtrig (.cmd 15 1) 15) s).cv 15).reload = false ∧
      ((after (.swtrig (.cmd 15 1) 15) s).cv 15).start = 0 := ⟨accepts_p1 _ _ (by decide +kernel), by decide +kernel⟩

theorem witness_conversionComplete_seq : let s := (converting { (default : CvState) with busy := true, w0 := 0x10400, acc := 7 }).wr (Reg.AFE_CV_ACT 15 0 0) 0x10400
    s.cvRuns 15 = true ∧ (15 : Fin 16).val < s.converters ∧ (s.cv 15).mode = 0 ∧ (s.cv 15).busy = true ∧ (s.cv 15).urg = none ∧ convStalled s 15 = false ∧ feedLag s 15 < 4 ∧
      (s.cv 15).done + 1 < 2 ^ eAvg (s.cv 15).w0 ∧ (s.cv 15).done + 1 < 2 ^ eAvg (s.rd (Reg.AFE_CV_ACT 15 (s.cv 15).entry 0)) ∧
      ((after (.conversionComplete 15 10000000000) s).cv 15).done = 1 ∧ ((after (.conversionComplete 15 10000000000) s).cv 15).acc = 7 + 32767 := by
  decide +kernel

theorem witness_conversionComplete_stream : let w : Window := ⟨9, 0, List.replicate 62 default, 0, 0, false⟩
    let s := converting { (default : CvState) with mode := 1, win := some w }
    s.cvRuns 15 = true ∧ (15 : Fin 16).val < s.converters ∧ (s.cv 15).mode = 1 ∧ convStalled s 15 = false ∧ feedLag s 15 < 4 ∧ windowOf s (s.cv 15) = some w ∧ w.codes.length < 63 ∧
      ((after (.conversionComplete 15 0) s).cv 15).win.map (fun w => (w.tick, w.codes.length, (w.codes.headD default).m)) =
        some (9, 63, 64 * 9 + 62) := by decide +kernel

theorem witness_conversionComplete_window : let w : Window := ⟨9, 0, List.replicate 63 default, 0, 0, false⟩
    let s := converting { (default : CvState) with mode := 1, win := some w }
    s.cvRuns 15 = true ∧ (15 : Fin 16).val < s.converters ∧ (s.cv 15).mode = 1 ∧ convStalled s 15 = false ∧ feedLag s 15 < 4 ∧ windowOf s (s.cv 15) = some w ∧
      w.codes.length = 63 ∧ ((after (.conversionComplete 15 0) s).cv 15).win = some (newWindow 10 0) ∧
      ((after (.conversionComplete 15 0) s).cv 15).full.map (fun w => (w.tick, w.codes.length, (w.codes.headD default).m)) =
        [(9, 64, 64 * 9 + 63)] := by decide +kernel

theorem witness_streamWindowClose : let w : Window := ⟨9, 0, [⟨577, 5, false, false⟩, ⟨576, -4, false, false⟩], 0, 0, false⟩
    let s := converting { (default : CvState) with mode := 1, full := [w] }
    s.cvRuns 15 = true ∧ convStalled s 15 = false ∧ (s.cv 15).full = w :: [] ∧ ((after (.streamWindowClose 15) s).cv 15).full = [] ∧
      ((after (.streamWindowClose 15) s).vel.lanes.get 15).map (fun b => (b.codes, b.hold)) = [([-4, 5], 1024 * 9 - 504)] := by decide +kernel

/-- The same in streaming mode on every converter. -/
def streaming : State := (converting default).setFs ((List.range 16).map (fun n => (Reg.AFE_CV_CTRL_MODE n, 1)))

theorem witness_reload : let s := (List.range 16).foldl (fun t e => t.wr (Reg.AFE_CV_SHD 15 e 0) 0x1000400) streaming
    accepts s (.cmd 15 1) (Reg.AFE_CV_CTRL 15) false ∧ (15 : Fin 16).val < s.converters ∧
      tableRefusal s 15 (shdTable s 15) (mapWith s 15 (shdTable s 15)) = none ∧
      ((after (.reload (.cmd 15 1) 15) s).cv 15).reload = true ∧ (after (.reload (.cmd 15 1) 15) s).on (Reg.AFE_CV_STAT_RELOAD_PEND 15) = true :=
  ⟨accepts_p1 _ _ (by decide +kernel), by decide +kernel⟩

theorem witness_afeActWrite : let s := streaming
    accepts s (.cmd 15 0) (Reg.AFE_CV_ACT 15 15 0) true ∧ (15 : Fin 16).val < s.converters ∧
      afeRefusal s (Reg.AFE_CV_ACT 15 15 0) (0xFE000400 &&& entryMask 0) = none ∧
      (after (.afeActWrite (.cmd 15 0) 15 15 0 0xFE000400) s).rd (Reg.AFE_CV_ACT 15 15 0) = 0x400 :=
  ⟨accepts_p0 _ _ _ (by decide +kernel), by decide +kernel⟩

theorem witness_afeWdSrcWrite : accepts live (.cmd 15 0) (Reg.AFE_WD_SRC 15) true ∧ afeRefusal live (Reg.AFE_WD_SRC 15) (0xFFFFFFFF % 131072) = none ∧
    (after (.afeWdSrcWrite (.cmd 15 0) 15 0xFFFFFFFF) live).rd (Reg.AFE_WD_SRC 15) = 131071 :=
  ⟨accepts_p0 _ _ _ (by decide +kernel), by decide +kernel⟩

theorem witness_comparatorCrossing : let s := (converting default).setF (Reg.AFE_AIN_CFG_CMP_EN 63) 1
    s.afeRuns = true ∧ s.on (Reg.AFE_AIN_CFG_CMP_EN 63) = true ∧ s.afe.crossed.testBit 63 = false ∧ (63 : Fin 64).val / 4 < s.converters ∧
      (after (.comparatorCrossing 63 true) s).afe.crossed.testBit 63 = true ∧
      (after (.comparatorRearm 63) (after (.comparatorCrossing 63 true) s)).afe.crossed.testBit 63 = false := by decide +kernel

theorem witness_urgentConversionComplete : let s := converting { (default : CvState) with urg := some 3 }
    s.cvRuns 15 = true ∧ (s.cv 15).urg = some 3 ∧ ((after (.urgentConversionComplete 15 0) s).cv 15).urg = none ∧
      ((after (.urgentConversionComplete 15 0) s).cv 15).urgDone = true := by decide +kernel

theorem witness_wavefrontEvent : let s := (converting default).setWd 15 { (default : WdState) with det := some 100, evseq := 4294967295,
                                                                                                    pts := [⟨107, 5, 5, false, false⟩] }
    s.afeRuns = true ∧ (s.wd 15).det = some 100 ∧ ((s.wd 15).at (100 + 7)).isSome = true ∧ ((after (.wavefrontEvent 15) s).wd 15).det = none ∧
      ((after (.wavefrontEvent 15) s).wd 15).evseq = 0 := by decide +kernel

/-! ### Ports, sampled values and GOOSE -/

/-- The codes of the records offered since a state. -/
def logged (s t : State) : List Nat := (t.scr.offers.drop s.scr.offers.length).map (·.code)

theorem witness_portLink : let u := after (.portLinkUp 27 true) live
    portExists live 27 = true ∧ live.linkUp 27 = false ∧ u.linkUp 27 = true ∧ logged live u = [Ev.STN_LINK_UP.code] ∧
      (after (.portLinkUp 27 true) u).scr.offers = u.scr.offers ∧
      portAn u 27 = false ∧ (after (.portLinkDown 27 ⟨false, true, false⟩) u).linkUp 27 = true ∧
      (after (.portLinkDown 27 ⟨false, true, false⟩) u).scr.offers = u.scr.offers ∧
      (after (.portLinkDown 27 ⟨true, true, true⟩) u).linkUp 27 = false ∧
      logged u (after (.portLinkDown 27 ⟨true, true, true⟩) u) = [Ev.STN_LINK_DOWN.code] := by decide +kernel

theorem witness_portLink_refused : let s := live.setFs [(Reg.PBI_PB_CFG_IF 23, 1), (Reg.PBI_PB_STAT_LINK_REFUSED 23, 254)]
    let g := live.setF Reg.SYS_ID_VARIANT 1
    portExists s 23 = true ∧ portSgmii s 23 = true ∧ (after (.portLinkUp 23 false) s).linkUp 23 = false ∧
      (after (.portLinkUp 23 false) (after (.portLinkUp 23 false) s)).f (Reg.PBI_PB_STAT_LINK_REFUSED 23) = 255 ∧
      portSgmii live 27 = false ∧ (after (.portLinkUp 27 false) live).f (Reg.STN_SB_STAT_LINK_REFUSED 3) = 0 ∧
      portExists g 11 = true ∧ portExists g 12 = false ∧ portExists g 25 = true ∧ portExists g 26 = false := by decide +kernel

theorem witness_sfpXferStart : accepts live (.cmd 15 1) Reg.PBI_SFP_XFER false ∧ (0x0100FF50 : Word).toNat.testBit 24 = true ∧
    (after (.sfpXferStart (.cmd 15 1) 0x0100FF50) live).on Reg.PBI_SFP_XFER_BUSY = true ∧
    (after (.sfpXferStart (.cmd 15 1) 0x0100FF50) live).f Reg.PBI_SFP_XFER_OFFSET = 0xFF := ⟨accepts_p1 _ _ (by decide +kernel), by decide +kernel⟩

theorem witness_sfpXferDone : let s := live.setFs [(Reg.PBI_SFP_XFER_BUSY, 1), (Reg.PBI_SFP_XFER_RD, 1), (Reg.PBI_SFP_XFER_DATA, 7)]
    s.on Reg.PBI_SFP_XFER_BUSY = true ∧ (after (.sfpXferDone false 0xFF) s).f Reg.PBI_SFP_XFER_DATA = 0xFF ∧
      (after (.sfpXferDone false 0xFF) s).on Reg.PBI_SFP_XFER_BUSY = false ∧ (after (.sfpXferDone true 0xFF) s).f Reg.PBI_SFP_XFER_DATA = 7 ∧
      (after (.sfpXferDone true 0xFF) s).on Reg.PBI_SFP_XFER_NACK = true := by decide +kernel

/-- PB23 enabled with its link up. -/
def wired : State := live.setFs [(Reg.PBI_PB_CFG_EN 23, 1), (Reg.PBI_PB_STAT_LINK 23, 1)]

def aFrame (len : Nat) (b : Body) : Frame := ⟨len, true, 1, 0x010CCD040001, 2, none, none, false, b, []⟩

def aGoose : GooseMsg := ⟨0x3FFF, [1], [2], [3], 7, 1, 0, 1, false, false, false, true, 0, []⟩

theorem witness_frameReceived_sv : let pdu : SvPdu := ⟨0x4000, 1, false, [⟨[65], 0, 1, 2, none, none, []⟩]⟩
    let f := aFrame 1522 (.sv pdu)
    let s0 := wired.setFs [(Reg.PBI_SC_CFG_EN 0, 1), (Reg.PBI_SC_MATCH1_MAC_HI 0, 0x010C), (Reg.PBI_SC_MATCH0_MAC_LO 0, 0xCD040001),
      (Reg.PBI_SC_MATCH1_APPID 0, 0x4000)]
    let s := ({ s0 with pbi := { s0.pbi with svIds := [(0, [65])] } } : State).setPort 23 { (default : PortState) with inUsed := 65536 - 1522 }
    takes s (23 : Fin 28) f ∧ groupOf s 23 = 0 ∧ prpPair s 23 = none ∧ isHsr s 23 = false ∧ f.tags < 2 ∧ f.body = .sv pdu ∧
      svMatch s f pdu = some 0 ∧ modePending s 1 0 = none ∧ s.on (Reg.PBI_SC_CFG_HA 0) = false ∧
      (after (.frameReceived 23 f) s).pbi.svq = [⟨23, s.ltc, s.dtcNs, 1522, 0, pdu⟩] ∧ ((after (.frameReceived 23 f) s).port 23).inUsed = 65536 := by
  unfold takes; decide +kernel

theorem witness_frameReceived_goose : let f := aFrame 64 (.goose aGoose)
    let s0 := wired.setFs [(Reg.PBI_GS_CFG_EN 63, 1), (Reg.PBI_GS_MATCH1_MAC_HI 63, 0x010C), (Reg.PBI_GS_MATCH0_MAC_LO 63, 0xCD040001),
      (Reg.PBI_GS_MATCH1_APPID 63, 0x3FFF), (Reg.PBI_GS_CFG_EDITION 63, 1)]
    let s : State := { s0 with pbi := { s0.pbi with gsDecls := List.replicate 63 default ++ [⟨[1], [2], [3], []⟩] } }
    takes s (23 : Fin 28) f ∧ gsMatch s f aGoose = some 63 ∧ modePending s 2 63 = none ∧ s.on (Reg.PBI_GS_CFG_HA 63) = false ∧
      (after (.frameReceived 23 f) s).pbi.gq = [⟨23, s.ltc, 64, 63, aGoose⟩] := by
  unfold takes; decide +kernel

theorem witness_frameReceived_ptp : let m : PtpMsg := .pdelayReq 255 1
    let f := { aFrame 1522 (.ptp m) with dst := 0x0180C200000E }
    let s := wired.setFs [(Reg.RUL_DOM_PORTS_PB 1, 0x800000)]
    takes s (23 : Fin 28) f ∧ groupOf s 23 = 0 ∧ prpPair s 23 = none ∧ isHsr s 23 = false ∧ ptpAddr f.dst = true ∧ ptpAddr 0x011B19000000 = true ∧
      (s.domPorts 1).testBit 23 = true ∧
      (after (.frameReceived 23 f) s).rul.ptpIn.map (fun r => (r.port, r.ltc, r.msg)) = [(23, s.ltc, m)] ∧
      ptpAddr 9 = false ∧ takes s (23 : Fin 28) { f with dst := 9 } ∧ (after (.frameReceived 23 { f with dst := 9 }) s).rul.ptpIn = [] := by
  unfold takes; decide +kernel

theorem witness_frameReceived_duplicate : let f := { aFrame 1528 .other with rct := some ⟨65535, 0xB, 1506, 0x88FB⟩ }
    let s0 := wired.setF (Reg.PBI_PB_CFG_PRP 22) 1
    let s : State := { s0 with pbi := { s0.pbi with pair := [(11, ⟨[(2, 65535, 999999999999)], 0, 0⟩)] } }
    takes s (23 : Fin 28) f ∧ groupOf s 23 = 0 ∧ prpPair s 23 = some 11 ∧ isHsr s 23 = false ∧ rctValid f ⟨65535, 0xB, 1506, 0x88FB⟩ = true ∧
      isPtp f.body = false ∧ dupSeen s 11 f.src 65535 = true ∧ (after (.frameReceived 23 f) s).f (Reg.PBI_PB_CNT_COUNT 23 5) = 1 := by
  unfold takes; decide +kernel

/-- SB3 in an HSR ring, its pair's MAC address 7, both ports with their links up. -/
def ringed : State := let s := live.setFs [(Reg.STN_SB_CFG_EN 2, 1), (Reg.STN_SB_STAT_LINK 2, 1), (Reg.STN_SB_CFG_EN 3, 1),
    (Reg.STN_SB_STAT_LINK 3, 1), (Reg.STN_PAIR_CFG_MODE 1, 2)]
  { s with pbi := { s.pbi with pairMac := [5, 7] } }

theorem witness_frameReceived_hsr : let own := { aFrame 64 .other with src := 7 }
    let f := { aFrame 1522 .other with hsr := some 65535, dst := 9 }
    takes ringed (27 : Fin 28) own ∧ isHsr ringed 27 = true ∧ own.src = ringed.pbi.pairMac.getD ((27 - 24) / 2) 0 ∧
      ((after (.frameReceived 27 own) ringed).port 27).fwd = [] ∧
      takes ringed (27 : Fin 28) f ∧ f.src ≠ ringed.pbi.pairMac.getD ((27 - 24) / 2) 0 ∧ linkLocal f.dst = false ∧ isPdelay f.body = false ∧
      dupSeen ringed (12 + (27 - 24) / 2) f.src 65535 = false ∧ f.dst ≠ 7 ∧
      ((after (.frameReceived 27 f) ringed).port 27).fwd = [(f, ringed.ltc)] := by
  unfold takes; decide +kernel

theorem witness_frameReceived_bridged : let f := aFrame 1522 .other
    let s := wired.setF (Reg.PBI_PB_CFG_BG 23) 4
    takes s (23 : Fin 28) f ∧ isHsr s 23 = false ∧ groupOf s 23 = 4 ∧ linkLocal f.dst = false ∧ isPdelay f.body = false ∧
      multicast f.dst = true ∧ ((after (.frameReceived 23 f) s).port 23).fwd = [(f, s.ltc)] := by
  unfold takes; decide +kernel

theorem witness_frameReceived_discarded : let f := aFrame 64 .other
    let full := wired.setPort 23 { (default : PortState) with inUsed := 65473 }
    portRuns live 23 = false ∧ portRuns wired 23 = true ∧ 65536 < (full.port 23).inUsed + f.len ∧
      (after (.frameReceived 23 f) full).f (Reg.PBI_PB_CNT_COUNT 23 2) = 1 ∧
      [{ f with cut := true }, { f with len := 63 }, { f with len := 1523 }, { f with fcsOk := false }].all (fun f =>
        (after (.frameReceived 23 f) wired).f (Reg.PBI_PB_CNT_COUNT 23 1) = 1) = true ∧ isHsr wired 23 = false ∧ groupOf wired 23 = 0 := by
  decide +kernel

theorem witness_frameForward : let f := aFrame 64 .other
    let s := ringed.setPort 27 { (default : PortState) with fwd := [(f, 5)] }
    (s.port 27).fwd = (f, 5) :: [] ∧ forwardPorts s 27 = [26] ∧ portRuns s 26 = true ∧ s.egressLen 26 + f.len ≤ 32768 ∧
      ((after (.frameForward 27) s).port 27).fwd = [] ∧
      ((after (.frameForward 27) s).port 26).egress.map (fun i => (i.body, i.inPort, i.inLtc)) = [(.fwd f false, 27, 5)] := by
  decide +kernel

theorem witness_frameTxStart : let i : TxItem := ⟨4, 1518, .sup, some 65535, 23, 0⟩
    let s := wired.setPort 23 { (default : PortState) with egress := [i], txFree := 1000000000000 }
    (s.port 23).egress = i :: [] ∧ s.running = true ∧ portEn s 23 = true ∧ s.linkUp 23 = true ∧ (s.port 23).txFree ≤ s.ltc ∧
      ((after (.frameTxStart 23) s).port 23).egress = [] ∧ ((after (.frameTxStart 23) s).port 23).txFree = s.ltc + 1538 * 8 ∧
      ((after (.frameTxStart 23) s).port 23).tx.map (fun j => (j.len, j.seq)) = some (1518, some 65535) := by decide +kernel

theorem witness_frameTxStart_down : let i : TxItem := ⟨4, 1518, .sup, none, 27, 0⟩
    let s := (ringed.setPort 27 { (default : PortState) with egress := [i] }).setF (Reg.STN_SB_STAT_LINK 3) 0
    (s.port 27).egress = i :: [] ∧ s.running = true ∧ portEn s 27 = true ∧ s.linkUp 27 = false ∧ 24 ≤ (27 : Fin 28).val ∧
      ((after (.frameTxStart 27) s).port 27).egress = [] ∧ ((after (.frameTxStart 27) s).port 27).tx = none := by decide +kernel

theorem witness_prpSupervisionSend : let s0 := (ringed.setFs [(Reg.PBI_PB_CFG_PRP 22, 1), (Reg.PBI_PB_CFG_SUP_TX 23, 1),
      (Reg.STN_PAIR_CFG_SUP_TX 1, 1)])
    let s : State := { s0 with pbi := { s0.pbi with pair := [(11, ⟨[], 65535, 998000000000⟩), (13, ⟨[], 5, 0⟩)] } }
    let t := after (.prpSupervisionSend 11) s
    let u := after (.prpSupervisionSend 13) s
    s.running = true ∧ (s.pbi.pair.get 11).supAt + 2000000000 ≤ s.ltc ∧ s.on (Reg.PBI_PB_CFG_PRP (2 * 11)) = true ∧
      s.on (Reg.PBI_PB_CFG_SUP_TX (2 * 11 + 1)) = true ∧ portEn s 23 = false ∧ (t.pbi.pair.get 11).supAt = s.ltc ∧ (t.pbi.pair.get 11).seq = 0 ∧
      (t.port 23).egress = [] ∧ (s.pbi.pair.get 13).supAt = 0 ∧
      s.on (Reg.STN_PAIR_CFG_SUP_TX (13 - 12)) = true ∧ s.f (Reg.STN_PAIR_CFG_MODE (13 - 12)) ≠ 0 ∧ pairPorts (13 - 12) = [26, 27] ∧
      (u.pbi.pair.get 13).supAt = s.ltc ∧ (u.pbi.pair.get 13).seq = 6 ∧ (u.port 26).egress.map (fun i => (i.body, i.seq)) = [(.sup, some 5)] ∧
      (u.port 27).egress.map (fun i => (i.body, i.seq)) = [(.sup, some 5)] := by
  decide +kernel

theorem witness_svDecode : let r : SvRx := ⟨23, 5, 5, 64, 191, ⟨0x4000, 1, false, [⟨[65], 0, 1, 2, none, none, []⟩]⟩⟩
    let s : State := { live with pbi := { live.pbi with svq := [r], sc := [(191, { (default : ScState) with slots := List.replicate 15 ⟨0, []⟩ })] } }
    s.pbi.svq.find? (fun r => !svStalled s r.sc) = some r ∧ (after .svDecode s).pbi.svq = [] ∧ (after .svDecode s).pbi.decoded = 1 := by decide +kernel

theorem witness_svDecode_sample : let a : Asdu := ⟨[65], 3999, 1, 2, none, none, [(-5, 0)]⟩
    let r : SvRx := ⟨23, 5, 999999999, 64, 191, ⟨0x4000, 1, false, [a]⟩⟩
    let s0 := live.setFs [(Reg.PBI_SC_STAT_STATE 191, 2), (Reg.PBI_SC_CFG_NASDU 191, 1), (Reg.PBI_SC_CFG_NCHAN 191, 1), (Reg.PBI_SC_CONFREV_CONFREV 191, 1)]
    let s : State := { s0 with pbi := { s0.pbi with svq := [r], sc := [(191, { (default : ScState) with last := some (3997, 5), produced := 1 })] } }
    let t := after .svDecode s
    s.pbi.svq.find? (fun r => !svStalled s r.sc) = some r ∧ svState s 191 ≠ 0 ∧ svFrameOk s 191 r.pdu = true ∧ r.pdu.asdus = [a] ∧
      (s.sc 191).last = some (3997, 5) ∧ a.smpCnt = (3997 + 1 + (s.sc 191).produced) % svWrap s 191 ∧ commitWaits s (Reg.PBI_SC_CFG 191) 0x40 = false ∧
      (t.sc 191).out.map (fun z => (z.vals, z.instant)) = [([-5], svInstant (svWrap s 191) (svStep s 191) 999999999 3999)] ∧
      (t.sc 191).produced = 0 ∧ (t.sc 191).last = some (3999, svInstant (svWrap s 191) (svStep s 191) 999999999 3999) := by decide +kernel

theorem witness_svMissingDeadline : let s0 := live.setSc 191 { (default : ScState) with last := some (0, 1152000), ltcR := 999999799000 }
    let s := s0.setFs [(Reg.PBI_SC_STAT_STATE 191, 2), (Reg.PBI_SC_CFG_RATE 191, 5), (Reg.PBI_SC_CFG_LATE_LIM 191, 190)]
    (s.sc 191).last = some (0, 1152000) ∧ svState s 191 ≠ 0 ∧
      ((s.sc 191).produced + 1) * 1000000000 + ((s.sc 191).ltcR + s.f (Reg.PBI_SC_CFG_LATE_LIM 191) * 1000) * svRate s 191 ≤ s.ltc * svRate s 191 ∧
      ((after (.svMissingDeadline 191) s).sc 191).produced = 1 ∧ ((after (.svMissingDeadline 191) s).sc 191).out.map (fun z => z.instant) = [1152012] := by
  decide +kernel

theorem witness_svWaitingDeadline : let s0 := (live.setSc 191 { (default : ScState) with lastOut := 0 }).setClk { live.rul.clk with dtc := (uPerNs : Int) * 1000000000 }
    let s := s0.setFs [(Reg.PBI_SC_STAT_STATE 191, 1), (Reg.PBI_SC_CFG_NCHAN 191, 3)]
    svState s 191 = 1 ∧ (s.sc 191).last = none ∧ nsOfInstant (svNextGrid s 191) + s.f (Reg.PBI_SC_CFG_LATE_LIM 191) * 1000 ≤ s.dtcNs ∧
      ((after (.svWaitingDeadline 191) s).sc 191).out.map (fun z => z.instant) = [svNextGrid s 191] ∧
      ∀ z ∈ ((after (.svWaitingDeadline 191) s).sc 191).out, ∀ q ∈ z.quals, q.testBit 0 = true := by decide +kernel

theorem witness_gooseDecode : let r : GsRx := ⟨27, 5, 64, 63, aGoose⟩
    let s0 := live.setFs [(Reg.PBI_GS_STAT_STATE 63, 3), (Reg.PBI_GS_CFG_EN 63, 1), (Reg.PBI_GS_CONFREV_CONFREV 63, 7)]
    let s : State := { s0 with pbi := { s0.pbi with gq := [r] } }
    s.pbi.gq = r :: [] ∧ logicFull s = false ∧ gsState s 63 = 3 ∧ s.on (Reg.PBI_GS_CFG_EN 63) = true ∧ gsFrameOk s 63 aGoose = true ∧
      (after .gooseDecode s).pbi.gq = [] ∧ ((after .gooseDecode s).gs 63).pend = some (gsImage s 63 aGoose) ∧
      ((after .gooseDecode s).gs 63).lastLtc = 5 := by decide +kernel

theorem witness_gooseDecode_stalls : let m : GooseMsg := { aGoose with numEntries := 1, members := [⟨0, 1, 1⟩] }
    let r : GsRx := ⟨27, 5, 64, 63, m⟩
    let s0 := live.setFs [(Reg.PBI_GS_STAT_STATE 63, 3), (Reg.PBI_GS_CFG_EN 63, 1), (Reg.PBI_GS_CONFREV_CONFREV 63, 7), (Reg.PBI_GS_CFG_NMEMB 63, 1)]
    let s1 := s0.setStk { s0.stk with logicQ := List.replicate 16 [] }
    let s : State := { s1 with pbi := { s0.pbi with gq := [r], gsDecls := List.replicate 63 default ++ [⟨[1], [2], [3], [⟨0, 1, none, 0⟩]⟩], gbits := [⟨63, 0, 0, false⟩] } }
    s.pbi.gq = r :: [] ∧ gooseStalls s (gooseTake s r []) = true ∧ (after .gooseDecode s).pbi.gq = [r] := by decide +kernel

theorem witness_gooseStale : let s := (live.setGs 63 { (default : GsState) with lastLtc := 999998999999, tal := 1, cur := ⟨[5], [0], [0]⟩ }).setF (Reg.PBI_GS_STAT_STATE 63) 2
    gsState s 63 = 2 ∧ (s.gs 63).lastLtc + (s.gs 63).tal * 1000000 < s.ltc ∧ gsState (after (.gooseStale 63) s) 63 = 3 ∧
      ((after (.gooseStale 63) s).gs 63).pend.map (fun i => i.quals) = some [128] := by
  decide +kernel

theorem witness_gooseHostEntryTake : let s0 := live.setFs [(Reg.PBI_GS_CFG_EN 63, 1), (Reg.PBI_GS_CFG_HA 63, 1), (Reg.PBI_GS_CFG_NMEMB 63, 1)]
    let s := (s0.inkWrite (0x48000 + 63 * 528) [1#8, 0, 0, 0, 0xFF, 0xFF]).inkWrite (0x48000 + 63 * 528 + 16) [9#8]
    s.on (Reg.PBI_GS_CFG_EN 63) = true ∧ s.on (Reg.PBI_GS_CFG_HA 63) = true ∧ s.running = true ∧ logicFull s = false ∧
      s.inkNat (0x48000 + 63 * 528) 4 ≠ (s.gs 63).hostSeq ∧ s.inkNat (0x48000 + 63 * 528 + 4) 4 = 65535 ∧
      (∀ i < 64, 1 ≤ i → s.inkNat (0x48000 + 63 * 528 + 16 + 8 * i) 4 = 0 ∧ s.inkNat (0x48000 + 63 * 528 + 20 + 8 * i) 1 = 0) ∧
      ((after (.gooseHostEntryTake 63) s).gs 63).hostSeq = 1 ∧
      ((after (.gooseHostEntryTake 63) s).gs 63).pend.map (fun i => i.vals) = some [9] := by decide +kernel

theorem witness_publicationRequest : let s := live.setStk { live.stk with pub := [(35, ⟨5, 1, 0, 7, 2, 0, 0⟩)], pubOut := [(35, List.replicate 3 default)] }
    (s.stk.pub.get 35).dirty ≠ 0 ∧ (s.stk.pubOut.get 35).length < pubCredits 35 ∧ s.running = true ∧
      (after (.publicationRequest 35) (s.setF Reg.SYS_STATE_STATE 5)).stk.pubOut.get 35 = (after (.publicationRequest 35) s).stk.pubOut.get 35 ∧
      (after (.publicationRequest 35) s).stk.pubOut.get 35 = List.replicate 3 default ++ [⟨5, pubTest s 35, 7, 2, s.ltc⟩] := by decide +kernel

/-- Publication 31 runs with stNum and sqNum at their highest values. -/
def publishing : State := (({ live with duc := { live.duc with gp := [(31, { (default : GpState) with live := true, next := 1000000000000 })] } } : State).wr
  (Reg.STN_GP_STNUM 31) 0xFFFFFFFF).setFs [(Reg.STN_GP_SQNUM_SQNUM 31, 0xFFFFFFFF), (Reg.STN_GP_CFG_EN 31, 1), (Reg.STN_GP_CFG_EDITION 31, 1)]

theorem witness_gooseNewState : let r : PubReq := ⟨5, true, 7, 0, 9⟩
    let s := publishing.setStk { live.stk with pubOut := [(31, [r])] }
    gpRuns s 31 = true ∧ s.stk.pubOut.get 31 = r :: [] ∧ (s.gp 31).pv = none ∧ s.on (Reg.STN_GP_CFG_EN 31) = true ∧
      commitWaits s (Reg.STN_GP_CFG 31) 0x20 = false ∧ commitWaits s (Reg.STN_GP_MEM 31 0) 0x100 = false ∧
      (after (.gooseNewState 31) s).stk.pubOut.get 31 = [] ∧ ((after (.gooseNewState 31) s).gp 31).bits = 5 ∧
      ((after (.gooseNewState 31) s).gp 31).test = true ∧ (after (.gooseNewState 31) s).rd (Reg.STN_GP_STNUM 31) = 1 ∧
      (after (.gooseNewState 31) s).rd (Reg.STN_GP_SQNUM 31) = 0 := by decide +kernel

theorem witness_gooseRepetition : let s := publishing
    gpRuns s 31 = true ∧ (s.gp 31).next ≤ s.ltc ∧ s.on (Reg.STN_GP_CFG_EN 31) = true ∧ commitWaits s (Reg.STN_GP_CFG 31) 0x20 = false ∧
      commitWaits s (Reg.STN_GP_MEM 31 0) 0x100 = false ∧ ((after (.gooseRepetition 31) s).gp 31).rep = 1 ∧
      (after (.gooseRepetition 31) s).rd (Reg.STN_GP_STNUM 31) = 0xFFFFFFFF ∧ (after (.gooseRepetition 31) s).rd (Reg.STN_GP_SQNUM 31) = 1 := by
  decide +kernel

/-! ### Stroke -/

/-- Updates of engine 15, of the logic outputs and of link 3 wait, and the turn stands at a source. -/
def updating (turn : Nat) : State :=
  let s1 := live.setStk { live.stk with
    logicQ := [[(511, true, false), (512, true, true)]]
    dlQ := [(3, [0x8001])]
    turn := turn
    sentAt := [(15, [7]), (16, [8]), (20, [9])] }
  { s1 with nib := { s1.nib with toStroke := [(15, [⟨255, 2, 1, 1, true, 0⟩])] } }

theorem witness_strokeUpdate : let s := updating 0
    let t := after (.strokeUpdate 15) s
    strokeNext s = some 15 ∧ strokeNext s ≠ some 16 ∧ (after (.strokeUpdate 16) s).stk = s.stk ∧
      (s.nib.toStroke.find? (fun p => p.1 = 15)).isSome = true ∧ t.nib.toStroke = [] ∧ t.stk.vec.testBit 255 = true ∧ t.stk.marks.testBit 255 = true ∧
      t.stk.turn = 16 ∧ t.stk.sentAt.get 15 = [] ∧ strokeNext t = some 16 := by decide +kernel

theorem witness_strokeUpdate_logic : let s := updating 16
    let t := after (.strokeUpdate 16) s
    strokeNext s = some 16 ∧ s.stk.logicQ = [(511, true, false), (512, true, true)] :: [] ∧ t.stk.logicQ = [] ∧ t.stk.vec.testBit 511 = true ∧
      t.stk.fin = 1 ∧ t.stk.turn = 17 := by decide +kernel

theorem witness_strokeUpdate_link : let s := updating 17
    let t := after (.strokeUpdate 20) s
    strokeNext s = some (17 + (3 : Fin 4).val) ∧ s.stk.dlQ.get 3 = 0x8001 :: [] ∧ t.stk.dlQ.get 3 = [] ∧ t.stk.vec = 0x8001 * 2 ^ 496 ∧
      t.stk.turn = 0 := by decide +kernel

/-- Output 15 asserted, PRE 0, its minimum time over, its feedback low, with a LATCH. -/
def sealed (latch : Nat) : State := (live.setSo 15 { (default : SoState) with start := 999990000000, fbSince := 999999000000 }).setFs
  [(Reg.STK_SO_CFG_EN 15, 1), (Reg.STK_SO_CFG_LATCH 15, latch), (Reg.STK_SO_STAT_ASSERTED 15, 1), (Reg.STK_SO_TMIN_TMIN 15, 10), (Reg.STK_SO_TMIN_CGMAX 15, 10)]

theorem witness_stkTminEnd : (sealed 0).asserted 15 = true ∧ (sealed 0).on (Reg.STK_SO_STAT_PRE 15) = false ∧
    (sealed 0).f (Reg.STK_SO_CFG_LATCH 15) = 0 ∧ tminOver (sealed 0) 15 = true ∧ (after (.stkTminEnd 15) (sealed 0)).asserted 15 = false := by
  decide +kernel

theorem witness_stkCurrentGone : currentGone (sealed 2) 15 = true ∧ cgOver (sealed 2) 15 = true ∧ (sealed 2).f (Reg.STK_SO_CFG_LATCH 15) = 2 ∧
    (sealed 2).asserted 15 = true ∧ (sealed 2).on (Reg.STK_SO_STAT_PRE 15) = false ∧ tminOver (sealed 2) 15 = true ∧
    (after (.stkCurrentGone 15) (sealed 2)).asserted 15 = false ∧ (after (.stkCgTimeout 15) (sealed 2)).asserted 15 = false := by decide +kernel

theorem witness_stkReset : accepts (sealed 1) (.cmd 15 1) Reg.STK_RESET false ∧ (0x8000 : Word).toNat.testBit 15 = true ∧
    (sealed 1).f (Reg.STK_SO_CFG_LATCH 15) = 1 ∧ (after (.stkReset (.cmd 15 1) 0x8000) (sealed 1)).asserted 15 = false :=
  ⟨accepts_p1 _ _ (by decide +kernel), by decide +kernel⟩

theorem witness_driveHalfPeriodEnd : let s := (sealed 0).setSo 15 { (default : SoState) with drive := 2, edge := 999999998000 }
    let t := after (.driveHalfPeriodEnd 15) s
    (s.so 15).drive ≠ 0 ∧ (s.so 15).gap = false ∧ (s.so 15).edge + 2000 ≤ s.ltc ∧ (t.so 15).edge = 1000000000000 ∧ (t.so 15).drive = 1 ∧
      soPin t 15 1 = false ∧ soPin t 15 2 = false := by decide +kernel

theorem witness_driveHalfPeriodEnd_gap : let s := (sealed 0).setSo 15 { (default : SoState) with drive := 2, edge := 999999999980, gap := true }
    let t := after (.driveHalfPeriodEnd 15) s
    (s.so 15).drive ≠ 0 ∧ (s.so 15).gap = true ∧ (s.so 15).edge + 20 ≤ s.ltc ∧ (t.so 15).edge = 999999999980 ∧ soPin t 15 1 = false ∧
      soPin t 15 2 = true ∧ s.asserted 15 = true := by decide +kernel

theorem witness_feedbackLevelCount : live.sysState ≠ 0 ∧ (after (.feedbackLevelCount 15 true) live).on (Reg.STK_SO_STAT_FB 15) = true ∧
    (after (.feedbackLevelCount 15 false) (after (.feedbackLevelCount 15 true) live)).on (Reg.STK_SO_STAT_FB 15) = false ∧
    State.reset.sysState = 0 ∧ (after (.feedbackLevelCount 15 true) State.reset).on (Reg.STK_SO_STAT_FB 15) = false := by decide +kernel

theorem witness_stkFbNorise : let s := (sealed 0).setF (Reg.STK_SO_CFG_FBEN 15) 1
    s.on (Reg.STK_SO_CFG_FBEN 15) = true ∧ s.asserted 15 = true ∧ (s.so 15).rose = false ∧ (s.so 15).start + 200000 ≤ s.ltc ∧
      (after (.stkFbNorise 15) s).rd Reg.STK_FLT = 0x8000 := by decide +kernel

theorem witness_stkFbRest : let s := (live.setSo 15 { (default : SoState) with fbSince := 999999800000, released := 999999600000 }).setFs [(Reg.STK_SO_CFG_FBEN 15, 1),
      (Reg.STK_SO_STAT_FB 15, 1)]
    s.on (Reg.STK_SO_CFG_FBEN 15) = true ∧ s.asserted 15 = false ∧ s.on (Reg.STK_SO_STAT_FB 15) = true ∧ (s.so 15).fbSince + 200000 ≤ s.ltc ∧
      (s.so 15).released + 400000 ≤ s.ltc ∧ (after (.stkFbRest 15) s).rd Reg.STK_FLT = 0x80000000 := by decide +kernel

theorem witness_stkTest : let c := entry 0x22 0 5 [0x00, 0x80, 0xD0, 7]
    let s := asks ((bare 4 1000000000000).setFs [(Reg.STK_SO_CFG_EN 15, 1)]) 0 c
    ready s 1 0x22 c ∧ s.level 1 = 0 ∧ c.arg 0 2 = 0x8000 ∧ c.arg 2 2 = 2000 ∧ c.zero 4 32 = true ∧ s.sysState = 4 ∧
      (∀ k ∈ bitsOf 16 (c.arg 0 2), s.on (Reg.STK_SO_CFG_EN k) = true ∧ (s.so k).pulse = none ∧ soArm s k = true ∧ soSup s k = true) ∧
      ((after (.stkTest 1) s).so 15).pulse = some (s.ltc + 2000000000) := by unfold ready; decide +kernel

theorem witness_testPulseEnd : let s := (sealed 0).setSo 15 { (default : SoState) with pulse := some 1000000000000 }
    (s.so 15).pulse = some 1000000000000 ∧ 1000000000000 ≤ s.ltc ∧ ((after (.testPulseEnd 15) s).so 15).pulse = none := by decide +kernel

/-! ### Quill -/

/-- Task 7 runs in a program with the given code and slots, at address 0; its windows are words 0x3FFFE and 0x3FFFF. -/
def qrunning (r : QRun) (code : List Word) (timers counters edges : List QSlot) : State :=
  let k : QTask := ⟨16, 0, 20, 0, 0x3FFFE, 0x40000, 0, 0, 0, 0, [], [⟨⟨0, 65535⟩, true, 0, 0⟩]⟩
  let p : QProg := ⟨1, 0, 0, true, 0, List.replicate 7 default ++ [k], timers, counters, edges, [], [], code, 4096, true, true⟩
  ((live.setQil { live.qil with bank := live.qil.bank.set 0 (some p) }).setQrun 7 r).setFs [(Reg.QIL_T_STAT_STATE 7, 3)]

/-- Working registers 15, 14 and 13. -/
def regs (d a b : Word) : QRun := { (default : QRun) with w := [(13, b), (14, a), (15, d)], units := 10 }

/-- The running task stands at `op` with the bits `x`; NOP follows, and END at address 3. -/
def at1 (op : Nat) (x : BitVec 26) (r : QRun) : State :=
  qrunning r [BitVec.ofNat 32 (op * 2 ^ 26 + x.toNat), 0, 0, 0xBC000000] [⟨4095, 1, 7, 9, 0, false, false, false⟩, ⟨4094, 2, 7, 9, 0, false, false, false⟩, ⟨4093, 3, 7, 9, 0, false, false, false⟩]
    [⟨2047, 4, 7, 8, 0, false, false, false⟩, ⟨2046, 5, 7, 8, 0, false, false, false⟩] [⟨8191, 7, 7, 6, 0, false, false, false⟩, ⟨8190, 8, 7, 6, 0, false, false, false⟩]

def isInsn (s : State) (op : Nat) (x : BitVec 26) (cost : Nat) : Bool :=
  decide (runner s = some 7) && decide (codeWord s 7 (s.qrun 7).pc = some (BitVec.ofNat 32 (op * 2 ^ 26 + x.toNat))) &&
    decide ((s.qrun 7).units + cost ≤ (s.qtask 7).maxInsn) && decide ((codeWord s 7 ((s.qrun 7).pc + 1)).map opcodeKnown = some true)

theorem atInsn_of {s : State} {op : Nat} {x : BitVec 26} {cost : Nat} (h : isInsn s op x cost = true) : atInsn s 7 op x cost := by
  simp only [isInsn, Bool.and_eq_true, decide_eq_true_eq, Option.map_eq_some_iff] at h
  exact ⟨⟨h.1.1.1, h.1.1.2, h.1.2⟩, h.2⟩

/-- W15, W14 and W13 in format R: 1111 1110 1101 in [25:14]. -/
def xR : BitVec 26 := 0x3FB4000

/-- What W15 holds after an instruction of format R on W14 and W13. -/
def wd (i : BitVec 26 → Instr) (op : Nat) (a b : Word) : Word := ((after (i xR) (at1 op xR (regs 0 a b))).qrun 7).rd 15

theorem witness_integer : okR xR = true ∧ ∀ p ∈ [(0x14, 1), (0x16, 1), (0x17, 4), (0x18, 4), (0x1E, 1), (0x22, 1), (0x25, 4), (0x26, 1), (0x28, 1), (0x29, 1),
    (0x0E, 1), (0x0F, 1)], isInsn (at1 p.1 xR (regs 0 1 2)) p.1 xR p.2 = true := by decide +kernel

theorem witness_format_r : atInsn (at1 0x25 xR (regs 0 1 2)) 7 0x25 xR 4 := atInsn_of (by decide +kernel)

theorem test_integer : [wd .add 0x14 0xFFFFFFFF 2, wd .sub 0x15 1 2, wd .mul 0x16 0x10001 0x10001, wd .divs 0x17 0xFFFFFFF9 2, wd .divs 0x17 7 0,
      wd .divs 0x17 0x80000000 0xFFFFFFFF, wd .rems 0x18 0xFFFFFFF9 2, wd .rems 0x18 7 0, wd .and 0x19 12 10, wd .or 0x1A 12 10, wd .xor 0x1B 12 10] =
    [1, 0xFFFFFFFF, 0x20001, 0xFFFFFFFD, 0, 0x80000000, 0xFFFFFFFF, 7, 8, 14, 6] := by decide +kernel

theorem test_shifts : [wd .shl 0x1C 3 33, wd .shr 0x1D 0x80000001 33, wd .asr 0x1E 0x80000001 33] = [6, 0x40000000, 0xC0000000] := by decide +kernel

theorem test_float : [wd .fadd 0x22 0x3F800000 0x3F800000, wd .fsub 0x23 0x3F800000 0x3F800000, wd .fmul 0x24 0xC0000000 0x40400000,
      wd .fdiv 0x25 0x3F800000 0x40000000, wd .itof 0x26 16777217 0, wd .ftoi 0x27 0x40200000 0, wd .ftoi 0x27 0x4F000000 0, wd .ftoi 0x27 0x7FC00000 0] =
    [0x40000000, 0, 0xC0C00000, 0x3F000000, 0x4B800000, 2, 0x7FFFFFFF, 0] := by decide +kernel

/-- LR after a comparison: COND in [13:11]. -/
def lrOf (i : BitVec 26 → Instr) (op cond : Nat) (a b : Word) : Bool :=
  let x := xR ||| BitVec.ofNat 26 (cond * 2048)
  ((after (i x) (at1 op x { regs 0 a b with lr := true })).qrun 7).lr

theorem test_compare : [lrOf .cmp 0x28 2 0xFFFFFFFF 1, lrOf .cmp 0x28 6 0xFFFFFFFF 1, lrOf .cmp 0x28 5 1 1, lrOf .cmp 0x28 0 1 2,
      lrOf .fcmp 0x29 2 0xBF800000 0, lrOf .fcmp 0x29 0 0x80000000 0, lrOf .fcmp 0x29 1 0x7FC00000 0, lrOf .fcmp 0x29 5 0x7FC00000 0] =
    [true, false, true, false, true, true, true, false] := by decide +kernel

/-- W15 after an instruction with an immediate, from W14. -/
def wi (i : BitVec 26 → Instr) (op imm : Nat) (a : Word) : Word :=
  let x : BitVec 26 := 0x3F80000 ||| BitVec.ofNat 26 imm
  ((after (i x) (at1 op x (regs 0 a 0))).qrun 7).rd 15

theorem test_immediate : [wi .ldi 0x12 0x3FFFF 0, wi .ldi 0x12 0x1FFFF 0, wi .lui 0x13 0x3FFFF 0, wi .addi 0x1F 0x3FFFF 5, wi .andi 0x20 0x3FFFF 0xFFFFFFFF,
      wi .ori 0x21 0x3FFFF 0x80000000] = [0xFFFFFFFF, 0x1FFFF, 0xFFFFC000, 4, 0x3FFFF, 0x8003FFFF] := by decide +kernel

theorem witness_immediate : ∀ op ∈ [0x12, 0x13, 0x1F, 0x20, 0x21], isInsn (at1 op 0x3FBFFFF (regs 0 1 2)) op 0x3FBFFFF 1 = true := by decide +kernel

theorem witness_register_zero : fD 0x3B4000 = 0 ∧ okR 0x3B4000 = true ∧ ∀ p ∈ [(0x12, 1), (0x14, 1), (0x17, 4), (0x22, 1)],
    isInsn (at1 p.1 0x3B4000 (regs 0 1 2)) p.1 0x3B4000 p.2 = true := by decide +kernel

theorem witness_fcmp : fCond 0x3FB6800 = 5 ∧ okR 0x3FB6800 = true ∧ isInsn (at1 0x29 0x3FB6800 (regs 0 1 2)) 0x29 0x3FB6800 1 = true := by decide +kernel

/-- A logic result of 0 over a bit stack of seven bits. -/
def stacked : QRun := { regs 0 0 0 with bits := List.replicate 7 true }

theorem witness_logic : okNone 0 = true ∧ stacked.bits.length < 8 ∧ stacked.bits = true :: List.replicate 6 true ∧
    (∀ op ∈ [0x00, 0x08, 0x09, 0x0A, 0x0B], isInsn (at1 op 0 stacked) op 0 1 = true) ∧
    ((after (.pushl 0) (at1 0x09 0 stacked)).qrun 7).bits = false :: List.replicate 7 true ∧
    ((after (.popa 0) (at1 0x0A 0 stacked)).qrun 7).lr = false ∧ ((after (.popo 0) (at1 0x0B 0 stacked)).qrun 7).lr = true ∧
    ((after (.notl 0) (at1 0x08 0 stacked)).qrun 7).lr = true ∧ ((after (.nop 0) (at1 0x00 0 stacked)).qrun 7).pc = 1 ∧
    ((after (.nop 0) (at1 0x00 0 stacked)).qrun 7).units = stacked.units + 1 := by decide +kernel

/-- LRW puts the logic result into W15; WLR takes it from W14. -/
theorem test_logicResult : ((after (.lrw xR) (at1 0x0E xR { regs 7 0 0 with lr := true })).qrun 7).rd 15 = 1 ∧
    ((after (.wlr xR) (at1 0x0F xR (regs 0 0x80000000 0))).qrun 7).lr = true ∧
    ((after (.wlr xR) (at1 0x0F xR { regs 0 0 1 with lr := true })).qrun 7).lr = false := by decide +kernel

/-- Bit 31 of word 0x3FFFF, negated. -/
def xB : BitVec 26 := 0x2000000 ||| BitVec.ofNat 26 (0x3FFFF * 32 + 31)

theorem witness_bits : okB xB = true ∧ (at1 1 xB stacked).lost (ce 14 0) = false ∧ inWindow (at1 1 xB stacked) 7 (fAddr xB) = true ∧
    (∀ op ∈ [0x01, 0x02, 0x03, 0x04, 0x05, 0x06, 0x07], isInsn (at1 op xB stacked) op xB 1 = true) ∧
    ((after (.ldb ⟨xB, .ok⟩) (at1 1 xB stacked)).qrun 7).lr = true ∧ (after (.stb ⟨xB, ce 14 0xFFFF8⟩) (at1 5 xB stacked)).ldData 0x3FFFF = 0x80000000 ∧
    (after (.setb ⟨xB, .ok⟩) (at1 6 xB stacked)).ldData 0x3FFFF = 0x80000000 ∧
    ((after (.andb ⟨xB, ce 14 0xFFFF8⟩) (at1 2 xB { stacked with lr := true })).qrun 7).lr = true ∧
    ((after (.andb ⟨xB, .ok⟩) (at1 2 xB stacked)).qrun 7).lr = false ∧ ((after (.orb ⟨xB, .ok⟩) (at1 3 xB stacked)).qrun 7).lr = true ∧
    ((after (.xorb ⟨xB, .ok⟩) (at1 4 xB { stacked with lr := true })).qrun 7).lr = false := by decide +kernel

/-- W15 at W14 + 0x3FFFF, with W14 = 0 and 0xFFFFFFFF. -/
theorem witness_words : inWindow (at1 0x10 0x3FBFFFF (regs 5 0 0)) 7 (memAddr (regs 5 0 0) 0x3FBFFFF) = true ∧ memAddr (regs 5 0xFFFFFFFF 0) 0x3FBFFFF = 0x3FFFE ∧
    isInsn (at1 0x10 0x3FBFFFF (regs 5 0 0)) 0x10 0x3FBFFFF 1 = true ∧ isInsn (at1 0x11 0x3FBFFFF (regs 5 0 0)) 0x11 0x3FBFFFF 1 = true ∧
    (after (.stw 0x3FBFFFF .ok) (at1 0x11 0x3FBFFFF (regs 5 0xFFFFFFFF 0))).ldData 0x3FFFE = 5 ∧
    ((after (.ldw 0x3FBFFFF .ok) (at1 0x10 0x3FBFFFF (regs 5 0 0))).qrun 7).rd 15 = 0 := by decide +kernel

theorem witness_faults : let s := at1 0x10 0x3F80000 (regs 5 0x3FFFD 0)
    inWindow s 7 (memAddr (s.qrun 7) 0x3F80000) = false ∧ s.on (Reg.QIL_T_STAT_SW_PEND 7) = false ∧ isInsn s 0x10 0x3F80000 1 = true ∧
      isInsn (at1 0x11 0x3F80000 (regs 5 0 0)) 0x11 0x3F80000 1 = true ∧ okJ 4 = true ∧ codeWord (at1 0x2A 4 stacked) 7 (fImm 4) = none ∧
      isInsn (at1 0x2A 4 stacked) 0x2A 4 1 = true ∧ (after (.jmp 4) (at1 0x2A 4 stacked)).f (Reg.QIL_T_FAULT_CAUSE 7) = 7 ∧
      (after (.ldw 0x3F80000 .ok) s).f (Reg.QIL_T_FAULT_CAUSE 7) = 2 ∧ (after (.ldw 0x3F80000 .ok) s).taskSt 7 = 5 := by decide +kernel

/-- Bit 0 of word 0x3FFFD, before the window. -/
theorem witness_faults_bit : let x : BitVec 26 := BitVec.ofNat 26 (0x3FFFD * 32)
    okB x = true ∧ inWindow (at1 1 x stacked) 7 (fAddr x) = false ∧ isInsn (at1 1 x stacked) 1 x 1 = true ∧ isInsn (at1 5 x stacked) 5 x 1 = true ∧
      (after (.ldb ⟨x, .ok⟩) (at1 1 x stacked)).f (Reg.QIL_T_FAULT_CAUSE 7) = 2 ∧ (after (.stb ⟨x, .ok⟩) (at1 5 x stacked)).taskSt 7 = 5 := by decide +kernel

theorem witness_faults_code : let s := at1 0x10 0x3FBFFFF (regs 5 0 0)
    let u := after (.ldw 0x3FBFFFF (ue 14 0)) s
    s.lost (ue 14 0) = true ∧ inWindow s 7 (memAddr (s.qrun 7) 0x3FBFFFF) = true ∧ (s.qtask 7).retHi = 0 ∧ isInsn s 0x10 0x3FBFFFF 1 = true ∧
      u.taskSt 7 = 1 ∧ u.f (Reg.QIL_T_FAULT_CAUSE 7) = 5 := by decide +kernel

theorem witness_control : let r : QRun := { stacked with calls := [3], lr := true }
    okJ 3 = true ∧ okNone 0 = true ∧ r.calls.length < 16 ∧ r.calls = 3 :: [] ∧ (codeWord (at1 0x2A 3 r) 7 (fImm 3)).map opcodeKnown = some true ∧
      (∀ p ∈ [(0x2A, 1), (0x2B, 1), (0x2C, 1), (0x2D, 2)], isInsn (at1 p.1 3 stacked) p.1 3 p.2 = true) ∧ isInsn (at1 0x2E 0 r) 0x2E 0 2 = true ∧
      ((after (.jmp 3) (at1 0x2A 3 r)).qrun 7).pc = 3 ∧ ((after (.jc 3) (at1 0x2B 3 r)).qrun 7).pc = 3 ∧ ((after (.jnc 3) (at1 0x2C 3 r)).qrun 7).pc = 1 ∧
      ((after (.call 3) (at1 0x2D 3 r)).qrun 7).calls = [1, 3] ∧ ((after (.ret 0) (at1 0x2E 0 r)).qrun 7).pc = 3 := by decide +kernel

theorem witness_endRun : let s := at1 0x2F 0 { stacked with units := 19, calls := [1] }
    okNone 0 = true ∧ runner s = some 7 ∧ codeWord s 7 (s.qrun 7).pc = some (BitVec.ofNat 32 (0x2F * 2 ^ 26 + (0 : BitVec 26).toNat)) ∧
      (s.qrun 7).units + 1 ≤ (s.qtask 7).maxInsn ∧ logicFull s = false ∧ (after (.endRun 0) s).taskSt 7 = 1 := by decide +kernel

/-- Format T: W15, W14, slot. -/
def xT (sel slot : Nat) : BitVec 26 := BitVec.ofNat 26 (0x3F80000 + sel * 65536 + slot)

theorem witness_timers : okT (xT 0 4095) = true ∧ bits (xT 2 4093) 16 2 ≤ 2 ∧
    (∀ p ∈ [(0x30, 4095, 1), (0x31, 4094, 2), (0x32, 4093, 3)], isInsn (at1 p.1 (xT 0 p.2.1) stacked) p.1 (xT 0 p.2.1) 2 = true ∧
      (ownSlot 7 ((at1 p.1 (xT 0 p.2.1) stacked).progOf 7).timers (bits (xT 0 p.2.1) 0 12) [p.2.2]).map (fun d => d.symId) = some 9) ∧
    isInsn (at1 0x33 (xT 2 4093) stacked) 0x33 (xT 2 4093) 2 = true := by decide +kernel

/-- R298: TOF with IN 1 sets Q; TON with IN 1 begins to time. -/
theorem test_timers : let r : QRun := { stacked with lr := true, rel := 5 }
    ((after (.tof (xT 0 4094)) (at1 0x31 (xT 0 4094) r)).qrun 7).lr = true ∧ ((after (.ton (xT 0 4095)) (at1 0x30 (xT 0 4095) { r with w := [(15, 1)] })).qrun 7).lr = false ∧
      ((after (.ton (xT 0 4095)) (at1 0x30 (xT 0 4095) r)).qil.tm.get 9).start = 5 ∧
      ((after (.tp (xT 0 4093)) (at1 0x32 (xT 0 4093) { r with w := [(15, 1)] })).qrun 7).lr = true ∧
      ((after (.tp (xT 0 4093)) (at1 0x32 (xT 0 4093) { r with lr := false, w := [(15, 1)] })).qrun 7).lr = false ∧
      ((after (.tet (xT 0 4095)) (at1 0x33 (xT 0 4095) { r with w := [(14, 7)] })).qrun 7).rd 14 = 0 := by decide +kernel

/-- Format C: W15, slot. -/
def xC (slot : Nat) : BitVec 26 := BitVec.ofNat 26 (0x3C00000 + slot)

theorem witness_counters : okC (xC 2047) = true ∧ (∀ op ∈ [0x34, 0x36, 0x37, 0x38, 0x39, 0x3A], isInsn (at1 op (xC 2047) stacked) op (xC 2047) 2 = true) ∧
    isInsn (at1 0x35 (xC 2046) stacked) 0x35 (xC 2046) 2 = true ∧
    (ownSlot 7 ((at1 0x34 (xC 2047) stacked).progOf 7).counters (bits (xC 2047) 0 11) [4, 6]).map (fun d => d.symId) = some 8 ∧
    (ownSlot 7 ((at1 0x35 (xC 2046) stacked).progOf 7).counters (bits (xC 2046) 0 11) [5, 6]).map (fun d => d.symId) = some 8 := by decide +kernel

theorem test_counters : let r : QRun := { regs 0xFFFFFFFE 0 0 with lr := true }
    let put (s : State) (c : QCt) : State := s.setQil { s.qil with ct := [(8, c)] }
    ((after (.ctu (xC 2047)) (put (at1 0x34 (xC 2047) r) ⟨2147483646, false, false, false, false⟩)).qil.ct.get 8).cv = 2147483647 ∧
      ((after (.ctd (xC 2046)) (put (at1 0x35 (xC 2046) r) ⟨-2147483648, false, false, false, false⟩)).qil.ct.get 8).cv = -2147483648 ∧
      ((after (.cld (xC 2047)) (at1 0x37 (xC 2047) r)).qil.ct.get 8).cv = -2 ∧ ((after (.cqu (xC 2047)) (at1 0x38 (xC 2047) r)).qrun 7).lr = true ∧
      ((after (.crst (xC 2047)) (put (at1 0x36 (xC 2047) r) ⟨5, false, false, false, false⟩)).qil.ct.get 8).cv = 0 ∧
      ((after (.cqd (xC 2047)) (put (at1 0x39 (xC 2047) r) ⟨1, false, false, false, false⟩)).qrun 7).lr = false ∧
      ((after (.ccv (xC 2047)) (put (at1 0x3A (xC 2047) r) ⟨-3, false, false, false, false⟩)).qrun 7).rd 15 = 0xFFFFFFFD := by decide +kernel

theorem witness_edges : okE 8191 = true ∧ isInsn (at1 0x0C 8191 stacked) 0x0C 8191 1 = true ∧ isInsn (at1 0x0D 8190 stacked) 0x0D 8190 1 = true ∧
    (ownSlot 7 ((at1 0x0C 8191 stacked).progOf 7).edges (bits 8191 0 13) [7]).map (fun d => d.symId) = some 6 ∧
    (ownSlot 7 ((at1 0x0D 8190 stacked).progOf 7).edges (bits 8190 0 13) [8]).map (fun d => d.symId) = some 6 ∧
    ((after (.rtrg 8191) (at1 0x0C 8191 { stacked with lr := true })).qrun 7).lr = true ∧
    ((after (.ftrg 8190) (at1 0x0D 8190 { stacked with lr := true })).qrun 7).lr = false := by decide +kernel

/-- EMIT with SEV 5 of W15, code 0x3FF; VTRG of profile 15. -/
theorem witness_events : okV 0x3E800FF = true ∧ bits 0x3E800FF 19 3 = 5 ∧ isInsn (at1 0x3B 0x3E800FF stacked) 0x3B 0x3E800FF 4 = true ∧
    okV 0xF = true ∧ isInsn (at1 0x3C 0xF stacked) 0x3C 0xF 2 = true ∧
    ((after (.emit 0x3E800FF) (at1 0x3B 0x3E800FF { stacked with lr := true, rel := 9 })).scr.offers.map (fun r => (r.code, r.sev, r.inst))) =
      [(0x3FF, 5, 7)] ∧ (after (.emit 0x3E800FF) (at1 0x3B 0x3E800FF stacked)).scr.offers = [] ∧
    ((after (.vtrg 0xF) (at1 0x3C 0xF { stacked with lr := true })).qrun 7).pc = 1 := by decide +kernel

theorem witness_taskRelease : let s := (live.setQrun 7 { (default : QRun) with next := 1000000000000 }).setFs [(Reg.QIL_T_STAT_STATE 7, 1), (Reg.QIL_T_CFG_PERIOD 7, 16)]
    s.running = true ∧ periodNs s 7 ≠ 0 ∧ (s.qrun 7).next ≤ s.ltc ∧ phaseNs s 7 ≤ s.ltc ∧ s.taskSt 7 = 1 ∧ (after (.taskRelease 7) s).taskSt 7 = 2 ∧
      ((after (.taskRelease 7) s).qrun 7).rel = 1000000000000 ∧ ((after (.taskRelease 7) s).qrun 7).next = 1000001000000 := by decide +kernel

theorem witness_taskStart : let s := (at1 0x2F 0 stacked).setTaskSt 7 2
    s.running = true ∧ s.lost .ok = false ∧ s.taskSt 7 = 2 ∧ higherWaits s 7 = false ∧ (∀ k, k < 8 → s.taskSt k ≠ 3 ∧ s.taskSt k ≠ 4) ∧ modePending s 5 7 = none ∧
      s.on (Reg.QIL_T_STAT_SW_PEND 7) = false ∧ logicFull s = false ∧ codeWord s 7 (s.qtask 7).entry = some 0xBC000000 ∧
      opcodeKnown 0xBC000000 = true ∧ (after (.taskStart 7 .ok) s).taskSt 7 = 3 ∧ ((after (.taskStart 7 .ok) s).qrun 7).units = 0 := by decide +kernel

/-- OFFSET 0, LENGTH 4,096. -/
theorem witness_qilLoad : let c := entry 0x30 0 5 [0, 0, 0, 0, 0, 0, 0, 0, 0, 16, 0, 0]
    let s := asks (live.wr Reg.HST_BULKSIZE 4096) 0 c
    ready s 1 0x30 c ∧ s.level 1 = 0 ∧ 4096 ≤ c.arg 8 4 ∧ c.arg 8 4 ≤ 1048576 ∧ c.arg 0 8 + c.arg 8 4 ≤ s.rd Reg.HST_BULKSIZE ∧ c.zero 12 32 = true ∧
      s.qil.sw = none ∧ s.qil.load = none ∧ sealFull s = false ∧ s.lost .ok = false ∧ hashFull s = false ∧ (after (.qilLoad ⟨1, .ok⟩ default) s).qil.load = some ⟨1, c.sqHead, default⟩ := by
  unfold ready; decide +kernel

theorem witness_qilLoadDone : let l : QLoad := ⟨1, 0, { (default : QProg) with sigOk := true, hashOk := true }⟩
    let s := live.setQil { live.qil with load := some l }
    s.qil.load = some l ∧ s.sea.jobs.any (fun j => j.kind = 3) = false ∧ loadFails s l.img = none ∧
      (after .qilLoadDone s).qil.bank.get 1 = some l.img := by decide +kernel

theorem witness_qilSwitch : let c := entry 0x31 0 5 [1]
    let s := asks (live.setFs ([(Reg.QIL_STAT_LOAD_VALID, 1), (Reg.QIL_STAT_PERTASK, 1)] ++ (List.range 8).map (fun k => (Reg.QIL_T_STAT_STATE k, if k < 7 then 5 else 1)))) 0 c
    ready s 1 0x31 c ∧ s.level 1 = 0 ∧ c.arg 0 1 = 1 ∧ c.zero 1 32 = true ∧ s.on Reg.QIL_STAT_PERTASK = true ∧
      (∃ k, k < 8 ∧ s.taskSt k ≠ 0 ∧ s.taskSt k ≠ 5) ∧ s.on Reg.QIL_STAT_LOAD_VALID = true ∧ s.qil.sw = none ∧ s.qil.load = none ∧
      (after (.qilSwitch 1) s).on Reg.QIL_STAT_SW_PEND = true ∧ (after (.qilSwitch 1) s).on (Reg.QIL_T_STAT_SW_PEND 6) = false ∧
      (after (.qilSwitch 1) s).on (Reg.QIL_T_STAT_SW_PEND 7) = true := by unfold ready; decide +kernel

theorem witness_qilSwitchInstant_bank : let s := live.setQil { live.qil with sw := some ⟨1, 0, 0, 999900000001⟩ }
    let e := s.setSess 1 { (default : Session) with cmds := [{ entry 0x31 0 5 [0] with sqHead := 0, started := true, deadline := 1000000000000 }] }
    s.ltc < 999900000001 + 100000000 ∧ switchExpired s ⟨1, 0, 0, 999900000001⟩ = false ∧ switchExpired e ⟨1, 0, 0, 999900000001⟩ = true ∧
      (∀ k, k < 8 → s.taskSt k ≠ 2 ∧ s.taskSt k ≠ 3 ∧ s.taskSt k ≠ 4) ∧ logicFull s = false := by decide +kernel

theorem witness_qilSwitchInstant_late : let s := (live.setQil { live.qil with sw := some ⟨1, 0, 0, 999900000000⟩ }).setF Reg.QIL_STAT_SW_PEND 1
    999900000000 + 100000000 ≤ s.ltc ∧ (after .qilSwitchInstant s).on Reg.QIL_STAT_SW_PEND = false ∧ (after .qilSwitchInstant s).qil.sw = none := by
  decide +kernel

theorem witness_forceSet : let c := entry 0x32 0 5 [255, 255, 0, 0, 1, 0, 0, 0]
    let s := asks (at1 0x2F 0 stacked) 0 c
    ready s 1 0x32 c ∧ s.level 1 = 0 ∧ outOf s (c.arg 0 4) = some ⟨⟨0, 65535⟩, true, 0, 0⟩ ∧ c.arg 4 4 ≤ 1 ∧ c.zero 8 32 = true ∧
      (∃ k, k < 256 ∧ s.qil.force.get k = none) ∧ ((after (.forceSet 1) s).qil.force.get 0).map (fun e => e.val) = some 1 := by
  unfold ready; decide +kernel

theorem witness_forceClear : let c := entry 0x33 0 5 [255, 255, 0, 0]
    let s0 := asks (at1 0x2F 0 stacked) 0 c
    let s := s0.setQil { s0.qil with force := s0.qil.force.set 255 (some ⟨65535, 1, 0⟩) }
    ready s 1 0x33 c ∧ s.level 1 = 0 ∧ c.zero 8 32 = true ∧ c.arg 0 4 ≠ 0xFFFFFFFF ∧ (outOf s (c.arg 0 4)).isSome = true ∧
      forceOf s (c.arg 0 4) = some (255, ⟨65535, 1, 0⟩) ∧ (after (.forceClear 1) s).qil.force.get 255 = none ∧
      (after (.forceClear 1) s).qil.restore = [(65535, 0)] := by unfold ready; decide +kernel

theorem witness_forceClear_all : let c := entry 0x33 0 5 [255, 255, 255, 255]
    let s0 := asks (at1 0x2F 0 stacked) 0 c
    let s := s0.setQil { s0.qil with force := s0.qil.force.set 255 (some ⟨65535, 1, 0⟩) }
    ready s 1 0x33 c ∧ c.arg 0 4 = 0xFFFFFFFF ∧ (after (.forceClear 1) s).qil.force.get 255 = none := by unfold ready; decide +kernel

/-! ### Links and the Script log -/

/-- Link 3 at end 1 with link ID 7, in Ductus mode, its receiver in step, in a state. -/
def linked (st : Nat) (x : DlState) : State := (live.setDl 3 { x with rxSync := true }).setFs [(Reg.DUC_DL_CFG_EN 3, 1), (Reg.DUC_DL_CFG_MODE 3, 1),
  (Reg.DUC_DL_CFG_MAXVER 3, 2), (Reg.DUC_DL_CFG_END 3, 1), (Reg.DUC_DL_CFG_LINKID 3, 7), (Reg.DUC_DL_STAT_STATE 3, st)]

/-- The check values of the two codes (R327): of the digits 1 to 9. -/
theorem test_crc : crc32 [0x31, 0x32, 0x33, 0x34, 0x35, 0x36, 0x37, 0x38, 0x39] = 0xCBF43926 ∧
    crc16 [0x31, 0x32, 0x33, 0x34, 0x35, 0x36, 0x37, 0x38, 0x39] = 0x29B1 := by decide +kernel

/-- A good frame of the other end, version 1, FSEQ 0, command word 0x8001. -/
def aLineFrame : LineFrame :=
  let b := [0x01#8, 0x00, 0x01, 0x80] ++ List.replicate 54 0
  ⟨true, true, b ++ leBytes 2 (crc16 b)⟩

/-- A negotiation frame of the other end, version 1, FSEQ 0. -/
def aNegFrame : LineFrame :=
  let b := [0x11#8, 0x00, 0x07, 0x00, 0x00, 0, 0, 0]
  ⟨true, true, b ++ leBytes 4 (crc32 b)⟩

/-- A tick has come at this instant, and LTC stands on a character boundary. -/
def ticked (s : State) : State := s.setClk { s.rul.clk with tick := 7, gridOff := false, dtc := tickTime 6 }

theorem witness_ductusFrameStart_run : let s := ticked (linked 3 { (default : DlState) with fseqTx := 255, ver := 1 })
    let t := after (.ductusFrameStart 3) s
    dlMode s 3 = 1 ∧ dlHears s 3 = true ∧ commitWaits s (Reg.DUC_DL_CFG 3) 0x100 = false ∧ tickDue s 3 = true ∧ dlSt s 3 = dlRun ∧
      (t.dl 3).sent.length = 60 ∧ (t.dl 3).sent.take 2 = [0x01, 0x00] ∧ (t.dl 3).line.length = 66 ∧ (t.dl 3).line.take 3 = [.k 28 5, .k 27 7, .d 1] ∧ fieldAt (t.dl 3).sent 8 2 = 0x1008 ∧ (t.dl 3).fseqTx = 0 := by decide +kernel

theorem witness_ductusFrameStart_negotiate : let s := ticked (linked 2 { (default : DlState) with fseqTx := 255 })
    dlMode s 3 = 1 ∧ dlHears s 3 = true ∧ commitWaits s (Reg.DUC_DL_CFG 3) 0x100 = false ∧ tickDue s 3 = true ∧ dlSt s 3 = dlNegotiate ∧
      ((after (.ductusFrameStart 3) s).dl 3).sent.take 8 = [0x12, 0, 7, 0, 1, 0, 0, 0] := by decide +kernel

theorem witness_ductusFrameReceived : let s := linked 3 { (default : DlState) with ver := 1 }
    let t := after (.ductusFrameReceived 3 aLineFrame) s
    dlMode s 3 = 1 ∧ dlHears s 3 = true ∧ dlSt s 3 = dlRun ∧ (s.dl 3).buf = [] ∧ dataKind s 3 (s.dl 3).ver aLineFrame = 0 ∧
      frameStalls s 3 (s.linkRx aLineFrame false) = false ∧ (dataOf aLineFrame.bytes).nosvc = false ∧ (dataOf aLineFrame.bytes).test = false ∧
      commitWaits s (Reg.DUC_DL_CFG 3) 0x100 = false ∧ (t.dl 3).raw = 0x8001 ∧ t.f (Reg.DUC_DL_STAT_RXCMD 3) = 0x8001 := by decide +kernel

theorem witness_negotiationFrameReceived : let s := linked 2 { (default : DlState) with offers := [2, 2], offSeq := 255 }
    dlMode s 3 = 1 ∧ dlHears s 3 = true ∧ dlSt s 3 = dlNegotiate ∧ (s.dl 3).buf = [] ∧ commitWaits s (Reg.DUC_DL_CFG 3) 0x100 = false ∧ lineType aNegFrame.bytes = 1 ∧ negKind s 3 aNegFrame = 0 ∧
      (s.dl 3).offers = [2, 2] ∧ fieldAt aNegFrame.bytes 1 1 = ((s.dl 3).offSeq + 1) % 256 ∧
      dlSt (after (.negotiationFrameReceived 3 aNegFrame) s) 3 = dlRun ∧ ((after (.negotiationFrameReceived 3 aNegFrame) s).dl 3).ver = 1 := by
  decide +kernel

theorem witness_ductusRxSyncChange : let s := (linked 1 default).setDl 3 default
    dlMode s 3 = 1 ∧ dlSt s 3 = dlDown ∧ dlSt (after (.ductusRxSyncChange 3 true false) s) 3 = dlNegotiate := by decide +kernel

theorem witness_ducLinkLost : let s := linked 3 { (default : DlState) with superv := true, lastGood := 999998000000 }
    (s.dl 3).superv = true ∧ (s.dl 3).lastGood + dlSuperv s 3 ≤ s.ltc ∧ dlSt s 3 = dlRun ∧ ((after (.ducLinkLost 3) s).dl 3).superv = false ∧
      dlSt (after (.ducLinkLost 3) s) 3 = dlNegotiate := by decide +kernel

theorem witness_messageRetry : let m : LinkMsg := ⟨1, [], 255, some 999999900000, 999999900000, 2, false⟩
    let s := linked 3 { (default : DlState) with outQ := [m] }
    (s.dl 3).outQ = m :: [] ∧ m.first.isSome = true ∧ m.tries < 3 ∧ m.due = false ∧ m.last + 100000 ≤ s.ltc ∧
      ((after (.messageRetry 3) s).dl 3).outQ = [{ m with due := true }] := by decide +kernel

theorem witness_ducMsgLost : let m : LinkMsg := ⟨1, [], 255, some 999998000000, 999998000000, 3, false⟩
    let s := linked 3 { (default : DlState) with outQ := [m], superv := true, lastGood := 999999000000 }
    (s.dl 3).outQ = m :: [] ∧ m.first = some 999998000000 ∧ 999998000000 + 2000000 ≤ s.ltc ∧ s.ltc < (s.dl 3).lastGood + dlSuperv s 3 ∧
      ((after (.ducMsgLost 3) s).dl 3).outQ = [] := by decide +kernel

theorem witness_settingsCheckSend : let m : LinkMsg := ⟨1, [], 1, none, 0, 0, false⟩
    let s := linked 3 { (default : DlState) with ver := 2, checkAt := 999000000000, outQ := List.replicate 15 m }
    dlSt s 3 = dlRun ∧ (s.dl 3).ver = 2 ∧ (s.dl 3).checkAt + 1000000000 ≤ s.ltc ∧ (s.dl 3).outQ.length < 16 ∧
      ((after (.settingsCheckSend 3) s).dl 3).outQ.length = 16 := by decide +kernel

/-- The same link in C37.94 mode. -/
def linked94 (st : Nat) (x : DlState) : State := (linked st x).setF (Reg.DUC_DL_CFG_MODE 3) 2

theorem witness_c3794BlockStart : let s := (linked94 2 { (default : DlState) with fseqTx := 255, blockAt := some 999999750000 }).setF (Reg.DUC_DL_CFG_N 3) 8
    let t := after (.c3794BlockStart 3) s
    dlMode s 3 = 2 ∧ dlHears s 3 = true ∧ dlSt s 3 = dlNegotiate ∧ commitWaits s (Reg.DUC_DL_CFG 3) 0x100 = false ∧
      (s.dl 3).blockAt = some 999999750000 ∧ 999999750000 + blockPeriod s 3 ≤ s.ltc ∧ (t.dl 3).blockAt = some s.ltc ∧ (t.dl 3).yellow = true ∧
      (t.dl 3).sent.length = 16 ∧ (t.dl 3).sent.take 3 = [0xD5, 0, 0] := by decide +kernel

/-- A block with BSEQ 255 and command word 0x8001. -/
def aBlock : CBlock :=
  let b := [0xD5#8, 0xFF, 0x00, 0x01, 0x80, 0, 0, 0, 0]
  ⟨true, true, b ++ leBytes 2 (crc16 b)⟩

theorem witness_c3794BlockReceived : let s := linked94 3 default
    let t := after (.c3794BlockReceived 3 aBlock) s
    dlMode s 3 = 2 ∧ dlHears s 3 = true ∧ dlSt s 3 = dlRun ∧ aBlock.framed = true ∧ (s.dl 3).buf = [] ∧ aBlock.bytes.length ≤ 4096 ∧
      frameStalls s 3 (s.linkRx ⟨aBlock.framed, true, aBlock.bytes⟩ true) = false ∧ fieldAt aBlock.bytes 9 2 = crc16 (aBlock.bytes.take 9) ∧
      fieldAt aBlock.bytes 0 1 = 0xD5 ∧ (fieldAt aBlock.bytes 2 1).testBit 0 = false ∧ (fieldAt aBlock.bytes 2 1).testBit 1 = false ∧
      commitWaits s (Reg.DUC_DL_CFG 3) 0x100 = false ∧ (t.dl 3).raw = 0x8001 ∧ t.on (Reg.DUC_DL_STAT_REM_YELLOW 3) = true := by decide +kernel

/-- A record of 4,096 bytes. -/
def aRec (len sev : Nat) : LogRec := ⟨0, len, 0x123, sev, 0, 0, 0, 0, 0, []⟩

theorem witness_scriptLogOffer : let s := live.setScr { live.scr with offers := [aRec 4096 6], intake := [] }
    s.scr.offers = aRec 4096 6 :: [] ∧ lenOk (aRec 4096 6).len = true ∧ ratePasses s (aRec 4096 6) = true ∧ intakeFits s.scr.intake (aRec 4096 6) = true ∧
      (after (.scriptLogOffer none) s).scr.intake = [aRec 4096 6] := by decide +kernel

theorem witness_scriptLogCommit : let s0 := live.setScr { live.scr with intake := [aRec 32 3], openPage := some 1023, pages := [(1023, { (default : Page) with used := 4064 })] }
    let s := s0.setF Reg.SCR_SEQ_SEQ 0xFFFFFFFF
    s.scr.intake = aRec 32 3 :: [] ∧ s.scr.freeze = none ∧ (aRec 32 3).code ≠ 0x201 ∧ s.scr.openPage = some 1023 ∧
      (s.scr.pages.get 1023).used + (aRec 32 3).len ≤ 4096 ∧ (after .scriptLogCommit s).f Reg.SCR_SEQ_SEQ = 0 ∧
      ((after .scriptLogCommit s).scr.pages.get 1023).used = 4096 := by decide +kernel

theorem witness_scriptLogCommit_freeze : let s := (live.setScr { live.scr with intake := [aRec 4096 3], freeze := some (1, 2) }).setF Reg.SCR_HOLD_BYTES 520192
    s.scr.intake = aRec 4096 3 :: [] ∧ s.scr.freeze.isSome = true ∧ s.f Reg.SCR_HOLD_BYTES + (aRec 4096 3).len ≤ 524288 ∧
      (after .scriptLogCommit s).scr.holding = [aRec 4096 3] := by decide +kernel

theorem witness_suppressed : let e : Supp := ⟨1, 5, 5, 3, 0, 999000000000⟩
    let s := live.setScr { live.scr with supp := [(1023, some e)] }
    s.scr.supp.get 1023 = some e ∧ e.lastAt + 1000000000 ≤ s.ltc ∧ e.n ≠ 0 ∧ (after (.suppressed 1023) s).scr.supp.get 1023 = none ∧
      (after (.suppressed 1023) s).scr.offers.map (fun r => (r.code, r.sev)) = [(0x200, 3)] := by decide +kernel

theorem witness_blot : let c := entry 0x40 0 5 [0xE8, 3]
    let s := asks live 1 c
    ready s 1 0x40 c ∧ s.level 1 ≠ 2 ∧ c.arg 0 2 = 1000 ∧ c.zero 2 32 = true ∧ s.scr.freeze = none ∧
      (after (.blot 1) s).scr.freeze = some (1, s.ltc + 1000000000) := by unfold ready; decide +kernel

theorem witness_unblot : let c := entry 0x41 0 5 []
    let s0 := asks live 0 c
    let s := s0.setScr { s0.scr with freeze := some (15, 1000000000000), holding := [] }
    ready s 1 0x41 c ∧ s.level 1 = 0 ∧ c.zero 0 32 = true ∧ s.scr.freeze = some (15, 1000000000000) ∧ (after (.unblot 1) s).scr.freeze = none ∧
      1000000000000 ≤ s.ltc ∧ (after .blotTimeout s).scr.freeze = none := by unfold ready; decide +kernel

/-- FROM 1 of the log, 4,096 bytes at offset 0. -/
theorem witness_logRead : let c := entry 0x42 0 5 [1, 0, 0, 0, 0, 0, 0, 0, 0, 0, 0, 0, 0, 0, 0, 0, 0, 16]
    let s := asks (live.wr Reg.HST_BULKSIZE 4096) 2 c
    ready s 1 0x42 c ∧ c.arg 4 1 ≤ 1 ∧ 4096 ≤ c.arg 16 4 ∧ inBulk s (c.arg 8 8) (c.arg 16 4) = true ∧ c.zero 5 8 = true ∧ c.zero 20 32 = true ∧ s.lost .ok = false ∧
      (after (.logRead 1 .ok) s).hst.dram = [] ∧ ((after (.logRead 1 .ok) s).sess 1).cmds = [] := by
  unfold ready; decide +kernel

/-! ### Vellum -/

/-- Profile 15 enabled. -/
def profiled : State := (live.setClk { live.rul.clk with dtc := (uPerNs : Int) * 1000000000 }).setFs [(Reg.VEL_PR_CFG_EN 15, 1), (Reg.VEL_PR_CFG_RATE 15, 1)]

theorem witness_velTrig : accepts profiled (.cmd 15 1) Reg.VEL_TRIG false ∧ (0x8000 : Word).toNat.testBit 15 = true ∧
    profiled.on (Reg.VEL_PR_CFG_EN 15) = true ∧ profiled.running = true ∧ profiled.openRec 15 = none ∧ (profiled.prof 15).closedAt = none ∧
    (after (.velTrig (.cmd 15 1) 0x8000) profiled).vel.nextId = profiled.vel.nextId + 1 ∧
    ((after (.velTrig (.cmd 15 1) 0x8000) profiled).openRec 15).map (fun r => (r.id, r.ntrig, r.trigSrc)) = some (1, 1, trigSrc 15 0) := ⟨accepts_p1 _ _ (by decide +kernel), by decide +kernel⟩

theorem witness_vellumRowAssemble : let s := { profiled with vel := { profiled.vel with tabs := [(15, ⟨[⟨7, 0, 0⟩, ⟨8, 0, 0⟩], [4095]⟩)] } }.setFs [(Reg.VEL_PR_CFG_NA 15, 1), (Reg.VEL_PR_CFG_NB 15, 1)]
    s.on (Reg.VEL_PR_CFG_EN 15) = true ∧ s.running = true ∧ nsOfInstant (nextRow s 15) ≤ s.dtcNs ∧
      (∀ c ∈ (velTab s 15).chans, (setOf s c.stream (nextRow s 15)).isSome = true ∨ setMissing s c.stream (nextRow s 15) = true) ∧
      ((after (.vellumRowAssemble 15) s).prof 15).last = some (nextRow s 15) ∧
      ((after (.vellumRowAssemble 15) s).prof 15).ring.map (fun r => (r.instant, r.vals, r.bins.length)) = [(nextRow s 15, [0], 1)] := by decide +kernel

/-- An open record of profile 15. -/
def opened (state : Nat) : VelRec := { (default : VelRec) with id := 9, profile := 15, state := state, endNs := 1000000000, twTo := 1000000000 }

def recording (state : Nat) : State := { profiled with vel := { profiled.vel with recs := [opened state], prof := [(15, { (default : VelProf) with last := some 1152000 })] } }

theorem witness_velClose : let s := recording 0
    s.openRec 15 = some (opened 0) ∧ (s.prof 15).last = some 1152000 ∧ (opened 0).endNs < nsOfInstant (1152000 + velStep s 15) ∧ (opened 0).twTo ≤ s.dtcNs ∧
      burstsOf s (opened 0) = [] ∧ ((after (.velClose 15) s).prof 15).closedAt = some s.ltc ∧
      (after (.velClose 15) s).vel.recs.map (fun r => (r.id, r.state)) = [(9, 1)] := by decide +kernel

/-- A burst issued 20 ms ago. -/
theorem witness_velWriteTimeout : let s0 := recording 0
    let b : VelBurst := ⟨9, 0, 0, some 999980000000⟩
    let s := ({ s0 with vel := { s0.vel with bursts := [b] } } : State).setF Reg.VEL_CFG_WTO 20
    let t := after (.velWriteTimeout 15 3) s
    s.openRec 15 = some (opened 0) ∧ b ∈ burstsOf s (opened 0) ∧ 999980000000 + s.f Reg.VEL_CFG_WTO * 1000000 ≤ s.ltc ∧
      (t.prof 15).closedAt = none ∧ burstsOf t (opened 0) = [] ∧ t.vel.recs.map (fun r => (r.id, r.state, r.flag 3)) = [(9, 1, true)] := by
  decide +kernel

theorem witness_velList : let c := entry 0x43 0 5 [0, 0, 0, 0, 0, 0, 0, 0, 0, 0, 0, 0, 0, 0, 0, 0, 64]
    let s := asks ((recording 1).wr Reg.HST_BULKSIZE 4096) 2 c
    ready s 1 0x43 c ∧ c.arg 16 4 ≠ 0 ∧ c.arg 16 4 % 64 = 0 ∧ inBulk s (c.arg 8 8) (c.arg 16 4) = true ∧ c.zero 4 8 = true ∧ c.zero 20 32 = true ∧
      s.lost .ok = false ∧ (after (.velList ⟨1, .ok⟩) s).hst.dram ≠ [] ∧ ((after (.velList ⟨1, .ok⟩) s).sess 1).cmds = [] := by
  unfold ready; decide +kernel

theorem witness_velLock : let c := entry 0x44 0 5 [9]
    let s := asks (recording 1) 1 c
    ready s 1 0x44 c ∧ s.level 1 ≠ 2 ∧ recById s (c.arg 0 4) = some (opened 1) ∧ c.zero 4 32 = true ∧ (opened 1).flag 0 = false ∧
      lockAllowed s (opened 1) = true ∧ recById (after (.velLock 1) s) 9 = some ((opened 1).setFlag 0 true) := by unfold ready; decide +kernel

theorem witness_velRelease : let c := entry 0x45 0 5 [9]
    let s0 := asks (recording 1) 1 c
    let s := { s0 with vel := { s0.vel with recs := [(opened 1).setFlag 0 true] } }
    ready s 1 0x45 c ∧ s.level 1 ≠ 2 ∧ recById s (c.arg 0 4) = some ((opened 1).setFlag 0 true) ∧ c.zero 4 32 = true ∧
      ((opened 1).setFlag 0 true).flag 0 = true ∧ recById (after (.velRelease 1) s) 9 = some (opened 1) := by unfold ready; decide +kernel

theorem witness_velExport : let c := entry 0x46 0 5 [9, 0, 0, 0, 0, 1, 0, 0, 0, 0, 0, 0, 0, 0, 0, 0, 0, 16]
    let s := asks ((recording 1).wr Reg.HST_BULKSIZE 4096) 2 c
    ready s 1 0x46 c ∧ recById s (c.arg 0 4) = some (opened 1) ∧ c.arg 4 1 = 0 ∧ c.arg 5 1 = 1 ∧ c.arg 6 1 = 0 ∧ c.zero 7 8 = true ∧ c.zero 20 32 = true ∧
      inBulk s (c.arg 8 8) (c.arg 16 4) = true ∧ (opened 1).state ≠ 0 ∧ modePending s 6 0 = none ∧ s.hst.haExport = false ∧ s.vel.exporting = none := by
  unfold ready; decide +kernel

/-- The length of an export is a free value, so the export that then stands in the state is not evaluated. -/
theorem witness_velExport_completes (s : State) : exec (.velExport 1) s = .next (after (.velExport 1) s) := rfl

theorem witness_velExportDone : let x : VelExport := ⟨1, 0, 9, 0, 0, 1, 0, 4096⟩
    let s := { recording 1 with vel := { (recording 1).vel with exporting := some x } }
    s.vel.exporting = some x ∧ recById s x.id = some (opened 1) ∧ s.lost .ok = false ∧
      (after (.velExportDone .ok) s).vel.exporting = none ∧ (recById (after (.velExportDone .ok) s) 9).map (fun r => r.flag 1) = some false := by decide +kernel

/-! ### Field channels -/

/-- Group 3 in a state at 24 V, and its channel 31. -/
def field (st : Nat) (x : FcState) : State := ((live.setGrp 3 ⟨st, 24000, false, false⟩).setFc 31 x)

/-- A configured channel: MODE, and the other fields of its word. -/
def conf (cfg : Nat) : FcState := { (default : FcState) with cfg := cfg, cfgd := true }

theorem witness_diChangeCounted : let s := (field 4 (conf 0xFF01)).setFs [(Reg.FIO_FC_STAT_LINK 31, 1), (Reg.FIO_FC_CFG_MODE 31, 1)]
    fcPowered s 31 = true ∧ (s.fc 31).mode = 1 ∧ s.on (Reg.FIO_FC_STAT_LINK 31) = true ∧ s.f (Reg.FIO_FC_CFG_MODE 31) = 1 ∧ (s.fc 31).live.testBit 6 = false ∧
      ((after (.diChangeCounted 31 true) s).fc 31).seenAt = 999974500000 ∧ (after (.diChangeCounted 31 true) s).on (Reg.FIO_FC_STAT_IN 31) = true := by
  decide +kernel

theorem witness_keepAliveFrame : let s := (field 4 { conf 3 with safe := true }).setF (Reg.FIO_FC_CFG_MODE 31) 3
    s.running = true ∧ fcPowered s 31 = true ∧ commitWaits s (Reg.FIO_FC_CFG 31) 4 = false ∧ commitWaits s (Reg.FIO_G_CFG (grpOf 31)) 4 = false ∧
      ((after (.keepAliveFrame 31) s).fc 31).ka = 1000000000000 ∧ ((after (.keepAliveFrame 31) s).fc 31).safe = false := by decide +kernel

theorem witness_statusFrame : fcPowered (field 4 (conf 3)) 31 = true ∧ (field 4 (conf 3)).sysState ≠ 0 ∧
    (after (.statusFrame 31 2001) (field 4 (conf 3))).f (Reg.FIO_FC_STAT_ILOAD 31) = 2000 ∧
    (after (.statusFrame 31 2001) (field 4 (conf 3))).on (Reg.FIO_FC_STAT_LINK 31) = true := by decide +kernel

theorem witness_fioLinkLost : let s := (field 4 { conf 3 with stat := 999998000000 }).setF (Reg.FIO_FC_STAT_LINK 31) 1
    s.on (Reg.FIO_FC_STAT_LINK 31) = true ∧ (s.fc 31).stat + 2000000 ≤ (s.ltc : Int) ∧ (after (.fioLinkLost 31) s).on (Reg.FIO_FC_STAT_LINK 31) = false := by
  decide +kernel

theorem witness_watchdogExpiry : let s := field 4 { conf 0xFF0003 with ka := 999745000000, cmd := true }
    fcPowered s 31 = true ∧ (s.fc 31).cfgd = true ∧ (s.fc 31).wdExp = false ∧ (s.fc 31).ka + (((s.fc 31).wdt * 1000000 : Nat) : Int) ≤ (s.ltc : Int) ∧
      (s.fc 31).safe = false ∧ (s.fc 31).safeCode = 0 ∧ ((after (.watchdogExpiry 31) s).fc 31).safe = true ∧
      ((after (.watchdogExpiry 31) s).fc 31).safeVal = false ∧
      ∀ code ∈ [1, 2], let u := field 4 { conf (0xFF0003 + code * 8) with ka := 999745000000, cmd := true }
        (u.fc 31).safeCode = code ∧ fcOn u 31 = true ∧ ((after (.watchdogExpiry 31) u).fc 31).safeVal = true := by decide +kernel

theorem witness_wireBreak : let s := field 1 (conf 2)
    (s.fc 31).mode = 2 ∧ fcPowered s 31 = true ∧ ((after (.fioWireBreak 31) s).fc 31).live.testBit 6 = true ∧
      ((after (.wireBreakClear 31) (after (.fioWireBreak 31) s)).fc 31).live.testBit 6 = false := by decide +kernel

theorem witness_outputDiagnostics : let on := field 4 { conf 3 with cmd := true }
    let off := field 3 (conf 0x43)
    (on.fc 31).isDo = true ∧ fcPowered on 31 = true ∧ fcOn on 31 = true ∧ ((after (.fioOpenWire 31) on).fc 31).live.testBit 2 = true ∧
      (off.fc 31).owoff = true ∧ fcOn off 31 = false ∧ ((after (.fioOpenWire 31) off).fc 31).live.testBit 3 = true ∧
      ((after (.fioShortLplus 31) off).fc 31).live.testBit 4 = true := by decide +kernel

theorem witness_fioPairImbal : let s0 := (field 4 { conf 4 with cmd := true }).setFc 30 { conf 4 with cmd := true }
    let s1 : State := { s0 with hst := { s0.hst with haField := true } }
    (s0.fc 31).mode = 4 ∧ (∀ m ∈ fcMates s0 31, fcOn s0 m = true) ∧ modePending s0 8 0 = none ∧ ((after (.fioPairImbal 31) s0).fc 31).latched = true ∧
      (s1.fc 31).mode = 4 ∧ (∀ m ∈ fcMates s1 31, fcOn s1 m = true) ∧ modePending s1 8 0 = none ∧
      ((after (.fioPairImbal 31) s1).fc 31).live.testBit 5 = true := by decide +kernel

theorem witness_diagnosticClear : let s := field 4 { conf 3 with live := 0x3C }
    (s.fc 31).live.testBit 2 = true ∧ (s.fc 31).live.testBit 5 = true ∧ ((after (.diagnosticClear 31 2) s).fc 31).live.testBit 2 = false ∧
      ((after (.diagnosticClear 31 5) s).fc 31).live.testBit 5 = false := by decide +kernel

theorem witness_trips : let s := field 4 { conf 3 with cmd := true }
    fcOn s 31 = true ∧ fcOn (after (.fioOverload 31) s) 31 = false ∧ ((after (.fioOverload 31) s).fc 31).live.testBit 0 = true ∧
      (s.fc 31).isDo = true ∧ (s.grp (grpOf 31)).state ≠ gLockout ∧ ((after (.fioOvertemp 31) s).fc 31).trip = true ∧
      ((after (.fioOvertemp 31) s).fc 31).live.testBit 1 = true ∧
      ((after (.overtempClear 31) (after (.fioOvertemp 31) s)).fc 31).live.testBit 1 = false ∧ modePending (after (.fioOvertemp 31) s) 8 0 = none ∧
      fcRetries (after (.fioOvertemp 31) s) 31 = true ∧ ((after (.overtempClear 31) (after (.fioOvertemp 31) s)).fc 31).trip = false := by decide +kernel

/-- The channels of a pair: neither comes back while the other one's time has not run. -/
theorem witness_overloadRetry_pair : let x : FcState := { conf 4 with trip := true, live := 1, tripAt := 999900000000 }
    let s := (field 4 x).setFc 30 x
    let u := s.setFc 30 { x with tripAt := 999900000001 }
    fcRetries s 31 = true ∧ fcMates s 31 = [30, 31] ∧ (∀ m ∈ fcMates s 31, (s.fc m).live.testBit 1 = false ∧ (s.fc m).tripAt + 100000000 ≤ (s.ltc : Int)) ∧
      ((after (.overloadRetry 31) s).fc 30).trip = false ∧ ((after (.overloadRetry 31) s).fc 31).trip = false ∧
      ((after (.overloadRetry 31) u).fc 31).trip = true := by decide +kernel

theorem witness_overloadRetry : let s := field 4 { conf 3 with trip := true, live := 1, tripAt := 999900000000 }
    fcRetries s 31 = true ∧ (s.fc 31).live.testBit 0 = true ∧ (s.fc 31).live.testBit 1 = false ∧ (s.fc 31).tripAt + 100000000 ≤ (s.ltc : Int) ∧
      ((after (.overloadRetry 31) s).fc 31).trip = false := by decide +kernel

theorem witness_retry : let s := field 4 { conf 0x23 with latched := true }
    accepts s (.cmd 15 1) (Reg.FIO_FC_CTRL 31) false ∧ (s.fc 31).olLatch = true ∧ (s.fc 31).latched = true ∧
      ((after (.retry (.cmd 15 1) 31) s).fc 31).latched = false := ⟨accepts_p1 _ _ (by decide +kernel), by decide +kernel⟩

theorem witness_inhibit : let s0 := field 4 { conf 3 with cmd := true }
    let s : State := { s0 with hst := { s0.hst with haField := true } }
    accepts s (.cmd 15 0) (Reg.FIO_FC_CTRL 31) true ∧ s.hst.haField = true ∧ grpExists s (grpOf 31) = true ∧
    fcOn (after (.inhibit (.cmd 15 0) 31 true) s) 31 = false ∧ (after (.inhibit (.cmd 15 0) 31 true) s).on (Reg.FIO_FC_STAT_INHIBIT 31) = true ∧
    grpExists (s.setF Reg.SYS_ID_VARIANT 1) (grpOf 31) = false ∧
    (after (.inhibit (.cmd 15 0) 31 true) (s.setF Reg.SYS_ID_VARIANT 1)).on (Reg.FIO_FC_STAT_INHIBIT 31) = false := ⟨accepts_p0 _ _ _ (by decide +kernel), by decide +kernel⟩

theorem witness_supply : let at' := fun st => field st default
    grpExists (at' 4) 3 = true ∧ (at' 4).grp 3 = ⟨gNormal, 24000, false, false⟩ ∧ ((after (.fioGrpWarn 3 17999) (at' 4)).grp 3).state = gWarning ∧
      (at' 3).grp 3 = ⟨gWarning, 24000, false, false⟩ ∧
      (at' 2).grp 3 = ⟨gBlocked, 24000, false, false⟩ ∧
      (at' 1).grp 3 = ⟨gLockout, 24000, false, false⟩ ∧
      (at' 0).grp 3 = ⟨gNosupply, 24000, false, false⟩ ∧ ((after (.groupSupplyReturn 3 9000) (at' 0)).grp 3).state = gLockout ∧
      ((after (.fioGrpNormal 3 18500) (at' 3)).grp 3).state = gNormal ∧ ((after (.fioGrpLockout 3 13999) (at' 2)).grp 3).state = gLockout ∧
      ((after (.fioGrpRecover 3 17001) (at' 1)).grp 3).state = grpStands 17001 ∧ (after (.fioGrpNosupply 3 8999) (at' 1)).f (Reg.FIO_G_STAT_STATE 3) = gNosupply := by
  decide +kernel

theorem witness_ack : accepts (field 2 default) (.cmd 15 0) (Reg.FIO_G_ACK 3) true ∧ ((field 2 default).grp 3).state = gBlocked ∧
    ((after (.ack (.cmd 15 0) 3) (field 2 default)).grp 3).state = gNormal := ⟨accepts_p0 _ _ _ (by decide +kernel), by decide +kernel⟩

/-! ### Starts, modes and settings -/

theorem witness_resetTriggers : State.reset.sysState = 0 ∧ State.reset.sys.resetN = false ∧ State.reset.sys.v3p3Low = false ∧
    (after .resetNRelease State.reset).sys.resetN = true ∧ (after .resetNRelease State.reset).sysState = 1 ∧
    (after .resetNAssert live).sysState = 0 ∧ (after .resetNAssert live).sys.resetN = false ∧ (after .v3p3Loss live).sys.v3p3Low = true := by
  decide +kernel

theorem witness_powerOn : let s : State := { State.reset with sys := { State.reset.sys with v3p3Low := true, resetN := true } }
    s.sys.v3p3Low = true ∧ s.sys.resetN = true ∧ (after .powerOn s).sys.v3p3Low = false ∧ (after .powerOn s).sysState = 1 := by decide +kernel

theorem witness_startTriggers : let s2 := live.setF Reg.SYS_START_WFAIL 2
    let s3 := live.setF Reg.SYS_START_WFAIL 3
    let s : State := { live with sys := { live.sys with attempt := 2, svcAt := some (940000000000, true) } }
    s2.running = true ∧ s2.f Reg.SYS_START_WFAIL < 3 ∧ (after .supervisorWatchdogExpiry s2).sysState = 2 ∧
      s3.running = true ∧ s3.f Reg.SYS_START_WFAIL < 4 ∧ (after .brownOut s3).sysState = 2 ∧ (after .brownOut s3).f Reg.SYS_START_TYPE = 7 ∧
      s.running = true ∧ s.sys.attempt < 3 ∧ (after .fatalFault s).sysState = 1 ∧ (after .fatalFault s).f Reg.SYS_START_TYPE = 2 ∧
      s.sys.svcAt = some (940000000000, true) ∧ 940000000000 + 60000000000 ≤ s.ltc ∧ (after .wfailClear s).f Reg.SYS_START_WFAIL = 0 := by decide +kernel

theorem witness_startWarm : let c := entry 0x13 0 5 []
    let s := asks live 0 c
    ready s 1 0x13 c ∧ s.level 1 = 0 ∧ c.arg 0 1 = 0 ∧ c.zero 1 8 = true ∧ s.running = true ∧ s.sys.startDue = none ∧
      (after (.startWarm 1) s).sys.startDue = some (1000001000000, false, false) := by unfold ready; decide +kernel

theorem witness_startCold : let c := entry 0x14 0 5 [1]
    let s := asks live 0 c
    ready s 1 0x14 c ∧ s.level 1 = 0 ∧ c.arg 0 1 = 1 ∧ c.zero 1 8 = true ∧ s.sys.startDue = none ∧
      (after (.startCold 1) s).sys.startDue = some (1000001000000, true, true) := by unfold ready; decide +kernel

/-- The last entry of every converter is its first. -/
def lastRegs : List (Nat × Word) := (List.range 16).map (fun n => (Reg.AFE_CV_ACT n 0 0, 0x1000000))

/-- The bytes of an image other than 0: header, segment table, VMAGIC. Segments 1 to 8 hold a word each, segment 9 sixteen absent
credentials, segment 10 a vendor firmware with an empty body. -/
def goodBytes : List (Nat × Byte) :=
  [(0, 0x53), (1, 0x50), (2, 0x54), (3, 0x46), (4, 3), (9, 0x7C), (12, 10)] ++
    (List.range 8).flatMap (fun k => [(64 + 48 * k, BitVec.ofNat 8 (k + 1)), (69 + 48 * k, BitVec.ofNat 8 (18 + k)), (72 + 48 * k, 4)]) ++
    [(448, 9), (453, 0x1A), (457, 0x53), (496, 10), (501, 0x6D), (505, 0x0F), (27904, 0x53), (27905, 0x50), (27906, 0x54), (27907, 0x56)]

/-- An image that the checks pass, with what the hash engine and FIPS 204 find of it: both keys, the segments and the header hash to 0,
and both signatures verify. -/
def goodImage : FolioImage :=
  let z (n : Nat) : Str := ⟨n, []⟩
  let vend (n : Nat) : Str := bytesAt goodBytes 27904 n
  ⟨goodBytes, [(z 4, 0), (z 21248, 0), (vend 3840, 0), (z 1312, 0), (bytesAt goodBytes 0 4276, 9)],
    [⟨z 2420, z 1312, bytesAt goodBytes 0 1856, noContext⟩, ⟨z 2420, z 1312, vend 1328, noContext⟩], { (default : FolioContent) with regs := lastRegs }⟩

theorem goodImage_checks : headCause 0 goodImage = 0 ∧ folioKeyIdx goodImage = 0 ∧ folioHash goodImage (folioOwnerPk goodImage) = 0 ∧
    ownerSigned goodImage = true ∧ vendorKey goodImage = 0 ∧ folioHash goodImage (vendorPkOf goodImage) = 0 ∧ vendorLayoutOk goodImage = true ∧
    vendorSigned goodImage = true ∧ credsInRange goodImage = true ∧ tablesInRange goodImage.content = true ∧ folioHead goodImage = 9 := by decide +kernel

def facts (read units : Bool) : ColdFacts := ⟨true, true, true, [], 0, 40, true, 0, 30, ⟨read, [], []⟩, true, units⟩

/-- COLD_START with owner slot 0 written and the image in bank A. -/
def starting (attempt : Nat) : State :=
  let s := (atState 1 0).setFs [(Reg.SEA_STAT_OWN_WR, 1), (Reg.SYS_START_BANK, 1)]
  { s with sys := { s.sys with attempt := attempt, nor := [(0, some goodImage)] } }

theorem loadCause_unread (s : State) (f : LoadFacts) (bank : Nat) (skip : FolioImage → Bool) (hf : f.readOk = false) : loadCause s f bank skip = .error 1 := by
  unfold loadCause
  rw [hf]
  split <;> first | rfl | contradiction

theorem witness_coldStart_fails : let f := facts false true
    let s := { starting 3 with sys := { (starting 3).sys with bFirst := true } }
    s.sysState = 1 ∧ s.sys.brown = false ∧ f.fuseOk = true ∧ f.mapOk = true ∧ f.bistOk = true ∧ f.trainOk = true ∧
      loadCause (coldTrained (coldTested (coldFused (coldReset s)) f) f) f.load (attemptBank s) (fun _ => false) = .error 1 ∧ 3 ≤ s.sys.attempt :=
  ⟨by decide +kernel, by decide +kernel, rfl, rfl, rfl, rfl, loadCause_unread _ _ _ _ rfl, by decide +kernel⟩

/-- An erased bank and one that cannot be read; the next attempt follows. -/
theorem witness_coldStart_next : let s := starting 1
    attemptBank s = 0 ∧ attemptBank (starting 2) = 1 ∧ (after (.coldStart (facts false true)) s).sysState = 1 ∧ (after (.coldStart (facts false true)) s).f Reg.SYS_START_CAUSE = 1 ∧
      (after (.coldStart (facts true true)) { s with sys := { s.sys with nor := [] } }).sys.attempt = 2 := by decide +kernel

theorem witness_coldStart_step : (starting 0).sysState = 1 ∧ { facts true true with bistOk := false }.bistOk = false ∧
    (after (.coldStart { facts true true with bistOk := false }) (starting 0)).sysState = 6 := by decide +kernel

/-- After a brown-out: VCORE within its limits for 1 ms, and for 1 ns less. -/
theorem witness_coldStart_brown : let at' := fun (u : Int) => let s := starting 0
      ({ s with rul := { s.rul with clk := { s.rul.clk with ltc := 1000000 } }, sys := { s.sys with brown := true }, pkg := { s.pkg with vcoreAt := some u } } : State)
    (at' 0).sysState = 1 ∧ (at' 0).sys.brown = true ∧ (0 : Int) + 1000000 ≤ ((at' 0).ltc : Int) ∧ ((at' 1).ltc : Int) < 1 + 1000000 ∧
      (after (.coldStart { facts true true with bistOk := false }) (at' 0)).sysState = 6 ∧
      (after (.coldStart { facts true true with bistOk := false }) (at' 1)).sysState = 1 := by decide +kernel

theorem drop_absent {α : Type} (t : Tab α) (a : Nat) (h : t.all (fun p => decide (p.1 ≠ a)) = true) : Tab.drop t a = t := by
  induction t with
  | nil => rfl
  | cons p t ih => simp only [List.all_cons, Bool.and_eq_true, decide_eq_true_eq] at h; rw [Tab.drop, if_neg h.1, ih h.2]

theorem look_absent {α : Type} (d : α) (t : Tab α) (a : Nat) (h : t.all (fun p => decide (p.1 ≠ a)) = true) : Tab.look d t a = d := by
  induction t with
  | nil => rfl
  | cons p t ih => simp only [List.all_cons, Bool.and_eq_true, decide_eq_true_eq] at h; rw [Tab.look, if_neg h.1, ih h.2]

theorem setB_absent (s : State) (x : Fld) (h : s.regs.all (fun p => decide (p.1 ≠ x.addr)) = true) : s.setB x false = s := by
  have h0 : s.word x.addr = 0 := look_absent _ _ _ h
  have h1 : insertField (0 : Word) x.lo x.width 0 = 0 := by simp [insertField]
  have h2 : s.regs.set x.addr (0 : Word) = s.regs := (if_pos rfl).trans (drop_absent _ _ h)
  show ({ s with regs := s.regs.set x.addr (insertField (s.word x.addr) x.lo x.width 0) } : State) = s
  rw [h0, h1, h2]

/-- Every function starts on the module where the Folio names none. -/
theorem ha_absent (fn : Nat) (g : Nat → Fld) (s : State) (hs : s.sys.funcHa = []) : ∀ l : List Nat,
    l.all (fun n => s.regs.all (fun p => decide (p.1 ≠ (g n).addr))) = true → l.foldl (fun t n => t.setB (g n) (startsHa t fn n)) s = s
  | [], _ => rfl
  | n :: l, h => by
    simp only [List.all_cons, Bool.and_eq_true] at h
    have e : startsHa s fn n = false := by simp [startsHa, hs]
    rw [List.foldl_cons, e, setB_absent s (g n) h.1]
    exact ha_absent fn g s hs l h.2

/-- The state with the empty content, no function host-assisted. -/
def emptied (s : State) : State :=
  let s1 : State := { s with nib := { s.nib with live := [], ctxHa := [] }, pbi := { s.pbi with svIds := [], gsDecls := [], gbits := [], pairMac := [], expect := [] } }
  let s2 : State := { s1 with vel := { s.vel with tabs := [] }, duc := { s.duc with hash := [], fed := [], gpDecls := [], spDecls := [] }, qil := { s.qil with mapHash := 0 } }
  let s3 : State := { s2 with sys := { s.sys with funcHa := [] } }
  { s3 with hst := { s3.hst with haExport := false, haAttest := false, haField := false } }

/-- No word of PBI and of RUL_DOM stands in the register file. -/
def noHa (s : State) : Bool := s.regs.all (fun p => decide (p.1 / 0x10000 ≠ 4) && (decide (p.1 / 0x10000 ≠ 1) || decide (p.1 < 0x10040)))

theorem noHa_pbi {s : State} (h : noHa s = true) (g : Nat → Fld) (l : List Nat)
    (hg : l.all (fun n => decide ((g n).addr / 0x10000 = 4) || (decide ((g n).addr / 0x10000 = 1) && decide (0x10040 ≤ (g n).addr))) = true) :
    l.all (fun n => s.regs.all (fun p => decide (p.1 ≠ (g n).addr))) = true := by
  simp only [noHa, List.all_eq_true, Bool.and_eq_true, Bool.or_eq_true, decide_eq_true_eq] at h hg ⊢
  intro n hn p hp e
  have h1 := h p hp
  have h2 := hg n hn
  rw [e] at h1
  omega

theorem load_empty (s0 : State) (h : noHa (loadRegs s0 lastRegs) = true) :
    loadContent false s0 { (default : FolioContent) with regs := lastRegs } = emptied (loadRegs s0 lastRegs) := by
  have hl : lastRegs.filter (fun p => !(false && (p.1 / 0x10000 = 1 || p.1 / 0x10000 = 2))) = lastRegs := by simp
  generalize hs : loadRegs s0 lastRegs = s at h
  have e : ∀ s2 : State, s2.sys.funcHa = [] → s2.regs = s.regs →
      (List.range 2).foldl (fun t d => t.setB (Reg.RUL_DOM_CFG_HA d) (startsHa t 3 d)) ((List.range 64).foldl (fun t n => t.setB (Reg.PBI_GS_CFG_HA n) (startsHa t 2 n))
        ((List.range 192).foldl (fun t n => t.setB (Reg.PBI_SC_CFG_HA n) (startsHa t 1 n)) s2)) = s2 := by
    intro s2 hf hr
    rw [ha_absent 1 _ s2 hf _ (by rw [hr]; exact noHa_pbi h _ _ (by decide +kernel)), ha_absent 2 _ s2 hf _ (by rw [hr]; exact noHa_pbi h _ _ (by decide +kernel)), ha_absent 3 _ s2 hf _ (by rw [hr]; exact noHa_pbi h _ _ (by decide +kernel))]
  let s1 : State := { s with nib := { s.nib with live := [], ctxHa := [] }, pbi := { s.pbi with svIds := [], gsDecls := [], gbits := [], pairMac := [], expect := [] } }
  let s2 : State := { s1 with vel := { s.vel with tabs := [] }, duc := { s.duc with hash := [], fed := [], gpDecls := [], spDecls := [] }, qil := { s.qil with mapHash := 0 } }
  let s3 : State := { s2 with sys := { s.sys with funcHa := [] } }
  have e2 := e s3 rfl rfl
  unfold loadContent
  simp only [hl, hs]
  exact congrArg (fun s5 : State => ({ s5 with hst := { s5.hst with haExport := startsHa s5 6 0, haAttest := startsHa s5 7 0, haField := startsHa s5 8 0 } } : State)) e2

/-- The state in which the checks of the empty content look at a state's configuration. -/
def checked (s : State) : State := emptied (loadRegs (unitsReset false s) lastRegs)

def named : Nat → Nat → Bool := contentNames { (default : FolioContent) with regs := lastRegs }

/-- The checks look at the registers and at the configuration of four blocks alone. -/
theorem failed_parts (s t : State) (m : Nat → Nat → Bool) (h : s.regs = t.regs) (h1 : s.nib = t.nib) (h2 : s.pbi = t.pbi) (h3 : s.vel = t.vel)
    (h4 : s.duc = t.duc) : failedCheck s m = failedCheck t m := by
  cases s
  cases t
  subst h h1 h2 h3 h4
  rfl

theorem contentFails_good (s : State) (h1 : noHa (loadRegs (unitsReset false s) lastRegs) = true) (h2 : (failedCheck (checked s) named).isNone = true) :
    contentFails s goodImage = false := by
  obtain ⟨-, -, -, -, -, -, -, -, a9, a10, -⟩ := goodImage_checks
  unfold contentFails
  rw [a9, a10, show goodImage.content = { (default : FolioContent) with regs := lastRegs } from rfl, load_empty _ h1]
  simpa [checked, named] using h2

theorem imageCause_good (s : State) (f : LoadFacts) (skip : Bool) (hf : f.ownerUe = [] ∧ f.vendorUe = []) (h3 : s.f Reg.SYS_ID_VARIANT = 0)
    (h4 : skip = true ∨ (slotWritten s 0 = true ∧ slotHash s 0 = 0 ∧ (s.f Reg.SEA_STAT_VREV).testBit 0 = false ∧ s.sys.anchors.get 0 = 0))
    (hc : contentFails s goodImage = false) : imageCause s f goodImage skip = 0 := by
  obtain ⟨a1, a2, a3, a4, a5, a6, a7, a8, -, -, -⟩ := goodImage_checks
  unfold imageCause ownerSlotFails vendorFails
  rw [h3, a1, a2, a3, a4, a5, a6, a7, a8, hc, hf.1, hf.2]
  rcases h4 with rfl | ⟨b1, b2, b3, b4⟩
  · rfl
  · simp [b1, b2, b3, b4]

theorem loadCause_good (s : State) (f : LoadFacts) (bank : Nat) (skip : FolioImage → Bool) (hn : s.sys.nor.get bank = some goodImage) (hr : f.readOk = true)
    (h : imageCause s f goodImage (skip goodImage) = 0) : loadCause s f bank skip = .ok goodImage := by
  unfold loadCause
  rw [hn, hr]
  simp [h]

/-- Objects that the checks look at: those enabled, and those that must be. -/
def pick (must : Nat → Nat → Bool) (count : Nat) (en : Nat → Bool) (lo : Nat → Nat) (n : Nat) : List Nat := (List.range count).filter (fun k => en k || must (lo k) n)

def scsOf (s : State) : List Nat := (List.range 192).filter (fun n => s.on (Reg.PBI_SC_CFG_EN n))

/-- The checks one by one. -/
def partOk (s : State) (must : Nat → Nat → Bool) (k : Nat) : Bool :=
  match k with
  | 0 => (List.range 16).all (fun e => engineOk (engineClasses s e))
  | 1 => (List.range s.converters).all (fun n => seqFits s n (actTable s n))
  | 2 => decide (decodeLoad s (scsOf s) ≤ 840 * 4000000)
  | 3 => (List.range (contexts s)).all (fun c => (ncType s c = 0 && !must (16777216 + 128 * c) 128) || contextOk s c)
  | 4 => (List.range 4).all (fun n => decide (twlocCount s n ≤ 8))
  | 5 => (pick must 16 (fun p => s.on (Reg.VEL_PR_CFG_EN p)) Reg.VEL_PR_CFG 0x80).all (velLimits s)
  | 6 => velTogether s
  | 7 => (pick must 32 (fun n => s.rd (Reg.FIO_FC_CFG n) ≠ 0) Reg.FIO_FC_CFG 4).all (fcLimits s)
  | 8 => (pick must 16 (fun n => s.on (Reg.STK_SO_CFG_EN n)) Reg.STK_SO_CFG 0x80).all (soLimits s)
  | 9 => masksOk s
  | 10 => (pick must 4 (fun n => s.on (Reg.DUC_DL_CFG_EN n)) Reg.DUC_DL_CFG 0x100).all (dlLimits s)
  | 11 => (List.range 24).all (pbLimits s)
  | 12 => (pick must 192 (fun n => s.on (Reg.PBI_SC_CFG_EN n)) Reg.PBI_SC_CFG 0x40).all (scLimits s)
  | 13 => decide (((scsOf s).map (scTriple s)).Nodup)
  | 14 => (pick must 64 (fun n => s.on (Reg.PBI_GS_CFG_EN n)) Reg.PBI_GS_CFG 0x40).all (gsLimits s)
  | 15 => (pick must 32 (fun g => s.on (Reg.STN_GP_CFG_EN g)) Reg.STN_GP_CFG 0x20).all (gpLimits s)
  | 16 => mapValid (feeds s)
  | 17 => subscribedOk s
  | 18 => publishedOk s
  | 19 => sourcesOk s
  | _ => true

/-- Nothing fails where each check holds; the kernel takes them in five parts. -/
theorem failed_isNone (s : State) (must : Nat → Nat → Bool) (ha : (List.range' 0 2).all (partOk s must) = true) (hb : (List.range' 2 10).all (partOk s must) = true)
    (hc : (List.range' 12 2).all (partOk s must) = true) (hd : (List.range' 14 5).all (partOk s must) = true) (he : (List.range' 19 1).all (partOk s must) = true) :
    (failedCheck s must).isNone = true := by
  have h : ∀ k < 20, partOk s must k = true := by
    intro k hk
    rw [List.all_eq_true] at ha hb hc hd he
    rcases (by omega : k < 2 ∨ (2 ≤ k ∧ k < 12) ∨ (12 ≤ k ∧ k < 14) ∨ (14 ≤ k ∧ k < 19) ∨ k = 19) with g | g | g | g | g
    · exact ha k (by simp; omega)
    · exact hb k (by simp; omega)
    · exact hc k (by simp; omega)
    · exact hd k (by simp; omega)
    · exact he k (by simp; omega)
  have h0 := h 0 (by decide)
  have h1 := h 1 (by decide)
  have h2 := h 2 (by decide)
  have h3 := h 3 (by decide)
  have h4 := h 4 (by decide)
  have h5 := h 5 (by decide)
  have h6 := h 6 (by decide)
  have h7 := h 7 (by decide)
  have h8 := h 8 (by decide)
  have h9 := h 9 (by decide)
  have h10 := h 10 (by decide)
  have h11 := h 11 (by decide)
  have h12 := h 12 (by decide)
  have h13 := h 13 (by decide)
  have h14 := h 14 (by decide)
  have h15 := h 15 (by decide)
  have h16 := h 16 (by decide)
  have h17 := h 17 (by decide)
  have h18 := h 18 (by decide)
  have h19 := h 19 (by decide)
  simp only [partOk, pick, scsOf] at h0 h1 h2 h3 h4 h5 h6 h7 h8 h9 h10 h11 h12 h13 h14 h15 h16 h17 h18 h19
  replace h2 := of_decide_eq_true h2
  replace h13 := of_decide_eq_true h13
  unfold failedCheck
  simp only [h0, h1, h3, h4, h5, h6, h7, h8, h9, h10, h11, h12, h14, h15, h16, h17, h18, h19]
  simp [h2, h13]

/-- The state in which the first attempt loads bank A. -/
def loading : State :=
  let f := facts true true
  coldTrained (coldTested (coldFused (coldReset (starting 0))) f) f

theorem loading_a : (List.range' 0 2).all (partOk (checked loading) named) = true := by decide +kernel

theorem loading_b : (List.range' 2 10).all (partOk (checked loading) named) = true := by decide +kernel

theorem loading_c : (List.range' 12 2).all (partOk (checked loading) named) = true := by decide +kernel

theorem loading_d : (List.range' 14 5).all (partOk (checked loading) named) = true := by decide +kernel

theorem loading_e : (List.range' 19 1).all (partOk (checked loading) named) = true := by decide +kernel

theorem loading_checked : (failedCheck (checked loading) named).isNone = true :=
  failed_isNone _ _ loading_a loading_b loading_c loading_d loading_e

theorem loading_image : imageCause loading ⟨true, [], []⟩ goodImage false = 0 :=
  imageCause_good _ _ _ ⟨rfl, rfl⟩ (by decide +kernel) (.inr (by decide +kernel)) (contentFails_good _ (by decide +kernel) loading_checked)

theorem loading_bank : loading.sys.nor.get 0 = some goodImage := by decide +kernel

theorem witness_coldStart : let f := facts true true
    let s := starting 0
    s.sysState = 1 ∧ f.dramOk = true ∧ f.unitsOk = true ∧ (facts true false).unitsOk = false ∧ attemptBank s = 0 ∧
      coldTrained (coldTested (coldFused (coldReset s)) f) f = loading ∧ loadCause loading f.load 0 (fun _ => false) = .ok goodImage :=
  ⟨by decide +kernel, rfl, rfl, rfl, rfl, rfl, loadCause_good _ _ _ _ loading_bank rfl loading_image⟩

/-- WARM_START with the image in bank A and owner slot 0 written; the sealed hash is that of its header, or is not. -/
def warming (sealed : Nat) : State :=
  let s := (atState 2 2000000000).setF Reg.SEA_STAT_OWN_WR 1
  { s with sea := { s.sea with sealedHash := sealed }, sys := { s.sys with nor := [(0, some goodImage)] } }

theorem warming_a : (List.range' 0 2).all (partOk (checked (warming 9)) named) = true := by decide +kernel

theorem warming_b : (List.range' 2 10).all (partOk (checked (warming 9)) named) = true := by decide +kernel

theorem warming_c : (List.range' 12 2).all (partOk (checked (warming 9)) named) = true := by decide +kernel

theorem warming_d : (List.range' 14 5).all (partOk (checked (warming 9)) named) = true := by decide +kernel

theorem warming_e : (List.range' 19 1).all (partOk (checked (warming 9)) named) = true := by decide +kernel

theorem warming_checked : (failedCheck (checked (warming 9)) named).isNone = true :=
  failed_isNone _ _ warming_a warming_b warming_c warming_d warming_e

theorem warming_noHa : noHa (loadRegs (unitsReset false (warming 9)) lastRegs) = true ∧ noHa (loadRegs (unitsReset false (warming 8)) lastRegs) = true := by
  decide +kernel

/-- The checks look at the same in two states. -/
def alike (s t : State) : Bool :=
  decide (s.regs = t.regs) && decide (s.nib = t.nib) && decide (s.pbi = t.pbi) && decide (s.vel = t.vel) && decide (s.duc = t.duc)

theorem failed_alike {s t : State} (m : Nat → Nat → Bool) (h : alike s t = true) (k : (failedCheck t m).isNone = true) : (failedCheck s m).isNone = true := by
  simp only [alike, Bool.and_eq_true, decide_eq_true_eq] at h
  rw [failed_parts s t m h.1.1.1.1 h.1.1.1.2 h.1.1.2 h.1.2 h.2]
  exact k

theorem warming_alike : alike (checked (warming 8)) (checked (warming 9)) = true := by decide +kernel

theorem warming_content : contentFails (warming 9) goodImage = false ∧ contentFails (warming 8) goodImage = false :=
  ⟨contentFails_good _ warming_noHa.1 warming_checked, contentFails_good _ warming_noHa.2 (failed_alike named warming_alike warming_checked)⟩

theorem warming_image : imageCause (warming 9) ⟨true, [], []⟩ goodImage true = 0 ∧ imageCause (warming 8) ⟨true, [], []⟩ goodImage false = 0 :=
  ⟨imageCause_good _ _ _ ⟨rfl, rfl⟩ (by decide +kernel) (.inl rfl) warming_content.1,
    imageCause_good _ _ _ ⟨rfl, rfl⟩ (by decide +kernel) (.inr (by decide +kernel)) warming_content.2⟩

theorem warming_state : (warming 9).sysState = 2 ∧ (warming 8).sysState = 2 ∧ (warming 8).f Reg.SYS_START_WFAIL < 3 ∧ (warming 9).f Reg.SYS_START_BANK = 0 ∧
    (after (.warmStart ⟨false, [], []⟩ true) (warming 8)).f Reg.SYS_START_CAUSE = 1 ∧ (after (.warmStart ⟨false, [], []⟩ true) (warming 8)).sysState = 2 := by
  decide +kernel

/-- The header hash is 9. -/
theorem witness_warmStart : loadCause (warming 9) ⟨true, [], []⟩ 0 (fun i => decide (folioHead i = 9)) = .ok goodImage ∧
    loadCause (warming 8) ⟨true, [], []⟩ 0 (fun i => decide (folioHead i = 8)) = .ok goodImage ∧
    loadCause (warming 8) ⟨false, [], []⟩ 0 (fun i => decide (folioHead i = 8)) = .error 1 := by
  obtain ⟨-, -, -, -, -, -, -, -, -, -, a11⟩ := goodImage_checks
  refine ⟨loadCause_good _ _ _ _ rfl rfl ?_, loadCause_good _ _ _ _ rfl rfl ?_, loadCause_unread _ _ _ _ rfl⟩
  · simpa only [a11, decide_true] using warming_image.1
  · simpa only [a11, show decide ((9 : Nat) = 8) = false from rfl] using warming_image.2

theorem witness_sysCtrlTestWrite : (atState 3 5).sysState = 3 ∧ (0x31F : Word).toNat.testBit 0 = true ∧
    (after (.sysCtrlTestWrite (.cmd 15 0) 1) (atState 3 5)).sysState = 4 ∧
    (after (.sysCtrlTestWrite (.cmd 15 0) 1) (atState 3 5)).f Reg.SYS_STATE_TEST_SESS = 15 ∧
    (after (.sysCtrlTestWrite (.cmd 15 0) 1) (atState 3 5)).sys.testEnd = 5 + 1800000000000 := by decide +kernel

theorem witness_testTimeout : let s : State := { atState 4 5 with sys := { (atState 4 5).sys with testEnd := 5 } }
    s.sysState = 4 ∧ (0 : Word).toNat.testBit 0 = false ∧ s.sys.testEnd ≤ s.ltc ∧ (after .testTimeout s).sysState = 3 := by decide +kernel

/-- The bulk region holds the image, owner slot 0 is written; bank A is in use. -/
def flashing : State :=
  let s := ((bare 3 5).wr Reg.HST_BULKSIZE 32768).setFs [(Reg.SYS_FLASH_LEN_LEN, 31744), (Reg.SEA_STAT_OWN_WR, 1)]
  { s with hst := { s.hst with dram := goodBytes } }

theorem witness_flashProgramGo : let s := flashing
    accepts s (.cmd 15 0) Reg.SYS_FLASH_CTRL false ∧ s.sys.flashGo = false ∧ s.on Reg.SYS_FLASH_CTRL_BUSY = false ∧ (3 : Word).toNat.testBit 1 = true ∧
      (3 : Word).toNat.testBit 0 = true ∧ s.f Reg.SYS_START_BANK = 0 ∧ s.rd Reg.SYS_FLASH_SRC % 4096 = 0 ∧ 4608 ≤ s.f Reg.SYS_FLASH_LEN_LEN ∧
      s.f Reg.SYS_FLASH_LEN_LEN ≤ 16777216 ∧ inBulk s (s.rd Reg.SYS_FLASH_SRC) (s.f Reg.SYS_FLASH_LEN_LEN) = true ∧
      headCause (s.f Reg.SYS_ID_VARIANT) (bulkImage s goodImage) = 0 ∧ ownerSlotFails s (bulkImage s goodImage) = false ∧
      (after (.flashProgramGo (.cmd 15 0) 3 goodImage) s).f Reg.SYS_FLASH_CTRL_RESULT = 1 ∧
      (after (.flashProgramGo (.cmd 15 0) 3 goodImage) s).sys.flashImg.isSome = true ∧
      (after (.flashProgramGo (.cmd 15 0) 3 goodImage) s).sea.jobs.map (fun j => (j.kind, j.ok)) = [(4, true)] :=
  ⟨accepts_p0 _ _ _ (by decide +kernel), by decide +kernel⟩

/-- Bytes that begin with no MAGIC are refused with cause 1. -/
theorem witness_flashProgramGo_refused : let s := { flashing with hst := { flashing.hst with dram := [] } }
    headCause (s.f Reg.SYS_ID_VARIANT) (bulkImage s goodImage) = 1 ∧
      (after (.flashProgramGo (.cmd 15 0) 3 goodImage) s).f Reg.SYS_FLASH_CTRL_RESULT = 4 ∧
      (after (.flashProgramGo (.cmd 15 0) 3 goodImage) s).f Reg.SYS_FLASH_CTRL_CAUSE = 1 := by decide +kernel

/-- A GO that a register write has made waits for its image. -/
theorem witness_flashProgramGo_waits : let s := { flashing with sys := { flashing.sys with flashGo := true } }
    s.sys.flashGo = true ∧ headCause (s.f Reg.SYS_ID_VARIANT) (bulkImage s goodImage) = 0 ∧ ownerSlotFails s (bulkImage s goodImage) = false ∧
      (after (.flashProgramGo (.direct .spi) 0 goodImage) s).sys.flashImg = some (bulkImage s goodImage) := by decide +kernel

/-- The job of a signature of the image is next. -/
def verifying (kind : Nat) (ok : Bool) : State :=
  let s := warming 9
  { s with sea := { s.sea with jobs := [ownJob kind ok] }, sys := { s.sys with flashImg := some goodImage } }

theorem verified_alike : alike (checked (sealNote ((verifying 5 true).setSea { (verifying 5 true).sea with jobs := [] }))) (checked (warming 9)) = true := by
  decide +kernel

theorem witness_flashVerified : let s := verifying 5 true
    s.sea.jobs = ownJob 5 true :: [] ∧ s.sys.flashImg = some goodImage ∧ contentFails (sealNote (s.setSea { s.sea with jobs := [] })) goodImage = false :=
  ⟨rfl, rfl, contentFails_good _ (by decide +kernel) (failed_alike named verified_alike warming_checked)⟩

theorem witness_flashVerify : vendorFails (verifying 4 true) goodImage = false ∧ (verifying 4 true).sys.flashImg = some goodImage ∧
    (after .sealJobComplete (verifying 4 true)).sea.jobs = [ownJob 5 true] ∧ (after .sealJobComplete (verifying 4 false)).f Reg.SYS_FLASH_CTRL_CAUSE = 8 ∧
    (after .sealJobComplete (verifying 5 false)).f Reg.SYS_FLASH_CTRL_CAUSE = 10 ∧ (after .sealJobComplete (verifying 5 false)).sys.flashImg = none := by
  decide +kernel

theorem witness_flashProgDone : let s : State := { live with sys := { live.sys with flash := some (1, goodImage) } }
    s.sys.flash = some (1, goodImage) ∧ (after (.flashProgDone true) s).f Reg.SYS_FLASH_CTRL_RESULT = 2 ∧
      (after (.flashProgDone true) s).sys.nor.get 1 = some goodImage ∧ (after (.flashProgDone false) s).f Reg.SYS_FLASH_CTRL_RESULT = 5 ∧
      (after (.flashProgDone false) s).sys.nor.get 1 = none := by decide +kernel

/-- A register file that holds no configuration, in IN_SERVICE, with a bulk region of 4 KiB at address 0 that holds one change record:
word 32 of the block of context 5, one word of 7. -/
def staging (staged : Bool) (c : Cmd) : State :=
  let s : State := { live with regs := [], hst := { live.hst with dram := writeBytes [] 0 [1, 0, 5, 0, 32, 0, 1, 0, 7, 0, 0, 0] } }
  asks ((s.wr Reg.HST_BULKSIZE 4096).setFs [(Reg.SYS_STATE_STATE, 3), (Reg.SYS_STATE_STAGED, b2n staged), (Reg.SYS_STATE_STG_SESS, b2n staged)]) 0 c

/-- OFFSET 0, LENGTH 12. -/
def setEntry : Cmd := entry 0x10 0 5 [0, 0, 0, 0, 0, 0, 0, 0, 12]

theorem witness_setWrite : let c := setEntry
    let s := staging false c
    ready s 1 0x10 c ∧ s.level 1 = 0 ∧ c.arg 8 4 = 12 ∧ c.zero 12 32 = true ∧ inBulk s (c.arg 0 8) (c.arg 8 4) = true ∧
      (match readRecs s 87382 (bulkAddr s (c.arg 0 8)) (c.arg 8 4) [] with | .ok l => decide (l = [⟨1, 5, 32, [7]⟩]) | .error _ => false) = true ∧
      (match stageRecs s [⟨1, 5, 32, [7]⟩] with | .ok st => (stagedFails s st).isNone | .error _ => false) = true ∧
      stageState s 1 = false ∧ s.on Reg.SYS_STATE_RESYNC = false ∧ s.lost .ok = false ∧ memNote s .ok = s ∧
      (after (.setWrite ⟨1, .ok⟩) s).sys.staged = [(16777216 + 128 * 5 + 32, some 7)] ∧ (after (.setWrite ⟨1, .ok⟩) s).on Reg.SYS_STATE_STAGED = true := by unfold ready; decide +kernel

theorem witness_epochCommit : let c := entry 0x11 0 5 []
    let s := (staging true c).wr Reg.SYS_EPOCH 0xFFFFFFFF
    ready s 1 0x11 c ∧ epochStatus s 1 c = none ∧ s.f Reg.SYS_EPOCH_EPOCH = 0xFFFFFFFF ∧
      (after (.epochCommit 1) s).f Reg.SYS_EPOCH_EPOCH = 0 ∧ (after (.epochCommit 1) s).sys.committed = true ∧
      (after .shadowResyncDone (s.setB Reg.SYS_STATE_RESYNC true)).on Reg.SYS_STATE_RESYNC = false := by unfold ready; decide +kernel

theorem witness_epochAbort : let c := entry 0x12 0 5 []
    let s := staging true c
    ready s 1 0x12 c ∧ epochStatus s 1 c = none ∧ (after (.epochAbort 1) s).on Reg.SYS_STATE_STAGED = false := by unfold ready; decide +kernel

/-! ### Host interfaces -/

theorem witness_hello : let c := entry 0x01 0 5 [3]
    let s := (asks live 0 c).setFs [(Reg.HST_SESS_STAT_STATE 1, 0), (Reg.HST_SESS_STAT_VER 1, 0)]
    ready s 1 0x01 c ∧ c.arg 0 1 ≠ 0 ∧ s.f (Reg.HST_SESS_STAT_STATE 1) = 0 ∧
      (after (.hello 1) s).f (Reg.HST_SESS_STAT_STATE 1) = 1 ∧ (after (.hello 1) s).f (Reg.HST_SESS_STAT_VER 1) = min (c.arg 0 1) 3 := by
  unfold ready; decide +kernel

/-- A credential of level P0 over either interface, its key 1,312 bytes of 0. -/
def aCred : Cred := ⟨true, 0, true, ⟨1312, []⟩⟩

/-- Credential 15 is that one. -/
def keyed (st : Nat) (c : Cmd) : State :=
  let s := (asks live 0 c).setF (Reg.HST_SESS_STAT_STATE 1) st
  { s with sys := { s.sys with creds := List.replicate 15 default ++ [aCred] } }

theorem witness_sessionOpen : let c := entry 0x02 0 5 [0, 15, 2]
    let d := entry 0x02 0 5 [1, 15, 2]
    ready (keyed 1 c) 1 0x02 c ∧ c.arg 0 1 = 0 ∧ c.arg 1 1 = 15 ∧ c.arg 2 1 = 2 ∧ c.zero 3 32 = true ∧ credOf (keyed 1 c) 15 = some aCred ∧
      (keyed 1 c).f (Reg.HST_SESS_STAT_STATE 1) = 1 ∧ jobOf (keyed 1 c) 1 0 = false ∧ (recentFails (keyed 1 c) 1).length < 3 ∧
      credPriv (keyed 1 c) 1 2 aCred = false ∧ rngFails (keyed 1 c) = false ∧
      (after (.sessionOpenPhase0 1) (keyed 1 c)).f (Reg.HST_SESS_STAT_STATE 1) = 2 ∧
      ready (keyed 2 d) 1 0x02 d ∧ d.arg 0 1 = 1 ∧ (keyed 2 d).f (Reg.HST_SESS_STAT_STATE 1) = 2 ∧ sealFull (keyed 2 d) = false ∧
      credPriv (keyed 2 d) 1 2 aCred = false := by unfold ready; decide +kernel

/-- A signature that FIPS 204 finds good over the message of the session, and one over another message. -/
theorem witness_sessionOpenPhase1 : let d := entry 0x02 0 5 [1, 15, 2]
    let s := keyed 2 d
    let good : SigFact := ⟨sigArea s 1, aCred.key, challengeMessage s 1 d, noContext⟩
    (after (.sessionOpenPhase1 1 good) s).sea.jobs.map (fun j => (j.kind, j.sess, j.ok)) = [(0, 1, true)] ∧
      (after (.sessionOpenPhase1 1 { good with msg := ⟨48, []⟩ }) s).sea.jobs.map (fun j => (j.kind, j.sess, j.ok)) = [(0, 1, false)] ∧
      (challengeMessage s 1 d).len = 48 := by decide +kernel

theorem witness_sessionClose : let c := entry 0x03 0 5 []
    let s := asks live 2 c
    ready s 1 0x03 c ∧ s.f (Reg.HST_SESS_STAT_STATE 1) ≠ 0 ∧ (after (.sessionClose 1) s).f (Reg.HST_SESS_STAT_STATE 1) = 0 := by unfold ready; decide +kernel

theorem witness_sessionIdleTimeout : let s := (live.setSess 15 { (default : Session) with lastDb := 999000000000 }).setFs [(Reg.HST_CFG_SESS_TMO, 1),
      (Reg.HST_SESS_STAT_STATE 15, 3)]
    s.f Reg.HST_CFG_SESS_TMO ≠ 0 ∧ s.f (Reg.HST_SESS_STAT_STATE 15) ≠ 0 ∧ (s.sess 15).lastDb + s.f Reg.HST_CFG_SESS_TMO * 1000000000 ≤ s.ltc ∧
      (after (.sessionIdleTimeout 15) s).f (Reg.HST_SESS_STAT_STATE 15) = 0 := by decide +kernel

theorem witness_challengeTimeout : let s := (live.setSess 15 { (default : Session) with challengeAt := some 990000000000 }).setF (Reg.HST_SESS_STAT_STATE 15) 2
    (s.sess 15).challengeAt = some 990000000000 ∧ s.f (Reg.HST_SESS_STAT_STATE 15) = 2 ∧ 990000000000 + 10000000000 ≤ s.ltc ∧ jobOf s 15 0 = false ∧
      (after (.challengeTimeout 15) s).f (Reg.HST_SESS_STAT_STATE 15) = 1 := by decide +kernel

/-- Four registers from SYS_ID. -/
theorem witness_readReg : let c := entry 0x04 0 5 [0, 0, 0, 0, 4]
    let s := asks (atState 3 1000000000000) 2 c
    ready s 1 0x04 c ∧ (s.sess 1).cmds = [c] ∧ c.arg 4 1 = 4 ∧ regArgsOk c (c.arg 4 1) = true ∧
      (after (.readReg 1) s).inkRead (0x4000 + 0x1000 + 8) 4 = [0x41, 0, 0x60, 0x81] := by unfold ready; decide +kernel

/-- An entry of WRITE_REG: the value and MASK with every bit. -/
def writeEntry (a : Nat) : Cmd := entry 0x05 0 5 ([a % 256, a / 256 % 256, a / 65536, 0, 0, 0, 0, 0, 2, 0, 0, 0, 255, 255, 255, 255])

theorem witness_writeReg : let c := writeEntry Reg.HST_LOGSEV
    let d := writeEntry Reg.HST_IRQ_EN
    ready (asks live 1 c) 1 0x05 c ∧ (asks live 1 c).level 1 ≠ 2 ∧ (asks live 1 c).running = true ∧ c.arg 0 4 = Reg.HST_LOGSEV ∧ c.arg 4 1 = 0 ∧
      regArgsOk c 1 = true ∧ (after (.writeReg 1) (asks live 1 c)).rd Reg.HST_LOGSEV = 2 ∧
      ready (asks live 0 d) 1 0x05 d ∧ (asks live 0 d).level 1 ≠ 2 ∧ d.arg 0 4 = Reg.HST_IRQ_EN ∧ regArgsOk d 1 = true ∧
      (after (.writeReg 1) (asks live 0 d)).rd Reg.HST_IRQ_EN = 2 := by unfold ready; decide +kernel

/-- One word to HST_IRQ_EN over the bus and over SPI. -/
theorem witness_registerWrite : inkServed live = true ∧ (after (.registerWrite .spi Reg.HST_IRQ_EN 4 0xFFFFFFFF) live).rd Reg.HST_IRQ_EN = 0xFFFFFFFF ∧
    (BitVec.ofNat 32 Reg.HST_IRQ_EN).getLsbD 31 = false ∧ (BitVec.ofNat 32 Reg.HST_IRQ_EN).toNat / 2 ^ 25 % 64 = 0 ∧
    (BitVec.ofNat 32 Reg.HST_IRQ_EN).toNat % 2 ^ 24 = Reg.HST_IRQ_EN ∧
    (after (.spiTransaction (BitVec.ofNat 32 Reg.HST_IRQ_EN) [0xFF]) live).rd Reg.HST_IRQ_EN = 0xFF := by decide +kernel

theorem witness_modeSet : let c := entry 0x06 0 5 [8, 1, 0, 0]
    let s := asks live 0 c
    let d := entry 0x06 0 5 [4, 0, 255, 0]
    let s1 := asks (live.setNc 255 { (default : NcState) with svc := 1 }) 0 d
    ready s 1 0x06 c ∧ s.level 1 = 0 ∧ c.arg 0 1 = 8 ∧ c.arg 1 1 = 1 ∧ c.arg 2 2 < modeInstances s 8 ∧ c.zero 4 32 = true ∧ modePending s 8 0 = none ∧
      (after (.modeSet 1) s).sys.modePend.map (fun p => (p.fn, p.inst, p.ha)) = [(8, 0, true)] ∧
      ready s1 1 0x06 d ∧ d.arg 0 1 = 4 ∧ d.arg 2 2 = 255 ∧ d.arg 2 2 < modeInstances s1 4 ∧ modePending s1 4 255 = none ∧ (s1.nc 255).svc = 1 := by
  unfold ready; decide +kernel

/-- A pull of eight bytes to offset 4,088 that nothing has answered. -/
def pullEntry : Cmd := { entry 0x50 2 5 (List.replicate 32 0 ++ [0, 0, 0, 0, 0, 0, 0, 0, 0xF8, 15, 0, 0, 8, 0, 0, 0]) with
  pull := true, asked := 8, reads := [⟨0, 8, 0, 999950000000⟩] }

def pullState : State := asks (live.wr Reg.HST_BULKSIZE 4096) 0 pullEntry

theorem witness_pull : pulling pullState 1 = some pullEntry ∧ (∃ r ∈ pullEntry.reads, r.at' + cplNs pullState.hst.cplValue ≤ pullState.ltc) ∧ pullEntry.readAt 0 = some ⟨0, 8, 0, 999950000000⟩ ∧
    (after (.pullReadCompletion 1 ⟨0, 0⟩ [7, 8]) pullState).hst.dram.get (bulkAddr pullState 4088) = 7 ∧
    (after (.cplTimeout 1) pullState).f Reg.HST_PCIE_CNT_CPL_TO = 1 ∧ ((after (.cplTimeout 1) pullState).sess 1).cmds.map (fun c => (c.tries, c.reads)) = [(1, [⟨0, 8, 0, 1000000000000⟩])] ∧
    (after (.pullReadCompletion 1 ⟨1, 0⟩ []) pullState).f Reg.HST_PCIE_CNT_CPL_ERR = 1 ∧ ((after (.pullReadCompletion 1 ⟨1, 0⟩ []) pullState).sess 1).cmds = [] ∧
    (after (.pullReadCompletion 1 ⟨2, 0⟩ [7]) pullState).f Reg.HST_PCIE_CNT_POISON = 1 := by
  decide +kernel

/-- The second of two reads answers first. -/
theorem test_pull_any_order : let c : Cmd := { pullEntry with reads := [⟨0, 4, 0, 5⟩, ⟨4, 4, 0, 5⟩] }
    let t := after (.pullReadCompletion 1 ⟨0, 4⟩ [1, 2, 3, 4]) (asks (live.wr Reg.HST_BULKSIZE 4096) 0 c)
    (t.sess 1).cmds.map (fun c => c.reads) = [[⟨0, 4, 0, 5⟩]] ∧ t.hst.dram.get (bulkAddr t 4092) = 1 := by decide +kernel

theorem witness_hstCmdTimeout : let c := { pullEntry with deadline := 1000000000000 }
    let s := asks live 0 c
    inkServed s = true ∧ (s.sess 1).cmds.find? (fun c => c.cid = 5 && decide (c.deadline ≤ s.ltc) && unaffected s 1 c) = some c ∧
      ((after (.hstCmdTimeout 1 5) s).sess 1).cmds = [] := by decide +kernel

theorem witness_allIdleTimeout : let s := (live.setQil { live.qil with sw := some ⟨1, 0, 0, 999900000000⟩ }).setF Reg.QIL_STAT_SW_PEND 1
    s.qil.sw = some ⟨1, 0, 0, 999900000000⟩ ∧ 999900000000 + 100000000 ≤ s.ltc ∧ (after .allIdleTimeout s).on Reg.QIL_STAT_SW_PEND = false := by decide +kernel

theorem witness_pcieLink : live.sysState ≠ 0 ∧ live.on Reg.HST_STAT_LINK = false ∧ (after (.hstPcieLinkUp 3 2) live).f Reg.HST_STAT_SPEED = 3 ∧
    (after (.hstPcieLinkUp 1 1) live).f Reg.HST_STAT_WIDTH = 1 ∧
    (after .perstNFall (after (.hstPcieLinkUp 3 2) live)).on Reg.HST_STAT_LINK = false ∧ (after .perstNFall live).hst.perstN = false ∧
    (after .pcieHotReset { live with hst := { live.hst with cplValue := 5 } }).hst.cplValue = 0 ∧ (after .pcieHotReset live).hst.ep = Endpoint.reset := by decide +kernel

theorem witness_pcieLink_sessions : let s := (live.setSess 15 { (default : Session) with owner := some 0 }).setFs [(Reg.HST_STAT_LINK, 1),
      (Reg.HST_SESS_STAT_STATE 15, 3)]
    s.on Reg.HST_STAT_LINK = true ∧ (s.sess 15).owner = some 0 ∧ (after .hstPcieLinkDown s).f (Reg.HST_SESS_STAT_STATE 15) = 0 ∧
      (after .perstNFall s).f (Reg.HST_SESS_STAT_STATE 15) = 0 ∧ (after .pcieHotReset s).f (Reg.HST_SESS_STAT_STATE 15) = 0 := by decide +kernel

theorem witness_inkwellWrite : inkPart 0xFFC = some true ∧ inkPart 0x1000 = some false ∧ inkPart 0xFF8 = some true ∧ inkServed live = true ∧
    (after (.registerWrite .spi (0x800000 + 0xFFC) 4 0x04030201) live).inkRead 0xFFC 4 = [1, 2, 3, 4] ∧
    (after (.registerWrite .pcie (0x800000 + 0xFF8) 8 0x0807060504030201) live).inkRead 0xFF8 8 = [1, 2, 3, 4, 5, 6, 7, 8] := by decide +kernel

theorem witness_badAccess : (3 ≠ 4 ∧ 3 ≠ 8) ∧ 0x100002 % 4 ≠ 0 ∧ (after (.registerWrite .pcie 0x100000 3 0) live).f Reg.HST_CNT_BADACC = 1 ∧
    (after (.registerWrite .spi 0x100002 4 0) (live.setF Reg.HST_CNT_BADACC 255)).f Reg.HST_CNT_BADACC = 255 ∧ (after (.bar2Write ⟨0, 4⟩) live).f Reg.HST_CNT_BAR2_WR = 1 ∧
    (after (.bar2Write ⟨0, 4⟩) live).f Reg.HST_CNT_BADACC = 0 ∧ (after (.bar2Write ⟨0, 9⟩) live).f Reg.HST_CNT_BADACC = 1 ∧
    (after (.lowWordRead ⟨.pcie, 3⟩ 0x100000) live).f Reg.HST_CNT_BADACC = 1 ∧ (after (.lowWordRead ⟨.pcie, 8⟩ 0x100004) live).hst.rdOut = [] := by
  decide +kernel

theorem witness_bar2Read : inkServed live = true ∧ (after (.bar2Read 0 2 .ok) live).hst.bar2Out = [0, 0] ∧ (after (.bar2Read 0 2 .ok) live).hst.bar2Poison = false ∧
    (after (.bar2Read 0 1 (ue 16 0)) live).hst.bar2Poison = true ∧ (after (.bar2Read 0 1 (ue 16 0)) live).hst.bar2Out = [0xFFFFFFFF] ∧
    (after (.bar2Read 0 0 .ok) live).f Reg.HST_CNT_BADACC = 1 ∧ (after (.bar2Read 0 3 .ok) live).hst.bar2Out = [] := by
  decide +kernel

/-- Configuration space with the link up: device and vendor ID. -/
theorem witness_configuration : let s := live.setF Reg.HST_STAT_LINK 1
    s.on Reg.HST_STAT_LINK = true ∧ (after (.lowWordRead ⟨.cfg, 4⟩ 0) s).hst.rdOut = [BitVec.ofNat 32 (s.f Reg.SYS_ID_PART * 65536 + 0x1EF7)] := by decide +kernel

/-- A read of two words from SYS_ID, a write cut short, a write whole; in RESET the pins are ignored. -/
theorem witness_spi : State.reset.sysState = 0 ∧ (after (.spiTransaction 0x82000000 []) State.reset).hst.spiOut = [] ∧ (atState 3 1000000000000).sysState ≠ 0 ∧
    (0x82000000 : Word).getLsbD 31 = true ∧ ((after (.spiTransaction 0x82000000 []) (atState 3 1000000000000)).hst.spiOut)[2]? = some 0x81600041 ∧
    (0x02000000 : Word).getLsbD 31 = false ∧ ([] : List Word).length < (0x02000000 : Word).toNat / 2 ^ 25 % 64 + 1 ∧
    (after (.spiTransaction 0x02000000 []) (atState 3 1000000000000)).hst.spiRefused = true ∧ (after (.spiTransaction 0x02000000 [0, 0]) (atState 3 1000000000000)).hst.spiRefused = false := by
  decide +kernel

theorem witness_doorbells : otherIf live .pcie 15 = false ∧ ((0xFFFFFFC0 : Word).toNat % 128 + 128 - live.f (Reg.HST_SESS_STAT_SQHEAD 15)) % 128 ≤ 64 ∧
    (after (.doorbell .pcie 15 0xFFFFFF80) (live.setF (Reg.HST_SESS_DB_TAIL 15) 9)).f (Reg.HST_SESS_DB_TAIL 15) = 0 ∧
    ((after (.doorbell .pcie 15 0xFFFFFF80) live).sess 15).owner = some 0 ∧
    (after (.completionDoorbell .spi 15 0xFFFFFFFF) live).f (Reg.HST_SESS_CQDB_HEAD 15) = 127 := by decide +kernel

/-! ### Seal, memory, package, debug -/

theorem witness_attest : let c := entry 0x50 0 5 []
    let s := asks live 2 c
    ready s 1 0x50 c ∧ s.sea.jobs.any (fun j => j.kind = 2) = false ∧ sealFull s = false ∧ rngFails s = false ∧
      (after (.attest 1) s).sea.jobs = [⟨2, 1, c.sqHead, c, true⟩] := by unfold ready; decide +kernel

theorem witness_sealJobComplete_session : let c := entry 0x02 0 5 [1, 15, 2]
    let s0 := (keyed 2 c).setSess 1 { ((keyed 2 c).sess 1) with cmds := [{ c with started := true }] }
    let j : SealJob := ⟨0, 1, 1, c, true⟩
    let s := s0.setSea { s0.sea with jobs := [j] }
    s.sea.jobs = j :: [] ∧ j.cmd.arg 2 1 = 2 ∧ findCmd s 1 1 = some { c with started := true } ∧ s.sysState ≠ 5 ∧
      (after .sealJobComplete s).f (Reg.HST_SESS_STAT_STATE 1) = 3 ∧ (after .sealJobComplete s).level 1 = 2 := by decide +kernel

theorem witness_sealJobComplete_unlock : let c := entry 0x51 0 5 [1, 0, 1, 0, 160, 5]
    let s := live.setSea { live.sea with jobs := [⟨1, 1, 1, c, true⟩] }
    s.sea.jobs = ⟨1, 1, 1, c, true⟩ :: [] ∧ s.on Reg.SEA_DBG_UNLOCKED = false ∧ c.arg 4 2 = 1440 ∧ (after .sealJobComplete s).on Reg.SEA_DBG_UNLOCKED = true ∧
      (after .sealJobComplete s).sea.unlockEnd = some (s.ltc + 86400000000000) := by decide +kernel

theorem witness_sealJobComplete_report : let s := live.setSea { live.sea with jobs := [⟨2, 1, 1, entry 0x50 0 5 [], true⟩] }
    s.sea.jobs = ⟨2, 1, 1, entry 0x50 0 5 [], true⟩ :: [] ∧ s.sys.flashImg = none ∧ (after .sealJobComplete s).sea.jobs = [] ∧ (after .sealJobComplete s).sea.rseq = s.sea.rseq + 1 ∧
      (after .sealJobComplete s).f Reg.SEA_RPT_INFO_LEN = 3892 := by decide +kernel

theorem witness_debugUnlock : let c := entry 0x51 0 5 [0, 1, 1, 0, 160, 5]
    let d := entry 0x51 0 5 [1, 1, 1, 0, 1, 0]
    let s0 := asks live 0 c
    let s1 := (asks live 0 d).setSess 1 { ((asks live 0 d).sess 1) with unlockNonce := some 990000000001 }
    let v : SigFact := ⟨sigArea s1 1, tokenKey s1 d, tokenMessage s1 1 d, noContext⟩
    ready s0 1 0x51 c ∧ s0.level 1 = 0 ∧ c.arg 1 1 = 1 ∧ c.arg 2 1 = 1 ∧ c.arg 3 1 = 0 ∧ c.arg 4 2 = 1440 ∧ c.zero 6 32 = true ∧
      s0.on Reg.SEA_DBG_UNLOCKED = false ∧ c.arg 0 1 = 0 ∧ rngFails s0 = false ∧ ((after (.debugUnlockPhase0 1) s0).sess 1).unlockNonce = some s0.ltc ∧
      ready s1 1 0x51 d ∧ s1.level 1 = 0 ∧ d.arg 4 2 = 1 ∧ d.zero 6 32 = true ∧ d.arg 0 1 = 1 ∧ (s1.sess 1).unlockNonce = some 990000000001 ∧
      s1.ltc < 990000000001 + 10000000000 ∧ jobOf s1 1 1 = false ∧ sealFull s1 = false ∧ (after (.debugUnlockPhase1 1 v) s1).sea.jobs.map (fun j => (j.kind, j.ok)) = [(1, true)] := by
  unfold ready; decide +kernel

theorem witness_entropy : (after .seaRngFail live).on Reg.SEA_STAT_RNG_FAIL = true ∧
    (after .entropyHealthRestored (after .seaRngFail live)).on Reg.SEA_STAT_RNG_FAIL = false := by decide +kernel

/-- An unlock in force until now. -/
def unlocked : State := (live.setSea { live.sea with unlockEnd := some 1000000000000 }).setF Reg.SEA_DBG_UNLOCKED 1

theorem witness_unlockEnds : unlocked.sea.unlockEnd = some 1000000000000 ∧ 1000000000000 ≤ unlocked.ltc ∧ unlocked.on Reg.SEA_DBG_UNLOCKED = true ∧
    accepts unlocked (.cmd 15 1) Reg.SEA_DBG false ∧ (after .debugUnlockExpiry unlocked).on Reg.SEA_DBG_UNLOCKED = false ∧
    (after (.relock (.cmd 15 1)) unlocked).on Reg.SEA_DBG_UNLOCKED = false :=
  ⟨rfl, by decide +kernel, by decide +kernel, accepts_p1 _ _ (by decide +kernel), by decide +kernel, by decide +kernel⟩

/-- Owner slots 2 and 3 written. -/
def owned : State := live.setF Reg.SEA_STAT_OWN_WR 12

theorem witness_ownerSlotWrite : accepts owned (.cmd 15 0) Reg.SEA_OWN_CTRL true ∧ owned.running = true ∧ owned.on Reg.SEA_OWN_CTRL_BUSY = false ∧
    slotUsed owned ((1 : Word).toNat % 4) = false ∧ slotUsed owned ((3 : Word).toNat % 4) = true ∧
    (after (.ownerSlotWrite (.cmd 15 0) 0x101) owned).sea.fuse = some ⟨1, 0, false, newHash owned⟩ ∧
    (after (.ownerSlotWrite (.cmd 15 0) 0x103) owned).f Reg.SEA_OWN_CTRL_RESULT = 3 :=
  ⟨accepts_p0 _ _ _ (by decide +kernel), by decide +kernel, by decide +kernel, by decide +kernel, by decide +kernel, by decide +kernel, by decide +kernel⟩

theorem witness_ownerSlotRevoke : owned.sea.folioLoaded = false ∧ (∃ i < 4, i ≠ (3 : Word).toNat % 4 ∧ slotWritten owned i = true) ∧
    (after (.ownerSlotRevoke (.cmd 15 0) 0x203) owned).sea.fuse = some ⟨3, 1, false, []⟩ := by decide +kernel

theorem witness_vendorRootRevoke : accepts owned (.cmd 15 0) Reg.SEA_VREV true ∧ bitsOf 2 (3 : Word).toNat = 0 :: [1] ∧ bitsOf 2 (2 : Word).toNat = 1 :: [] ∧
    (owned.f Reg.SEA_STAT_VREV).testBit 0 = false ∧ (after (.vendorRootRevoke (.cmd 15 0) 2) owned).sea.fuse = some ⟨1, 2, false, []⟩ :=
  ⟨accepts_p0 _ _ _ (by decide +kernel), by decide +kernel, by decide +kernel, by decide +kernel, by decide +kernel⟩

theorem witness_commission : live.sys.v3p3Low = false ∧ unowned live = true ∧ live.on Reg.SEA_OWN_CTRL_BUSY = false ∧ slotUsed live 3 = false ∧
    unowned owned = false ∧ owned.sys.v3p3Low = false ∧ (after (.commission 3 []) live).dbg.ir = some 0x3C ∧ (after (.commission 3 []) owned).dbg.ir = some 0xFF := by
  decide +kernel

theorem witness_fuseWriteDone : let s := fun (slot op : Nat) => owned.setSea { owned.sea with fuse := some ⟨slot, op, false, List.replicate 8 7⟩ }
    (s 1 0).sea.fuse = some ⟨1, 0, false, List.replicate 8 7⟩ ∧ (s 3 1).sea.fuse = some ⟨3, 1, false, List.replicate 8 7⟩ ∧
      (s 1 2).sea.fuse = some ⟨1, 2, false, List.replicate 8 7⟩ ∧ (after (.fuseWriteDone true) (s 1 0)).word (Reg.SEA_OWN_HASH 1 7) = 7 ∧
      ((after (.fuseWriteDone true) (s 1 0)).f Reg.SEA_STAT_OWN_WR).testBit 1 = true ∧ ((after (.fuseWriteDone true) (s 3 1)).f Reg.SEA_STAT_OWN_REV).testBit 3 = true ∧
      ((after (.fuseWriteDone true) (s 1 2)).f Reg.SEA_STAT_VREV).testBit 1 = true ∧ (after (.fuseWriteDone false) (s 1 2)).f Reg.SEA_OWN_CTRL_RESULT = 5 := by
  decide +kernel

theorem witness_softRepairDone : let s := ({ live with regs := [], mem := { live.mem with repairing := [⟨true, 4095, 1023, 7⟩] } } : State).setFs ((List.range 63).map (fun k => (Reg.MEM_REP_VALID k, 1)))
    s.mem.repairing = ⟨true, 4095, 1023, 7⟩ :: [] ∧ (List.range 64).find? (fun k => !s.on (Reg.MEM_REP_VALID k)) = some 63 ∧
      (after .softRepairDone s).f (Reg.MEM_REP_BANK 63) = 4095 ∧ (after .softRepairDone s).f (Reg.MEM_REP_SPARE 63) = 7 := by decide +kernel

theorem witness_memSweep : let c := entry 0x60 0 5 [0xFF, 0x7F, 0x0F, 0]
    let s := asks live 1 c
    ready s 1 0x60 c ∧ s.level 1 ≠ 2 ∧ c.arg 0 4 = 0xF7FFF ∧ c.arg 0 4 ||| regionMask = regionMask ∧ c.zero 4 32 = true ∧ s.running = true ∧ s.mem.sweep = none ∧
      (after (.memSweep 1) s).mem.sweep = some (1, c.sqHead, 0xF7FFF) := by unfold ready; decide +kernel

theorem witness_memSweepDone : let s := (live.setMem { live.mem with sweep := some (1, 1, 1) }).setF Reg.MEM_STAT_SWEEP 1
    s.mem.sweep = some (1, 1, 1) ∧ s.running = true ∧ (after (.memSweepDone []) s).on Reg.MEM_STAT_SWEEP = false := by decide +kernel

theorem witness_fuseCommit : let c := entry 0x61 0 5 [255]
    let d := entry 0x61 0 5 [63]
    let s := (asks live 0 c).setF (Reg.MEM_REP_VALID 63) 1
    let s1 := (asks live 0 d).setF (Reg.MEM_REP_VALID 63) 1
    ready s 1 0x61 c ∧ s.level 1 = 0 ∧ c.arg 0 1 = 255 ∧ c.zero 1 32 = true ∧ namedRepairs s 255 = [63] ∧ s.running = true ∧ s.mem.fuse = none ∧ s.sea.fuse = none ∧
      (freeFuses s).length = 32 ∧ ready s1 1 0x61 d ∧ d.arg 0 1 = 63 ∧ namedRepairs s1 63 = [63] ∧
      (after (.fuseCommit 1) s).on Reg.MEM_STAT_FUSE_BUSY = true := by unfold ready; decide +kernel

theorem witness_fuseBurnDone : let s := ({ live with regs := [], mem := { live.mem with fuse := some ⟨1, 1, [63]⟩ } } : State).setFs ([(Reg.MEM_REP_VALID 63, 1), (Reg.MEM_REP_ROW 63, 1023)] ++
      (List.range 31).map (fun e => (Reg.MEM_FUSE_USED e, 1)))
    s.mem.fuse = some ⟨1, 1, 63 :: []⟩ ∧ freeFuses s = 31 :: [] ∧ (after (.fuseBurnDone true) s).f (Reg.MEM_FUSE_ROW 31) = 1023 ∧
      (after (.fuseBurnDone true) s).mem.fuse = none := by decide +kernel

theorem witness_rails : let s := live.wr Reg.SYS_RAILS 0xFF
    let l := live.wr Reg.SYS_RAILS 0
    (0x21 : BitVec 8).toNat &&& railsOk s ≠ 0 ∧ railsOk (after (.railFault 0x21) s) = 0xDE ∧ (after (.railFault 0x21) s).pkg.pwrgd = false ∧
      (after (.railFault 0x21) s).afe.stopped = true ∧ (0xFF : BitVec 8).toNat &&& (0xFF - railsOk l) ≠ 0 ∧ l.pkg.goodAt = none ∧ l.sys.v3p3Low = false ∧ l.pkg.anaAt = none ∧
      railsOk (after (.railRestored 0xFF) l) = 0xFF ∧ (after (.railRestored 0xFF) l).pkg.goodAt = some 1000000000000 := by decide +kernel

theorem witness_railTimes : let s := live.setPkg { live.pkg with anaAt := some 999990000000, goodAt := some 999999900000 }
    s.pkg.anaAt = some 999990000000 ∧ s.afe.stopped = true ∧ (999990000000 : Int) + 10000000 ≤ s.ltc ∧ (after .analogueResume s).afe.stopped = false ∧
      s.pkg.goodAt = some 999999900000 ∧ (999999900000 : Int) + 100000 ≤ s.ltc ∧ s.sys.v3p3Low = false ∧ (after .pwrgdRelease s).pkg.pwrgd = true := by decide +kernel

theorem witness_tj : (105 : Int) < 106 ∧ live.pkg.tjHigh = false ∧ (99 : Int) < 100 ∧ (live.setPkg { live.pkg with tjHigh := true }).pkg.tjHigh = true ∧
    (after (.tjHigh 106) live).f Reg.SYS_RAILS_TJ = 106 ∧ (after (.tjHigh 106) live).pkg.tjHigh = true ∧
    (after (.tjHigh 50) live).f Reg.SYS_RAILS_TJ = 50 ∧ (after (.tjHigh 50) live).pkg.tjHigh = false ∧ (after (.tjNormal (-1)) (live.setPkg { live.pkg with tjHigh := true })).f Reg.SYS_RAILS_TJ = 255 := by
  decide +kernel

theorem witness_grantWrite : live.running = true ∧ (after (.grantWrite (.cmd 15 0) 1) live).f Reg.DBG_GRANT_SESS = 15 ∧
    (after (.grantWrite (.cmd 15 0) 1) live).on Reg.DBG_GRANT_GRANT = true := by decide +kernel

theorem witness_selfCheck : live.sysState ≠ 0 ∧ live.dbg.checkAt < live.ltc ∧ (List.range 16).all (engineMoves live) = true ∧ strokeMoves live = true ∧
    (after .selfCheck live).dbg.health = true ∧ (after .selfCheck live).on Reg.DBG_HEALTH_TOGGLING = true := by decide +kernel

theorem witness_jtag : (atState 3 1000000000000).sys.v3p3Low = false ∧ (after .v3p3Loss State.reset).sys.v3p3Low = true ∧ (after .idcode (atState 3 1000000000000)).dbg.dr = 0x081605CF ∧
    (after .extest (atState 3 1000000000000)).dbg.ir = some 0xFF ∧ (after .extest State.reset).dbg.ir = some 0 ∧ (after .samplePreload (atState 3 1000000000000)).dbg.ir = some 2 ∧
    (after .samplePreload (atState 3 1000000000000)).dbg.cells.length = 214 ∧
    [Instr.clamp, .highz, .extestPulse, .extestTrain, .bypass].map (fun i => ((after i State.reset).dbg.ir, (after i live).dbg.ir)) =
      [(some 0x04, some 0xFF), (some 0x05, some 0xFF), (some 0x0A, some 0xFF), (some 0x0B, some 0xFF), (some 0xFF, some 0xFF)] := by decide +kernel

end Sys2Proof.Machine.Tests
end

/-! The Quill engine: RTRG and FTRG (R301) and dropped releases (R285). -/

namespace Sys2Proof.Machine

/-! ### Saturating counters -/

/-- A saturating counter goes up by `n` and stops at its greatest value. -/
theorem State.f_incS_same (s : State) (x : Fld) (n : Nat) (h : x.fits) : (s.incS x n).f x = min (s.f x + n) (2 ^ x.width - 1) := by
  have hpos : 0 < 2 ^ x.width := Nat.two_pow_pos _
  unfold State.incS
  rw [State.f_setF_same s x _ h, Nat.mod_eq_of_lt (by omega)]

/-- A counter leaves every other register's fields alone. -/
theorem State.f_incS_other_addr (s : State) {x y : Fld} (n : Nat) (h : y.addr ≠ x.addr) : (s.incS x n).f y = s.f y := by
  unfold State.f
  rw [State.word_incS_other s n h]

/-! ### Runs of tasks -/

@[simp] theorem State.qrun_setQrun_same (s : State) (t : Nat) (r : QRun) : (s.setQrun t r).qrun t = r := Tab.get_set_same _ _ _

theorem State.qrun_setQrun_other (s : State) {t j : Nat} (r : QRun) (h : j ≠ t) : (s.setQrun t r).qrun j = s.qrun j :=
  Tab.get_set_other _ _ h

@[simp] theorem State.qrun_incS (s : State) (x : Fld) (n t : Nat) : (s.incS x n).qrun t = s.qrun t := rfl

/-- An instruction stands at an address whatever the run's registers hold. -/
theorem insnAt_setQrun {s : State} {t j pc : Nat} {r : QRun} : insnAt (s.setQrun j r) t pc ↔ insnAt s t pc := Iff.rfl

/-- The program counter arrives without a fault where an instruction stands (R303). -/
theorem arrive_of_insnAt {s : State} {t pc : Nat} (h : insnAt s t pc) : arrive s t pc = s := by
  obtain ⟨w, hw, hk⟩ := h
  simp [arrive, hw, hk]

/-- An instruction that is due, legal and without a fault of its own: the task goes on with the state and the registers that it
answers. -/
theorem qexec_eq_goTo {s u : State} {t op cost pc : Nat} {x : BitVec 26} {act : State → Nat → QRun → QStep} {r : QRun}
    (hw : atWord s t op x cost) (hact : act s t (s.qrun t) = .go u r pc) (hu : u.qrun t = s.qrun t) (hi : insnAt u t pc) :
    qexec s op x true cost act = goTo u t r pc cost := by
  obtain ⟨hrun, hcode, hunits⟩ := hw
  unfold qexec goTo
  simp [hrun, hcode, Nat.not_lt.mpr hunits, hact, hu, arrive_of_insnAt (insnAt_setQrun.mpr hi)]

/-! ### Edge instructions (R301) -/

/-- The state in which the edge slot of a symbol keeps the input LR and is FRESH no more. -/
def keepEdge (s : State) (symId : Nat) (lr : Bool) : State := s.setQil { s.qil with ed := s.qil.ed.set symId ⟨lr, false⟩ }

theorem qrun_keepEdge (s : State) (symId : Nat) (lr : Bool) (t : Nat) : (keepEdge s symId lr).qrun t = s.qrun t := rfl

theorem insnAt_keepEdge {s : State} {symId t pc : Nat} {lr : Bool} : insnAt (keepEdge s symId lr) t pc ↔ insnAt s t pc := Iff.rfl

/-- An edge instruction on a slot of its kind that the task owns. -/
theorem edgeOp_of_ownSlot {s : State} {t op kind : Nat} {x : BitVec 26} {d : QSlot} (f : Bool → Bool → Bool) (hok : okE x = true)
    (hat : atInsn s t op x 1) (hd : ownSlot t (s.progOf t).edges (bits x 0 13) [kind] = some d) :
    edgeOp s op kind x f = advance (keepEdge s d.symId (s.qrun t).lr) t
      { s.qrun t with lr := if (s.qil.ed.get d.symId).fresh then false else f (s.qrun t).lr (s.qil.ed.get d.symId).m } 1 := by
  obtain ⟨hword, hnext⟩ := hat
  unfold edgeOp
  rw [hok]
  refine qexec_eq_goTo hword ?_ (qrun_keepEdge ..) (insnAt_keepEdge.mpr hnext)
  have hlr (fresh b : Bool) : (!fresh && b) = if fresh then false else b := by cases fresh <;> rfl
  simp only [hd, hlr]
  rfl

/-- Settles O35: both instructions are `edgeOp` with the combination of LR and M that R301 names. -/
theorem edgeInstructionsFollowTheirMemory : Obligations.EdgeInstructionsFollowTheirMemory := by
  intro s t x d hok
  constructor
  · intro hat hd
    exact congrArg Host.Outcome.next (edgeOp_of_ownSlot (fun l m => l && !m) hok hat hd)
  · intro hat hd
    exact congrArg Host.Outcome.next (edgeOp_of_ownSlot (fun l m => !l && m) hok hat hd)

/-! ### Dropped releases (R285) -/

/-- A run after a dropped release: only its next release and its overrun episode and count differ. -/
def QRun.overrun (r : QRun) (next : Nat) : QRun := { r with next := next, overEp := true, overs := (r.overs + 1) % 2 ^ 32 }

/-- The state in which a dropped release of task `t` is counted. -/
def countOverrun (s : State) (t : Nat) : State :=
  (s.setQrun t ((s.qrun t).overrun (gridPoint s t s.ltc + periodNs s t))).incS (Reg.QIL_T_CNT_OVERRUN t)

/-- No task's status register is a task's counter register. -/
theorem taskState_addr_ne_overrun_addr (j t : Nat) : (Reg.QIL_T_STAT_STATE j).addr ≠ (Reg.QIL_T_CNT_OVERRUN t).addr := by
  simp only [Reg.QIL_T_STAT_STATE, Reg.QIL_T_CNT_OVERRUN, Reg.QIL_T_STAT, Reg.QIL_T_CNT]
  omega

theorem taskSt_countOverrun (s : State) (t j : Nat) : (countOverrun s t).taskSt j = s.taskSt j :=
  State.f_incS_other_addr _ 1 (taskState_addr_ne_overrun_addr j t)

theorem qrun_countOverrun_same (s : State) (t : Nat) :
    (countOverrun s t).qrun t = (s.qrun t).overrun (gridPoint s t s.ltc + periodNs s t) := by simp [countOverrun]

theorem qrun_countOverrun_other (s : State) {t j : Nat} (h : j ≠ t) : (countOverrun s t).qrun j = s.qrun j := by
  simp [countOverrun, State.qrun_setQrun_other s _ h]

theorem overrun_countOverrun (s : State) (t : Nat) :
    (countOverrun s t).f (Reg.QIL_T_CNT_OVERRUN t) = min (s.f (Reg.QIL_T_CNT_OVERRUN t) + 1) 255 :=
  State.f_incS_same _ (Reg.QIL_T_CNT_OVERRUN t) 1 (by simp [Fld.fits, Reg.QIL_T_CNT_OVERRUN])

/-- A release on the grid that finds its task READY, RUNNING or PRE-EMPTED is counted, and logged at the first of an episode. -/
theorem taskRelease_of_busy {s : State} {t : Nat} (hrun : s.running = true) (hper : periodNs s t ≠ 0) (hnext : (s.qrun t).next ≤ s.ltc)
    (hphase : phaseNs s t ≤ s.ltc) (hst : s.taskSt t = 2 ∨ s.taskSt t = 3 ∨ s.taskSt t = 4) :
    taskRelease s t = if (s.qrun t).overEp then countOverrun s t else (countOverrun s t).log Ev.QIL_OVERRUN t := by
  have hnotIdle : s.taskSt t ≠ 1 := by omega
  unfold taskRelease
  dsimp only
  rw [if_neg (by simp [hrun, hper, hnext, hphase]), if_neg hnotIdle, if_pos (by rcases hst with h | h | h <;> simp [h])]
  rfl

/-- Settles O38: the count is the same in both cases, and only the first release dropped of an episode offers a record. -/
theorem droppedReleaseLeavesTheRun : Obligations.DroppedReleaseLeavesTheRun := by
  intro k s hrun hper hnext hphase hst
  refine ⟨taskRelease s k, rfl, ?_⟩
  rw [taskRelease_of_busy hrun hper hnext hphase hst]
  cases hep : (s.qrun k).overEp with
  | true =>
    exact ⟨fun j _ => taskSt_countOverrun s k j, fun j hj => qrun_countOverrun_other s hj, qrun_countOverrun_same s k,
      overrun_countOverrun s k, rfl⟩
  | false =>
    exact ⟨fun j _ => taskSt_countOverrun s k j, fun j hj => qrun_countOverrun_other s hj, qrun_countOverrun_same s k,
      overrun_countOverrun s k, _, rfl, rfl, rfl⟩

end Sys2Proof.Machine

/-! Host ports and Inkwell: BAR0 in RESET and during starts (R447), a read time-out at the deadline (R466). -/

namespace Sys2Proof.Machine

/-! ### BAR0 in RESET and during starts (R447) -/

theorem not_inkServed_of_starting {s : State} (h : s.sysState ≤ 2) : inkServed s = false := by
  simp only [inkServed, State.running, Bool.or_eq_false_iff, decide_eq_false_iff_not]
  omega

theorem readServed_of_starting {s : State} (h : s.sysState ≤ 2) (a : Nat) : readServed s a = decide (a < 0x10000) := by
  have hnot (k : Nat) (hk : 2 < k) : s.sysState ≠ k := by omega
  simp [readServed, State.running, hnot]

/-- What a read latches is state of the clock alone (R57, R58), so it does not move the state of the module. -/
theorem sysState_readLatch (s : State) (r : Requester) (a : Nat) : (readLatch s r a).sysState = s.sysState := by
  have hregs : (readLatch s r a).regs = s.regs := (readLatch_within (cs := [.clk]) (List.Subset.refl _) (Within.refl s)).regs
  simp only [State.sysState, State.f, State.word, hregs]

theorem portRead_of_starting {s : State} (h : s.sysState ≤ 2) (r : Requester) (a : Nat) :
    (portRead s r a).1 = if a < 0x10000 then (readReg s r a).1 else 0 := by
  unfold portRead
  rw [readServed_of_starting h, not_inkServed_of_starting h]
  by_cases hsys : a < 0x10000
  · have hreg : a < 0x800000 := by omega
    simp [hsys, hreg]
  · simp [hsys]

theorem busWord_of_starting {s : State} (h : s.sysState ≤ 2) {r : Requester} (hr : r ≠ .sup) (a : Nat) :
    busWord s r a = if a < 0x10000 then viewReg s r a else 0 := by
  unfold busWord
  rw [readServed_of_starting h, not_inkServed_of_starting h]
  by_cases hsys : a < 0x10000
  · have hreg : a < 0x800000 := by omega
    simp [hsys, hreg]
  · simp [hsys, hr]

/-- A read of one aligned word over PCIe. -/
theorem rdOut_busRead_of_starting {s : State} (h : s.sysState ≤ 2) {a : Nat} (ha : a % 4 = 0) :
    (busRead s .pcie a 4).hst.rdOut = [if a < 0x10000 then BitVec.ofNat 32 (readReg s .pcie a).1 else 0] := by
  have hlatch : (readLatch s .pcie a).sysState ≤ 2 := (sysState_readLatch s .pcie a).symm ▸ h
  have hword := busWord_of_starting hlatch (r := .pcie) (by decide) a
  have hwell : illRead .pcie a 4 = false := by simp [illRead, ha]
  unfold busRead
  rw [if_neg (by decide), hwell]
  by_cases hsys : a < 0x10000
  · simp [hword, hsys, readReg]
  · simp [hword, hsys]

/-- A read of one word over SPI. -/
theorem spiOut_spiRead_of_starting {s : State} (h : s.sysState ≤ 2) {cmd : Word} (hreset : s.sysState ≠ 0) (hread : cmd.getLsbD 31 = true)
    (hone : cmd.toNat / 2 ^ 25 % 64 = 0) (halign : cmd.toNat % 4 = 0) :
    (spiTransaction s cmd []).hst.spiOut[2]? = some (BitVec.ofNat 32
      (if cmd.toNat % 2 ^ 24 < 0x10000 then (readReg s .spi (cmd.toNat % 2 ^ 24)).1 else 0)) := by
  have haddr : cmd.toNat % 2 ^ 24 / 4 * 4 = cmd.toNat % 2 ^ 24 := by omega
  unfold spiTransaction
  rw [if_neg hreset, hone, haddr, if_pos hread]
  simp [spiReadWords, portRead_of_starting h]

section
variable {s : State} (hs : inkServed s = false)
include hs

theorem portWrite_of_not_inkServed (r : Requester) (a v : Nat) : portWrite s r a v = s := by
  simp [portWrite, inkHostWrite, regWrite, hs]

theorem spiWriteWords_of_not_inkServed (l : List Word) (a : Nat) : spiWriteWords l a s = s := by
  induction l generalizing a with
  | nil => rfl
  | cons w l ih => rw [spiWriteWords, portWrite_of_not_inkServed hs, ih]

/-- A write over SPI moves nothing but the answer on the port itself. -/
theorem spiWrite_within_of_not_inkServed {cmd : Word} (data : List Word) (hwrite : cmd.getLsbD 31 = false) :
    Within [.hst] s (spiTransaction s cmd data) := by
  have hsub : [Comp.hst] ⊆ [Comp.hst] := List.Subset.refl _
  unfold spiTransaction
  refine Within.ite (Within.put_hst_spiOut hsub (Within.refl s)) ?_
  simp only [hwrite, Bool.false_eq_true, if_false, spiWriteWords_of_not_inkServed hs]
  exact Within.ite (Within.put_hst_spiRefused_spiOut hsub (Within.refl s)) (Within.put_hst_spiRefused_spiOut hsub (Within.refl s))

theorem registerWrite_of_not_inkServed {r : Requester} (hr : r ≠ .cfg) (a bytes v : Nat) : registerWrite s r a bytes v = s := by
  simp [registerWrite, hr, hs]

theorem gate_of_not_inkServed (a : Access) (addr : Nat) (rwp : Bool) (k : State → State) : gate s a addr rwp k = s := by
  simp [gate, hs]

theorem flashCtrlWrite_of_not_inkServed (a : Access) (mask v : Nat) : flashCtrlWrite s a mask v = s := by
  simp [flashCtrlWrite, gate_of_not_inkServed hs]

end

/-- Without a GO that waits for its image, nothing is checked. -/
theorem flashCheck_of_no_go {s : State} (h : s.sys.flashGo = false) (img : FolioImage) : flashCheck s img = s := by
  simp [flashCheck, h]

/-- Settles O11: where Inkwell is not served every write path returns its state, and reads are served below 0x10000 only. -/
theorem startsShowTheSysBlockOnly : Obligations.StartsShowTheSysBlockOnly := by
  intro s hstart
  have hs : inkServed s = false := not_inkServed_of_starting hstart
  refine ⟨fun a ha => ⟨_, rfl, rdOut_busRead_of_starting hstart ha⟩,
    fun cmd hreset hread hone halign => ⟨_, rfl, spiOut_spiRead_of_starting hstart hreset hread hone halign⟩,
    fun cmd data hwrite => ⟨_, rfl, (spiWrite_within_of_not_inkServed hs data hwrite).onlyChanges⟩, ?_, ?_⟩
  · intro r addr bytes v n e w d x k g b hr
    have ignored {t : State} (h : t = s) : (Host.Outcome.next t : Host.Outcome State Fault Refusal) = .next s := congrArg _ h
    have gated (a : Access) (addr : Nat) (rwp : Bool) (act : State → State) :
        (Host.Outcome.next (gate s a addr rwp act) : Host.Outcome State Fault Refusal) = .next s :=
      ignored (gate_of_not_inkServed hs a addr rwp act)
    simp only [List.forall_mem_cons, List.not_mem_nil, false_imp_iff, implies_true, and_true]
    exact ⟨ignored (registerWrite_of_not_inkServed hs hr ..), ignored (if_pos (by simp [hs])), ignored (if_pos (by simp [hs])),
      gated .., gated .., gated .., gated .., gated .., gated .., gated .., gated .., gated .., gated .., gated .., gated ..,
      gated .., gated .., gated .., gated .., gated .., gated .., gated ..⟩
  · intro r x img hgo
    refine congrArg Host.Outcome.next ?_
    rw [hgo, if_neg Bool.false_ne_true, flashCtrlWrite_of_not_inkServed hs, flashCheck_of_no_go hgo]

/-! ### Posting a completion (R463) -/

@[simp] theorem State.sess_setSess_same (s : State) (n : Nat) (x : Session) : (s.setSess n x).sess n = x := Tab.get_set_same _ _ _

theorem State.sess_setSess_other (s : State) {n m : Nat} (x : Session) (h : m ≠ n) : (s.setSess n x).sess m = s.sess m :=
  Tab.get_set_other _ _ h

/-- An interrupt cause writes HST_IRQ_PEND and no other register (R454). -/
theorem State.word_irq_other (s : State) (v : Nat) {b : Nat} (h : b ≠ Reg.HST_IRQ_PEND) : (s.irq v).word b = s.word b := by
  have hregs (t : State) : (t.msixSend v).regs = t.regs :=
    (State.msixSend_within (cs := [.msix]) (List.Subset.refl _) (Within.refl t)).regs
  unfold State.irq
  rw [State.word, hregs]
  exact State.word_setF_other s _ h

theorem State.f_irq_other_addr (s : State) (v : Nat) {y : Fld} (h : y.addr ≠ Reg.HST_IRQ_PEND) : (s.irq v).f y = s.f y := by
  unfold State.f
  rw [State.word_irq_other s v h]

/-- A session whose completion queue has taken the completion of a command. -/
def Session.posted (x : Session) (c : Cmd) : Session :=
  { x with cmds := x.cmds.filter (fun d => d.sqHead ≠ c.sqHead), cqTail := (x.cqTail + 1) % 128 }

/-- What the registers, the log and the interrupts show of a completion that has been stored. -/
def showPost (s : State) (n : Nat) (c : Cmd) (status : Nat) : State :=
  let s1 := (s.noteInflight n).incW (Reg.HST_SESS_CNT_CMDS n)
  let s2 := if status = stTIMEOUT then s1.incS (Reg.HST_SESS_CNT_TIMEOUTS n) else s1
  let s3 := if status = stSTATE then s2.log Ev.HST_CMD_STATE n [.w c.op, .w c.cid] else s2
  if c.flags.testBit 2 then s3 else s3.irq (n % 4)

/-- The completion of a command that the session holds: its entry is stored, the command leaves the queue, and both are shown. -/
theorem postOne_of_held {s : State} {n : Nat} {c : Cmd} (h : c ∈ (s.sess n).cmds) (status : Nat) (res : List Nat) :
    ∃ at' entry, postOne s n c status res = showPost ((s.inkWrite at' entry).setSess n ((s.sess n).posted c)) n c status := by
  have hany : (s.sess n).cmds.any (fun d => d.sqHead = c.sqHead) = true := List.any_eq_true.mpr ⟨c, h, by simp⟩
  unfold postOne
  rw [if_pos hany]
  exact ⟨_, _, rfl⟩

theorem sess_showPost (s : State) (n : Nat) (c : Cmd) (status m : Nat) : (showPost s n c status).sess m = s.sess m := by
  have hcs : [Comp.regs, .offers, .msix] ⊆ [Comp.regs, .offers, .msix] := List.Subset.refl _
  have hwithin : Within [.regs, .offers, .msix] s (showPost s n c status) := by
    unfold showPost
    extract_lets s1 s2 s3
    have h1 : Within _ s s1 := State.incW_within (sub hcs) (State.noteInflight_within (sub hcs) (Within.refl s))
    have h2 : Within _ s s2 := Within.ite (State.incS_within (sub hcs) h1) h1
    have h3 : Within _ s s3 := Within.ite (State.log_within (sub hcs) h2) h2
    exact Within.ite h3 (State.irq_within (sub hcs) h3)
  rw [State.sess, hwithin.sess, State.sess]

/-- A completion is shown in the registers of its session and in HST_IRQ_PEND only. -/
theorem word_showPost_other (s : State) {n b : Nat} (c : Cmd) (status : Nat) (hstat : b ≠ Reg.HST_SESS_STAT n)
    (hcnt : b ≠ Reg.HST_SESS_CNT n) (hirq : b ≠ Reg.HST_IRQ_PEND) : (showPost s n c status).word b = s.word b := by
  unfold showPost
  extract_lets s1 s2 s3
  have h1 : s1.word b = s.word b := (State.word_incW_other _ 1 hcnt).trans (State.word_setF_other s _ hstat)
  have h2 : s2.word b = s.word b := by
    unfold s2
    split
    · exact (State.word_incS_other _ 1 hcnt).trans h1
    · exact h1
  have h3 : s3.word b = s.word b := by
    unfold s3
    split <;> exact h2
  split
  · exact h3
  · exact (State.word_irq_other _ _ hirq).trans h3

/-- A completion with TIMEOUT is counted in the session's TIMEOUTS, beside CMDS in the same register. -/
theorem timeouts_showPost_timeout (s : State) (n : Nat) (c : Cmd) :
    (showPost s n c stTIMEOUT).f (Reg.HST_SESS_CNT_TIMEOUTS n) = min (s.f (Reg.HST_SESS_CNT_TIMEOUTS n) + 1) 255 := by
  have hfits : (Reg.HST_SESS_CNT_TIMEOUTS n).fits := by simp [Fld.fits, Reg.HST_SESS_CNT_TIMEOUTS]
  unfold showPost
  extract_lets s1 s2 s3
  have h1 : s1.f (Reg.HST_SESS_CNT_TIMEOUTS n) = s.f (Reg.HST_SESS_CNT_TIMEOUTS n) :=
    calc s1.f (Reg.HST_SESS_CNT_TIMEOUTS n)
        = (s.noteInflight n).f (Reg.HST_SESS_CNT_TIMEOUTS n) :=
          State.f_setF_apart _ _ (by simp [Fld.fits, Reg.HST_SESS_CNT_CMDS]) hfits
            (.inr (by simp [Reg.HST_SESS_CNT_CMDS, Reg.HST_SESS_CNT_TIMEOUTS]))
      _ = s.f (Reg.HST_SESS_CNT_TIMEOUTS n) :=
          State.f_setF_apart _ _ (by simp [Fld.fits, Reg.HST_SESS_STAT_INFLIGHT]) hfits
            (.inl (by simp [Reg.HST_SESS_STAT_INFLIGHT, Reg.HST_SESS_CNT_TIMEOUTS]))
  have h2 : s2.f (Reg.HST_SESS_CNT_TIMEOUTS n) = min (s.f (Reg.HST_SESS_CNT_TIMEOUTS n) + 1) 255 :=
    (State.f_incS_same s1 _ 1 hfits).trans (by rw [h1]; rfl)
  have h3 : s3 = s2 := if_neg (by decide)
  rw [h3]
  split
  · exact h2
  · exact (State.f_irq_other_addr _ _ (by simp only [Reg.HST_SESS_CNT_TIMEOUTS, Reg.HST_SESS_CNT, Reg.HST_IRQ_PEND]; omega)).trans h2

/-! ### A read time-out at the deadline (R466) -/

/-- Without a command there is nothing at the front to settle. -/
theorem settleHeads_of_no_cmds {s : State} {n : Nat} (h : (s.sess n).cmds = []) (k : Nat) : settleHeads n k s = s := by
  cases k with
  | zero => rfl
  | succ k => simp [settleHeads, frontCmd, h]

theorem cmds_putCmd_of_no_cmds {s : State} {n : Nat} (h : (s.sess n).cmds = []) (m : Nat) (c : Cmd) : ((putCmd s m c).sess n).cmds = [] := by
  by_cases hm : n = m
  · subst hm
    simp [putCmd, h]
  · rw [putCmd, State.sess_setSess_other s _ hm, h]

/-- Reads go out for commands that sessions hold: a session without commands gets none. -/
theorem cmds_issueReads_of_no_cmds {s : State} {n : Nat} (h : (s.sess n).cmds = []) (k : Nat) : ((issueReads k s).sess n).cmds = [] := by
  induction k generalizing s with
  | zero => exact h
  | succ k ih =>
    rw [issueReads]
    split
    · exact h
    · split
      · exact ih (cmds_putCmd_of_no_cmds h _ _)
      · exact h

theorem f_issueReads (k : Nat) (s : State) (y : Fld) : (issueReads k s).f y = s.f y := by
  have hregs : (issueReads k s).regs = s.regs := (issueReads_within (cs := [.sess, .hst]) (List.Subset.refl _) (Within.refl s)).regs
  simp only [State.f, State.word, hregs]

/-- A command whose deadline has come pulls no more. -/
theorem pulling_of_deadline {s : State} {n : Nat} (h : ∀ c ∈ (s.sess n).cmds, c.deadline ≤ s.ltc) : pulling s n = none := by
  refine List.find?_eq_none.mpr fun c hc => ?_
  simp [Nat.not_lt.mpr (h c hc)]

/-- A read whose session pulls nothing is not reissued. -/
theorem cplTimeout_of_not_pulling {s : State} {n : Nat} (h : pulling s n = none) : cplTimeout s n = s := by
  unfold cplTimeout
  rw [h]

/-- The counter of read time-outs stands outside the registers of a session. -/
theorem cplTo_addr_ne_sessStat {n : Nat} : Reg.HST_PCIE_CNT_CPL_TO.addr ≠ Reg.HST_SESS_STAT n := by
  simp only [Reg.HST_PCIE_CNT_CPL_TO, Reg.HST_PCIE_CNT, Reg.HST_SESS_STAT]
  omega

theorem cplTo_addr_ne_sessCnt {n : Nat} : Reg.HST_PCIE_CNT_CPL_TO.addr ≠ Reg.HST_SESS_CNT n := by
  simp only [Reg.HST_PCIE_CNT_CPL_TO, Reg.HST_PCIE_CNT, Reg.HST_SESS_CNT]
  omega

/-- The completion of a session's only command leaves it none, and so nothing to settle. -/
theorem post_of_only_cmd {s : State} {n : Nat} {c : Cmd} (h : (s.sess n).cmds = [c]) (status : Nat) (res : List Nat) :
    ∃ t, post s n c status res = showPost t n c status ∧ (t.sess n).cmds = [] ∧ t.regs = s.regs := by
  obtain ⟨at', entry, hpost⟩ := postOne_of_held (h ▸ List.mem_singleton_self c : c ∈ (s.sess n).cmds) status res
  have hempty : (((s.inkWrite at' entry).setSess n ((s.sess n).posted c)).sess n).cmds = [] := by simp [Session.posted, h]
  refine ⟨_, ?_, hempty, rfl⟩
  rw [post, hpost, settleHeads_of_no_cmds (by rw [sess_showPost, hempty])]

/-- A session's command that has not started, at its deadline: it is logged and completed with TIMEOUT. -/
theorem cmdTimeout_of_only_cmd {s : State} {n : Nat} {c : Cmd} (hink : inkServed s = true) (hcmds : (s.sess n).cmds = [c])
    (hstart : c.started = false) (hdead : c.deadline ≤ s.ltc) :
    cmdTimeout s n c.cid =
      issueReads 32 (post (s.log Ev.HST_CMD_TIMEOUT n [.w c.op, .w c.cid, .w c.tries]) n c stTIMEOUT []) := by
  have hfind : (s.sess n).cmds.find? (fun d => d.cid = c.cid && decide (d.deadline ≤ s.ltc) && unaffected s n d) = some c := by
    simp [hcmds, hdead, unaffected, hstart]
  unfold cmdTimeout
  rw [hfind]
  simp [hink, hstart]

/-- Settles O54: at its deadline a command pulls no more, and its completion with TIMEOUT is the count. -/
theorem deadlineGovernsReadTimeout : Obligations.DeadlineGovernsReadTimeout := by
  intro n s c hink hcmds hstart _ _ hdead
  have hnone : pulling s n = none := pulling_of_deadline (by simp [hcmds, hdead])
  obtain ⟨t, hpost, hempty, hregs⟩ :=
    post_of_only_cmd (s := s.log Ev.HST_CMD_TIMEOUT n [.w c.op, .w c.cid, .w c.tries]) hcmds stTIMEOUT []
  have hfields (y : Fld) : t.f y = s.f y := by
    unfold State.f State.word
    rw [hregs]
    rfl
  refine ⟨congrArg Host.Outcome.next (cplTimeout_of_not_pulling hnone), issueReads 32 (showPost t n c stTIMEOUT), ?_, ?_, ?_, ?_⟩
  · exact congrArg Host.Outcome.next ((cmdTimeout_of_only_cmd hink hcmds hstart (Nat.le_of_eq hdead)).trans (by rw [hpost]))
  · exact cmds_issueReads_of_no_cmds (by rw [sess_showPost, hempty]) 32
  · rw [f_issueReads, timeouts_showPost_timeout, hfields]
  · rw [f_issueReads, State.f, word_showPost_other t c stTIMEOUT cplTo_addr_ne_sessStat cplTo_addr_ne_sessCnt (by decide)]
    exact hfields _

end Sys2Proof.Machine

/-! The JTAG port: the fields of the word that IDCODE returns (R529). -/

namespace Sys2Proof.Machine

/-- A field's value fits the field's width. -/
theorem State.f_lt_two_pow_width (s : State) (x : Fld) : s.f x < 2 ^ x.width := BitVec.isLt _

/-- The fields of a 32-bit word made of a number that fits it, by division. -/
theorem toNat_extractLsb'_ofNat_of_lt {v : Nat} (h : v < 2 ^ 32) (lo width : Nat) :
    ((BitVec.ofNat 32 v).extractLsb' lo width).toNat = v / 2 ^ lo % 2 ^ width := by
  rw [BitVec.extractLsb'_toNat, BitVec.toNat_ofNat, Nat.mod_eq_of_lt h, Nat.shiftRight_eq_div_pow]

/-- With its supply the port loads IDCODE in every state, and the data register captures the value (R522, R528, R529). -/
theorem jtagIdcode_of_v3p3 {s : State} (h : s.sys.v3p3Low = false) :
    jtagIdcode s = s.setDbg { s.dbg with ir := some 0x01, dr := BitVec.ofNat 32 (idcodeValue s) } := by
  simp [jtagIdcode, jtagLoad, h, State.setDbg]

/-- The steppings A to P fill the four bits of the stepping without a wrap. -/
theorem idcodeValue_of_stepping {s : State} (hA : 0x41 ≤ s.f Reg.SYS_ID_STEP) (hP : s.f Reg.SYS_ID_STEP < 0x51) :
    idcodeValue s = (s.f Reg.SYS_ID_STEP - 0x41) * 2 ^ 28 + s.f Reg.SYS_ID_PART * 2 ^ 12 + 0x2E7 * 2 + 1 := by
  have hstep : (s.f Reg.SYS_ID_STEP + 256 - 0x41) % 16 = s.f Reg.SYS_ID_STEP - 0x41 := by omega
  rw [idcodeValue, hstep]

/-- Settles O60: the stepping and PART stay within 4 and 16 bits, so the four fields of the sum do not overlap. -/
theorem idcodeReturnsTheSteppingAndPart : Obligations.IdcodeReturnsTheSteppingAndPart := by
  intro s hsupply hA hP
  have hpart : s.f Reg.SYS_ID_PART < 2 ^ 16 := State.f_lt_two_pow_width s Reg.SYS_ID_PART
  have hvalue := idcodeValue_of_stepping hA hP
  have hfits : idcodeValue s < 2 ^ 32 := by omega
  refine ⟨jtagIdcode s, rfl, ?_⟩
  rw [jtagIdcode_of_v3p3 hsupply]
  refine ⟨?stepping, ?part, ?maker, ?one⟩
  case stepping => exact (toNat_extractLsb'_ofNat_of_lt hfits 28 4).trans (by omega)
  case part => exact (toNat_extractLsb'_ofNat_of_lt hfits 12 16).trans (by omega)
  case maker => exact (toNat_extractLsb'_ofNat_of_lt hfits 1 11).trans (by omega)
  case one =>
    have hodd : idcodeValue s % 2 = 1 := by omega
    simp [State.setDbg, BitVec.getLsbD_ofNat, hodd]

end Sys2Proof.Machine
